-- ==== Sys2Proof/Word.lean ====
section
/-! DEFINITION. The word types of the GM100-A model and the sparse map that holds its large stores.
Registers are 64 bits wide (R7); memory is addressed by bytes. -/

namespace Sys2Proof

/-- A 64-bit register or parameter word (R7). -/
abbrev W64 := BitVec 64

/-- One byte of memory. -/
abbrev Byte := BitVec 8

/-- A sparse store: key and value pairs, keys strictly rising, no entry equal to the store's default
(`Map.wf` of Machine/Ops.lean). Equal stores are then equal data. -/
abbrev Map (α : Type) := List (Nat × α)

end Sys2Proof
end

