-- ==== Sys2Proof/Syntax.lean ====
section
/-! DEFINITION. The commands of the block: one constructor of `Instr` per row of spec/opcode_table.json.
The table gives no operand fields; each constructor carries what the row's rule names. An Icsum instruction
carries bits [55:0] of its word, its constructor standing for the opcode in [63:56] (R150). -/

namespace Sys2Proof

/-- Who makes a register access (R214, R335, R396, R400): node software of a half, the host over the link of
a half, or the control die firmware. -/
inductive Requester where
  | node (half : BitVec 1)
  | host (link : BitVec 1)
  | firmware (half : BitVec 1)
deriving DecidableEq, Repr

/-- What executes scalar, token and hoist instructions (R146, R148): the leading sequencer of a gang, a row
control core, or a node core (0 to 23 of its half, R14). -/
inductive Proc where
  | seq (leader : BitVec 6)
  | rcc (row : BitVec 6)
  | node (half : BitVec 1) (core : BitVec 5)
deriving DecidableEq, Repr

/-- Why a sequencer issues a bubble (R29, R94, R166, R178). -/
inductive BubbleWhy where
  | token | decision | queueFull | loadRule
deriving DecidableEq, Repr

/-- The outcome of the ECC check of one access (R410). -/
inductive Ecc where
  | ok | corrected | uncorrectable
deriving DecidableEq, Repr

/-- A memory-side atomic request on one element (R263-R268). -/
structure AtomReq where
  addr : BitVec 48
  fc : BitVec 4
  aop : BitVec 4
  x : W64
  cmp : W64
  repro : Bool
  epoch : BitVec 4
  close : Bool
  src : BitVec 17
deriving DecidableEq, Repr

/-- A leat packet (R304): header fields and the lines it carries, eight words a line. -/
structure Packet where
  daddr : W64
  key : BitVec 32
  epoch : BitVec 16
  inc : BitVec 16
  ptype : BitVec 4
  srcNode : BitVec 8
  srcHalf : BitVec 1
  lines : BitVec 3
  aop : BitVec 4
  fc : BitVec 4
  sunit : BitVec 13
  tag : BitVec 16
  status : BitVec 8
  repoch : BitVec 4
  close : Bool
  repro : Bool
  ret : Bool
  edge : Bool
  sindex : BitVec 16
  first : BitVec 6
  last : BitVec 6
  data : List W64
deriving DecidableEq, Repr

/-- A Lomly transaction packet (R381). -/
structure LomPkt where
  addr : W64
  ptype : BitVec 4
  queue : BitVec 4
  tag : BitVec 16
  status : BitVec 8
  lines : BitVec 2
  rlinesm1 : BitVec 6
  data : W64
  aux : W64
  body : List W64
deriving DecidableEq, Repr

/-- A link of the part, as its link layer sees it (R299, R370, R275). -/
inductive LinkId where
  | leat (half : BitVec 1) (link : BitVec 6)
  | lomly (half : BitVec 1) (port : BitVec 1)
  | seam (bridge : BitVec 1)
deriving DecidableEq, Repr

/-- A 256-byte flit after decoding (R301): `fecOk` when every codeword was correctable, `tagOk` when the
authentication tag (or the CRC of a SESSION 0 flit) verified. -/
structure Flit where
  seq : BitVec 16
  ack : BitVec 16
  kind : BitVec 2
  vc : BitVec 2
  cr0 : BitVec 8
  cr1 : BitVec 8
  cr2 : BitVec 8
  session : BitVec 32
  fecOk : Bool
  tagOk : Bool
  pkts : List Packet
  lpkts : List LomPkt
deriving DecidableEq, Repr

/-- One reading of a half's sensors, in degrees Celsius (R467). -/
structure Temps where
  rows : List Nat
  dies : List Nat
  hbm : List Nat
  optics : List Nat
  regs : List Nat
deriving DecidableEq, Repr

/-- The units of a half that failed calibration (R502, R503); `softrep` gives rows repaired by channel. -/
structure CalReport where
  keyLoad : List Nat
  slots : List Nat
  rows : List Nat
  chans : List (Nat × Bool)
  dlinks : List Nat
  optics : List Nat
  softrep : List (Nat × Nat)
deriving DecidableEq, Repr

/-- A shard fetched by a restore (R364): its manifest record as 16 words, its bytes, and whether a leat or
gateway error ended the fetch. -/
structure Shard where
  record : List W64
  bytes : List Byte
  fetchErr : Bool
deriving DecidableEq, Repr

/-- What a register write brings: the word written, and the W1C bits that the part sets at the same moment (R10). -/
structure RegData where
  word : W64
  sets : W64
deriving DecidableEq, Repr

/-- A register read: its width in bytes (R7), and the bits that the part sets at the same moment (R10). -/
structure RegRead where
  size : Nat
  sets : W64
deriving DecidableEq, Repr

/-- A hoist instruction as it issues: its stream, and what the ECC of its source lines shows, by request (R262, R410). -/
structure HoistRun where
  u : Proc
  ecc : List (Nat × Ecc)
deriving DecidableEq, Repr

/-- A leat port that fails, and the lanes it has left (R300). -/
structure PortLoss where
  port : BitVec 7
  lanes : BitVec 8
deriving DecidableEq, Repr

/-- What the peer of a leat session sends (R441): nonce, ephemeral key, identity key. -/
structure PeerHello where
  nonce : List Byte
  eph : List Byte
  pub : List Byte
deriving DecidableEq, Repr

/-- Commands of the block. Operand `by` is the requester of a register access, `h` a half, `row` a global
row, `ch` a global channel, `w` bits [55:0] of an Icsum word, `v` a register value. -/
inductive Instr where
  -- registers
  | registerWrite (by' : Requester) (addr : BitVec 48) (size : Nat) (v : RegData)
  | readToClear (by' : Requester) (addr : BitVec 48) (rd : RegRead)
  -- dispatch and sequencer control
  | queueDispatch (u : Proc) (op : BitVec 8) (w : BitVec 56)
  | bubble (leader : BitVec 6) (why : BubbleWhy)
  | nop (leader : BitVec 6) (w : BitVec 56)
  | halt (leader : BitVec 6) (w : BitVec 56)
  | loop (leader : BitVec 6) (w : BitVec 56)
  | loopR (leader : BitVec 6) (w : BitVec 56)
  | endl (leader : BitVec 6) (w : BitVec 56)
  | brk (leader : BitVec 6) (w : BitVec 56)
  | decide (leader : BitVec 6) (w : BitVec 56)
  | stepmark (leader : BitVec 6) (w : BitVec 56)
  | waitT (u : Proc) (w : BitVec 56)
  | sigT (u : Proc) (w : BitVec 56)
  -- scalar and control subset
  | sli (u : Proc) (w : BitVec 56)
  | sadd (u : Proc) (w : BitVec 56)
  | ssub (u : Proc) (w : BitVec 56)
  | smul (u : Proc) (w : BitVec 56)
  | sand (u : Proc) (w : BitVec 56)
  | sor (u : Proc) (w : BitVec 56)
  | sxor (u : Proc) (w : BitVec 56)
  | sshl (u : Proc) (w : BitVec 56)
  | sshr (u : Proc) (w : BitVec 56)
  | smovp (u : Proc) (w : BitVec 56)
  | sld (u : Proc) (w : BitVec 56)
  | sst (u : Proc) (w : BitVec 56)
  | br (u : Proc) (w : BitVec 56)
  | jal (u : Proc) (w : BitVec 56)
  | jr (u : Proc) (w : BitVec 56)
  | fadd (u : Proc) (w : BitVec 56)
  | fsub (u : Proc) (w : BitVec 56)
  | fmul (u : Proc) (w : BitVec 56)
  | ffma (u : Proc) (w : BitVec 56)
  | fdiv (u : Proc) (w : BitVec 56)
  | fsqrt (u : Proc) (w : BitVec 56)
  | fcmp (u : Proc) (w : BitVec 56)
  | fcvt (u : Proc) (w : BitVec 56)
  | sumrd (row : BitVec 6) (w : BitVec 56)
  | post (row : BitVec 6) (w : BitVec 56)
  | patch (row : BitVec 6) (w : BitVec 56)
  -- array: the head of the matrix queue issues
  | mlw (leader : BitVec 6)
  | msw (leader : BitVec 6)
  | mma (leader : BitVec 6)
  | mga (leader : BitVec 6)
  | mgd (leader : BitVec 6)
  | mdistL1 (leader : BitVec 6)
  | mdistL2 (leader : BitVec 6)
  | mminplus (leader : BitVec 6)
  | mmaxplus (leader : BitVec 6)
  | mcmp (leader : BitVec 6)
  | msl (leader : BitVec 6)
  -- vector: the head of the vector queue issues
  | vadd (leader : BitVec 6)
  | vmul (leader : BitVec 6)
  | vfma (leader : BitVec 6)
  | vwmul (leader : BitVec 6)
  | vdot4 (leader : BitVec 6)
  | vmax (leader : BitVec 6)
  | vmin (leader : BitVec 6)
  | vcmp (leader : BitVec 6)
  | vsel (leader : BitVec 6)
  | vsum (leader : BitVec 6)
  | vperm (leader : BitVec 6)
  | vcvt (leader : BitVec 6)
  | vld (leader : BitVec 6)
  | vst (leader : BitVec 6)
  | vexp (leader : BitVec 6)
  | vlog2 (leader : BitVec 6)
  | vrcp (leader : BitVec 6)
  | vrsq (leader : BitVec 6)
  | vtanh (leader : BitVec 6)
  | vsig (leader : BitVec 6)
  | sumq (leader : BitVec 6)
  | summarySlotFill (row : BitVec 6)
  -- tailrace configuration
  | trcfg (leader : BitVec 6)
  | trcfgTableLoad (leader : BitVec 6)
  -- hoists: the head of the hoist queue issues
  | hget (x : HoistRun)
  | hput (x : HoistRun)
  | hcp (x : HoistRun)
  | hatom (x : HoistRun)
  -- completion
  | instructionComplete (u : Proc) (id : Nat) (who : Option (BitVec 12)) (err : BitVec 8)
  | tokenDecrement (u : Proc) (id : Nat)
  -- vector exceptions: the ACTION of the core of a row's logical column
  | vexcRestart (row : BitVec 6) (col : BitVec 6)
  | vexcRestartNotrap (row : BitVec 6) (col : BitVec 6)
  | vexcSkip (row : BitVec 6) (col : BitVec 6)
  | vexcHalt (row : BitVec 6) (col : BitVec 6)
  -- contexts and programs
  | contextSwitch (leader : BitVec 6)
  | watchdogExpiry (leader : BitVec 6)
  | icsumProgramLoad (u : Proc) (bank : BitVec 1) (image : List W64)
  -- gang control by node software
  | go (by' : Requester) (row : BitVec 6)
  | arm (by' : Requester) (row : BitVec 6)
  | cont (by' : Requester) (row : BitVec 6)
  | stop (by' : Requester) (row : BitVec 6)
  | stopSave (by' : Requester) (row : BitVec 6)
  | yield (by' : Requester) (row : BitVec 6)
  | colmapWrite (by' : Requester) (row : BitVec 6) (n : BitVec 3) (v : W64)
  | imctlGenWrite (by' : Requester) (row : BitVec 6) (v : W64)
  | instrStoreWrite (by' : Requester) (row : BitVec 6) (bank : BitVec 1) (i : BitVec 13) (v : W64)
  | pshadowWrite (by' : Requester) (row : BitVec 6) (i : BitVec 6) (v : W64)
  | pactiveWrite (by' : Requester) (row : BitVec 6) (i : BitVec 6) (v : W64)
  | wdogLimitWrite (by' : Requester) (row : BitVec 6) (v : W64)
  | paceWrite (by' : Requester) (row : BitVec 6) (v : W64)
  | detmodeWrite (by' : Requester) (row : BitVec 6) (v : W64)
  -- rates, sensors, power samples
  | fantailEvaluation (h : BitVec 1) (watts : BitVec 16)
  | pacingRelease (leader : BitVec 6)
  | sensorRead (h : BitVec 1) (t : Temps)
  | thermalTrip (h : BitVec 1) (utype : BitVec 8) (uindex : BitVec 16)
  | powerSample (h : BitVec 1) (watts : BitVec 16)
  | barrierRelease (h : BitVec 1) (slot : BitVec 4)
  -- solver engine
  | solvDoorbell (by' : Requester) (h : BitVec 1) (v : W64)
  | solvCqRelease (by' : Requester) (h : BitVec 1) (v : W64)
  | solvCancel (by' : Requester) (h : BitVec 1)
  | solverLu (h : BitVec 1)
  | solverChol (h : BitVec 1)
  | solverSolve (h : BitVec 1)
  | solverResume (h : BitVec 1)
  | solverPanelStep (h : BitVec 1)
  | solverCorrection (h : BitVec 1)
  | solverCompletion (h : BitVec 1)
  -- memory
  | memoryRead (h : BitVec 1) (addr : BitVec 48) (len : BitVec 7) (ecc : Ecc)
  | memoryWrite (h : BitVec 1) (addr : BitVec 48) (bytes : List Byte)
  | memoryAtomic (h : BitVec 1) (req : AtomReq)
  | reproFp64AddApply (h : BitVec 1) (n : BitVec 4)
  | epochOpen (by' : Requester) (h : BitVec 1) (n : BitVec 4) (v : W64)
  | epochAbort (by' : Requester) (h : BitVec 1) (n : BitVec 4) (v : W64)
  | epochTimeout (h : BitVec 1) (n : BitVec 4)
  | tgStart (by' : Requester) (ch : BitVec 10) (v : W64)
  | tgStop (by' : Requester) (ch : BitVec 10) (v : W64)
  | tgModeSelect (by' : Requester) (ch : BitVec 10) (v : W64)
  | tgRunEnd (ch : BitVec 10) (errors : BitVec 32) (pc : BitVec 1) (offset : BitVec 31)
  | scrubRead (ch : BitVec 10) (pc : BitVec 1) (offset : BitVec 31) (ecc : Ecc)
  | dramRefresh (ch : BitVec 10) (k : BitVec 32)
  | trackerHoldRelease (h : BitVec 1)
  -- seam and weir
  | bridgeAdmissionResume (b : BitVec 1)
  | weirBlockEncode (b : BitVec 1) (dir : BitVec 1)
  | weirBlockDecode (b : BitVec 1) (dir : BitVec 1)
  -- leat
  | linkFlitReceive (l : LinkId) (f : Flit)
  | linkNak (l : LinkId) (ack : BitVec 16)
  | leatPortRemove (h : BitVec 1) (p : PortLoss)
  | leatLinkTrained (h : BitVec 1) (link : BitVec 6) (delayNs : Nat) (lanes : BitVec 8)
  | leatSessionHandshake (h : BitVec 1) (link : BitVec 6) (peer : PeerHello) (sigOk : Bool) (debugPeer : Bool)
  | leatReadReq (h : BitVec 1) (p : Packet)
  | leatWrite (h : BitVec 1) (p : Packet)
  | leatAtomic (h : BitVec 1) (p : Packet)
  | leatReadResp (h : BitVec 1) (p : Packet)
  | leatCompletion (h : BitVec 1) (p : Packet)
  | leatBulk (h : BitVec 1) (p : Packet)
  | leatTime (h : BitVec 1) (p : Packet)
  | leatColl (h : BitVec 1) (p : Packet)
  | leatTimeout (h : BitVec 1) (tag : BitVec 16)
  | leatRcommit (by' : Requester) (h : BitVec 1) (v : W64)
  | leatJobEpochWrite (by' : Requester) (h : BitVec 1) (n : BitVec 4) (v : W64)
  | leatSlotDrained (h : BitVec 1) (n : BitVec 4)
  | gwMessageComplete (h : BitVec 1) (id : Nat) (status : BitVec 8)
  | gwTimeout (h : BitVec 1) (id : Nat)
  -- time
  | podTimeExchange (h : BitVec 1) (parent : W64)
  | hallTimeExchange (h : BitVec 1) (parent : W64)
  | ppsEdge (h : BitVec 1)
  | ppsTimeout (h : BitVec 1)
  | ppsOutPulse (h : BitVec 1)
  | ppsOutEnWrite (by' : Requester) (h : BitVec 1) (v : W64)
  | tbHallsetWrite (by' : Requester) (h : BitVec 1) (v : W64)
  | refClkLost
  | refClkReturn
  | masterTakeover (h : BitVec 1) (hall : Bool)
  -- collectives
  | collDoorbell (by' : Requester) (h : BitVec 1) (v : W64)
  | collCqRelease (by' : Requester) (h : BitVec 1) (v : W64)
  | collAbort (by' : Requester) (h : BitVec 1) (g : BitVec 6)
  | allReduce (h : BitVec 1) (g : BitVec 6)
  | reduceScatter (h : BitVec 1) (g : BitVec 6)
  | allGather (h : BitVec 1) (g : BitVec 6)
  | broadcast (h : BitVec 1) (g : BitVec 6)
  | allToAll (h : BitVec 1) (g : BitVec 6)
  | barrier (h : BitVec 1) (g : BitVec 6)
  | startBarrier (h : BitVec 1) (g : BitVec 6)
  | startBarrierArrival (h : BitVec 1) (g : BitVec 6) (rank : BitVec 15)
  | collTimeout (h : BitVec 1) (g : BitVec 6)
  | collSettle (h : BitVec 1) (g : BitVec 6)
  -- checkpoint and restore
  | ckpEnable (by' : Requester) (h : BitVec 1) (v : W64)
  | ckpNow (by' : Requester) (h : BitVec 1)
  | ckpAbort (by' : Requester) (h : BitVec 1)
  | ckpRelease (by' : Requester) (h : BitVec 1)
  | ckpTimerTrigger (h : BitVec 1)
  | ckpTargetWrite (by' : Requester) (h : BitVec 1) (v : W64)
  | brake (leader : BitVec 6)
  | ckpArrived (h : BitVec 1)
  | ckpBrakeTimeout (h : BitVec 1)
  | ckpPageCopy (h : BitVec 1) (ok : Bool)
  | ckpSeal (h : BitVec 1)
  | restoreVerify (by' : Requester) (h : BitVec 1)
  | restoreVerifyDone (h : BitVec 1) (header : List Byte) (shards : List Shard) (sig : List Byte)
  | restoreCommit (by' : Requester) (h : BitVec 1)
  | restoreCommitDone (h : BitVec 1) (shards : List Shard)
  | restoreCancel (by' : Requester) (h : BitVec 1)
  -- Lomly link
  | lomlyPortDown (h : BitVec 1) (p : BitVec 1)
  | lomlyPortUp (h : BitVec 1) (p : BitVec 1) (delayNs : BitVec 8)
  | hello (h : BitVec 1) (port : BitVec 1) (nonce : List Byte) (pub : List Byte) (profile : BitVec 2)
  | proof (h : BitVec 1) (pub : List Byte) (sig : List Byte)
  | finish (h : BitVec 1) (ok : Bool)
  | helloLockoutExpiry (h : BitVec 1)
  | rekey (h : BitVec 1) (nonce : List Byte) (pub : List Byte)
  | rekeyStart (h : BitVec 1)
  | mrd (link : BitVec 1) (addr : W64) (tag : BitVec 16)
  | mwr (link : BitVec 1) (addr : W64) (v : W64) (tag : BitVec 16)
  | desc (h : BitVec 1) (q : BitVec 4) (line : List W64)
  | hrsp (h : BitVec 1) (tag : BitVec 16) (lines : List W64)
  | hwack (h : BitVec 1) (tag : BitVec 16)
  | evack (h : BitVec 1) (evseq : BitVec 32)
  | img (link : BitVec 1) (target : BitVec 1) (offset : W64) (lines : List W64)
  | eventSend (h : BitVec 1)
  | dmaDescriptorStart (h : BitVec 1) (q : BitVec 4)
  | dmaDescriptorComplete (h : BitVec 1) (id : Nat)
  | lomlyDmaTimeout (h : BitVec 1) (tag : BitVec 16)
  | lomQueueDisable (by' : Requester) (h : BitVec 1) (q : BitVec 4) (v : W64)
  | hostDoorbellWrite (h : BitVec 1) (n : BitVec 6) (v : W64)
  | nodePostEvent (h : BitVec 1) (v : W64)
  -- Fueman stream
  | fstApply (by' : Requester) (h : BitVec 1)
  | fstDiscard (by' : Requester) (h : BitVec 1)
  | streamCommit (h : BitVec 1)
  -- reliability
  | targetedTestStart (h : BitVec 1) (utype : BitVec 8) (uindex : BitVec 16)
  | targetedTestComplete (h : BitVec 1) (utype : BitVec 8) (uindex : BitVec 16) (pass : Bool)
  | periodicTestSlice (row : BitVec 6) (badSlot : Option (BitVec 7))
  | handshakeStall (h : BitVec 1) (utype : BitVec 8) (uindex : BitVec 16)
  | unitRetireCmd (by' : Requester) (h : BitVec 1)
  | unitAdmit (by' : Requester) (h : BitVec 1) (pass : Bool)
  | unitTest (by' : Requester) (h : BitVec 1)
  | halfDrain (by' : Requester) (h : BitVec 1)
  | halfDrainComplete (h : BitVec 1)
  | halfReset (by' : Requester) (h : BitVec 1)
  | halfPowerOff (by' : Requester) (h : BitVec 1)
  -- security
  | trustDieBoot (h : BitVec 1) (katOk : Bool) (idOk : Bool)
  | imageLaunch (by' : Requester) (h : BitVec 1)
  | imageClear (by' : Requester) (h : BitVec 1)
  | quote (by' : Requester) (h : BitVec 1)
  | quoteComplete (h : BitVec 1)
  | extend (by' : Requester) (h : BitVec 1)
  | debugChallenge (by' : Requester) (h : BitVec 1)
  | debugSubmit (by' : Requester) (h : BitVec 1)
  | debugChallengeExpiry (h : BitVec 1)
  | debugLockoutExpiry (h : BitVec 1)
  | drbgReseed (h : BitVec 1)
  -- power and calibration
  | powerUp
  | inputRemoval
  | regulatorFault (die : BitVec 5)
  | domainRampDone (n : BitVec 8)
  | calibrationStart (h : BitVec 1)
  | calibrationDone (h : BitVec 1) (r : CalReport)
  -- pins
  | rstNAssert
  | rstNRelease
  | halfResetAssert (h : BitVec 1)
  | halfResetRelease (h : BitVec 1)
  | i3cIndexWrite (bytes : List Byte)
  | i3cPrivateRead
  | i3cSetdasa (addr : BitVec 7)
  | i3cEntdaa (addr : BitVec 7)
  | i3cSnapshot
  | tapExtest
  | tapIdcode
  | tapSamplePreload
  | tapDbgChallenge (h : BitVec 1)
  | tapDbgResponse (h : BitVec 1) (resp : List Byte)
  | tapBypass (opcode : BitVec 8)
  | tapReset (low : Bool)
  -- tile aperture, spare slots, optics, channels
  | tileApertureAccess (addr : BitVec 48) (write : Bool) (len : Nat) (bytes : List Byte)
  | spareSlotTestPass (slot : BitVec 13) (mismatch : Bool)
  | opticalMarginScan (h : BitVec 1) (n : BitVec 4) (lowLanes : List Nat)
  | channelTrainingDone (stack : BitVec 5)
deriving DecidableEq, Repr

end Sys2Proof
end

