-- ==== Sys2Proof/WellFormed.lean ====
section
/-! DEFINITION. Well-formed commands: the operand shapes the manual fixes and the operand types do not.
A command outside them is not one the hardware can be given. -/

namespace Sys2Proof

/-- A packet carries zero to seven lines of eight words (R304). -/
def Packet.wf (p : Packet) : Bool := p.data.length == 8 * p.lines.toNat

/-- A Lomly packet carries zero to three 64-byte body lines (R381). -/
def LomPkt.wf (p : LomPkt) : Bool := p.body.length == 8 * p.lines.toNat

/-- A flit carries leat packets or Lomly packets, each well formed (R301, R380). -/
def Flit.wf (f : Flit) : Bool := f.pkts.all Packet.wf && f.lpkts.all LomPkt.wf

/-- Node cores are numbered 0 to 23 in a half (R14). -/
def Proc.wf : Proc → Bool
  | .node _ c => c.toNat < 24
  | _ => true

/-- The checks, constructor by constructor; a constructor absent here has no check beyond its types. -/
def Instr.wf : Instr → Bool
  | .registerWrite _ _ size _ => size ≤ 8
  | .readToClear _ _ rd => rd.size ≤ 8
  | .queueDispatch u _ _ | .waitT u _ | .sigT u _ | .sli u _ | .sadd u _ | .ssub u _ | .smul u _ | .sand u _
  | .sor u _ | .sxor u _ | .sshl u _ | .sshr u _ | .smovp u _ | .sld u _ | .sst u _ | .br u _ | .jal u _ | .jr u _
  | .fadd u _ | .fsub u _ | .fmul u _ | .ffma u _ | .fdiv u _ | .fsqrt u _ | .fcmp u _ | .fcvt u _
  | .instructionComplete u _ _ _ | .tokenDecrement u _
  | .icsumProgramLoad u _ _ => u.wf
  | .hget x | .hput x | .hcp x | .hatom x => x.u.wf
  | .memoryRead _ a len _ => 1 ≤ len.toNat && a.toNat % 64 + len.toNat ≤ 64
  | .memoryWrite _ a bytes => 1 ≤ bytes.length && a.toNat % 64 + bytes.length ≤ 64
  | .linkFlitReceive _ f => f.wf
  | .leatReadReq _ p | .leatWrite _ p | .leatAtomic _ p | .leatReadResp _ p | .leatCompletion _ p | .leatBulk _ p
  | .leatTime _ p | .leatColl _ p => p.wf
  | .leatPortRemove _ p => p.port.toNat < 72
  | .desc _ _ line => line.length == 8
  | .hrsp _ _ lines => lines.length % 8 == 0
  | .img _ _ _ lines => lines.length % 8 == 0
  | .hello _ _ nonce pub _ => nonce.length == 32 && pub.length == 133
  | .rekey _ nonce pub => nonce.length == 32 && pub.length == 133
  | .tapDbgResponse _ r => r.length == 538
  | .tapBypass op => !([0x00, 0x01, 0x02, 0x20, 0x21, 0x22, 0x23].contains op.toNat)
  | .domainRampDone n => n.toNat < 192
  | .tileApertureAccess _ write len bytes => if write then bytes.length == len else bytes.length == 0
  | .spareSlotTestPass slot _ => slot.toNat < 4352
  | .opticalMarginScan _ n _ => n.toNat < 9
  | _ => true

end Sys2Proof
end

