-- ==== Sys2Proof/Decode.lean ====
section
/-! DEFINITION. The command a word of the opcode table spells. No row of spec/opcode_table.json has fields or
bits, so no word spells a command. Icsum words reach the block inside the commands (R150), not through here. -/

namespace Sys2Proof

/-- The rows of the opcode table give no bits: every word spells none. -/
def decodeTableWord (_nbits _w : Nat) : Option Instr := none

end Sys2Proof
end

