-- ==== Sys2Proof/Config.lean ====
section
/-! DEFINITION. What the manual leaves open: free values, functions with no body that nothing can evaluate
(notes/assumptions names each). A statement holds whatever they are. -/

namespace Sys2Proof.Config

/-- The n-th free value of the run: every value the manual calls undefined or unpredictable and that has
no better argument takes the next one (State.free counts them). (Log 5, DESIGN CHOICE). -/
opaque freeValue : Nat → W64

/-- What a byte of memory reads that holds no value written since power-up (R508): it depends on the boot
and on the address, and on nothing a program wrote. (Log 6, DESIGN CHOICE). -/
opaque uninitByte : Nat → Nat → Byte

/-- What a byte reads in a range of HBM whose contents became undefined (R223, R343, R412): by the number of that event and the
address. (Log 6, DESIGN CHOICE). -/
opaque undefByte : Nat → Nat → Byte

/-- The GM100-A's unpublished transcendental functions (R127, R128): by opcode and format, and by the input as an FP32
pattern, which of the results within the bound of R88 it gives, in increasing order. (Log 35, DESIGN CHOICE). -/
opaque transc : Nat → BitVec 32 → Nat

/-- Built-in tailrace table coefficients (R143): table, entry, coefficient. They ship with the firmware.
(Log 36, DESIGN CHOICE). -/
opaque tableCoef : Nat → Nat → Nat → BitVec 32

/-- The native word index of an Icsum address other than ENTRY's (R170): program words, entry, rows of the gang, address.
(Log 30, DEDUCED). -/
opaque nativePos : List W64 → Nat → Nat → Nat → BitVec 13

/-- The native words of a translated program (R145, R170), by program words, entry and rows of the gang; unpublished.
(Log 30, DEDUCED). -/
opaque nativeWords : List W64 → Nat → Nat → List W64

/-- Native words a translation takes, in words (R147). (Log 30, DEDUCED). -/
opaque nativeSize : List W64 → Nat

/-- SHA-512 of a byte string (FIPS 180-4, R443), by reference. (Log 9, PRESUMED). -/
opaque sha512 : List Byte → BitVec 512

/-- ECDSA P-521 verification (FIPS 186-5, R443): public key, message digest, signature. (Log 9, PRESUMED). -/
opaque ecdsaVerify : List Byte → BitVec 512 → List Byte → Bool

/-- ECDSA P-521 signature by a private key over a digest, with the random k of the signature (R443): private key, k,
digest. (Log 9, PRESUMED). -/
opaque ecdsaSign : Nat → Nat → BitVec 512 → List Byte

/-- The corrected 256-bit response of half h's SRAM PUF, and its fused seed (R430): 32 bytes each. (Log 10, PRESUMED). -/
opaque pufValue : Nat → List Byte
/-- (Log 10, PRESUMED). -/
opaque fuseSeed : Nat → List Byte

/-- The P-521 public key of a private key (R430), 133 bytes. (Log 9, PRESUMED). -/
opaque publicKey : Nat → List Byte

/-- The n-th draw of half h's Hash_DRBG (R443). (Log 9, PRESUMED). -/
opaque drbg : Nat → Nat → BitVec 512

/-- The ephemeral P-521 public key of a drawn private key (R374), 133 bytes. (Log 9, PRESUMED). -/
opaque ephPub : BitVec 512 → List Byte

/-- The ECDH P-521 shared secret of a drawn private key and a public key (R375). (Log 9, PRESUMED). -/
opaque ecdh : BitVec 512 → List Byte → List Byte

/-- The vendor root key hash in the mask ROM (R398). (Log 9, PRESUMED). -/
opaque rootHash : BitVec 512

/-- The mask ROM contents' SHA-512 input (R433 step 2). (Log 9, PRESUMED). -/
opaque romContents : List Byte

/-- Is a 133-byte public key a point of P-521 other than infinity (R441)? (Log 9, PRESUMED). -/
opaque onCurve : List Byte → Bool

/-- The package serial number in the fuses (R483). (Log 10, PRESUMED). -/
opaque serial : W64

/-- Predicted power, in watts, of row r at an operating point (R463), by evaluation number. (Log 70, DESIGN CHOICE). -/
opaque predictPower : Nat → Nat → Nat → Nat

/-- The turn at which evaluation n serves the gang led by row r (R39): the manual leaves the order of the gangs open.
(Log 70, DESIGN CHOICE). -/
opaque fantailTurn : Nat → Nat → Nat

/-- How far the internal oscillator of a timebase is off in a REF_CLK period (R330), bounded where it is used.
(Log 91, DESIGN CHOICE). -/
opaque fineRate : Nat → Int

/-- The network order of a float SUM (R88, R339): by sequence number, number of values left and element, which two of the
values left are added next. (Log 94, DESIGN CHOICE). -/
opaque sumOrder : Nat → Nat → Nat → Nat

/-- A byte of what becomes undefined with a unit or a context (R197, R223, R412): use number, offset.
(Log 105, DESIGN CHOICE). -/
opaque scratch : Nat → Nat → Byte

/-- Does the GMRES procedure (R232) make a product and the sum it enters one fused operation, by use: 0 dot products, 1 the
other vector updates, 2 rotations? The manual has every operation rounded once and leaves this open.
(Log 131, DESIGN CHOICE). -/
opaque gmresFused : Nat → Bool

/-- What the boundary register samples (R484): scan number; the cells are the board's. (Log 139, DESIGN CHOICE). -/
opaque boundaryScan : Nat → List Byte

/-- The MIPI manufacturer ID in the provisional ID (R482). (Log 10, PRESUMED). -/
opaque mipiId : BitVec 15

end Sys2Proof.Config
end

