-- ==== Sys2Proof/Machine/Float.lean ====
section
/-! DEFINITION. Exact floating-point values and their rounding (R59-R61, R72-R74). A finite value is
`± m × 2 ^ e`; every operation is formed exactly and rounded once (R88). -/

namespace Sys2Proof.Machine

/-- An arithmetic value: a NaN (signalling or quiet), an infinity, or the finite number ± m × 2 ^ e. -/
inductive Num where
  | nan (signalling : Bool)
  | inf (neg : Bool)
  | fin (neg : Bool) (m : Nat) (e : Int)
deriving DecidableEq, Repr

/-- Flags of CORE_ARITH [6:0] set by an operation, and the results it saturated (R73, R81). -/
structure Fl where
  bits : BitVec 7
  sat : Nat
deriving DecidableEq, Repr

def flNone : Fl := ⟨0, 0⟩
def flInexact : Fl := ⟨1, 0⟩
def flUnderflow : Fl := ⟨2, 0⟩
def flOverflow : Fl := ⟨4, 0⟩
def flDivzero : Fl := ⟨8, 0⟩
def flInvalid : Fl := ⟨16, 0⟩
def flIntWrap : Fl := ⟨32, 0⟩
def flNonfinite : Fl := ⟨64, 0⟩
def flSat : Fl := ⟨0, 1⟩

/-- Both sets of flags. -/
def flJoin (a b : Fl) : Fl := ⟨a.bits ||| b.bits, a.sat + b.sat⟩

/-- The flag when the condition holds. -/
def flIf (b : Bool) (f : Fl) : Fl := if b then f else flNone

/-- How a format spells NaN and infinity (R59). -/
inductive Special where
  | ieee     -- exponent all ones is infinity or NaN
  | nanOnly  -- E4M3: S.1111.111 is NaN, no infinity
  | finite   -- FP6, FP4: neither
deriving DecidableEq, Repr

/-- A floating-point element format (R59): exponent and mantissa widths, bias. -/
structure FFmt where
  eb : Nat
  mb : Nat
  bias : Nat
  sp : Special
deriving DecidableEq, Repr

def fF64 : FFmt := ⟨11, 52, 1023, .ieee⟩
def fF32 : FFmt := ⟨8, 23, 127, .ieee⟩
def fBF16 : FFmt := ⟨8, 7, 127, .ieee⟩
def fF16 : FFmt := ⟨5, 10, 15, .ieee⟩
def fE4M3 : FFmt := ⟨4, 3, 7, .nanOnly⟩
def fE5M2 : FFmt := ⟨5, 2, 15, .ieee⟩
def fE3M2 : FFmt := ⟨3, 2, 3, .finite⟩
def fE2M3 : FFmt := ⟨2, 3, 1, .finite⟩
def fE2M1 : FFmt := ⟨2, 1, 1, .finite⟩

/-- Width of the format in bits. -/
def FFmt.width (f : FFmt) : Nat := 1 + f.eb + f.mb

/-- Bit pattern of the largest finite magnitude. -/
def FFmt.maxBits (f : FFmt) : Nat :=
  match f.sp with
  | .ieee => (2 ^ f.eb - 1) * 2 ^ f.mb - 1
  | .nanOnly => 2 ^ (f.eb + f.mb) - 2
  | .finite => 2 ^ (f.eb + f.mb) - 1

/-- Bit pattern of a positive infinity (`ieee` formats only). -/
def FFmt.infBits (f : FFmt) : Nat := (2 ^ f.eb - 1) * 2 ^ f.mb

/-- The default NaN (R61); a format with no NaN gives +0. -/
def FFmt.defaultNan (f : FFmt) : Nat :=
  match f.sp with
  | .ieee => f.infBits + 2 ^ (f.mb - 1)
  | .nanOnly => 2 ^ (f.eb + f.mb) - 1
  | .finite => 0

/-- A magnitude with its sign bit. -/
def FFmt.signed (f : FFmt) (neg : Bool) (mag : Nat) : Nat := if neg then mag + 2 ^ (f.eb + f.mb) else mag

/-- The value a bit pattern of the format encodes (R59, R60: subnormals at full precision). -/
def FFmt.decode (f : FFmt) (b : Nat) : Num :=
  let mag := b % 2 ^ (f.eb + f.mb)
  let neg := b / 2 ^ (f.eb + f.mb) % 2 == 1
  let be := mag / 2 ^ f.mb
  let mant := mag % 2 ^ f.mb
  if f.sp == .ieee && be == 2 ^ f.eb - 1 then
    if mant == 0 then .inf neg else .nan (mant < 2 ^ (f.mb - 1))
  else if f.sp == .nanOnly && mag == 2 ^ (f.eb + f.mb) - 1 then .nan false
  else if be == 0 then .fin neg mant (1 - (f.bias : Int) - f.mb)
  else .fin neg (mant + 2 ^ f.mb) ((be : Int) - f.bias - f.mb)

/-- Rounding directions (R72) and the 16-bit draw a stochastic rounding uses (R74). -/
inductive Rnd where
  | nearest
  | zero
  | stochastic (r : Nat)
deriving DecidableEq, Repr

/-- m / 2 ^ sh rounded to an integer: the rounded quotient and whether it was inexact (R72, R74). -/
def roundShift (r : Rnd) (m sh : Nat) : Nat × Bool :=
  let q := m / 2 ^ sh
  let lo := m % 2 ^ sh
  let up : Bool :=
    match r with
    | .nearest => 2 * lo > 2 ^ sh || (2 * lo == 2 ^ sh && q % 2 == 1)
    | .zero => false
    | .stochastic d => lo * 2 ^ 16 / 2 ^ sh + d ≥ 2 ^ 16
  (if up then q + 1 else q, lo != 0)

/-- m × 2 ^ e in units of 2 ^ q, rounded. -/
def roundAt (r : Rnd) (m : Nat) (e q : Int) : Nat × Bool :=
  if q ≤ e then (m * 2 ^ (e - q).toNat, false) else roundShift r m (q - e).toNat

/-- Exponent ⌊log2 (m × 2 ^ e)⌋ of a nonzero magnitude. -/
def magExp (m : Nat) (e : Int) : Int := (Nat.log2 m : Int) + e

/-- The magnitude bits of m × 2 ^ e rounded to the format with no upper limit on the exponent, whether it is
inexact and whether it is tiny after rounding (R73). -/
def FFmt.roundMag (f : FFmt) (r : Rnd) (m : Nat) (e : Int) : Nat × Bool × Bool :=
  if m = 0 then (0, false, false) else
  let ex := magExp m e
  let emin : Int := 1 - f.bias
  let q := max ex emin - f.mb
  let (n, inexact) := roundAt r m e q
  let bits := ((q + f.mb + f.bias).toNat - 1) * 2 ^ f.mb + n
  let unb := (roundAt r m e (ex - f.mb)).1
  let tiny := decide (ex < emin) && !(decide (ex = emin - 1) && unb == 2 ^ (f.mb + 1))
  (bits, inexact, tiny)

/-- Is the magnitude above the largest finite value of the format? -/
def FFmt.aboveMax (f : FFmt) (m : Nat) (e : Int) : Bool :=
  match f.decode f.maxBits with
  | .fin _ mm me => decide (m * 2 ^ (e - min e me).toNat > mm * 2 ^ (me - min e me).toNat)
  | _ => false

/-- Rounds an exact value into a floating-point format under a rounding direction and the SAT bit (R73);
`.stochastic` beyond the largest finite value acts as `.nearest`. Gives the bit pattern and the flags. -/
def FFmt.round (f : FFmt) (r : Rnd) (sat : Bool) (x : Num) : Nat × Fl :=
  match x with
  | .nan sn =>
    match f.sp with
    | .finite => (0, flInvalid)
    | _ => (f.defaultNan, flIf sn flInvalid)
  | .inf neg =>
    match f.sp with
    | .ieee => (f.signed neg f.infBits, flNone)
    | .nanOnly => if sat then (f.signed neg f.maxBits, flSat) else (f.defaultNan, flNone)
    | .finite => (f.signed neg f.maxBits, flJoin flInvalid flSat)
  | .fin neg m e =>
    let r' := match r with
      | .stochastic d => if f.aboveMax m e then .nearest else .stochastic d
      | r => r
    let (bits, inexact, tiny) := f.roundMag r' m e
    if bits > f.maxBits then
      let fl := flJoin flOverflow flInexact
      let largest := (f.signed neg f.maxBits, flJoin fl flSat)
      match f.sp with
      | .ieee =>
        if f.width == 8 && sat then largest
        else if r' == .zero then largest else (f.signed neg f.infBits, fl)
      | .nanOnly => if sat then largest else (f.defaultNan, fl)
      | .finite => largest
    else (f.signed neg bits, flJoin (flIf inexact flInexact) (flIf (inexact && tiny) flUnderflow))

/-- Rounds an exact value to an integer of w bits (R73): out of range saturates with INVALID; NaN gives 0; `.stochastic`
beyond the end of the range acts as `.nearest`. -/
def roundInt (w : Nat) (sgn : Bool) (r : Rnd) (x : Num) : Nat × Fl :=
  let hi : Int := if sgn then 2 ^ (w - 1) - 1 else 2 ^ w - 1
  let lo : Int := if sgn then -(2 ^ (w - 1)) else 0
  let enc (v : Int) : Nat := (v % 2 ^ w).toNat
  match x with
  | .nan _ => (0, flInvalid)
  | .inf neg => (enc (if neg then lo else hi), flJoin flInvalid flSat)
  | .fin neg m e =>
    let t := roundAt .zero m e 0
    let lim : Int := if neg then -lo else hi
    let past := decide (lim < t.1) || (decide (lim = t.1) && t.2)
    let (n, inexact) := roundAt (match r with
      | .stochastic d => if past then .nearest else .stochastic d
      | r => r) m e 0
    let v : Int := if neg then -(n : Int) else n
    if v > hi then (enc hi, flJoin flInvalid flSat)
    else if v < lo then (enc lo, flJoin flInvalid flSat)
    else (enc v, flIf inexact flInexact)

/-- The value of an integer bit pattern. -/
def decodeInt (w : Nat) (sgn : Bool) (b : Nat) : Int :=
  let u := b % 2 ^ w
  if sgn && decide (2 ^ (w - 1) ≤ u) then (u : Int) - 2 ^ w else u

/-- An integer as an exact value. -/
def numOfInt (v : Int) : Num := .fin (decide (v < 0)) v.natAbs 0

/-- The signed integer of a finite value at unit 2 ^ q, q no greater than its exponent. -/
def scaledInt (neg : Bool) (m : Nat) (e q : Int) : Int :=
  let n : Int := m * 2 ^ (e - q).toNat
  if neg then -n else n

/-- Does a signalling NaN occur? -/
def Num.isSnan : Num → Bool
  | .nan s => s
  | _ => false

def Num.isNan : Num → Bool
  | .nan _ => true
  | _ => false

def Num.neg : Num → Num
  | .nan s => .nan s
  | .inf n => .inf (!n)
  | .fin n m e => .fin (!n) m e

/-- A quiet NaN result, with INVALID when an operand was signalling (R61). -/
def nanOf (a b : Num) : Num × Fl := (.nan false, flIf (a.isSnan || b.isSnan) flInvalid)

/-- The exact sum. Opposite equal values give +0; −0 + −0 is −0 (round to nearest). -/
def Num.add (a b : Num) : Num × Fl :=
  match a, b with
  | .fin n1 m1 e1, .fin n2 m2 e2 =>
    let q := min e1 e2
    let v := scaledInt n1 m1 e1 q + scaledInt n2 m2 e2 q
    (if v = 0 then .fin (n1 && n2 && m1 == 0 && m2 == 0) 0 q else .fin (decide (v < 0)) v.natAbs q, flNone)
  | .inf n1, .inf n2 => if n1 == n2 then (.inf n1, flNone) else (.nan false, flInvalid)
  | .inf n, .fin .. => (.inf n, flNone)
  | .fin .., .inf n => (.inf n, flNone)
  | a, b => nanOf a b

/-- The exact product. 0 × ∞ is invalid. -/
def Num.mul (a b : Num) : Num × Fl :=
  match a, b with
  | .fin n1 m1 e1, .fin n2 m2 e2 => (.fin (n1 != n2) (m1 * m2) (e1 + e2), flNone)
  | .inf n1, .inf n2 => (.inf (n1 != n2), flNone)
  | .inf n1, .fin n2 m _ => if m = 0 then (.nan false, flInvalid) else (.inf (n1 != n2), flNone)
  | .fin n1 m _, .inf n2 => if m = 0 then (.nan false, flInvalid) else (.inf (n1 != n2), flNone)
  | a, b => nanOf a b

/-- The exact a × b + c, for one rounding. -/
def Num.fma (a b c : Num) : Num × Fl :=
  let p := a.mul b
  let s := p.1.add c
  (s.1, flJoin p.2 s.2)

/-- The quotient, exact but for a sticky low bit: enough leading bits for one correct rounding to FP64.
x / 0 gives an infinity; the scalar control subset raises no DIVZERO of its own beyond the flag. (Log 33, DEDUCED). -/
def Num.div (a b : Num) : Num × Fl :=
  match a, b with
  | .fin n1 m1 e1, .fin n2 m2 e2 =>
    if m2 = 0 then (if m1 = 0 then (.nan false, flInvalid) else (.inf (n1 != n2), flDivzero))
    else
      let sh := 60 + Nat.log2 m2
      let n := m1 * 2 ^ sh
      (.fin (n1 != n2) (2 * (n / m2) + (if n % m2 = 0 then 0 else 1)) (e1 - e2 - sh - 1), flNone)
  | .inf _, .inf _ => (.nan false, flInvalid)
  | .inf n1, .fin n2 _ _ => (.inf (n1 != n2), flNone)
  | .fin n1 _ _, .inf n2 => (.fin (n1 != n2) 0 0, flNone)
  | a, b => nanOf a b

/-- The square root, exact but for a sticky low bit (correctly rounded after one rounding to FP64). -/
def Num.sqrt (a : Num) : Num × Fl :=
  match a with
  | .fin n m e =>
    if m = 0 then (.fin n 0 e, flNone)
    else if n then (.nan false, flInvalid)
    else
      let sh : Nat := if (e - 120) % 2 = 0 then 120 else 121
      let v := m * 2 ^ sh
      let r := Nat.sqrt v
      (.fin false (2 * r + (if r * r = v then 0 else 1)) ((e - sh) / 2 - 1), flNone)
  | .inf n => if n then (.nan false, flInvalid) else (.inf false, flNone)
  | .nan s => (.nan false, flIf s flInvalid)

/-- Order of two values that are not NaN, −0 equal to +0 (R78). -/
def Num.cmp (a b : Num) : Ordering :=
  match a, b with
  | .fin n1 m1 e1, .fin n2 m2 e2 =>
    let q := min e1 e2
    compare (scaledInt n1 m1 e1 q) (scaledInt n2 m2 e2 q)
  | .inf n1, .inf n2 => if n1 == n2 then .eq else if n1 then .lt else .gt
  | .inf n, _ => if n then .lt else .gt
  | _, .inf n => if n then .gt else .lt
  | _, _ => .eq

/-- The predicates of R102 under R78; 6 and 7 are refused before. INVALID only for a signalling NaN. -/
def predHolds (p : Nat) (a b : Num) : Bool × Fl :=
  let fl := flIf (a.isSnan || b.isSnan) flInvalid
  if a.isNan || b.isNan then (p == 1, fl)
  else
    let o := a.cmp b
    let r : Bool :=
      match p with
      | 0 => o == .eq
      | 1 => o != .eq
      | 2 => o == .lt
      | 3 => o != .gt
      | 4 => o == .gt
      | _ => o != .lt
    (r, fl)

/-- Is a value with a minus sign (−0 included)? -/
def Num.isNeg : Num → Bool
  | .nan _ => false
  | .inf n => n
  | .fin n _ _ => n

/-- Maximum or minimum under R77. -/
def maxMin (isMax : Bool) (a b : Num) : Num × Fl :=
  let fl := flIf (a.isSnan || b.isSnan) flInvalid
  match a.isNan, b.isNan with
  | true, true => (.nan false, fl)
  | true, false => (b, fl)
  | false, true => (a, fl)
  | false, false =>
    match a.cmp b with
    | .lt => (if isMax then b else a, fl)
    | .gt => (if isMax then a else b, fl)
    | .eq => ((if a.isNeg == isMax then b else a), fl)

/-- One rounded FP64 operation on bit patterns (R158): decode, form exactly, round once to nearest even. -/
def f64Op (r : Num × Fl) : BitVec 64 × Fl :=
  let (b, fl) := fF64.round .nearest false r.1
  (BitVec.ofNat 64 b, flJoin r.2 fl)

def f64Num (b : BitVec 64) : Num := fF64.decode b.toNat
def f32Num (b : Nat) : Num := fF32.decode b

/-- An exact value rounded to nearest even in FP32. -/
def toF32 (x : Num) : Nat × Fl := fF32.round .nearest false x

/-- FP32 sum of a pattern and an exact value, rounded once (R80). -/
def f32AddNum (a : Nat) (x : Num) : Nat × Fl :=
  let s := (f32Num a).add x
  let r := toF32 s.1
  (r.1, flJoin s.2 r.2)

/-- A power of two as an exact value. -/
def numPow2 (e : Int) : Num := .fin false 1 e

/-! The element format codes of R151 (WFMT of R100 agrees on 0x0-0x9). -/

/-- The float format of a format code. -/
def fcFloat : Nat → Option FFmt
  | 0x0 => some fE4M3 | 0x1 => some fE5M2 | 0x2 => some fE3M2 | 0x3 => some fE2M3 | 0x4 => some fE2M1
  | 0x5 => some fBF16 | 0x6 => some fF16 | 0xA => some fF32 | 0xC => some fF64
  | _ => none

/-- Width and signedness of an integer format code. -/
def fcInt : Nat → Option (Nat × Bool)
  | 0x7 => some (8, true) | 0x8 => some (8, false) | 0x9 => some (4, true) | 0xB => some (32, true)
  | 0xD => some (64, true)
  | _ => none

/-- Element width in bits (R117); 0 for an illegal code. -/
def fcWidth (fc : Nat) : Nat :=
  match fcFloat fc with
  | some f => f.width
  | none => match fcInt fc with
    | some (w, _) => w
    | none => 0

/-- The value of an element. -/
def fcDecode (fc : Nat) (b : Nat) : Num :=
  match fcFloat fc with
  | some f => f.decode b
  | none => match fcInt fc with
    | some (w, s) => numOfInt (decodeInt w s b)
    | none => .nan false

/-- One conversion under R73: destination code, rounding, SAT, value. (Log 32, DEDUCED). -/
def fcConvert (fc : Nat) (r : Rnd) (sat : Bool) (x : Num) : Nat × Fl :=
  match fcFloat fc with
  | some f => f.round r sat x
  | none => match fcInt fc with
    | some (w, s) => roundInt w s r x
    | none => (0, flNone)

/-- Largest normal exponent emax_e of R70. -/
def fcEmax : Nat → Int
  | 0x0 => 8 | 0x1 => 15 | 0x2 => 4 | 0x3 => 2 | _ => 2

/-! Block scales (R67): a byte is a NaN, zero, or a power of two times a small significand. -/

/-- The value of a scale byte: none is a NaN scale. `fmt` false is E8M0, true is unsigned E4M3. -/
def scaleValue (fmt : Bool) (b : Nat) : Option Num :=
  if fmt then
    if 0x7F ≤ b % 256 then none else some (fE4M3.decode (b % 256))
  else if b % 256 = 255 then none else some (numPow2 ((b % 256 : Nat) - 127))

/-- Unsigned E4M3 rounded toward +∞ from the quotient n / d (R70): the least byte whose value is not below it,
0x7E when there is none. -/
def ue4m3Ceil (ge : Nat → Bool) : Nat := ((List.range 0x7F).find? ge).getD 0x7E

end Sys2Proof.Machine
end

