-- ==== Sys2Proof/Machine/Regs.lean ====
section
/-! DEFINITION. The register index: every register block (R498) and every register, window and table word of the
manual's register tables, with its fields, access codes, ranges and After load values. -/

namespace Sys2Proof.Machine

/-- Access codes (R9). -/
inductive Acc where
  | ro | rw | w1c | wo | rc
deriving DecidableEq, Repr

/-- The register blocks of R498. `hbmh` is the memory block of a half, `ch` of a channel. -/
inductive Block where
  | dev | pwr | seam | core | row | die | hbmh | ch | hoist | leat | gw | coll | tb | ckp | lom | sec | fst | solv
deriving DecidableEq, Repr

/-- One field of a register table: bits [hi:lo], access, After load value and the range a write must keep (R9). -/
structure FieldSpec where
  hi : Nat
  lo : Nat
  acc : Acc
  rst : Nat
  rlo : Nat
  rhi : Nat
deriving DecidableEq, Repr

/-- One register or window: block, offset of word 0, stride and count of its words, its fields. -/
structure RegSpec where
  blk : Block
  off : Nat
  stride : Nat
  count : Nat
  fields : List FieldSpec
deriving DecidableEq, Repr

/-- The registers, under their names in the manual. A two-word register has one constructor a word (W0, W1). -/
inductive Reg where
  | devId
  | devHalf
  | devElogStat
  | devUsel
  | devUstat
  | devUcmd
  | devCal
  | devElog
  | pwrDomstat
  | pwrBudget
  | pwrMeas
  | pwrStat
  | seamState
  | seamSluice
  | weirIn
  | weirOut
  | weirForms
  | weirCoder
  | coreArith
  | coreArrayStat
  | coreVtrap
  | coreVexc
  | coreSluice
  | rowGang
  | rowCtl
  | rowStatus
  | rowImctl
  | rowQstat
  | rowMark
  | rowIlogStat
  | rowColmap
  | rowCtxctl
  | rowCtxW0
  | rowCtxW1
  | rowStep
  | rowFantail
  | rowPace
  | rowDetmode
  | rowPshadow
  | rowPactive
  | rowIlog
  | rowGather
  | rowSummary
  | rowBank0
  | rowBank1
  | rowSram
  | dieSluice
  | hbmMapcfg
  | hbmWinlen
  | hbmRepoch
  | hbmChst
  | hbmSluice
  | hbmTgCtl
  | hbmTgStat
  | hbmTgErraddr
  | hoistStat
  | leatCfg
  | leatDrop
  | leatJob
  | leatBind
  | leatSrcinc
  | leatSluice
  | leatPort
  | leatStage
  | leatRcommit
  | leatSset
  | leatRoute
  | leatLink
  | leatPodroute
  | leatRegion
  | gwSluice
  | gwErr
  | collSq
  | collCq
  | collDb
  | collCfg
  | collGroupW0
  | collGroupW1
  | tbPod
  | tbHall
  | tbCfg
  | tbStat
  | tbHallset
  | ckpCfg
  | ckpPeriod
  | ckpPhase
  | ckpJob
  | ckpDest
  | ckpStat
  | ckpCtl
  | ckpTarget
  | ckpMark
  | ckpTrk
  | ckpProg
  | ckpRman
  | ckpRctl
  | ckpRstat
  | ckpRstep
  | ckpRjob
  | ckpRrep
  | ckpRegionW0
  | ckpRegionW1
  | lomStat
  | lomCnt
  | lomCfg
  | lomEvpost
  | lomQctl
  | lomHdb
  | secBstat
  | secBctl
  | secQctl
  | secDbgstat
  | secDbgctl
  | secIdpub
  | secMr
  | secMext
  | secQnonce
  | secQuote
  | secDbgchal
  | secDbgresp
  | secPeer
  | fstCtl
  | fstStat
  | fstErr
  | fstNonce
  | fstWindow
  | solvSq
  | solvCq
  | solvDb
  | solvStat
deriving DecidableEq, Repr

/-- A plain RW, RO, RC, WO or W1C field whose range is its whole width. -/
def fieldOf (hi lo : Nat) (a : Acc) (r : Nat) : FieldSpec := ⟨hi, lo, a, r, 0, 2 ^ (hi - lo + 1) - 1⟩

/-- The register tables of the manual; each line cites the rule of its table. -/
def regSpec : Reg → RegSpec
  | .devId => ⟨.dev, 0x0, 0, 1, [fieldOf 63 48 .ro 21077, fieldOf 47 32 .ro 256, fieldOf 31 24 .ro 65, fieldOf 23 16 .ro 65, fieldOf 15 8 .ro 1]⟩ -- DEV_ID (R3, spec/00)
  | .devHalf => ⟨.dev, 0x100, 8, 2, [fieldOf 63 61 .ro 0, fieldOf 60 60 .ro 0, fieldOf 2 2 .wo 0, fieldOf 1 1 .wo 0, fieldOf 0 0 .wo 0]⟩ -- DEV_HALF (R424, spec/17)
  | .devElogStat => ⟨.dev, 0x200, 8, 2, [fieldOf 63 32 .ro 0, fieldOf 31 0 .rc 0]⟩ -- DEV_ELOG_STAT (R423, spec/17)
  | .devUsel => ⟨.dev, 0x300, 32, 2, [fieldOf 63 56 .rw 0, fieldOf 55 40 .rw 0]⟩ -- DEV_USEL (R422, spec/17)
  | .devUstat => ⟨.dev, 0x308, 32, 2, [fieldOf 63 61 .ro 0, fieldOf 60 60 .ro 0, fieldOf 55 48 .ro 0, fieldOf 47 32 .rc 0, fieldOf 31 16 .rc 0, fieldOf 15 0 .ro 0]⟩ -- DEV_USTAT (R422, spec/17)
  | .devUcmd => ⟨.dev, 0x310, 32, 2, [fieldOf 2 2 .wo 0, fieldOf 1 1 .wo 0, fieldOf 0 0 .wo 0]⟩ -- DEV_UCMD (R422, spec/17)
  | .devCal => ⟨.dev, 0x400, 8, 2, [fieldOf 63 63 .ro 0, fieldOf 62 60 .ro 0, fieldOf 47 36 .ro 0, fieldOf 35 26 .ro 0, fieldOf 25 17 .ro 0, fieldOf 16 12 .ro 0, fieldOf 11 6 .ro 0]⟩ -- DEV_CAL (R504, spec/22)
  | .devElog => ⟨.dev, 0x10000, 8, 32768, [fieldOf 63 0 .ro 0]⟩ -- DEV_ELOG (R423, spec/17)
  | .pwrDomstat => ⟨.pwr, 0x0, 8, 3, [fieldOf 63 0 .ro 0]⟩ -- PWR_DOMSTAT (R459, spec/19)
  | .pwrBudget => ⟨.pwr, 0x20, 8, 2, [fieldOf 63 48 .ro 500, fieldOf 47 32 .ro 600, fieldOf 31 24 .ro 10, fieldOf 23 16 .ro 95]⟩ -- PWR_BUDGET (R466, spec/19)
  | .pwrMeas => ⟨.pwr, 0x30, 8, 2, [fieldOf 63 48 .ro 0, fieldOf 47 32 .ro 10000, fieldOf 31 16 .ro 0, fieldOf 15 0 .ro 0]⟩ -- PWR_MEAS (R466, spec/19)
  | .pwrStat => ⟨.pwr, 0x40, 8, 2, [fieldOf 63 63 .ro 0, fieldOf 62 62 .ro 0, fieldOf 61 61 .ro 0, fieldOf 55 48 .ro 0, fieldOf 47 40 .ro 0, fieldOf 39 32 .ro 0, fieldOf 31 16 .rc 0]⟩ -- PWR_STAT (R466, spec/19)
  | .seamState => ⟨.seam, 0x0, 0, 1, [fieldOf 63 62 .ro 0, fieldOf 31 0 .rc 0]⟩ -- SEAM_STATE (R280, spec/11)
  | .seamSluice => ⟨.seam, 0x8, 8, 2, [fieldOf 63 24 .rc 0, fieldOf 23 0 .rc 0]⟩ -- SEAM_SLUICE (R280, spec/11)
  | .weirIn => ⟨.seam, 0x20, 32, 2, [fieldOf 63 0 .rc 0]⟩ -- WEIR_IN (R294, spec/11)
  | .weirOut => ⟨.seam, 0x28, 32, 2, [fieldOf 63 0 .rc 0]⟩ -- WEIR_OUT (R294, spec/11)
  | .weirForms => ⟨.seam, 0x30, 32, 2, [fieldOf 63 32 .rc 0, fieldOf 31 0 .rc 0]⟩ -- WEIR_FORMS (R294, spec/11)
  | .weirCoder => ⟨.seam, 0x38, 32, 2, [fieldOf 63 24 .rc 0, fieldOf 23 0 .rc 0]⟩ -- WEIR_CODER (R294, spec/11)
  | .coreArith => ⟨.core, 0x40, 0, 1, [fieldOf 47 32 .ro 0, fieldOf 7 7 .wo 0, fieldOf 6 6 .w1c 0, fieldOf 5 5 .w1c 0, fieldOf 4 4 .w1c 0, fieldOf 3 3 .w1c 0, fieldOf 2 2 .w1c 0, fieldOf 1 1 .w1c 0, fieldOf 0 0 .w1c 0]⟩ -- CORE_ARITH (R81, spec/03)
  | .coreArrayStat => ⟨.core, 0x48, 0, 1, [fieldOf 63 32 .rc 0, fieldOf 31 0 .rc 0]⟩ -- CORE_ARRAY_STAT (R113, spec/04)
  | .coreVtrap => ⟨.core, 0x50, 0, 1, [fieldOf 2 2 .rw 0, fieldOf 1 1 .rw 0, fieldOf 0 0 .rw 0]⟩ -- CORE_VTRAP (R135, spec/05)
  | .coreVexc => ⟨.core, 0x58, 0, 1, [fieldOf 63 62 .wo 0, fieldOf 47 47 .ro 0, fieldOf 46 34 .ro 0, fieldOf 33 21 .ro 0, fieldOf 7 4 .ro 0, fieldOf 0 0 .ro 0]⟩ -- CORE_VEXC (R135, spec/05)
  | .coreSluice => ⟨.core, 0x60, 0, 1, [fieldOf 63 24 .rc 0, fieldOf 23 0 .rc 0]⟩ -- CORE_SLUICE (R273, spec/10)
  | .rowGang => ⟨.row, 0x0, 0, 1, [fieldOf 63 58 .ro 0, fieldOf 57 51 .ro 1, fieldOf 50 45 .ro 0, fieldOf 44 44 .ro 0]⟩ -- ROW_GANG (R176, spec/07)
  | .rowCtl => ⟨.row, 0x8, 0, 1, [fieldOf 5 5 .wo 0, fieldOf 4 4 .wo 0, fieldOf 3 3 .wo 0, fieldOf 2 2 .wo 0, fieldOf 1 1 .wo 0, fieldOf 0 0 .wo 0]⟩ -- ROW_CTL (R189, spec/07)
  | .rowStatus => ⟨.row, 0x10, 0, 1, [fieldOf 63 56 .ro 0, fieldOf 55 48 .ro 0, fieldOf 47 47 .ro 0, fieldOf 46 34 .ro 0, fieldOf 33 31 .ro 0, fieldOf 7 6 .ro 0, fieldOf 5 4 .ro 0, fieldOf 2 0 .ro 0]⟩ -- ROW_STATUS (R189, spec/07)
  | .rowImctl => ⟨.row, 0x20, 0, 1, [fieldOf 63 48 .rw 0, fieldOf 47 32 .rw 0, fieldOf 31 16 .rc 0, fieldOf 5 4 .rw 0, fieldOf 2 2 .ro 0, fieldOf 1 1 .w1c 0, fieldOf 0 0 .ro 0]⟩ -- ROW_IMCTL (R188, spec/07)
  | .rowQstat => ⟨.row, 0x28, 0, 1, [fieldOf 63 32 .rc 0, fieldOf 31 0 .rc 0]⟩ -- ROW_QSTAT (R179, spec/07)
  | .rowMark => ⟨.row, 0x30, 0, 1, [fieldOf 63 0 .ro 0]⟩ -- ROW_MARK (R349, spec/14)
  | .rowIlogStat => ⟨.row, 0x38, 0, 1, [fieldOf 63 32 .rc 0, fieldOf 31 16 .rc 0, fieldOf 4 0 .ro 0]⟩ -- ROW_ILOG_STAT (R193, spec/07)
  | .rowColmap => ⟨.row, 0x40, 8, 8, [⟨6, 0, .rw, 0, 0, 67⟩, ⟨14, 8, .rw, 0, 0, 67⟩, ⟨22, 16, .rw, 0, 0, 67⟩, ⟨30, 24, .rw, 0, 0, 67⟩, ⟨38, 32, .rw, 0, 0, 67⟩, ⟨46, 40, .rw, 0, 0, 67⟩, ⟨54, 48, .rw, 0, 0, 67⟩, ⟨62, 56, .rw, 0, 0, 67⟩]⟩ -- ROW_COLMAP (R177, spec/07)
  | .rowCtxctl => ⟨.row, 0x80, 0, 1, [fieldOf 63 60 .rw 1, fieldOf 59 56 .w1c 0, fieldOf 31 0 .rw 0]⟩ -- ROW_CTXCTL (R197, spec/07)
  | .rowCtxW0 => ⟨.row, 0x88, 16, 4, [fieldOf 47 16 .rw 0]⟩ -- ROW_CTX_W0 (R198, spec/07)
  | .rowCtxW1 => ⟨.row, 0x90, 16, 4, [fieldOf 63 32 .rw 4294967295, ⟨31, 21, .rw, 1024, 0, 1024⟩, fieldOf 20 20 .rw 1, fieldOf 19 19 .rw 1, fieldOf 18 18 .rw 1, fieldOf 15 0 .rw 0]⟩ -- ROW_CTX_W1 (R198, spec/07)
  | .rowStep => ⟨.row, 0x100, 0, 1, [fieldOf 63 0 .ro 0]⟩ -- ROW_STEP (R30, spec/02)
  | .rowFantail => ⟨.row, 0x108, 0, 1, [fieldOf 63 48 .ro 0, fieldOf 39 32 .ro 0, fieldOf 3 3 .ro 0, fieldOf 2 0 .ro 0]⟩ -- ROW_FANTAIL (R34, spec/02)
  | .rowPace => ⟨.row, 0x110, 0, 1, [fieldOf 63 63 .rw 0, ⟨47, 32, .rw, 0, 0, 1179⟩, fieldOf 19 16 .ro 0, fieldOf 2 2 .w1c 0, fieldOf 1 1 .w1c 0, fieldOf 0 0 .ro 0]⟩ -- ROW_PACE (R44, spec/02)
  | .rowDetmode => ⟨.row, 0x118, 0, 1, [fieldOf 63 32 .rw 0, fieldOf 0 0 .rw 0]⟩ -- ROW_DETMODE (R54, spec/02)
  | .rowPshadow => ⟨.row, 0x200, 8, 64, [fieldOf 63 0 .rw 0]⟩ -- ROW_PSHADOW (R186, spec/07)
  | .rowPactive => ⟨.row, 0x400, 8, 64, [fieldOf 63 0 .rw 0]⟩ -- ROW_PACTIVE (R186, spec/07)
  | .rowIlog => ⟨.row, 0x600, 8, 64, [fieldOf 63 0 .ro 0]⟩ -- ROW_ILOG (R193, spec/07)
  | .rowGather => ⟨.row, 0x800, 8, 64, [fieldOf 63 0 .ro 0]⟩ -- ROW_GATHER (R499, spec/21)
  | .rowSummary => ⟨.row, 0xA00, 8, 16, [fieldOf 63 0 .ro 0]⟩ -- ROW_SUMMARY (R499, spec/21)
  | .rowBank0 => ⟨.row, 0x10000, 8, 8192, [fieldOf 63 0 .rw 0]⟩ -- ROW_BANK0 (R187, spec/07)
  | .rowBank1 => ⟨.row, 0x20000, 8, 8192, [fieldOf 63 0 .rw 0]⟩ -- ROW_BANK1 (R187, spec/07)
  | .rowSram => ⟨.row, 0x40000, 8, 32768, [fieldOf 63 0 .rw 0]⟩ -- ROW_SRAM (R499, spec/21)
  | .dieSluice => ⟨.die, 0x0, 8, 8, [fieldOf 63 24 .rc 0, fieldOf 23 0 .rc 0]⟩ -- DIE_SLUICE (R499, spec/21)
  | .hbmMapcfg => ⟨.hbmh, 0x0, 0, 1, [⟨63, 62, .ro, 0, 0, 1⟩, ⟨61, 60, .ro, 0, 0, 2⟩, fieldOf 59 52 .ro 0]⟩ -- HBM_MAPCFG (R249, spec/10)
  | .hbmWinlen => ⟨.hbmh, 0x8, 8, 4, [fieldOf 41 0 .ro 0]⟩ -- HBM_WINLEN (R249, spec/10)
  | .hbmRepoch => ⟨.hbmh, 0x100, 8, 16, [fieldOf 63 63 .rw 0, fieldOf 62 62 .ro 0, fieldOf 61 61 .w1c 0, fieldOf 47 32 .rw 0, fieldOf 31 16 .ro 0, fieldOf 15 0 .rw 0]⟩ -- HBM_REPOCH (R268, spec/10)
  | .hbmChst => ⟨.ch, 0x0, 0, 1, [fieldOf 63 62 .ro 2, fieldOf 61 61 .ro 0, fieldOf 47 32 .ro 0, fieldOf 31 0 .rc 0]⟩ -- HBM_CHST (R508, spec/10)
  | .hbmSluice => ⟨.ch, 0x8, 0, 1, [fieldOf 63 24 .rc 0, fieldOf 23 0 .rc 0]⟩ -- HBM_SLUICE (R273, spec/10)
  | .hbmTgCtl => ⟨.ch, 0x10, 0, 1, [fieldOf 63 63 .wo 0, fieldOf 62 62 .wo 0, ⟨61, 60, .rw, 0, 0, 2⟩, ⟨59, 56, .rw, 0, 0, 5⟩, fieldOf 55 32 .rw 0, fieldOf 31 0 .rw 0]⟩ -- HBM_TG_CTL (R271, spec/10)
  | .hbmTgStat => ⟨.ch, 0x18, 0, 1, [fieldOf 63 63 .ro 0, fieldOf 62 62 .w1c 0, fieldOf 61 61 .w1c 0, fieldOf 31 0 .rc 0]⟩ -- HBM_TG_STAT (R271, spec/10)
  | .hbmTgErraddr => ⟨.ch, 0x20, 0, 1, [fieldOf 63 63 .ro 0, fieldOf 30 0 .ro 0]⟩ -- HBM_TG_ERRADDR (R271, spec/10)
  | .hoistStat => ⟨.hoist, 0x0, 8, 32, [fieldOf 63 63 .ro 0, fieldOf 41 32 .ro 0, fieldOf 31 0 .rc 0]⟩ -- HOIST_STAT (R499, spec/21)
  | .leatCfg => ⟨.leat, 0x0, 0, 1, [fieldOf 63 52 .ro 0, fieldOf 51 44 .ro 0, fieldOf 43 28 .ro 0, ⟨15, 0, .rw, 100, 1, 65535⟩]⟩ -- LEAT_CFG (R312, spec/12)
  | .leatDrop => ⟨.leat, 0x8, 0, 1, [fieldOf 63 48 .rc 0, fieldOf 47 32 .rc 0, fieldOf 31 16 .rc 0, fieldOf 15 0 .rc 0]⟩ -- LEAT_DROP (R317, spec/12)
  | .leatJob => ⟨.leat, 0x100, 8, 16, [fieldOf 63 63 .ro 1, fieldOf 62 62 .rw 0, fieldOf 47 32 .rw 0, fieldOf 31 0 .rw 0]⟩ -- LEAT_JOB (R312, spec/12)
  | .leatBind => ⟨.leat, 0x200, 8, 64, [fieldOf 15 12 .rw 0, fieldOf 11 8 .rw 0, fieldOf 7 4 .rw 0, fieldOf 3 0 .rw 0]⟩ -- LEAT_BIND (R312, spec/12)
  | .leatSrcinc => ⟨.leat, 0x400, 8, 128, [fieldOf 63 48 .rw 0, fieldOf 47 32 .rw 0, fieldOf 31 16 .rw 0, fieldOf 15 0 .rw 0]⟩ -- LEAT_SRCINC (R317, spec/12)
  | .leatSluice => ⟨.leat, 0x800, 8, 18, [fieldOf 63 24 .rc 0, fieldOf 23 0 .rc 0]⟩ -- LEAT_SLUICE (R317, spec/12)
  | .leatPort => ⟨.leat, 0x1000, 8, 72, [fieldOf 63 62 .ro 0, fieldOf 61 56 .ro 0, fieldOf 55 48 .ro 0, fieldOf 47 40 .ro 0, fieldOf 31 16 .rc 0, fieldOf 15 0 .rc 0]⟩ -- LEAT_PORT (R317, spec/12)
  | .leatStage => ⟨.leat, 0x2000, 8, 8, [fieldOf 63 0 .rw 0]⟩ -- LEAT_STAGE (R499, spec/21)
  | .leatRcommit => ⟨.leat, 0x2040, 0, 1, [fieldOf 63 63 .wo 0, fieldOf 10 0 .wo 0]⟩ -- LEAT_RCOMMIT (R499, spec/21)
  | .leatSset => ⟨.leat, 0x3000, 8, 512, [fieldOf 63 0 .ro 0]⟩ -- LEAT_SSET (R499, spec/21)
  | .leatRoute => ⟨.leat, 0x4000, 8, 512, [fieldOf 63 0 .ro 0]⟩ -- LEAT_ROUTE (R499, spec/21)
  | .leatLink => ⟨.leat, 0x5000, 8, 64, [fieldOf 63 0 .ro 0]⟩ -- LEAT_LINK (R499, spec/21)
  | .leatPodroute => ⟨.leat, 0x8000, 8, 4096, [fieldOf 63 0 .ro 0]⟩ -- LEAT_PODROUTE (R499, spec/21)
  | .leatRegion => ⟨.leat, 0x10000, 8, 16384, [fieldOf 63 0 .ro 0]⟩ -- LEAT_REGION (R499, spec/21)
  | .gwSluice => ⟨.gw, 0x0, 8, 4, [fieldOf 63 24 .rc 0, fieldOf 23 0 .rc 0]⟩ -- GW_SLUICE (R499, spec/21)
  | .gwErr => ⟨.gw, 0x40, 8, 2, [fieldOf 63 56 .ro 0, fieldOf 55 44 .ro 0, fieldOf 43 36 .ro 0]⟩ -- GW_ERR (R499, spec/21)
  | .collSq => ⟨.coll, 0x0, 0, 1, [fieldOf 47 12 .rw 0, ⟨3, 0, .rw, 0, 0, 9⟩]⟩ -- COLL_SQ (R336, spec/13)
  | .collCq => ⟨.coll, 0x8, 0, 1, [fieldOf 47 12 .rw 0, ⟨3, 0, .rw, 0, 0, 9⟩]⟩ -- COLL_CQ (R336, spec/13)
  | .collDb => ⟨.coll, 0x10, 0, 1, [fieldOf 63 63 .wo 0, fieldOf 61 56 .wo 0, fieldOf 31 16 .rw 0, fieldOf 15 0 .rw 0]⟩ -- COLL_DB (R336, spec/13)
  | .collCfg => ⟨.coll, 0x18, 0, 1, [⟨63, 48, .rw, 100, 1, 65535⟩]⟩ -- COLL_CFG (R336, spec/13)
  | .collGroupW0 => ⟨.coll, 0x100, 16, 64, [fieldOf 63 63 .rw 0, fieldOf 62 59 .rw 0, fieldOf 58 44 .rw 0, fieldOf 43 29 .rw 0]⟩ -- COLL_GROUP_W0 (R336, spec/13)
  | .collGroupW1 => ⟨.coll, 0x108, 16, 64, [fieldOf 63 48 .ro 0, fieldOf 47 0 .rw 0]⟩ -- COLL_GROUP_W1 (R336, spec/13)
  | .tbPod => ⟨.tb, 0x0, 0, 1, [fieldOf 63 0 .ro 0]⟩ -- TB_POD (R330, spec/13)
  | .tbHall => ⟨.tb, 0x8, 0, 1, [fieldOf 63 0 .ro 0]⟩ -- TB_HALL (R330, spec/13)
  | .tbCfg => ⟨.tb, 0x10, 0, 1, [fieldOf 63 62 .ro 0, ⟨61, 55, .ro, 0, 0, 64⟩, fieldOf 54 53 .ro 0, ⟨52, 46, .ro, 0, 0, 64⟩, fieldOf 45 45 .ro 0, fieldOf 44 44 .rw 0]⟩ -- TB_CFG (R332, spec/13)
  | .tbStat => ⟨.tb, 0x18, 0, 1, [fieldOf 63 62 .ro 0, fieldOf 61 60 .ro 0, fieldOf 59 59 .ro 0, fieldOf 58 58 .ro 0, fieldOf 57 57 .w1c 0, fieldOf 31 16 .ro 0, fieldOf 15 0 .ro 0]⟩ -- TB_STAT (R332, spec/13)
  | .tbHallset => ⟨.tb, 0x20, 0, 1, [fieldOf 63 0 .wo 0]⟩ -- TB_HALLSET (R332, spec/13)
  | .ckpCfg => ⟨.ckp, 0x0, 0, 1, [fieldOf 63 63 .rw 0, ⟨62, 61, .rw, 0, 0, 2⟩, fieldOf 60 60 .rw 0, fieldOf 59 56 .rw 0, ⟨55, 51, .rw, 16, 1, 16⟩, ⟨50, 35, .rw, 100, 1, 65535⟩]⟩ -- CKP_CFG (R351, spec/14)
  | .ckpPeriod => ⟨.ckp, 0x8, 0, 1, [fieldOf 63 0 .rw 0]⟩ -- CKP_PERIOD (R351, spec/14)
  | .ckpPhase => ⟨.ckp, 0x10, 0, 1, [fieldOf 63 0 .rw 0]⟩ -- CKP_PHASE (R351, spec/14)
  | .ckpJob => ⟨.ckp, 0x18, 0, 1, [fieldOf 63 0 .rw 0]⟩ -- CKP_JOB (R351, spec/14)
  | .ckpDest => ⟨.ckp, 0x20, 0, 1, [fieldOf 63 0 .rw 0]⟩ -- CKP_DEST (R351, spec/14)
  | .ckpStat => ⟨.ckp, 0x28, 0, 1, [fieldOf 63 61 .ro 0, fieldOf 60 53 .ro 0, fieldOf 52 52 .ro 0, fieldOf 51 36 .rc 0, fieldOf 31 0 .ro 0]⟩ -- CKP_STAT (R351, spec/14)
  | .ckpCtl => ⟨.ckp, 0x30, 0, 1, [fieldOf 2 2 .wo 0, fieldOf 1 1 .wo 0, fieldOf 0 0 .wo 0]⟩ -- CKP_CTL (R351, spec/14)
  | .ckpTarget => ⟨.ckp, 0x38, 0, 1, [fieldOf 63 0 .rw 0]⟩ -- CKP_TARGET (R351, spec/14)
  | .ckpMark => ⟨.ckp, 0x40, 0, 1, [fieldOf 63 0 .ro 0]⟩ -- CKP_MARK (R351, spec/14)
  | .ckpTrk => ⟨.ckp, 0x48, 0, 1, [fieldOf 63 32 .rc 0, fieldOf 31 0 .rc 0]⟩ -- CKP_TRK (R360, spec/14)
  | .ckpProg => ⟨.ckp, 0x50, 0, 1, [fieldOf 63 0 .ro 0]⟩ -- CKP_PROG (R351, spec/14)
  | .ckpRman => ⟨.ckp, 0x60, 0, 1, [fieldOf 63 0 .rw 0]⟩ -- CKP_RMAN (R367, spec/14)
  | .ckpRctl => ⟨.ckp, 0x68, 0, 1, [fieldOf 63 63 .wo 0, fieldOf 62 62 .wo 0, fieldOf 61 61 .wo 0]⟩ -- CKP_RCTL (R367, spec/14)
  | .ckpRstat => ⟨.ckp, 0x70, 0, 1, [fieldOf 63 61 .ro 0, fieldOf 60 53 .ro 0, fieldOf 31 0 .ro 0]⟩ -- CKP_RSTAT (R367, spec/14)
  | .ckpRstep => ⟨.ckp, 0x78, 0, 1, [fieldOf 63 0 .rw 0]⟩ -- CKP_RSTEP (R367, spec/14)
  | .ckpRjob => ⟨.ckp, 0x80, 0, 1, [fieldOf 63 0 .rw 0]⟩ -- CKP_RJOB (R367, spec/14)
  | .ckpRrep => ⟨.ckp, 0x88, 0, 1, [fieldOf 63 0 .rw 0]⟩ -- CKP_RREP (R367, spec/14)
  | .ckpRegionW0 => ⟨.ckp, 0x100, 16, 16, [fieldOf 63 63 .rw 0, fieldOf 47 0 .rw 0]⟩ -- CKP_REGION_W0 (R351, spec/14)
  | .ckpRegionW1 => ⟨.ckp, 0x108, 16, 16, [fieldOf 43 0 .rw 0]⟩ -- CKP_REGION_W1 (R351, spec/14)
  | .lomStat => ⟨.lom, 0x0, 0, 1, [fieldOf 63 62 .ro 0, fieldOf 61 60 .ro 0, fieldOf 59 59 .ro 0, fieldOf 58 57 .ro 0, fieldOf 56 55 .ro 0, fieldOf 47 40 .ro 0, fieldOf 31 0 .ro 0]⟩ -- LOM_STAT (R391, spec/15)
  | .lomCnt => ⟨.lom, 0x8, 0, 1, [fieldOf 63 48 .rc 0, fieldOf 47 32 .rc 0, fieldOf 31 16 .rc 0, fieldOf 15 0 .rc 0]⟩ -- LOM_CNT (R391, spec/15)
  | .lomCfg => ⟨.lom, 0x10, 0, 1, [fieldOf 63 63 .ro 0, fieldOf 62 62 .ro 1, fieldOf 61 61 .rw 1, ⟨47, 32, .rw, 1000, 1, 65535⟩, fieldOf 15 0 .rw 1022]⟩ -- LOM_CFG (R391, spec/15)
  | .lomEvpost => ⟨.lom, 0x18, 0, 1, [fieldOf 63 0 .wo 0]⟩ -- LOM_EVPOST (R391, spec/15)
  | .lomQctl => ⟨.lom, 0x100, 8, 16, [fieldOf 63 63 .rw 0, fieldOf 62 61 .ro 0, fieldOf 60 60 .w1c 0, ⟨59, 56, .rw, 1, 1, 15⟩, fieldOf 31 0 .rc 0]⟩ -- LOM_QCTL (R392, spec/15)
  | .lomHdb => ⟨.lom, 0x200, 8, 64, [fieldOf 63 0 .rc 0]⟩ -- LOM_HDB (R387, spec/15)
  | .secBstat => ⟨.sec, 0x0, 0, 1, [fieldOf 63 60 .ro 0, fieldOf 59 52 .ro 0, fieldOf 51 51 .ro 0, fieldOf 31 0 .ro 0]⟩ -- SEC_BSTAT (R447, spec/18)
  | .secBctl => ⟨.sec, 0x8, 0, 1, [fieldOf 1 1 .wo 0, fieldOf 0 0 .wo 0]⟩ -- SEC_BCTL (R447, spec/18)
  | .secQctl => ⟨.sec, 0x10, 0, 1, [fieldOf 63 63 .ro 0, fieldOf 62 62 .w1c 0, fieldOf 1 1 .wo 0, fieldOf 0 0 .wo 0]⟩ -- SEC_QCTL (R447, spec/18)
  | .secDbgstat => ⟨.sec, 0x18, 0, 1, [fieldOf 63 62 .ro 0, fieldOf 55 48 .rc 0]⟩ -- SEC_DBGSTAT (R447, spec/18)
  | .secDbgctl => ⟨.sec, 0x20, 0, 1, [fieldOf 1 1 .wo 0, fieldOf 0 0 .wo 0]⟩ -- SEC_DBGCTL (R447, spec/18)
  | .secIdpub => ⟨.sec, 0x100, 8, 17, [fieldOf 63 0 .ro 0]⟩ -- SEC_IDPUB (R447, spec/18)
  | .secMr => ⟨.sec, 0x200, 8, 32, [fieldOf 63 0 .ro 0]⟩ -- SEC_MR (R447, spec/18)
  | .secMext => ⟨.sec, 0x300, 8, 8, [fieldOf 63 0 .wo 0]⟩ -- SEC_MEXT (R447, spec/18)
  | .secQnonce => ⟨.sec, 0x340, 8, 8, [fieldOf 63 0 .rw 0]⟩ -- SEC_QNONCE (R447, spec/18)
  | .secQuote => ⟨.sec, 0x400, 8, 82, [fieldOf 63 0 .ro 0]⟩ -- SEC_QUOTE (R447, spec/18)
  | .secDbgchal => ⟨.sec, 0x700, 8, 8, [fieldOf 63 0 .ro 0]⟩ -- SEC_DBGCHAL (R447, spec/18)
  | .secDbgresp => ⟨.sec, 0x800, 8, 68, [fieldOf 63 0 .wo 0]⟩ -- SEC_DBGRESP (R447, spec/18)
  | .secPeer => ⟨.sec, 0x1000, 8, 512, [fieldOf 63 0 .ro 0]⟩ -- SEC_PEER (R447, spec/18)
  | .fstCtl => ⟨.fst, 0x0, 0, 1, [fieldOf 1 1 .wo 0, fieldOf 0 0 .wo 0]⟩ -- FST_CTL (R396, spec/16)
  | .fstStat => ⟨.fst, 0x8, 0, 1, [fieldOf 63 61 .ro 0, fieldOf 31 0 .ro 0]⟩ -- FST_STAT (R396, spec/16)
  | .fstErr => ⟨.fst, 0x10, 0, 1, [fieldOf 63 56 .ro 0, fieldOf 55 48 .ro 255, fieldOf 47 40 .ro 255, fieldOf 39 24 .ro 65535, fieldOf 23 23 .ro 0, fieldOf 22 0 .ro 0]⟩ -- FST_ERR (R396, spec/16)
  | .fstNonce => ⟨.fst, 0x18, 0, 1, [fieldOf 63 0 .ro 0]⟩ -- FST_NONCE (R396, spec/16)
  | .fstWindow => ⟨.fst, 0x1000000, 8, 2097152, [fieldOf 63 0 .rw 0]⟩ -- FST_WINDOW (R396, spec/16)
  | .solvSq => ⟨.solv, 0x0, 0, 1, [fieldOf 47 12 .rw 0, ⟨3, 0, .rw, 0, 0, 9⟩]⟩ -- SOLV_SQ (R214, spec/09)
  | .solvCq => ⟨.solv, 0x8, 0, 1, [fieldOf 47 12 .rw 0, ⟨3, 0, .rw, 0, 0, 9⟩]⟩ -- SOLV_CQ (R214, spec/09)
  | .solvDb => ⟨.solv, 0x10, 0, 1, [fieldOf 63 63 .wo 0, fieldOf 31 16 .rw 0, fieldOf 15 0 .rw 0]⟩ -- SOLV_DB (R214, spec/09)
  | .solvStat => ⟨.solv, 0x18, 0, 1, [fieldOf 63 48 .ro 0, fieldOf 47 32 .ro 0, fieldOf 31 19 .ro 0, fieldOf 3 0 .ro 0]⟩ -- SOLV_STAT (R214, spec/09)

/-- The registers of each block, in the order of their offsets. -/
def regsOf : Block → List Reg
  | .dev => [.devId, .devHalf, .devElogStat, .devUsel, .devUstat, .devUcmd, .devCal, .devElog]
  | .pwr => [.pwrDomstat, .pwrBudget, .pwrMeas, .pwrStat]
  | .seam => [.seamState, .seamSluice, .weirIn, .weirOut, .weirForms, .weirCoder]
  | .core => [.coreArith, .coreArrayStat, .coreVtrap, .coreVexc, .coreSluice]
  | .row => [.rowGang, .rowCtl, .rowStatus, .rowImctl, .rowQstat, .rowMark, .rowIlogStat, .rowColmap, .rowCtxctl, .rowCtxW0, .rowCtxW1, .rowStep, .rowFantail, .rowPace, .rowDetmode, .rowPshadow, .rowPactive, .rowIlog, .rowGather, .rowSummary, .rowBank0, .rowBank1, .rowSram]
  | .die => [.dieSluice]
  | .hbmh => [.hbmMapcfg, .hbmWinlen, .hbmRepoch]
  | .ch => [.hbmChst, .hbmSluice, .hbmTgCtl, .hbmTgStat, .hbmTgErraddr]
  | .hoist => [.hoistStat]
  | .leat => [.leatCfg, .leatDrop, .leatJob, .leatBind, .leatSrcinc, .leatSluice, .leatPort, .leatStage, .leatRcommit, .leatSset, .leatRoute, .leatLink, .leatPodroute, .leatRegion]
  | .gw => [.gwSluice, .gwErr]
  | .coll => [.collSq, .collCq, .collDb, .collCfg, .collGroupW0, .collGroupW1]
  | .tb => [.tbPod, .tbHall, .tbCfg, .tbStat, .tbHallset]
  | .ckp => [.ckpCfg, .ckpPeriod, .ckpPhase, .ckpJob, .ckpDest, .ckpStat, .ckpCtl, .ckpTarget, .ckpMark, .ckpTrk, .ckpProg, .ckpRman, .ckpRctl, .ckpRstat, .ckpRstep, .ckpRjob, .ckpRrep, .ckpRegionW0, .ckpRegionW1]
  | .lom => [.lomStat, .lomCnt, .lomCfg, .lomEvpost, .lomQctl, .lomHdb]
  | .sec => [.secBstat, .secBctl, .secQctl, .secDbgstat, .secDbgctl, .secIdpub, .secMr, .secMext, .secQnonce, .secQuote, .secDbgchal, .secDbgresp, .secPeer]
  | .fst => [.fstCtl, .fstStat, .fstErr, .fstNonce, .fstWindow]
  | .solv => [.solvSq, .solvCq, .solvDb, .solvStat]

/-- One named field of a register. -/
structure Fld where
  reg : Reg
  hi : Nat
  lo : Nat
deriving DecidableEq, Repr

/-! The named fields, REGISTER_FIELD as the register tables name them. -/
namespace F
def DEV_ID_VENDOR : Fld := ⟨.devId, 63, 48⟩
def DEV_ID_PART : Fld := ⟨.devId, 47, 32⟩
def DEV_ID_SUFFIX : Fld := ⟨.devId, 31, 24⟩
def DEV_ID_STEP_LETTER : Fld := ⟨.devId, 23, 16⟩
def DEV_ID_STEP_NUM : Fld := ⟨.devId, 15, 8⟩
def DEV_HALF_STATE : Fld := ⟨.devHalf, 63, 61⟩
def DEV_HALF_FATAL : Fld := ⟨.devHalf, 60, 60⟩
def DEV_HALF_POWER_OFF : Fld := ⟨.devHalf, 2, 2⟩
def DEV_HALF_RESET : Fld := ⟨.devHalf, 1, 1⟩
def DEV_HALF_DRAIN : Fld := ⟨.devHalf, 0, 0⟩
def DEV_ELOG_STAT_TOTAL : Fld := ⟨.devElogStat, 63, 32⟩
def DEV_ELOG_STAT_LOST : Fld := ⟨.devElogStat, 31, 0⟩
def DEV_USEL_UTYPE : Fld := ⟨.devUsel, 63, 56⟩
def DEV_USEL_UINDEX : Fld := ⟨.devUsel, 55, 40⟩
def DEV_USTAT_STATE : Fld := ⟨.devUstat, 63, 61⟩
def DEV_USTAT_PENDING : Fld := ⟨.devUstat, 60, 60⟩
def DEV_USTAT_TRANSIENTS : Fld := ⟨.devUstat, 55, 48⟩
def DEV_USTAT_HEARD : Fld := ⟨.devUstat, 47, 32⟩
def DEV_USTAT_CORRECTED : Fld := ⟨.devUstat, 31, 16⟩
def DEV_USTAT_INC : Fld := ⟨.devUstat, 15, 0⟩
def DEV_UCMD_RETIRE : Fld := ⟨.devUcmd, 2, 2⟩
def DEV_UCMD_ADMIT : Fld := ⟨.devUcmd, 1, 1⟩
def DEV_UCMD_TEST : Fld := ⟨.devUcmd, 0, 0⟩
def DEV_CAL_DONE : Fld := ⟨.devCal, 63, 63⟩
def DEV_CAL_STEP : Fld := ⟨.devCal, 62, 60⟩
def DEV_CAL_SLOTS_FAILED : Fld := ⟨.devCal, 47, 36⟩
def DEV_CAL_CH_FAILED : Fld := ⟨.devCal, 35, 26⟩
def DEV_CAL_OE_FAILED : Fld := ⟨.devCal, 25, 17⟩
def DEV_CAL_DLINK_FAILED : Fld := ⟨.devCal, 16, 12⟩
def DEV_CAL_ROWS_FAILED : Fld := ⟨.devCal, 11, 6⟩
def DEV_ELOG_WORD : Fld := ⟨.devElog, 63, 0⟩
def PWR_DOMSTAT_ON : Fld := ⟨.pwrDomstat, 63, 0⟩
def PWR_BUDGET_SUSTAIN : Fld := ⟨.pwrBudget, 63, 48⟩
def PWR_BUDGET_BURST : Fld := ⟨.pwrBudget, 47, 32⟩
def PWR_BUDGET_BURST_MS : Fld := ⟨.pwrBudget, 31, 24⟩
def PWR_BUDGET_TJMAX : Fld := ⟨.pwrBudget, 23, 16⟩
def PWR_MEAS_P_AVG : Fld := ⟨.pwrMeas, 63, 48⟩
def PWR_MEAS_BUCKET : Fld := ⟨.pwrMeas, 47, 32⟩
def PWR_MEAS_VIN : Fld := ⟨.pwrMeas, 31, 16⟩
def PWR_MEAS_RESERVE : Fld := ⟨.pwrMeas, 15, 0⟩
def PWR_STAT_HELD : Fld := ⟨.pwrStat, 63, 63⟩
def PWR_STAT_CLAMP : Fld := ⟨.pwrStat, 62, 62⟩
def PWR_STAT_THROTTLE : Fld := ⟨.pwrStat, 61, 61⟩
def PWR_STAT_TJ_HOT : Fld := ⟨.pwrStat, 55, 48⟩
def PWR_STAT_TSTACK_HOT : Fld := ⟨.pwrStat, 47, 40⟩
def PWR_STAT_TOPT_HOT : Fld := ⟨.pwrStat, 39, 32⟩
def PWR_STAT_CLAMPS : Fld := ⟨.pwrStat, 31, 16⟩
def SEAM_STATE_STATE : Fld := ⟨.seamState, 63, 62⟩
def SEAM_STATE_RETRIES : Fld := ⟨.seamState, 31, 0⟩
def SEAM_SLUICE_SAT_NS : Fld := ⟨.seamSluice, 63, 24⟩
def SEAM_SLUICE_SAT_EVENTS : Fld := ⟨.seamSluice, 23, 0⟩
def WEIR_IN_BYTES : Fld := ⟨.weirIn, 63, 0⟩
def WEIR_OUT_BYTES : Fld := ⟨.weirOut, 63, 0⟩
def WEIR_FORMS_LOOSE : Fld := ⟨.weirForms, 63, 32⟩
def WEIR_FORMS_RAW : Fld := ⟨.weirForms, 31, 0⟩
def WEIR_CODER_SAT_NS : Fld := ⟨.weirCoder, 63, 24⟩
def WEIR_CODER_SAT_EVENTS : Fld := ⟨.weirCoder, 23, 0⟩
def CORE_ARITH_SAT_COUNT : Fld := ⟨.coreArith, 47, 32⟩
def CORE_ARITH_SAT_CLR : Fld := ⟨.coreArith, 7, 7⟩
def CORE_ARITH_NONFINITE : Fld := ⟨.coreArith, 6, 6⟩
def CORE_ARITH_INT_WRAP : Fld := ⟨.coreArith, 5, 5⟩
def CORE_ARITH_INVALID : Fld := ⟨.coreArith, 4, 4⟩
def CORE_ARITH_DIVZERO : Fld := ⟨.coreArith, 3, 3⟩
def CORE_ARITH_OVERFLOW : Fld := ⟨.coreArith, 2, 2⟩
def CORE_ARITH_UNDERFLOW : Fld := ⟨.coreArith, 1, 1⟩
def CORE_ARITH_INEXACT : Fld := ⟨.coreArith, 0, 0⟩
def CORE_ARRAY_STAT_HOPPER_STALL : Fld := ⟨.coreArrayStat, 63, 32⟩
def CORE_ARRAY_STAT_LOAD_WAIT : Fld := ⟨.coreArrayStat, 31, 0⟩
def CORE_VTRAP_T_OVERFLOW : Fld := ⟨.coreVtrap, 2, 2⟩
def CORE_VTRAP_T_DIVZERO : Fld := ⟨.coreVtrap, 1, 1⟩
def CORE_VTRAP_T_INVALID : Fld := ⟨.coreVtrap, 0, 0⟩
def CORE_VEXC_ACTION : Fld := ⟨.coreVexc, 63, 62⟩
def CORE_VEXC_IBANK : Fld := ⟨.coreVexc, 47, 47⟩
def CORE_VEXC_IADDR : Fld := ⟨.coreVexc, 46, 34⟩
def CORE_VEXC_FIRST_ELEM : Fld := ⟨.coreVexc, 33, 21⟩
def CORE_VEXC_CAUSE : Fld := ⟨.coreVexc, 7, 4⟩
def CORE_VEXC_PENDING : Fld := ⟨.coreVexc, 0, 0⟩
def CORE_SLUICE_SAT_NS : Fld := ⟨.coreSluice, 63, 24⟩
def CORE_SLUICE_SAT_EVENTS : Fld := ⟨.coreSluice, 23, 0⟩
def ROW_GANG_LEADER : Fld := ⟨.rowGang, 63, 58⟩
def ROW_GANG_ROWS : Fld := ⟨.rowGang, 57, 51⟩
def ROW_GANG_INDEX : Fld := ⟨.rowGang, 50, 45⟩
def ROW_GANG_LARGE : Fld := ⟨.rowGang, 44, 44⟩
def ROW_CTL_SAVE : Fld := ⟨.rowCtl, 5, 5⟩
def ROW_CTL_YIELD : Fld := ⟨.rowCtl, 4, 4⟩
def ROW_CTL_STOP : Fld := ⟨.rowCtl, 3, 3⟩
def ROW_CTL_CONT : Fld := ⟨.rowCtl, 2, 2⟩
def ROW_CTL_ARM : Fld := ⟨.rowCtl, 1, 1⟩
def ROW_CTL_GO : Fld := ⟨.rowCtl, 0, 0⟩
def ROW_STATUS_HCODE : Fld := ⟨.rowStatus, 63, 56⟩
def ROW_STATUS_HARG : Fld := ⟨.rowStatus, 55, 48⟩
def ROW_STATUS_HBANK : Fld := ⟨.rowStatus, 47, 47⟩
def ROW_STATUS_HADDR : Fld := ⟨.rowStatus, 46, 34⟩
def ROW_STATUS_HQUEUE : Fld := ⟨.rowStatus, 33, 31⟩
def ROW_STATUS_HCTX : Fld := ⟨.rowStatus, 7, 6⟩
def ROW_STATUS_CTX : Fld := ⟨.rowStatus, 5, 4⟩
def ROW_STATUS_STATE : Fld := ⟨.rowStatus, 2, 0⟩
def ROW_IMCTL_GEN1 : Fld := ⟨.rowImctl, 63, 48⟩
def ROW_IMCTL_GEN0 : Fld := ⟨.rowImctl, 47, 32⟩
def ROW_IMCTL_BUSY_CNT : Fld := ⟨.rowImctl, 31, 16⟩
def ROW_IMCTL_ACTX : Fld := ⟨.rowImctl, 5, 4⟩
def ROW_IMCTL_ARMED : Fld := ⟨.rowImctl, 2, 2⟩
def ROW_IMCTL_SWITCHED : Fld := ⟨.rowImctl, 1, 1⟩
def ROW_IMCTL_ACTIVE : Fld := ⟨.rowImctl, 0, 0⟩
def ROW_QSTAT_QFULL_STALL : Fld := ⟨.rowQstat, 63, 32⟩
def ROW_QSTAT_DECIDE_WAIT : Fld := ⟨.rowQstat, 31, 0⟩
def ROW_MARK_COUNT : Fld := ⟨.rowMark, 63, 0⟩
def ROW_ILOG_STAT_TOTAL : Fld := ⟨.rowIlogStat, 63, 32⟩
def ROW_ILOG_STAT_LOST : Fld := ⟨.rowIlogStat, 31, 16⟩
def ROW_ILOG_STAT_NEXT : Fld := ⟨.rowIlogStat, 4, 0⟩
def ROW_COLMAP_SLOT_0 : Fld := ⟨.rowColmap, 6, 0⟩
def ROW_COLMAP_SLOT_1 : Fld := ⟨.rowColmap, 14, 8⟩
def ROW_COLMAP_SLOT_2 : Fld := ⟨.rowColmap, 22, 16⟩
def ROW_COLMAP_SLOT_3 : Fld := ⟨.rowColmap, 30, 24⟩
def ROW_COLMAP_SLOT_4 : Fld := ⟨.rowColmap, 38, 32⟩
def ROW_COLMAP_SLOT_5 : Fld := ⟨.rowColmap, 46, 40⟩
def ROW_COLMAP_SLOT_6 : Fld := ⟨.rowColmap, 54, 48⟩
def ROW_COLMAP_SLOT_7 : Fld := ⟨.rowColmap, 62, 56⟩
def ROW_CTXCTL_CVALID : Fld := ⟨.rowCtxctl, 63, 60⟩
def ROW_CTXCTL_CHALTED : Fld := ⟨.rowCtxctl, 59, 56⟩
def ROW_CTXCTL_WDOG_LIMIT : Fld := ⟨.rowCtxctl, 31, 0⟩
def ROW_CTX_W0_SAVE_BASE : Fld := ⟨.rowCtxW0, 47, 16⟩
def ROW_CTX_W1_VSAVE : Fld := ⟨.rowCtxW1, 63, 32⟩
def ROW_CTX_W1_TKIB : Fld := ⟨.rowCtxW1, 31, 21⟩
def ROW_CTX_W1_MSAVE : Fld := ⟨.rowCtxW1, 20, 20⟩
def ROW_CTX_W1_GSAVE : Fld := ⟨.rowCtxW1, 19, 19⟩
def ROW_CTX_W1_WSAVE : Fld := ⟨.rowCtxW1, 18, 18⟩
def ROW_CTX_W1_SLICE : Fld := ⟨.rowCtxW1, 15, 0⟩
def ROW_STEP_COUNT : Fld := ⟨.rowStep, 63, 0⟩
def ROW_FANTAIL_MEAS_RATE : Fld := ⟨.rowFantail, 63, 48⟩
def ROW_FANTAIL_TJ : Fld := ⟨.rowFantail, 39, 32⟩
def ROW_FANTAIL_HOT : Fld := ⟨.rowFantail, 3, 3⟩
def ROW_FANTAIL_CUR_OP : Fld := ⟨.rowFantail, 2, 0⟩
def ROW_PACE_PACE_EN : Fld := ⟨.rowPace, 63, 63⟩
def ROW_PACE_PACE_TARGET : Fld := ⟨.rowPace, 47, 32⟩
def ROW_PACE_PACE_OP : Fld := ⟨.rowPace, 19, 16⟩
def ROW_PACE_PACE_LOST : Fld := ⟨.rowPace, 2, 2⟩
def ROW_PACE_PACE_TOO_FAST : Fld := ⟨.rowPace, 1, 1⟩
def ROW_PACE_PACE_ACTIVE : Fld := ⟨.rowPace, 0, 0⟩
def ROW_DETMODE_SR_JOB_SEED : Fld := ⟨.rowDetmode, 63, 32⟩
def ROW_DETMODE_REPRO : Fld := ⟨.rowDetmode, 0, 0⟩
def ROW_PSHADOW_P : Fld := ⟨.rowPshadow, 63, 0⟩
def ROW_PACTIVE_P : Fld := ⟨.rowPactive, 63, 0⟩
def ROW_ILOG_WORD : Fld := ⟨.rowIlog, 63, 0⟩
def ROW_GATHER_WORD : Fld := ⟨.rowGather, 63, 0⟩
def ROW_SUMMARY_WORD : Fld := ⟨.rowSummary, 63, 0⟩
def ROW_BANK0_WORD : Fld := ⟨.rowBank0, 63, 0⟩
def ROW_BANK1_WORD : Fld := ⟨.rowBank1, 63, 0⟩
def ROW_SRAM_WORD : Fld := ⟨.rowSram, 63, 0⟩
def DIE_SLUICE_SAT_NS : Fld := ⟨.dieSluice, 63, 24⟩
def DIE_SLUICE_SAT_EVENTS : Fld := ⟨.dieSluice, 23, 0⟩
def HBM_MAPCFG_MODE : Fld := ⟨.hbmMapcfg, 63, 62⟩
def HBM_MAPCFG_GRAN : Fld := ⟨.hbmMapcfg, 61, 60⟩
def HBM_MAPCFG_RESV : Fld := ⟨.hbmMapcfg, 59, 52⟩
def HBM_WINLEN_LENGTH : Fld := ⟨.hbmWinlen, 41, 0⟩
def HBM_REPOCH_OPEN : Fld := ⟨.hbmRepoch, 63, 63⟩
def HBM_REPOCH_DONE : Fld := ⟨.hbmRepoch, 62, 62⟩
def HBM_REPOCH_TIMEDOUT : Fld := ⟨.hbmRepoch, 61, 61⟩
def HBM_REPOCH_NSRCM1 : Fld := ⟨.hbmRepoch, 47, 32⟩
def HBM_REPOCH_NCLOSED : Fld := ⟨.hbmRepoch, 31, 16⟩
def HBM_REPOCH_TIMEOUT : Fld := ⟨.hbmRepoch, 15, 0⟩
def HBM_CHST_STATE : Fld := ⟨.hbmChst, 63, 62⟩
def HBM_CHST_HOT : Fld := ⟨.hbmChst, 61, 61⟩
def HBM_CHST_SOFTREP : Fld := ⟨.hbmChst, 47, 32⟩
def HBM_CHST_REF_K : Fld := ⟨.hbmChst, 31, 0⟩
def HBM_SLUICE_SAT_NS : Fld := ⟨.hbmSluice, 63, 24⟩
def HBM_SLUICE_SAT_EVENTS : Fld := ⟨.hbmSluice, 23, 0⟩
def HBM_TG_CTL_START : Fld := ⟨.hbmTgCtl, 63, 63⟩
def HBM_TG_CTL_STOP : Fld := ⟨.hbmTgCtl, 62, 62⟩
def HBM_TG_CTL_MODE : Fld := ⟨.hbmTgCtl, 61, 60⟩
def HBM_TG_CTL_PAT : Fld := ⟨.hbmTgCtl, 59, 56⟩
def HBM_TG_CTL_SEED : Fld := ⟨.hbmTgCtl, 55, 32⟩
def HBM_TG_CTL_COUNT : Fld := ⟨.hbmTgCtl, 31, 0⟩
def HBM_TG_STAT_BUSY : Fld := ⟨.hbmTgStat, 63, 63⟩
def HBM_TG_STAT_DONE : Fld := ⟨.hbmTgStat, 62, 62⟩
def HBM_TG_STAT_FAIL : Fld := ⟨.hbmTgStat, 61, 61⟩
def HBM_TG_STAT_ERRORS : Fld := ⟨.hbmTgStat, 31, 0⟩
def HBM_TG_ERRADDR_PC : Fld := ⟨.hbmTgErraddr, 63, 63⟩
def HBM_TG_ERRADDR_OFFSET : Fld := ⟨.hbmTgErraddr, 30, 0⟩
def HOIST_STAT_CKP : Fld := ⟨.hoistStat, 63, 63⟩
def HOIST_STAT_OUTST : Fld := ⟨.hoistStat, 41, 32⟩
def HOIST_STAT_DONE : Fld := ⟨.hoistStat, 31, 0⟩
def LEAT_CFG_POD : Fld := ⟨.leatCfg, 63, 52⟩
def LEAT_CFG_NODE : Fld := ⟨.leatCfg, 51, 44⟩
def LEAT_CFG_INC : Fld := ⟨.leatCfg, 43, 28⟩
def LEAT_CFG_TMO : Fld := ⟨.leatCfg, 15, 0⟩
def LEAT_DROP_FENCED : Fld := ⟨.leatDrop, 63, 48⟩
def LEAT_DROP_STALE_EPOCH : Fld := ⟨.leatDrop, 47, 32⟩
def LEAT_DROP_LATE_RESP : Fld := ⟨.leatDrop, 31, 16⟩
def LEAT_DROP_EDGE_ACCEPT : Fld := ⟨.leatDrop, 15, 0⟩
def LEAT_JOB_DRAINED : Fld := ⟨.leatJob, 63, 63⟩
def LEAT_JOB_VALID : Fld := ⟨.leatJob, 62, 62⟩
def LEAT_JOB_EPOCH : Fld := ⟨.leatJob, 47, 32⟩
def LEAT_JOB_KEY : Fld := ⟨.leatJob, 31, 0⟩
def LEAT_BIND_SLOT3 : Fld := ⟨.leatBind, 15, 12⟩
def LEAT_BIND_SLOT2 : Fld := ⟨.leatBind, 11, 8⟩
def LEAT_BIND_SLOT1 : Fld := ⟨.leatBind, 7, 4⟩
def LEAT_BIND_SLOT0 : Fld := ⟨.leatBind, 3, 0⟩
def LEAT_SRCINC_E3 : Fld := ⟨.leatSrcinc, 63, 48⟩
def LEAT_SRCINC_E2 : Fld := ⟨.leatSrcinc, 47, 32⟩
def LEAT_SRCINC_E1 : Fld := ⟨.leatSrcinc, 31, 16⟩
def LEAT_SRCINC_E0 : Fld := ⟨.leatSrcinc, 15, 0⟩
def LEAT_SLUICE_SAT_NS : Fld := ⟨.leatSluice, 63, 24⟩
def LEAT_SLUICE_SAT_EVENTS : Fld := ⟨.leatSluice, 23, 0⟩
def LEAT_PORT_STATE : Fld := ⟨.leatPort, 63, 62⟩
def LEAT_PORT_LINK : Fld := ⟨.leatPort, 61, 56⟩
def LEAT_PORT_LANES : Fld := ⟨.leatPort, 55, 48⟩
def LEAT_PORT_DELAY : Fld := ⟨.leatPort, 47, 40⟩
def LEAT_PORT_UNCORR : Fld := ⟨.leatPort, 31, 16⟩
def LEAT_PORT_RETRIES : Fld := ⟨.leatPort, 15, 0⟩
def LEAT_STAGE_WORD : Fld := ⟨.leatStage, 63, 0⟩
def LEAT_RCOMMIT_GO : Fld := ⟨.leatRcommit, 63, 63⟩
def LEAT_RCOMMIT_INDEX : Fld := ⟨.leatRcommit, 10, 0⟩
def LEAT_SSET_WORD : Fld := ⟨.leatSset, 63, 0⟩
def LEAT_ROUTE_WORD : Fld := ⟨.leatRoute, 63, 0⟩
def LEAT_LINK_WORD : Fld := ⟨.leatLink, 63, 0⟩
def LEAT_PODROUTE_WORD : Fld := ⟨.leatPodroute, 63, 0⟩
def LEAT_REGION_WORD : Fld := ⟨.leatRegion, 63, 0⟩
def GW_SLUICE_SAT_NS : Fld := ⟨.gwSluice, 63, 24⟩
def GW_SLUICE_SAT_EVENTS : Fld := ⟨.gwSluice, 23, 0⟩
def GW_ERR_CODE : Fld := ⟨.gwErr, 63, 56⟩
def GW_ERR_RPOD : Fld := ⟨.gwErr, 55, 44⟩
def GW_ERR_RNODE : Fld := ⟨.gwErr, 43, 36⟩
def COLL_SQ_SQ_BASE : Fld := ⟨.collSq, 47, 12⟩
def COLL_SQ_SQ_LOG2 : Fld := ⟨.collSq, 3, 0⟩
def COLL_CQ_CQ_BASE : Fld := ⟨.collCq, 47, 12⟩
def COLL_CQ_CQ_LOG2 : Fld := ⟨.collCq, 3, 0⟩
def COLL_DB_ABORT : Fld := ⟨.collDb, 63, 63⟩
def COLL_DB_AGROUP : Fld := ⟨.collDb, 61, 56⟩
def COLL_DB_CQ_HEAD : Fld := ⟨.collDb, 31, 16⟩
def COLL_DB_SQ_TAIL : Fld := ⟨.collDb, 15, 0⟩
def COLL_CFG_TMO_MS : Fld := ⟨.collCfg, 63, 48⟩
def COLL_GROUP_W0_VALID : Fld := ⟨.collGroupW0, 63, 63⟩
def COLL_GROUP_W0_SLOT : Fld := ⟨.collGroupW0, 62, 59⟩
def COLL_GROUP_W0_PM1 : Fld := ⟨.collGroupW0, 58, 44⟩
def COLL_GROUP_W0_RANK : Fld := ⟨.collGroupW0, 43, 29⟩
def COLL_GROUP_W1_SEQ : Fld := ⟨.collGroupW1, 63, 48⟩
def COLL_GROUP_W1_LIST : Fld := ⟨.collGroupW1, 47, 0⟩
def TB_POD_NS : Fld := ⟨.tbPod, 63, 0⟩
def TB_HALL_NS : Fld := ⟨.tbHall, 63, 0⟩
def TB_CFG_POD_ROLE : Fld := ⟨.tbCfg, 63, 62⟩
def TB_CFG_POD_PARENT : Fld := ⟨.tbCfg, 61, 55⟩
def TB_CFG_HALL_ROLE : Fld := ⟨.tbCfg, 54, 53⟩
def TB_CFG_HALL_PARENT : Fld := ⟨.tbCfg, 52, 46⟩
def TB_CFG_PPS_IN_EN : Fld := ⟨.tbCfg, 45, 45⟩
def TB_CFG_PPS_OUT_EN : Fld := ⟨.tbCfg, 44, 44⟩
def TB_STAT_POD_STATE : Fld := ⟨.tbStat, 63, 62⟩
def TB_STAT_HALL_STATE : Fld := ⟨.tbStat, 61, 60⟩
def TB_STAT_REF_LOST : Fld := ⟨.tbStat, 59, 59⟩
def TB_STAT_PPS_SEEN : Fld := ⟨.tbStat, 58, 58⟩
def TB_STAT_MASTER_TAKEN : Fld := ⟨.tbStat, 57, 57⟩
def TB_STAT_POD_OFFS : Fld := ⟨.tbStat, 31, 16⟩
def TB_STAT_HALL_OFFS : Fld := ⟨.tbStat, 15, 0⟩
def TB_HALLSET_VALUE : Fld := ⟨.tbHallset, 63, 0⟩
def CKP_CFG_EN : Fld := ⟨.ckpCfg, 63, 63⟩
def CKP_CFG_TRIG : Fld := ⟨.ckpCfg, 62, 61⟩
def CKP_CFG_ENG : Fld := ⟨.ckpCfg, 60, 60⟩
def CKP_CFG_SLOT : Fld := ⟨.ckpCfg, 59, 56⟩
def CKP_CFG_COPY_RATE : Fld := ⟨.ckpCfg, 55, 51⟩
def CKP_CFG_TMO_MS : Fld := ⟨.ckpCfg, 50, 35⟩
def CKP_PERIOD_V : Fld := ⟨.ckpPeriod, 63, 0⟩
def CKP_PHASE_V : Fld := ⟨.ckpPhase, 63, 0⟩
def CKP_JOB_V : Fld := ⟨.ckpJob, 63, 0⟩
def CKP_DEST_V : Fld := ⟨.ckpDest, 63, 0⟩
def CKP_STAT_STATE : Fld := ⟨.ckpStat, 63, 61⟩
def CKP_STAT_RESULT : Fld := ⟨.ckpStat, 60, 53⟩
def CKP_STAT_NEAR_EDGE : Fld := ⟨.ckpStat, 52, 52⟩
def CKP_STAT_SKIPPED : Fld := ⟨.ckpStat, 51, 36⟩
def CKP_STAT_SEQ : Fld := ⟨.ckpStat, 31, 0⟩
def CKP_CTL_RELEASE : Fld := ⟨.ckpCtl, 2, 2⟩
def CKP_CTL_ABORT : Fld := ⟨.ckpCtl, 1, 1⟩
def CKP_CTL_NOW : Fld := ⟨.ckpCtl, 0, 0⟩
def CKP_TARGET_V : Fld := ⟨.ckpTarget, 63, 0⟩
def CKP_MARK_V : Fld := ⟨.ckpMark, 63, 0⟩
def CKP_TRK_HOLDS : Fld := ⟨.ckpTrk, 63, 32⟩
def CKP_TRK_HOLD_FULL : Fld := ⟨.ckpTrk, 31, 0⟩
def CKP_PROG_V : Fld := ⟨.ckpProg, 63, 0⟩
def CKP_RMAN_V : Fld := ⟨.ckpRman, 63, 0⟩
def CKP_RCTL_VERIFY : Fld := ⟨.ckpRctl, 63, 63⟩
def CKP_RCTL_COMMIT : Fld := ⟨.ckpRctl, 62, 62⟩
def CKP_RCTL_CANCEL : Fld := ⟨.ckpRctl, 61, 61⟩
def CKP_RSTAT_RSTATE : Fld := ⟨.ckpRstat, 63, 61⟩
def CKP_RSTAT_RCODE : Fld := ⟨.ckpRstat, 60, 53⟩
def CKP_RSTAT_FIRST_BAD : Fld := ⟨.ckpRstat, 31, 0⟩
def CKP_RSTEP_V : Fld := ⟨.ckpRstep, 63, 0⟩
def CKP_RJOB_V : Fld := ⟨.ckpRjob, 63, 0⟩
def CKP_RREP_V : Fld := ⟨.ckpRrep, 63, 0⟩
def CKP_REGION_W0_VALID : Fld := ⟨.ckpRegionW0, 63, 63⟩
def CKP_REGION_W0_BASE : Fld := ⟨.ckpRegionW0, 47, 0⟩
def CKP_REGION_W1_SIZE : Fld := ⟨.ckpRegionW1, 43, 0⟩
def LOM_STAT_P0_STATE : Fld := ⟨.lomStat, 63, 62⟩
def LOM_STAT_P1_STATE : Fld := ⟨.lomStat, 61, 60⟩
def LOM_STAT_ACTIVE : Fld := ⟨.lomStat, 59, 59⟩
def LOM_STAT_PROFILE : Fld := ⟨.lomStat, 58, 57⟩
def LOM_STAT_SSTATE : Fld := ⟨.lomStat, 56, 55⟩
def LOM_STAT_DELAY : Fld := ⟨.lomStat, 47, 40⟩
def LOM_STAT_SESSION : Fld := ⟨.lomStat, 31, 0⟩
def LOM_CNT_RETRIES : Fld := ⟨.lomCnt, 63, 48⟩
def LOM_CNT_UNCORR : Fld := ⟨.lomCnt, 47, 32⟩
def LOM_CNT_TAGFAIL : Fld := ⟨.lomCnt, 31, 16⟩
def LOM_CNT_PORTSW : Fld := ⟨.lomCnt, 15, 0⟩
def LOM_CFG_HOSTAUTH : Fld := ⟨.lomCfg, 63, 63⟩
def LOM_CFG_XMGMT : Fld := ⟨.lomCfg, 62, 62⟩
def LOM_CFG_EVFWD : Fld := ⟨.lomCfg, 61, 61⟩
def LOM_CFG_TMO : Fld := ⟨.lomCfg, 47, 32⟩
def LOM_CFG_EVMASK : Fld := ⟨.lomCfg, 15, 0⟩
def LOM_EVPOST_VALUE : Fld := ⟨.lomEvpost, 63, 0⟩
def LOM_QCTL_EN : Fld := ⟨.lomQctl, 63, 63⟩
def LOM_QCTL_STATE : Fld := ⟨.lomQctl, 62, 61⟩
def LOM_QCTL_ERR : Fld := ⟨.lomQctl, 60, 60⟩
def LOM_QCTL_WEIGHT : Fld := ⟨.lomQctl, 59, 56⟩
def LOM_QCTL_DONE : Fld := ⟨.lomQctl, 31, 0⟩
def LOM_HDB_VALUE : Fld := ⟨.lomHdb, 63, 0⟩
def SEC_BSTAT_STAGE : Fld := ⟨.secBstat, 63, 60⟩
def SEC_BSTAT_CODE : Fld := ⟨.secBstat, 59, 52⟩
def SEC_BSTAT_DEBUG : Fld := ⟨.secBstat, 51, 51⟩
def SEC_BSTAT_BYTES : Fld := ⟨.secBstat, 31, 0⟩
def SEC_BCTL_CLEAR : Fld := ⟨.secBctl, 1, 1⟩
def SEC_BCTL_LAUNCH : Fld := ⟨.secBctl, 0, 0⟩
def SEC_QCTL_BUSY : Fld := ⟨.secQctl, 63, 63⟩
def SEC_QCTL_DONE : Fld := ⟨.secQctl, 62, 62⟩
def SEC_QCTL_EXTEND : Fld := ⟨.secQctl, 1, 1⟩
def SEC_QCTL_QUOTE : Fld := ⟨.secQctl, 0, 0⟩
def SEC_DBGSTAT_DSTATE : Fld := ⟨.secDbgstat, 63, 62⟩
def SEC_DBGSTAT_FAILS : Fld := ⟨.secDbgstat, 55, 48⟩
def SEC_DBGCTL_SUBMIT : Fld := ⟨.secDbgctl, 1, 1⟩
def SEC_DBGCTL_CHALLENGE : Fld := ⟨.secDbgctl, 0, 0⟩
def SEC_IDPUB_WORD : Fld := ⟨.secIdpub, 63, 0⟩
def SEC_MR_WORD : Fld := ⟨.secMr, 63, 0⟩
def SEC_MEXT_WORD : Fld := ⟨.secMext, 63, 0⟩
def SEC_QNONCE_WORD : Fld := ⟨.secQnonce, 63, 0⟩
def SEC_QUOTE_WORD : Fld := ⟨.secQuote, 63, 0⟩
def SEC_DBGCHAL_WORD : Fld := ⟨.secDbgchal, 63, 0⟩
def SEC_DBGRESP_WORD : Fld := ⟨.secDbgresp, 63, 0⟩
def SEC_PEER_WORD : Fld := ⟨.secPeer, 63, 0⟩
def FST_CTL_DISCARD : Fld := ⟨.fstCtl, 1, 1⟩
def FST_CTL_APPLY : Fld := ⟨.fstCtl, 0, 0⟩
def FST_STAT_STATE : Fld := ⟨.fstStat, 63, 61⟩
def FST_STAT_GEN : Fld := ⟨.fstStat, 31, 0⟩
def FST_ERR_CODE : Fld := ⟨.fstErr, 63, 56⟩
def FST_ERR_SECT_A : Fld := ⟨.fstErr, 55, 48⟩
def FST_ERR_SECT_B : Fld := ⟨.fstErr, 47, 40⟩
def FST_ERR_ITEM : Fld := ⟨.fstErr, 39, 24⟩
def FST_ERR_HALF : Fld := ⟨.fstErr, 23, 23⟩
def FST_ERR_WORD : Fld := ⟨.fstErr, 22, 0⟩
def FST_NONCE_VALUE : Fld := ⟨.fstNonce, 63, 0⟩
def FST_WINDOW_WORD : Fld := ⟨.fstWindow, 63, 0⟩
def SOLV_SQ_SQ_BASE : Fld := ⟨.solvSq, 47, 12⟩
def SOLV_SQ_SQ_LOG2 : Fld := ⟨.solvSq, 3, 0⟩
def SOLV_CQ_CQ_BASE : Fld := ⟨.solvCq, 47, 12⟩
def SOLV_CQ_CQ_LOG2 : Fld := ⟨.solvCq, 3, 0⟩
def SOLV_DB_CANCEL : Fld := ⟨.solvDb, 63, 63⟩
def SOLV_DB_CQ_HEAD : Fld := ⟨.solvDb, 31, 16⟩
def SOLV_DB_SQ_TAIL : Fld := ⟨.solvDb, 15, 0⟩
def SOLV_STAT_SQ_HEAD : Fld := ⟨.solvStat, 63, 48⟩
def SOLV_STAT_CQ_TAIL : Fld := ⟨.solvStat, 47, 32⟩
def SOLV_STAT_PANEL : Fld := ⟨.solvStat, 31, 19⟩
def SOLV_STAT_STATE : Fld := ⟨.solvStat, 3, 0⟩
end F

end Sys2Proof.Machine
end

