-- ==== Sys2Proof/Machine/State.lean ====
section
/-! DEFINITION. The state of the part as plain data. Every register of the management space and of the solver
windows has one home, `State.mg`, keyed by its package address; a field here holds what has no address. -/

namespace Sys2Proof.Machine

/-- The model stops on no command: every command of the table has an effect the manual states. -/
inductive Fault where
deriving DecidableEq, Repr

/-- Why a command has no meaning yet. -/
inductive Refusal where
  /-- Raised by the dispatch of a command not reached yet; safe: nothing is claimed of it. -/
  | notModelled (mnemonic : String)
deriving DecidableEq, Repr

/-- What the last command answered its requester (R7, R9, R382): nothing, done, a register value, bytes, an access
error, a code of a link answer or of the loader, the latter with the Icsum address concerned where there is one (R171),
the ABORT of a handshake, or the number under which the answer comes later (`State.late`). (Log 4, DESIGN CHOICE). -/
inductive Resp where
  | none
  | ok
  | value (v : W64)
  | bytes (b : List Byte)
  | accessError
  | code (c : BitVec 8)
  | codeAt (c : BitVec 8) (icsum : Nat)
  | later (n : Nat)
  | abort
deriving DecidableEq, Repr

/-- A token (R161): counter, error bit, first error code (R162). -/
structure Token where
  count : Nat
  err : Bool
  code : BitVec 8
deriving DecidableEq, Repr

/-- A command in an engine queue (R160): dispatch number, opcode, word bits [55:0], the scalar operand and the
descriptor words captured at dispatch (R149), its Icsum address, the step of its dispatch. -/
structure QEntry where
  id : Nat
  op : BitVec 8
  w : BitVec 56
  sv : W64
  bv : W64
  ps : List W64
  pos : Nat
  since : Nat
deriving DecidableEq, Repr

/-- An issued instruction not yet complete (R161, R179): its queue, its TOUT if TS, the first step at which it can
report, its error code (0 = none), the cores that have reported, whether all have, the earliest step of the token
decrement, and how many requests it still waits for. -/
structure Flight where
  id : Nat
  q : Nat
  op : BitVec 8
  tok : Option (BitVec 8)
  due : Nat
  err : BitVec 8
  got : List (BitVec 12)
  reported : Bool
  decAt : Nat
  waitOn : Nat
deriving DecidableEq, Repr

/-- An issued vector instruction as the issue rules of R121-R123 see it: dispatch number, opcode, unit, issue step, G with
and without the steps lost to bank conflicts, L, the vector registers it reads and writes with their element counts, and the
mask registers it reads and writes. -/
structure VFlight where
  id : Nat
  op : BitVec 8
  unit : Nat
  start : Nat
  g : Nat
  base : Nat
  l : Nat
  reads : List (Nat × Nat)
  writes : List (Nat × Nat)
  maskRead : Option Nat
  maskWrite : Option Nat
deriving DecidableEq, Repr

/-- An open loop (R164, R165): address of the body's first word, of its ENDL, iterations left after this one, and
whether it is a LOOP.R. -/
structure LoopFrame where
  body : Nat
  endl : Nat
  left : Nat
  replay : Bool
deriving DecidableEq, Repr

/-- An access of requesters 1-4 of R98 to tile memory: its first step, how many steps it is made in, its first line and how
many lines a step. -/
structure TileUse where
  at' : Nat
  steps : Nat
  line : Nat
  n : Nat
deriving DecidableEq, Repr

/-- What each row of a stream accesses in tile memory: steps after the row's own step, byte address of row 0, bytes between
rows, bytes. -/
structure RowUse where
  off : Nat
  base : Nat
  pitch : Nat
  len : Nat
deriving DecidableEq, Repr

/-- A stream of vectors through the array (R92, R97, R204): dispatch number, whether it is an MGA, step of vector 0, number of
vectors, steps per vector at the least and by its class, its activations (first line, lines between rows, K rows, element
width, whether they are fed transposed), its psum rows, what each row accesses from its entry into the tailrace on, and the
step at which the last vector leaves the hoppers. -/
structure StreamRun where
  id : Nat
  mga : Bool
  start : Nat
  m : Nat
  pace : Nat
  v : Nat
  line : Nat
  stride : Nat
  k : Nat
  width : Nat
  tfeed : Bool
  psum : List RowUse
  rows : List RowUse
  last : Nat
deriving DecidableEq, Repr

/-- Steps at which the array's issue rules allow the next instruction (R92, R94, R114): load start of the last MLW,
issue of the last MSW, the first steps at which the issue slot and the tailrace's entry are free, and at which row 0 may be
drained; the last stream, its accesses to tile memory, and those of the other array instructions issued (R98). -/
structure ArrayClock where
  mlw : Option Nat
  msw : Option Nat
  slot : Nat
  rows : Nat
  adds : Nat
  run : Option StreamRun
  own : List TileUse
  uses : List TileUse
deriving DecidableEq, Repr, Inhabited

/-- A vector exception under way (R132): the instruction, for each faulting core (row, column) the ACTION once
written, CORE_ARITH and the generator of every core when the instruction began (keyed by slot), and the cores that an
earlier answer for this instruction let skip it or ignore their traps (R134). -/
structure Vexc where
  entry : QEntry
  faulting : List ((Nat × Nat) × Option (BitVec 2))
  saved : List (Nat × W64 × Option W64)
  skipped : List (Nat × Nat)
  noTrap : List (Nat × Nat)
deriving DecidableEq, Repr

/-- A PATCH on its way to a shadow parameter register (R175, R186): the step at which it lands, gang index, register,
value. -/
structure Patch where
  at' : Nat
  row : Nat
  reg : Nat
  val : W64
deriving DecidableEq, Repr

/-- A halt that another row of a large gang has yet to learn of (R175): the step at which it takes effect, and what it
reports. -/
structure LateHalt where
  at' : Nat
  code : BitVec 8
  arg : BitVec 8
  pos : Nat
  queue : Nat
deriving DecidableEq, Repr

/-- Why dispatch has stopped while the queues drain (R189, R192, R196, R352, R353). -/
inductive Drain where
  | stop (save : Bool)
  | halt (code : BitVec 8) (arg : BitVec 8) (pos : Nat) (queue : Nat)
  | switch
  | hold
  | brake
deriving DecidableEq, Repr

/-- What executes one instruction stream (R146, R148): a leading sequencer, a row control core or a node core.
Parameter registers are ROW_PSHADOW and ROW_PACTIVE of the leader, its step counter is ROW_STEP. Fields a kind of
stream does not have stay at their reset value: only a leader has array, vector and tailrace queues and loops, only a
row control core has summary flags and decision slots. -/
structure Ctl where
  s : Map W64               -- scalar registers s0-s31
  tok : Map Token           -- tokens t0-t255
  pc : Nat                  -- Icsum address of the next instruction
  halted : Bool             -- a row control core or node core stopped by a refusal (R171)
  loops : List LoopFrame    -- open loops, innermost first
  qM : List QEntry          -- matrix queue, oldest first
  qV : List QEntry          -- vector queue
  qH : List QEntry          -- hoist queue
  qT : List QEntry          -- tailrace configuration queue
  nextId : Nat              -- next dispatch number
  flights : List Flight     -- issued, token not yet decremented
  vfl : List VFlight        -- vector instructions as the issue rules see them
  arr : ArrayClock
  tr : List (Nat × List W64)  -- tailrace descriptors (R139): dispatch number of the TRCFG and its four words, oldest first
  waiting : Bool            -- a WAIT.T naming this stream has placed its queue waits
  waited : List Nat         -- dispatch numbers of queue heads whose wait on TIN has ended (R161)
  busy : Nat                -- a row control core holds its instruction until this step (R180)
  arith : W64               -- the scalar copy of CORE_ARITH (R158)
  vexc : Option Vexc        -- vector exception under way (R132)
  fills : List (Nat × Nat × W64 × Nat)  -- summary values on their way: row, slot (16 + c = gather word c), value, step
  full : BitVec 16          -- full flags of the summary slots (R181)
  dec : Map W64             -- decision slots (R183)
  posted : BitVec 16        -- posted flags of the decision slots
  postAt : Map Nat          -- first step at which a slot's posting is visible (R180, R183)
  seed : BitVec 32          -- SR_JOB_SEED when the context was created (R195)
  boundary : Nat            -- ROW_STEP at the last replay boundary (R198)
  slices : Nat              -- replay boundaries passed since the context resumed (R194)
  armed : Bool              -- waits for a barrier release (ARM, R189)
  stopReq : Option Bool     -- STOP asked for the next boundary; true with SAVE
  yieldReq : Bool           -- YIELD asked for the next boundary
  draining : Option Drain   -- dispatch has stopped
  paceT0 : W64              -- pod time at which pacing began (R40)
  paceN : Nat               -- ROW_STEP at T0
  paceRel : Nat             -- issue handshakes released since T0
  paceNew : Bool            -- a change of pacing waits for the next boundary (R45)
  paceTgt : Nat             -- target rate in force (R45)
  patches : List Patch      -- PATCHes that have not landed (R186)
  landed : Map Nat          -- step at which a PATCH last landed in a shadow register (R186)
  lateHalt : Option LateHalt -- a halt on its way to the leader (R175)
  passed : Bool             -- the WAIT.T the loader inserted before the hoist at pc is over (R168)
  away : Bool               -- the resident context was saved by STOP with SAVE (R189)
  tag : BitVec 32           -- TAG of the last STEPMARK (R349)
  lag : Nat                 -- steps of a drain that ROW_STEP does not count (R30, R352)
  restored : Bool           -- loaded by a restore: ARM resumes it after its braked STEPMARK (R366)
deriving DecidableEq, Repr, Inhabited

/-- A plane of weights (R89, R96): whether an MLW loaded it, its element format code (CB2: that of its levels),
valid K and N less one, whether it came from CB2, its scale descriptor, its elements (key 128 k + n) and scale bytes
(key 128 i + n for K-direction block i, 128 k + j for N-direction block j). -/
structure Plane where
  loaded : Bool
  fc : Nat
  kv : Nat
  nv : Nat
  cb2 : Bool
  scd : BitVec 8
  w : Map Nat
  sc : Map Nat
deriving DecidableEq, Repr

/-- A tailrace user table (R143): coefficients as FP32 patterns (key 4 j + c), domain start, LOG2W, whether below and
above give z′, and their constants. -/
structure UserTable where
  coef : Map Nat
  lo : Nat
  log2w : Int
  below : Bool
  above : Bool
  belowC : Nat
  aboveC : Nat
deriving DecidableEq, Repr

/-- One core slot: vector registers (key 8192 r + byte), mask registers, tile memory (byte address), weight planes,
gradient accumulator (key 128 m + n) and which of its words an overflow has set (R205), stochastic-rounding generators (none: at the value of R75 for its place), MSL
exponent file (0-255 A, 256-383 B), user tables, and the hoppers' last entries: for each vector, the step at which it leaves and the
16-bit entry of each hopper (R97). Its registers are in `State.mg`. -/
structure CoreSt where
  v : Map Byte
  m : Map Nat
  tile : Map Byte
  active : Plane
  shadow : Plane
  acc : Map Nat
  accOver : Map Nat
  genV : Option W64
  genT : Option W64
  msl : Map Int
  tabA : UserTable
  tabB : UserTable
  hop : List (Nat × List Nat)
deriving DecidableEq, Repr

/-- A loaded program (R147): target, entry address, PUSED and instruction words; the generation its native words carry
once it is known (R188), the native index of each Icsum address (R170), and what the loader added for the hoist queue
(R168): the token of the WAIT.T before a hoist, and the token assigned to a hoist that signals none. -/
structure Program where
  target : BitVec 8
  entry : Nat
  pused : W64
  words : List W64
  gen : Option (BitVec 16)
  amap : List Nat
  waits : Map Nat
  toks : Map Nat
deriving DecidableEq, Repr

/-- A saved context (R197): streams of the leader and of each row's control core, the rows' saved words (key
0x80000 × gang index + offset, the active bank at offset 0x10000), the cores (key 64 × gang index + column), their
CORE_ARITH, CORE_ARRAY_STAT and CORE_VTRAP (same key), the program and the generation of each row's active bank, the
HBM address of the save area and the parts of it written over since (65 i + c for column c of row i, 65 i + 64 for the
row's own state). -/
structure Saved where
  seq : Ctl
  rccs : List Ctl
  rows : Map W64
  cores : Map CoreSt
  regs : Map (W64 × W64 × W64)
  prog : Option Program
  gens : List Nat
  base : Nat
  lost : List Nat
deriving DecidableEq, Repr, Inhabited

/-- Where bytes lie: a slot's tile memory, a row control core's SRAM, the package address space, the fabric. -/
inductive Loc where
  | tile (slot addr : Nat)
  | sram (row addr : Nat)
  | pkg (addr : Nat)
  | fab (addr : Nat)
deriving DecidableEq, Repr

/-- Who waits for the answer of a request: nobody, a hoist instruction of a stream with the engine that issued the request
(R161, R257), the remote requester of a leat packet at half h (R314; EDGE of the packet holds the mark of R310), a Lomly DMA
descriptor (R385), a requester of half h that is answered later under a number (R23), a node core's store (R493), a leat
request of half h to its own node with its tag and engine (R306). -/
inductive Waiter where
  | nobody
  | hoist (u : Proc) (id e : Nat)
  | packet (h : Nat) (p : Packet)
  | dma (h : Nat) (id : Nat)
  | memory (h n : Nat)
  | core (u : Proc)
  | own (h tag e : Nat)
deriving DecidableEq, Repr

/-! Hoist requests (R257-R259). -/

/-- A hoist descriptor (R258). -/
structure HoistDesc where
  a : Nat
  b : Nat
  len : Nat
  rows : Nat
  astr : Nat
  bstr : Nat
  cstr : Nat
  gstr : Nat
  afab : Bool
  bfab : Bool
  boff : Bool
  wmode : Nat
  wfmt : Nat
  square : Bool
  wparam : Nat
  nrepro : Bool
  epoch : Nat
  close : Bool
  ret : Bool
  sibase : Nat
  resv : Bool
deriving DecidableEq, Repr

/-- One engine at work on a descriptor: its half, die (none: control die), job slot if valid, SUNIT, source index,
per-core offset and local store. -/
structure Engine where
  h : Nat
  die : Option Nat
  job : Option Nat
  sunit : Nat
  index : Nat
  off : Nat
  base : Loc
deriving DecidableEq, Repr

/-- What one request of a hoist engine does: n bytes from a source to one destination line, with the outcome of the source's
ECC check; a gateway row; one element of an HATOM; the close of its epoch; a weir block; nothing but a completion code. -/
inductive HWork where
  | move (src dst : Loc) (n : Nat) (ecc : Ecc)
  | bulk (loc : Loc) (addr n : Nat) (write : Bool)
  | elem (opnd : Loc) (addr : Nat) (last : Bool) (ecc : Ecc)
  | close
  | block (k : Nat)
  | code (c : BitVec 8)
deriving DecidableEq, Repr

/-- A request of a hoist engine that its sluice has not taken (R257, R272): who waits, the engine, the instruction. -/
structure HReq where
  who : Waiter
  eng : Engine
  d : HoistDesc
  op : Nat
  fc : Nat
  aop : Nat
  repro : Bool
  work : HWork
deriving DecidableEq, Repr

/-! Memory (spec/10). -/

/-- A closing atomic that waits for DONE (R267): who waits, the code of its own element if that was refused, the old value
it returns (R263), and the die it was issued from and its target (R276). -/
structure Closer where
  who : Waiter
  code : BitVec 8
  old : List W64
  die : Option Nat
  addr : Nat
deriving DecidableEq, Repr

/-- A reduction epoch beside its register (R267): hall time of opening, sources that have closed, sources whose close
waits for their own adds, and who waits for DONE. -/
structure EpochSt where
  opened : Nat
  closed : List Nat
  closing : List (Nat × Closer)
  closers : List Closer
deriving DecidableEq, Repr

/-- An exact accumulator (R265): format width, integer in units of 2^-149, its flags, the open epochs that added to it,
adds taken, and whether its entry lies in the reserve (R268). -/
structure AccSt where
  wide : Bool
  val : Int
  nan : Bool
  pinf : Bool
  ninf : Bool
  negz : Bool
  epochs : List Nat
  adds : Nat
  spill : Bool
deriving DecidableEq, Repr

/-- A reproducible FP64 add that waits in the base die (R266): who waits for it (for the close it carries, if it does), where
its old value goes (R263), and the die it came from. -/
structure Add64 where
  epoch : Nat
  src : Nat
  addr : Nat
  x : W64
  who : Waiter
  closes : Bool
  die : Option Nat
  ret : Option Loc
  spill : Bool
deriving DecidableEq, Repr

/-- A request of half `src` that waits: for the write tracker (R360), for the seam to admit requests again (R279), or behind
such a request of its requester. A write of lines, with the status of its other lines; an atomic, with the die it came
from; a read. -/
inductive HeldOp where
  | write (lines : List (Nat × List Byte)) (err : BitVec 8) (src : Nat)
  | atomic (req : AtomReq) (ret : Option Loc) (die : Option Nat) (src : Nat)
  | read (addr n src : Nat)
deriving DecidableEq, Repr

/-- A block on its way through a weir coder (R281): bridge, direction, mode, field format, parameter, shape, where its
pieces come from and go to, its sidecar word, who waits, and its coded form once encoded. -/
structure WeirBlk where
  bridge : Nat
  dir : Nat
  mode : Nat
  fmt : Nat
  param : Nat
  square : Bool
  src : List Loc
  dst : List Loc
  side : Option Loc
  who : Waiter
  coded : Option (List Byte)
deriving DecidableEq, Repr

/-! Links and the leat (spec/12). -/

/-- One link as its end at this part holds it (R301-R303, R372, R373): session (0 none), the 64-bit counters of flits
received in order and sent in it, whose low 16 bits are SEQ, flits sent and not acknowledged, packets waiting for a credit
with their virtual channel, credits held, credits owed to the other end, tag failures in a row, whether a NAK is owed,
whether it went down with its session, and which sluices its waiting packets saturate (bit 0 the port's, bits 1 and 2 those
of gateways 0 and 1, R273), and the session that a rekey left, while flits of it are not acknowledged (R378; 0 none). -/
structure LinkSt where
  session : Nat
  old : Nat
  rx : Nat
  tx : Nat
  unacked : List Flit
  waitP : List (Nat × Packet)
  waitL : List (Nat × LomPkt)
  cr : List Nat
  owed : List Nat
  tagFails : Nat
  nak : Bool
  down : Bool
  sat : Nat
deriving DecidableEq, Repr

/-- A leat request without its response (R312-R316): tag, job slot, packet, where READ_RESP lines go (place, offset in
the returned bytes, length), the link that took it and whether that link acknowledged it, who waits. -/
structure LeatReq where
  tag : Nat
  slot : Nat
  pkt : Packet
  dst : List (Loc × Nat × Nat)
  link : Nat
  acked : Bool
  who : Waiter
deriving DecidableEq, Repr

/-- A bulk message of a source gateway (R319): id, gateway, job slot and epoch, direction, local place, target pod,
node, region, remote offset, length, lines not yet answered, who waits. -/
structure GwMsg where
  id : Nat
  gw : Nat
  slot : Nat
  epoch : Nat
  write : Bool
  loc : Loc
  pod : Nat
  node : Nat
  region : Nat
  off : Nat
  len : Nat
  left : Nat
  who : Waiter
deriving DecidableEq, Repr

/-! The Lomly link (spec/15). -/

/-- An event record (R388) the host has not acknowledged (R389). -/
structure Event where
  seq : Nat
  src : Nat
  half : Nat
  code : Nat
  stamp : W64
  payload : List W64
  sent : Bool
deriving DecidableEq, Repr

/-- A DMA descriptor held or running (R383-R385): queue, words, started, bytes asked for, first error, bytes moved,
lines not yet answered. -/
structure Dma where
  id : Nat
  q : Nat
  words : List W64
  started : Bool
  issued : Nat
  err : Nat
  moved : Nat
  left : Nat
deriving DecidableEq, Repr

/-- A request for host memory (R381, R385): tag, descriptor, read or write, package and host address, lines. -/
structure HostReq where
  tag : Nat
  dma : Nat
  read : Bool
  paddr : Nat
  haddr : Nat
  lines : Nat
deriving DecidableEq, Repr

/-- A Lomly session being formed (R374): step (1 ACCEPT sent, 2 PROOF accepted), transcript of messages 1 and 2 (3),
new direction keys, profile, SESSION number. -/
structure Handshake where
  step : Nat
  text : List Byte
  h2p : BitVec 256
  p2h : BitVec 256
  profile : Nat
  session : Nat
  rekey : Bool
deriving DecidableEq, Repr

/-- A half's Lomly link beside its registers. -/
structure LomSt where
  evSeq : Nat
  evLost : Nat
  events : List Event
  dmas : List Dma
  hreqs : List HostReq
  nextId : Nat
  nextTag : Nat
  fenced : List Nat         -- queues with a failed descriptor (FENCE, R386)
  stopping : List Nat       -- queues whose EN := 0 waits (R392)
  hs : Option Handshake
  keys : Option (BitVec 256 × BitVec 256)
  oldKeys : Option (BitVec 256 × BitVec 256)
  failAt : List Nat         -- hall times of the failed handshakes of the last second (R377)
  lockout : Bool
  delays : List Nat         -- measured delay of each port, ns
  turn : Nat × Nat          -- round-robin: the queue whose turn it is, units it has had (R383)
  fwd : Bool                -- this half's events go over the other half's link (R391)
  bad : List Nat            -- pod times of the active port's uncorrectable codewords of the last 1 ms (R371)
deriving DecidableEq, Repr

/-! Reliability (spec/17). -/

/-- What was detected in a unit whose targeted test is due (R411, R414): code, address, detail, whether it was corrected,
hall time and incarnation of the detection. -/
structure Cause where
  code : Nat
  addr : W64
  detail : Nat
  corrected : Bool
  stamp : W64
  inc : Nat
deriving DecidableEq, Repr

/-- A unit of the unit table (R421, R422): state (0 IN_SERVICE, 1 SPARE, 2 TESTING, 3 QUARANTINED), the state to which
a test returns it, a test pending, packets fenced, CORRECTED records, incarnation, stamps of its TRANSIENT records at
this incarnation, detections that share the test, whether the test is that of ADMIT. -/
structure UnitSt where
  st : Nat
  back : Nat
  pending : Bool
  heard : Nat
  corrected : Nat
  inc : Nat
  trans : List Nat
  causes : List Cause
  admission : Bool
deriving DecidableEq, Repr

/-! The trust die (spec/18). -/

/-- The HBM key set of a half (R251): a data key and a tweak key. -/
structure KeySet where
  data : BitVec 256
  tweak : BitVec 256
deriving DecidableEq, Repr

/-- A trust die beside its registers: counts of MR0-MR3, staged firmware image, values a quote covers while it is
signed (none while it waits for a stream commit), the values of EXTENDs that wait for it, whether a debug challenge stands, failed SUBMITs in a row, the
CHALLENGE lockout, DRBG draws and requests, the identity and HBM keys. -/
structure SecSt where
  counts : List Nat
  image : Map Byte
  quote : Option (List Byte)
  extendWait : List (List Byte)
  challenge : Bool
  fails : Nat
  lockout : Bool
  draws : Nat
  requests : Nat
  idKey : Bool
  hbmKey : Option KeySet
  linkKeys : Map (BitVec 256 × BitVec 256)
deriving DecidableEq, Repr

/-! Time and collectives (spec/13). -/

/-- A counter beside its register (R325, R329, R330), times in units of 10⁻⁴ ns: its fraction, exchanges in a row below
1 ns, what is left of the offset of the last exchange (ahead positive), its last rate correction, a REF_CLK period, the
pod time of its last exchange, and whether a backup took over as master (R331). -/
structure Clk where
  frac : Nat
  good : Nat
  off : Int
  rate : Int
  heard : W64
  took : Bool
deriving DecidableEq, Repr

/-- A timebase beside its registers: its two counters, a hall time that waits for a PPS edge (R328), and the pod time of the
last edge (R329). -/
structure TimeSt where
  pod : Clk
  hall : Clk
  hallset : Option W64
  edge : W64
deriving DecidableEq, Repr

/-- An abort notice (R341): cause status, culprit, detecting rank, stamp, whether its timeout lay near an edge (R333). -/
structure Notice where
  status : Nat
  culprit : Nat
  detector : Nat
  stamp : Nat
  edge : Bool
deriving DecidableEq, Repr

/-- A running collective (R336-R345): group, descriptor words, sequence number, hall time of launch, what each rank
has contributed (lines of words; key rank), notices held, ranks arrived at a barrier, the release instant TR, whether
its timeout lay near an edge, its completion status and time once it has them. -/
structure CollRun where
  group : Nat
  words : List W64
  seq : Nat
  launch : Nat
  data : Map (List W64)
  notices : List Notice
  arrived : List Nat
  tr : Option W64
  edge : Bool
  done : Option (Nat × W64)
deriving DecidableEq, Repr

/-! Checkpoint and restore (spec/14). -/

/-- A half's checkpoint unit beside its registers: trigger instants passed, contexts held or braked as (leader,
context), NEAR_EDGE seen, pod time of the trigger, trackers armed and what they cover, pages copied, slices stashed
(32 × page + stack) with their bytes as of the cut, page hashes, held operations, hall time of RELEASE, engine paused,
the cuts taken (key 4 × leader + context while the checkpoint runs, 256 + its digest once sealed); the restore's manifest header, its fetched shards and whether VERIFY passed. -/
structure CkpSt where
  ticks : Nat
  held : List (Nat × Nat)
  braked : List (Nat × Nat)
  edge : Bool
  since : Nat
  armed : Bool
  spans : List (Nat × Nat)
  copied : List Nat
  stashed : List Nat
  stash : Map Byte
  hashes : Map (BitVec 512)
  ops : List (HeldOp × Waiter)
  tcut : W64
  engPaused : Bool
  cuts : Map Saved
  header : List Byte
  shards : List Shard
  verified : Bool
deriving DecidableEq, Repr

/-! The solver engine (spec/09). -/

/-- The GMRES procedure of one right-hand side (R232): Arnoldi vectors, rotations (c, s), rotated Hessenberg columns,
right-hand side of the least-squares problem, and whether the inner loop is over. -/
structure Gm where
  vs : List (List W64)
  rots : List (W64 × W64)
  cols : List (List W64)
  g : List W64
  stop : Bool
deriving DecidableEq, Repr

/-- A GMRES-based correction under way (R232): the right-hand side in turn, the residuals it starts from, ‖z‖₂ of this one,
its procedure, and whether a test has met the deadline. -/
structure GmRun where
  col : Nat
  res : List W64
  beta : W64
  gm : Gm
  late : Bool
deriving DecidableEq, Repr

/-- A running descriptor: words; phase (0 panel steps, 1 refinement); OP of the factorisation; panel steps done; T, M,
‖A‖max as FP64 patterns; first 64 logged columns and their count; flags; hall time of start; corrections; tests in a row
that did not halve the backward error; norms; whether the correction of a test is still due; the iterate and B as the
engine keeps them; a GMRES-based correction under way; and, once it is over, status, DETAIL and ADDR of its record. -/
structure SolvRun where
  words : List W64
  phase : Nat
  fop : Nat
  panel : Nat
  t : W64
  mx : W64
  anorm : W64
  logged : List Nat
  logCount : Nat
  flags : Nat
  start : W64
  iters : Nat
  bad : Nat
  rnorm : W64
  berr : W64
  normA : Option W64
  tested : Bool
  x : List W64
  b : List W64
  gm : Option GmRun
  done : Option (Nat × Nat × Nat)
deriving DecidableEq, Repr

/-! Configuration the Fueman stream sets and no register holds (spec/16). -/

/-- Security policy, spare engine, die routes, operating-point limits, test schedule and DOMAINS of one half. -/
structure Cfg where
  writers : Nat
  hostKey : List W64
  nonceReq : Bool
  hostRead : Nat
  hostWrite : Nat
  dbgTrig : Bool
  dbgUnlock : Bool
  oesub : Nat
  dieRoute : Nat
  rowop : Map (Nat × Nat)
  rowtest : Map W64
  chantest : Map W64
  opttest : Map W64
deriving DecidableEq, Repr

/-- What one half holds beside its registers. -/
structure Half where
  epochs : Map EpochSt
  accs : Map AccSt
  adds : List Add64
  hq : List HReq            -- hoist requests held at their engines, oldest first (R257)
  reqs : List LeatReq
  stray : List LeatReq      -- requests that timed out while a link still held their packet (R320)
  msgs : List GwMsg
  nextTag : Nat
  lom : LomSt
  units : Map UnitSt
  seen : Map Nat            -- error log entries read since they were written (R423)
  sec : SecSt
  tb : TimeSt
  colls : List CollRun
  collHead : Nat            -- SQ_HEAD and CQ_TAIL of the collective rings (R215, R336)
  collTail : Nat
  ckp : CkpSt
  solv : Option SolvRun
  baseKeys : Map KeySet     -- key sets loaded into the half's base dies (R251)
  cancel : Bool             -- CANCEL written (R236)
  nodeEvents : List (Nat × Nat × List W64)  -- events raised to node software, oldest first: source, CODE, payload (R216, R334)
  fstKind : Option Nat      -- kind of a validated stream whose commit is due (R405, R406)
  fstBy : Bool              -- it was written by node software
  fstNode : List Nat        -- window words that node software wrote (R407)
  cfg : Cfg
  bucket : Nat              -- burst bucket in units of 10 µJ (R463)
  bucketOn : Bool           -- the half has entered RUNNING since its reset, filling the bucket
  evals : Nat               -- fantail evaluations so far
  hot : Bool                -- a sensor at or above its throttle point (R469)
  tgSeen : List Nat         -- channels whose traffic engine's latest run has met an error (R271)
  opSince : Map Nat         -- evaluation at which the free gang of a leader last changed its point (R39)
  rst : Bool                -- HALFh_RST_N is low
deriving DecidableEq, Repr

/-- The pins and the two small interfaces of spec/20. -/
structure Pins where
  input : Bool              -- input power present
  rstLow : Bool             -- RST_N low
  pwrGood : Bool
  faultLow : List Nat       -- halves whose FATAL drives FAULT_N low
  mfp0 : Bool               -- MFP0 driven high
  refLost : Bool
  debugOnly : Bool          -- the debug-only state (R447)
  fatal : W64               -- MGMT_FATAL (R483)
  i3cDyn : Option (BitVec 7)
  i3cIdx : Nat
  i3cSnap : Map W64
  tapIr : BitVec 8
  tapReset : Bool
  tapDr : List Byte         -- data register last captured
deriving DecidableEq, Repr

/-- The whole part. -/
structure State where
  pending : List Instr      -- commands waiting, first in first out
  mg : Map W64              -- registers and windows, by package address (default: After load, `mgDefault`)
  hbm : List Host.Cell      -- HBM bytes written since power-up, by package address
  cores : Map CoreSt        -- core slots, by global slot index
  ctl : Map Ctl             -- instruction streams, by `procNum`
  progs : Map Program       -- loaded programs: 2 × row + bank for core streams, 128 + procNum otherwise
  saves : Map Saved         -- contexts that are not resident, by 4 × leader + context
  links : Map LinkSt        -- 64 h + l leat links, 128 + h Lomly links
  weir : List WeirBlk       -- blocks between encoder and destination, oldest first
  seamPause : Bool          -- cross-half admission has stopped (R279)
  ramp : List Nat           -- domains being switched on (R458)
  owners : Map Nat          -- resource owners (R402): 65536 × kind + index
  h0 : Half
  h1 : Half
  pins : Pins
  resp : Resp               -- answer to the last command's requester
  late : Map Resp           -- answers given later, by the number their requester was told (R23, R24)
  asked : Nat               -- numbers told so far (the model's own counter)
  free : Nat                -- free values taken so far (the model's own counter)
  boots : Nat               -- power-ups and resets so far (the model's own counter)
  smears : List (Nat × Nat × Nat) -- ranges of HBM that became undefined: base, length, number; newest first
deriving DecidableEq, Repr

/-! Reset (R394, R459): no input power, both halves OFF, every register at its After load value, nothing stored. -/

def lomZero : LomSt :=
  { evSeq := 0, evLost := 0, events := [], dmas := [], hreqs := [], nextId := 0, nextTag := 0, fenced := [],
    stopping := [], hs := none, keys := none, oldKeys := none, failAt := [],
    lockout := false, delays := [0, 0], turn := (0, 0), fwd := false, bad := [] }

def secZero : SecSt :=
  { counts := [0, 0, 0, 0], image := [], quote := none, extendWait := [], challenge := false, fails := 0,
    lockout := false, draws := 0, requests := 0, idKey := false, hbmKey := none, linkKeys := [] }

def timeZero : TimeSt :=
  { pod := ⟨0, 0, 0, 0, 0, false⟩, hall := ⟨0, 0, 0, 0, 0, false⟩, hallset := none, edge := 0 }

def ckpZero : CkpSt :=
  { ticks := 0, held := [], braked := [], edge := false, since := 0, armed := false, spans := [], copied := [],
    stashed := [], stash := [], hashes := [], ops := [], tcut := 0, engPaused := false, cuts := [], header := [], shards := [],
    verified := false }

/-- The configuration after load (R39, R400-R402): every HOSTREAD and HOSTWRITE bit set, no engine replaced. -/
def cfgZero : Cfg :=
  { writers := 0, hostKey := [], nonceReq := false, hostRead := 0x3FFFF, hostWrite := 0x3FFFF, dbgTrig := false,
    dbgUnlock := true, oesub := 0xF, dieRoute := 0, rowop := [], rowtest := [], chantest := [], opttest := [] }

def halfZero : Half :=
  { epochs := [], accs := [], adds := [], hq := [], reqs := [], stray := [], msgs := [], nextTag := 0, lom := lomZero, units := [], seen := [],
    sec := secZero, tb := timeZero, colls := [], collHead := 0, collTail := 0, ckp := ckpZero, solv := none, baseKeys := [], cancel := false, nodeEvents := [], fstKind := none,
    fstBy := false, fstNode := [], cfg := cfgZero, bucket := 0, bucketOn := false, evals := 0, hot := false, tgSeen := [], opSince := [], rst := false }

def pinsZero : Pins :=
  { input := false, rstLow := false, pwrGood := false, faultLow := [], mfp0 := false, refLost := false,
    debugOnly := false, fatal := 0, i3cDyn := none, i3cIdx := 0, i3cSnap := [], tapIr := 0x01, tapReset := true,
    tapDr := [] }

/-- The part before input power is applied: nothing of it survives a removal of power (R394).
(Log 7, DESIGN CHOICE; 8, DEDUCED). -/
def State.reset : State :=
  { pending := [], mg := [], hbm := [], cores := [], ctl := [], progs := [], saves := [], links := [], weir := [],
    seamPause := false, ramp := [], owners := [], h0 := halfZero, h1 := halfZero, pins := pinsZero, resp := .none, late := [], asked := 0, free := 0,
    boots := 0, smears := [] }

end Sys2Proof.Machine
end

