-- ==== Sys2Proof/Machine/Ops.lean ====
section
/-! DEFINITION. Named operations over bits, sparse stores, registers, memory and the parts of the state. -/

namespace Sys2Proof.Machine

/-! Bits. -/

/-- Bits [hi:lo] of a number. -/
def bits (w hi lo : Nat) : Nat := w / 2 ^ lo % 2 ^ (hi - lo + 1)

/-- Bit i of a number. -/
def bit (w i : Nat) : Bool := w / 2 ^ i % 2 == 1

/-- A word with its bits [hi:lo] replaced by the low bits of v. -/
def setBits (w : W64) (hi lo v : Nat) : W64 :=
  let n := hi - lo + 1
  BitVec.ofNat 64 (w.toNat - bits w.toNat hi lo * 2 ^ lo + v % 2 ^ n * 2 ^ lo)

/-- The low n bits as a two's complement integer. -/
def sext (n v : Nat) : Int := if 2 ^ (n - 1) ≤ v % 2 ^ n then (v % 2 ^ n : Nat) - (2 ^ n : Int) else (v % 2 ^ n : Nat)

/-- A 64-bit word of an integer modulo 2^64. -/
def w64 (v : Int) : W64 := BitVec.ofInt 64 v

/-- Ceiling division. -/
def ceilDiv (a b : Nat) : Nat := (a + b - 1) / b

/-- Little-endian bytes of a number (R7, R62). -/
def toBytes : Nat → Nat → List Byte
  | 0, _ => []
  | n + 1, v => BitVec.ofNat 8 v :: toBytes n (v / 256)

/-- The number little-endian bytes spell. -/
def ofBytes : List Byte → Nat
  | [] => 0
  | b :: r => b.toNat + 256 * ofBytes r

/-- The bytes of 64-bit words, little-endian. -/
def wordBytes (ws : List W64) : List Byte := ws.flatMap fun w => toBytes 8 w.toNat

/-- n numbers counted from a: a, a + 1, … -/
def rangeFrom (a n : Nat) : List Nat := (List.range n).map (a + ·)

/-- A saturating counter: v + n, stopping at 2^width − 1. -/
def satAdd (width v n : Nat) : Nat := min (v + n) (2 ^ width - 1)

/-! Sparse stores in canonical form: keys strictly rising, no entry equal to the default of its key. -/

/-- The value at key k; d k where nothing is listed. -/
def mget {α : Type} (d : Nat → α) (k : Nat) : Map α → α
  | [] => d k
  | (a, x) :: r => if k = a then x else if k < a then d k else mget d k r

/-- The store with value v at key k; an entry equal to the default is removed. -/
def mset {α : Type} [DecidableEq α] (d : Nat → α) (k : Nat) (v : α) : Map α → Map α
  | [] => if v = d k then [] else [(k, v)]
  | (a, x) :: r =>
    if k = a then (if v = d k then r else (k, v) :: r)
    else if k < a then (if v = d k then (a, x) :: r else (k, v) :: (a, x) :: r)
    else (a, x) :: mset d k v r

/-- The canonical form of a store. -/
def mwf {α : Type} [DecidableEq α] (d : Nat → α) (m : Map α) : Bool :=
  decide ((m.map Prod.fst).Pairwise (· < ·)) && m.all fun e => !decide (e.2 = d e.1)

/-- The listed value at key k, if any. -/
def mfind {α : Type} (k : Nat) : Map α → Option α
  | [] => none
  | (a, x) :: r => if k = a then some x else if k < a then none else mfind k r

/-- The store with v listed at key k. -/
def mput {α : Type} (k : Nat) (v : α) : Map α → Map α
  | [] => [(k, v)]
  | (a, x) :: r =>
    if k = a then (k, v) :: r else if k < a then (k, v) :: (a, x) :: r else (a, x) :: mput k v r

/-- The store without the keys for which p holds. -/
def mdrop {α : Type} (p : Nat → Bool) (m : Map α) : Map α := m.filter fun e => !p e.1

/-- The entries with keys in [lo, hi), keys counted from lo. -/
def mslice {α : Type} (lo hi : Nat) (m : Map α) : Map α :=
  (m.filter fun e => decide (lo ≤ e.1) && decide (e.1 < hi)).map fun e => (e.1 - lo, e.2)

/-- The entries of b, moved up by lo, put in place of those of m with keys in [lo, hi). -/
def mreplace {α : Type} (lo hi : Nat) (b m : Map α) : Map α :=
  b.foldl (fun acc e => mput (lo + e.1) e.2 acc) (mdrop (fun k => decide (lo ≤ k) && decide (k < hi)) m)

/-- The same in a store with defaults d. -/
def mreplaceD {α : Type} [DecidableEq α] (d : Nat → α) (lo hi : Nat) (b m : Map α) : Map α :=
  b.foldl (fun acc e => mset d (lo + e.1) e.2 acc) (mdrop (fun k => decide (lo ≤ k) && decide (k < hi)) m)

/-- Zero everywhere. -/
def z64 : Nat → W64 := fun _ => 0
def zByte : Nat → Byte := fun _ => 0
def zNat : Nat → Nat := fun _ => 0
def zInt : Nat → Int := fun _ => 0

/-! Addresses of registers (R492, R495, R498). -/

/-- M_h, the base of half h's management region (R495). -/
def halfBase (h : Nat) : Nat := 0x7F0010000000 + h * 0x10000000

/-- Base of instance i of a block: global slot, row, die, channel, half, bridge or 0 (R498). -/
def blockBase : Block → Nat → Nat
  | .dev, _ => 0x7F0000000000
  | .pwr, _ => 0x7F0000100000
  | .seam, b => 0x7F0000200000 + b * 0x1000
  | .core, i => halfBase (i / 2176) + 0x1000 * (i % 2176)
  | .row, i => halfBase (i / 32) + 0x1000000 + 0x80000 * (i % 32)
  | .die, i => halfBase (i / 4) + 0x2000000 + 0x1000 * (i % 4)
  | .hbmh, h => halfBase h + 0x2100000
  | .ch, i => halfBase (i / 512) + 0x2200000 + 0x1000 * (i % 512)
  | .hoist, h => halfBase h + 0x2400000
  | .leat, h => halfBase h + 0x2500000
  | .gw, h => halfBase h + 0x2600000
  | .coll, h => halfBase h + 0x2700000
  | .tb, h => halfBase h + 0x2710000
  | .ckp, h => halfBase h + 0x2720000
  | .lom, h => halfBase h + 0x2730000
  | .sec, h => halfBase h + 0x2740000
  | .fst, h => halfBase h + 0x3000000
  | .solv, h => 0x500000000000 + h * 0x100000000

/-- The package address of word i of a register in block instance `inst`. -/
def regAddr (r : Reg) (inst i : Nat) : Nat :=
  blockBase (regSpec r).blk inst + (regSpec r).off + (regSpec r).stride * i

/-- The block, instance and offset of a half region offset (R498). -/
def halfBlockOf (h o : Nat) : Option (Block × Nat × Nat) :=
  if o < 0x1000000 then
    if o / 0x1000 < 2176 then some (.core, 2176 * h + o / 0x1000, o % 0x1000) else none
  else if o < 0x2000000 then some (.row, 32 * h + (o - 0x1000000) / 0x80000, (o - 0x1000000) % 0x80000)
  else if o < 0x2004000 then some (.die, 4 * h + (o - 0x2000000) / 0x1000, o % 0x1000)
  else if o < 0x2100000 then none
  else if o < 0x2101000 then some (.hbmh, h, o % 0x1000)
  else if o < 0x2200000 then none
  else if o < 0x2400000 then some (.ch, 512 * h + (o - 0x2200000) / 0x1000, o % 0x1000)
  else if o < 0x2401000 then some (.hoist, h, o % 0x1000)
  else if o < 0x2500000 then none
  else if o < 0x2600000 then some (.leat, h, o - 0x2500000)
  else if o < 0x2601000 then some (.gw, h, o % 0x1000)
  else if o < 0x2700000 then none
  else if o < 0x2701000 then some (.coll, h, o % 0x1000)
  else if o < 0x2710000 then none
  else if o < 0x2711000 then some (.tb, h, o % 0x1000)
  else if o < 0x2720000 then none
  else if o < 0x2721000 then some (.ckp, h, o % 0x1000)
  else if o < 0x2730000 then none
  else if o < 0x2731000 then some (.lom, h, o % 0x1000)
  else if o < 0x2740000 then none
  else if o < 0x2742000 then some (.sec, h, o - 0x2740000)
  else if o < 0x3000000 then none
  else if o < 0x5000000 then some (.fst, h, o - 0x3000000)
  else none

/-- The block, instance and offset of a package address; none outside every block (R492, R495, R498). -/
def blockOf (a : Nat) : Option (Block × Nat × Nat) :=
  if a < 0x500000000000 then none
  else if a < 0x500200000000 then
    let o := a % 0x100000000
    if o < 0x20 then some (.solv, (a - 0x500000000000) / 0x100000000, o) else none
  else if a < 0x7F0000000000 then none
  else if a < 0x7F0000100000 then some (.dev, 0, a - 0x7F0000000000)
  else if a < 0x7F0000101000 then some (.pwr, 0, a - 0x7F0000100000)
  else if a < 0x7F0000200000 then none
  else if a < 0x7F0000202000 then some (.seam, (a - 0x7F0000200000) / 0x1000, a % 0x1000)
  else if a < 0x7F0010000000 then none
  else if a < 0x7F0030000000 then
    halfBlockOf ((a - 0x7F0010000000) / 0x10000000) ((a - 0x7F0010000000) % 0x10000000)
  else none

/-- Word index of an offset in a register, if the offset lies on one of its words. -/
def regIndex (r : Reg) (o : Nat) : Option Nat :=
  let p := regSpec r
  if o < p.off then none
  else if p.count ≤ 1 then (if o = p.off then some 0 else none)
  else if (o - p.off) % p.stride = 0 ∧ (o - p.off) / p.stride < p.count then some ((o - p.off) / p.stride)
  else none

/-- The register, block instance and word index at a package address (R499). -/
def regAt (a : Nat) : Option (Reg × Nat × Nat) :=
  match blockOf a with
  | none => none
  | some (b, i, o) => (regsOf b).findSome? fun r => (regIndex r o).map fun k => (r, i, k)

/-- The word a register's fields give after load. -/
def fieldsReset (fs : List FieldSpec) : Nat := fs.foldl (fun acc f => acc + f.rst * 2 ^ f.lo) 0

/-- After load value of word k of a register in instance i (R11). ROW_GANG.LEADER is the row itself and
ROW_COLMAP maps column c to slot c. -/
def regDefault (r : Reg) (i k : Nat) : W64 :=
  match r with
  | .rowGang => BitVec.ofNat 64 (i % 64 * 2 ^ 58 + 2 ^ 51)
  | .rowColmap => BitVec.ofNat 64 ((List.range 8).foldl (fun acc e => acc + (8 * k + e) * 2 ^ (8 * e)) 0)
  | r => BitVec.ofNat 64 (fieldsReset (regSpec r).fields)

/-- What an unlisted address of the management space reads: its After load value, 0 where there is no register. -/
def mgDefault (a : Nat) : W64 :=
  match regAt a with
  | some (r, i, k) => regDefault r i k
  | none => 0

/-- Word k of a register in block instance i. -/
def reg (s : State) (r : Reg) (i k : Nat) : W64 := mget mgDefault (regAddr r i k) s.mg

/-- The state with word k of a register in instance i set. -/
def setReg (s : State) (r : Reg) (i k : Nat) (v : W64) : State :=
  { s with mg := mset mgDefault (regAddr r i k) v s.mg }

/-- A field of word k of a register in instance i. -/
def getF (s : State) (f : Fld) (i : Nat) (k : Nat := 0) : Nat := bits (reg s f.reg i k).toNat f.hi f.lo

/-- The state with that field set to the low bits of v. -/
def putF (s : State) (f : Fld) (i : Nat) (v : Nat) (k : Nat := 0) : State :=
  setReg s f.reg i k (setBits (reg s f.reg i k) f.hi f.lo v)

/-- The field raised by n, stopping at its maximum. -/
def bumpF (s : State) (f : Fld) (i : Nat) (n : Nat := 1) (k : Nat := 0) : State :=
  putF s f i (satAdd (f.hi - f.lo + 1) (getF s f i k) n) k

/-! Answers and free values. -/

def answer (s : State) (r : Resp) : State := { s with resp := r }
def accessError (s : State) : State := { s with resp := .accessError }

/-- A free value and the state that has taken it. (Log 5, DESIGN CHOICE). -/
def fresh (s : State) : W64 × State := (Config.freeValue s.free, { s with free := s.free + 1 })

/-! Parts of the state. -/

def half (s : State) (h : Nat) : Half := if h = 0 then s.h0 else s.h1

def setHalf (s : State) (h : Nat) (x : Half) : State := if h = 0 then { s with h0 := x } else { s with h1 := x }

def updHalf (s : State) (h : Nat) (f : Half → Half) : State := setHalf s h (f (half s h))

/-- Number of an instruction stream in `State.ctl`: leaders 0-63, row control cores 64-127, node cores from 128. -/
def procNum : Proc → Nat
  | .seq l => l.toNat
  | .rcc r => 64 + r.toNat
  | .node h c => 128 + 24 * h.toNat + c.toNat

def tokZero : Token := ⟨0, false, 0⟩
def arrZero : ArrayClock := ⟨none, none, 0, 0, 0, none, [], []⟩

/-- A stream as at context creation (R139, R148): every register, token and queue empty. -/
def ctlZero : Ctl :=
  { s := [], tok := [], pc := 0, halted := false, loops := [], qM := [], qV := [], qH := [], qT := [], nextId := 0,
    flights := [], vfl := [], arr := arrZero, tr := [], waiting := false, waited := [], busy := 0, arith := 0, vexc := none,
    fills := [], full := 0, dec := [], posted := 0, postAt := [], seed := 0, boundary := 0, slices := 0,
    armed := false,
    stopReq := none, yieldReq := false, draining := none, paceT0 := 0, paceN := 0,
    paceRel := 0, paceNew := false, paceTgt := 0, patches := [], landed := [], lateHalt := none, passed := false,
    away := false, tag := 0, lag := 0,
    restored := false }

def getCtl (s : State) (u : Proc) : Ctl := mget (fun _ => ctlZero) (procNum u) s.ctl
def setCtl (s : State) (u : Proc) (c : Ctl) : State := { s with ctl := mset (fun _ => ctlZero) (procNum u) c s.ctl }
def updCtl (s : State) (u : Proc) (f : Ctl → Ctl) : State := setCtl s u (f (getCtl s u))

def planeZero : Plane := ⟨false, 0, 127, 127, false, 0, [], []⟩
def tableZero : UserTable := ⟨[], 0, 0, false, false, 0, 0⟩

/-- A core as at context creation, its tile memory zero (R96, R116, R143, R207, R508). -/
def coreZero : CoreSt := ⟨[], [], [], planeZero, planeZero, [], [], none, none, [], tableZero, tableZero, []⟩

def getCore (s : State) (slot : Nat) : CoreSt := mget (fun _ => coreZero) slot s.cores
def setCore (s : State) (slot : Nat) (c : CoreSt) : State := { s with cores := mset (fun _ => coreZero) slot c s.cores }

def getTok (c : Ctl) (t : Nat) : Token := mget (fun _ => tokZero) t c.tok
def setTok (c : Ctl) (t : Nat) (k : Token) : Ctl := { c with tok := mset (fun _ => tokZero) t k c.tok }

/-- Scalar register r of a stream. -/
def sreg (c : Ctl) (r : Nat) : W64 := mget z64 r c.s
def setSreg (c : Ctl) (r : Nat) (v : W64) : Ctl := { c with s := mset z64 r v c.s }

/-! HBM bytes. -/

/-- The canonical form of the HBM bytes: addresses strictly rising. No entry can equal what an unlisted byte reads,
since that value is free (R508). -/
def Memory.wf (m : List Host.Cell) : Bool := decide ((m.map Prod.fst).Pairwise (· < ·))

/-- What an unlisted byte of HBM reads: the free value of the newest range around it that became undefined, else the
unpredictable value of R508. -/
def unlistedByte (s : State) (a : Nat) : Byte :=
  match s.smears.find? fun x => decide (x.1 ≤ a) && decide (a < x.1 + x.2.1) with
  | some x => Config.undefByte x.2.2 a
  | none => Config.uninitByte s.boots a

/-- A byte of HBM: what was written, or what an unlisted byte reads. (Log 6, DESIGN CHOICE). -/
def hbmByte (s : State) (a : Nat) : Byte := (mfind a s.hbm).getD (unlistedByte s a)

def hbmBytes (s : State) (a n : Nat) : List Byte := (List.range n).map fun i => hbmByte s (a + i)

def setHbmByte (s : State) (a : Nat) (b : Byte) : State := { s with hbm := mput a b s.hbm }

def setHbmBytes (s : State) (a : Nat) (bs : List Byte) : State :=
  { s with hbm := (bs.zipIdx a).foldl (fun m e => mput e.2 e.1 m) s.hbm }

/-- A 64-bit word of HBM. -/
def hbmWord (s : State) (a : Nat) : W64 := BitVec.ofNat 64 (ofBytes (hbmBytes s a 8))

def setHbmWord (s : State) (a : Nat) (v : W64) : State := setHbmBytes s a (toBytes 8 v.toNat)

/-! Gangs and core places (R14, R173, R177). -/

def rowLeader (s : State) (r : Nat) : Nat := getF s F.ROW_GANG_LEADER r

/-- The rows of the gang led by row l, in increasing index. -/
def gangRows (s : State) (l : Nat) : List Nat := (List.range 64).filter fun r => rowLeader s r == l

def isLarge (s : State) (l : Nat) : Bool := getF s F.ROW_GANG_LARGE l == 1

/-- The half, die and first global slot of a row. -/
def rowHalf (r : Nat) : Nat := r / 32
def rowSlot0 (r : Nat) : Nat := 544 * (r / 8) + 68 * (r % 8)

/-- The global slot serving logical column c of row r (R177). -/
def slotOf (s : State) (r c : Nat) : Nat :=
  rowSlot0 r + bits (reg s .rowColmap r (c / 8)).toNat (8 * (c % 8) + 6) (8 * (c % 8))

/-- The (row, column) places of a gang's cores, rows in gang index order. -/
def gangCores (s : State) (l : Nat) : List (Nat × Nat) :=
  (gangRows s l).flatMap fun r => (List.range 64).map fun c => (r, c)

def updPlace (s : State) (r c : Nat) (f : CoreSt → CoreSt) : State :=
  let p := slotOf s r c
  setCore s p (f (getCore s p))

/-- Flags and saturations added to CORE_ARITH of a slot (R81). -/
def addFlags (s : State) (slot : Nat) (fl : Fl) : State :=
  if fl = flNone then s
  else
    let w := reg s .coreArith slot 0
    let s := setReg s .coreArith slot 0 (w ||| BitVec.ofNat 64 fl.bits.toNat)
    bumpF s F.CORE_ARITH_SAT_COUNT slot fl.sat

end Sys2Proof.Machine
end

