-- ==== Sys2Proof/Machine/Seq.lean ====
section
/-! DEFINITION. Gangs, steps, replay boundaries, halts, refusals, tokens and queues (R29-R31, R160-R166, R173-R194):
the shared operations of every instruction stream. -/

namespace Sys2Proof.Machine

/-! Reason codes (R171) and gang states (R189). -/

def rcBadOpcode : BitVec 8 := 0x01
def rcBadFormat : BitVec 8 := 0x02
def rcBadField : BitVec 8 := 0x03
def rcBadCount : BitVec 8 := 0x04
def rcTileBounds : BitVec 8 := 0x05
def rcOverlap : BitVec 8 := 0x06
def rcLoopDepth : BitVec 8 := 0x07
def rcLoopCount : BitVec 8 := 0x08
def rcBadTarget : BitVec 8 := 0x09
def rcQueueClass : BitVec 8 := 0x0A
def rcAddrClass : BitVec 8 := 0x0B
def rcParam : BitVec 8 := 0x0C
def rcTranslation : BitVec 8 := 0x0D
def rcTokenFault : BitVec 8 := 0x0E
def rcReplayNest : BitVec 8 := 0x0F
def rcBadHeader : BitVec 8 := 0x10
def rcReservedToken : BitVec 8 := 0x11
def rcProgSize : BitVec 8 := 0x12
def rcVexcHalt : BitVec 8 := 0x20
def rcHaltInstr : BitVec 8 := 0x21
def rcWatchdog : BitVec 8 := 0x30
def rcHalfLeft : BitVec 8 := 0x31
def rcUnitError : BitVec 8 := 0x32

def gsStopped : Nat := 0
def gsRunning : Nat := 1
def gsHalted : Nat := 2
def gsBraked : Nat := 3
def gsSwitching : Nat := 4

def gangState (s : State) (l : Nat) : Nat := getF s F.ROW_STATUS_STATE l
def setGangState (s : State) (l v : Nat) : State := putF s F.ROW_STATUS_STATE l v
def curCtx (s : State) (l : Nat) : Nat := getF s F.ROW_STATUS_CTX l
def activeBank (s : State) (l : Nat) : Nat := getF s F.ROW_IMCTL_ACTIVE l

def seqOf (l : Nat) : Proc := .seq (BitVec.ofNat 6 l)
def rccOf (r : Nat) : Proc := .rcc (BitVec.ofNat 6 r)
def seqCtl (s : State) (l : Nat) : Ctl := getCtl s (seqOf l)
def setSeq (s : State) (l : Nat) (c : Ctl) : State := setCtl s (seqOf l) c
def updSeq (s : State) (l : Nat) (f : Ctl → Ctl) : State := setSeq s l (f (seqCtl s l))

/-- ROW_STEP of a row. -/
def rowSteps (s : State) (r : Nat) : Nat := (reg s .rowStep r 0).toNat

/-- Steps as a row's engines count them: ROW_STEP and the steps of a drain that ROW_STEP leaves out (R30). -/
def stepNow (s : State) (r : Nat) : Nat := rowSteps s r + (seqCtl s (rowLeader s r)).lag

/-! Programs (R147, R170). -/

/-- Key of a stream's program in `State.progs`; a core stream's programs lie in its leader's banks. -/
def progKey (u : Proc) (bank : Nat) : Nat :=
  match u with
  | .seq l => 2 * l.toNat + bank
  | u => 128 + procNum u

/-- No program. -/
def progNone : Program := ⟨0, 0, 0, [], none, [], [], []⟩

/-- The words of the program a stream runs: that of the leader's active bank for a core stream. -/
def progOf (s : State) (u : Proc) : Program :=
  let b := match u with
    | .seq l => activeBank s l.toNat
    | _ => 0
  (mfind (progKey u b) s.progs).getD progNone

def opOf (w : W64) : Nat := bits w.toNat 63 56

/-- Address of the ENDL that closes the loop whose body starts at `a`, nesting depth `d` below it (R164). -/
def findEndl : List W64 → Nat → Nat → Option Nat
  | [], _, _ => none
  | w :: r, a, d =>
    if opOf w = 0x04 then (if d = 0 then some a else findEndl r (a + 1) (d - 1))
    else if opOf w = 0x02 ∨ opOf w = 0x03 then findEndl r (a + 1) (d + 1)
    else findEndl r (a + 1) d

/-- The ENDL matching a LOOP at address p. -/
def matchEndl (ws : List W64) (p : Nat) : Option Nat := findEndl (ws.drop (p + 1)) (p + 1) 0

/-- Native bank position of an Icsum address (R170). (Log 31, DESIGN CHOICE). -/
def nativePos (s : State) (l pos : Nat) : Nat := (progOf s (seqOf l)).amap.getD pos 0

/-- The Icsum address at a native position of leader l's bank, by the map the loader produced with the translation
(R170). -/
def icsumOf (s : State) (l bank pos : Nat) : Option Nat :=
  (mfind (progKey (seqOf l) bank) s.progs).bind fun p => p.amap.findIdx? (· == pos)

/-- Does the word a core stream fetches next fail to decode as a native word of its bank: the bank holds no translation,
the stream has left it, or its words carry another generation than the bank (R171, R188)? (Log 28, DEDUCED). -/
def staleWord (s : State) (u : Proc) : Bool :=
  match u with
  | .seq l =>
    let b := activeBank s l.toNat
    match mfind (progKey u b) s.progs with
    | none => true
    | some p =>
      decide (p.words.length ≤ (getCtl s u).pc) ||
        p.gen != some (BitVec.ofNat 16 (if b = 0 then getF s F.ROW_IMCTL_GEN0 l.toNat else getF s F.ROW_IMCTL_GEN1 l.toNat))
  | _ => false

/-! Halts (R192) and refusals (R190, R191). -/

/-- Contexts that exist, are not halted and are not k (R194). -/
def otherRunnable (s : State) (l k : Nat) : List Nat :=
  (List.range 4).filter fun j =>
    j != k && bit (getF s F.ROW_CTXCTL_CVALID l) j && !bit (getF s F.ROW_CTXCTL_CHALTED l) j

/-! Queues and tokens of a dispatch. -/

/-- Queue number of HQUEUE that an opcode belongs to (R150); 0 for one that no queue holds. -/
def queueOf (op : Nat) : Nat :=
  if 0x20 ≤ op ∧ op ≤ 0x2A then 1
  else if 0x40 ≤ op ∧ op ≤ 0x54 then 2
  else if 0x90 ≤ op ∧ op ≤ 0x93 then 3
  else if op = 0x80 then 4
  else 0

/-- TOUT of an M- or H-format word whose TS is 1 (R153). -/
def toutOf (op : Nat) (w : BitVec 56) : Option (BitVec 8) :=
  if (queueOf op = 1 ∨ queueOf op = 3) ∧ bit w.toNat 20 then some (BitVec.ofNat 8 (bits w.toNat 19 12)) else none

/-- TIN of an M-, T- or H-format word whose TW is 1 (R153). -/
def tinOf (op : Nat) (w : BitVec 56) : Option Nat :=
  if (queueOf op = 1 ∨ queueOf op = 3 ∨ queueOf op = 4) ∧ bit w.toNat 29 then some (bits w.toNat 28 21) else none

/-- One decrement of a token, with the error a completion carries (R161, R162): the first code stands. -/
def tokDec (c : Ctl) (t : BitVec 8) (err : BitVec 8) : Ctl :=
  let k := getTok c t.toNat
  let k := { k with count := k.count - 1 }
  setTok c t.toNat (if err = 0 then k else if k.err then k else { k with err := true, code := err })

/-- An entry leaves its queue unissued: what its dispatch counted is counted down (R161). -/
def dropEntry (c : Ctl) (e : QEntry) : Ctl :=
  if e.op = 0x09 then tokDec c (BitVec.ofNat 8 (bits e.w.toNat 28 21)) 0
  else match toutOf e.op.toNat e.w with
    | some t => tokDec c t 0
    | none => c

/-- Everything queued is discarded and dispatch stands still. Issued instructions still complete (R192). (Log 19, DEDUCED). -/
def discardQueues (c : Ctl) : Ctl :=
  { (c.qM ++ c.qV ++ c.qH ++ c.qT).foldl dropEntry c with
      qM := [], qV := [], qH := [], qT := [], waiting := false, waited := [], draining := none, vexc := none,
      stopReq := none, yieldReq := false, armed := false, lateHalt := none, passed := false }

/-! PATCHes on their way (R175, R186). -/

/-- The patches of a stream with one more, those of a step in gang index order. -/
def addPatch (ps : List Patch) (p : Patch) : List Patch :=
  let first (q : Patch) : Bool := decide (q.at' < p.at' ∨ (q.at' = p.at' ∧ q.row ≤ p.row))
  ps.takeWhile first ++ p :: ps.dropWhile first

/-- Patches due by step n land in the shadow set, in order. -/
def landPatches (s : State) (l n : Nat) : State :=
  let due := (seqCtl s l).patches.filter fun p => decide (p.at' ≤ n)
  if due.isEmpty then s
  else
    let s := due.foldl (fun s p => setReg s .rowPshadow l p.reg p.val) s
    updSeq s l fun c => { c with
      patches := c.patches.filter fun p => decide (n < p.at')
      landed := due.foldl (fun m p => mset zNat p.reg (stepNow s l + 1) m) c.landed }

/-- Every patch lands: the gang's time goes on while its steps stand still. -/
def landAll (s : State) (l : Nat) : State := (seqCtl s l).patches.foldl (fun s p => landPatches s l p.at') s

/-- Postings that remain when the gang stops are discarded (R183). -/
def dropPostings (s : State) (l : Nat) : State :=
  (gangRows s l).foldl (fun s r => updCtl s (rccOf r) fun c => { c with posted := 0, postAt := [] }) s

/-- The gang halts: queues discarded, ROW_STATUS records code, argument, place, queue and context; the gang, or its
context when others can run, is HALTED (R192, R194). -/
def haltGang (s : State) (l : Nat) (code arg : BitVec 8) (pos : Nat) (queue : Nat) : State :=
  let k := curCtx s l
  let s := dropPostings (updSeq (landAll s l) l discardQueues) l
  let s := putF s F.ROW_STATUS_HCODE l code.toNat
  let s := putF s F.ROW_STATUS_HARG l arg.toNat
  let s := putF s F.ROW_STATUS_HBANK l (activeBank s l)
  let s := putF s F.ROW_STATUS_HADDR l (nativePos s l pos)
  let s := putF s F.ROW_STATUS_HQUEUE l queue
  let s := putF s F.ROW_STATUS_HCTX l k
  let sliced := (List.range 4).any fun j => j != k && bit (getF s F.ROW_CTXCTL_CVALID l) j
  let s := if sliced then putF s F.ROW_CTXCTL_CHALTED l (getF s F.ROW_CTXCTL_CHALTED l ||| 2 ^ k) else s
  setGangState s l (if (otherRunnable s l k).isEmpty then gsHalted else gsSwitching)

/-- A log entry of a skipped instruction (R193). -/
def logSkip (s : State) (l : Nat) (code : BitVec 8) (pos queue : Nat) (tok : Option (BitVec 8)) : State :=
  let j := getF s F.ROW_ILOG_STAT_NEXT l
  let old := reg s .rowIlog l (2 * j + 1)
  let w1 := code.toNat * 2 ^ 56 + queue * 2 ^ 53 + activeBank s l * 2 ^ 52 + nativePos s l pos % 2 ^ 13 * 2 ^ 39
    + (tok.getD 0).toNat * 2 ^ 31 + 1
  let s := setReg s .rowIlog l (2 * j) (reg s .rowStep l 0)
  let s := setReg s .rowIlog l (2 * j + 1) (BitVec.ofNat 64 w1)
  let s := if bit old.toNat 0 then bumpF s F.ROW_ILOG_STAT_LOST l else s
  putF (bumpF s F.ROW_ILOG_STAT_TOTAL l) F.ROW_ILOG_STAT_NEXT l (j + 1)

/-! Steps (R29-R31). -/

/-- During a context switch and a brake ROW_STEP stands still (R30, R352). -/
def frozen (c : Ctl) : Bool :=
  match c.draining with
  | some .switch | some .hold | some .brake => true
  | _ => false

/-- Pod time of a half's timebase. -/
def podTime (s : State) (h : Nat) : W64 := reg s .tbPod h 0

/-- A paced handshake that issues late, by more than a tick of the timebase, begins the schedule anew (R40).
 -/
def paceAnchor (s : State) (l : Nat) : State :=
  let c := seqCtl s l
  let now := (podTime s (rowHalf l)).toNat
  if getF s F.ROW_PACE_PACE_ACTIVE l = 1 ∧ c.paceTgt ≠ 0 ∧
      c.paceT0.toNat + ceilDiv ((rowSteps s l - c.paceN) * 1000) c.paceTgt + 7 < now then
    updSeq s l fun c => { c with paceT0 := BitVec.ofNat 64 now, paceN := rowSteps s l, paceRel := 1 }
  else s

/-- A halt that another row of the gang ordered takes effect once its step has come (R175). -/
def takeLateHalt (s : State) (l : Nat) : State :=
  match (seqCtl s l).lateHalt with
  | some x => if x.at' ≤ stepNow s l then haltGang s l x.code x.arg x.pos x.queue else s
  | none => s

/-- A fact that row r of the gang produces now halts the gang: at once in a small gang or at the leader, 64 steps later
from a follower of a large gang (R175, R192). -/
def haltFrom (s : State) (l r : Nat) (code arg : BitVec 8) (pos queue : Nat) : State :=
  if isLarge s l ∧ r ≠ l then
    updSeq s l fun c => { c with lateHalt := c.lateHalt.orElse fun _ => some ⟨stepNow s l + 64, code, arg, pos, queue⟩ }
  else haltGang s l code arg pos queue

/-- What falls due at the step the gang has reached. -/
def stepEvents (s : State) (l : Nat) : State := takeLateHalt (landPatches s l (stepNow s l)) l

/-- An MSW at the head of the matrix queue waits for its MLW, 128 steps from the start of the load, in the steps after
the one that dispatched it (R94, R113, R115). -/
def mswWaits (s : State) (l : Nat) : Bool :=
  let c := seqCtl s l
  match c.qM with
  | e :: _ => e.op == 0x21 && decide (e.since < stepNow s l) && (tinOf 0x21 e.w).all (fun t => c.waited.contains e.id || (getTok c t).count == 0) &&
      c.arr.mlw.any fun t => decide (stepNow s l < t + 128)
  | [] => false

/-- A step in which an MSW waits for its MLW counts in LOAD_WAIT of every core (R113, R115). -/
def countLoadWait (s : State) (l : Nat) : State :=
  if mswWaits s l then
    (gangCores s l).foldl (fun s p => bumpF s F.CORE_ARRAY_STAT_LOAD_WAIT (slotOf s p.1 p.2)) s
  else s

/-- One step: ROW_STEP advances in every row of the gang (R29-R31). -/
def tick (s : State) (l : Nat) : State :=
  stepEvents ((gangRows s l).foldl (fun s r => setReg s .rowStep r 0 (reg s .rowStep r 0 + 1)) (countLoadWait (paceAnchor s l) l)) l

/-- A step of the gang, which ROW_STEP leaves out during a context switch and a brake (R30, R196, R352). -/
def stepOn (s : State) (l : Nat) : State :=
  if frozen (seqCtl s l) then stepEvents (updSeq s l fun c => { c with lag := c.lag + 1 }) l else tick s l

/-- A bubble: a step that issues nothing, counted where the manual counts it (R29, R94, R113, R179). -/
def bubbleStep (s : State) (l : Nat) (why : BubbleWhy) : State :=
  if frozen (seqCtl s l) then stepOn s l
  else
  match why with
  | .token | .loadRule => tick s l
  | .decision => tick (bumpF s F.ROW_QSTAT_DECIDE_WAIT l) l
  | .queueFull => tick (bumpF s F.ROW_QSTAT_QFULL_STALL l) l

/-- An instruction of a core stream is refused (R190): a small gang skips it in one step and logs it, a signalling
queue instruction completing at once with the code as its error; a large gang halts. The program counter is the
caller's. -/
def refuseSeq (s : State) (l : Nat) (code : BitVec 8) (pos queue : Nat) (tok : Option (BitVec 8)) : State :=
  if isLarge s l then haltGang s l code 0 pos queue
  else
    let s := logSkip s l code pos queue tok
    stepOn (match tok with
      | none => s
      | some t => updSeq s l fun c => tokDec c t code) l

/-- An instruction of any stream is refused. A row control core stops and its gang halts (R171, R192). A node core
reports the code and goes no further (R171). -/
def refuse (s : State) (u : Proc) (code : BitVec 8) (pos : Nat) : State :=
  match u with
  | .seq l => refuseSeq s l.toNat code pos 0 none
  | .rcc r =>
    let s := updCtl s u fun c => { c with halted := true }
    haltFrom s (rowLeader s r.toNat) r.toNat code 0 pos 5
  | .node .. => answer s (.code code)

/-! Who may execute now. -/

/-- Does the pacing timer let the next handshake issue (R40)? -/
def paceOpen (s : State) (l : Nat) : Bool :=
  getF s F.ROW_PACE_PACE_ACTIVE l == 0 ||
    decide (rowSteps s l < (seqCtl s l).paceN + (seqCtl s l).paceRel)

/-- Leaders a running solver descriptor of half h holds (R223). -/
def solverGangs (s : State) (h : Nat) : List Nat :=
  match (half s h).solv with
  | some r =>
    if r.done.isSome then []
    else
      let g := bits ((r.words.getD 1 0).toNat) 25 20
      if bit ((r.words.getD 0 0).toNat) 52 then [g, (g + 32) % 64] else [g]
  | none => []

/-- Is row r lent to a solver engine? (Log 66, DEDUCED). -/
def lent (s : State) (r : Nat) : Bool :=
  (solverGangs s 0).contains (rowLeader s r) || (solverGangs s 1).contains (rowLeader s r)

/-- The leader's sequencer can issue a handshake: it leads its gang, the gang runs, for its own program and not for a solver
engine (R223), and pacing allows it. -/
def seqLive (s : State) (l : Nat) : Bool :=
  rowLeader s l == l && gangState s l == gsRunning && !lent s l && paceOpen s l

/-- It can dispatch the next instruction: dispatch has not stopped and no vector exception is open (R132, R189). -/
def canDispatch (s : State) (l : Nat) : Bool :=
  let c := seqCtl s l
  seqLive s l && c.draining.isNone && c.vexc.isNone

/-- Firmware runs on the node cores of half h: the half is LOADED, RUNNING, DRAINING or in SERVICE (R21). -/
def nodeLive (s : State) (h : Nat) : Bool := 2 ≤ getF s F.DEV_HALF_STATE 0 h && getF s F.DEV_HALF_FATAL 0 h == 0

/-- A stream can execute its next instruction. A row control core runs while its gang runs, once it is done holding
its last instruction (R180). -/
def canExec (s : State) (u : Proc) : Bool :=
  match u with
  | .seq l => canDispatch s l.toNat && !(getCtl s u).waiting
  | .rcc r =>
    let c := getCtl s u
    gangState s (rowLeader s r.toNat) == gsRunning && !lent s r.toNat && !c.halted && decide (c.busy ≤ stepNow s r.toNat)
  | .node h _ => nodeLive s h.toNat && !(getCtl s u).halted

/-- ROW_STEP as a stream sees it; node cores are untimed. -/
def procStep (s : State) (u : Proc) : Nat :=
  match u with
  | .seq l => stepNow s l.toNat
  | .rcc r => stepNow s r.toNat
  | .node .. => 0

/-- The time an executed instruction takes: one step of the gang for a core stream (R167), n held steps for a row
control core (R180), none for a node core. -/
def spend (s : State) (u : Proc) (n : Nat) : State :=
  match u with
  | .seq l => tick s l.toNat
  | .rcc r => updCtl s u fun c => { c with busy := stepNow s r.toNat + n }
  | .node .. => s

def setPc (s : State) (u : Proc) (p : Nat) : State := updCtl s u fun c => { c with pc := p }

/-- The instruction is done: the next word follows, and its time is spent. -/
def retire (s : State) (u : Proc) (n : Nat) : State :=
  spend (updCtl s u fun c => { c with pc := c.pc + 1 }) u n

/-- A refused instruction of a stream: a skipping sequencer goes to the next word (R191). (Log 15, DEDUCED). -/
def refuseNext (s : State) (u : Proc) (code : BitVec 8) : State :=
  let p := (getCtl s u).pc
  let s' := refuse s u code p
  match u with
  | .seq l => if isLarge s l.toNat then s' else setPc s' u (p + 1)
  | _ => s'

/-! Saving and time (shared by Context and Ckpt). -/

/-- Parameter registers of the gang a stream belongs to (R148): the active set. Node cores have no set of their own
and read 0. (Log 49, DEDUCED). -/
def preg (s : State) (u : Proc) (n : Nat) : W64 :=
  if n < 64 then
    match u with
    | .seq l => reg s .rowPactive l.toNat n
    | .rcc r => reg s .rowPactive (rowLeader s r.toNat) n
    | .node .. => 0
  else 0

/-! Queues and tokens. -/

def queueGet (c : Ctl) : Nat → List QEntry
  | 1 => c.qM
  | 2 => c.qV
  | 3 => c.qH
  | 4 => c.qT
  | _ => []

def queueSet (c : Ctl) (q : Nat) (l : List QEntry) : Ctl :=
  match q with
  | 1 => { c with qM := l }
  | 2 => { c with qV := l }
  | 3 => { c with qH := l }
  | 4 => { c with qT := l }
  | _ => c

/-- Each queue holds 512 commands (R178). A command keeps its place until it is complete: only so do four queues of 512
bound a token's counter at 2,048 (R161). (Log 142, DEDUCED). -/
def queueFull (c : Ctl) (q : Nat) : Bool :=
  512 ≤ (queueGet c q).length + (c.flights.filter fun f => f.q == q).length

def pushEntry (c : Ctl) (q : Nat) (e : QEntry) : Ctl :=
  { queueSet c q (queueGet c q ++ [e]) with nextId := c.nextId + 1 }

def popEntry (c : Ctl) (q : Nat) : Ctl :=
  let c' := queueSet c q (queueGet c q).tail
  { c' with waited := c.waited.filter fun i => some i != ((queueGet c q).head?.map fun e => e.id) }

/-- Steps from the last completion report to the token decrement (R179); a row control core's and a node core's own
hoists have no gang to wait for. -/
def decDelay (s : State) (u : Proc) : Nat :=
  match u with
  | .seq l => if isLarge s l.toNat then 64 else 2
  | _ => 0

/-- A fresh flight of an issued instruction. -/
def flightOf (e : QEntry) (q due : Nat) (err : BitVec 8) (waitOn : Nat) : Flight :=
  { id := e.id, q := q, op := e.op, tok := toutOf e.op.toNat e.w, due := due, err := err, got := [], reported := false,
    decAt := 0, waitOn := waitOn }

/-- A gang halts on a token fault: a non-tolerant waiter found the counter 0 and the error bit set (R162). -/
def tokenFault (s : State) (u : Proc) (t pos q : Nat) : State :=
  match u with
  | .seq l => haltGang s l.toNat rcTokenFault (BitVec.ofNat 8 t) pos q
  | .rcc r =>
    let s := updCtl s u fun c => { c with halted := true }
    haltFrom s (rowLeader s r.toNat) r.toNat rcTokenFault (BitVec.ofNat 8 t) pos 5
  | .node .. => answer (updCtl s u fun c => { discardQueues c with halted := true }) (.code rcTokenFault)

/-- Lowest queue, the sequencer first, that a QM field names (R162). -/
def lowestQueue (qm : Nat) : Nat := ((List.range 5).find? fun i => bit qm i).getD 0

/-- A SIG.T in flight is complete when every earlier instruction of its queue is (R161). -/
def sigReady (c : Ctl) (f : Flight) : Bool :=
  c.flights.all fun g => !(g.q == f.q && decide (g.id < f.id) && !g.reported)

/-- Marks the SIG.Ts that are now complete. -/
def reportSigs (s : State) (u : Proc) : State :=
  let c := getCtl s u
  let due := procStep s u + decDelay s u
  setCtl s u { c with flights := c.flights.map fun f =>
    if f.op = 0x09 ∧ !f.reported ∧ sigReady c f then { f with reported := true, decAt := due } else f }

/-- Resolves what can go at the head of queue q (R161, R162): a WAIT.T, a SIG.T, or the wait of an instruction on its
TIN, which ends for good once the counter is 0. (Log 21, DEDUCED). -/
def settleHead (s : State) (u : Proc) (q : Nat) : Option State :=
  let c := getCtl s u
  match queueGet c q with
  | [] => none
  | e :: _ =>
    if e.op = 0x08 then
      let t := bits e.w.toNat 28 21
      let qm := bits e.w.toNat 55 51
      let tol := bit e.w.toNat 50
      let k := getTok c t
      if k.count ≠ 0 then none
      else if k.err ∧ !tol then some (tokenFault s u t e.pos q)
      else
        let c := popEntry c q
        let c := if tol ∧ lowestQueue qm = q then setTok c t { k with err := false, code := 0 } else c
        some (setCtl s u c)
    else if e.op = 0x09 then
      let f : Flight :=
        ⟨e.id, q, e.op, some (BitVec.ofNat 8 (bits e.w.toNat 28 21)), 0, 0, [], false, 0, 0⟩
      let c := popEntry c q
      some (reportSigs (setCtl s u { c with flights := c.flights ++ [f] }) u)
    else match tinOf e.op.toNat e.w with
      | none => none
      | some t =>
        let k := getTok c t
        if c.waited.contains e.id || k.count != 0 then none
        else if k.err then some (tokenFault s u t e.pos q)
        else some (setCtl s u { c with waited := e.id :: c.waited })

/-- Resolves waits and signals at the heads of the four queues until none can go. -/
def settle : Nat → State → Proc → State
  | 0, s, _ => s
  | n + 1, s, u =>
    match [1, 2, 3, 4].findSome? (settleHead s u) with
    | some s' => settle n s' u
    | none => s

/-- All queues empty and nothing in flight (R189, R196). -/
def drained (c : Ctl) : Bool :=
  c.qM.isEmpty && c.qV.isEmpty && c.qH.isEmpty && c.qT.isEmpty && c.flights.isEmpty

def settleAll (s : State) (u : Proc) : State :=
  let c := getCtl s u
  settle (c.qM.length + c.qV.length + c.qH.length + c.qT.length + 4) s u

/-- The reasons why the head of a queue cannot issue yet. -/
inductive Head where
  | none
  | wait
  | fault (t : Nat)
  | ready (e : QEntry)
deriving DecidableEq, Repr

/-- The entry of opcode `op` at the head of queue q, its TIN respected (R161, R162). Issue stops while a vector
exception is open (R132). -/
def headOf (s : State) (u : Proc) (q op : Nat) : Head :=
  let c := getCtl s u
  match queueGet c q with
  | [] => .none
  | e :: _ =>
    if e.op.toNat ≠ op ∨ c.vexc.isSome then .none
    else match tinOf op e.w with
      | none => .ready e
      | some t =>
        let k := getTok c t
        if c.waited.contains e.id then .ready e
        else if k.count ≠ 0 then .wait else if k.err then .fault t else .ready e

/-- Issue runs for a stream whose gang is running, draining included (R189), or whose node core lives. (Log 48, DEDUCED). -/
def issueLive (s : State) (u : Proc) : Bool :=
  match u with
  | .seq l => rowLeader s l.toNat == l.toNat && gangState s l.toNat == gsRunning && !lent s l.toNat
  | .rcc r => gangState s (rowLeader s r.toNat) == gsRunning && !lent s r.toNat
  | .node h _ => nodeLive s h.toNat

/-- A queue instruction refused at issue (R190, R191). -/
def refuseEntry (s : State) (u : Proc) (e : QEntry) (q : Nat) (code : BitVec 8) : State :=
  match u with
  | .seq l => refuseSeq s l.toNat code e.pos q (toutOf e.op.toNat e.w)
  | .rcc r =>
    let s := updCtl s u fun c => { c with halted := true }
    haltFrom s (rowLeader s r.toNat) r.toNat code 0 e.pos 5
  | .node .. =>
    let s := match toutOf e.op.toNat e.w with
      | some t => updCtl s u fun c => tokDec c t code
      | none => s
    answer s (.code code)

/-- An issued entry joins the flights. (Log 42, DEDUCED). -/
def launch (s : State) (u : Proc) (e : QEntry) (q due : Nat) (err : BitVec 8) (waitOn : Nat) : State :=
  updCtl s u fun c => { c with flights := c.flights ++ [flightOf e q due err waitOn] }

/-- One answer for a flight: its count of outstanding requests falls and the first error code stands. -/
def flightAnswer (c : Ctl) (id : Nat) (err : BitVec 8) : Ctl :=
  { c with flights := c.flights.map fun f =>
      if f.id = id then { f with waitOn := f.waitOn - 1, err := if f.err = 0 then err else f.err } else f }

end Sys2Proof.Machine
end

