-- ==== Sys2Proof/Machine/Track.lean ====
section
/-! DEFINITION. Where an HBM address lies (R246-R248), the write tracker and its stash (R360), and ranges of HBM whose contents
become undefined. -/

namespace Sys2Proof.Machine

/-! Where an address lies. -/

/-- First address above HBM (R17). -/
def hbmEnd : Nat := 0x40000000000
def addrHalf (a : Nat) : Nat := a / 2 ^ 41

/-- A channel stands in its window's list: neither OUT nor TRAINING (R247). -/
def chListed (s : State) (ch : Nat) : Bool := getF s F.HBM_CHST_STATE ch < 2

/-- Entry k of the list of a window with S stacks from `first` (R247): channel and pseudo-channel. -/
def pickEntry (s : State) (first ns : Nat) : Nat → Nat → Nat → Option (Nat × Nat)
  | 0, _, _ => none
  | n + 1, j, k =>
    let ch := 32 * (first + j % ns) + j / (2 * ns)
    if !chListed s ch then pickEntry s first ns n (j + 1) k
    else if k = 0 then some (ch, j / ns % 2)
    else pickEntry s first ns n (j + 1) (k - 1)

/-- A window of half h (R246): base, first stack, stacks, length. -/
structure Window where
  base : Nat
  first : Nat
  nst : Nat
  len : Nat
deriving DecidableEq, Repr

def windowOf (s : State) (a : Nat) : Window :=
  let h := addrHalf a
  if getF s F.HBM_MAPCFG_MODE h = 0 then
    let d := a / 2 ^ 39
    ⟨d * 2 ^ 39, 4 * d, 4, getF s F.HBM_WINLEN_LENGTH h (d % 4)⟩
  else ⟨h * 2 ^ 41, 16 * h, 16, getF s F.HBM_WINLEN_LENGTH h 0⟩

/-- Bytes of a pseudo-channel below its reserve: C of R248. -/
def pcBytes (s : State) (h : Nat) : Nat := 2 ^ 31 - getF s F.HBM_MAPCFG_RESV h * 2 ^ 20

def granule (s : State) (h : Nat) : Nat := 256 * 4 ^ getF s F.HBM_MAPCFG_GRAN h

/-- Channel, pseudo-channel and offset of an HBM address (R248); none in a hole. -/
def hbmWhere (s : State) (a : Nat) : Option (Nat × Nat × Nat) :=
  if hbmEnd ≤ a then none
  else
    let h := addrHalf a
    let w := windowOf s a
    let o := a - w.base
    if w.len ≤ o then none
    else
      let g := granule s h
      let n := w.len / pcBytes s h
      match pickEntry s w.first w.nst (64 * w.nst) 0 (o / g % n) with
      | some (ch, pc) => some (ch, pc, o / g / n * g + o % g)
      | none => none

/-! The write tracker (R360). -/

def pageOf (a : Nat) : Nat := a / 65536

/-- The slice of its page that an address lies in: 32 × page + stack. -/
def sliceOf (s : State) (a : Nat) : Nat :=
  32 * pageOf a + (match hbmWhere s a with
    | some (ch, _, _) => ch / 32
    | none => 0)

def tracked (c : CkpSt) (a : Nat) : Bool := c.spans.any fun p => decide (p.1 ≤ a) && decide (a < p.1 + p.2)

/-- Does a write to the address wait for its slice to be stashed? -/
def trackerHolds (s : State) (a : Nat) : Bool :=
  let c := (half s (addrHalf a)).ckp
  c.armed && tracked c a && !c.copied.contains (pageOf a) && !c.stashed.contains (sliceOf s a)

/-- Slices in a base die's 8 MiB stash that the copy has not drained. -/
def stashFull (s : State) (a : Nat) : Bool :=
  let c := (half s (addrHalf a)).ckp
  let k := sliceOf s a % 32
  let n := (c.stashed.filter fun q => q % 32 == k && !c.copied.contains (q / 32)).length
  decide (2 ^ 23 < (n + 1) * (65536 / (windowOf s a).nst))

/-- The 64-byte lines of n bytes at an address. -/
def linesOf (a n : Nat) : List Nat := rangeFrom (a / 64) (if n = 0 then 0 else (a + n - 1) / 64 - a / 64 + 1)

/-- Lines of a page that lie in stack k (R360). -/
def sliceLines (s : State) (page k : Nat) : List Nat :=
  ((List.range 1024).map fun i => 65536 * page + 64 * i).filter fun a =>
    (hbmWhere s a).any fun t => t.1 / 32 == k

/-- The slice is read into the stash and counts as marked. -/
def stashSlice (s : State) (h key : Nat) : State :=
  let ls := sliceLines s (key / 32) (key % 32)
  let bytes := ls.flatMap fun a => (List.range 64).map fun i => (a + i, hbmByte s (a + i))
  updHalf s h fun x => { x with ckp := { x.ckp with
    stashed := x.ckp.stashed ++ [key], stash := bytes.foldl (fun m e => mput e.1 e.2 m) x.ckp.stash } }

/-- A write of the part's own at an address whose slice an armed tracker has not stashed waits while the slice is stashed
(R360). -/
def stashFor (s : State) (a : Nat) : State :=
  if trackerHolds s a then
    let s := bumpF s F.CKP_TRK_HOLDS (addrHalf a)
    let s := if stashFull s a then bumpF s F.CKP_TRK_HOLD_FULL (addrHalf a) else s
    stashSlice s (addrHalf a) (sliceOf s a)
  else s

/-- n bytes from a become undefined: none stays listed, and an unlisted one reads the free value of this event. What an armed
tracker has not stashed is stashed first (R360). -/
def smear (s : State) (a n : Nat) : State :=
  let s := if (half s (addrHalf a)).ckp.armed then (linesOf a n).foldl (fun s l => stashFor s (64 * l)) s else s
  { s with
    hbm := mdrop (fun k => decide (a ≤ k) && decide (k < a + n)) s.hbm
    smears := (a, n, s.free) :: s.smears.filter fun x => !(decide (a ≤ x.1) && decide (x.1 + x.2.1 ≤ a + n))
    free := s.free + 1 }

end Sys2Proof.Machine
end

