-- ==== Sys2Proof/Machine/Context.lean ====
section
/-! DEFINITION. Contexts (R194-R198) and replay boundaries (R184-R188): saving, restoring, switching, stopping. -/

namespace Sys2Proof.Machine

/-! Stochastic-rounding generators (R75). -/

def genStep : W64 := 0x9E3779B97F4A7C15

/-- State of generator e (0 vector, 1 tailrace) at context creation, by job seed, global row and logical column. -/
def genSeed (seed : BitVec 32) (e r c : Nat) : W64 :=
  BitVec.ofNat 64 (seed.toNat * 2 ^ 32 + e * 2 ^ 16 + r * 2 ^ 8 + c)

/-- One call of next(): the new state and the word returned. -/
def genNext (st : W64) : W64 × W64 :=
  let st := st + genStep
  let z := (st ^^^ (st >>> 30)) * 0xBF58476D1CE4E5B9
  let z := (z ^^^ (z >>> 27)) * 0x94D049BB133111EB
  (st, z ^^^ (z >>> 31))

/-! The save set of a context (R197). -/

/-- Row block offsets that belong to the running context: ROW_QSTAT, ROW_MARK, ROW_STEP, parameter registers, gather
buffer, summary slots, control core SRAM. -/
def ctxOffset (o : Nat) : Bool :=
  o == 0x28 || o == 0x30 || o == 0x100 || (decide (0x200 ≤ o) && decide (o < 0x600)) ||
    (decide (0x800 ≤ o) && decide (o < 0xA80)) || decide (0x40000 ≤ o)

/-- A row's saved words, by offset: the context's registers and the active bank at offset 0x10000. -/
def saveRow (s : State) (r : Nat) : Map W64 :=
  let w := mslice (blockBase .row r) (blockBase .row r + 0x80000) s.mg
  let b := mslice (blockBase .row r + 0x10000 * (1 + activeBank s r)) (blockBase .row r + 0x10000 * (2 + activeBank s r))
    s.mg
  mreplace 0x10000 0x20000 b (mdrop (fun o => !ctxOffset o) w)

/-- Zeroes a row's context words and loads saved ones. -/
def loadRow (s : State) (r : Nat) (m : Map W64) : State :=
  let b := blockBase .row r
  let bank := b + 0x10000 * (1 + activeBank s r)
  let mg := mdrop (fun a => decide (b ≤ a) && decide (a < b + 0x80000) && ctxOffset (a - b)) s.mg
  let mg := mreplaceD mgDefault bank (bank + 0x10000) (mslice 0x10000 0x20000 m) mg
  { s with mg := (m.filter fun e => ctxOffset e.1).foldl (fun g e => mset mgDefault (b + e.1) e.2 g) mg }

/-- The items of a core that context k of leader l saves; the generators carry their value. `full`: everything. A weight
plane left out of the save set comes back as one that nothing has loaded (R96). (Log 161, DESIGN CHOICE). -/
def saveCore (s : State) (l k r c : Nat) (full : Bool) : CoreSt :=
  let x := getCore s (slotOf s r c)
  let w := (reg s .rowCtxW1 l k).toNat
  let vs := bits w 63 32
  let keep (i : Nat) : Bool := full || bit w i
  let seed := (seqCtl s l).seed
  { v := if full then x.v else mdrop (fun a => !bit vs (a / 8192)) x.v
    m := if keep 20 then x.m else []
    tile := if full then x.tile else mdrop (fun a => decide (bits w 31 21 * 1024 ≤ a)) x.tile
    active := if keep 18 then x.active else planeZero
    shadow := if keep 18 then x.shadow else planeZero
    acc := if keep 19 then x.acc else []
    accOver := if keep 19 then x.accOver else []
    genV := some (x.genV.getD (genSeed seed 0 r c))
    genT := some (x.genT.getD (genSeed seed 1 r c))
    msl := x.msl
    tabA := x.tabA
    tabB := x.tabB
    hop := x.hop }

/-- Bytes of a row's part of a save area and of a column's part of that; the row's own state takes the last 1 MiB
(R197). -/
def rowArea : Nat := 97 * 2 ^ 20
def colArea : Nat := 3 * 2 ^ 19

/-- HBM address of a context's save area (R197). -/
def saveBase (s : State) (l k : Nat) : Nat := getF s F.ROW_CTX_W0_SAVE_BASE l k * 65536

/-- Start and end of part j of a save area at b: column c of row i has j = 65 i + c, the row's own state 65 i + 64. -/
def savePart (b j : Nat) : Nat × Nat :=
  let a := b + rowArea * (j / 65) + colArea * (j % 65)
  (a, if j % 65 = 64 then a + 2 ^ 20 else a + colArea)

/-- Saved contexts whose areas meet n bytes written at b lose the parts they touch (R197). -/
def overwriteSaves (s : State) (b n : Nat) : State :=
  { s with saves := s.saves.map fun e => (e.1, { e.2 with
      lost := ((List.range (65 * e.2.gens.length)).filter fun j =>
        e.2.lost.contains j || (decide ((savePart e.2.base j).1 < b + n) && decide (b < (savePart e.2.base j).2))) }) }

/-- The parts of a saved context that no longer hold what was saved: all of them where SAVE_BASE has changed, those
written over, and those in which HBM has been written, or has become undefined, since. -/
def lostParts (s : State) (l k : Nat) (x : Saved) : List Nat :=
  let since := s.smears.takeWhile fun e => e.1 != x.base || e.2.1 != x.gens.length * rowArea
  (List.range (65 * x.gens.length)).filter fun j =>
    let (a, b) := savePart x.base j
    saveBase s l k != x.base || x.lost.contains j || (s.hbm.any fun e => decide (a ≤ e.1) && decide (e.1 < b)) ||
      since.any fun e => decide (e.1 < b) && decide (a < e.1 + e.2.1)

/-- The 97 MiB save areas of a context hold bytes the manual does not lay out. -/
def smearArea (s : State) (l k : Nat) : State := smear s (saveBase s l k) ((gangRows s l).length * rowArea)

/-- The resident context of leader l as its save area would hold it (R197; `full` for a brake's cut, R352). -/
def savedOf (s : State) (l : Nat) (full : Bool) : Saved :=
  let k := curCtx s l
  let rows := (gangRows s l).zipIdx
  let places := rows.flatMap fun (r, i) => (List.range 64).map fun c => (r, c, 64 * i + c)
  { seq := seqCtl s l
    rccs := rows.map fun (r, _) => getCtl s (rccOf r)
    rows := rows.foldl (fun m (r, i) => (saveRow s r).foldl (fun m e => mput (0x80000 * i + e.1) e.2 m) m) []
    cores := places.foldl (fun m (r, c, j) => mput j (saveCore s l k r c full) m) []
    regs := places.foldl (fun m (r, c, j) =>
      let p := slotOf s r c
      mput j (reg s .coreArith p 0, reg s .coreArrayStat p 0, reg s .coreVtrap p 0) m) []
    prog := mfind (progKey (seqOf l) (activeBank s l)) s.progs
    gens := rows.map fun (r, _) => if activeBank s r = 0 then getF s F.ROW_IMCTL_GEN0 r else getF s F.ROW_IMCTL_GEN1 r
    base := saveBase s l k, lost := [] }

/-! Storage that holds no defined values (R197, R223, R412): free bytes by use and offset. -/

/-- Canonical store of n free bytes. -/
def scratchMap (use n : Nat) : Map Byte :=
  (List.range n).filterMap fun i => if Config.scratch use i = 0 then none else some (i, Config.scratch use i)

/-- A free number of w bytes from offset a. -/
def scratchNat (use w a : Nat) : Nat := ofBytes ((List.range w).map fun j => Config.scratch use (a + j))

/-- Canonical store of n free numbers of w bytes. -/
def scratchNats (use w n : Nat) : Map Nat :=
  (List.range n).filterMap fun i => if scratchNat use w (w * i) = 0 then none else some (i, scratchNat use w (w * i))

def scratchPlane (use : Nat) : Plane :=
  let b (i : Nat) : Nat := (Config.scratch use i).toNat
  { loaded := bit (b 0) 0, fc := b 1 % 16, kv := b 2 % 128, nv := b 3 % 128, cb2 := bit (b 0) 1,
    scd := Config.scratch use 4, w := scratchNats (use + 1) 2 16384, sc := scratchNats (use + 2) 1 16384 }

def scratchTable (use : Nat) : UserTable :=
  let b : Nat := (Config.scratch use 0).toNat
  { coef := scratchNats (use + 1) 4 1024, lo := scratchNat use 4 4, log2w := sext 8 (scratchNat use 1 1),
    below := bit b 0, above := bit b 1, belowC := scratchNat use 4 8, aboveC := scratchNat use 4 12 }

/-- A core that holds no defined values. -/
def scratchCore (use : Nat) : CoreSt :=
  { v := scratchMap use (32 * 8192), m := scratchNats (use + 1) 1024 8, tile := scratchMap (use + 2) (2 ^ 20)
    active := scratchPlane (use + 3), shadow := scratchPlane (use + 6), acc := scratchNats (use + 9) 4 16384
    genV := some (w64 (scratchNat (use + 10) 8 0)), genT := some (w64 (scratchNat (use + 10) 8 8))
    msl := (scratchNats (use + 11) 2 384).map fun e => (e.1, (e.2 : Int))
    tabA := scratchTable (use + 12), tabB := scratchTable (use + 14), accOver := []
    hop := (List.range 64).map fun i => (0, (List.range 128).map fun k => scratchNat (use + 15) 2 (8192 + 2 * (128 * i + k))) }

/-- A stream whose saved state is gone: free registers, no open loop, a free address. -/
def scratchCtl (use : Nat) : Ctl :=
  { ctlZero with s := (scratchNats use 8 32).map fun e => (e.1, BitVec.ofNat 64 e.2), pc := scratchNat (use + 1) 4 0 }

/-- Free words of a row's saved state: the registers and the SRAM of its context. -/
def scratchRow (use : Nat) : Map W64 :=
  ((rangeFrom 64 128).flatMap fun i => [(8 * i, i)]).map (fun e => (e.1, BitVec.ofNat 64 (scratchNat use 8 (8 * e.2)))) ++
    (List.range 32768).map fun i => (0x40000 + 8 * i, BitVec.ofNat 64 (scratchNat (use + 1) 8 (8 * i)))

/-- A saved context whose lost parts hold nothing defined; the loss of a row's own state takes the program of that row's
bank with it. (Log 105, DESIGN CHOICE; 143, DESIGN CHOICE). -/
def scrambleSaved (use : Nat) (x : Saved) (lost : List Nat) : Saved :=
  lost.foldl (fun x j =>
    let i := j / 65
    if j % 65 = 64 then
      { x with
        seq := if i = 0 then { scratchCtl (use + 32 * j) with seed := x.seq.seed } else x.seq
        rccs := x.rccs.set i (scratchCtl (use + 32 * j + 2))
        rows := mreplace (0x80000 * i) (0x80000 * (i + 1)) (scratchRow (use + 32 * j + 4)) x.rows
        prog := if i = 0 then none else x.prog }
    else
      let key := 64 * i + j % 65
      { x with
        cores := mput key (scratchCore (use + 32 * j)) x.cores
        regs := mput key (w64 (scratchNat (use + 32 * j + 16) 8 0) &&& 0xFFFF0000007F,
          w64 (scratchNat (use + 32 * j + 16) 8 8), w64 (scratchNat (use + 32 * j + 16) 8 16) &&& 0x7) x.regs }) x

/-- A context just created (R148, R195): nothing but its seed. -/
def savedNew (seed : BitVec 32) : Saved :=
  { seq := { ctlZero with seed := seed }, rccs := [], rows := [], cores := [], regs := [], prog := none, gens := [], base := 0, lost := [] }

def getSaved (s : State) (l k : Nat) : Saved := (mfind (4 * l + k) s.saves).getD (savedNew 0)
def putSaved (s : State) (l k : Nat) (x : Saved) : State := { s with saves := mput (4 * l + k) x s.saves }

/-- The saved context k of leader l as its area now holds it (R197). -/
def fetchSaved (s : State) (l k : Nat) : State × Saved :=
  let x := getSaved s l k
  let lost := lostParts s l k x
  if lost.isEmpty then (s, x)
  else ({ s with free := s.free + 1 }, scrambleSaved (2 ^ 24 * s.free) x lost)

/-- Makes a saved context the resident one of leader l: what it did not save is zero (R196). -/
def loadSaved (s : State) (l k : Nat) (x : Saved) : State :=
  let rows := (gangRows s l).zipIdx
  let s := setSeq s l x.seq
  let s := rows.foldl (fun s (r, i) => setCtl s (rccOf r) (x.rccs.getD i ctlZero)) s
  let s := rows.foldl (fun s (r, i) => loadRow s r (mslice (0x80000 * i) (0x80000 * (i + 1)) x.rows)) s
  let s := rows.foldl (fun s (r, i) =>
    putF s (if activeBank s r = 0 then F.ROW_IMCTL_GEN0 else F.ROW_IMCTL_GEN1) r (x.gens.getD i 0)) s
  let s := rows.foldl (fun s (r, i) => (List.range 64).foldl (fun s c =>
    let p := slotOf s r c
    let g := mget (fun _ => ((0 : W64), (0 : W64), (0 : W64))) (64 * i + c) x.regs
    let s := setCore s p (mget (fun _ => coreZero) (64 * i + c) x.cores)
    let s := setReg s .coreArith p 0 g.1
    setReg (setReg s .coreArrayStat p 0 g.2.1) .coreVtrap p 0 g.2.2) s) s
  let key := progKey (seqOf l) (activeBank s l)
  let s := { s with progs := match x.prog with
    | some p => mput key p s.progs
    | none => mdrop (· == key) s.progs }
  putF s F.ROW_STATUS_CTX l k

/-- The resident context is written to its save area (R197; `full` for all that a cut holds). (Log 58, DEDUCED). -/
def saveAs (s : State) (l : Nat) (full : Bool) : State :=
  let x := savedOf s l full
  smearArea (putSaved (overwriteSaves s x.base (x.gens.length * rowArea)) l (curCtx s l) x) l (curCtx s l)

/-- What a switch or a STOP with SAVE writes (R189, R196). -/
def saveResident (s : State) (l : Nat) : State := saveAs s l false

/-! Replay boundaries. -/

/-- Slowest-corner rates of OP-1 to OP-6 in M steps/s (R32, R33). -/
def slowRates : List Nat := [498, 725, 816, 907, 1070, 1179]

/-- The lowest operating point whose slowest-corner rate is at least the target (R42). -/
def pacePoint (target : Nat) : Option Nat := (slowRates.findIdx? fun r => decide (target ≤ r)).map (· + 1)

/-- PACE_OP of a row: the point of R42 in paced mode, 0 in free mode; a paced row is placed there. -/
def placePaced (s : State) (r : Nat) : State :=
  if getF s F.ROW_PACE_PACE_EN r = 0 then putF s F.ROW_PACE_PACE_OP r 0
  else
    let op := (pacePoint (getF s F.ROW_PACE_PACE_TARGET r)).getD 0
    putF (putF s F.ROW_PACE_PACE_OP r op) F.ROW_FANTAIL_CUR_OP r op

/-- The schedule begins anew: T0 is the present pod time and handshake 0 is free (R40). -/
def restartPace (s : State) (l : Nat) : State :=
  updSeq s l fun c => { c with paceT0 := podTime s (rowHalf l), paceN := rowSteps s l, paceRel := 1 }

/-- Pacing starts, or ends, for a gang: the mode and target of its registers come into force (R40, R45). -/
def startPace (s : State) (l : Nat) : State :=
  let on := getF s F.ROW_PACE_PACE_EN l
  let s := (gangRows s l).foldl (fun s r => putF (placePaced s r) F.ROW_PACE_PACE_ACTIVE r on) s
  restartPace (updSeq s l fun c => { c with
    paceNew := false, paceTgt := if on = 1 then getF s F.ROW_PACE_PACE_TARGET l else 0 }) l

/-- All 64 shadow parameter registers are copied into the active set (R185). -/
def copyParams (s : State) (l : Nat) : State :=
  let b := blockBase .row l
  { s with mg := mreplaceD mgDefault (b + 0x400) (b + 0x600) (mslice (b + 0x200) (b + 0x400) s.mg) s.mg }

/-- An armed idle bank for the current context becomes active: the open loops end and the program starts at its entry
(R188). -/
def exchangeBank (s : State) (l : Nat) : State :=
  if getF s F.ROW_IMCTL_ARMED l = 1 ∧ getF s F.ROW_IMCTL_ACTX l = curCtx s l then
    let s := putF s F.ROW_IMCTL_ACTIVE l (1 - activeBank s l)
    let s := putF (putF s F.ROW_IMCTL_ARMED l 0) F.ROW_IMCTL_SWITCHED l 1
    let p := progOf s (seqOf l)
    updSeq s l fun c => { c with loops := [], pc := p.entry }
  else s

/-- The acts of a replay boundary (R184, R185, R188, R45): parameters, bank exchange, pacing; the watchdog starts anew.
`resume` is the first step after GO, CONT or a switch, at which pacing always restarts (R195).
(Log 59, DEDUCED; 60, DEDUCED). -/
def boundary (s : State) (l : Nat) (resume : Bool) : State :=
  let s := exchangeBank (copyParams (landPatches s l (stepNow s l)) l) l
  let s := if resume || (seqCtl s l).paceNew then startPace s l else s
  updSeq s l fun c => { c with boundary := rowSteps s l, slices := if resume then 0 else c.slices + 1 }

/-- Is a time-slice switch due at the boundary the context has reached (R194)? -/
def switchDue (s : State) (l : Nat) : Bool :=
  let c := seqCtl s l
  let k := curCtx s l
  let n := getF s F.ROW_CTX_W1_SLICE l k
  (c.yieldReq || (n != 0 && decide (n ≤ c.slices + 1))) && !(otherRunnable s l k).isEmpty

/-- A LOOP.R iteration entry: a requested stop or a due switch stops dispatch there; otherwise the boundary's acts
(R165, R189, R194). A YIELD with no other runnable context has no further effect. -/
def loopBoundary (s : State) (l : Nat) : State :=
  let c := seqCtl s l
  match c.stopReq with
  | some save => updSeq s l fun c => { c with stopReq := none, draining := some (.stop save) }
  | none =>
    if switchDue s l then updSeq s l fun c => { c with yieldReq := false, draining := some .switch }
    else boundary (updSeq s l fun c => { c with yieldReq := false }) l false

/-- Everything issued has ended: the engines stand idle, and the steps ROW_STEP left out are over. -/
def thaw (s : State) (l : Nat) : State :=
  let g := (seqCtl s l).lag
  let s := updSeq s l fun c => { c with lag := 0, arr := arrZero, vfl := [],
                                        fills := c.fills.map fun x => (x.1, x.2.1, x.2.2.1, x.2.2.2 - g),
                                        patches := c.patches.map fun x => { x with at' := x.at' - g }, landed := [],
                                        lateHalt := c.lateHalt.map fun x => { x with at' := x.at' - g } }
  (gangRows s l).foldl (fun s r => updCtl s (rccOf r) fun c =>
    { c with busy := c.busy - g, postAt := [] }) s

/-- Acts once the queues have drained (R189, R192, R196); a brake ends with BRAKE. -/
def finishDrain (s : State) (l : Nat) : State :=
  let c := seqCtl s l
  match c.draining with
  | none | some .hold | some .brake => s
  | some d =>
    if drained c then
      let s := updSeq s l fun c => { c with draining := none }
      match d with
      | .stop save =>
        let s := dropPostings (landAll s l) l
        let s := if save then updSeq (saveResident s l) l fun _ => { ctlZero with away := true } else s
        setGangState s l gsStopped
      | .halt code arg pos q => haltGang s l code arg pos q
      | _ => setGangState (thaw s l) l gsSwitching
    else s

/-- Everything that can go after a change of a core stream's queues or tokens: waits, signals, the end of a drain. -/
def advance (s : State) (u : Proc) : State :=
  let s := settleAll s u
  match u with
  | .seq l => finishDrain s l.toNat
  | _ => s

/-- Takes the head of queue q if it is `op` and may go, and hands it to `f` with the queue already popped. A token
fault halts; anything else changes nothing. -/
def issueHead (s : State) (u : Proc) (q op : Nat) (f : State → QEntry → State) : State :=
  if issueLive s u then
    match headOf s u q op with
    | .ready e => advance (f (updCtl s u fun c => popEntry c q) e) u
    | .fault t => tokenFault s u t (((queueGet (getCtl s u) q).map fun e => e.pos).headD 0) q
    | _ => s
  else s

/-- The next context in increasing number modulo 4 that can run (R194). -/
def nextCtx (s : State) (l : Nat) : Option Nat :=
  let k := curCtx s l
  ([1, 2, 3].map fun d => (k + d) % 4).find? fun j => (otherRunnable s l k).contains j

/-- CONTEXT_SWITCH (R196): once drained, the outgoing context is saved, the incoming one loaded, and it resumes at its
replay boundary. -/
def contextSwitch (s : State) (l : Nat) : State :=
  if rowLeader s l = l ∧ gangState s l = gsSwitching ∧ drained (seqCtl s l) then
    match nextCtx s l with
    | none => s
    | some k =>
      let s := saveResident s l
      let (s, x) := fetchSaved s l k
      let s := loadSaved s l k x
      let s := { s with saves := mdrop (· == 4 * l + k) s.saves }
      let c := seqCtl s l
      let s := if c.boundary = 0 ∧ c.nextId = 0 ∧ c.loops = [] ∧ rowSteps s l = 0 then
        setPc s (seqOf l) (progOf s (seqOf l)).entry else s
      boundary (setGangState s l gsRunning) l true
  else s

/-- WATCHDOG_EXPIRY (R198): WDOG_LIMIT steps without a replay boundary halt the context. -/
def watchdogExpiry (s : State) (l : Nat) : State :=
  let n := getF s F.ROW_CTXCTL_WDOG_LIMIT l
  let c := seqCtl s l
  if rowLeader s l = l ∧ gangState s l = gsRunning ∧ !lent s l ∧ n ≠ 0 ∧ n ≤ rowSteps s l - c.boundary then
    haltGang s l rcWatchdog 0 c.pc 0
  else s

end Sys2Proof.Machine
end

