-- ==== Sys2Proof/Machine/Operands.lean ====
section
/-! DEFINITION. Operand access: packed elements in registers and tile memory (R62, R117), tile memory lines, block
scales (R66-R70) and stochastic draws (R74, R75). -/

namespace Sys2Proof.Machine

/-- Element i of width w in the byte store from byte `base` on: bits [wi + w − 1 : wi] of the little-endian stream. -/
def rdElem (m : Map Byte) (base w i : Nat) : Nat :=
  let a := base + w * i / 8
  let sh := w * i % 8
  ofBytes ((List.range (ceilDiv (sh + w) 8)).map fun j => mget zByte (a + j) m) / 2 ^ sh % 2 ^ w

/-- The byte store with element i replaced. -/
def wrElem (m : Map Byte) (base w i v : Nat) : Map Byte :=
  let a := base + w * i / 8
  let sh := w * i % 8
  let n := ceilDiv (sh + w) 8
  let old := ofBytes ((List.range n).map fun j => mget zByte (a + j) m)
  let new := old - old / 2 ^ sh % 2 ^ w * 2 ^ sh + v % 2 ^ w * 2 ^ sh
  ((toBytes n new).zipIdx a).foldl (fun m e => mset zByte e.2 e.1 m) m

/-- Elements 0 … n − 1 of vector register r in a format. -/
def rdVec (x : CoreSt) (r fc n : Nat) : List Nat := (List.range n).map fun i => rdElem x.v (8192 * r) (fcWidth fc) i

def tileBytes : Nat := 2 ^ 20

/-- A byte store write of a list of bytes. -/
def wrBytes (m : Map Byte) (a : Nat) (bs : List Byte) : Map Byte :=
  (bs.zipIdx a).foldl (fun m e => mset zByte e.2 e.1 m) m

def rdBytes (m : Map Byte) (a n : Nat) : List Byte := (List.range n).map fun j => mget zByte (a + j) m

/-- FP32 word of tile memory. -/
def rdF32 (m : Map Byte) (a : Nat) : Nat := ofBytes (rdBytes m a 4)

/-! Tile memory banks (R98, R121, R202): 32 banks, one line of 64 bytes each per step. -/

/-- The bank of a line (R202). -/
def bankOf (line : Nat) : Nat := line % 32

/-- The access of n bytes from byte address a on, in step t. -/
def spanUse (t a n : Nat) : TileUse := ⟨t, 1, a / 64, if n = 0 then 0 else (a + n - 1) / 64 - a / 64 + 1⟩

/-- Does an access lie in step t? -/
def TileUse.inStep (u : TileUse) (t : Nat) : Bool := decide (u.at' ≤ t) && decide (t < u.at' + u.steps)

/-- The banks that the accesses take in step t. -/
def banksTaken (uses : List TileUse) (t : Nat) : List Nat :=
  ((uses.filter fun u => u.inStep t).flatMap fun u => (List.range u.n).map fun i => bankOf (u.line + i)).eraseDups

/-- Steps in which accesses are made, at most. -/
def useSteps (uses : List TileUse) : Nat := uses.foldl (fun n u => n + u.steps) 0

/-- The accesses not over by step t. -/
def usesFrom (t : Nat) (uses : List TileUse) : List TileUse := uses.filter fun u => decide (t < u.at' + u.steps)

/-- Steps from t on until `g` of them have left the tile port its four bank slots (R121); `fuel` bounds the search.
(Log 149, DEDUCED). -/
def portSteps (uses : List TileUse) : Nat → Nat → Nat → Nat
  | 0, _, g => g
  | _, _, 0 => 0
  | fuel + 1, t, g + 1 =>
    if 32 < (banksTaken uses t).length + 4 then portSteps uses fuel (t + 1) (g + 1) + 1
    else portSteps uses fuel (t + 1) g + 1

/-- Occupancy of the tile port by an instruction issued at step t that needs it for g steps (R121). -/
def portOccupancy (uses : List TileUse) (t g : Nat) : Nat := portSteps uses (g + useSteps uses) t g

/-- The step at which an issued vector instruction is complete (R123). -/
def vDone (p : VFlight) : Nat := p.start + p.g - 1 + p.l

/-- All accesses of the array to tile memory (R98). -/
def arrUses (a : ArrayClock) : List TileUse := a.own ++ a.uses

/-- The loads and stores under way, their occupancy anew after the array's accesses have changed (R121), and with it the
step at which each can report. -/
def replan (c : Ctl) : Ctl :=
  let vfl := c.vfl.map fun p => if p.unit = 5 then { p with g := portOccupancy (arrUses c.arr) p.start p.base } else p
  { c with
    vfl := vfl
    flights := c.flights.map fun f => match vfl.find? fun p => p.unit == 5 && p.id == f.id && f.q == 2 with
      | some p => { f with due := vDone p }
      | none => f }

/-! Draws (R75): a generator's words give four values each, low bits first; what an instruction leaves is dropped. -/

/-- n draws from a generator state: the values and the new state. -/
def draws : Nat → W64 → List Nat × W64
  | 0, st => ([], st)
  | n + 1, st =>
    let (st', z) := genNext st
    let four := [bits z.toNat 15 0, bits z.toNat 31 16, bits z.toNat 47 32, bits z.toNat 63 48]
    if n + 1 ≤ 4 then (four.take (n + 1), st')
    else
      let (r, st'') := draws (n + 1 - 4) st'
      (four ++ r, st'')

/-- The rounding of a conversion control field (R72) at the i-th draw. -/
def ctlRnd (ctl : Nat) (d : List Nat) (i : Nat) : Rnd :=
  match bits ctl 3 2 with
  | 0 => .nearest
  | 1 => .zero
  | _ => .stochastic (d.getD i 0)

/-- Is a conversion control field legal (R72)? -/
def ctlLegal (ctl : Nat) : Bool := decide (bits ctl 3 2 ≤ 2) && !bit ctl 0

/-! Block scales. -/

/-- Is an operand scale descriptor's block size legal and its reserved bits 0 (R66)? -/
def scdLegal (d : Nat) : Bool := decide (bits d 5 3 ≤ 5) && decide (bits d 1 0 = 0)

def scdEn (d : Nat) : Bool := bit d 7
/-- SC_DIR = 1: along M or N. -/
def scdDir (d : Nat) : Bool := bit d 6
def scdSize (d : Nat) : Nat := 2 ^ (bits d 5 3 + 3)
/-- SC_FMT: true is unsigned E4M3. -/
def scdFmt (d : Nat) : Bool := bit d 2

/-- The largest magnitude among the finite elements (R70), as an exact value. -/
def amaxOf (xs : List Num) : Num :=
  xs.foldl (fun a x => match x with
    | .fin _ m e => if Num.cmp a (.fin false m e) = .lt then .fin false m e else a
    | _ => a) (.fin false 0 0)

/-- The scale byte of a block (R70) for elements of format code fc; whether the elements are divided by it; flags. -/
def blockScale (fc : Nat) (fmt : Bool) (xs : List Num) : Nat × Bool × Fl :=
  match amaxOf xs with
  | .fin _ 0 _ =>
    if xs.any fun x => match x with
      | .fin .. => false
      | _ => true
    then ((if fmt then 0x7F else 0xFF), false, flInvalid)
    else (0, false, flNone)
  | .fin _ m e =>
    if fmt then
      let mx := match fcFloat fc with
        | some f => f.decode f.maxBits
        | none => numPow2 0
      let ok (b : Nat) : Bool := Num.cmp ((fE4M3.decode b).mul mx).1 (.fin false m e) != .lt
      (ue4m3Ceil ok, true, flNone)
    else
      let ex := max (-127) (min 127 (magExp m e - fcEmax fc))
      ((ex + 127).toNat, true, flNone)
  | _ => (0, false, flNone)

/-- An element divided exactly by its block's scale (sticky beyond 60 bits). -/
def divScale (fmt : Bool) (b : Nat) (x : Num) : Num :=
  match x, scaleValue fmt b with
  | .fin n m e, some s => (Num.div (.fin n m e) s).1
  | x, _ => x

/-- Elements scaled down by blocks of size `bs`: scale bytes, divided elements, flags of NaN scales. -/
def scaleBlocks : Nat → Nat → Bool → Nat → List Num → List Nat × List Num × Fl
  | 0, _, _, _, xs => ([], xs, flNone)
  | _, _, _, _, [] => ([], [], flNone)
  | k + 1, fc, fmt, bs, xs =>
    let blk := xs.take bs
    let (b, dv, fl) := blockScale fc fmt blk
    let (rb, rx, rf) := scaleBlocks k fc fmt bs (xs.drop bs)
    (b :: rb, (if dv then blk.map (divScale fmt b) else blk) ++ rx, flJoin fl rf)

end Sys2Proof.Machine
end

