-- ==== Sys2Proof/Machine/Scalar.lean ====
section
/-! DEFINITION. Sequencer control, scalar and control-subset instructions (R157-R167, R180-R186). SLD and SST are in
Mgmt.lean. Each executes only while its stream can (`canExec`); a refused word follows R190-R192. -/

namespace Sys2Proof.Machine

abbrev Out := Host.Outcome State Fault Refusal

/-! Field masks of the 56 bits below the opcode (R157, R158). -/

def mSD : Nat := 0x1F * 2 ^ 51
def mSA : Nat := 0x1F * 2 ^ 46
def mSB : Nat := 0x1F * 2 ^ 41
def mIMM : Nat := 2 ^ 40
def mIMM32 : Nat := 2 ^ 32 - 1

/-- Does the word set a bit outside the mask of its used fields (R150, R158)? -/
def strayBits (w : BitVec 56) (mask : Nat) : Bool := w.toNat &&& (2 ^ 56 - 1 - mask) != 0

def fSD (w : BitVec 56) : Nat := bits w.toNat 55 51
def fSA (w : BitVec 56) : Nat := bits w.toNat 50 46
def fSB (w : BitVec 56) : Nat := bits w.toNat 45 41
def fIMM (w : BitVec 56) : Bool := bit w.toNat 40
def fIMM32 (w : BitVec 56) : Nat := bits w.toNat 31 0
/-- IMM32 sign-extended. -/
def sIMM32 (w : BitVec 56) : Int := sext 32 (fIMM32 w)

/-! Sequencer control. -/

/-- A fetched word that does not decode, or carries another generation than its bank, is refused with TRANSLATION (R171,
R188); otherwise `f`. -/
def fetched (s : State) (u : Proc) (f : State → State) : State :=
  if staleWord s u then refuseNext s u rcTranslation else f s

/-- A sequencer-control instruction: refused with BAD_FIELD where a reserved bit is set, otherwise `f`. -/
def seqExec (s : State) (l : BitVec 6) (w : BitVec 56) (mask : Nat) (f : State → State) : State :=
  if canExec s (.seq l) then
    fetched s (.seq l) fun s => if strayBits w mask then refuseNext s (.seq l) rcBadField else f s
  else s

/-- NOP (R157, R167): one step. -/
def execNop (l : BitVec 6) (w : BitVec 56) (s : State) : Out :=
  .next (seqExec s l w 0 fun s => retire s (.seq l) 1)

/-- HALT (R157): dispatch stops, the queues drain, and the gang halts with HALT_INSTR and CODE. Its issue is a step
(R29). (Log 18, DEDUCED). -/
def execHalt (l : BitVec 6) (w : BitVec 56) (s : State) : Out :=
  .next (seqExec s l w 0xFF fun s =>
    let s := updCtl s (.seq l) fun c =>
      { c with draining := some (.halt rcHaltInstr (BitVec.ofNat 8 (bits w.toNat 7 0)) c.pc 0) }
    finishDrain (tick s l.toNat) l.toNat)

/-- Skips a loop: execution continues after the matching ENDL (R164, R191). -/
def skipLoop (s : State) (l : BitVec 6) : State :=
  let u : Proc := .seq l
  let p := (getCtl s u).pc
  match matchEndl (progOf s u).words p with
  | some e => setPc s u (e + 1)
  | none => setPc s u (p + 1)

/-- A refused LOOP or LOOP.R: a small gang treats it as count zero (R191). -/
def refuseLoop (s : State) (l : BitVec 6) (code : BitVec 8) : State :=
  let s' := refuse s (.seq l) code (getCtl s (.seq l)).pc
  if isLarge s l.toNat then s' else skipLoop s' l

/-- LOOP and LOOP.R (R164, R165): the count is the low word of sREG or pREG; zero skips the body. -/
def loopEnter (s : State) (l : BitVec 6) (w : BitVec 56) (replay : Bool) : State :=
  let u : Proc := .seq l
  let c := getCtl s u
  let n := bits w.toNat 54 49
  let src := bit w.toNat 55
  let v := if src then preg s u n else sreg c n
  if strayBits w (0x7F * 2 ^ 49) || (!src && decide (32 ≤ n)) then refuseLoop s l rcBadField
  else if replay && !c.loops.isEmpty then refuseLoop s l rcReplayNest
  else if 4 ≤ c.loops.length then refuseLoop s l rcLoopDepth
  else if bits v.toNat 63 32 ≠ 0 then refuseLoop s l rcLoopCount
  else
    match matchEndl (progOf s u).words c.pc with
    | none => refuseLoop s l rcLoopDepth
    | some e =>
      let cnt := bits v.toNat 31 0
      if cnt = 0 then tick (setPc s u (e + 1)) l.toNat
      else
        let s := updCtl s u fun c => { c with loops := ⟨c.pc + 1, e, cnt - 1, replay⟩ :: c.loops, pc := c.pc + 1 }
        let s := tick s l.toNat
        if replay && gangState s l.toNat == gsRunning then finishDrain (loopBoundary s l.toNat) l.toNat else s

def execLoop (l : BitVec 6) (w : BitVec 56) (s : State) : Out :=
  .next (if canExec s (.seq l) then fetched s (.seq l) fun s => loopEnter s l w false else s)

def execLoopR (l : BitVec 6) (w : BitVec 56) (s : State) : Out :=
  .next (if canExec s (.seq l) then fetched s (.seq l) fun s => loopEnter s l w true else s)

/-- ENDL (R164, R165, R167): back to the body's first word, at no cost, while iterations remain; an iteration of a
LOOP.R enters at a replay boundary. -/
def execEndl (l : BitVec 6) (w : BitVec 56) (s : State) : Out :=
  .next (seqExec s l w 0 fun s =>
    let u : Proc := .seq l
    match (getCtl s u).loops with
    | [] => refuseNext s u rcLoopDepth
    | f :: r =>
      if f.left = 0 then updCtl s u fun c => { c with loops := r, pc := c.pc + 1 }
      else
        let s := updCtl s u fun c => { c with loops := { f with left := f.left - 1 } :: r, pc := f.body }
        if f.replay then finishDrain (loopBoundary s l.toNat) l.toNat else s)

/-- Leaves lv + 1 loops: execution continues after the ENDL of the outermost one left (R164). -/
def leaveLoops (c : Ctl) (lv : Nat) : Ctl :=
  match c.loops.drop lv with
  | [] => c
  | f :: r => { c with loops := r, pc := f.endl + 1 }

/-- The posting of decision slot d of the leader's control core, if it stands (R166, R183). -/
def posting (s : State) (l d : Nat) : Option W64 :=
  let c := getCtl s (rccOf l)
  if bit c.posted.toNat d && decide (mget zNat d c.postAt ≤ stepNow s l) then some (mget z64 d c.dec) else none

/-- The posting is consumed. -/
def takePosting (s : State) (l d : Nat) : State :=
  updCtl s (rccOf l) fun c => { c with posted := c.posted &&& ~~~(BitVec.ofNat 16 (2 ^ d)) }

/-- BRK (R164, R166): a conditional one waits in bubbles for its posting and leaves only on a nonzero value. -/
def execBrk (l : BitVec 6) (w : BitVec 56) (s : State) : Out :=
  .next (seqExec s l w (0x7F * 2 ^ 49) fun s =>
    let u : Proc := .seq l
    let lv := bits w.toNat 55 54
    let d := bits w.toNat 52 49
    if (getCtl s u).loops.length ≤ lv then refuseNext s u rcLoopDepth
    else if bit w.toNat 53 then
      match posting s l.toNat d with
      | none => bubbleStep s l.toNat .decision
      | some v =>
        tick (updCtl (takePosting s l.toNat d) u fun c =>
          if v ≠ 0 then leaveLoops c lv else { c with pc := c.pc + 1 }) l.toNat
    else tick (updCtl s u fun c => leaveLoops c lv) l.toNat)

/-- Loop structure of a program for DECIDE targets (R166): the word addresses whose innermost holding body is the one
that starts at `home` (none: no loop). `stack` holds the open bodies, innermost first. -/
def sameBody : List W64 → Nat → List Nat → List (Nat × Option Nat)
  | [], _, _ => []
  | w :: r, a, st =>
    let here := (a, st.head?)
    if opOf w = 0x02 ∨ opOf w = 0x03 then here :: sameBody r (a + 1) ((a + 1) :: st)
    else if opOf w = 0x04 then here :: sameBody r (a + 1) st.tail
    else here :: sameBody r (a + 1) st

/-- Does a DECIDE at p reach only its own loop's body at t (R166)? -/
def decideTargetOk (ws : List W64) (p t : Nat) : Bool :=
  let m := sameBody ws 0 []
  match m.find? (·.1 == p), m.find? (·.1 == t) with
  | some a, some b => a.2 == b.2
  | _, _ => false

/-- DECIDE (R166): waits in bubbles for its posting, consumes it, and branches by OFF if it is nonzero. -/
def execDecide (l : BitVec 6) (w : BitVec 56) (s : State) : Out :=
  .next (seqExec s l w (0xF * 2 ^ 49 + 0xFFFF * 2 ^ 32) fun s =>
    let u : Proc := .seq l
    let d := bits w.toNat 52 49
    let p := (getCtl s u).pc
    let t := (p : Int) + sext 16 (bits w.toNat 47 32)
    if t < 0 ∨ !decideTargetOk (progOf s u).words p t.toNat then refuseNext s u rcBadTarget
    else
      match posting s l.toNat d with
      | none => bubbleStep s l.toNat .decision
      | some v =>
        tick (setPc (takePosting s l.toNat d) u (if v ≠ 0 then t.toNat else p + 1)) l.toNat)

/-- Queues 1-4 a QM field names. -/
def namedQueues (qm : Nat) : List Nat := [1, 2, 3, 4].filter fun q => bit qm q

/-- The word a stream fetches next, if its program has one. -/
def nextWord (s : State) (u : Proc) : Option W64 := (progOf s u).words[(getCtl s u).pc]?

/-- The queues the next word of a core stream goes to. -/
def wordQueues (w : W64) : List Nat :=
  let op := opOf w
  if op = 0x08 ∨ op = 0x09 then namedQueues (bits w.toNat 55 51)
  else if queueOf op = 0 then [] else [queueOf op]

/-- Does the sequencer wait for the reason given (R29, R94, R132, R163, R166, R178, R189)? A wait on tokens, a drain, an
open vector exception; a decision slot not posted; a full target queue; an MSW that waits for its MLW. -/
def bubbleWaits (s : State) (l : Nat) (why : BubbleWhy) : Bool :=
  let c := seqCtl s l
  match why with
  | .token => c.waiting || c.draining.isSome || c.vexc.isSome
  | .decision => (nextWord s (seqOf l)).any fun w =>
      (opOf w == 0x06 || (opOf w == 0x05 && bit w.toNat 53)) && (posting s l (bits w.toNat 52 49)).isNone
  | .queueFull => (nextWord s (seqOf l)).any fun w => (wordQueues w).any (queueFull c)
  | .loadRule => mswWaits s l

/-- BUBBLE (R29, R47): a step that issues nothing, while the sequencer of a running gang waits. -/
def execBubble (l : BitVec 6) (why : BubbleWhy) (s : State) : Out :=
  .next (if seqLive s l.toNat && bubbleWaits s l.toNat why then bubbleStep s l.toNat why else s)

/-! Token waits and signals. -/

/-- A queue entry of WAIT.T or SIG.T. -/
def tokenEntry (c : Ctl) (op : BitVec 8) (w : BitVec 56) : QEntry := ⟨c.nextId, op, w, 0, 0, [], c.pc, 0⟩

/-- Can this stream execute, a WAIT.T under way included? -/
def canWait (s : State) (u : Proc) : Bool :=
  match u with
  | .seq l => canDispatch s l.toNat
  | u => canExec s u

/-- WAIT.T (R157, R162): the queues named wait at their heads; a wait of the sequencer holds it in bubbles until the
counter is 0, then a tolerant one takes the error code into sD and clears the bit, another faults on it. (Log 22, DEDUCED). -/
def execWaitT (u : Proc) (w : BitVec 56) (s : State) : Out :=
  let qm := bits w.toNat 55 51
  let tol := bit w.toNat 50
  let sd := bits w.toNat 49 45
  let t := bits w.toNat 28 21
  .next (
    if !canWait s u then s
    else if !(getCtl s u).waiting && staleWord s u then refuseNext s u rcTranslation
    else if strayBits w (0x7FF * 2 ^ 45 + 0xFF * 2 ^ 21) || qm == 0 || (sd != 0 && !(tol && bit qm 0)) then
      refuseNext s u rcBadField
    else
      let c := getCtl s u
      if !c.waiting && (namedQueues qm).any (queueFull c) then
        match u with
        | .seq l => bubbleStep s l.toNat .queueFull
        | _ => s
      else
        let c := if c.waiting then c else (namedQueues qm).foldl (fun c q => pushEntry c q (tokenEntry c 0x08 w)) c
        if bit qm 0 then
          let k := getTok c t
          if k.count ≠ 0 then
            let s := setCtl s u { c with waiting := true }
            match u with
            | .seq l => bubbleStep s l.toNat .token
            | _ => s
          else if k.err ∧ !tol then tokenFault (setCtl s u c) u t c.pc 0
          else
            let c := { c with waiting := false }
            let c := if tol then setTok (setSreg c sd (if k.err then k.code.setWidth 64 else 0)) t
              { k with err := false, code := 0 } else c
            advance (retire (setCtl s u c) u 1) u
        else advance (retire (setCtl s u c) u 1) u)

/-- SIG.T (R157, R161, R162): the token is incremented at dispatch and decremented once every earlier instruction of
the queue is complete; CLR clears its error bit. (Log 23, DEDUCED). -/
def execSigT (u : Proc) (w : BitVec 56) (s : State) : Out :=
  let qm := bits w.toNat 55 51
  let t := bits w.toNat 28 21
  .next (
    if !canExec s u then s
    else if staleWord s u then refuseNext s u rcTranslation
    else if strayBits w (0x1F * 2 ^ 51 + 0xFF * 2 ^ 21 + 2 ^ 20) || (namedQueues qm).length != 1 || bit qm 0 then
      refuseNext s u rcBadField
    else
      let q := (namedQueues qm).headD 1
      let c := getCtl s u
      if queueFull c q then
        match u with
        | .seq l => bubbleStep s l.toNat .queueFull
        | _ => s
      else
        let k := getTok c t
        let k := { k with count := k.count + 1 }
        let k := if bit w.toNat 20 then { k with err := false, code := 0 } else k
        let c := setTok (pushEntry c q (tokenEntry c 0x09 w)) t k
        advance (retire (setCtl s u c) u 1) u)

/-! Scalar instructions. -/

/-- A scalar instruction of stream u that writes sD: field check, value, flags into the scalar CORE_ARITH, time in
steps on a row control core. -/
def scalarExec (s : State) (u : Proc) (w : BitVec 56) (legal : Bool) (steps : Nat) (v : State → Ctl → W64 × Fl) :
    State :=
  if canExec s u then
    fetched s u fun s =>
    if legal then
      let r := v s (getCtl s u)
      let s := updCtl s u fun c =>
        let a := setBits (c.arith ||| BitVec.ofNat 64 r.2.bits.toNat) 47 32
          (satAdd 16 (bits c.arith.toNat 47 32) r.2.sat)
        { setSreg c (fSD w) r.1 with arith := a }
      retire s u steps
    else refuseNext s u rcBadField
  else s

/-- Are the fields of an arithmetic scalar word legal: IMM selects IMM32 and then SB is 0, or sB and then IMM32 is 0
(R158)? -/
def aluLegal (w : BitVec 56) : Bool :=
  if fIMM w then !strayBits w (mSD + mSA + mIMM + mIMM32) else !strayBits w (mSD + mSA + mSB)

/-- The second operand (R158). -/
def operand2 (c : Ctl) (w : BitVec 56) : W64 := if fIMM w then w64 (sIMM32 w) else sreg c (fSB w)

/-- SADD to SSHR (R158). -/
def aluExec (s : State) (u : Proc) (w : BitVec 56) (f : W64 → W64 → W64) : State :=
  scalarExec s u w (aluLegal w) 1 fun _ c => (f (sreg c (fSA w)) (operand2 c w), flNone)

def execSli (u : Proc) (w : BitVec 56) (s : State) : Out :=
  .next (scalarExec s u w (!strayBits w (mSD + mIMM32)) 1 fun _ _ => (w64 (sIMM32 w), flNone))

def execSadd (u : Proc) (w : BitVec 56) (s : State) : Out := .next (aluExec s u w (· + ·))
def execSsub (u : Proc) (w : BitVec 56) (s : State) : Out := .next (aluExec s u w (· - ·))
def execSmul (u : Proc) (w : BitVec 56) (s : State) : Out := .next (aluExec s u w (· * ·))
def execSand (u : Proc) (w : BitVec 56) (s : State) : Out := .next (aluExec s u w (· &&& ·))
def execSor (u : Proc) (w : BitVec 56) (s : State) : Out := .next (aluExec s u w (· ||| ·))
def execSxor (u : Proc) (w : BitVec 56) (s : State) : Out := .next (aluExec s u w (· ^^^ ·))
def execSshl (u : Proc) (w : BitVec 56) (s : State) : Out := .next (aluExec s u w fun a b => a <<< (b.toNat % 64))
def execSshr (u : Proc) (w : BitVec 56) (s : State) : Out := .next (aluExec s u w fun a b => a >>> (b.toNat % 64))

/-- SMOVP (R158): sD := pN, N in [45:40]. -/
def execSmovp (u : Proc) (w : BitVec 56) (s : State) : Out :=
  .next (scalarExec s u w (!strayBits w (mSD + 0x3F * 2 ^ 40)) 1 fun s _ => (preg s u (bits w.toNat 45 40), flNone))

/-! Control subset. A core stream may not use it (R146, R168): QUEUE_CLASS. -/

/-- Refuses the control subset on a core stream. -/
def controlOnly (s : State) (u : Proc) (f : State → State) : State :=
  match u with
  | .seq _ => if canExec s u then fetched s u fun s => refuseNext s u rcQueueClass else s
  | _ => f s

/-- A jump of a stream to address t: BAD_TARGET outside its program (R166); otherwise `f` and n steps. (Log 29, DEDUCED). -/
def jumpTo (s : State) (u : Proc) (t : Int) (n : Nat) (f : Ctl → Ctl) : State :=
  if t < 0 ∨ ((progOf s u).words.length : Int) ≤ t then refuseNext s u rcBadTarget
  else spend (updCtl s u fun c => { f c with pc := t.toNat }) u n

/-- The BR conditions (R158). -/
def brTaken (cond : Nat) (a b : W64) : Bool :=
  match cond with
  | 0 => a == b
  | 1 => a != b
  | 2 => decide (a.toInt < b.toInt)
  | 3 => decide (b.toInt ≤ a.toInt)
  | 4 => decide (a.toNat < b.toNat)
  | _ => decide (b.toNat ≤ a.toNat)

def execBr (u : Proc) (w : BitVec 56) (s : State) : Out :=
  .next (controlOnly s u fun s =>
    if !canExec s u then s
    else if strayBits w (mSD + mSA + mSB + mIMM32) || decide (5 < fSD w) then refuseNext s u rcBadField
    else
      let c := getCtl s u
      if brTaken (fSD w) (sreg c (fSA w)) (sreg c (fSB w)) then jumpTo s u (c.pc + sIMM32 w) 2 id
      else retire s u 2)

def execJal (u : Proc) (w : BitVec 56) (s : State) : Out :=
  .next (controlOnly s u fun s =>
    if !canExec s u then s
    else if strayBits w (mSD + mIMM32) then refuseNext s u rcBadField
    else
      let c := getCtl s u
      jumpTo s u (c.pc + sIMM32 w) 2 fun c => setSreg c (fSD w) (BitVec.ofNat 64 (c.pc + 1)))

def execJr (u : Proc) (w : BitVec 56) (s : State) : Out :=
  .next (controlOnly s u fun s =>
    if !canExec s u then s
    else if strayBits w mSA then refuseNext s u rcBadField
    else jumpTo s u (sreg (getCtl s u) (fSA w)).toNat 1 id)

/-- FADD, FSUB, FMUL, FFMA, FDIV, FSQRT (R158): one rounding to nearest even, n steps. -/
def fpExec (s : State) (u : Proc) (w : BitVec 56) (mask n : Nat) (f : Num → Num → Num → Num × Fl) : State :=
  controlOnly s u fun s =>
    scalarExec s u w (!strayBits w mask) n fun _ c =>
      f64Op (f (f64Num (sreg c (fSA w))) (f64Num (sreg c (fSB w))) (f64Num (sreg c (fSD w))))

def execFadd (u : Proc) (w : BitVec 56) (s : State) : Out := .next (fpExec s u w (mSD + mSA + mSB) 4 fun a b _ => a.add b)
def execFsub (u : Proc) (w : BitVec 56) (s : State) : Out :=
  .next (fpExec s u w (mSD + mSA + mSB) 4 fun a b _ => a.add b.neg)
def execFmul (u : Proc) (w : BitVec 56) (s : State) : Out := .next (fpExec s u w (mSD + mSA + mSB) 4 fun a b _ => a.mul b)
def execFfma (u : Proc) (w : BitVec 56) (s : State) : Out :=
  .next (fpExec s u w (mSD + mSA + mSB) 4 fun a b d => a.fma b d)
def execFdiv (u : Proc) (w : BitVec 56) (s : State) : Out := .next (fpExec s u w (mSD + mSA + mSB) 24 fun a b _ => a.div b)
def execFsqrt (u : Proc) (w : BitVec 56) (s : State) : Out := .next (fpExec s u w (mSD + mSA) 28 fun a _ _ => a.sqrt)

/-- FCMP (R158): predicate in IMM32[2:0]; 6 and 7 are illegal. -/
def execFcmp (u : Proc) (w : BitVec 56) (s : State) : Out :=
  .next (controlOnly s u fun s =>
    scalarExec s u w (!strayBits w (mSD + mSA + mSB + 7) && decide (bits w.toNat 2 0 ≤ 5)) 2 fun _ c =>
      let r := predHolds (bits w.toNat 2 0) (f64Num (sreg c (fSA w))) (f64Num (sreg c (fSB w)))
      (if r.1 then 1 else 0, r.2))

/-- The rounding an FCVT control names (R72); no generator serves the control subset, so a stochastic draw is a free
value. (Log 34, DESIGN CHOICE). -/
def fcvtRnd (s : State) (ctl : Nat) : Rnd :=
  match bits ctl 3 2 with
  | 0 => .nearest
  | 1 => .zero
  | _ => .stochastic ((Config.freeValue s.free).toNat % 65536)

/-- FCVT (R158, R73): IMM32[4] chooses F64 from I64 or I64 from F64. -/
def execFcvt (u : Proc) (w : BitVec 56) (s : State) : Out :=
  let ctl := bits w.toNat 3 0
  .next (controlOnly s u fun s =>
    let go := canExec s u
    let s' := scalarExec s u w (!strayBits w (mSD + mSA + 0x1F) && decide (bits ctl 3 2 ≤ 2) && !bit ctl 0) 3 fun s c =>
      let r := fcvtRnd s ctl
      let a := sreg c (fSA w)
      let x := if bit w.toNat 4 then roundInt 64 true r (f64Num a) else fF64.round r (bit ctl 1) (numOfInt a.toInt)
      (BitVec.ofNat 64 x.1, x.2)
    if go ∧ bits ctl 3 2 = 2 then { s' with free := s'.free + 1 } else s')

/-- SUMRD (R181): waits for the full flag, then reads the slot and clears it. -/
def execSumrd (r : BitVec 6) (w : BitVec 56) (s : State) : Out :=
  let u : Proc := .rcc r
  let q := bits w.toNat 3 0
  .next (
    if canExec s u ∧ !strayBits w (mSD + 0xF) ∧ !bit (getCtl s u).full.toNat q then s
    else
      let go := canExec s u && !strayBits w (mSD + 0xF)
      let s := scalarExec s u w (!strayBits w (mSD + 0xF)) 1 fun s _ => (reg s .rowSummary r.toNat q, flNone)
      if go then updCtl s u fun c => { c with full := c.full &&& ~~~(BitVec.ofNat 16 (2 ^ q)) } else s)

/-- POST (R166, R183): the control core's own decision slot takes sA and stands posted, visible once its step is
over. (Log 24, DEDUCED). -/
def execPost (r : BitVec 6) (w : BitVec 56) (s : State) : Out :=
  let u : Proc := .rcc r
  let d := bits w.toNat 3 0
  .next (
    if !canExec s u then s
    else if strayBits w (mSA + 0xF) then refuseNext s u rcBadField
    else
      let s := updCtl s u fun c =>
        { c with dec := mset z64 d (sreg c (fSA w)) c.dec, posted := c.posted ||| BitVec.ofNat 16 (2 ^ d),
                 postAt := mset zNat d (stepNow s r.toNat + 1) c.postAt }
      retire s u 1)

/-- PATCH (R175, R186): a shadow parameter register of the core's gang takes sA in the step after the PATCH, or 64 steps
after it where the core is a follower of a large gang. (Log 47, DEDUCED). -/
def execPatch (r : BitVec 6) (w : BitVec 56) (s : State) : Out :=
  let u : Proc := .rcc r
  .next (
    if !canExec s u then s
    else if strayBits w (mSA + 0x3F) then refuseNext s u rcBadField
    else
      let l := rowLeader s r.toNat
      let p : Patch :=
        { at' := stepNow s r.toNat + (if isLarge s l && r.toNat != l then 64 else 1)
          row := getF s F.ROW_GANG_INDEX r.toNat, reg := bits w.toNat 5 0, val := sreg (getCtl s u) (fSA w) }
      retire (updSeq s l fun c => { c with patches := addPatch c.patches p }) u 1)

end Sys2Proof.Machine
end

