-- ==== Sys2Proof/Machine/Transc.lean ====
section
/-! DEFINITION. The true values behind the inexact paths of R88, as binary numbers of about 192 bits, and the FP32 results
within a bound of them. A value that is not exact ends in a 1 below every place a bound looks at, so that comparing it with
an FP32 number gives the answer for the true value. -/

namespace Sys2Proof.Machine

/-! Fixed point with 192 fraction bits. -/

def fixOne : Nat := 2 ^ 192
def fixMul (a b : Nat) : Nat := a * b / 2 ^ 192
def fixDiv (a b : Nat) : Nat := a * 2 ^ 192 / b

/-- ln 2 and 1 / √(2π). -/
def fixLn2 : Nat := 4350955369971217654477563090224794165364344896676135745069
def fixGauss : Nat := 2504201280626952864894549311249338563268063356138482501336

/-- m × 2 ^ e in fixed point, rounded down. -/
def fixOf (m : Nat) (e : Int) : Nat :=
  if 0 ≤ e + 192 then m * 2 ^ (e + 192).toNat else m / 2 ^ (-(e + 192)).toNat

/-- A number just above m × 2 ^ e, by less than the weight of m's last bit. -/
def sticky (m : Nat) (e : Int) : Num := .fin false (2 * m + 1) (e - 1)

/-- e ^ f for 0 ≤ f < 1: the first 48 terms of the series. -/
def expFrac (f : Nat) : Nat := (List.range 48).foldl (fun r k => fixOne + fixMul f r / (48 - k)) fixOne

/-- 2 ^ −y as a mantissa of 192 bits and an exponent. -/
def exp2Neg (y : Nat) : Nat × Int :=
  (fixDiv fixOne (expFrac (fixMul (y % fixOne) fixLn2)), -192 - ((y / fixOne : Nat) : Int))

/-- e ^ −y as a mantissa of 192 bits and an exponent. -/
def expNeg (y : Nat) : Nat × Int := exp2Neg (fixDiv y fixLn2)

/-- 2 ^ x for x = ± m × 2 ^ e; far below the FP32 range every value is as good as 2 ^ −200. -/
def trueExp2 (neg : Bool) (m : Nat) (e : Int) : Num :=
  if 8 ≤ magExp m e then numPow2 (if neg then -200 else 200)
  else
    let x := fixOf m e
    let n : Int := (x / fixOne : Nat)
    let f := x % fixOne
    if f = 0 ∧ (-192 ≤ e ∨ m = 0) then numPow2 (if neg then -n else n)
    else if neg then let r := exp2Neg x; sticky r.1 r.2
    else sticky (expFrac (fixMul f fixLn2)) (n - 192)

/-- ln y for 1 ≤ y < 2, by the series of 2 artanh ((y − 1) / (y + 1)). -/
def lnFrac (y : Nat) : Nat :=
  let w := fixDiv (y - fixOne) (y + fixOne)
  let w2 := fixMul w w
  2 * fixMul w ((List.range 65).foldl (fun r j => fixOne / (2 * (64 - j) + 1) + fixMul w2 r) 0)

/-- log2 of m × 2 ^ e, m ≠ 0. -/
def trueLog2 (m : Nat) (e : Int) : Num :=
  let k := Nat.log2 m
  let i : Int := k + e
  if m = 2 ^ k then numOfInt i
  else
    let t : Int := i * (2 ^ 192 : Nat) + (fixDiv (lnFrac (fixOf m (-k))) fixLn2 : Nat)
    if 0 ≤ t then sticky t.toNat (-192) else (sticky (-t - 1).toNat (-192)).neg

/-- tanh of m × 2 ^ e: x times the quotient of the series of sinh x / x and cosh x. -/
def trueTanh (m : Nat) (e : Int) : Num :=
  if m = 0 then .fin false 0 0
  else if 6 ≤ magExp m e then sticky (fixOne - 1) (-192)
  else
    let z := fixOf (m * m) (2 * e)
    let sh := (List.range 200).foldl (fun r k => fixOne + fixMul z r / ((2 * (200 - k)) * (2 * (200 - k) + 1))) fixOne
    let ch := (List.range 200).foldl (fun r k => fixOne + fixMul z r / ((2 * (200 - k) - 1) * (2 * (200 - k)))) fixOne
    sticky (m * (fixDiv sh ch - 1)) (e - 192)

/-- 1 / (1 + e ^ −x) of x = ± m × 2 ^ e. -/
def trueSig (neg : Bool) (m : Nat) (e : Int) : Num :=
  if m = 0 then numPow2 (-1)
  else
    let t := expNeg (if 8 ≤ magExp m e then 200 * fixOne else fixOf m e)
    let tf := fixOf t.1 t.2
    if neg then sticky (t.1 * 2 ^ 192 / (fixOne + tf)) t.2 else sticky (fixDiv fixOne (fixOne + tf) - 1) (-192)

/-- Φ of m × 2 ^ e ≤ 9, the normal distribution's integral: 1/2 + φ(x) Σ x ^ (2k + 1) / (1 · 3 ⋯ (2k + 1)). -/
def fixPhi (m : Nat) (e : Int) : Nat :=
  let x := fixOf m e
  let z := fixMul x x
  let sum := (List.range 300).foldl (fun r k => fixOne + fixMul z r / (2 * (300 - k) + 1)) fixOne
  let g := expNeg (z / 2)
  fixOne / 2 + fixMul (fixMul fixGauss (fixOf g.1 g.2)) (fixMul x sum)

/-- The function a built-in table approximates (R142), at ± m × 2 ^ e in the table's domain: tanh, the sigmoid, GELU as
z Φ(z), SiLU as z times the sigmoid, e ^ z. (Log 163, PRESUMED). -/
def trueTable (act : Nat) (neg : Bool) (m : Nat) (e : Int) : Num :=
  let x : Num := .fin neg m e
  match act with
  | 2 => if neg then (trueTanh m e).neg else trueTanh m e
  | 3 => trueSig neg m e
  | 4 =>
    let p := fixPhi m e
    (x.mul (.fin false (if neg then fixOne - p else p) (-192))).1
  | 5 => (x.mul (trueSig neg m e)).1
  | _ =>
    let t := expNeg (fixOf m e)
    if neg then .fin false t.1 t.2 else numPow2 0

/-! Results within a bound. -/

/-- |a − b| ≤ bound. -/
def near (a b bound : Num) : Bool :=
  match (a.add b.neg).1 with
  | .fin _ m e => Num.cmp (.fin false m e) bound != .gt
  | _ => false

/-- The FP32 magnitudes within k ulp of FP32 of the magnitude m × 2 ^ e, in increasing order. -/
def ulpChoices (k : Nat) (m : Nat) (e : Int) : List Nat :=
  let ulp := max (magExp m e) (-126) - 23
  let base := (fF32.roundMag .zero m e).1
  (List.range (3 * k + 3)).filterMap fun j =>
    let c := base + j - (2 * k + 1)
    if 2 * k + 1 ≤ base + j ∧ c ≤ fF32.maxBits ∧ near (f32Num c) (.fin false m e) (.fin false k ulp) then some c else none

/-- The i-th (modulo their number) FP32 magnitude within k ulp of a value, in increasing order (R88); a tiny value takes a
subnormal or +0 only. -/
def pickUlp (k : Nat) (v : Num) (i : Nat) : Num :=
  match v with
  | .fin n m e =>
    let tiny := (fF32.roundMag .nearest m e).2.2
    let l := (ulpChoices k m e).filter fun c => !tiny || decide (c < 2 ^ 23)
    let r := f32Num (l.getD (i % l.length) (fF32.roundMag .zero m e).1)
    if n then r.neg else r
  | v => v

/-- Is the value, rounded to FP32 precision, below the smallest normal number (R73)? -/
def isTiny (v : Num) : Bool :=
  match v with
  | .fin _ m e => (fF32.roundMag .nearest m e).2.2
  | _ => false

/-- A result held to a bound around a true value (R88): itself where it is within it, else the FP32 number nearest to the
value. -/
def heldTo (bound : Num) (v r : Num) : Num := if near r v bound then r else f32Num (toF32 v).1

end Sys2Proof.Machine
end

