-- ==== Sys2Proof/Machine/Tailrace.lean ====
section
/-! DEFINITION. The tailrace (R136-R143, R209): descriptors, tables, one pass over an output row, TRCFG. -/

namespace Sys2Proof.Machine

/-! FP32 arithmetic of tables: every operation rounds to nearest even (R143). -/

/-- A value with the flags gathered so far. -/
abbrev NF := Num × Fl

/-- Rounds to FP32 and keeps the flags. -/
def nf32 (x : NF) : NF :=
  let r := toF32 x.1
  (f32Num r.1, flJoin x.2 r.2)

def nfAdd (a b : NF) : NF := let r := a.1.add b.1; nf32 (r.1, flJoin (flJoin a.2 b.2) r.2)
def nfSub (a b : NF) : NF := let r := a.1.add b.1.neg; nf32 (r.1, flJoin (flJoin a.2 b.2) r.2)
def nfMul (a b : NF) : NF := let r := a.1.mul b.1; nf32 (r.1, flJoin (flJoin a.2 b.2) r.2)
def nfPure (x : Num) : NF := (x, flNone)

/-- Floor of a value as an integer; 0 for one that is not finite. -/
def floorInt : Num → Int
  | .fin n m e =>
    let v : Int := if n then -(m : Int) else m
    if 0 ≤ e then v * 2 ^ e.toNat else Int.fdiv v (2 ^ (-e).toNat)
  | _ => 0

/-- A table (R142, R143): domain start, LOG2W, results below and above (none: z′), and coefficients. -/
structure Table where
  lo : Num
  log2w : Int
  below : Option Num
  above : Option Num
  builtIn : Option Nat
  coef : Map Nat
deriving DecidableEq, Repr

/-- The built-in tables of R142. -/
def builtinTable (act : Nat) : Table :=
  let one := numPow2 0
  let zero : Num := .fin false 0 0
  match act with
  | 2 => ⟨.fin true 8 0, -4, some one.neg, some one, some 2, []⟩
  | 3 => ⟨.fin true 16 0, -3, some zero, some one, some 3, []⟩
  | 4 => ⟨.fin true 8 0, -4, some zero, none, some 4, []⟩
  | 5 => ⟨.fin true 8 0, -4, some zero, none, some 5, []⟩
  | _ => ⟨.fin true 16 0, -4, some zero, some one, some 6, []⟩

def userTable (t : UserTable) : Table :=
  ⟨f32Num t.lo, t.log2w, if t.below then none else some (f32Num t.belowC),
   if t.above then none else some (f32Num t.aboveC), none, t.coef⟩

def tableC (t : Table) (j k : Nat) : Num :=
  match t.builtIn with
  | some a => f32Num (Config.tableCoef a j k).toNat
  | none => f32Num (mget zNat (4 * j + k) t.coef)

/-- The bound of R88 on a built-in table's result, absolute. -/
def tableBound (act : Nat) : Num :=
  numPow2 (match act with
    | 2 => -16
    | 3 => -17
    | 6 => -18
    | _ => -14)

/-- A built-in table's result y at z, held to its bound around the function at z itself (R88, R137): the coefficients that
ship with the firmware keep it. (Log 36, DESIGN CHOICE). -/
def tableHeld (t : Table) (z y : Num) : Num :=
  match t.builtIn, z with
  | some a, .fin n m e => heldTo (tableBound a) (trueTable a n m e) y
  | _, _ => y

/-- Table evaluation (R143): z is rounded to FP32 first. -/
def tableEval (t : Table) (z : NF) : NF :=
  let z' := nf32 z
  if z'.1.isNan || t.lo.isNan then (.nan false, z'.2)
  else
    let hi := (t.lo.add (numPow2 (t.log2w + 8))).1
    if z'.1.cmp t.lo == .lt then ((t.below).getD z'.1, z'.2)
    else if z'.1.cmp hi != .lt then ((t.above).getD z'.1, z'.2)
    else
      let w := nfPure (numPow2 t.log2w)
      let q := nfMul (nfSub z' (nfPure t.lo)) (nfPure (numPow2 (-t.log2w)))
      let j := (max 0 (min 255 (floorInt q.1))).toNat
      let tt := nfSub z' (nfAdd (nfPure t.lo) (nfMul (nfPure (numOfInt j)) w))
      let c (k : Nat) := nfPure (tableC t j k)
      let y := nfAdd (c 0) (nfMul tt (nfAdd (c 1) (nfMul tt (c 2))))
      (tableHeld t z.1 y.1, flJoin q.2 y.2)

/-! The descriptor (R138). -/

/-- Word i of a four-word descriptor. -/
def dw (d : List W64) (i : Nat) : Nat := (d.getD i 0).toNat

def trAct (d : List W64) : Nat := bits (dw d 0) 63 60
def trScale (d : List W64) : Nat := bits (dw d 0) 59 58
def trBias (d : List W64) : Nat := bits (dw d 0) 57 56
def trClamp (d : List W64) : Bool := bit (dw d 0) 55
def trMask (d : List W64) : Nat := bits (dw d 0) 54 53
def trAmax (d : List W64) : Bool := bit (dw d 0) 52
def trDfmt (d : List W64) : Nat := bits (dw d 0) 51 48
def trCvt (d : List W64) : Nat := bits (dw d 0) 47 44
def trScd (d : List W64) : Nat := bits (dw d 0) 43 36
def trTload (d : List W64) : Bool := bit (dw d 0) 35
def trTsel (d : List W64) : Bool := bit (dw d 0) 34
def trDstride (d : List W64) : Nat := bits (dw d 0) 27 14
def trDline (d : List W64) : Nat := bits (dw d 0) 13 0
def trVline (d : List W64) : Nat := bits (dw d 1) 63 50
def trEline (d : List W64) : Nat := bits (dw d 1) 49 36
def trEstride (d : List W64) : Nat := bits (dw d 1) 35 22
def trMline (d : List W64) : Nat := bits (dw d 1) 21 8
def trSline (d : List W64) : Nat := bits (dw d 3) 31 18
def trAline (d : List W64) : Nat := bits (dw d 3) 17 4

/-- Does a region of tile memory end within 1 MiB (R156)? -/
def tileFits (start rows pitch len : Nat) : Bool := rows == 0 || decide (start + (rows - 1) * pitch + len ≤ tileBytes)

/-- The check of a TRCFG and its descriptor (R138, R141, R143, R153, R156). -/
def trCheck (w : BitVec 56) (d : List W64) : Option (BitVec 8) :=
  let w0 := dw d 0
  if strayBits w (0x3F * 2 ^ 30 + 2 ^ 29 + 0xFF * 2 ^ 21) ∨ 60 < bits w.toNat 35 30 then some rcBadField
  else if 8 < trAct d ∨ trScale d = 3 ∨ trMask d = 3 ∨ 0xB < trDfmt d ∨ !ctlLegal (trCvt d) ∨ !scdLegal (trScd d) ∨
      bits w0 33 28 ≠ 0 ∨ bits (dw d 1) 7 0 ≠ 0 ∨
      (scdEn (trScd d) ∧ (scdDir (trScd d) ∨ 4 < bits (trScd d) 5 3)) then some rcBadField
  else if trTload d then
    let lg := sext 8 (bits (dw d 2) 31 24)
    if lg < -16 ∨ 8 < lg ∨ 1 < bits (dw d 2) 23 22 ∨ 1 < bits (dw d 2) 21 20 then some rcBadField
    else if !tileFits (trVline d * 64) 1 0 4096 then some rcTileBounds
    else none
  else if bits (dw d 3) 3 0 ≠ 0 then some rcBadField
  else if scdEn (trScd d) ∧ 4 < trDfmt d then some rcParam
  else if (trScale d = 2 ∧ !tileFits (trVline d * 64) 1 0 512) ∨
      (bit (trBias d) 0 ∧ !tileFits (trVline d * 64 + 512) 1 0 512) then some rcTileBounds
  else none

/-- The descriptor an instruction with dispatch number id uses: that of the last TRCFG before it (R139). (Log 25, DEDUCED). -/
def trInForce (c : Ctl) (id : Nat) : List W64 :=
  match (c.tr.filter fun x => decide (x.1 < id)).getLast? with
  | some x => x.2
  | none => [0, 0, 0, 0]

/-- Tile regions of a pass over m rows of n lanes fit, and the lane count meets the DFMT's multiple (R140, R156). -/
def trRegions (d : List W64) (m n : Nat) : Option (BitVec 8) :=
  let w := fcWidth (trDfmt d)
  if (w = 6 ∧ n % 4 ≠ 0) ∨ (w = 4 ∧ n % 2 ≠ 0) then some rcBadCount
  else if !tileFits (trDline d * 64) m (trDstride d * 64) (ceilDiv (n * w) 8) ∨
      (bit (trBias d) 1 ∧ !tileFits (trEline d * 64) m (trEstride d * 64) (4 * n)) ∨
      (trMask d ≠ 0 ∧ !tileFits (trMline d * 64) m 16 16) ∨
      (scdEn (trScd d) ∧ !tileFits (trSline d * 64) m (128 / scdSize (trScd d)) (ceilDiv n (scdSize (trScd d))))
  then some rcTileBounds
  else none

/-! Overlap of tile memory regions (R168). -/

/-- A region of tile memory: first byte, rows, bytes between rows, bytes of a row. -/
structure Rect where
  base : Nat
  rows : Nat
  pitch : Nat
  len : Nat
deriving DecidableEq, Repr

/-- Does a row of the region meet the n bytes from a on? Of the rows that end above a, the first starts lowest. -/
def Rect.meetsSpan (x : Rect) (a n : Nat) : Bool :=
  let j := if a < x.base + x.len ∨ x.pitch = 0 then 0 else ceilDiv (a + 1 - x.base - x.len) x.pitch
  n != 0 && x.len != 0 && decide (j < x.rows) && decide (x.base + j * x.pitch < a + n) &&
    decide (a < x.base + j * x.pitch + x.len)

def Rect.meets (x y : Rect) : Bool := (List.range x.rows).any fun i => y.meetsSpan (x.base + i * x.pitch) x.len

/-- Does a region written meet a region read? -/
def anyMeet (written read : List Rect) : Bool := written.any fun w => read.any w.meets

/-- The regions a pass of m rows of n lanes writes, and those it reads, the amax word's own reading apart (R136, R138). -/
def trWritten (d : List W64) (m n : Nat) : List Rect :=
  [⟨trDline d * 64, m, trDstride d * 64, ceilDiv (n * fcWidth (trDfmt d)) 8⟩] ++
  (if trMask d = 1 then [⟨trMline d * 64, m, 16, 16⟩] else []) ++
  (if scdEn (trScd d) then [⟨trSline d * 64, m, 128 / scdSize (trScd d), ceilDiv n (scdSize (trScd d))⟩] else []) ++
  (if trAmax d then [⟨trAline d * 64, 1, 0, 4⟩] else [])

def trRead (d : List W64) (m n : Nat) : List Rect :=
  (if trScale d = 2 then [⟨trVline d * 64, 1, 0, 4 * n⟩] else []) ++
  (if bit (trBias d) 0 then [⟨trVline d * 64 + 512, 1, 0, 4 * n⟩] else []) ++
  (if bit (trBias d) 1 then [⟨trEline d * 64, m, trEstride d * 64, 4 * n⟩] else []) ++
  (if trMask d = 2 then [⟨trMline d * 64, m, 16, 16⟩] else [])

/-- The check of a pass whose instruction also reads `more` (R140, R156, R168). (Log 156, DEDUCED). -/
def trPassCheck (d : List W64) (m n : Nat) (more : List Rect) : Option (BitVec 8) :=
  (trRegions d m n).orElse fun _ =>
    if anyMeet (trWritten d m n) (trRead d m n ++ more) then some rcOverlap else none

/-! One pass (R136, R137, R141, R209). -/

/-- The lane value after stages 2 to 5. -/
def trLane (x : CoreSt) (d : List W64) (m n : Nat) (inp : Num) : NF :=
  let a : Option Num := match trScale d with
    | 0 => none
    | 1 => some (f32Num (bits (dw d 3) 63 32))
    | _ => some (f32Num (rdF32 x.tile (trVline d * 64 + 4 * n)))
  let s2 : NF := match a with
    | none => (inp, flNone)
    | some a => inp.mul a
  let addTo (z : NF) (b : Num) : NF := let r := z.1.add b; (r.1, flJoin z.2 r.2)
  let s3 := if bit (trBias d) 0 then addTo s2 (f32Num (rdF32 x.tile (trVline d * 64 + 512 + 4 * n))) else s2
  let s3 := if bit (trBias d) 1 then
    addTo s3 (f32Num (rdF32 x.tile ((trEline d + m * trEstride d) * 64 + 4 * n))) else s3
  let s4 : NF := match trAct d with
    | 0 => s3
    | 1 => let r := maxMin true s3.1 (.fin false 0 0); (r.1, flJoin s3.2 r.2)
    | 7 => tableEval (userTable x.tabA) s3
    | 8 => tableEval (userTable x.tabB) s3
    | k => tableEval (builtinTable k) s3
  if trClamp d then
    let hi := f32Num (bits (dw d 2) 63 32)
    let lo := f32Num (bits (dw d 2) 31 0)
    let above := predHolds 4 s4.1 hi
    let below := predHolds 2 s4.1 lo
    let fl := flJoin s4.2 (flJoin above.2 below.2)
    (if below.1 then lo else if above.1 then hi else s4.1, fl)
  else s4

/-- Is a stage-5 value greater than +0 (R209)? -/
def isPos : Num → Bool
  | .inf n => !n
  | .fin n m _ => !n && m != 0
  | .nan _ => false

/-- One output row: lanes 0 … n − 1 of row m through every stage; the core with the row written and the mask row
captured, the row's stage-6 values for the amax, and the flags. -/
def trRow (x : CoreSt) (d : List W64) (gen : W64) (m n : Nat) (inp : List Num) : CoreSt × List Num × W64 × Fl :=
  let lanes := inp.zipIdx.map fun (v, j) => trLane x d m j v
  let fl := lanes.foldl (fun a y => flJoin a y.2) flNone
  let s5 := lanes.map (·.1)
  let mrow := trMline d * 64 + 16 * m
  let x := if trMask d = 1 then
      let mk := s5.zipIdx.foldl (fun a y => if isPos y.1 then a + 2 ^ y.2 else a) 0
      { x with tile := wrBytes x.tile mrow (toBytes 16 mk) }
    else x
  let s6 := if trMask d = 2 then
      let mk := ofBytes (rdBytes x.tile mrow 16)
      s5.zipIdx.map fun y => if bit mk y.2 then y.1 else .fin false 0 0
    else s5
  let stoch := bits (trCvt d) 3 2 == 2
  let (ds, gen) := if stoch then draws 128 gen else ([], gen)
  let df := trDfmt d
  let (sc, s7, fls) := if scdEn (trScd d) then scaleBlocks n df (scdFmt (trScd d)) (scdSize (trScd d)) s6
    else ([], s6, flNone)
  let out := s7.zipIdx.map fun (v, j) => fcConvert df (ctlRnd (trCvt d) ds j) (bit (trCvt d) 1) v
  let fl := out.foldl (fun a y => flJoin a y.2) (flJoin fl fls)
  let base := (trDline d + m * trDstride d) * 64
  let tile := out.zipIdx.foldl (fun t y => wrElem t base (fcWidth df) y.2 y.1.1) x.tile
  let tile := if scdEn (trScd d) then
    wrBytes tile (trSline d * 64 + m * (128 / scdSize (trScd d))) (sc.map (BitVec.ofNat 8)) else tile
  ({ x with tile := tile }, s6, gen, fl)

/-- An exact magnitude rounded toward +∞ to FP32 (R141). -/
def f32Up : Num → Nat
  | .fin _ m e =>
    let r := fF32.roundMag .zero m e
    min (if r.2.1 then r.1 + 1 else r.1) fF32.infBits
  | .inf _ => fF32.infBits
  | .nan _ => 0

/-- The amax word after an instruction (R141): the larger of the old word and the largest magnitude seen, NaN ignored. -/
def trAmaxWrite (x : CoreSt) (d : List W64) (ys : List Num) : CoreSt :=
  if trAmax d then
    let nums := ys.filter fun y => !y.isNan
    if nums.isEmpty then x
    else
      let top := nums.foldl (fun a y => max a (f32Up y)) 0
      let a := trAline d * 64
      let old := rdF32 x.tile a
      let new := (fF32.round .nearest false (maxMin true (f32Num old) (f32Num top)).1).1
      { x with tile := wrBytes x.tile a (toBytes 4 new) }
  else x

/-- All rows of an instruction through the tailrace, then the amax word. -/
def trPass (x : CoreSt) (d : List W64) (gen : W64) (n : Nat) (rows : List (List Num)) : CoreSt × W64 × Fl :=
  let r := rows.zipIdx.foldl (fun (acc : CoreSt × List Num × W64 × Fl) y =>
    let t := trRow acc.1 d acc.2.2.1 y.2 n y.1
    (t.1, acc.2.1 ++ t.2.1, t.2.2.1, flJoin acc.2.2.2 t.2.2.2)) (x, [], gen, flNone)
  (trAmaxWrite r.1 d r.2.1, r.2.2.1, r.2.2.2)

/-! TRCFG (R139, R143). -/

/-- Issues the head TRCFG if its TLOAD bit is `tl`: refused, or handed to `f`. -/
def trIssue (s : State) (l : BitVec 6) (tl : Bool) (f : State → QEntry → State) : State :=
  let u : Proc := .seq l
  match headOf s u 4 0x80 with
  | .ready e => if trTload e.ps == tl then
      issueHead s u 4 0x80 fun s e =>
        match trCheck e.w e.ps with
        | some code => refuseEntry s u e 4 code
        | none => f s e
    else s
  | .fault _ => issueHead s u 4 0x80 f
  | _ => s

/-- No array instruction is queued or under way. -/
def arrayIdle (c : Ctl) : Bool := c.qM.isEmpty && !(c.flights.any fun f => f.q == 1)

/-- A TRCFG dispatched and not refused comes into force for the array instructions dispatched after it (R139, R149). -/
def bringInForce (c : Ctl) (e : QEntry) : Ctl :=
  if e.op = 0x80 ∧ (trCheck e.w e.ps).isNone ∧ !trTload e.ps then
    { c with tr := (if arrayIdle c then [] else c.tr) ++ [(e.id, e.ps.take 4)] }
  else c

/-- TRCFG (R139): in force since its dispatch, it completes. -/
def execTrcfg (l : BitVec 6) (s : State) : Out :=
  .next (trIssue s l false fun s e => launch s (.seq l) e 4 (stepNow s l.toNat) 0 0)

/-- The user table a descriptor loads from a core's tile memory (R143). -/
def readTable (x : CoreSt) (d : List W64) : UserTable :=
  let a := trVline d * 64
  let coef := (List.range 1024).foldl (fun (m : Map Nat) i =>
    if i % 4 = 3 then m else mset zNat i (rdF32 x.tile (a + 4 * i)) m) []
  ⟨coef, bits (dw d 2) 63 32, sext 8 (bits (dw d 2) 31 24), bits (dw d 2) 23 22 == 1, bits (dw d 2) 21 20 == 1,
   bits (dw d 3) 63 32, bits (dw d 3) 31 0⟩

/-- Does the array instruction dispatched as `id` use user table `sel` (R136, R139)? -/
def usesTable (c : Ctl) (sel : Bool) (op : BitVec 8) (id : Nat) : Bool :=
  [0x22, 0x24, 0x25, 0x26, 0x27, 0x28, 0x29].contains op.toNat && trAct (trInForce c id) == if sel then 8 else 7

/-- Does an array instruction dispatched before entry `id` still use the table (R143)? -/
def tailBusy (c : Ctl) (sel : Bool) (id now : Nat) : Bool :=
  (c.qM.any fun e => decide (e.id < id) && usesTable c sel e.op e.id) ||
    c.flights.any fun f => f.q == 1 && decide (f.id < id) && decide (now < f.due) && usesTable c sel f.op f.id

/-- TRCFG_TABLE_LOAD (R143): once no instruction using the table remains in the tailrace, every core of the gang loads
it in 16 steps. -/
def execTrcfgTableLoad (l : BitVec 6) (s : State) : Out :=
  .next (
    let u : Proc := .seq l
    let ln := l.toNat
    let now := stepNow s ln
    match headOf s u 4 0x80 with
    | .ready e =>
      if (trCheck e.w e.ps).isNone && tailBusy (getCtl s u) (trTsel e.ps) e.id now then s
      else trIssue s l true fun s e =>
        let s := (gangCores s ln).foldl (fun s p => updPlace s p.1 p.2 fun x =>
          if trTsel e.ps then { x with tabB := readTable x e.ps } else { x with tabA := readTable x e.ps }) s
        launch s u e 4 (now + 16) 0 0
    | _ => s)

end Sys2Proof.Machine
end

