-- ==== Sys2Proof/Machine/Array.lean ====
section
/-! DEFINITION. The matrix array (R89-R105, R113, R114, R154, R201-R206): weight loads, plane swaps, the streaming
operations, the gradient accumulator. MSL is in Msl.lean. -/

namespace Sys2Proof.Machine

/-! Rate classes (R90, R91, R101). -/

/-- Rate class of an operand pair: class N, B or H. -/
inductive RateClass where
  | n | b | h
deriving DecidableEq, Repr

def isNarrow (fc : Nat) : Bool := [0x2, 0x3, 0x4].contains fc
def isHalfWord (fc : Nat) : Bool := fc == 0x5 || fc == 0x6
def isArrayInt (fc : Nat) : Bool := [0x7, 0x8, 0x9].contains fc

/-- The class of an activation format with a weight format; none for an illegal pairing (R91). -/
def rateClass (a w : Nat) : Option RateClass :=
  if isHalfWord a || isHalfWord w then (if a = w then some .h else none)
  else if isArrayInt a != isArrayInt w then none
  else if (isNarrow a && isNarrow w) || (a == 0x9 && w == 0x9) then some .n
  else some .b

/-- K per weight block, Kp. -/
def classKp : RateClass → Nat
  | .n => 256
  | _ => 128

/-- Steps per vector, v. -/
def classV : RateClass → Nat
  | .h => 2
  | _ => 1

/-! Opcodes (R150). -/
def opMlw : Nat := 0x20
def opMsw : Nat := 0x21
def opMma : Nat := 0x22
def opMga : Nat := 0x23
def opMgd : Nat := 0x24
def opMdistL1 : Nat := 0x25
def opMdistL2 : Nat := 0x26
def opMminplus : Nat := 0x27
def opMmaxplus : Nat := 0x28
def opMcmp : Nat := 0x29
def opMsl : Nat := 0x2A

/-- Is the format pair one R101 gives the operation? The plane came from CB2 only for MMA and MGA. -/
def opFormats (op a w : Nat) (cb2 : Bool) : Bool :=
  if op = opMma ∨ op = opMga then true
  else !cb2 &&
    (if op = opMdistL1 ∨ op = opMdistL2 then (a == 7 || a == 8) && (w == 7 || w == 8)
     else if op = opMminplus ∨ op = opMmaxplus then a == w && [0x5, 0x6, 0x7].contains a
     else [0x0, 0x1, 0x5, 0x6, 0x7, 0x8].contains a && [0x0, 0x1, 0x5, 0x6, 0x7, 0x8].contains w)

/-! Words and descriptors (R100, R153, R154). -/

def mFC (w : BitVec 56) : Nat := bits w.toNat 55 52
def mSCD (w : BitVec 56) : Nat := bits w.toNat 51 44
def mPREG (w : BitVec 56) : Nat := bits w.toNat 35 30
def mPred (w : BitVec 56) : Nat := bits w.toNat 11 9
def mPsum (w : BitVec 56) : Bool := bit w.toNat 8

/-- Is the PREG of an array word legal: 0 for MSW and MGD, otherwise the descriptor lies in p0-p63 (R153)? -/
def mPregOk (op : Nat) (w : BitVec 56) : Bool :=
  if op = opMsw ∨ op = opMgd then mPREG w == 0
  else decide (mPREG w ≤ if op = opMsl then 60 else 62)

/-- Does the operation read activations, and in which formats (R90, R101)? -/
def activationOk (op fc : Nat) : Bool :=
  if op = opMlw ∨ op = opMsw ∨ op = opMgd ∨ op = opMsl then true
  else if op = opMma ∨ op = opMga then decide (fc ≤ 0x9)
  else if op = opMdistL1 ∨ op = opMdistL2 then fc == 7 || fc == 8
  else if op = opMminplus ∨ op = opMmaxplus then [0x5, 0x6, 0x7].contains fc
  else [0x0, 0x1, 0x5, 0x6, 0x7, 0x8].contains fc

/-- Do block scales contradict the operation, or PSUM contradict MGA (R103, R156)? (Log 27, DEDUCED). -/
def wordConflict (op : Nat) (w : BitVec 56) : Bool :=
  let streams := !(op == opMlw || op == opMsw || op == opMgd || op == opMsl)
  (streams && scdEn (mSCD w) && (!(op == opMma || op == opMga) || isArrayInt (mFC w))) || (op == opMga && mPsum w)

/-- The check of an array word itself (R66, R90, R101-R103, R150, R151, R153, R156). (Log 26, DEDUCED). -/
def mWordCheck (op : Nat) (w : BitVec 56) : Option (BitVec 8) :=
  let x := w.toNat
  if bits x 43 36 ≠ 0 ∨ bits x 7 0 ≠ 0 ∨ !mPregOk op w ∨ 0xD < mFC w ∨ !scdLegal (mSCD w) ∨
      (if op = opMcmp then 5 < mPred w else mPred w ≠ 0) then some rcBadField
  else if !activationOk op (mFC w) then some rcBadFormat
  else if wordConflict op w then some rcParam
  else none

/-- A weight descriptor (R100). -/
structure WDesc where
  fmt : Nat
  cbE2m1 : Bool
  cmp : Bool
  trans : Bool
  stride : Nat
  kv : Nat
  nv : Nat
  base : Nat
  sbase : Nat
  cbbase : Nat
deriving DecidableEq, Repr

def wDesc (d : List W64) : WDesc :=
  let a := dw d 0
  let b := dw d 1
  ⟨bits a 63 60, bit a 59, bit a 58, bit a 57, bits a 49 36, bits a 35 28, bits a 27 21, bits a 19 0, bits b 63 44,
   bits b 43 24⟩

/-- Format of the weights in the plane: that of CB2's levels. -/
def WDesc.planeFmt (d : WDesc) : Nat := if d.fmt = 0xA then (if d.cbE2m1 then 0x4 else 0x0) else d.fmt

/-- The largest Kp a weight format can reach (R156). -/
def WDesc.kpMax (d : WDesc) : Nat := if isNarrow d.planeFmt || d.planeFmt == 0x9 then 256 else 128

/-- Bytes of the compressed form (R269): a header line and codes of X + L bits. The least X of the element width is
assumed where the header's is out of range. -/
def cmpBytes (wide : Bool) (x kv : Nat) : Nat := 64 + ceilDiv ((kv + 1) * 128 * (x + if wide then 8 else 4)) 8

/-- Rows and pitch of a weight block's scales (R100). -/
def wScaleRows (scd kv : Nat) : Nat × Nat :=
  if scdDir scd then (kv + 1, ceilDiv 128 (scdSize scd)) else (ceilDiv (kv + 1) (scdSize scd), 128)

/-- The check of an MLW (R100, R103, R106, R156, R269), the compressed form's extent apart. -/
def mlwCheck (w : BitVec 56) (d : List W64) : Option (BitVec 8) :=
  let x := wDesc d
  let scd := mSCD w
  let w0 := dw d 0
  let en := scdEn scd && x.fmt != 0xA
  if 0xA < x.fmt ∨ bits w0 56 50 ≠ 0 ∨ bit w0 20 ∨ bits (dw d 1) 23 0 ≠ 0 ∨ x.base % 64 ≠ 0 ∨
      (x.fmt = 0xA ∧ x.cbbase % 64 ≠ 0) then some rcBadField
  else if x.cmp ∧ ¬ [0x0, 0x1, 0x5, 0x6, 0x7, 0x8].contains x.fmt then some rcBadFormat
  else if (x.fmt = 0xA ∧ x.trans) ∨ x.kpMax ≤ x.kv ∨ (en ∧ isArrayInt x.fmt) then some rcParam
  else
    let pitch := x.stride * 64
    let fits :=
      if x.fmt = 0xA then tileFits x.base (x.kv / 64 + 1) pitch 2240 && tileFits x.cbbase 1 0 64
      else if x.cmp then tileFits x.base 1 0 64
      else
        let rows := if x.trans then x.nv + 1 else x.kv + 1
        let len := if x.trans then x.kv + 1 else x.nv + 1
        tileFits x.base rows pitch (ceilDiv (len * fcWidth x.fmt) 8)
    let sr := wScaleRows scd x.kv
    if !fits ∨ (en ∧ !tileFits x.sbase 1 0 (sr.1 * sr.2)) then some rcTileBounds else none

/-! Loading the shadow plane. -/

/-- The (k, n) places of a block. -/
def places (kv nv : Nat) : List (Nat × Nat) :=
  (List.range (kv + 1)).flatMap fun k => (List.range (nv + 1)).map fun n => (k, n)

/-- A plane's element store from a function of place. -/
def placeMap (kv nv : Nat) (f : Nat → Nat → Nat) : Map Nat :=
  (places kv nv).foldl (fun m p => mset zNat (128 * p.1 + p.2) (f p.1 p.2) m) []

/-- A plain block (R100): rows of N elements, or with TRANS rows of K elements. -/
def loadPlain (x : CoreSt) (d : WDesc) : Map Nat :=
  placeMap d.kv d.nv fun k n =>
    if d.trans then rdElem x.tile (d.base + n * d.stride * 64) (fcWidth d.fmt) k
    else rdElem x.tile (d.base + k * d.stride * 64) (fcWidth d.fmt) n

/-- Scale bytes of a block, kept where they are read: bytes beyond NVALID are not (R100). -/
def loadScales (x : CoreSt) (d : WDesc) (scd : Nat) : Map Nat :=
  let sr := wScaleRows scd d.kv
  let cols := if scdDir scd then ceilDiv (d.nv + 1) (scdSize scd) else d.nv + 1
  placeMap (sr.1 - 1) (cols - 1) fun i j => (mget zByte (d.sbase + i * sr.2 + j) x.tile).toNat

/-- Does any scale byte hold a NaN scale (R67)? -/
def anyNanScale (fmt : Bool) (m : Map Nat) : Bool := m.any fun e => (scaleValue fmt e.2).isNone

/-- Start of super-block (kb, nb) of a CB2 block (R105). -/
def superBase (d : WDesc) (kb nb : Nat) : Nat := d.base + kb * d.stride * 64 + 280 * nb

/-- Level byte, scale byte of weight (k, n) of a CB2 block (R63, R64). -/
def cb2Level (x : CoreSt) (d : WDesc) (k n : Nat) : Nat :=
  let s := superBase d (k / 64) (n / 16)
  let code := rdElem x.tile (s + 16 * (n % 16)) 2 (k % 64)
  let sel := rdElem x.tile (s + 272) 4 (n % 16)
  (mget zByte (d.cbbase + 4 * sel + code) x.tile).toNat

def cb2Scale (x : CoreSt) (d : WDesc) (kb n : Nat) : Nat :=
  (mget zByte (superBase d kb (n / 16) + 256 + n % 16) x.tile).toNat

/-- Is a level byte of the plane a NaN level (R65)? -/
def nanLevel (fc b : Nat) : Bool := if fc = 0x4 then decide (16 ≤ b) else b % 128 == 0x7F

/-- Is a CB2 block affected by a NaN scale or level (R65)? A zero scale hides a NaN level (R67). -/
def cb2Bad (fc : Nat) (kv : Nat) (w : Map Nat) (kb n scale : Nat) : Bool :=
  match scaleValue true scale with
  | none => true
  | some s => s != .fin false 0 0 && !(scale == 0) &&
    (List.range 64).any fun j => decide (64 * kb + j ≤ kv) && nanLevel fc (mget zNat (128 * (64 * kb + j) + n) w)

/-- Restores the elements of a compressed block (R269), with TRANS read transposed into the plane (R100); none where the
header is bad (R270). (Log 154, DEDUCED). -/
def loadCmp (x : CoreSt) (d : WDesc) : Option (Map Nat) :=
  let h := (mget zByte d.base x.tile).toNat
  let wide := fcWidth d.fmt == 16
  let xw := bits h 2 0
  let lo := if wide then 8 else 4
  if bit h 3 != wide ∨ bits h 7 4 ≠ 0 ∨ !(if wide then [3, 4, 5].contains xw else [2, 3].contains xw) then none
  else
    let code (k n : Nat) : Nat := rdElem x.tile (d.base + 64) (xw + lo) (if d.trans then 128 * n + k else 128 * k + n)
    some (placeMap d.kv d.nv fun k n =>
      let c := code k n
      (mget zByte (d.base + 1 + c % 2 ^ xw) x.tile).toNat * 2 ^ lo % 2 ^ (2 * lo) + c / 2 ^ xw)

/-- A compressed block whose header is good ends below 1 MiB (R156). -/
def cmpFits (x : CoreSt) (d : WDesc) : Bool :=
  match loadCmp x { d with kv := 0, nv := 0 } with
  | none => true
  | some _ => tileFits d.base 1 0
      (cmpBytes (fcWidth d.fmt == 16) (bits (mget zByte d.base x.tile).toNat 2 0) (if d.trans then d.nv else d.kv))

/-- The plane an MLW loads, and INVALID for NaN scales, levels or a bad compressed header. -/
def loadPlane (x : CoreSt) (d : WDesc) (scd : Nat) : Plane × Fl :=
  if d.fmt = 0xA then
    let fc := d.planeFmt
    let w := placeMap d.kv d.nv (cb2Level x d)
    let sc := placeMap (d.kv / 64) d.nv (cb2Scale x d)
    let bad := (places (d.kv / 64) d.nv).any fun p => cb2Bad fc d.kv w p.1 p.2 (mget zNat (128 * p.1 + p.2) sc)
    (⟨true, fc, d.kv, d.nv, true, 0x9C, w, sc⟩, flIf bad flInvalid)
  else
    let en := scdEn scd
    let sc := if en then loadScales x d scd else []
    let (w, bad) := if d.cmp then
        match loadCmp x d with
        | some w => (w, false)
        | none => ([], true)
      else (loadPlain x d, false)
    (⟨true, d.fmt, d.kv, d.nv, false, BitVec.ofNat 8 scd, w, sc⟩,
     flIf (bad || (en && anyNanScale (scdFmt scd) sc)) flInvalid)

/-! Activations (R154, R203). -/

structure ADesc where
  aline : Nat
  astride : Nat
  m : Nat
  pline : Nat
  pstride : Nat
  asline : Nat
  tfeed : Bool
deriving DecidableEq, Repr

def aDesc (d : List W64) : ADesc :=
  let a := dw d 0
  let b := dw d 1
  ⟨bits a 63 50, bits a 49 36, bits a 35 23 + 1, bits a 22 9, bits b 63 50, bits b 49 36, bit b 35⟩

/-- Rows and columns of the scale bytes of an activation operand (R154). -/
def aScaleShape (scd : Nat) (x : ADesc) (kv kp : Nat) : Nat × Nat :=
  if scdDir scd then (kv + 1, ceilDiv x.m (scdSize scd)) else (x.m, ceilDiv kp (scdSize scd))

/-- A plane as an instruction of activation format fc sees it: one no MLW loaded is a full block of that format
(R96). -/
def planeFor (p : Plane) (fc : Nat) : Plane :=
  if p.loaded then p
  else { planeZero with fc := fc, kv := (match rateClass fc fc with
    | some c => classKp c
    | none => 128) - 1, nv := 127 }

/-- The check of a streaming instruction against its descriptor, the active plane and the tailrace descriptor in force
(R91, R101, R103, R140, R154, R156, R168, R203, R205). (Log 45, DEDUCED). -/
def mmaCheck (op : Nat) (w : BitVec 56) (d : List W64) (p0 : Plane) (tr : List W64) : Option (BitVec 8) :=
  let fc := mFC w
  let scd := mSCD w
  let x := aDesc d
  let p := planeFor p0 fc
  if bits (dw d 0) 8 0 ≠ 0 ∨ bits (dw d 1) 34 0 ≠ 0 then some rcBadField
  else match rateClass fc p.fc with
    | none => some rcBadFormat
    | some cls =>
      if !opFormats op fc p.fc p.cb2 then some rcBadFormat
      else
        let scaled := op = opMma ∨ op = opMga
        let en := scdEn scd
        if classKp cls ≤ p.kv ∨ (!scaled ∧ scdEn p.scd.toNat) ∨ (x.tfeed ∧ en ∧ !scdDir scd) ∨
            (op = opMga ∧ 128 < x.m) then some rcParam
        else
          let sh := aScaleShape scd x p.kv (classKp cls)
          let fitsA := if x.tfeed then tileFits (x.aline * 64) (p.kv + 1) (x.astride * 64) (ceilDiv (x.m * fcWidth fc) 8)
            else tileFits (x.aline * 64) x.m (x.astride * 64) (ceilDiv ((p.kv + 1) * fcWidth fc) 8)
          if !fitsA ∨ (mPsum w ∧ !tileFits (x.pline * 64) x.m (x.pstride * 64) (4 * (p.nv + 1))) ∨
              (en ∧ !tileFits (x.asline * 64) 1 0 (sh.1 * sh.2)) then some rcTileBounds
          else if op = opMga then none
          else trPassCheck tr x.m (p.nv + 1) (
            [if x.tfeed then ⟨x.aline * 64, p.kv + 1, x.astride * 64, ceilDiv (x.m * fcWidth fc) 8⟩
              else ⟨x.aline * 64, x.m, x.astride * 64, ceilDiv ((p.kv + 1) * fcWidth fc) 8⟩] ++
            (if mPsum w then [⟨x.pline * 64, x.m, x.pstride * 64, 4 * (p.nv + 1)⟩] else []) ++
            (if en then [⟨x.asline * 64, 1, 0, sh.1 * sh.2⟩] else []))

/-! Elements as the array takes them. -/

/-- An element under its block's scale (R67, R69): a NaN scale makes it NaN, a zero scale +0; a scale across K is
applied exactly here, one along K in the column. -/
def hopElem (x : Num) (cross : Bool) (scale : Option (Option Num)) : Num :=
  match scale with
  | none => x
  | some none => .nan false
  | some (some (.fin _ 0 _)) => .fin false 0 0
  | some (some s) => if cross && !x.isNan then (x.mul s).1 else x

/-- The scale of plane element (k, n), if the plane carries scales. -/
def planeScale (p : Plane) (k n : Nat) : Option (Option Num) :=
  let d := p.scd.toNat
  if scdEn d then
    let key := if scdDir d then 128 * k + n / scdSize d else 128 * (k / scdSize d) + n
    some (scaleValue (scdFmt d) (mget zNat key p.sc))
  else none

/-- The weight at PE (k, n). -/
def planeElem (p : Plane) (k n : Nat) : Num :=
  let b := mget zNat (128 * k + n) p.w
  let v : Num := if p.cb2 && nanLevel p.fc b then .nan false else fcDecode p.fc b
  hopElem v (scdDir p.scd.toNat) (planeScale p k n)

/-- The scale of activation element k of vector m. -/
def actScale (t : Map Byte) (x : ADesc) (scd kv kp m k : Nat) : Option (Option Num) :=
  if scdEn scd then
    let sh := aScaleShape scd x kv kp
    let i := if scdDir scd then k * sh.2 + m / scdSize scd else m * sh.2 + k / scdSize scd
    some (scaleValue (scdFmt scd) (mget zByte (x.asline * 64 + i) t).toNat)
  else none

/-- Activation element k of vector m. -/
def actElem (t : Map Byte) (x : ADesc) (fc scd kv kp m k : Nat) : Num :=
  let raw := if x.tfeed then rdElem t ((x.aline + k * x.astride) * 64) (fcWidth fc) m
    else rdElem t ((x.aline + m * x.astride) * 64) (fcWidth fc) k
  hopElem (fcDecode fc raw) (scdDir scd) (actScale t x scd kv kp m k)

/-- INVALID once for the NaN scales an activation operand uses (R67). -/
def actScaleFlags (t : Map Byte) (x : ADesc) (scd kv kp : Nat) : Fl :=
  flIf ((List.range x.m).any fun m => (List.range (kv + 1)).any fun k =>
    actScale t x scd kv kp m k == some none) flInvalid

/-! Column sums. -/

/-- INT32 wrap (R80). -/
def wrap32 (v : Int) : Int × Fl :=
  let u := sext 32 (Int.toNat (v % 2 ^ 32))
  (u, flIf (u != v) flIntWrap)

/-- A K-direction scale as a factor: 1 where there is none or where the elements are NaN already. -/
def scaleFactor (cross : Bool) (s : Option (Option Num)) : Num :=
  match s with
  | some (some v) => if cross then numPow2 0 else v
  | _ => numPow2 0

/-- The scaled segment sum added to the running column sum (R68). -/
def foldSegment (s seg : Nat) (sc : Num) : Nat × Fl :=
  let t := (f32Num seg).mul sc
  let r := toF32 t.1
  let u := f32AddNum s (f32Num r.1)
  (u.1, flJoin (flJoin t.2 r.2) u.2)

/-- A floating-point column (R68, R79, R80): exact products added in increasing k in FP32; with K-direction scales the
products of each segment are added from +0, scaled, and added to the column. `segOf k` names the segment, none: no
scales. (Log 44, DEDUCED). -/
def floatColumn (start kv : Nat) (xs ws : Nat → Num) (segOf : Option (Nat → Nat × Nat × Nat)) (sc : Nat → Num) :
    Nat × Fl :=
  match segOf with
  | none => (List.range (kv + 1)).foldl (fun (acc : Nat × Fl) k =>
      let p := (xs k).mul (ws k)
      let r := f32AddNum acc.1 p.1
      (r.1, flJoin acc.2 (flJoin p.2 r.2))) (start, flNone)
  | some seg =>
    let z := (List.range (kv + 1)).foldl (fun (acc : Nat × Nat × Fl) k =>
      let acc := if k != 0 && seg k != seg (k - 1) then
          let f := foldSegment acc.1 acc.2.1 (sc (k - 1))
          (f.1, 0, flJoin acc.2.2 f.2)
        else acc
      let p := (xs k).mul (ws k)
      let r := f32AddNum acc.2.1 p.1
      (acc.1, r.1, flJoin acc.2.2 (flJoin p.2 r.2))) (start, 0, flNone)
    let f := foldSegment z.1 z.2.1 (sc kv)
    (f.1, flJoin z.2.2 f.2)

/-- An integer column of MMA, MGA, MDIST.L1 or MDIST.L2 (R80, R101). -/
def intColumn (op : Nat) (start : Int) (kv : Nat) (xs ws : Nat → Int) : Int × Fl :=
  (List.range (kv + 1)).foldl (fun (acc : Int × Fl) k =>
    let x := xs k
    let w := ws k
    let t : Int :=
      if op = opMdistL1 then (((x - w).natAbs : Nat) : Int)
      else if op = opMdistL2 then (x - w) * (x - w)
      else x * w
    let r := wrap32 (acc.1 + t)
    (r.1, flJoin acc.2 r.2)) (start, flNone)

/-- An INT32 column of MMINPLUS or MMAXPLUS. -/
def intTropical (isMax : Bool) (start : Int) (kv : Nat) (xs ws : Nat → Int) : Int :=
  (List.range (kv + 1)).foldl (fun acc k => let v := xs k + ws k; if isMax then max acc v else min acc v) start

/-- A floating-point column of MMINPLUS or MMAXPLUS (R77). -/
def floatTropical (isMax : Bool) (start : Num) (kv : Nat) (xs ws : Nat → Num) : Num × Fl :=
  (List.range (kv + 1)).foldl (fun (acc : Num × Fl) k =>
    let a := (xs k).add (ws k)
    let r := toF32 a.1
    let m := maxMin isMax acc.1 (f32Num r.1)
    (m.1, flJoin acc.2 (flJoin (flJoin a.2 r.2) m.2))) (start, flNone)

/-- A column of MCMP (R78, R102). -/
def countColumn (pred : Nat) (start : Int) (kv : Nat) (xs ws : Nat → Num) : Int × Fl :=
  (List.range (kv + 1)).foldl (fun (acc : Int × Fl) k =>
    let p := predHolds pred (xs k) (ws k)
    let r := if p.1 then wrap32 (acc.1 + 1) else (acc.1, flNone)
    (r.1, flJoin acc.2 (flJoin p.2 r.2))) (start, flNone)

def numInt (x : Num) : Int := floorInt x

/-- The psum word of row m, column n (R154), or the operation's own starting value (R102). -/
def startInt (op : Nat) (t : Map Byte) (x : ADesc) (psum : Bool) (m n : Nat) : Int :=
  if psum then sext 32 (rdF32 t ((x.pline + m * x.pstride) * 64 + 4 * n))
  else if op = opMminplus then 0x7FFFFFFF else if op = opMmaxplus then -0x80000000 else 0

def startFloat (op : Nat) (t : Map Byte) (x : ADesc) (psum : Bool) (m n : Nat) : Nat :=
  if psum then rdF32 t ((x.pline + m * x.pstride) * 64 + 4 * n)
  else if op = opMminplus then 0x7F800000 else if op = opMmaxplus then 0xFF800000 else 0

/-- The segment of k: array pass, activation block, weight block (R68). -/
def segmentOf (ab wb : Nat) (k : Nat) : Nat × Nat × Nat :=
  (k / 128, if ab = 0 then 0 else k / ab, if wb = 0 then 0 else k / wb)

/-- Column n of output row m (R101): the value entering the tailrace or the accumulator, and its flags. -/
def columnOf (op : Nat) (w : BitVec 56) (x : ADesc) (p : Plane) (kp : Nat) (t : Map Byte) (m n : Nat) : Num × Fl :=
  let fc := mFC w
  let scd := mSCD w
  let psum := mPsum w
  let xs := actElem t x fc scd p.kv kp m
  let ws := fun k => planeElem p k n
  let xi := fun k => numInt (xs k)
  let wi := fun k => numInt (ws k)
  if op = opMcmp then
    let r := countColumn (mPred w) (startInt op t x psum m n) p.kv xs ws
    (numOfInt r.1, r.2)
  else if op = opMminplus ∨ op = opMmaxplus then
    if isArrayInt fc then (numOfInt (intTropical (op == opMmaxplus) (startInt op t x psum m n) p.kv xi wi), flNone)
    else floatTropical (op == opMmaxplus) (f32Num (startFloat op t x psum m n)) p.kv xs ws
  else if isArrayInt fc then
    let r := intColumn op (startInt op t x psum m n) p.kv xi wi
    (numOfInt r.1, r.2)
  else
    let pd := p.scd.toNat
    let ab := if scdEn scd && !scdDir scd then scdSize scd else 0
    let wb := if scdEn pd && !scdDir pd then scdSize pd else 0
    let seg := if ab = 0 ∧ wb = 0 then none else some (segmentOf ab wb)
    let sc := fun k => ((scaleFactor (scdDir scd) (actScale t x scd p.kv kp m k)).mul
      (scaleFactor (scdDir pd) (planeScale p k n))).1
    let r := floatColumn (startFloat op t x psum m n) p.kv xs ws seg sc
    (f32Num r.1, r.2)

/-- Every output row of a streaming instruction on one core, and its flags. -/
def streamRows (op : Nat) (w : BitVec 56) (d : List W64) (p : Plane) (t : Map Byte) : List (List Num) × Fl :=
  let x := aDesc d
  let kp := match rateClass (mFC w) p.fc with
    | some c => classKp c
    | none => 128
  let rows := (List.range x.m).map fun m => (List.range (p.nv + 1)).map fun n => columnOf op w x p kp t m n
  (rows.map fun r => r.map (·.1),
   rows.foldl (fun a r => r.foldl (fun a y => flJoin a y.2) a) (actScaleFlags t x (mSCD w) p.kv kp))

/-- MGA's add into one word of the gradient accumulator (R205): a word that an overflow has set keeps its infinity until it is
drained. (Log 153, DEDUCED). -/
def accumulateWord (x : CoreSt) (key : Nat) (y : Num) : CoreSt × Fl :=
  if mget zNat key x.accOver ≠ 0 then (x, flNone)
  else
    let s := f32AddNum (mget zNat key x.acc) y
    ({ x with acc := mset zNat key s.1 x.acc
              accOver := if s.2.bits &&& flOverflow.bits = 0 then x.accOver else mset zNat key 1 x.accOver }, s.2)

/-- MGA's adds into the gradient accumulator (R205). -/
def accumulate (x : CoreSt) (rows : List (List Num)) : CoreSt × Fl :=
  rows.zipIdx.foldl (fun (a : CoreSt × Fl) r => r.1.zipIdx.foldl (fun (a : CoreSt × Fl) y =>
    let s := accumulateWord a.1 (128 * r.2 + y.2) y.1
    (s.1, flJoin a.2 s.2)) a) (x, flNone)

/-! Tile memory traffic of the array (R97-R99, R140, R204). The manual fixes the steps of the tailrace's accesses and leaves
those of the reads open (R99): a psum row is read in the step its vector leaves the hoppers, and the lines of a weight block
spread evenly over the 128 steps of its load. -/

/-- The accesses to tile memory of one row at its own step t. -/
def rowAccesses (us : List RowUse) (t m : Nat) : List TileUse :=
  us.map fun u => spanUse (t + u.off) (u.base + m * u.pitch) u.len

/-- Lines of one row of activations: of a vector, or of one line index of all K rows when fed transposed. -/
def groupLines (r : StreamRun) : Nat := if r.tfeed then r.k else ceilDiv (r.k * r.width) 512

/-- The group of lines whose arrival completes vector m. -/
def groupOf (r : StreamRun) (m : Nat) : Nat := if r.tfeed then ((m + 1) * r.width - 1) / 512 else m

/-- Groups the stream reads. -/
def groupCount (r : StreamRun) : Nat := if r.tfeed then ceilDiv (r.m * r.width) 512 else r.m

/-- The lines the fill engine reads, in order (R204). -/
def fillLines (r : StreamRun) : List Nat :=
  (List.range (groupCount r)).flatMap fun g => (List.range (groupLines r)).map fun j =>
    if r.tfeed then r.line + j * r.stride + g else r.line + g * r.stride + j

/-- Lines read at most while vector m is the next to leave: 64 vectors ahead of it (R97), or the next line of every row. -/
def fillLimit (r : StreamRun) (m : Nat) : Nat :=
  groupLines r * min (groupCount r) (if r.tfeed then groupOf r m + 2 else m + 65)

/-- Lines the fill engine can read in a step: what the array takes, and two at least (R204). -/
def fillWidth (r : StreamRun) : Nat := max 2 (ceilDiv (ceilDiv (r.k * r.width) 512) r.v)

/-- Reads up to `w` lines whose banks are free; a transposed fill whose rows share one bank has that in its pace (R204). -/
def fetchLines (same : Bool) : Nat → List Nat → List Nat → Nat × List Nat
  | 0, _, ls => (0, ls)
  | _, _, [] => (0, [])
  | w + 1, taken, a :: ls =>
    if taken.contains (bankOf a) then (0, a :: ls)
    else
      let y := fetchLines same w (if same then taken else bankOf a :: taken) ls
      (y.1 + 1, y.2)

/-- The steps at which the vectors leave the hoppers from vector m on: t the step, `nt` the first that R92 and R204 allow, f
lines read, `uses` the accesses of requesters 1-3, the stream's own among them once their row's vector has left. -/
def leaveSteps (r : StreamRun) : Nat → Nat → Nat → Nat → Nat → List TileUse → List Nat → List Nat
  | 0, _, _, _, _, _, _ => []
  | fuel + 1, t, nt, m, f, uses, ls =>
    if r.m ≤ m then []
    else
      let out := decide (nt ≤ t) && decide (groupLines r * (groupOf r m + 1) ≤ f)
      let uses := usesFrom t (if out then rowAccesses r.psum t m ++ rowAccesses r.rows (t + 255 + r.v) m ++ uses else uses)
      let y := fetchLines (r.tfeed && r.stride % 32 == 0) (min (fillWidth r) (fillLimit r m - f)) (banksTaken uses t) ls
      if out then t :: leaveSteps r fuel (t + 1) (t + r.pace) (m + 1) (f + y.1) uses y.2
      else leaveSteps r fuel (t + 1) nt m (f + y.1) uses y.2

/-- The steps at which a stream's vectors leave the hoppers (R92, R97, R204), while other instructions make the accesses
`uses`; when vector 0 leaves, the fill engine is as far ahead as it may be. -/
def streamSteps (uses : List TileUse) (r : StreamRun) : List Nat :=
  let ls := fillLines r
  let f := if r.tfeed then fillLimit r 0 else groupLines r * min 64 r.m
  leaveSteps r (r.pace * r.m + ls.length + useSteps uses + r.m * (r.psum.length + r.rows.length) + 1) r.start r.start 0 f
    uses (ls.drop f)

/-- The step of the last vector. -/
def lastStep (r : StreamRun) (steps : List Nat) : Nat := steps.getLast?.getD r.start

/-- The accesses of a stream whose vectors leave at the steps given. -/
def ownUses (r : StreamRun) (steps : List Nat) : List TileUse :=
  steps.zipIdx.flatMap fun (t, m) => rowAccesses r.psum t m ++ rowAccesses r.rows (t + 255 + r.v) m

/-- What each row of a pass over n lanes accesses from its entry into the tailrace on (R92, R138, R140, R141, R209). -/
def trUses (d : List W64) (n : Nat) : List RowUse :=
  [⟨8, trDline d * 64, trDstride d * 64, ceilDiv (n * fcWidth (trDfmt d)) 8⟩] ++
  (if bit (trBias d) 1 then [⟨0, trEline d * 64, trEstride d * 64, 4 * n⟩] else []) ++
  (if trMask d = 0 then [] else [⟨if trMask d = 1 then 8 else 0, trMline d * 64, 16, 16⟩]) ++
  (if scdEn (trScd d) then [⟨8, trSline d * 64, 128 / scdSize (trScd d), ceilDiv n (scdSize (trScd d))⟩] else [])

/-- The reads of a_n and b_n in the 8 steps before the first row enters, at step e0 (R140). -/
def trFirst (d : List W64) (e0 : Nat) : List TileUse :=
  let lo := if trScale d = 2 then 0 else 512
  let n := ((if bit (trBias d) 0 then 1024 else 512) - lo) / 8
  if n = 0 then [] else (List.range 8).map fun j => spanUse (e0 + j - 8) (trVline d * 64 + lo + n * j) n

/-- The lines of a weight block with its codebook and scales (R100, R105, R269). -/
def weightLines (d : WDesc) (scd : Nat) : List Nat :=
  let region (a n : Nat) : List Nat := let u := spanUse 0 a n; (List.range u.n).map fun i => u.line + i
  let rows (n pitch len : Nat) : List Nat := (List.range n).flatMap fun i => region (d.base + i * pitch) len
  let sr := wScaleRows scd d.kv
  (if d.fmt = 0xA then region d.cbbase 64 ++ rows (d.kv / 64 + 1) (d.stride * 64) 2240
   else if d.cmp then region d.base (cmpBytes (fcWidth d.fmt == 16) 3 (if d.trans then d.nv else d.kv))
   else if d.trans then rows (d.nv + 1) (d.stride * 64) (ceilDiv ((d.kv + 1) * fcWidth d.fmt) 8)
   else rows (d.kv + 1) (d.stride * 64) (ceilDiv ((d.nv + 1) * fcWidth d.fmt) 8)) ++
  (if scdEn scd && d.fmt != 0xA then region d.sbase (sr.1 * sr.2) else [])

/-- The reads of an MLW whose load starts at step t. -/
def loadUses (d : WDesc) (scd t : Nat) : List TileUse :=
  let ls := weightLines d scd
  ls.zipIdx.map fun (a, i) => ⟨t + 128 * i / ls.length, 1, a, 1⟩

/-! Issue. -/

/-- Generator of a core's tailrace: as kept, or at its value of R75. -/
def genTOf (s : State) (l r c : Nat) (x : CoreSt) : W64 := x.genT.getD (genSeed (seqCtl s l).seed 1 r c)

/-- The rows of one core through the tailrace, flags collected (R136). -/
def tailOn (s : State) (l : Nat) (p : Nat × Nat) (x : CoreSt) (tr : List W64) (n : Nat) (rows : List (List Num))
    (fl : Fl) : State :=
  let slot := slotOf s p.1 p.2
  let r := trPass x tr (genTOf s l p.1 p.2 x) n rows
  addFlags (setCore s slot { r.1 with genT := some r.2.1 }) slot (flJoin fl r.2.2)

/-- A user table load dispatched before entry id has not ended: the array instruction waits (R143). -/
def awaitsTable (c : Ctl) (id now : Nat) : Bool :=
  (c.qT.any fun e => decide (e.id < id) && e.op == 0x80 && trTload e.ps && (trCheck e.w e.ps).isNone) ||
    c.flights.any fun f => f.q == 4 && f.op == 0x80 && decide (f.id < id) && decide (now < f.due)

/-- The active plane every core of the gang holds, by its first core. -/
def gangPlane (s : State) (l : Nat) : Plane := (getCore s (slotOf s l 0)).active

/-- Issues the head of the matrix queue if it is `op` and `may` lets it: refused where `check` says so, otherwise `f`. -/
def mIssue (s : State) (l : BitVec 6) (op : Nat) (check : State → QEntry → Option (BitVec 8))
    (may : Ctl → QEntry → Bool) (f : State → QEntry → State) : State :=
  let u : Proc := .seq l
  let c := getCtl s u
  match headOf s u 1 op with
  | .ready e =>
    if awaitsTable c e.id (stepNow s l.toNat) then s
    else match (mWordCheck op e.w).orElse (fun _ => check s e) with
      | some code => issueHead s u 1 op fun s e => refuseEntry s u e 1 code
      | none => if may c e then issueHead s u 1 op f else s
  | .fault _ => issueHead s u 1 op f
  | _ => s

def setArr (s : State) (l : Nat) (f : ArrayClock → ArrayClock) : State :=
  updSeq s l fun c => replan { c with arr := f c.arr }

/-- Adds accesses to tile memory from step `now` on. The stream under way gives way to them (R98): what still leaves the
hoppers does so anew, its waits count in HOPPER_STALL (R97), and what hangs on its last vector moves with it. -/
def addUses (s : State) (l now : Nat) (us : List TileUse) : State :=
  let a := (seqCtl s l).arr
  let uses := usesFrom now a.uses ++ us
  match a.run with
  | none => setArr s l fun a => { a with uses := uses }
  | some r =>
    let steps := streamSteps uses r
    let d := lastStep r steps - r.last
    let s := (gangCores s l).foldl (fun s p => bumpF s F.CORE_ARRAY_STAT_HOPPER_STALL (slotOf s p.1 p.2) d) s
    let s := updSeq s l fun c =>
      { c with flights := c.flights.map fun f => if f.id = r.id ∧ f.q = 1 then { f with due := f.due + d } else f }
    setArr s l fun a => { a with
      slot := a.slot + d, rows := a.rows + d, adds := if r.mga then a.adds + d else a.adds,
      run := some { r with last := r.last + d }, own := usesFrom now (ownUses r steps), uses := uses }

/-- Makes a stream the one under way, with accesses that do not move with it; those of the one before it stay. -/
def beginRun (a : ArrayClock) (now : Nat) (edges : List TileUse) (r : StreamRun) (steps : List Nat) : ArrayClock :=
  { a with uses := usesFrom now (arrUses a) ++ edges, run := some { r with last := lastStep r steps }, own := ownUses r steps }

/-- MLW (R94, R100): every core loads its shadow plane from its own tile memory. -/
def execMlw (l : BitVec 6) (s : State) : Out :=
  let ln := l.toNat
  let now := stepNow s ln
  .next (mIssue s l opMlw
    (fun s e =>
      let d := wDesc e.ps
      (mlwCheck e.w e.ps).orElse fun _ =>
        if d.cmp && !((gangCores s ln).all fun p => cmpFits (getCore s (slotOf s p.1 p.2)) d) then some rcTileBounds
        else none)
    (fun c _ => (c.arr.msw.all fun t => decide (t ≤ now)) && c.arr.mlw.all fun t => decide (t + 128 ≤ now))
    (fun s e =>
      let s := (gangCores s ln).foldl (fun s p =>
        let slot := slotOf s p.1 p.2
        let x := getCore s slot
        let r := loadPlane x (wDesc e.ps) (mSCD e.w)
        addFlags (setCore s slot { x with shadow := r.1 }) slot r.2) s
      let s := addUses s ln now (loadUses (wDesc e.ps) (mSCD e.w) now)
      launch (setArr s ln fun a => { a with mlw := some now }) (.seq l) e 1 (now + 254) 0 0))

/-- MSW (R94, R95): the planes are exchanged for every vector issued from now on. -/
def execMsw (l : BitVec 6) (s : State) : Out :=
  let ln := l.toNat
  let now := stepNow s ln
  .next (mIssue s l opMsw (fun _ _ => none)
    (fun c _ => (c.arr.mlw.all fun t => decide (t + 128 ≤ now)) && decide (c.arr.slot ≤ now))
    (fun s e =>
      let s := (gangCores s ln).foldl (fun s p =>
        updPlace s p.1 p.2 fun x => { x with active := x.shadow, shadow := x.active }) s
      launch (setArr s ln fun a => { a with msw := some now }) (.seq l) e 1 (now + 254) 0 0))

/-- Steps per vector of a streaming instruction, waits apart (R92, R204): a transposed feed whose rows share one bank takes
two. (Log 43, DEDUCED). -/
def streamPace (cls : RateClass) (x : ADesc) : Nat :=
  if x.tfeed ∧ x.astride % 32 = 0 then 2 else classV cls

/-- The 16-bit entries the 128 hoppers hold for vector m (R97): one element, or in class N the pair of elements of a K row
and the next. -/
def hopperEntry (t : Map Byte) (x : ADesc) (fc kv m : Nat) (cls : RateClass) : List Nat :=
  let el (k : Nat) : Nat := if kv < k then 0
    else if x.tfeed then rdElem t ((x.aline + k * x.astride) * 64) (fcWidth fc) m
    else rdElem t ((x.aline + m * x.astride) * 64) (fcWidth fc) k
  (List.range 128).map fun i => match cls with
    | .n => el (2 * i) + 2 ^ 8 * el (2 * i + 1)
    | _ => el i

/-- The hoppers' part of an issued stream: the entries of its last 64 vectors, at most, with the steps they leave at. -/
def hopperFill (t : Map Byte) (x : ADesc) (fc kv : Nat) (cls : RateClass) (steps : List Nat) : List (Nat × List Nat) :=
  (steps.zipIdx.drop (steps.length - 64)).map fun (a, m) => (a, hopperEntry t x fc kv m cls)

/-- The stream an array instruction starts at step `now`. -/
def streamRun (op : Nat) (e : QEntry) (p : Plane) (cls : RateClass) (tr : List W64) (now : Nat) : StreamRun :=
  let x := aDesc e.ps
  { id := e.id, mga := op == opMga, start := now, m := x.m, pace := streamPace cls x, v := classV cls, line := x.aline,
    stride := x.astride, k := p.kv + 1, width := fcWidth (mFC e.w), tfeed := x.tfeed,
    psum := if mPsum e.w then [⟨0, x.pline * 64, x.pstride * 64, 4 * (p.nv + 1)⟩] else [],
    rows := if op = opMga then [] else trUses tr (p.nv + 1), last := now }

/-- A streaming instruction on every core of the gang: its rows go to the tailrace or, for MGA, to the accumulator, and the
steps its vectors wait for the hoppers count in HOPPER_STALL (R92, R97, R101, R114, R204, R205). -/
def stream (s : State) (l : BitVec 6) (op : Nat) : State :=
  let ln := l.toNat
  let now := stepNow s ln
  let trOf (s : State) (e : QEntry) := trInForce (seqCtl s ln) e.id
  let planeOf (s : State) (e : QEntry) := planeFor (gangPlane s ln) (mFC e.w)
  let clsOf (s : State) (e : QEntry) := (rateClass (mFC e.w) (planeOf s e).fc).getD .b
  let entry (s : State) (e : QEntry) := now + 255 + classV (clsOf s e)
  mIssue s l op
    (fun s e => mmaCheck op e.w e.ps (gangPlane s ln) (trOf s e))
    (fun c e => decide (c.arr.slot ≤ now) && decide (c.arr.rows ≤ entry s e))
    (fun s e =>
      let x := aDesc e.ps
      let cls := clsOf s e
      let tr := trOf s e
      let run := streamRun op e (planeOf s e) cls tr now
      let edges := if op = opMga then [] else trFirst tr (entry s e)
      let steps := streamSteps (arrUses (seqCtl s ln).arr ++ edges) run
      let last := lastStep run steps
      let s := (gangCores s ln).foldl (fun s p =>
        let slot := slotOf s p.1 p.2
        let core := getCore s slot
        let plane := planeFor core.active (mFC e.w)
        let r := streamRows op e.w e.ps plane core.tile
        let core := { core with hop := hopperFill core.tile x (mFC e.w) plane.kv cls steps }
        let s := bumpF s F.CORE_ARRAY_STAT_HOPPER_STALL slot (last + run.pace - now - classV cls * x.m)
        if op = opMga then
          let a := accumulate core r.1
          addFlags (setCore s slot a.1) slot (flJoin r.2 a.2)
        else tailOn s ln p core tr (plane.nv + 1) r.1 r.2) s
      let s := setArr s ln fun a => { beginRun a now edges run steps with
        slot := last + run.pace, rows := last + 256 + classV cls,
        adds := if op = opMga then max a.adds (last + 264 + classV cls - (x.m - 1)) else a.adds }
      launch s (.seq l) e 1 (last + 263 + classV cls) 0 0)

def execMma (l : BitVec 6) (s : State) : Out := .next (stream s l opMma)
def execMga (l : BitVec 6) (s : State) : Out := .next (stream s l opMga)
def execMdistL1 (l : BitVec 6) (s : State) : Out := .next (stream s l opMdistL1)
def execMdistL2 (l : BitVec 6) (s : State) : Out := .next (stream s l opMdistL2)
def execMminplus (l : BitVec 6) (s : State) : Out := .next (stream s l opMminplus)
def execMmaxplus (l : BitVec 6) (s : State) : Out := .next (stream s l opMmaxplus)
def execMcmp (l : BitVec 6) (s : State) : Out := .next (stream s l opMcmp)

/-- MGD (R114, R206): the accumulator's 128 rows go through the tailrace, each row +0 once read. -/
def execMgd (l : BitVec 6) (s : State) : Out :=
  let ln := l.toNat
  let now := stepNow s ln
  .next (mIssue s l opMgd
    (fun s e => trPassCheck (trInForce (seqCtl s ln) e.id) 128 128 [])
    (fun _ _ => true)
    (fun s e =>
      let c := seqCtl s ln
      let tr := trInForce c e.id
      let e0 := max now (max c.arr.rows c.arr.adds)
      let s := (gangCores s ln).foldl (fun s p =>
        let x := getCore s (slotOf s p.1 p.2)
        let rows := (List.range 128).map fun m => (List.range 128).map fun n => f32Num (mget zNat (128 * m + n) x.acc)
        tailOn s ln p { x with acc := [], accOver := [] } tr 128 rows flNone) s
      let s := addUses s ln now (trFirst tr e0 ++ (List.range 128).flatMap fun m => rowAccesses (trUses tr 128) (e0 + m) m)
      launch (setArr s ln fun a => { a with rows := e0 + 128 }) (.seq l) e 1 (e0 + 135) 0 0))

end Sys2Proof.Machine
end

