-- ==== Sys2Proof/Machine/Queue.lean ====
section
/-! DEFINITION. Dispatch into the engine queues and completion of what they issued (R149, R160, R161, R178, R179). -/

namespace Sys2Proof.Machine

/-- The entry a dispatch makes: the scalar operands and descriptor words are read now (R149). VLD, VST take sA from
VA; BS takes a scalar from VB; descriptors are p registers of a core stream, s registers otherwise (R258). -/
def makeEntry (s : State) (u : Proc) (op : BitVec 8) (w : BitVec 56) : QEntry :=
  let c := getCtl s u
  let pr := bits w.toNat 35 30
  let ps := (List.range 6).map fun i =>
    match u with
    | .seq _ => preg s u (pr + i)
    | _ => if pr + i < 32 then sreg c (pr + i) else 0
  ⟨c.nextId, op, w, sreg c (bits w.toNat 25 21), sreg c (bits w.toNat 20 16), ps, c.pc, procStep s u⟩

/-- Groups of R150: 1 sequencer control, 2 scalar, 3 array, vector and TRCFG, 4 hoist, 5 control subset, 6 that of row
control cores only, 7 WAIT.T and SIG.T; 0 for an opcode not listed. -/
def opGroup (op : Nat) : Nat :=
  if op ≤ 0x07 then 1
  else if op ≤ 0x09 then 7
  else if 0x10 ≤ op ∧ op ≤ 0x19 then 2
  else if (0x20 ≤ op ∧ op ≤ 0x2A) ∨ (0x40 ≤ op ∧ op ≤ 0x54) ∨ op = 0x80 then 3
  else if 0x90 ≤ op ∧ op ≤ 0x93 then 4
  else if (0xA0 ≤ op ∧ op ≤ 0xA4) ∨ (0xA8 ≤ op ∧ op ≤ 0xAF) then 5
  else if 0xB0 ≤ op ∧ op ≤ 0xB2 then 6
  else 0

/-- Program target of a stream (R146). -/
def targetOf : Proc → Nat
  | .seq _ => 0
  | .rcc _ => 1
  | .node .. => 2

/-- Is a group allowed for a target (R146)? -/
def groupAllowed (target g : Nat) : Bool :=
  match target with
  | 0 => [1, 2, 3, 4, 7].contains g
  | 1 => [2, 4, 5, 6, 7].contains g
  | _ => [2, 4, 5, 7].contains g

/-- The WAIT.T that the loader inserted before the hoist at pc, if it is not over: its token (R168). -/
def insertedWait (s : State) (u : Proc) : Option Nat :=
  let c := getCtl s u
  if c.passed then none else mfind c.pc (progOf s u).waits

/-- An inserted WAIT.T: it holds its stream, in bubbles, until the counter is 0, and takes one step (R163, R167, R168). -/
def waitInserted (s : State) (u : Proc) (t : Nat) : State :=
  if (getTok (getCtl s u) t).count ≠ 0 then
    match u with
    | .seq l => bubbleStep s l.toNat .token
    | _ => s
  else spend (updCtl s u fun c => { c with passed := true }) u 1

/-- The word of a hoist that signals no token, with the one the loader assigned to it (R168). -/
def assignToken (s : State) (u : Proc) (w : BitVec 56) : BitVec 56 :=
  match mfind (getCtl s u).pc (progOf s u).toks with
  | some t => if bit w.toNat 20 then w else w ||| BitVec.ofNat 56 (2 ^ 20 + t % 256 * 2 ^ 12)
  | none => w

/-- Places an instruction in queue q of its stream and counts its TOUT (R160, R161). -/
def placeEntry (s : State) (u : Proc) (q : Nat) (op : BitVec 8) (w : BitVec 56) : State :=
  let c := getCtl s u
  let e := makeEntry s u op w
  let c := pushEntry (match u with
    | .seq _ => bringInForce c e
    | _ => c) q e
  let c := match toutOf op.toNat w with
    | some t => let k := getTok c t.toNat; setTok c t.toNat { k with count := k.count + 1 }
    | none => c
  advance (retire (setCtl s u { c with passed := false }) u 1) u

/-- QUEUE_DISPATCH (R160, R161, R168, R178): one instruction into its queue in one step, TOUT incremented; a full queue
gives a bubble instead. An opcode of no queue is refused: BAD_OPCODE where R150 does not list it, QUEUE_CLASS where its
group is not allowed for the stream's target (R146). A listed opcode of no queue that the stream may hold is a command
of its own. (Log 20, DEDUCED). -/
def execQueueDispatch (u : Proc) (op : BitVec 8) (w : BitVec 56) (s : State) : Out :=
  let q := queueOf op.toNat
  let g := opGroup op.toNat
  .next (
    if !canExec s u then s
    else if staleWord s u then refuseNext s u rcTranslation
    else if g = 0 then refuseNext s u rcBadOpcode
    else if !groupAllowed (targetOf u) g then refuseNext s u rcQueueClass
    else if q = 0 then s
    else match insertedWait s u with
      | some t => waitInserted s u t
      | none =>
        if queueFull (getCtl s u) q then
          match u with
          | .seq l => bubbleStep s l.toNat .queueFull
          | _ => s
        else placeEntry s u q op (if q = 3 then assignToken s u w else w))

/-- Cores that must report an instruction of a stream complete: every core of the gang, or the one stream (R161). -/
def reporters (s : State) (u : Proc) : Nat :=
  match u with
  | .seq l => 64 * (gangRows s l.toNat).length
  | _ => 1

/-- A completed hoist instruction of a node core counts in HOIST_STAT.DONE of its engine (R499). -/
def countDone (s : State) (u : Proc) (q : Nat) : State :=
  match u with
  | .node h c => if q = 3 then bumpF s F.HOIST_STAT_DONE h.toNat 1 c.toNat else s
  | _ => s

/-- INSTRUCTION_COMPLETE (R179): core `who` (none: every core) reports flight `id`. It can report from the step its
last result is written, once nothing it waits for is outstanding. The last report makes the instruction complete and
fixes the step of its token decrement; one without a token leaves the flights. -/
def execInstructionComplete (u : Proc) (id : Nat) (who : Option (BitVec 12)) (err : BitVec 8) (s : State) : Out :=
  .next (
    let c := getCtl s u
    match c.flights.find? fun f => f.id == id && !f.reported && f.op != 0x09 with
    | none => s
    | some f =>
      if (issueLive s u && decide (procStep s u < f.due)) || f.waitOn != 0 ||
          (c.vexc.any fun v => v.entry.id == id) then s
      else
        let got := match who with
          | none => f.got
          | some x => if f.got.contains x then f.got else f.got ++ [x]
        let all := who.isNone || decide (reporters s u ≤ got.length)
        let f' := { f with got := got, err := if f.err = 0 then err else f.err, reported := all,
                           decAt := procStep s u + decDelay s u }
        let fs := if all && f.tok.isNone then c.flights.filter fun g => g.id != id
          else c.flights.map fun g => if g.id = id then f' else g
        let s := setCtl s u { c with flights := fs }
        advance (reportSigs (if all then countDone s u f.q else s) u) u)

/-- TOKEN_DECREMENT (R161, R162, R179): once its step has come, the completed instruction's token falls by one and
takes its error; a gang that no longer runs does not count steps. -/
def execTokenDecrement (u : Proc) (id : Nat) (s : State) : Out :=
  .next (
    let c := getCtl s u
    match c.flights.find? fun f => f.id == id && f.reported with
    | none => s
    | some f =>
      if issueLive s u ∧ procStep s u < f.decAt then s
      else
        let c := { c with flights := c.flights.filter fun g => g.id != id }
        let c := match f.tok with
          | some t => tokDec c t f.err
          | none => c
        advance (setCtl s u c) u)

end Sys2Proof.Machine
end

