-- ==== Sys2Proof/Machine/Base.lean ====
section
/-! DEFINITION. What the units of a half share: half and domain states (R21, R455), hall time, events (R388, R389),
units, incarnations and error records (R411-R415, R421, R423), epochs of remote sources. -/

namespace Sys2Proof.Machine

/-! Halves and domains. -/

def hsOff : Nat := 0
def hsBoot : Nat := 1
def hsLoaded : Nat := 2
def hsRunning : Nat := 3
def hsDraining : Nat := 4
def hsService : Nat := 5

/-- DEV_HALFh.STATE (R21, R424). -/
def halfState (s : State) (h : Nat) : Nat := getF s F.DEV_HALF_STATE 0 h
def isFatal (s : State) (h : Nat) : Bool := getF s F.DEV_HALF_FATAL 0 h == 1
def halfRunning (s : State) (h : Nat) : Bool := halfState s h == hsRunning && !isFatal s h

/-- Is domain n on (R455, PWR_DOMSTAT)? -/
def domainOn (s : State) (n : Nat) : Bool := bit (reg s .pwrDomstat 0 (n / 64)).toNat (n % 64)

def setDomain (s : State) (n : Nat) (on : Bool) : State :=
  setReg s .pwrDomstat 0 (n / 64) (setBits (reg s .pwrDomstat 0 (n / 64)) (n % 64) (n % 64) (if on then 1 else 0))

/-- Domain numbers of R455. -/
def domRow (r : Nat) : Nat := 13 * (r / 8) + r % 8
def domSpare (d : Nat) : Nat := 104 + d
def domStack (k : Nat) : Nat := 112 + k
def domOptic (i : Nat) : Nat := 144 + i
def domCtl (h k : Nat) : Nat := 162 + 4 * h + k
def domSwitch (h k : Nat) : Nat := 170 + 2 * h + k
def domSeam (b : Nat) : Nat := 174 + b
def domTrust (h : Nat) : Nat := 176 + h
def domTime (h : Nat) : Nat := 178 + h

/-- The half whose units domain n feeds; none for a seam bridge (R13, R455). -/
def domHalf (n : Nat) : Option Nat :=
  if n < 104 then some (n / 52)
  else if n < 112 then some ((n - 104) / 4)
  else if n < 144 then some ((n - 112) / 16)
  else if n < 162 then some ((n - 144) / 9)
  else if n < 170 then some ((n - 162) / 4)
  else if n < 174 then some ((n - 170) / 2)
  else if n < 176 then none
  else some ((n - 176) % 2)

/-- Row and physical slot of a global slot. -/
def slotRow (p : Nat) : Nat := 8 * (p / 544) + p % 544 / 68

/-- Does the row's column map name the slot (R177)? -/
def slotNamed (s : State) (p : Nat) : Bool :=
  (List.range 64).any fun c => slotOf s (slotRow p) c == p

/-- The domain a slot draws from (R456). -/
def domSlot (s : State) (p : Nat) : Nat :=
  if p % 68 < 64 ∨ slotNamed s p then domRow (slotRow p) else domSpare (p / 544)

def hallTime (s : State) (h : Nat) : Nat := (reg s .tbHall h 0).toNat

/-! Byte strings and draws of the trust die (R443). -/

/-- The 64 bytes of a digest, first byte first. -/
def digestBytes (d : BitVec 512) : List Byte := (List.range 64).map fun j => BitVec.ofNat 8 (d.toNat / 256 ^ (63 - j))

/-- Little-endian words of bytes, the last one padded with zeros. -/
def wordsOf (bs : List Byte) : List W64 :=
  (List.range (ceilDiv bs.length 8)).map fun i => BitVec.ofNat 64 (ofBytes ((bs.drop (8 * i)).take 8))

/-- SHA-512 as the bytes a window shows. (Log 9, PRESUMED). -/
def sha (bs : List Byte) : List Byte := digestBytes (Config.sha512 bs)

/-- HMAC-SHA-512. -/
def hmac (key msg : List Byte) : List Byte :=
  let k := if 128 < key.length then sha key else key
  let pad (b : Byte) : List Byte := (k ++ List.replicate (128 - k.length) 0).map (· ^^^ b)
  sha (pad 0x5C ++ sha (pad 0x36 ++ msg))

/-- Blocks T(i), T(i+1), … of HKDF-Expand. -/
def hkdfBlocks (prk info : List Byte) : Nat → Nat → List Byte → List Byte
  | 0, _, _ => []
  | n + 1, i, last =>
    let t := hmac prk (last ++ info ++ [BitVec.ofNat 8 i])
    t ++ hkdfBlocks prk info n (i + 1) t

/-- HKDF-SHA-512 (RFC 5869): n bytes. -/
def hkdf (salt ikm info : List Byte) (n : Nat) : List Byte :=
  let salt := if salt.isEmpty then List.replicate 64 0 else salt
  (hkdfBlocks (hmac salt ikm) info (ceilDiv n 64) 1 []).take n

/-- The bytes of an ASCII string. -/
def ascii (t : String) : List Byte := t.toList.map fun c => BitVec.ofNat 8 c.toNat

/-- A direction's AES-256-GCM key (R375). -/
def directionKey (salt z : List Byte) (info : String) : BitVec 256 := BitVec.ofNat 256 (ofBytes (hkdf salt z (ascii info) 32))

/-- The number of points of P-521 (NIST SP 800-186). -/
def p521Order : Nat :=
  0x1FFFFFFFFFFFFFFFFFFFFFFFFFFFFFFFFFFFFFFFFFFFFFFFFFFFFFFFFFFFFFFFFFFFA51868783BF2F966B7FCC0148F709A5D03BB5C9B8899C47AEBB6FB71E91386409

/-- The identity private key of half h, the same at every boot (R430). -/
def idPrivate (h : Nat) : Nat :=
  let c := hkdf [] (Config.pufValue h ++ Config.fuseSeed h) (ascii (if h = 0 then "ghecon id h0" else "ghecon id h1")) 80
  c.foldl (fun a b => 256 * a + b.toNat) 0 % (p521Order - 1) + 1

/-- Its public key. -/
def idPub (h : Nat) : List Byte := Config.publicKey (idPrivate h)

/-- The next output of half h's DRBG; outputs differ from boot to boot. -/
def draw (s : State) (h : Nat) : BitVec 512 × State :=
  let x := (half s h).sec
  (Config.drbg h (s.boots * 2 ^ 64 + x.draws),
   updHalf s h fun y => { y with sec := { y.sec with draws := x.draws + 1, requests := x.requests + 1 } })

/-- Writes words into consecutive words of a register from word k. -/
def setWords (s : State) (r : Reg) (i k : Nat) (ws : List W64) : State :=
  (ws.zipIdx k).foldl (fun s e => setReg s r i e.2 e.1) s

/-- Bytes of n consecutive words of a register from word k. -/
def regBytes (s : State) (r : Reg) (i k n : Nat) : List Byte := wordBytes ((rangeFrom k n).map fun j => reg s r i j)

/-! Events (R388, R389). A half whose events are forwarded raises them on the other half's link (R391). -/

def evSolver : Nat := 1
def evColl : Nat := 2
def evCkp : Nat := 3
def evTime : Nat := 4
def evHalf : Nat := 5
def evError : Nat := 6
def evPost : Nat := 7
def evLostSrc : Nat := 8
def evLink : Nat := 9

/-- The link that carries half h's events. -/
def evCarrier (s : State) (h : Nat) : Nat := if (half s h).lom.fwd then 1 - h else h

/-- An event of half h, unless masked: numbered by the link that carries it and kept until EVACK; with 4,096 kept it is
discarded and counted. (Log 109, DEDUCED). -/
def raiseEvent (s : State) (h src code : Nat) (payload : List W64) : State :=
  if bit (getF s F.LOM_CFG_EVMASK h) src then
    updHalf s (evCarrier s h) fun x =>
      let l := x.lom
      let q := (l.evSeq + 1) % 2 ^ 32
      if 4096 ≤ l.events.length then { x with lom := { l with evSeq := q, evLost := l.evLost + 1 } }
      else { x with lom := { l with
        evSeq := q, events := l.events ++ [⟨q, src, h, code, reg s .tbHall h 0, payload, false⟩] } }
  else s

/-- An event of half h to its node software. -/
def tellNode (s : State) (h src code : Nat) (payload : List W64) : State :=
  updHalf s h fun x => { x with nodeEvents := x.nodeEvents ++ [(src, code, payload)] }

/-- A change of a half's state and its event (R21, R388). -/
def setHalfState (s : State) (h v : Nat) : State :=
  raiseEvent (putF s F.DEV_HALF_STATE 0 v h) h evHalf v []

/-! Units (R411, R421, R422). -/

def utSlot : Nat := 0x01
def utRow : Nat := 0x02
def utGang : Nat := 0x03
def utDlink : Nat := 0x04
def utChan : Nat := 0x05
def utBase : Nat := 0x06
def utOptic : Nat := 0x07
def utBridge : Nat := 0x08
def utNode : Nat := 0x09
def utEngine : Nat := 0x0A
def utDie : Nat := 0x0B
def utRemote : Nat := 0x0C
def utHalf : Nat := 0x0D

def unitKey (ut ui : Nat) : Nat := 65536 * ut + ui

/-- Is there such a unit? -/
def unitExists (ut ui : Nat) : Bool :=
  match ut with
  | 0x01 => ui < 4352 | 0x02 => ui < 64 | 0x03 => ui < 64 | 0x04 => ui < 128 && ui % 16 < 4 | 0x05 => ui < 1024
  | 0x06 => ui < 32 | 0x07 => ui < 18 | 0x08 => ui < 2 | 0x09 => ui < 48 | 0x0A => ui < 2 || (16 ≤ ui && ui < 32)
  | 0x0B => ui / 64 < 4 && ui % 64 < 2 || ui / 64 == 4 && ui % 64 < 32
  | 0x0D => ui < 2
  | _ => false

/-- The half that keeps a unit's entry. The bridges belong to neither half; their entries stand in half 0's table and
half 1 reads the same (R13, R422). (Log 123, DEDUCED). -/
def unitHalf (ut ui : Nat) : Nat :=
  match ut with
  | 0x01 => ui / 2176 | 0x02 | 0x03 => ui / 32 | 0x04 => ui / 64 | 0x05 => ui / 512 | 0x06 => ui / 16 | 0x07 => ui / 9
  | 0x09 => ui / 24 | 0x0A => if ui < 16 then ui else (ui - 16) / 8
  | 0x0B => if ui / 64 = 4 then ui % 64 / 16 else ui % 64
  | 0x0D => ui
  | _ => 0

/-- Does a targeted test exist for the type (R417)? -/
def hasTest (ut : Nat) : Bool := [1, 2, 4, 5, 6, 7, 8, 9, 10].contains ut

/-- A unit after load: spare slots SPARE, everything else IN_SERVICE, incarnation 1 (R421, R422). -/
def unitDefault (key : Nat) : UnitSt :=
  { st := if key / 65536 = 1 ∧ 64 ≤ key % 65536 % 68 then 1 else 0, back := 0, pending := false, heard := 0,
    corrected := 0, inc := 1, trans := [], causes := [], admission := false }

def getUnit (s : State) (ut ui : Nat) : UnitSt := mget unitDefault (unitKey ut ui) (half s (unitHalf ut ui)).units

def setUnit (s : State) (ut ui : Nat) (u : UnitSt) : State :=
  updHalf s (unitHalf ut ui) fun x => { x with units := mset unitDefault (unitKey ut ui) u x.units }

def updUnit (s : State) (ut ui : Nat) (f : UnitSt → UnitSt) : State := setUnit s ut ui (f (getUnit s ut ui))

/-- The incarnation a record carries: the unit's own, LEAT_CFG.INC for a half, 0 for a type that has none (R421). -/
def unitInc (s : State) (ut ui : Nat) : Nat :=
  if hasTest ut then (getUnit s ut ui).inc
  else if ut = utHalf then getF s F.LEAT_CFG_INC ui
  else 0

/-- The half whose log takes a unit's records: a bridge's goes to half 0 while its firmware runs, else to half 1. -/
def logHalf (s : State) (ut ui : Nat) : Nat :=
  if ut = utBridge ∧ halfState s 0 < hsLoaded then 1 else unitHalf ut ui

def clCorrected : Nat := 0
def clTransient : Nat := 1
def clLasting : Nat := 2
def clFatal : Nat := 3

/-- ERROR_RECORD_WRITE (R411, R423): the next entry of half h's ring, an event of source 0x06, and the unit's counts;
the cause gives what was detected, when, and at which incarnation. An entry not read since it was written counts in LOST
when it is overwritten. -/
def writeRecord (s : State) (h ut ui cls : Nat) (pending promoted near : Bool) (x : Cause) : State :=
  let seq := (getF s F.DEV_ELOG_STAT_TOTAL 0 h + 1) % 2 ^ 32
  let j := seq % 4096
  let w0 := ut * 2 ^ 56 + ui * 2 ^ 40 + cls * 2 ^ 38 + pending.toNat * 2 ^ 37 + promoted.toNat * 2 ^ 36 +
    near.toNat * 2 ^ 35 + x.code * 2 ^ 16 + x.inc
  let ws : List W64 :=
    [BitVec.ofNat 64 w0, x.stamp, x.addr, BitVec.ofNat 64 (x.detail % 2 ^ 32 * 2 ^ 32 + seq)]
  let s := if 4096 < seq ∧ mget zNat j (half s h).seen ≠ 15 then bumpF s F.DEV_ELOG_STAT_LOST 0 1 h else s
  let s := (ws.zipIdx).foldl (fun s e => setReg s .devElog 0 (16384 * h + 4 * j + e.2) e.1) s
  let s := updHalf (putF s F.DEV_ELOG_STAT_TOTAL 0 seq h) h fun x => { x with seen := mset zNat j 0 x.seen }
  let s := if !hasTest ut then s
    else updUnit s ut ui fun u =>
      if cls = clCorrected then { u with corrected := satAdd 16 u.corrected 1 }
      else if cls = clTransient then { u with trans := u.trans ++ [x.stamp.toNat] }
      else u
  raiseEvent s h evError x.code ws

/-- What is detected now in a unit, by half h's clock. -/
def causeNow (s : State) (h ut ui code : Nat) (addr : W64) (detail : Nat) (corrected : Bool) : Cause :=
  ⟨code, addr, detail, corrected, reg s .tbHall h 0, unitInc s ut ui⟩

/-- A record of a code that takes its class without a test (R413). -/
def plainRecord (s : State) (h ut ui cls code : Nat) (addr : W64) (detail : Nat) : State :=
  writeRecord s h ut ui cls false false false (causeNow s h ut ui code addr detail false)

/-- An error corrected in place (R414): a CORRECTED record with PENDING; the test waits for the idle window. -/
def detectCorrected (s : State) (ut ui code : Nat) (addr : W64) (detail : Nat) : State :=
  let x := causeNow s (logHalf s ut ui) ut ui code addr detail true
  let s := writeRecord s (logHalf s ut ui) ut ui clCorrected true false false x
  updUnit s ut ui fun u => { u with pending := true, causes := u.causes ++ [x] }

/-- An error not corrected (R414): its record follows the targeted test, which it shares with one already due. An error
in a unit under test leaves `pending` set, which fails that test (R427). -/
def detectUncorrected (s : State) (ut ui code : Nat) (addr : W64) (detail : Nat) : State :=
  let x := causeNow s (logHalf s ut ui) ut ui code addr detail false
  updUnit s ut ui fun u => { u with pending := true, causes := u.causes ++ [x] }

/-- What the halted context holds in slot p is undefined (R412). -/
def loseSlot (s : State) (p : Nat) : State :=
  let s := setReg (setCore s p (scratchCore (2 ^ 20 * s.free + 16 * p))) .coreArith p 0
    (Config.freeValue s.free &&& 0xFFFF0000007F)
  { s with free := s.free + 1 }

/-- R412: an uncorrectable error in exact-class storage halts the running gang that uses the unit. -/
def unitErrorHalt (s : State) (l ut : Nat) : State :=
  if gangState s l = gsRunning then haltGang s l rcUnitError (BitVec.ofNat 8 ut) (seqCtl s l).pc 0 else s

/-- A packet from an older incarnation of a unit is fenced and counted (R421). -/
def hearQuarantined (s : State) (ut ui : Nat) : State :=
  let s := updUnit s ut ui fun u => { u with heard := satAdd 16 u.heard 1 }
  plainRecord s (logHalf s ut ui) ut ui clCorrected 0x000C 0 (getUnit s ut ui).inc

/-- Does the slot serve accesses (R494)? -/
def slotServes (s : State) (p : Nat) : Bool :=
  decide (p < 4352) && (getUnit s utSlot p).st != 3 && domainOn s (domSlot s p)

/-- Both bridges are out of service: no cross-half path (R295). -/
def bridgeUp (s : State) (b : Nat) : Bool := getF s F.SEAM_STATE_STATE b == 0 && domainOn s (domSeam b)
def seamUp (s : State) : Bool := bridgeUp s 0 || bridgeUp s 1

/-! Time states (R329, R334). -/

def tsFree : Nat := 0
def tsAcquiring : Nat := 1
def tsLocked : Nat := 2
def tsHoldover : Nat := 3

/-- A change of POD_STATE or HALL_STATE and its event to node software and to the host (R334): CODE 0 pod, 1 hall; the payload
is the new state. (Log 92, DEDUCED). -/
def setTimeState (s : State) (h : Nat) (hall : Bool) (v : Nat) : State :=
  let f := if hall then F.TB_STAT_HALL_STATE else F.TB_STAT_POD_STATE
  let n := if hall then 1 else 0
  let w : List W64 := [BitVec.ofNat 64 v]
  if getF s f h = v then s else tellNode (raiseEvent (putF s f h v) h evTime n w) h evTime n w

/-- R330: parent `l` (a link, or 64 for the other half) is lost. What was LOCKED to it goes to HOLDOVER. -/
def parentLost (s : State) (h l : Nat) : State :=
  let follows (role parent state : Fld) : Bool :=
    getF s role h % 2 == 1 && getF s parent h == l && getF s state h == tsLocked
  let pod := follows F.TB_CFG_POD_ROLE F.TB_CFG_POD_PARENT F.TB_STAT_POD_STATE
  let hall := follows F.TB_CFG_HALL_ROLE F.TB_CFG_HALL_PARENT F.TB_STAT_HALL_STATE && getF s F.TB_CFG_PPS_IN_EN h == 0
  let s := if pod then setTimeState s h false tsHoldover else s
  if hall then setTimeState s h true tsHoldover else s

end Sys2Proof.Machine
end

