-- ==== Sys2Proof/Machine/Access.lean ====
section
/-! DEFINITION. Who may read or write which register (R7-R9, R379, R382, R391, R400, R493, R495-R500). -/

namespace Sys2Proof.Machine

/-! Link answer codes (R386). -/

def lomAccess : BitVec 8 := 0x90
def lomNotPermitted : BitVec 8 := 0x91
def lomBadAddr : BitVec 8 := 0x92
def lomBadDesc : BitVec 8 := 0x93
def lomLinkLost : BitVec 8 := 0x94
def lomBootOnly : BitVec 8 := 0x95
def lomTimeout : BitVec 8 := 0x96
def lomQueueOff : BitVec 8 := 0x97
def lomAfterRefused : BitVec 8 := 0x98
def lomFenceErr : BitVec 8 := 0x99
def lomHalfUnreachable : BitVec 8 := 0x9A

/-- A refusal as its requester sees it: a code over the link, an access error otherwise. -/
def refuseAcc (s : State) (by' : Requester) (c : BitVec 8) : State :=
  match by' with
  | .host _ => answer s (.code c)
  | _ => accessError s

/-- The half that owns a block instance; none for a package block (R495, R498). -/
def blockHalf : Block → Nat → Option Nat
  | .dev, _ | .pwr, _ | .seam, _ => none
  | .core, i => some (i / 2176)
  | .row, i => some (i / 32)
  | .die, i => some (i / 4)
  | .ch, i => some (i / 512)
  | _, h => some h

/-- The unit prefix bit of R400; in the seam block WEIR_ registers have their own. -/
def prefixBit : Block → Nat → Nat
  | .core, _ => 0 | .row, _ => 1 | .die, _ => 2 | .hbmh, _ => 3 | .ch, _ => 3 | .hoist, _ => 4
  | .seam, o => if o < 0x20 then 5 else 6
  | .leat, _ => 7 | .gw, _ => 8 | .coll, _ => 9 | .tb, _ => 10 | .solv, _ => 11 | .ckp, _ => 12 | .lom, _ => 13
  | .fst, _ => 14 | .sec, _ => 15 | .pwr, _ => 16 | .dev, _ => 17

/-- The domain a block's registers lie in (R455, R497); none for the DEV and PWR blocks, which either half answers. -/
def blockDomain (s : State) : Block → Nat → Option Nat
  | .dev, _ | .pwr, _ => none
  | .seam, b => some (domSeam b)
  | .core, i => some (domSlot s i)
  | .row, i => some (domRow i)
  | .die, i => some (13 * i + 12)
  | .ch, i => some (domStack (i / 32))
  | .hbmh, h | .hoist, h | .ckp, h | .fst, h => some (domCtl h 0)
  | .leat, h | .gw, h | .lom, h => some (domSwitch h 0)
  | .coll, h => some (domSwitch h 1)
  | .tb, h => some (domTime h)
  | .sec, h => some (domTrust h)
  | .solv, h => some (domCtl h 3)

def blockOn (s : State) (b : Block) (i : Nat) : Bool :=
  match blockDomain s b i with
  | some n => domainOn s n
  | none => true

/-- Instruction store banks, control core SRAM and the FST window refuse every access while their domain is off. -/
def isWindow : Reg → Bool
  | .rowBank0 | .rowBank1 | .rowSram | .fstWindow => true
  | _ => false

/-- R496, R379: what the state of half h lets through to a block of its own. -/
def stateGate (s : State) (h : Nat) (b : Block) (o : Nat) : Option (BitVec 8) :=
  if halfState s h = hsOff then some lomHalfUnreachable
  else if halfState s h = hsBoot then if b = .sec ∧ o < 0xA20 then none else some lomBootOnly
  else if isFatal s h then if b = .sec ∨ b = .fst then none else some lomAccess
  else none

/-- The requester's own standing: node software needs its half's firmware running; the host needs a link whose half is
not OFF, which in BOOT serves only DEV_ID and boot windows; forwarding needs XMGMT (R379, R391). (Log 110, DEDUCED). -/
def sourceGate (s : State) (by' : Requester) (write : Bool) (owner : Option Nat) (addr : Nat) : Option (BitVec 8) :=
  match by' with
  | .firmware _ => none
  | .node h => if nodeLive s h.toNat then none else some lomAccess
  | .host l =>
    let k := l.toNat
    if halfState s k = hsOff then some lomHalfUnreachable
    else match owner with
      | none =>
        if halfState s k = hsBoot ∧ ¬ (addr = blockBase .dev 0 ∧ !write) then some lomBootOnly else none
      | some h =>
        if h ≠ k ∧ getF s F.LOM_CFG_XMGMT k = 0 then some lomNotPermitted else none

/-- The security policy (R400): HOSTREAD and HOSTWRITE bits of the owning half, or of the link's half for a package
block. DEV_ID stays readable (R3). -/
def policyGate (s : State) (by' : Requester) (write : Bool) (b : Block) (owner : Option Nat) (o : Nat) :
    Option (BitVec 8) :=
  match by' with
  | .host l =>
    let c := (half s (owner.getD l.toNat)).cfg
    if b = .dev ∧ o = 0 ∧ !write then none
    else if bit (if write then c.hostWrite else c.hostRead) (prefixBit b o) then none else some lomNotPermitted
  | _ => none

/-- Writers the policy names (R214, R335, R396): SOLV_DB and COLL_DB have one writer; node software stages streams only
when it may submit them. -/
def writerGate (s : State) (by' : Requester) (r : Reg) (h : Nat) : Option (BitVec 8) :=
  let w := (half s h).cfg.writers
  let hostOnly (b : Bool) : Option (BitVec 8) :=
    match by' with
    | .host _ => if b then none else some lomNotPermitted
    | .node _ => if b then some lomAccess else none
    | .firmware _ => none
  match r with
  | .solvDb => hostOnly (bit w 0)
  | .collDb => hostOnly (bit w 1)
  | .fstWindow | .fstCtl =>
    match by' with
    | .node _ => if bit w 2 then none else some lomAccess
    | _ => none
  | _ => none

def orElse (a b : Option (BitVec 8)) : Option (BitVec 8) :=
  match a with
  | some c => some c
  | none => b

/-- The refusal of an access to the 64-bit register at `addr`, if any. (Log 11, DEDUCED). -/
def gate (s : State) (by' : Requester) (write : Bool) (addr : Nat) : Option (BitVec 8) :=
  match blockOf addr with
  | none => orElse (sourceGate s by' write none addr) (some lomBadAddr)
  | some (b, i, o) =>
    let owner := blockHalf b i
    orElse (sourceGate s by' write owner addr)
      (orElse (match owner with
        | some h => stateGate s h b o
        | none => none)
        (orElse (policyGate s by' write b owner o)
          (match regAt addr with
          | none => some lomAccess
          | some (r, _, _) =>
            if !blockOn s b i && (write || isWindow r) then some lomAccess
            else if write then writerGate s by' r (owner.getD 0) else none)))

/-- A register command of `by'` on word k of register r in instance i: refused by `gate`, else `f`. -/
def guarded (s : State) (by' : Requester) (r : Reg) (i k : Nat) (f : State → State) : State :=
  match gate s by' true (regAddr r i k) with
  | some c => refuseAcc s by' c
  | none => f s

/-- A write accepted: done, answered. -/
def done (s : State) : State := answer s .ok

/-- A refusal by the register's own rules (R7, R382). -/
def denied (s : State) (by' : Requester) : State := refuseAcc s by' lomAccess

/-! Fields of a written word (R8, R9). -/

/-- Every RW field of the word keeps its range (R9). -/
def inRange (r : Reg) (v : W64) : Bool :=
  (regSpec r).fields.all fun f =>
    f.acc != .rw || (decide (f.rlo ≤ bits v.toNat f.hi f.lo) && decide (bits v.toNat f.hi f.lo ≤ f.rhi))

/-- The word after a write (R9): RW fields take the written bits, W1C fields clear where 1 is written, the others and
reserved bits keep their value (R8). -/
def storedWord (r : Reg) (old v : W64) : W64 :=
  (regSpec r).fields.foldl (fun w f =>
    match f.acc with
    | .rw => setBits w f.hi f.lo (bits v.toNat f.hi f.lo)
    | .w1c => setBits w f.hi f.lo (bits w.toNat f.hi f.lo &&& ((2 ^ (f.hi - f.lo + 1) - 1) ^^^ bits v.toNat f.hi f.lo))
    | _ => w) old

/-- The plain write of a register with no command of its own. -/
def plainWrite (s : State) (by' : Requester) (r : Reg) (i k : Nat) (v : W64) : State :=
  if inRange r v then done (setReg s r i k (storedWord r (reg s r i k) v)) else denied s by'

/-- The word after a read: RC fields are 0 (R9). -/
def clearedWord (r : Reg) (old : W64) : W64 :=
  (regSpec r).fields.foldl (fun w f =>
    match f.acc with
    | .rc => setBits w f.hi f.lo 0
    | _ => w) old

/-- The value a read returns: WO fields and reserved bits read 0 (R8, R9). -/
def readWord (r : Reg) (v : W64) : W64 :=
  (regSpec r).fields.foldl (fun w f =>
    match f.acc with
    | .wo => w
    | _ => setBits w f.hi f.lo (bits v.toNat f.hi f.lo)) 0

end Sys2Proof.Machine
end

