-- ==== Sys2Proof/Machine/Link.lean ====
section
/-! DEFINITION. Links (R299-R303, R307, R316, R372, R373): routes, queues, credits, retry buffers, and the answers that
travel to whoever waits for a request (R161, R314, R385). A flit carries one packet. -/

namespace Sys2Proof.Machine

/-- A link end without a session. The first flit of a session carries SEQ 0. -/
def linkZero : LinkSt := ⟨0, 0, 0, 0, [], [], [], [0, 0, 0], [0, 0, 0], 0, false, false, 0⟩

def leatKey (h l : Nat) : Nat := 64 * h + l
def lomKey (h : Nat) : Nat := 128 + h
def seamKey (b : Nat) : Nat := 192 + b

def linkKey : LinkId → Nat
  | .leat h l => leatKey h.toNat l.toNat
  | .lomly h _ => lomKey h.toNat
  | .seam b => seamKey b.toNat

def getLink (s : State) (k : Nat) : LinkSt := mget (fun _ => linkZero) k s.links
def setLink (s : State) (k : Nat) (x : LinkSt) : State := { s with links := mset (fun _ => linkZero) k x s.links }
def updLink (s : State) (k : Nat) (f : LinkSt → LinkSt) : State := setLink s k (f (getLink s k))

/-- The optical engine of leat link l of half h (R299, R400): the one the link table names, or OE8 while it replaces that
engine (R419). -/
def linkEngine (s : State) (h l : Nat) : Nat :=
  let e := bits (reg s .leatLink h l).toNat 63 60
  if (half s h).cfg.oesub = e then 8 else e

/-- Its ports. -/
def portsOf (s : State) (h l : Nat) : List Nat :=
  ((List.range 8).filter fun i => bit (reg s .leatLink h l).toNat (52 + i)).map (8 * linkEngine s h l + ·)

def portState (s : State) (h p : Nat) : Nat := getF s F.LEAT_PORT_STATE h p

/-- Ports of the link that are UP; the link is UP while it has one and its session has not failed (R302). -/
def upPorts (s : State) (h l : Nat) : Nat := ((portsOf s h l).filter fun p => portState s h p == 2).length
def linkUp (s : State) (h l : Nat) : Bool := upPorts s h l != 0 && !(getLink s (leatKey h l)).down

/-- Flits a link keeps until acknowledged (R302, R373). -/
def retryRoom (s : State) (k : Nat) : Nat :=
  if k < 128 then 8192 * upPorts s (k / 64) (k % 64) else if k < 192 then 1024 else 8192

/-- Takes a credit of virtual channel vc. -/
def useCredit (cr : List Nat) (vc : Nat) : List Nat := cr.set vc (cr.getD vc 0 - 1)

/-- The nonce under which flit n of a session is sealed (R301). -/
def flitNonce (session n : Nat) : BitVec 96 := BitVec.ofNat 32 session ++ BitVec.ofNat 64 n

/-- Credits of channel i that one flit can return. -/
def owes (x : LinkSt) (i : Nat) : Nat := min 255 (x.owed.getD i 0)

/-- The next flit of a link end: its SEQ, the last SEQ received in order, the credits it returns (R301). A flit carries one
packet at most. (Log 82, DESIGN CHOICE). -/
def mkFlit (x : LinkSt) (kind vc : Nat) (ps : List Packet) (ls : List LomPkt) : Flit :=
  ⟨BitVec.ofNat 16 x.tx, BitVec.ofNat 16 (x.rx + 65535), BitVec.ofNat 2 kind, BitVec.ofNat 2 vc,
    BitVec.ofNat 8 (owes x 0), BitVec.ofNat 8 (owes x 1), BitVec.ofNat 8 (owes x 2), BitVec.ofNat 32 x.session, true, true,
    ps, ls⟩

/-- That flit joins those sent and not acknowledged. -/
def sendFlit (x : LinkSt) (kind vc : Nat) (ps : List Packet) (ls : List LomPkt) : LinkSt :=
  { x with
    unacked := x.unacked ++ [mkFlit x kind vc ps ls]
    tx := (x.tx + 1) % 2 ^ 64
    owed := (List.range 3).map fun i => x.owed.getD i 0 - owes x i }

/-- Credits owed that no packet took along go on a credit-only flit, an owed NAK on one of its own (R301, R302). -/
def sendControl (room : Nat) (x : LinkSt) : LinkSt :=
  if room ≤ x.unacked.length then x
  else if x.nak then { sendFlit x 2 0 [] [] with nak := false }
  else if x.owed.any (· != 0) then sendFlit x 3 0 [] []
  else x

/-- Sends waiting packets in order, each on a credit of its virtual channel (R303); one without a credit holds back the
later packets of its own channel only. -/
def pumpP (room : Nat) : List (Nat × Packet) → LinkSt → LinkSt
  | [], x => x
  | (vc, p) :: r, x =>
    if x.cr.getD vc 0 = 0 ∨ room ≤ x.unacked.length then
      pumpP room r { x with waitP := x.waitP ++ [(vc, p)] }
    else
      pumpP room r { sendFlit x 0 vc [p] [] with cr := useCredit x.cr vc }

def pumpL (room : Nat) : List (Nat × LomPkt) → LinkSt → LinkSt
  | [], x => x
  | (vc, p) :: r, x =>
    if x.cr.getD vc 0 = 0 ∨ room ≤ x.unacked.length then
      pumpL room r { x with waitL := x.waitL ++ [(vc, p)] }
    else
      pumpL room r { sendFlit x 0 vc [] [p] with cr := useCredit x.cr vc }

/-- The sluices that packets without a credit saturate (R272, R273, R303): the port's, and those of the part's own gateways
for their bulk packets. -/
def satMask (me : Packet → Bool) (x : LinkSt) : Nat :=
  let held := x.waitP.filter fun p => x.cr.getD p.1 0 == 0
  let gw (g : Nat) : Bool := held.any fun p => p.2.ptype == 5 && me p.2 && p.2.tag.toNat % 2 == g
  (!held.isEmpty).toNat + 2 * (gw 0).toNat + 4 * (gw 1).toNat

/-- Entries into saturation are counted (R273). -/
def countSat (s : State) (k old new : Nat) : State :=
  let h := k / 64
  let entered (i : Nat) : Bool := bit new i && !bit old i
  let s := if entered 0 then bumpF s F.LEAT_SLUICE_SAT_EVENTS h 1 (2 * linkEngine s h (k % 64)) else s
  let s := if entered 1 then bumpF s F.GW_SLUICE_SAT_EVENTS h 1 0 else s
  if entered 2 then bumpF s F.GW_SLUICE_SAT_EVENTS h 1 2 else s

/-- Everything the credits of link k allow is sent. -/
def pump (s : State) (k : Nat) : State :=
  let x := getLink s k
  if x.session = 0 then s
  else
    let room := retryRoom s k
    let x := pumpP room x.waitP { x with waitP := [] }
    let x := sendControl room (pumpL room x.waitL { x with waitL := [] })
    if 128 ≤ k then setLink s k x
    else
      let me (p : Packet) : Bool := p.srcNode.toNat == getF s F.LEAT_CFG_NODE (k / 64) && p.srcHalf.toNat == k / 64
      let n := satMask me x
      countSat (setLink s k { x with sat := n }) k x.sat n

/-- Virtual channel of a leat packet (R303, R304). -/
def vcOf (p : Packet) : Nat :=
  match p.ptype.toNat with
  | 0 | 1 | 2 | 5 => 0
  | 3 | 4 => 1
  | _ => 2

def enqueue (s : State) (h l : Nat) (p : Packet) : State :=
  pump (updLink s (leatKey h l) fun x => { x with waitP := x.waitP ++ [(vcOf p, p)] }) (leatKey h l)

/-- The links a route word names; none for a LOCAL entry (R307, R400). -/
def routeLinks (w : Nat) : List Nat :=
  if bit w 63 then [] else
    [bits w 59 54, bits w 53 48, bits w 47 42, bits w 41 36].take (bits w 62 61 + 1)

/-- The link a packet takes: the one indexed by DADDR[13:12] among those UP (R307). -/
def pickLink (s : State) (h : Nat) (w : Nat) (daddr : W64) : Option Nat :=
  let up := (routeLinks w).filter (linkUp s h)
  if up.isEmpty then none else up[bits daddr.toNat 13 12 % up.length]?

def routeWord (s : State) (h node hf : Nat) : Nat := (reg s .leatRoute h (2 * node + hf)).toNat

/-- Sends a packet from half h toward (node, half): the state and the link taken, none without a route. -/
def sendTo (s : State) (h node hf : Nat) (p : Packet) : Option (State × Nat) :=
  match pickLink s h (routeWord s h node hf) p.daddr with
  | none => none
  | some l => some (enqueue s h l p, l)

def myNode (s : State) (h : Nat) : Nat := getF s F.LEAT_CFG_NODE h
def myInc (s : State) (h : Nat) : Nat := getF s F.LEAT_CFG_INC h

/-- Address of a response: the requester's node and half in place of the target's (R305, R307). -/
def responseAddr (p : Packet) : W64 := setBits (setBits p.daddr 63 56 p.srcNode.toNat) 55 55 p.srcHalf.toNat

/-- A response packet of half h to request p (R304, R310, R314): the request's key, epoch, unit and tag. -/
def mkResponse (s : State) (h : Nat) (p : Packet) (ptype : BitVec 4) (status : BitVec 8) (edge : Bool)
    (data : List W64) : Packet :=
  { p with daddr := responseAddr p, inc := BitVec.ofNat 16 (myInc s h), ptype := ptype, srcNode := BitVec.ofNat 8 (myNode s h),
           srcHalf := BitVec.ofNat 1 h, lines := BitVec.ofNat 3 (data.length / 8), status := status, edge := edge,
           first := 0, last := 0, data := data }

/-- A response leaves by the route of its requester; without a route it is lost, and the requester times out (R315). -/
def respond (s : State) (h : Nat) (p : Packet) (ptype : BitVec 4) (status : BitVec 8) (edge : Bool)
    (data : List W64) : State :=
  match sendTo s h p.srcNode.toNat p.srcHalf.toNat (mkResponse s h p ptype status edge data) with
  | some (s, _) => s
  | none => s

/-- Words padded to whole lines. -/
def padLine (ws : List W64) : List W64 := ws ++ List.replicate ((8 - ws.length % 8) % 8) 0

/-- A line of a DMA descriptor is answered: the first error stands, bytes moved without error count (R386). -/
def dmaAnswer (s : State) (h id : Nat) (code : BitVec 8) : State :=
  updHalf s h fun x => { x with lom := { x.lom with dmas := x.lom.dmas.map fun d =>
    if d.id = id then { d with left := d.left - 1, moved := if code = 0 then d.moved + 64 else d.moved,
                               err := if d.err = 0 then code.toNat else d.err }
    else d } }

/-- The answer of a request reaches who waits for it; `data` are old values an atomic returns. -/
def answerTo (s : State) (w : Waiter) (code : BitVec 8) (edge : Bool) (data : List W64) : State :=
  match w with
  | .nobody | .core _ | .own .. => s
  | .hoist u id _ => updCtl s u fun c => flightAnswer c id code
  | .packet h p =>
    if p.ptype = 5 then respond s h { p with ret := true } 5 code false data
    else respond s h p 4 code (edge || p.edge) (if p.ret ∨ 3 ≤ p.aop.toNat then padLine data else [])
  | .dma h id => dmaAnswer s h id code
  | .memory _ n =>
    let r : Resp := if code ≠ 0 then .code code else match data with
      | v :: _ => .value v
      | [] => .ok
    { s with late := mput n r s.late }

/-- The link number that stands for the part's own node. -/
def ownLink : Nat := 64

/-- An outstanding request is over. -/
def dropReq (s : State) (h : Nat) (r : LeatReq) : State :=
  updHalf s h fun x => { x with reqs := x.reqs.filter fun q => q.tag != r.tag }

/-- The same; the answer of a request to the own node is one of its leat requests, and counts in LATE_RESP when that one
has timed out (R306, R315). -/
def answerW (s : State) (w : Waiter) (code : BitVec 8) (edge : Bool) (data : List W64) : State :=
  match w with
  | .own h tag _ =>
    match (half s h).reqs.find? fun r => r.tag == tag && r.link == ownLink with
    | some r => answerTo (dropReq s h r) r.who code edge data
    | none => bumpF s F.LEAT_DROP_LATE_RESP h
  | w => answerTo s w code edge data

/-- A number under which a command is answered later (R23). (Log 145, DESIGN CHOICE). -/
def askLater (s : State) (h : Nat) : State × Waiter := ({ s with asked := s.asked + 1 }, .memory h s.asked)

/-- The requester whose accesses to one line keep their order (R260, R278, R313); none where a request is of a requester of
its own. -/
def sourceOf : Waiter → Option (Nat × Nat)
  | .hoist _ _ e | .own _ _ e => some (0, e)
  | .packet _ p => some (1, (2 * p.srcNode.toNat + p.srcHalf.toNat) * 8192 + p.sunit.toNat)
  | .dma h _ => some (2, h)
  | .core u => some (3, procNum u)
  | .memory .. | .nobody => none

def answerAll (s : State) (ws : List Waiter) (code : BitVec 8) : State :=
  ws.foldl (fun s w => answerW s w code false []) s

/-- Does a packet carry request r? -/
def carries (r : LeatReq) (p : Packet) : Bool :=
  p.tag == BitVec.ofNat 16 r.tag && p.ptype == r.pkt.ptype && p.srcNode == r.pkt.srcNode && p.srcHalf == r.pkt.srcHalf

/-- Request r once link l has acknowledged the packets `gone`. -/
def ackReq (l : Nat) (gone : List Packet) (r : LeatReq) : LeatReq :=
  if r.link = l ∧ gone.any (carries r) then { r with acked := true } else r

/-- Flits up to ACK leave the retry buffer, and the requests they carried count as acknowledged (R302, R316). -/
def takeAck (s : State) (k : Nat) (ack : BitVec 16) : State :=
  let x := getLink s k
  let n := match x.unacked.findIdx? fun f => f.seq == ack with
    | some i => i + 1
    | none => 0
  let gone := (x.unacked.take n).flatMap fun f => f.pkts
  let s := setLink s k { x with unacked := x.unacked.drop n }
  if k < 128 then
    updHalf s (k / 64) fun y => { y with reqs := y.reqs.map (ackReq (k % 64) gone) }
  else s

/-- The part's own requests that a failed link carried unacknowledged: an atomic ends LEAT_LINK_LOST, the others go
over a remaining link or end so too (R316). -/
def rerouteReq (s : State) (h : Nat) (r : LeatReq) : State :=
  let gone (s : State) : State :=
    answerW (updHalf s h fun y => { y with reqs := y.reqs.filter fun q => q.tag != r.tag }) r.who 0x69 false []
  if r.pkt.ptype = 2 then gone s
  else
    let d := r.pkt.daddr.toNat
    match sendTo s h (bits d 63 56) (bits d 55 55) r.pkt with
    | none => gone s
    | some (s, l) =>
      updHalf s h fun y => { y with reqs := y.reqs.map fun q => if q.tag = r.tag then { q with link := l } else q }

/-- A packet of another part in transit, or one not yet sent, takes a remaining link if there is one. -/
def rerouteOther (s : State) (h : Nat) (p : Packet) : State :=
  let d := p.daddr.toNat
  match sendTo s h (bits d 63 56) (bits d 55 55) p with
  | some (s, _) => s
  | none => s

/-- A bulk message is over. -/
def dropMsg (s : State) (h id : Nat) : State :=
  updHalf s h fun x => { x with msgs := x.msgs.filter fun m => m.id != id }

/-- A bulk packet of the part's own gateways that a failed link held takes a remaining link of its pod route, or its message
ends LEAT_LINK_LOST (R316, R319). -/
def rerouteBulk (s : State) (h : Nat) (p : Packet) : State :=
  match (half s h).msgs.find? fun m => m.id == p.tag.toNat with
  | none => s
  | some m => match pickLink s h (reg s .leatPodroute h m.pod).toNat p.daddr with
    | some l => enqueue s h l p
    | none => answerW (dropMsg s h m.id) m.who 0x69 false []

/-- LEAT_LINK_DOWN (R302, R316, R440): the session ends and its keys are erased; requests without acknowledgement are resent in their order over the
links that remain, ahead of what still waited. (Log 84, DEDUCED). -/
def linkDown (s : State) (h l : Nat) : State :=
  let k := leatKey h l
  let x := getLink s k
  let own (p : Packet) : Bool := p.srcNode.toNat == myNode s h && p.srcHalf.toNat == h && vcOf p == 0
  let mine := (half s h).reqs.filter fun r => r.link == l && !r.acked
  let sent := x.unacked.flatMap fun f => f.pkts
  let bulk := (sent ++ x.waitP.map Prod.snd).filter fun p => own p && p.ptype == 5 && !p.ret
  let transit := sent.filter fun p => (!own p || p.ret) && vcOf p == 0 && p.ptype != 2
  let waiting := (x.waitP.map Prod.snd).filter fun p => !own p || (p.ptype == 5 && p.ret)
  let s := parentLost (setLink s k linkZero) h l
  let s := updHalf s h fun x => { x with sec := { x.sec with linkKeys := mdrop (· == l) x.sec.linkKeys } }
  let s := setWords s .secPeer h (8 * l) (List.replicate 8 0)
  let s := mine.foldl (fun s r => rerouteReq s h r) s
  let s := bulk.foldl (fun s p => rerouteBulk s h p) s
  (transit ++ waiting).foldl (fun s p => rerouteOther s h p) s

/-- A packet of the Lomly link of half h joins its queue (R372). -/
def lomSend (s : State) (h vc : Nat) (p : LomPkt) : State :=
  pump (updLink s (lomKey h) fun x => { x with waitL := x.waitL ++ [(vc, p)] }) (lomKey h)

end Sys2Proof.Machine
end

