-- ==== Sys2Proof/Machine/Hbm.lean ====
section
/-! DEFINITION. HBM and tile memory as requests reach them: statuses (R22, R253, R262), the
write tracker's hold (R360), memory-side atomics, accumulators and reduction epochs (R263-R268, R274). -/

namespace Sys2Proof.Machine

/-! Statuses (R262). -/

def stHalfDown : BitVec 8 := 0x40
def stHalfLost : BitVec 8 := 0x41
def stNoMemory : BitVec 8 := 0x42
def stChannelOff : BitVec 8 := 0x43
def stUncorrectable : BitVec 8 := 0x44
def stAtomTarget : BitVec 8 := 0x45
def stEpochClosed : BitVec 8 := 0x46
def stBadSource : BitVec 8 := 0x47
def stAccFull : BitVec 8 := 0x48
def stEpochTimeout : BitVec 8 := 0x49
def stAddrRange : BitVec 8 := 0x4A
def stWeirPath : BitVec 8 := 0x4B
def stSeamLost : BitVec 8 := 0x4C

/-- The trust die's key set goes into base die b over the management path (R251). -/
def loadKey (s : State) (b : Nat) : State :=
  match (half s (b / 16)).sec.hbmKey with
  | some k => updHalf s (b / 16) fun x => { x with baseKeys := mput b k x.baseKeys }
  | none => s

/-- The status of a request of half `src` to an HBM address (R22, R248, R253, R295): 0 when it is served. -/
def memStatus (s : State) (src a : Nat) : BitVec 8 :=
  if hbmEnd ≤ a then stNoMemory
  else
    let h := addrHalf a
    if h ≠ src ∧ (!halfRunning s h ∨ !seamUp s) then stHalfDown
    else match hbmWhere s a with
      | none => stNoMemory
      | some (ch, _, _) => if getF s F.HBM_CHST_STATE ch = 1 then stChannelOff else 0

/-- Is the address in a hole of a half that runs (R248)? -/
def inHole (s : State) (a : Nat) : Bool := halfRunning s (addrHalf a) && (hbmWhere s a).isNone

/-- The region lies in HBM and in no hole: holes stand at the ends of windows. -/
def regionInHbm (s : State) (a n : Nat) : Bool :=
  decide (a + n ≤ hbmEnd) && !inHole s a && !inHole s (a + n - 1) &&
    (let b := (windowOf s (a + n - 1)).base
     decide (b ≤ a) || !inHole s (b - 1))

/-! The tile memory aperture (R494). -/

def apBase : Nat := 0x400000000000
def inAperture (a : Nat) : Bool := decide (apBase ≤ a) && decide (a < apBase + 4352 * 2 ^ 20)
def apSlot (a : Nat) : Nat := (a - apBase) / 2 ^ 20

/-- Status of an access of half `src` to the aperture (R22, R295, R494). -/
def apStatus (s : State) (src a : Nat) : BitVec 8 :=
  let h := apSlot a / 2176
  if h ≠ src ∧ (!halfRunning s h ∨ !seamUp s) then stHalfDown
  else if slotServes s (apSlot a) then 0 else stNoMemory

def tileStore (s : State) (slot a : Nat) (bs : List Byte) : State :=
  let x := getCore s slot
  setCore s slot { x with tile := wrBytes x.tile a bs }

/-! Row control core SRAM (R499). -/

def sramByte (s : State) (r a : Nat) : Byte := BitVec.ofNat 8 ((reg s .rowSram r (a / 8)).toNat / 256 ^ (a % 8))

def setSramByte (s : State) (r a : Nat) (b : Byte) : State :=
  setReg s .rowSram r (a / 8) (setBits (reg s .rowSram r (a / 8)) (8 * (a % 8) + 7) (8 * (a % 8)) b.toNat)

/-! Accumulators (R265). -/

def accFmt (a : AccSt) : FFmt := if a.wide then fF32 else fBF16
def accWidth (a : AccSt) : Nat := if a.wide then 4 else 2

/-- The word an accumulator shows. -/
def accWord (a : AccSt) : Nat :=
  let f := accFmt a
  if a.nan || (a.pinf && a.ninf) then f.defaultNan
  else if a.pinf then f.infBits
  else if a.ninf then f.signed true f.infBits
  else if a.val = 0 then f.signed a.negz 0
  else (f.round .nearest false (.fin (decide (a.val < 0)) a.val.natAbs (-149))).1

/-- One more exact add. -/
def accAdd (a : AccSt) (x : Num) : AccSt :=
  match x with
  | .nan _ => { a with nan := true, negz := false, adds := a.adds + 1 }
  | .inf n => { a with pinf := a.pinf || !n, ninf := a.ninf || n, negz := false, adds := a.adds + 1 }
  | .fin n m e => { a with val := a.val + scaledInt n m e (-149), negz := a.negz && n && m == 0, adds := a.adds + 1 }

/-- The accumulator holding exactly the value of a word. -/
def accLoad (a : AccSt) (w : Nat) : AccSt :=
  let x := (accFmt a).decode w
  { accAdd { a with val := 0, nan := false, pinf := false, ninf := false, negz := true } x with adds := a.adds }

/-- The word of w bytes at an address. -/
def hbmNat (s : State) (a w : Nat) : Nat := ofBytes (hbmBytes s a w)

/-- Accumulators of words that a store touched take the stored value (R265, R274). -/
def resync (s : State) (a n : Nat) : State :=
  let h := addrHalf a
  let f (e : Nat × AccSt) : Nat × AccSt :=
    if e.1 < a + n ∧ a < e.1 + accWidth e.2 then (e.1, accLoad e.2 (hbmNat s e.1 (accWidth e.2))) else e
  if (half s h).accs.isEmpty then s else updHalf s h fun x => { x with accs := x.accs.map f }

/-- A plain store into HBM. -/
def hbmStore (s : State) (a : Nat) (bs : List Byte) : State := resync (setHbmBytes s a bs) a bs.length

/-! Holds. -/

/-- An operation held for its slice (R360), for the seam (R279), or behind one of its requester that is. -/
def holdOp (s : State) (a : Nat) (op : HeldOp) (who : Waiter) : State :=
  let h := addrHalf a
  let s := if !trackerHolds s a then s
    else
      let s := bumpF s F.CKP_TRK_HOLDS h
      if stashFull s a then bumpF s F.CKP_TRK_HOLD_FULL h else s
  updHalf s h fun x => { x with ckp := { x.ckp with ops := x.ckp.ops ++ [(op, who)] } }

/-! Reads and writes of one request. -/

/-- Has the channel of an HBM address been fenced (R253)? -/
def channelOff (s : State) (a : Nat) : Bool :=
  match hbmWhere s a with
  | some (ch, _, _) => getF s F.HBM_CHST_STATE ch == 1
  | none => false

/-- The lines a held operation touches. -/
def opLines : HeldOp → List Nat
  | .write ls .. => ls.flatMap fun l => linesOf l.1 l.2.length
  | .atomic r .. => [r.addr.toNat / 64]
  | .read a n _ => linesOf a n

/-- A cross-half request waits while admission has stopped (R279). (Log 80, DEDUCED). -/
def seamHeld (s : State) (src a : Nat) : Bool := s.seamPause && decide (a < hbmEnd) && addrHalf a != src

/-- Does an access of lines `ls` by `who` come after a held operation of the same requester to one of them (R260, R278,
R313)? -/
def behind (ops : List (HeldOp × Waiter)) (ls : List Nat) (who : Waiter) : Bool :=
  (sourceOf who).isSome && ops.any fun o => sourceOf o.2 == sourceOf who && (opLines o.1).any ls.contains

/-- Status of a write of half `src` at an address. -/
def writeStatus (s : State) (src a : Nat) : BitVec 8 :=
  if inAperture a then apStatus s src a else memStatus s src a

/-- A line written where it belongs. -/
def storeLine (s : State) (a : Nat) (bs : List Byte) : State :=
  if inAperture a then tileStore s (apSlot a) (a % 2 ^ 20) bs else hbmStore s a bs

/-- A write of half `src` of one request's lines: the first failing status, the others applied (R260); none while the
tracker holds it, and `who` is answered later (R360). (Log 76, DEDUCED). -/
def memWriteLines (s : State) (src : Nat) (ls : List (Nat × List Byte)) (who : Waiter) : State × Option (BitVec 8) :=
  let err := ((ls.map fun l => writeStatus s src l.1).find? (· != 0)).getD 0
  let good := ls.filter fun l => writeStatus s src l.1 == 0
  match good.find? fun l => !inAperture l.1 && (trackerHolds s l.1 || seamHeld s src l.1 ||
      behind (half s (addrHalf l.1)).ckp.ops (linesOf l.1 l.2.length) who) with
  | some l => (holdOp s l.1 (.write good err src) who, none)
  | none => (good.foldl (fun s l => storeLine s l.1 l.2) s, some err)

def memWrite (s : State) (src a : Nat) (bs : List Byte) (who : Waiter) : State × Option (BitVec 8) :=
  memWriteLines s src [(a, bs)] who

/-- The word after an operation on old value t: its bits, and whether the word is written. -/
def atomNew (fc aop t x c : Nat) : Nat × Bool :=
  let w := fcWidth fc
  match aop with
  | 0 =>
    match fcFloat fc with
    | some f => ((f.round .nearest false (Num.add (f.decode t) (f.decode x)).1).1, true)
    | none => ((t + x) % 2 ^ w, true)
  | 1 | 2 =>
    let r := match fcFloat fc with
      | some f => (f.round .nearest false (maxMin (aop == 2) (f.decode t) (f.decode x)).1).1
      | none =>
        let a := decodeInt w true t
        let b := decodeInt w true x
        if (if aop = 2 then a < b else b < a) then x else t
    (r, r != t)
  | 3 => (x, true)
  | _ => if t = c then (x, true) else (t, false)

/-- The word an atomic leaves and whether it writes it. -/
def atomResult (s : State) (r : AtomReq) : Nat × Bool :=
  let w := fcWidth r.fc.toNat / 8
  atomNew r.fc.toNat r.aop.toNat (hbmNat s r.addr.toNat w) (r.x.toNat % 2 ^ (8 * w)) (r.cmp.toNat % 2 ^ (8 * w))

/-- The state as a later read of requester `who` finds it: with that requester's own held operations applied, since its
accesses to a line keep their order (R260, R278, R313). -/
def seenBy (s : State) (h : Nat) (who : Waiter) : State :=
  if (sourceOf who).isNone then s
  else (half s h).ckp.ops.foldl (fun s o =>
    if sourceOf o.2 ≠ sourceOf who then s
    else match o.1 with
      | .write ls .. => ls.foldl (fun s l => if inAperture l.1 then s else setHbmBytes s l.1 l.2) s
      | .atomic r .. => setHbmBytes s r.addr.toNat (toBytes (fcWidth r.fc.toNat / 8) (atomResult s r).1)
      | .read .. => s) s

/-- A read of requester `who`: the status and the bytes. -/
def memRead (s : State) (src a n : Nat) (who : Waiter) : BitVec 8 × List Byte :=
  if inAperture a then
    let c := apStatus s src a
    if c ≠ 0 then (c, []) else (0, rdBytes (getCore s (apSlot a)).tile (a % 2 ^ 20) n)
  else
    let c := memStatus s src a
    if c ≠ 0 then (c, []) else (0, hbmBytes (seenBy s (addrHalf a) who) a n)

/-- A read whose bytes may span lines: cut at 64-byte boundaries; the first error stands. -/
def memReadAny (s : State) (src : Nat) (who : Waiter) : Nat → Nat → Nat → BitVec 8 × List Byte
  | 0, _, _ => (0, [])
  | f + 1, a, n =>
    if n = 0 then (0, [])
    else
      let k := min n (64 - a % 64)
      let (c, bs) := memRead s src a k who
      if c ≠ 0 then (c, [])
      else
        let (c', r) := memReadAny s src who f (a + k) (n - k)
        (c', bs ++ r)

def locRead (s : State) (src : Nat) (l : Loc) (n : Nat) (who : Waiter) : BitVec 8 × List Byte :=
  match l with
  | .tile p a => (0, rdBytes (getCore s p).tile a n)
  | .sram r a => (0, (List.range n).map fun i => sramByte s r (a + i))
  | .pkg a => memReadAny s src who (n / 64 + 2) a n
  | .fab _ => (stNoMemory, [])

def locWrite (s : State) (src : Nat) (l : Loc) (bs : List Byte) (who : Waiter) : State × Option (BitVec 8) :=
  match l with
  | .tile p a => (tileStore s p a bs, some 0)
  | .sram r a => ((bs.zipIdx a).foldl (fun s e => setSramByte s r e.2 e.1) s, some 0)
  | .pkg a => memWrite s src a bs who
  | .fab _ => (s, some stNoMemory)

/-- The place n bytes further on. -/
def Loc.add (l : Loc) (n : Nat) : Loc :=
  match l with
  | .tile p a => .tile p (a + n)
  | .sram r a => .sram r (a + n)
  | .pkg a => .pkg (a + n)
  | .fab a => .fab ((a + n) % 2 ^ 64)

/-! Reduction epochs (R267). -/

def epochZero : EpochSt := ⟨0, [], [], []⟩
def getEpoch (s : State) (h n : Nat) : EpochSt := mget (fun _ => epochZero) n (half s h).epochs
def setEpoch (s : State) (h n : Nat) (e : EpochSt) : State :=
  updHalf s h fun x => { x with epochs := mset (fun _ => epochZero) n e x.epochs }

/-- The code of an add of source k to epoch n: 0 while it is open and the source has not closed (R262). -/
def epochCode (s : State) (h n k : Nat) : BitVec 8 :=
  let e := getEpoch s h n
  if getF s F.HBM_REPOCH_OPEN h n = 0 then stEpochClosed
  else if getF s F.HBM_REPOCH_NSRCM1 h n < k then stBadSource
  else if e.closed.contains k || e.closing.any (fun c => c.1 == k) then stEpochClosed
  else 0

/-- The accumulators of epoch n go, but for those another open epoch has added to (R265, R267). -/
def releaseAccs (s : State) (h n : Nat) : State :=
  let f (e : Nat × AccSt) : Nat × AccSt := (e.1, { e.2 with epochs := e.2.epochs.filter (· != n) })
  updHalf s h fun x => { x with accs := (x.accs.map f).filter fun e => !e.2.epochs.isEmpty }

/-- EPOCH_DONE (R267): every source has closed and every add is applied; the closing tokens complete. -/
def epochCheck (s : State) (h n : Nat) : State :=
  let e := getEpoch s h n
  if getF s F.HBM_REPOCH_OPEN h n = 1 ∧ e.closing = [] ∧ getF s F.HBM_REPOCH_NSRCM1 h n + 1 = e.closed.length ∧
      !((half s h).adds.any fun a => a.epoch == n) then
    let s := putF (putF s F.HBM_REPOCH_OPEN h 0 n) F.HBM_REPOCH_DONE h 1 n
    let s := setEpoch (releaseAccs s h n) h n epochZero
    e.closers.foldl (fun s w => answerW s w.who w.code false w.old) s
  else s

/-- A source has closed. -/
def addClosed (s : State) (h n k : Nat) (w : Closer) : State :=
  let e := getEpoch s h n
  let s := setEpoch s h n { e with closed := e.closed ++ [k], closers := e.closers ++ [w] }
  putF s F.HBM_REPOCH_NCLOSED h (e.closed.length + 1) n

/-- Source k of epoch n still has adds that wait for their turn or in the write tracker. -/
def sourceWaits (s : State) (h n k : Nat) : Bool :=
  let held (o : HeldOp × Waiter) : Bool :=
    match o.1 with
    | .atomic r .. => r.epoch.toNat == n && r.src.toNat == k
    | _ => false
  ((half s h).adds.any fun a => a.epoch == n && a.src == k) || (half s h).ckp.ops.any held

/-- Closes that waited for their source's own adds (R267). -/
def settleClosing (s : State) (h n : Nat) : State :=
  let e := getEpoch s h n
  let waits := sourceWaits s h n
  let s := setEpoch s h n { e with closing := e.closing.filter fun c => waits c.1 }
  epochCheck ((e.closing.filter fun c => !waits c.1).foldl (fun s c => addClosed s h n c.1 c.2) s) h n

/-- Source k closes its part of epoch n; `w` is answered when the epoch is DONE, at once on a refusal. An element that was
refused keeps its code. (Log 78, DEDUCED). -/
def closeSource (s : State) (h n k : Nat) (w : Closer) : State × Option (BitVec 8) :=
  let c := epochCode s h n k
  if c ≠ 0 then (s, some (if w.code = 0 then c else w.code))
  else
    let e := getEpoch s h n
    (settleClosing (setEpoch s h n { e with closing := e.closing ++ [(k, w)] }) h n, none)

/-- The old value of a closing add that has been applied stands with its close (R263). -/
def keepOld (s : State) (h n : Nat) (who : Waiter) (old : List W64) : State :=
  let f (w : Closer) : Closer := if w.who = who then { w with old := old } else w
  let e := getEpoch s h n
  setEpoch s h n { e with closing := e.closing.map fun c => (c.1, f c.2), closers := e.closers.map f }

/-- The element of a closing add ends with code c; its close goes on (R267). -/
def failClose (s : State) (h n : Nat) (who : Waiter) (c : BitVec 8) : State :=
  let f (w : Closer) : Closer := if w.who = who then { w with code := c, old := [] } else w
  let e := getEpoch s h n
  setEpoch s h n { e with closing := e.closing.map fun x => (x.1, f x.2), closers := e.closers.map f }

/-- Ends an open epoch without DONE (R267): waiting adds are discarded, tokens concerned complete with EPOCH_TIMEOUT. -/
def abortEpoch (s : State) (h n : Nat) (timedOut : Bool) : State :=
  let e := getEpoch s h n
  let mine := (half s h).adds.filter fun a => a.epoch == n
  let s := putF s F.HBM_REPOCH_OPEN h 0 n
  let s := if timedOut then putF s F.HBM_REPOCH_TIMEDOUT h 1 n else s
  let s := updHalf s h fun x => { x with adds := x.adds.filter fun a => a.epoch != n }
  let s := setEpoch (releaseAccs s h n) h n epochZero
  answerAll s ((mine.filter fun a => !a.closes).map Add64.who ++ e.closing.map (fun c => c.2.who) ++
    e.closers.map Closer.who) stEpochTimeout

/-! Capacity (R268). -/

/-- Whether a new accumulator or waiting add finds room: on the base die (false), in the reserve (true), or not. -/
def newEntry (s : State) (a : Nat) : Option Bool :=
  let x := half s (addrHalf a)
  match hbmWhere s a with
  | none => none
  | some (ch, pc, _) =>
    let all := (x.accs.map fun e => (e.1, e.2.spill)) ++ x.adds.map fun w => (w.addr, w.spill)
    let here (p : Nat × Bool) : Option (Nat × Nat × Nat) := hbmWhere s p.1
    let die := (all.filter fun p => !p.2 && (here p).any fun t => t.1 == ch).length
    let spilt := (all.filter fun p => p.2 && (here p).any fun t => t.1 == ch && t.2.1 == pc).length
    if die < 8192 then some false
    else if spilt < getF s F.HBM_MAPCFG_RESV (addrHalf a) * 2 ^ 14 then some true
    else none

/-! Atomics (R263). -/

/-- The old value of an atomic goes where RET sends it. -/
def giveOld (s : State) (src : Nat) (ret : Option Loc) (w old : Nat) : State :=
  match ret with
  | some l => (locWrite s src l (toBytes w old) .nobody).1
  | none => s

/-- A plain update of the word. -/
def atomPlain (s : State) (r : AtomReq) : State :=
  let (v, wr) := atomResult s r
  if wr then hbmStore s r.addr.toNat (toBytes (fcWidth r.fc.toNat / 8) v) else s

/-- An add into the word's accumulator, which then rewrites the word. -/
def atomAcc (s : State) (a : Nat) (st : AccSt) (x : Num) : State :=
  let st := accAdd st x
  updHalf (setHbmBytes s a (toBytes (accWidth st) (accWord st))) (addrHalf a) fun y => { y with accs := mput a st y.accs }

/-- Adds one accumulator takes (R265). -/
def accMax : Nat := 2 ^ 42

/-- A reproducible BF16 or FP32 add (R265, R268). -/
def atomExact (s : State) (r : AtomReq) : State × BitVec 8 :=
  let a := r.addr.toNat
  let h := addrHalf a
  let n := r.epoch.toNat
  let wide := r.fc = 0xA
  let w := if wide then 4 else 2
  let x := (if wide then fF32 else fBF16).decode (r.x.toNat % 2 ^ (8 * w))
  let join (st : AccSt) : AccSt := { st with epochs := if st.epochs.contains n then st.epochs else st.epochs ++ [n] }
  match mfind a (half s h).accs with
  | some st =>
    if accMax ≤ st.adds then (s, stAccFull)
    else if st.wide = wide then (atomAcc s a (join st) x, 0)
    else (atomAcc s a (accLoad { join st with wide := wide } (hbmNat s a w)) x, 0)
  | none =>
    match newEntry s a with
    | none => (s, stAccFull)
    | some sp => (atomAcc s a (accLoad ⟨wide, 0, false, false, false, true, [n], 0, sp⟩ (hbmNat s a w)) x, 0)

/-- May waiting add `a` be applied: every lower source has closed with nothing waiting, and nothing earlier of its
source waits for the word (R266)? (Log 77, DEDUCED). -/
def addReady (e : EpochSt) : List Add64 → Add64 → Bool
  | l, a => (List.range a.src).all e.closed.contains &&
    !(l.any fun b => b.epoch == a.epoch && decide (b.src < a.src)) &&
    ((l.takeWhile fun b => b != a).all fun b => !(b.epoch == a.epoch && b.src == a.src && b.addr == a.addr))

/-- An FP64 add applied to its word. -/
def add64Word (s : State) (a : Nat) (x : W64) : State :=
  hbmStore s a (toBytes 8 (fF64.round .nearest false (Num.add (f64Num (hbmWord s a)) (f64Num x)).1).1)

/-- Applies an atomic that has reached its base die. The code is none while it waits: a reproducible FP64 add for its
turn (R266), a closing one for DONE (R267), which closes its source though its own element be refused. (Log 54, DEDUCED). -/
def applyAtomic (s : State) (r : AtomReq) (ret : Option Loc) (die : Option Nat) (who : Waiter) :
    State × Option (BitVec 8) :=
  let a := r.addr.toNat
  let h := addrHalf a
  let n := r.epoch.toNat
  let k := r.src.toNat
  let w := fcWidth r.fc.toNat / 8
  let old := hbmNat s a w
  let close (c : BitVec 8) (s : State) : State × Option (BitVec 8) :=
    if r.close then closeSource s h n k ⟨who, c, if c = 0 then [BitVec.ofNat 64 old] else [], die, a⟩ else (s, some c)
  if r.repro ∧ r.aop = 0 ∧ (fcFloat r.fc.toNat).isSome then
    let c := epochCode s h n k
    if c ≠ 0 then (s, some c)
    else if r.fc = 0xC then
      let me : Add64 := ⟨n, k, a, r.x, who, r.close, die, ret, false⟩
      let adds := (half s h).adds
      if addReady (getEpoch s h n) (adds ++ [me]) me then close 0 (giveOld (add64Word s a r.x) h ret 8 old)
      else
        match newEntry s a with
        | none => close stAccFull s
        | some sp =>
          let s := updHalf s h fun y => { y with adds := y.adds ++ [{ me with spill := sp }] }
          ((close 0 s).1, none)
    else
      let (s, c) := atomExact s r
      if c ≠ 0 then close c s else close 0 (giveOld s h ret w old)
  else
    match mfind a (half s h).accs with
    | some st =>
      if r.aop = 0 ∧ ((r.fc = 0xA ∧ st.wide) ∨ (r.fc = 0x5 ∧ !st.wide)) then
        if accMax ≤ st.adds then close stAccFull s
        else close 0 (giveOld (atomAcc s a st ((accFmt st).decode (r.x.toNat % 2 ^ (8 * w)))) h ret w old)
      else close 0 (giveOld (atomPlain s r) h ret w old)
    | none => close 0 (giveOld (atomPlain s r) h ret w old)

/-- An atomic refused with code c before it reached its word closes its source all the same (R267). -/
def refusedAtom (s : State) (r : AtomReq) (die : Option Nat) (who : Waiter) (c : BitVec 8) :
    State × Option (BitVec 8) :=
  let a := r.addr.toNat
  if r.close ∧ a < hbmEnd then closeSource s (addrHalf a) r.epoch.toNat r.src.toNat ⟨who, c, [], die, a⟩ else (s, some c)

/-- An atomic of half `src`, from die `die` of it (none: a control or switch die), on one element: refused, held by the
tracker, or applied. A half that is not RUNNING refuses it before its target is looked at. (Log 146, DEDUCED). -/
def memAtomic (s : State) (src : Nat) (r : AtomReq) (ret : Option Loc) (die : Option Nat) (who : Waiter) :
    State × Option (BitVec 8) :=
  let a := r.addr.toNat
  let w := fcWidth r.fc.toNat / 8
  if hbmEnd ≤ a then (s, some stAtomTarget)
  else
    let c := memStatus s src a
    if c = stHalfDown then (s, some c)
    else if w = 0 ∨ a % w ≠ 0 then refusedAtom s r die who stAtomTarget
    else if c ≠ 0 then refusedAtom s r die who c
    else if trackerHolds s a || seamHeld s src a || behind (half s (addrHalf a)).ckp.ops [a / 64] who then
      (holdOp s a (.atomic r ret die src) who, none)
    else applyAtomic s r ret die who

/-- Answers `who` if the operation is over. -/
def finishW (p : State × Option (BitVec 8)) (who : Waiter) : State :=
  match p.2 with
  | some c => answerW p.1 who c false []
  | none => p.1

end Sys2Proof.Machine
end

