-- ==== Sys2Proof/Machine/Mem.lean ====
section
/-! DEFINITION. Memory commands: reads, writes and atomics of a half's requesters, reduction epochs, the write tracker,
traffic engines, scrubs and refresh (spec/10, R360, R410, R494). -/

namespace Sys2Proof.Machine

/-- An ECC outcome of an access to a channel (R410, R413). -/
def eccChannel (s : State) (ch : Nat) (a : W64) (e : Ecc) : State :=
  match e with
  | .ok => s
  | .corrected => detectCorrected s utChan ch 0x0003 a 0
  | .uncorrectable => detectUncorrected s utChan ch 0x0004 a 0

/-- An ECC outcome in a slot's tile memory: an uncorrectable one halts the running gang (R412). -/
def eccSlot (s : State) (p : Nat) (a : W64) (e : Ecc) : State :=
  match e with
  | .ok => s
  | .corrected => detectCorrected s utSlot p 0x0001 a 0
  | .uncorrectable =>
    let s := detectUncorrected s utSlot p 0x0002 a 0
    let l := rowLeader s (slotRow p)
    if slotNamed s p ∧ gangState s l = gsRunning then loseSlot (unitErrorHalt s l utSlot) p else s

/-- What the ECC check of a read at a package address comes to (R410, R413). -/
def eccAt (s : State) (a : Nat) (ecc : Ecc) : State :=
  if inAperture a then eccSlot s (apSlot a) (BitVec.ofNat 64 a) ecc
  else match hbmWhere s a with
    | some (ch, _, _) => eccChannel s ch (BitVec.ofNat 64 a) ecc
    | none => s

/-- MEMORY_READ (R248, R261, R410, R508): the line bytes, or a status. An uncorrectable line answers
MEM_UNCORRECTABLE. While the seam admits nothing it is answered later (R279). (Log 75, DEDUCED). -/
def execMemoryRead (h : BitVec 1) (addr : BitVec 48) (len : BitVec 7) (ecc : Ecc) (s : State) : Out :=
  .next (
    let a := addr.toNat
    let (c, bs) := memRead s h.toNat a len.toNat .nobody
    if c ≠ 0 then answer s (.code c)
    else if seamHeld s h.toNat a then
      let (s', who) := askLater s h.toNat
      answer (holdOp s' a (.read a len.toNat h.toNat) who) (.later s.asked)
    else answer (eccAt s a ecc) (if ecc = .uncorrectable then .code stUncorrectable else .bytes bs))

/-- The answer of a command whose operation is over, or the number under which it comes later (R23). -/
def answerNow (s : State) (p : State × Option (BitVec 8)) (val : Resp) : State :=
  match p.2 with
  | some c => answer { p.1 with asked := s.asked } (if c = 0 then val else .code c)
  | none => answer p.1 (.later s.asked)

/-- MEMORY_WRITE (R261): the bytes merge into their line in one step, or a status; a held write is answered later. -/
def execMemoryWrite (h : BitVec 1) (addr : BitVec 48) (bytes : List Byte) (s : State) : Out :=
  .next (
    let (s', who) := askLater s h.toNat
    answerNow s (memWrite s' h.toNat addr.toNat bytes who) .ok)

/-- MEMORY_ATOMIC (R263-R268): the old value, or a status; one that waits is answered later. -/
def execMemoryAtomic (h : BitVec 1) (req : AtomReq) (s : State) : Out :=
  .next (
    let a := req.addr.toNat
    if 5 ≤ req.aop.toNat ∨ !([0x5, 0xA, 0xB, 0xC, 0xD].contains req.fc.toNat) ∨
        (3 ≤ req.aop.toNat ∧ req.fc = 0x5) then
      answer s (.code rcBadFormat)
    else
      let old := hbmNat s a (fcWidth req.fc.toNat / 8)
      let (s', who) := askLater s h.toNat
      answerNow s (memAtomic s' h.toNat req none none who) (.value (BitVec.ofNat 64 old)))

/-- TILE_APERTURE_ACCESS (R494): an access to a slot's tile memory. -/
def execTileApertureAccess (addr : BitVec 48) (write : Bool) (len : Nat) (bytes : List Byte) (s : State) : Out :=
  .next (
    let a := addr.toNat
    if !inAperture a ∨ !slotServes s (apSlot a) ∨ 2 ^ 20 < a % 2 ^ 20 + len then answer s (.code stNoMemory)
    else if write then answer (tileStore s (apSlot a) (a % 2 ^ 20) bytes) .ok
    else answer s (.bytes (rdBytes (getCore s (apSlot a)).tile (a % 2 ^ 20) len)))

/-! Epochs. -/

/-- A waiting FP64 add whose turn has come is applied, or ends with CHANNEL_OFF on a channel fenced meanwhile (R253, R266).
The answer of one that closes its source comes with DONE (R267). -/
def add64Apply (s : State) (h : Nat) (a : Add64) : State :=
  let s := updHalf s h fun x => { x with adds := x.adds.erase a }
  if channelOff s a.addr then
    if a.closes then failClose s h a.epoch a.who stChannelOff else answerW s a.who stChannelOff false []
  else
    let old := hbmNat s a.addr 8
    let s := giveOld (add64Word s a.addr a.x) h a.ret 8 old
    if a.closes then keepOld s h a.epoch a.who [BitVec.ofNat 64 old]
    else answerW s a.who 0 false [BitVec.ofNat 64 old]

/-- REPRO_FP64_ADD_APPLY (R266): the first waiting add of epoch n whose turn has come. -/
def execReproFp64AddApply (h : BitVec 1) (n : BitVec 4) (s : State) : Out :=
  .next (
    let e := getEpoch s h.toNat n.toNat
    let l := (half s h.toNat).adds
    match l.find? fun a => a.epoch == n.toNat && addReady e l a with
    | none => s
    | some a => settleClosing (add64Apply s h.toNat a) h.toNat n.toNat)

/-- A write of HBM_REPOCHn (R267): OPEN = 1 opens a closed epoch, OPEN = 0 aborts an open one. -/
def epochWrite (s : State) (by' : Requester) (h n : Nat) (v : W64) : State :=
  guarded s by' .hbmRepoch h n fun s =>
    let isOpen := getF s F.HBM_REPOCH_OPEN h n = 1
    let opening := bit v.toNat 63
    if opening ∧ isOpen then denied s by'
    else
      let s := if bit v.toNat 61 then putF s F.HBM_REPOCH_TIMEDOUT h 0 n else s
      let s := if !opening ∧ isOpen then abortEpoch s h n false else s
      let s := putF s F.HBM_REPOCH_NSRCM1 h (bits v.toNat 47 32) n
      let s := putF s F.HBM_REPOCH_TIMEOUT h (bits v.toNat 15 0) n
      done (if opening then
        let s := putF (putF (putF s F.HBM_REPOCH_OPEN h 1 n) F.HBM_REPOCH_DONE h 0 n) F.HBM_REPOCH_NCLOSED h 0 n
        setEpoch s h n { epochZero with opened := hallTime s h }
      else s)

/-- EPOCH_OPEN (R267). -/
def execEpochOpen (by' : Requester) (h : BitVec 1) (n : BitVec 4) (v : W64) (s : State) : Out :=
  .next (epochWrite s by' h.toNat n.toNat (setBits v 63 63 1))

/-- EPOCH_ABORT (R267). -/
def execEpochAbort (by' : Requester) (h : BitVec 1) (n : BitVec 4) (v : W64) (s : State) : Out :=
  .next (epochWrite s by' h.toNat n.toNat (setBits v 63 63 0))

/-- EPOCH_TIMEOUT (R267): TIMEOUT, in units of 10 µs of hall time, has passed since the epoch opened. -/
def execEpochTimeout (h : BitVec 1) (n : BitVec 4) (s : State) : Out :=
  .next (
    let h := h.toNat
    let n := n.toNat
    if getF s F.HBM_REPOCH_OPEN h n = 1 ∧ getF s F.HBM_REPOCH_TIMEOUT h n ≠ 0 ∧
        (getEpoch s h n).opened + 10000 * getF s F.HBM_REPOCH_TIMEOUT h n ≤ hallTime s h then abortEpoch s h n true
    else s)

/-! The write tracker. -/

/-- The lines a held operation writes. -/
def heldLines : HeldOp → List Nat
  | .write ls .. => ls.map Prod.fst
  | .atomic r .. => [r.addr.toNat]
  | .read .. => []

/-- Does the operation still wait for the seam? -/
def stillAcross (s : State) : HeldOp → Bool
  | .write ls _ src => ls.any fun l => seamHeld s src l.1
  | .atomic r _ _ src => seamHeld s src r.addr.toNat
  | .read a _ src => seamHeld s src a

/-- Does the operation still meet a slice that is not stashed, wait for the seam, or stand behind one of its requester, among
those kept so far, that does? -/
def stillHeld (s : State) (kept : List (HeldOp × Waiter)) (o : HeldOp × Waiter) : Bool :=
  ((heldLines o.1).any fun a => !inAperture a && trackerHolds s a) || stillAcross s o.1 || behind kept (opLines o.1) o.2

/-- Applies a held operation and answers who waits for it; a channel fenced meanwhile takes nothing (R253). -/
def applyHeld (s : State) (e : HeldOp × Waiter) : State :=
  match e.1 with
  | .write ls err _ =>
    let off (l : Nat × List Byte) : Bool := !inAperture l.1 && channelOff s l.1
    let err := if err = 0 ∧ ls.any off then stChannelOff else err
    answerW ((ls.filter fun l => !off l).foldl (fun s l => storeLine s l.1 l.2) s) e.2 err false []
  | .atomic r ret die _ =>
    let h := addrHalf r.addr.toNat
    let old := hbmNat s r.addr.toNat (fcWidth r.fc.toNat / 8)
    let (s, c) := if channelOff s r.addr.toNat then refusedAtom s r die e.2 stChannelOff
      else applyAtomic s r ret die e.2
    let s := match c with
      | some c => answerW s e.2 c false [BitVec.ofNat 64 old]
      | none => s
    settleClosing s h r.epoch.toNat
  | .read a n src =>
    let (c, bs) := memRead s src a n .nobody
    match e.2 with
    | .memory _ k => { s with late := mput k (if c = 0 then .bytes bs else .code c) s.late }
    | _ => s

/-- The operations that stay held, in order. -/
def keptHeld (s : State) (ops : List (HeldOp × Waiter)) : List (HeldOp × Waiter) :=
  ops.foldl (fun kept o => if stillHeld s kept o then kept ++ [o] else kept) []

/-- Operations that no longer meet an unstashed slice are applied in order. -/
def releaseHeld (s : State) (h : Nat) : State :=
  let ops := (half s h).ckp.ops
  let kept := keptHeld s ops
  let due := ops.filter fun o => !kept.contains o
  due.foldl applyHeld (updHalf s h fun x => { x with ckp := { x.ckp with ops := kept } })

/-- TRACKER_HOLD_RELEASE (R360): the slices of the oldest hold are stashed and marked copied, then what waited for them
is applied in order. A full stash keeps the hold. -/
def execTrackerHoldRelease (h : BitVec 1) (s : State) : Out :=
  .next (
    let h := h.toNat
    match (half s h).ckp.ops with
    | [] => s
    | e :: _ =>
      let ls := (heldLines e.1).filter fun a => !inAperture a && trackerHolds s a
      if ls.any (stashFull s) then s
      else releaseHeld (((ls.map (sliceOf s)).dedup).foldl (fun s k => stashSlice s h k) s) h)

/-! Traffic engines (R271). -/

/-- Owner of a shared resource (R402); after load a traffic engine is the bring-up's and OE8 the repair's. -/
def ownerKey (kind i : Nat) : Nat := 65536 * kind + i
def ownerDefault (key : Nat) : Nat := if key / 65536 = 3 then 2 else if key / 65536 = 4 then 1 else 0
def ownerOf (s : State) (kind i : Nat) : Nat := mget ownerDefault (ownerKey kind i) s.owners
def setOwner (s : State) (kind i v : Nat) : State := { s with owners := mset ownerDefault (ownerKey kind i) v s.owners }

/-- A write of HBM_TG_CTL: its fields must be legal, its mode's party must own the engine, a START is refused while a run
is in progress, and bring-up runs only on a channel in OUT. Off runs nothing. (Log 79, DEDUCED). -/
def tgWrite (s : State) (by' : Requester) (ch : Nat) (v : W64) : State :=
  guarded s by' .hbmTgCtl ch 0 fun s =>
    let mode := bits v.toNat 61 60
    let pat := bits v.toNat 59 56
    let start := bit v.toNat 63
    let busy := getF s F.HBM_TG_STAT_BUSY ch = 1
    let o := ownerOf s 3 ch
    if !inRange .hbmTgCtl v ∨ (mode = 1 ∧ pat ≠ 0 ∧ pat ≠ 5) ∨ (mode = 1 ∧ o ≠ 1) ∨ (mode = 2 ∧ o ≠ 2) ∨
        (start ∧ busy) ∨ (start ∧ mode = 2 ∧ getF s F.HBM_CHST_STATE ch ≠ 2) then denied s by'
    else
      let s := setReg s .hbmTgCtl ch 0 (storedWord .hbmTgCtl (reg s .hbmTgCtl ch 0) v)
      let s := if getF s F.HBM_TG_CTL_SEED ch = 0 then putF s F.HBM_TG_CTL_SEED ch 1 else s
      let s := if start ∧ mode ≠ 0 then
          updHalf (putF s F.HBM_TG_STAT_BUSY ch 1) (ch / 512) fun x => { x with tgSeen := x.tgSeen.filter (· != ch) }
        else s
      done (if bit v.toNat 62 ∧ getF s F.HBM_TG_STAT_BUSY ch = 1 then
        putF (putF s F.HBM_TG_STAT_BUSY ch 0) F.HBM_TG_STAT_DONE ch 1 else s)

/-- TG_START. -/
def execTgStart (by' : Requester) (ch : BitVec 10) (v : W64) (s : State) : Out :=
  .next (tgWrite s by' ch.toNat (setBits v 63 63 1))

/-- TG_STOP: the run ends with the access in progress. -/
def execTgStop (by' : Requester) (ch : BitVec 10) (v : W64) (s : State) : Out :=
  .next (tgWrite s by' ch.toNat (setBits v 63 62 1))

/-- TG_MODE_SELECT. -/
def execTgModeSelect (by' : Requester) (ch : BitVec 10) (v : W64) (s : State) : Out :=
  .next (tgWrite s by' ch.toNat (setBits v 63 62 0))

/-- Errors of a run: counted, FAIL set, and the first failing line of the latest run kept (R271). -/
def tgFail (s : State) (ch n pc off : Nat) : State :=
  let s := putF (bumpF s F.HBM_TG_STAT_ERRORS ch n) F.HBM_TG_STAT_FAIL ch 1
  if (half s (ch / 512)).tgSeen.contains ch then s
  else
    let s := updHalf s (ch / 512) fun x => { x with tgSeen := x.tgSeen ++ [ch] }
    putF (putF s F.HBM_TG_ERRADDR_PC ch pc) F.HBM_TG_ERRADDR_OFFSET ch (off / 64 * 64)

/-- TG_RUN_END (R271): DONE, and FAIL with the first failing line if the run met an error. -/
def execTgRunEnd (ch : BitVec 10) (errors : BitVec 32) (pc : BitVec 1) (offset : BitVec 31) (s : State) : Out :=
  .next (
    let ch := ch.toNat
    if getF s F.HBM_TG_STAT_BUSY ch = 0 then s
    else
      let s := putF (putF s F.HBM_TG_STAT_BUSY ch 0) F.HBM_TG_STAT_DONE ch 1
      if errors = 0 then s else tgFail s ch errors.toNat pc.toNat offset.toNat)

/-- Is the in-service test of a channel enabled (R271, R400)? -/
def scrubOn (s : State) (ch : Nat) : Bool :=
  ownerOf s 3 ch == 1 && getF s F.HBM_CHST_STATE ch == 0 &&
    (getF s F.HBM_TG_CTL_MODE ch == 1 || bit (mget z64 ch (half s (ch / 512)).cfg.chantest).toNat 63)

/-- SCRUB_READ (R271, R418): one line checked in refresh time; what it finds is counted and classified. -/
def execScrubRead (ch : BitVec 10) (pc : BitVec 1) (offset : BitVec 31) (ecc : Ecc) (s : State) : Out :=
  .next (
    let ch := ch.toNat
    if !scrubOn s ch ∨ ecc = .ok then s else eccChannel (tgFail s ch 1 pc.toNat offset.toNat) ch 0 ecc)

/-- DRAM_REFRESH (R48, R244): k × 1,024 refresh commands at the normal rate, twice as many while the stack is hot.
(Log 72, DEDUCED). -/
def execDramRefresh (ch : BitVec 10) (k : BitVec 32) (s : State) : Out :=
  .next (
    let ch := ch.toNat
    if !domainOn s (domStack (ch / 32)) then s
    else bumpF s F.HBM_CHST_REF_K ch (if getF s F.HBM_CHST_HOT ch = 1 then 2 * k.toNat else k.toNat))

/-- CHANNEL_TRAINING_DONE (R458): the channels of a stack in TRAINING enter OUT; a base die that came back without its key
set has it loaded again (R251). -/
def execChannelTrainingDone (stack : BitVec 5) (s : State) : Out :=
  .next (
    let b := stack.toNat
    let back := (rangeFrom (32 * b) 32).any fun ch => getF s F.HBM_CHST_STATE ch == 3
    let s := if back && !(half s (b / 16)).baseKeys.any (fun e => e.1 == b) then loadKey s b else s
    (rangeFrom (32 * b) 32).foldl (fun s ch =>
      if getF s F.HBM_CHST_STATE ch = 3 then putF s F.HBM_CHST_STATE ch 2 else s) s)

/-- BRIDGE_ADMISSION_RESUME (R279): cross-half requests are admitted again over the remaining bridge. -/
def execBridgeAdmissionResume (b : BitVec 1) (s : State) : Out :=
  .next (if getF s F.SEAM_STATE_STATE b.toNat = 1 then releaseHeld (releaseHeld { s with seamPause := false } 0) 1 else s)

end Sys2Proof.Machine
end

