-- ==== Sys2Proof/Machine/Leat.lean ====
section
/-! DEFINITION. The leat fabric (spec/12): region checks, requests and responses, jobs and epochs, links, gateways. -/

namespace Sys2Proof.Machine

/-! Completion codes (R322). -/

def ltNoregion : BitVec 8 := 0x60
def ltKey : BitVec 8 := 0x61
def ltSource : BitVec 8 := 0x62
def ltWindow : BitVec 8 := 0x63
def ltWindowEdge : BitVec 8 := 0x64
def ltPerm : BitVec 8 := 0x65
def ltBounds : BitVec 8 := 0x66
def ltTimeout : BitVec 8 := 0x67
def ltNoroute : BitVec 8 := 0x68
def ltLinkLost : BitVec 8 := 0x69
def ltUnbound : BitVec 8 := 0x6A
def gwSize : BitVec 8 := 0x70
def gwNopod : BitVec 8 := 0x71
def gwRemote : BitVec 8 := 0x72
def gwTimeoutCode : BitVec 8 := 0x73

/-- An outstanding answer more for who waits. -/
def moreWait (s : State) (w : Waiter) : State :=
  match w with
  | .hoist u id _ => updCtl s u fun c =>
      { c with flights := c.flights.map fun f => if f.id = id then { f with waitOn := f.waitOn + 1 } else f }
  | _ => s

/-! Sources (R309, R317). -/

/-- The incarnation expected of source (node, half) at half h; 0 admits none. -/
def srcInc (s : State) (h src : Nat) : Nat := bits (reg s .leatSrcinc h (src / 4)).toNat (16 * (src % 4) + 15) (16 * (src % 4))

def srcOf (p : Packet) : Nat := 2 * p.srcNode.toNat + p.srcHalf.toNat

/-- Check 1 of R311: a packet of another incarnation is discarded, counted and recorded. -/
def fenced (s : State) (h : Nat) (p : Packet) : Bool := srcInc s h (srcOf p) == 0 || srcInc s h (srcOf p) != p.inc.toNat

/-- The record carries the number received and, in DETAIL, the one expected. -/
def fence (s : State) (h : Nat) (p : Packet) : State :=
  let x := causeNow s h utRemote (srcOf p) 0x000B p.daddr (srcInc s h (srcOf p)) false
  writeRecord (bumpF s F.LEAT_DROP_FENCED h) h utRemote (srcOf p) clCorrected false false false { x with inc := p.inc.toNat }

/-! Region entries (R308). -/

def regionWord (s : State) (h i k : Nat) : Nat := (reg s .leatRegion h (8 * i + k)).toNat

/-- t lies within m of x, on either side (R310, R333). (Log 81, DEDUCED). -/
def within (m t x : Nat) : Bool := decide (t < x + m) && decide (x < t + m)

/-- What the checks of R311 decide. -/
inductive Verdict where
  | drop
  | refuse (c : BitVec 8)
  | accept (addr : Nat) (edge : Bool)
  | gateway (i : Nat)
deriving DecidableEq, Repr

/-- The line address an access starts at; an atomic names its element. -/
def firstLine (p : Packet) (off : Nat) : Nat := if p.ptype = 2 then off / 64 * 64 else off

/-- R311: the checks of a request at target half h, in order. `len` is what it reaches beyond its first line. -/
def verdict (s : State) (h : Nat) (p : Packet) (len : Nat) : State × Verdict :=
  let d := p.daddr.toNat
  let i := bits d 54 44
  let off := bits d 43 0
  let w0 := regionWord s h i 0
  let w1 := regionWord s h i 1
  let sset := bits w0 59 54
  let src := srcOf p
  let t := hallTime s h
  let ws := regionWord s h i 3
  let we := regionWord s h i 4
  let edge := within 40 t ws || (we != 2 ^ 64 - 1 && within 40 t we)
  let inWin := decide (ws ≤ t) && (we == 2 ^ 64 - 1 || decide (t < we))
  let perm := match p.ptype.toNat with
    | 0 => bit w0 62
    | 1 => bit w0 61
    | 2 => bit w0 60 && !bit w0 53
    | _ => false
  if fenced s h p then (fence s h p, .drop)
  else if bits w1 31 16 ≠ p.epoch.toNat then (bumpF s F.LEAT_DROP_STALE_EPOCH h, .drop)
  else if !bit w0 63 then (s, .refuse ltNoregion)
  else if bits w1 63 32 ≠ p.key.toNat then (s, .refuse ltKey)
  else if !bit (reg s .leatSset h (8 * sset + src / 64)).toNat (src % 64) then (s, .refuse ltSource)
  else if !inWin then (s, .refuse (if edge then ltWindowEdge else ltWindow))
  else if !perm then (s, .refuse ltPerm)
  else if bits (regionWord s h i 2) 43 0 < firstLine p off + len then (s, .refuse ltBounds)
  else if !halfRunning s h then (s, .refuse stHalfDown)
  else
    let s := if edge then bumpF s F.LEAT_DROP_EDGE_ACCEPT h else s
    (s, if bit w0 53 then .gateway i else .accept (bits w0 47 0 + off) edge)

/-! Serving a request (R311, R314). -/

/-- Bytes of a packet's lines. -/
def packetBytes (p : Packet) : List Byte := wordBytes p.data

/-- The lines of a WRITE with the bytes FIRST and LAST leave valid (R261, R304). -/
def writeLines (p : Packet) (addr : Nat) : List (Nat × List Byte) :=
  let bs := packetBytes p
  let n := p.lines.toNat
  (List.range n).map fun i =>
    let lo := if i = 0 then p.first.toNat else 0
    let hi := if i + 1 = n then p.last.toNat else 63
    (addr + 64 * i + lo, ((bs.drop (64 * i)).take (hi + 1)).drop lo)

/-- The element request an ATOMIC carries: DADDR names the element; the first operand word is x, or for CAS the compare
value, followed by the new one (R263, R314). -/
def atomOf (p : Packet) (addr : Nat) : AtomReq :=
  let a := p.data.getD 0 0
  let b := p.data.getD 1 0
  { addr := BitVec.ofNat 48 addr, fc := p.fc, aop := p.aop, x := if p.aop = 4 then b else a, cmp := a, repro := p.repro,
    epoch := p.repoch, close := p.close, src := p.sindex.setWidth 17 }

/-- Is the operation and format pairing one of R263? -/
def atomLegal (aop fc : Nat) : Bool :=
  decide (aop ≤ 4) && [0x5, 0xA, 0xB, 0xC, 0xD].contains fc && !(decide (3 ≤ aop) && fc == 0x5)

/-- The die a hoist engine lies on; none for a control die's (R276, R499). -/
def unitDie (sunit : Nat) : Option Nat :=
  if sunit < 4352 then some (sunit / 544 % 4) else if sunit < 4480 then some ((sunit - 4352) / 16 % 4) else none

/-- A WRITE or ATOMIC of half `src`, from die `die` of it, at an accepted address; none while it waits. -/
def serveWrite (s : State) (src : Nat) (die : Option Nat) (p : Packet) (addr : Nat) (ret : Option Loc) (who : Waiter) :
    State × Option (BitVec 8) :=
  if p.ptype = 1 then memWriteLines s src (writeLines p addr) who
  else if p.lines = 0 then
    if p.close then closeSource s (addrHalf addr) p.repoch.toNat p.sindex.toNat ⟨who, 0, [], die, addr⟩ else (s, some 0)
  else if !atomLegal p.aop.toNat p.fc.toNat then refusedAtom s (atomOf p addr) die who rcBadFormat
  else memAtomic s src (atomOf p addr) ret die who

/-- The old value an atomic returns, as its response carries it. -/
def oldWord (s : State) (p : Packet) (addr : Nat) : List W64 :=
  if p.ptype = 2 ∧ p.lines ≠ 0 then [BitVec.ofNat 64 (hbmNat s addr (fcWidth p.fc.toNat / 8))] else []

/-- What the request reaches beyond its first line address (check 8). -/
def reach (p : Packet) : Nat := 64 * p.lines.toNat

/-- The words of n lines of bytes. -/
def lineWords (bs : List Byte) (n : Nat) : List W64 :=
  (List.range (8 * n)).map fun i => BitVec.ofNat 64 (ofBytes ((bs.drop (8 * i)).take 8))

/-- A packet of another part's requester at its target half h (R311, R314). -/
def serveRemote (s : State) (h : Nat) (p : Packet) : State :=
  match verdict s h p (reach p) with
  | (s, .drop) => s
  | (s, .refuse c) => respond s h p (if p.ptype = 0 then 3 else 4) c false []
  | (s, .gateway _) => respond s h p (if p.ptype = 0 then 3 else 4) gwSize false []
  | (s, .accept a edge) =>
    if p.ptype = 0 then
      let (c, bs) := memReadAny s h (.packet h p) (p.lines.toNat + 2) a (64 * p.lines.toNat)
      respond s h p 3 c edge (if c = 0 then lineWords bs p.lines.toNat else [])
    else
      let old := oldWord s p a
      let w : Waiter := .packet h { p with edge := edge }
      let (s, c) := serveWrite s h none p a none w
      match c with
      | some c => answerW s w c edge old
      | none => s

/-- A request packet that arrived at half h: served by the target half of this node, or forwarded (R306, R307). -/
def arriveReq (s : State) (h : Nat) (p : Packet) : State :=
  let d := p.daddr.toNat
  if bits d 63 56 = myNode s h then serveRemote s (bits d 55 55) p else rerouteOther s h p

/-- LEAT_READ_REQ (R311). -/
def execLeatReadReq (h : BitVec 1) (p : Packet) (s : State) : Out := .next (arriveReq s h.toNat { p with ptype := 0 })

/-- LEAT_WRITE (R311, R314). -/
def execLeatWrite (h : BitVec 1) (p : Packet) (s : State) : Out := .next (arriveReq s h.toNat { p with ptype := 1 })

/-- LEAT_ATOMIC (R311, R314). -/
def execLeatAtomic (h : BitVec 1) (p : Packet) (s : State) : Out := .next (arriveReq s h.toNat { p with ptype := 2 })

/-! Issuing requests (R306, R307, R312). -/

/-- A request packet of job slot `slot` of half h. -/
def mkReq (s : State) (h slot ptype daddr sunit lines : Nat) (data : List W64) : Packet :=
  { daddr := BitVec.ofNat 64 daddr, key := BitVec.ofNat 32 (getF s F.LEAT_JOB_KEY h slot),
    epoch := BitVec.ofNat 16 (getF s F.LEAT_JOB_EPOCH h slot), inc := BitVec.ofNat 16 (myInc s h),
    ptype := BitVec.ofNat 4 ptype, srcNode := BitVec.ofNat 8 (myNode s h), srcHalf := BitVec.ofNat 1 h,
    lines := BitVec.ofNat 3 lines, aop := 0, fc := 0, sunit := BitVec.ofNat 13 sunit, tag := 0, status := 0,
    repoch := 0, close := false, repro := false, ret := false, edge := false, sindex := 0, first := 0, last := 0,
    data := data }

/-- The request stands outstanding without an answer; link 64 stands for the part's own node. -/
def outstanding (s : State) (h slot : Nat) (p : Packet) (dst : List (Loc × Nat × Nat)) (link : Nat) (who : Waiter) :
    State :=
  updHalf s h fun x => { x with reqs := x.reqs ++ [⟨p.tag.toNat, slot, p, dst, link, false, who⟩] }

def takeTag (s : State) (h : Nat) (p : Packet) : State × Packet :=
  (updHalf s h fun x => { x with nextTag := (x.nextTag + 1) % 65536 },
   { p with tag := BitVec.ofNat 16 (half s h).nextTag })

/-- Sends a request over a link, or completes it with LEAT_NOROUTE. -/
def sendReq (s : State) (h slot : Nat) (p : Packet) (dst : List (Loc × Nat × Nat)) (who : Waiter) :
    State × Option (BitVec 8) :=
  let (s, p) := takeTag s h p
  let d := p.daddr.toNat
  match pickLink s h (routeWord s h (bits d 63 56) (bits d 55 55)) p.daddr with
  | none => (s, some ltNoroute)
  | some l => (enqueue (outstanding s h slot p dst l who) h l p, none)

/-- Is the address of the part's own node (R306)? -/
def ownNode (s : State) (h : Nat) (daddr : Nat) : Bool := bits daddr 63 56 == myNode s h

/-- A request to the own node whose target half is not RUNNING is refused by the seam before the region is looked at (R22,
R306). (Log 147, DEDUCED). -/
def ownDown (s : State) (h t : Nat) : Bool := t != h && (!halfRunning s t || !seamUp s)

/-- A WRITE or ATOMIC of a requester of half h: at its own node it is checked and applied without leaving the package, and
outstanding like any other until it is answered (R306, R315); one that the checks discard stays so until it times out. -/
def issueWrite (s : State) (h slot : Nat) (p : Packet) (ret : Option Loc) (who : Waiter) : State × Option (BitVec 8) :=
  let d := p.daddr.toNat
  let dst := match ret with
    | some l => [(l, 0, fcWidth p.fc.toNat / 8)]
    | none => []
  if ownNode s h d then
    let t := bits d 55 55
    if ownDown s h t then (s, some stHalfDown)
    else match verdict s t p (reach p) with
    | (s, .drop) =>
      let (s, p) := takeTag s h p
      (outstanding s h slot p dst ownLink who, none)
    | (s, .refuse c) => (s, some c)
    | (s, .gateway _) => (s, some gwSize)
    | (s, .accept a _) =>
      let (s, p) := takeTag s h p
      let s := outstanding s h slot p dst ownLink who
      match serveWrite s h (unitDie p.sunit.toNat) p a ret (.own h p.tag.toNat p.sunit.toNat) with
      | (s, some c) => (updHalf s h fun x => { x with reqs := x.reqs.filter fun q => q.tag != p.tag.toNat }, some c)
      | (s, none) => (s, none)
  else sendReq s h slot p dst who

/-- One destination line's bytes written over the fabric: a WRITE of one line with FIRST and LAST (R261). -/
def putFab (s : State) (h slot sunit addr : Nat) (bs : List Byte) (who : Waiter) : State × Option (BitVec 8) :=
  let o := addr % 64
  let line := List.replicate o 0 ++ bs ++ List.replicate (64 - o - bs.length) 0
  let ws := (List.range 8).map fun i => BitVec.ofNat 64 (ofBytes ((line.drop (8 * i)).take 8))
  let p := mkReq s h slot 1 (addr - o) sunit 1 ws
  issueWrite s h slot { p with first := BitVec.ofNat 6 o, last := BitVec.ofNat 6 (o + bs.length - 1) } none who

/-- Delivers bytes read to where they go, each piece an answer of its own. -/
def deliverBytes (s : State) (h slot sunit : Nat) (bs : List Byte) (dst : List (Loc × Nat × Nat)) (who : Waiter) :
    State :=
  dst.foldl (fun s e =>
    let part := (bs.drop e.2.1).take e.2.2
    let s := moreWait s who
    match e.1 with
    | .fab a => finishW (putFab s h slot sunit a part who) who
    | l => finishW (locWrite s h l part who) who) s

/-- A READ_REQ of a requester of half h for `lines` lines whose bytes go to `dst`. -/
def issueRead (s : State) (h slot : Nat) (p : Packet) (dst : List (Loc × Nat × Nat)) (who : Waiter) :
    State × Option (BitVec 8) :=
  let d := p.daddr.toNat
  if ownNode s h d then
    let t := bits d 55 55
    if ownDown s h t then (s, some stHalfDown)
    else match verdict s t p (reach p) with
    | (s, .drop) =>
      let (s, p) := takeTag s h p
      (outstanding s h slot p dst ownLink who, none)
    | (s, .refuse c) => (s, some c)
    | (s, .gateway _) => (s, some gwSize)
    | (s, .accept a _) =>
      let (c, bs) := memReadAny s h (.own h 0 p.sunit.toNat) (p.lines.toNat + 2) a (64 * p.lines.toNat)
      if c ≠ 0 then (s, some c) else (deliverBytes s h slot p.sunit.toNat bs dst who, some 0)
  else sendReq s h slot p dst who

/-! Responses (R313-R315). -/

/-- Does a gateway wait that fetches for another pod (R319)? -/
def bulkWaiter : Waiter → Bool
  | .packet _ p => p.ptype == 5
  | _ => false

/-- A response at half h: fenced like a request (R317), discarded when nothing waits for it (R315), else its request
completes, its lines delivered. -/
def arriveResp (s : State) (h : Nat) (p : Packet) : State :=
  let d := p.daddr.toNat
  if bits d 63 56 ≠ myNode s h then rerouteOther s h p
  else
    let h := bits d 55 55
    if fenced s h p then fence s h p
    else
      match (half s h).reqs.find? fun r => r.tag == p.tag.toNat && (p.ptype == 3) == (r.pkt.ptype == 0) with
      | none => bumpF s F.LEAT_DROP_LATE_RESP h
      | some r =>
        let s := dropReq s h r
        let s := if p.status = 0 ∧ p.lines ≠ 0 then
          deliverBytes s h r.slot r.pkt.sunit.toNat (packetBytes p) r.dst r.who else s
        answerW s r.who p.status false (if bulkWaiter r.who then p.data else [])

/-- LEAT_READ_RESP (R313). -/
def execLeatReadResp (h : BitVec 1) (p : Packet) (s : State) : Out := .next (arriveResp s h.toNat { p with ptype := 3 })

/-- LEAT_COMPLETION (R314). -/
def execLeatCompletion (h : BitVec 1) (p : Packet) (s : State) : Out :=
  .next (arriveResp s h.toNat { p with ptype := 4 })

/-- Packets that the links of half h hold: queued, or sent and not acknowledged. -/
def heldPackets (s : State) (h : Nat) : List Packet :=
  (rangeFrom (leatKey h 0) 64).flatMap fun k =>
    let l := getLink s k
    (l.waitP.map Prod.snd) ++ l.unacked.flatMap fun f => f.pkts

/-- A request to the own node that timed out returns nothing to its operand. -/
def forgetRet (s : State) (w : Waiter) : State :=
  [0, 1].foldl (fun s h => updHalf s h fun x => { x with
    adds := x.adds.map fun a => if a.who = w then { a with ret := none } else a
    ckp := { x.ckp with ops := x.ckp.ops.map fun o => if o.2 ≠ w then o else match o.1 with
      | .atomic r _ d f => (.atomic r none d f, o.2)
      | _ => o } }) s

/-- LEAT_TIMEOUT (R315): a request without response completes with LEAT_TIMEOUT. -/
def execLeatTimeout (h : BitVec 1) (tag : BitVec 16) (s : State) : Out :=
  .next (
    let h := h.toNat
    match (half s h).reqs.find? fun r => r.tag == tag.toNat with
    | none => s
    | some r =>
      let s := dropReq s h r
      let s := updHalf s h fun x => { x with
        stray := if (heldPackets s h).any (carries r) then x.stray ++ [r] else x.stray }
      answerW (forgetRet s (.own h r.tag r.pkt.sunit.toNat)) r.who ltTimeout false [])

/-! Regions (R308, R318, R321). -/

/-- Layout rules of a region entry of half h (R308, R318). -/
def regionLegal (h : Nat) (w : Nat → Nat) : Bool :=
  let base := bits (w 0) 47 0
  let size := bits (w 2) 43 0
  bits (w 0) 52 48 == 0 && bits (w 1) 15 0 == 0 && bits (w 2) 63 44 == 0 && size != 0 && size % 65536 == 0 &&
    (if bit (w 0) 53 then base == 0 && bits (w 6) 47 44 == 0 && w 7 == 0
     else base % 65536 == 0 && base / 2 ^ 41 == h && decide (base + size ≤ (h + 1) * 2 ^ 41) &&
       w 5 == 0 && w 6 == 0 && w 7 == 0)

/-- R321: a valid entry that a new job takes over, seen by its new KEY, gets a window that opens 80 ns or more after the old
one closes. Its new EPOCH may stand in the entry already, since the teardown writes it there (R320). -/
def reuseLegal (old new : Nat → Nat) : Bool :=
  !bit (old 0) 63 || bits (old 1) 63 32 == bits (new 1) 63 32 || decide (old 4 + 80 ≤ new 3)

/-- Replaces region entry i of half h as a whole. -/
def putRegion (s : State) (h i : Nat) (w : Nat → Nat) : State :=
  (List.range 8).foldl (fun s k => setReg s .leatRegion h (8 * i + k) (BitVec.ofNat 64 (w k))) s

/-- LEAT_RCOMMIT (R308, R321): GO = 1 replaces the region with the staging entry, or is refused. (Log 88, DEDUCED). -/
def rcommitWrite (s : State) (by' : Requester) (h : Nat) (v : W64) : State :=
  guarded s by' .leatRcommit h 0 fun s =>
    let i := bits v.toNat 10 0
    let w (k : Nat) : Nat := (reg s .leatStage h k).toNat
    if !bit v.toNat 63 then done s
    else if regionLegal h w ∧ reuseLegal (regionWord s h i) w then done (putRegion s h i w)
    else denied s by'

def execLeatRcommit (by' : Requester) (h : BitVec 1) (v : W64) (s : State) : Out := .next (rcommitWrite s by' h.toNat v)

/-! Jobs (R312, R320). -/

/-- LEAT_JOB_EPOCH_WRITE (R312, R320): VALID, EPOCH and KEY of a job slot; a new EPOCH clears DRAINED. -/
def jobWrite (s : State) (by' : Requester) (h n : Nat) (v : W64) : State :=
  guarded s by' .leatJob h n fun s =>
    let s' := setReg s .leatJob h n (storedWord .leatJob (reg s .leatJob h n) v)
    done (if getF s F.LEAT_JOB_EPOCH h n = bits v.toNat 47 32 then s' else putF s' F.LEAT_JOB_DRAINED h 0 n)

def execLeatJobEpochWrite (by' : Requester) (h : BitVec 1) (n : BitVec 4) (v : W64) (s : State) : Out :=
  .next (jobWrite s by' h.toNat n.toNat v)

/-- Does anything of slot n under an earlier epoch remain in the half (R320): an outstanding request, one that timed out while
a link's queue or retry buffer holds its packet, a bulk message? (Log 89, DEDUCED). -/
def slotBusy (s : State) (h n : Nat) : Bool :=
  let x := half s h
  let e := getF s F.LEAT_JOB_EPOCH h n
  let held := heldPackets s h
  (x.reqs.any fun r => r.slot == n && r.pkt.epoch.toNat != e) || (x.msgs.any fun m => m.slot == n && m.epoch != e) ||
    x.stray.any fun r => r.slot == n && r.pkt.epoch.toNat != e && held.any (carries r)

/-- LEAT_SLOT_DRAINED (R320): DRAINED sets once nothing of the slot's earlier epochs remains. -/
def execLeatSlotDrained (h : BitVec 1) (n : BitVec 4) (s : State) : Out :=
  .next (if slotBusy s h.toNat n.toNat then s else putF s F.LEAT_JOB_DRAINED h.toNat 1 n.toNat)

/-! Ports and links (R299, R300, R316, R441). -/

/-- LEAT_PORT_REMOVE (R300): an UP port is REMOVED, `lanes` the wavelengths that still have signal; its flits are retried on
the link's other ports, and a link without a port left goes down (R316). The loss is a LINK_DEGRADED error of its engine (R413). -/
def execLeatPortRemove (h : BitVec 1) (p : PortLoss) (s : State) : Out :=
  .next (
    let h := h.toNat
    let lanes := p.lanes
    let p := p.port.toNat
    if portState s h p ≠ 2 then s
    else
      let l := getF s F.LEAT_PORT_LINK h p
      let s := putF (putF s F.LEAT_PORT_STATE h 3 p) F.LEAT_PORT_LANES h lanes.toNat p
      let s := bumpF s F.LEAT_PORT_RETRIES h 1 p
      let s := detectUncorrected s utOptic (9 * h + p / 8) 0x0005 0 p
      if linkUp s h l then s else linkDown s h l)

/-- LEAT_LINK_TRAINED (R299): the ports of the link in TRAINING come UP with the lanes seen and the measured delay, in
units of 32 ns; a POD link longer than 100 ns or an INTERPOD link longer than 5 µs is refused: its ports go DOWN with a
LINK_TRAIN record (R406, R413). -/
def execLeatLinkTrained (h : BitVec 1) (link : BitVec 6) (delayNs : Nat) (lanes : BitVec 8) (s : State) : Out :=
  .next (
    let h := h.toNat
    let l := link.toNat
    let w := (reg s .leatLink h l).toNat
    let ps := (portsOf s h l).filter fun p => portState s h p == 1
    let ok := decide (delayNs ≤ if bit w 51 then 5000 else 100) && lanes == 0xFF
    if ps.isEmpty ∨ s.pins.refLost then s
    else
      let s := ps.foldl (fun s p =>
        let s := putF (putF s F.LEAT_PORT_LINK h l p) F.LEAT_PORT_LANES h lanes.toNat p
        let s := putF s F.LEAT_PORT_DELAY h (min 255 (ceilDiv delayNs 32)) p
        putF s F.LEAT_PORT_STATE h (if ok then 2 else 0) p) s
      if ok then pump s (leatKey h l)
      else plainRecord s h utOptic (9 * h + bits w 63 60) clLasting 0x000F 0 l)

/-- Does half h take the host's part on link l: is its 2 × node + half the lower one (R441)? -/
def lowerEnd (s : State) (h l : Nat) : Bool :=
  let w := (reg s .leatLink h l).toNat
  decide (2 * myNode s h + h < 2 * bits w 50 43 + bits w 42 42)

/-- LEAT_SESSION_HANDSHAKE (R374, R375, R378, R441): over an UP link two trust dies form a session, or rekey the one that
runs, when the peer's keys are points and its proof verifies; a debug-only end has no identity key. The peer's identity key
hash goes to SEC_PEER. The number of a new session is the responder's choice. (Log 87, DESIGN CHOICE). -/
def execLeatSessionHandshake (h : BitVec 1) (link : BitVec 6) (peer : PeerHello) (sigOk debugPeer : Bool) (s : State) : Out :=
  .next (
    let h := h.toNat
    let l := link.toNat
    if upPorts s h l = 0 ∨ !sigOk ∨ debugPeer ∨ s.pins.debugOnly ∨ !Config.onCurve peer.pub ∨ !Config.onCurve peer.eph then s
    else
      let (d, s) := draw s h
      let (e, s) := draw s h
      let (v, s) := fresh s
      let mine := (digestBytes d).take 32
      let salt := if lowerEnd s h l then mine ++ peer.nonce else peer.nonce ++ mine
      let z := Config.ecdh e peer.eph
      let ks := (directionKey salt z "leat lo2hi", directionKey salt z "leat hi2lo")
      let s := updHalf s h fun x => { x with sec := { x.sec with linkKeys := mput l ks x.sec.linkKeys } }
      let s := setWords s .secPeer h (8 * l) (wordsOf (sha peer.pub))
      pump (updLink s (leatKey h l) fun x =>
        if x.session ≠ 0 then { x with session := x.session % (2 ^ 32 - 1) + 1, old := x.session }
        else { linkZero with session := v.toNat % (2 ^ 32 - 1) + 1, waitP := x.waitP }) (leatKey h l))

/-! Gateways (R318, R319). -/

/-- Does the fabric address name a GATEWAY region of the part's own node? -/
def isGateway (s : State) (h daddr : Nat) : Bool :=
  ownNode s h daddr && bit (regionWord s (bits daddr 55 55) (bits daddr 54 44) 0) 53

/-- A packet of a bulk message: up to three lines from offset o of it, carried, or with AOP 1 asked for.
(Log 85, PRESUMED). -/
def bulkPacket (s : State) (hf node region roff key epoch id : Nat) (write : Bool) (o n : Nat) (bs : List Byte)
    (p : Packet) : Packet :=
  { p with
    daddr := BitVec.ofNat 64 (node * 2 ^ 56 + region * 2 ^ 44 + (roff + o) % 2 ^ 44), key := BitVec.ofNat 32 key,
    epoch := BitVec.ofNat 16 epoch, inc := BitVec.ofNat 16 (myInc s hf), srcHalf := BitVec.ofNat 1 hf, ptype := 5,
    aop := if write then 0 else 1, tag := BitVec.ofNat 16 id, lines := BitVec.ofNat 3 n,
    data := if write then lineWords bs n else [] }

/-- One bulk message: its lines go out on BULK packets over the link the pod route names, each answered by one. A source that
cannot be read ends it with its status. -/
def sendBulk (s : State) (h hf slot l pod node region roff len : Nat) (key epoch : Nat) (write : Bool) (loc : Loc)
    (img : Option (List Byte)) (p : Packet) (who : Waiter) : State :=
  let s := moreWait s who
  let (c, bs) := match img with
    | some b => (0, b)
    | none => if write then locRead s h loc len who else (0, [])
  if c ≠ 0 then answerW s who c false []
  else
    let id := (half s hf).nextTag
    let n := ceilDiv (len / 64) 3
    let s := updHalf s hf fun x => { x with
      nextTag := (id + 1) % 65536
      msgs := x.msgs ++ [⟨id, id % 2, slot, p.epoch.toNat, write, loc, pod, node, region, roff, len, n, who⟩] }
    (List.range n).foldl (fun s i =>
      enqueue s hf l (bulkPacket s hf node region roff key epoch id write (192 * i) (min 3 (len / 64 - 3 * i))
        ((bs.drop (192 * i)).take 192) p)) s

/-- A hoist row to or from a GATEWAY region (R319): sized in 4 KiB, checked under R311, cut into messages of at most
1 MiB. `img` are the bytes to send, where they are not those at `loc`. The code is 0 while messages are outstanding.
(Log 86, DEDUCED). -/
def gatewayRow (s : State) (h slot sunit daddr len : Nat) (write : Bool) (loc : Loc) (img : Option (List Byte))
    (who : Waiter) : State × BitVec 8 :=
  let hf := bits daddr 55 55
  let off := bits daddr 43 0
  let p := mkReq s h slot (if write then 1 else 0) daddr sunit 0 []
  if off % 4096 ≠ 0 ∨ len % 4096 ≠ 0 ∨ len = 0 then (s, gwSize)
  else if ownDown s h hf then (s, stHalfDown)
  else
    match verdict s hf p len with
    | (s, .drop) =>
      let (s, p) := takeTag s h p
      (outstanding (moreWait s who) h slot p [] ownLink who, 0)
    | (s, .refuse c) => (s, c)
    | (s, .accept ..) => (s, gwSize)
    | (s, .gateway i) =>
      let w5 := regionWord s hf i 5
      let w6 := regionWord s hf i 6
      match pickLink s hf (reg s .leatPodroute hf (bits w5 63 52)).toNat p.daddr with
      | none => (s, gwNopod)
      | some l =>
        ((List.range (ceilDiv len (2 ^ 20))).foldl (fun s m =>
          sendBulk s h hf slot l (bits w5 63 52) (bits w5 51 44) (bits w5 43 32)
            ((bits w6 43 0 + off + m * 2 ^ 20) % 2 ^ 44) (min (2 ^ 20) (len - m * 2 ^ 20)) (bits w5 31 0) (bits w6 63 48)
            write (loc.add (m * 2 ^ 20)) (img.map fun b => (b.drop (m * 2 ^ 20)).take (2 ^ 20)) p who) s, 0)

/-- A bulk message completes; a remote refusal goes to GW_ERR and ends GW_REMOTE. -/
def endBulk (s : State) (h : Nat) (m : GwMsg) (status : BitVec 8) : State :=
  let s := dropMsg s h m.id
  if status = 0 then answerW s m.who 0 false []
  else
    let s := putF (putF (putF s F.GW_ERR_CODE h status.toNat m.gw) F.GW_ERR_RPOD h m.pod m.gw)
      F.GW_ERR_RNODE h m.node m.gw
    answerW s m.who gwRemote false []

/-- GW_MESSAGE_COMPLETE (R319). -/
def execGwMessageComplete (h : BitVec 1) (id : Nat) (status : BitVec 8) (s : State) : Out :=
  .next (
    match (half s h.toNat).msgs.find? fun m => m.id == id with
    | none => s
    | some m => endBulk s h.toNat m status)

/-- GW_TIMEOUT (R319): a message not completed within the remote TMO plus 2 ms. -/
def execGwTimeout (h : BitVec 1) (id : Nat) (s : State) : Out :=
  .next (
    match (half s h.toNat).msgs.find? fun m => m.id == id with
    | none => s
    | some m => answerW (dropMsg s h.toNat id) m.who gwTimeoutCode false [])

/-- A BULK packet that answers one of a message of half h (RET = 1): fenced like any response (R317); the first refusal ends
the message, fetched lines go where it wants them, and the last answer completes it. -/
def bulkAnswer (s : State) (h : Nat) (p : Packet) : State :=
  if fenced s h p then fence s h p
  else match (half s h).msgs.find? fun m => m.id == p.tag.toNat with
  | none => bumpF s F.LEAT_DROP_LATE_RESP h
  | some m =>
    if p.status ≠ 0 then endBulk s h m p.status
    else
      let o := bits p.daddr.toNat 43 0 - m.off
      let n := 64 * p.lines.toNat
      let s := if m.write ∨ m.len < o + n then s
        else deliverBytes s h m.slot 0 (packetBytes p) [(m.loc.add o, 0, n)] m.who
      if m.left ≤ 1 then endBulk s h m 0
      else updHalf s h fun x => { x with msgs := x.msgs.map fun y => if y.id = m.id then { y with left := y.left - 1 } else y }

/-- The lines of a bulk packet at the receiving gateway of half h (R319): checked under R311 and written or read by the
target half of this node, or sent on as a leat WRITE or READ_REQ of the gateway's own; the outcome goes back on a BULK packet.
 -/
def bulkServe (s : State) (h : Nat) (p : Packet) : State :=
  let d := p.daddr.toNat
  let q : Packet := { p with ptype := if p.aop = 1 then 0 else 1, first := 0, last := if p.aop = 1 then 0 else 63 }
  let who : Waiter := .packet h p
  if bits d 63 56 = myNode s h then
    let t := bits d 55 55
    match verdict s t q (reach q) with
    | (s, .drop) => s
    | (s, .refuse c) => answerW s who c false []
    | (s, .gateway _) => answerW s who gwSize false []
    | (s, .accept a _) =>
      if p.aop = 1 then
        let (c, bs) := memReadAny s t who (p.lines.toNat + 2) a (64 * p.lines.toNat)
        answerW s who c false (if c = 0 then lineWords bs p.lines.toNat else [])
      else
        match serveWrite s t none { q with aop := 0 } a none who with
        | (s, some c) => answerW s who c false []
        | (s, none) => s
  else
    finishW (sendReq s h 16 { q with aop := 0, srcNode := BitVec.ofNat 8 (myNode s h), srcHalf := BitVec.ofNat 1 h,
                                     inc := BitVec.ofNat 16 (myInc s h) } [] who) who

/-- LEAT_BULK (R319). -/
def arriveBulk (s : State) (h : Nat) (p : Packet) : State :=
  let d := p.daddr.toNat
  if p.ret then
    if bits d 63 56 = myNode s h then bulkAnswer s (bits d 55 55) p else rerouteOther s h p
  else bulkServe s h p

def execLeatBulk (h : BitVec 1) (p : Packet) (s : State) : Out := .next (arriveBulk s h.toNat { p with ptype := 5 })

end Sys2Proof.Machine
end

