-- ==== Sys2Proof/Machine/Weir.lean ====
section
/-! DEFINITION. The seam's bridges and the weir coder (R276, R281-R291): block shapes, the three modes, the four forms,
and the two commands that move a block through a bridge. -/

namespace Sys2Proof.Machine

/-! Bridges (R276). -/

/-- Ring hops from die index i to bridge b (R276). -/
def hops (i b : Nat) : Nat := if i = 1 then 2 * b else if i = 3 then 2 - 2 * b else 1

/-- Local index of the die that owns the line; in a hole that of its LOCAL window, none in SPREAD. -/
def targetDie (s : State) (a : Nat) : Option Nat :=
  match hbmWhere s a with
  | some (ch, _, _) => some (ch / 128 % 4)
  | none => if getF s F.HBM_MAPCFG_MODE (addrHalf a) = 0 then some (a / 2 ^ 39 % 4) else none

/-- The bridge of an access from die index i (none: a control or switch die) to address a, or the other one where that
is out of service (R276, R279). -/
def bridgeFor (s : State) (i : Option Nat) (a : Nat) : Option Nat :=
  let own (b : Nat) : Nat := match i with
    | some i => hops i b
    | none => 0
  let tie := a / 4096 % 2
  let b := match targetDie s a with
    | some j =>
      let x := own 0 + hops j 0
      let y := own 1 + hops j 1
      if x < y then 0 else if y < x then 1 else tie
    | none => tie
  if bridgeUp s b then some b else if bridgeUp s (1 - b) then some (1 - b) else none

/-! Bit streams (R285): the first code lies in the low bits. -/

def packBits (cs : List (Nat × Nat)) : Nat × Nat :=
  cs.foldr (fun c acc => (c.2 % 2 ^ c.1 + acc.1 * 2 ^ c.1, acc.2 + c.1)) (0, 0)

/-- The bytes of a bit stream padded with zero bits to a multiple of `unit` bits. -/
def streamBytes (unit : Nat) (cs : List (Nat × Nat)) : List Byte :=
  let (v, n) := packBits cs
  toBytes (ceilDiv n unit * (unit / 8)) v

/-- Codes of the given widths read from a bit stream. -/
def unpackBits : List Nat → Nat → List Nat
  | [], _ => []
  | w :: r, v => v % 2 ^ w :: unpackBits r (v / 2 ^ w)

/-! Elements (R283). -/

def weirFmt (f : Nat) : FFmt := if f = 0 then fF64 else if f = 1 then fF32 else fBF16
def weirBytes (f : Nat) : Nat := if f = 0 then 8 else if f = 1 then 4 else 2

/-- Bit patterns of a byte string. -/
def patterns (eb : Nat) (bs : List Byte) : List Nat :=
  (List.range (bs.length / eb)).map fun i => ofBytes ((bs.drop (eb * i)).take eb)

/-- A magnitude in units of 2^q, rounded to nearest even, with its sign. -/
def quantInt (x : Num) (q : Int) : Int :=
  match x with
  | .fin n m e => let k : Int := (roundAt .nearest m e q).1; if n then -k else k
  | _ => 0

def scaledNum (k : Int) (q : Int) : Num := .fin (decide (k < 0)) k.natAbs q

/-- k × 2^q rounded into the field format; 0 is +0. -/
def dequant (f : FFmt) (k q : Int) : Nat := if k = 0 then 0 else (f.round .nearest false (scaledNum k q)).1

/-! Fixed-rate mode (R284-R287). -/

/-- e: the largest ⌊log2 |x|⌋ over the finite nonzero elements. -/
def blockExp (xs : List Num) : Option Int :=
  xs.foldl (fun acc x => match x with
    | .fin _ m e => if m = 0 then acc else match acc with
      | some a => some (max a (magExp m e))
      | none => some (magExp m e)
    | _ => acc) none

def rateWidth (r i : Nat) : Nat := if i < 16 then r - 1 else r

/-- The code of one element. -/
def rateCode (r : Nat) (e : Option Int) (x : Num) (i : Nat) : Int :=
  let w := rateWidth r i
  match x, e with
  | .fin .., some e =>
    let lim : Int := 2 ^ (w - 1) - 1
    max (-lim) (min lim (quantInt x (e + 2 - w)))
  | .fin .., none => 0
  | _, _ => -(2 ^ (w - 1))

def finiteNum : Num → Bool
  | .fin .. => true
  | _ => false

/-- The coded block (R285). -/
def rateEncode (f : FFmt) (r : Nat) (ps : List Nat) : List Byte :=
  let xs := ps.map f.decode
  let e := blockExp xs
  let hdr := (match e with
    | some e => (e + 1075).toNat
    | none => 0) + (if xs.all finiteNum then 0 else 4096)
  let cs := xs.zipIdx.map fun p =>
    let w := rateWidth r p.2
    (w, (rateCode r e p.1 p.2 % 2 ^ w).toNat)
  streamBytes 8 ((16, hdr) :: cs)

def rateWidths (r n : Nat) : List Nat := (List.range n).map (rateWidth r)

/-- The decoded patterns of a coded block of n elements. -/
def rateDecode (f : FFmt) (r n : Nat) (bs : List Byte) : List Nat :=
  let v := ofBytes bs
  let ex := v % 4096
  (unpackBits (rateWidths r n) (v / 2 ^ 16)).zipIdx.map fun p =>
    let w := rateWidth r p.2
    if p.1 = 2 ^ (w - 1) then f.defaultNan
    else if ex = 0 then 0
    else dequant f (sext w p.1) ((ex : Int) - 1075 + 2 - w)

/-- Magnitude of x − y for finite values. -/
def absDiff (x y : Num) : Num :=
  match x, y with
  | .fin n m e, .fin n' m' e' =>
    let q := min e e'
    .fin false (scaledInt n m e q - scaledInt n' m' e' q).natAbs q
  | _, _ => .fin false 0 0

/-- The smallest sidecar value whose bound is at or above a magnitude (R287). -/
def sidecarOf (d : Num) : Nat :=
  match d with
  | .fin _ m e =>
    if m = 0 then 0
    else
      let ex := magExp m e
      let k := e - ex + 4
      let u := if 0 ≤ k then m * 2 ^ k.toNat else ceilDiv m (2 ^ (-k).toNat)
      let (ex, u) := if u = 32 then (ex + 1, 16) else (ex, u)
      (ex + 1100).toNat * 16 + (u - 16)
  | _ => 0

/-- The sidecar of a block: its original patterns and the decoded ones. -/
def rateSidecar (f : FFmt) (ps ds : List Nat) : Nat :=
  let xs := ps.map f.decode
  if !xs.all finiteNum then 0xFFFF
  else
    sidecarOf (((xs.zip (ds.map f.decode)).map fun p => absDiff p.1 p.2).foldl
      (fun a d => if Num.cmp a d = .lt then d else a) (.fin false 0 0))

/-- A coded block followed by its sidecar. -/
def rateBlock (f : FFmt) (r : Nat) (ps : List Nat) : List Byte :=
  let b := rateEncode f r ps
  b ++ toBytes 2 (rateSidecar f ps (rateDecode f r ps.length b))

/-! Lossless and fixed-accuracy modes (R288-R291). -/

/-- The prediction of element i from those before it. -/
def predict (w : Nat) (square : Bool) (us : List Nat) (i : Nat) : Nat :=
  if square then
    let at' (k : Nat) : Nat := us.getD k 0
    let l := if i % 16 = 0 then 0 else at' (i - 1)
    let u := if i < 16 then 0 else at' (i - 16)
    let d := if i % 16 = 0 ∨ i < 16 then 0 else at' (i - 17)
    (l + u + (2 ^ w - d % 2 ^ w)) % 2 ^ w
  else if i = 0 then 0 else us.getD (i - 1) 0

def zigzag (w r : Nat) : Nat := if 2 ^ (w - 1) ≤ r then 2 ^ w - 1 - 2 * r % 2 ^ w else 2 * r % 2 ^ w
def unzigzag (w z : Nat) : Nat := if z % 2 = 0 then z / 2 else 2 ^ w - 1 - z / 2

/-- z_i of a block. -/
def residuals (w : Nat) (square : Bool) (us : List Nat) : List Nat :=
  us.zipIdx.map fun p => zigzag w ((p.1 + (2 ^ w - predict w square us p.2)) % 2 ^ w)

/-- u_i from z_i. -/
def restore (w : Nat) (square : Bool) (zs : List Nat) : List Nat :=
  zs.zipIdx.foldl (fun us p => us ++ [(predict w square us p.2 + unzigzag w p.1) % 2 ^ w]) []

def bitLen (z : Nat) : Nat := if z = 0 then 0 else Nat.log2 z + 1

def groupWidth (zs : List Nat) (g : Nat) : Nat := (((zs.drop (16 * g)).take 16).map bitLen).foldl max 0

/-- Forms of a coded block (R289). -/
def rawForm (wf : Nat) (ps : List Nat) : List Byte := streamBytes 64 ((16, 0) :: ps.map fun p => (wf, p))

def tightForm (zs : List Nat) : List Byte :=
  let ws := (List.range 16).map (groupWidth zs)
  streamBytes 64 ((16, 0x4000) :: (ws.map fun w => (7, w)) ++ zs.zipIdx.map fun p => (ws.getD (p.2 / 16) 0, p.1))

def looseForm (zs : List Nat) : List Byte :=
  let w := (zs.map bitLen).foldl max 0
  streamBytes 64 ((16, 0x8000 + w) :: zs.map fun z => (w, z))

def zeroForm : List Byte := streamBytes 64 [(16, 0xC000)]

/-- 2ε of WPARAM is 2^q (R282, R290). -/
def accExp (param : Nat) : Int := (param : Int) - 191

/-- Must the block go raw (R290)? -/
def accRaw (f : FFmt) (q : Int) (xs : List Num) : Bool :=
  xs.any fun x => match x with
    | .fin _ m e =>
      Num.cmp (.fin false m e) (.fin false (2 ^ 62) q) != .lt ||
        Num.cmp (f.decode f.maxBits) (.fin false (quantInt (.fin false m e) q).natAbs q) == .lt
    | _ => true

/-- The u_i of a block and their width W; none when R290 sends it raw. -/
def weirInts (mode fmt param : Nat) (ps : List Nat) : Option (Nat × List Nat) :=
  let f := weirFmt fmt
  if mode = 1 then some (f.width, ps)
  else
    let xs := ps.map f.decode
    if accRaw f (accExp param) xs then none
    else some (64, xs.map fun x => (quantInt x (accExp param) % 2 ^ 64).toNat)

/-- The coded block of modes 1 and 2 and its form (R291). `room`: fewer than 8 KiB wait on the bridge. A fixed-accuracy block
whose chosen form is larger than raw goes raw with its quantised values, so that no form changes what it decodes to (R52).
(Log 56, DEDUCED; 162, DEDUCED). -/
def predEncode (mode fmt param : Nat) (square room : Bool) (ps : List Nat) : List Byte × Nat :=
  let raw := rawForm (weirFmt fmt).width ps
  match weirInts mode fmt param ps with
  | none => (raw, 0)
  | some (w, us) =>
    let zs := residuals w square us
    let f := weirFmt fmt
    let plain := if mode = 1 then raw else rawForm f.width (us.map fun u => dequant f (sext 64 u) (accExp param))
    if zs.all (· == 0) then (zeroForm, 3)
    else
      let (b, n) := if mode = 2 ∧ room then (looseForm zs, 2) else (tightForm zs, 1)
      if plain.length < b.length then (plain, 0) else (b, n)

/-- The decoded patterns of a block of modes 1 and 2. -/
def predDecode (mode fmt param : Nat) (square : Bool) (bs : List Byte) : List Nat :=
  let f := weirFmt fmt
  let v := ofBytes bs
  let w := if mode = 1 then f.width else 64
  let body := v / 2 ^ 16
  let back (zs : List Nat) : List Nat :=
    let us := restore w square zs
    if mode = 1 then us else us.map fun u => dequant f (sext 64 u) (accExp param)
  match v / 2 ^ 14 % 4 with
  | 0 => unpackBits (List.replicate 256 f.width) body
  | 1 =>
    let ws := unpackBits (List.replicate 16 7) body
    back (unpackBits ((List.range 256).map fun i => ws.getD (i / 16) 0) (body / 2 ^ 112))
  | 2 => back (unpackBits (List.replicate 256 (v % 128)) body)
  | _ => back (List.replicate 256 0)

/-! Blocks in flight. -/

/-- Half of a stream (R13). -/
def procHalf : Proc → Nat
  | .seq l => l.toNat / 32
  | .rcc r => r.toNat / 32
  | .node h _ => h.toNat

def waiterHalf : Waiter → Nat
  | .hoist u .. | .core u => procHalf u
  | .packet h _ | .dma h _ | .memory h _ | .own h .. => h
  | .nobody => 0

/-- Bytes of each piece of a block. -/
def pieceBytes (b : WeirBlk) : Nat := 256 * weirBytes b.fmt / b.src.length

/-- The source bytes of a block, read by its requester. -/
def weirRead (s : State) (b : WeirBlk) : BitVec 8 × List Byte :=
  b.src.foldl (fun acc l =>
    let (c, bs) := locRead s (waiterHalf b.who) l (pieceBytes b) b.who
    (if acc.1 = 0 then c else acc.1, acc.2 ++ bs)) (0, [])

/-- Coded bytes that wait on a bridge in one direction. -/
def weirQueued (s : State) (b dir : Nat) : Nat :=
  ((s.weir.filter fun x => x.bridge == b && x.dir == dir).map fun x => (x.coded.getD []).length).sum

def weirBlank (x : WeirBlk) : Bool := x.coded.isNone

/-- WEIR_BLOCK_ENCODE (R284, R285, R288-R291, R294): the first uncoded block of bridge b and direction dir is read from
its source and coded; a source that cannot be read ends it with its status. -/
def execWeirBlockEncode (b dir : BitVec 1) (s : State) : Out :=
  .next (
    let b := b.toNat
    let d := dir.toNat
    let mine (x : WeirBlk) : Bool := x.bridge == b && x.dir == d && weirBlank x
    match s.weir.find? mine with
    | none => s
    | some x =>
      if !bridgeUp s b then s
      else
        let (c, bs) := weirRead s x
        if c ≠ 0 then answerW { s with weir := s.weir.erase x } x.who c false []
        else
          let ps := patterns (weirBytes x.fmt) bs
          let f := weirFmt x.fmt
          let (coded, form) := if x.mode = 3 then (rateBlock f x.param ps, 4)
            else predEncode x.mode x.fmt x.param x.square (decide (weirQueued s b d < 8192)) ps
          let s := bumpF s F.WEIR_IN_BYTES b bs.length d
          let s := bumpF s F.WEIR_OUT_BYTES b coded.length d
          let s := if form = 2 then bumpF s F.WEIR_FORMS_LOOSE b 1 d
            else if form = 0 then bumpF s F.WEIR_FORMS_RAW b 1 d else s
          { s with weir := s.weir.set (s.weir.idxOf x) { x with coded := some coded } })

/-- The pieces of n bytes at a place, cut at 64-byte lines. -/
def cutLines : Nat → Loc → List Byte → List (Loc × List Byte)
  | 0, _, _ => []
  | n + 1, l, bs =>
    if bs.isEmpty then []
    else
      let a := match l with
        | .tile _ a | .sram _ a | .pkg a | .fab a => a
      let k := 64 - a % 64
      (l, bs.take k) :: cutLines n (l.add (min k bs.length)) (bs.drop k)

/-- Writes bytes line by line, each line an answer of its own; the first error. -/
def putLines (s : State) (src : Nat) (who : Waiter) (ls : List (Loc × List Byte)) : State × BitVec 8 :=
  ls.foldl (fun acc e =>
    let (s, c) := locWrite (moreWait acc.1 who) src e.1 e.2 who
    (finishW (s, c) who, if acc.2 = 0 then c.getD 0 else acc.2)) (s, 0)

/-- WEIR_BLOCK_DECODE (R281, R284, R287-R290): the first coded block of bridge b and direction dir is decoded and written
to its destination, then its sidecar; a block that cannot be delivered leaves its sidecar unchanged. -/
def execWeirBlockDecode (b dir : BitVec 1) (s : State) : Out :=
  .next (
    let mine (x : WeirBlk) : Bool := x.bridge == b.toNat && x.dir == dir.toNat && !weirBlank x
    match s.weir.find? mine with
    | none => s
    | some x =>
      let s := { s with weir := s.weir.erase x }
      let f := weirFmt x.fmt
      let eb := weirBytes x.fmt
      let coded := x.coded.getD []
      let h := waiterHalf x.who
      let ds := if x.mode = 3 then rateDecode f x.param 256 (coded.take (32 * x.param)) else predDecode x.mode x.fmt x.param x.square coded
      let bs := ds.flatMap (toBytes eb)
      let n := pieceBytes x
      let ls := x.dst.zipIdx.flatMap fun p => cutLines (n + 1) p.1 ((bs.drop (n * p.2)).take n)
      let (s, c) := putLines s h x.who ls
      let s := match x.side with
        | some l => if c = 0 then finishW (locWrite (moreWait s x.who) h l (coded.drop (32 * x.param)) x.who) x.who else s
        | none => s
      answerW s x.who 0 false [])

end Sys2Proof.Machine
end

