-- ==== Sys2Proof/Machine/Hoist.lean ====
section
/-! DEFINITION. Hoist instructions HGET, HPUT, HCP and HATOM (R257-R264, R266, R281, R306, R319). -/

namespace Sys2Proof.Machine

def opHget : Nat := 0x90
def opHput : Nat := 0x91
def opHcp : Nat := 0x92
def opHatom : Nat := 0x93

/-- The descriptor of six words (R258). -/
def hoistDesc (ps : List W64) : HoistDesc :=
  let w (i : Nat) : Nat := (ps.getD i 0).toNat
  { a := w 0, b := w 1, len := bits (w 2) 63 36, rows := bits (w 2) 35 24 + 1, astr := bits (w 3) 63 32,
    bstr := bits (w 3) 31 0, cstr := bits (w 4) 63 32, gstr := bits (w 4) 31 0, afab := bit (w 5) 63,
    bfab := bit (w 5) 62, boff := bit (w 5) 61, wmode := bits (w 5) 60 59, wfmt := bits (w 5) 58 57,
    square := bit (w 5) 56, wparam := bits (w 5) 55 48, nrepro := bit (w 5) 47, epoch := bits (w 5) 46 43,
    close := bit (w 5) 42, ret := bit (w 5) 41, sibase := bits (w 5) 40 25,
    resv := bits (w 2) 23 0 != 0 || bits (w 5) 24 0 != 0 }

/-! Checks at issue (R153, R156, R258, R259, R263, R281, R282). -/

/-- Bytes of a local store: tile memory, control core SRAM; node programs have none. -/
def localSize : Proc → Option Nat
  | .seq _ => some (2 ^ 20)
  | .rcc _ => some (2 ^ 18)
  | .node .. => none

def wparamLegal (m f p : Nat) : Bool :=
  match m with
  | 1 => p == 0
  | 3 => decide (4 ≤ p) && decide (p ≤ if f = 0 then 32 else if f = 1 then 24 else 9)
  | _ => true

/-- End of a region of rows. -/
def regionEnd (base stride rows len : Nat) : Nat := base + (rows - 1) * stride + len

/-- First sidecar byte of a fixed-rate transfer to `base` (R281). -/
def sideBase (base stride rows len : Nat) : Nat := ceilDiv (regionEnd base stride rows len) 64 * 64

/-- Coded blocks of a transfer. -/
def weirBlocks (d : HoistDesc) : Nat := d.rows * d.len / (256 * weirBytes d.wfmt)

/-- End of the local region, sidecars included where the local store is the destination. -/
def localEnd (op : Nat) (d : HoistDesc) : Nat :=
  if d.wmode = 3 ∧ op = opHget then sideBase d.b d.bstr d.rows d.len + 2 * weirBlocks d
  else regionEnd d.b d.bstr d.rows d.len

/-- Does a weir transfer keep R281? -/
def weirShape (d : HoistDesc) : Bool :=
  let e := weirBytes d.wfmt
  d.len % e == 0 && d.astr % e == 0 && d.bstr % e == 0 &&
    (if d.square then d.len % (16 * e) == 0 && d.rows % 16 == 0 else d.len % (256 * e) == 0)

/-- Illegal field values of the word and the descriptor (BAD_FIELD). -/
def hoistField (u : Proc) (op : Nat) (w : BitVec 56) (d : HoistDesc) : Bool :=
  let fc := bits w.toNat 55 52
  let aop := bits w.toNat 47 44
  let pr := bits w.toNat 35 30
  let core := match u with
    | .seq _ => true
    | _ => false
  let node := match u with
    | .node .. => true
    | _ => false
  bits w.toNat 51 48 != 0 || bits w.toNat 43 36 != 0 || bits w.toNat 11 0 != 0 ||
    (op != opHatom && (fc != 0 || aop != 0)) || (op == opHatom && (decide (4 < aop) || decide (0xD < fc))) ||
    decide ((if core then 58 else 26) < pr) || d.resv || (!core && (d.cstr != 0 || d.gstr != 0)) ||
    (op != opHcp && (d.bfab || d.boff)) || (!node && d.nrepro) || d.wfmt == 3 ||
    (op != opHatom && !wparamLegal d.wmode d.wfmt d.wparam)

/-- The refusal of a hoist instruction at issue, if any. (Log 50, DEDUCED). -/
def hoistCheck (u : Proc) (op : Nat) (w : BitVec 56) (d : HoistDesc) : Option (BitVec 8) :=
  let fc := bits w.toNat 55 52
  let aop := bits w.toNat 47 44
  let e := fcWidth fc / 8
  if hoistField u op w d then some rcBadField
  else if op = opHatom ∧ !atomLegal aop fc then some rcBadFormat
  else if op = opHatom ∧ (d.len % (if aop = 4 then 2 * e else e) ≠ 0 ∨ d.wmode ≠ 0 ∨ d.wfmt ≠ 0 ∨ d.square ∨ d.wparam ≠ 0)
    then some rcParam
  else if d.wmode ≠ 0 ∧ !weirShape d then some rcParam
  else match localSize u with
    | some n => if op ≠ opHcp ∧ d.len ≠ 0 ∧ n < localEnd op d then some rcTileBounds else none
    | none => none

/-! Engines (R257, R312). -/

/-- The valid job slot of bind entry n under context k (R312). -/
def boundSlot (s : State) (h n k : Nat) : Option Nat :=
  let m := bits (reg s .leatBind h n).toNat (4 * k + 3) (4 * k)
  if getF s F.LEAT_JOB_VALID h m = 1 then some m else none

/-- The engine of the core at row r (gang index i) and column c. (Log 52, DEDUCED). -/
def coreEngine (s : State) (l : Nat) (d : HoistDesc) (r i c : Nat) : Engine :=
  let h := rowHalf r
  let p := slotOf s r c
  ⟨h, some (r / 8 % 4), boundSlot s h (r - 32 * h) (curCtx s l), p, d.sibase + 64 * i + c, c * d.cstr + i * d.gstr,
    .tile p 0⟩

/-- Every engine that runs instruction `id` of a stream: a core hoist for each core, one of the row's two hoists in turn, or
the control die engine of the node core (R257). (Log 148, DESIGN CHOICE). -/
def engines (s : State) (u : Proc) (id : Nat) (d : HoistDesc) : List Engine :=
  match u with
  | .seq l =>
    (gangRows s l.toNat).zipIdx.flatMap fun r => (List.range 64).map fun c => coreEngine s l.toNat d r.1 r.2 c
  | .rcc r =>
    let r := r.toNat
    let h := rowHalf r
    [⟨h, some (r / 8 % 4), boundSlot s h (r - 32 * h) (curCtx s (rowLeader s r)), 4352 + 2 * r + id % 2, d.sibase, 0, .sram r 0⟩]
  | .node h c =>
    let h := h.toNat
    [⟨h, none, boundSlot s h (32 + c.toNat) 0, 4480 + 32 * h + c.toNat, d.sibase, 0, .pkg 0⟩]

/-- Operand A of an engine, and B of an HCP. -/
def operandA (d : HoistDesc) (x : Engine) : Nat := (d.a + x.off) % 2 ^ 64
def operandB (d : HoistDesc) (x : Engine) : Nat := if d.boff then (d.b + x.off) % 2 ^ 64 else d.b

/-- R259: the per-core offset leaves the fabric address's region. -/
def outOfRange (d : HoistDesc) (x : Engine) : Bool :=
  (d.afab && operandA d x / 2 ^ 44 != d.a / 2 ^ 44) || (d.bfab && operandB d x / 2 ^ 44 != d.b / 2 ^ 44)

/-- Where A and B of an engine lie. -/
def placeA (d : HoistDesc) (x : Engine) : Loc := if d.afab then .fab (operandA d x) else .pkg (operandA d x)

def placeB (op : Nat) (d : HoistDesc) (x : Engine) : Loc :=
  if op = opHcp then (if d.bfab then .fab (operandB d x) else .pkg (operandB d x)) else x.base.add d.b

/-- Only the control die's engines reach the aperture (R494). (Log 51, DEDUCED). -/
def reachable (x : Engine) : Loc → Bool
  | .pkg a => decide (a < hbmEnd) || x.die.isNone
  | _ => true

/-! Moving bytes (R260, R261, R306). -/

def locAddr : Loc → Nat
  | .tile _ a | .sram _ a | .pkg a | .fab a => a

/-- Bytes written to a place by an engine. -/
def hoistWrite (s : State) (x : Engine) (dst : Loc) (bs : List Byte) (who : Waiter) : State × Option (BitVec 8) :=
  match dst, x.job with
  | .fab _, none => (s, some ltUnbound)
  | .fab a, some j => putFab s x.h j x.sunit a bs who
  | l, _ => if reachable x l then locWrite s x.h l bs who else (s, some stNoMemory)

/-- What the ECC check of a source line comes to (R410, R412, R413). -/
def eccLoc (s : State) (l : Loc) (ecc : Ecc) : State :=
  match l with
  | .tile p a => eccSlot s p (BitVec.ofNat 64 a) ecc
  | .pkg a => eccAt s a ecc
  | _ => s

/-- One request of n bytes from `src` to one line of `dst`; a source line with an uncorrectable error leaves it unchanged
(R262). -/
def hoistMove (s : State) (x : Engine) (src dst : Loc) (n : Nat) (ecc : Ecc) (who : Waiter) :
    State × Option (BitVec 8) :=
  match src, x.job with
  | .fab _, none => (s, some ltUnbound)
  | .fab a, some j =>
    let o := a % 64
    issueRead s x.h j (mkReq s x.h j 0 (a - o) x.sunit (ceilDiv (o + n) 64) []) [(dst, o, n)] who
  | l, _ =>
    if !reachable x l then (s, some stNoMemory)
    else
      let (c, bs) := locRead s x.h l n who
      if c ≠ 0 then (s, some c)
      else
        let s := eccLoc s l ecc
        if ecc = .uncorrectable then (s, some stUncorrectable) else hoistWrite s x dst bs who

/-- The requests of one row: source, destination and bytes, cut at the destination's lines. -/
def rowRequests : Nat → Loc → Loc → Nat → List (Loc × Loc × Nat)
  | 0, _, _, _ => []
  | f + 1, src, dst, n =>
    if n = 0 then []
    else
      let k := min n (64 - locAddr dst % 64)
      (src, dst, k) :: rowRequests f (src.add k) (dst.add k) (n - k)

/-- Does a place lie in a GATEWAY region of the part's own node (R319)? -/
def atGateway (s : State) (x : Engine) : Loc → Bool
  | .fab a => x.job.isSome && isGateway s x.h a
  | _ => false

/-- The requests of one row; a gateway row goes as bulk messages. -/
def moveRow (s : State) (x : Engine) (src dst : Loc) (n : Nat) : List HWork :=
  if atGateway s x src then [.bulk dst (locAddr src) n false]
  else if atGateway s x dst then [.bulk src (locAddr dst) n true]
  else (rowRequests (n / 64 + 2) src dst n).map fun r => .move r.1 r.2.1 r.2.2 .ok

/-- Row r of a place. -/
def rowPlace (l : Loc) (stride r : Nat) : Loc := l.add (r * stride)

/-- Source and destination of a transfer and their strides. -/
def ends (op : Nat) (d : HoistDesc) (x : Engine) : (Loc × Nat) × (Loc × Nat) :=
  if op = opHput then ((placeB op d x, d.bstr), (placeA d x, d.astr))
  else ((placeA d x, d.astr), (placeB op d x, d.bstr))

/-! Weir transfers (R281, R283). -/

/-- The half a place lies in; a core's own store lies in its half. (Log 55, DEDUCED). -/
def locHalf (x : Engine) : Loc → Option Nat
  | .pkg a => if a < hbmEnd then some (addrHalf a) else if inAperture a then some (apSlot a / 2176) else none
  | .fab _ => none
  | _ => some x.h

/-- The pieces of block k of a transfer whose operand has this place and stride. -/
def weirPieces (d : HoistDesc) (l : Loc) (stride k : Nat) : List Loc :=
  let e := weirBytes d.wfmt
  if d.square then
    let per := d.len / (16 * e)
    (List.range 16).map fun a => (rowPlace l stride (16 * (k / per) + a)).add (k % per * 16 * e)
  else
    let per := d.len / (256 * e)
    [(rowPlace l stride (k / per)).add (k % per * 256 * e)]

/-- The package address that decides the bridge: the operand in the half other than the engine's, else the target. -/
def farAddr (x : Engine) (src dst : Loc) : Nat :=
  match src with
  | .pkg a => if addrHalf a ≠ x.h then a else locAddr dst
  | _ => locAddr dst

/-- A weir transfer's blocks; one within a half completes with WEIR_PATH. -/
def weirTransfer (op : Nat) (d : HoistDesc) (x : Engine) : List HWork :=
  let e := ends op d x
  match locHalf x e.1.1, locHalf x e.2.1 with
  | some a, some b => if a = b then [.code stWeirPath] else (List.range (weirBlocks d)).map .block
  | _, _ => [.code stWeirPath]

/-- Block k of a weir transfer: where its pieces come from and go to. -/
def blockEnds (op : Nat) (d : HoistDesc) (x : Engine) (k : Nat) : List Loc × List Loc :=
  let e := ends op d x
  (weirPieces d e.1.1 e.1.2 k, weirPieces d e.2.1 e.2.2 k)

/-- It joins the encoder of its bridge. -/
def weirBlock (s : State) (op : Nat) (d : HoistDesc) (x : Engine) (k : Nat) (who : Waiter) : State :=
  let e := ends op d x
  let (src, _) := e.1
  let (dst, dstr) := e.2
  let (ps, qs) := blockEnds op d x k
  if !reachable x src || !reachable x dst then answerW s who stNoMemory false []
  else match bridgeFor s x.die (farAddr x (ps.headD src) (qs.headD dst)) with
  | none => answerW s who stHalfDown false []
  | some g =>
    let o := sideBase (locAddr dst) dstr d.rows d.len - locAddr dst + 2 * k
    let side := if d.wmode = 3 then some (dst.add o) else none
    { s with weir := s.weir ++
      [⟨g, (locHalf x src).getD 0, d.wmode, d.wfmt, d.wparam, d.square, ps, qs, side, who, none⟩] }

/-! HATOM (R263, R264, R266, R267, R314). -/

/-- The element request of operand words x and c. -/
def atomReqOf (d : HoistDesc) (e : Engine) (fc aop a : Nat) (x c : W64) (repro : Bool) : AtomReq :=
  { addr := BitVec.ofNat 48 a, fc := BitVec.ofNat 4 fc, aop := BitVec.ofNat 4 aop, x := x, cmp := c, repro := repro,
    epoch := BitVec.ofNat 4 d.epoch, close := false, src := BitVec.ofNat 17 e.index }

/-- An ATOMIC packet with its operand words. -/
def atomPacket (s : State) (d : HoistDesc) (e : Engine) (j fc aop a : Nat) (ws : List W64) (repro close : Bool) :
    Packet :=
  { mkReq s e.h j 2 a e.sunit (if ws.isEmpty then 0 else 1) (padLine ws) with
    aop := BitVec.ofNat 4 aop, fc := BitVec.ofNat 4 fc, repoch := BitVec.ofNat 4 d.epoch, close := close,
    repro := repro, ret := d.ret || decide (3 ≤ aop), sindex := BitVec.ofNat 16 e.index }

/-- An index that a packet's SINDEX cannot carry is above every NSRC (R262, R304). -/
def indexLost (e : Engine) : Bool := decide (65536 ≤ e.index)

/-- One element: operand at `opnd`, target `a`; `last`: a fabric element whose packet closes the epoch. -/
def atomElement (s : State) (d : HoistDesc) (e : Engine) (fc aop : Nat) (repro : Bool) (opnd : Loc) (a : Nat)
    (last : Bool) (ecc : Ecc) (who : Waiter) : State :=
  let w := fcWidth fc / 8
  let (c1, b1) := if reachable e opnd then locRead s e.h opnd w who else (stNoMemory, [])
  let (c2, b2) := if aop = 4 then locRead s e.h (opnd.add w) w who else (0, [])
  let s := if c1 = 0 then eccLoc s opnd ecc else s
  let c3 := if ecc = .uncorrectable then stUncorrectable else 0
  if c1 ≠ 0 ∨ c2 ≠ 0 ∨ c3 ≠ 0 then answerW s who (if c1 ≠ 0 then c1 else if c2 ≠ 0 then c2 else c3) false []
  else
    let v1 := BitVec.ofNat 64 (ofBytes b1)
    let v2 := BitVec.ofNat 64 (ofBytes b2)
    let ret := if d.ret ∨ 3 ≤ aop then some opnd else none
    if d.afab then
      match e.job with
      | none => answerW s who ltUnbound false []
      | some j =>
        let ws := if aop = 4 then [v1, v2] else [v1]
        if indexLost e ∧ ((repro ∧ aop = 0 ∧ (fcFloat fc).isSome) ∨ (last ∧ d.close)) then answerW s who stBadSource false []
        else finishW (issueWrite s e.h j (atomPacket s d e j fc aop a ws repro (last && d.close)) ret who) who
    else if 2 ^ 48 ≤ a then answerW s who stAtomTarget false []
    else
      finishW (memAtomic s e.h (atomReqOf d e fc aop a (if aop = 4 then v2 else v1) v1 repro) ret e.die who) who

/-- The source closes its part of the epoch after its elements; over the fabric the last packet has done so, and one
without elements goes alone. -/
def atomClose (s : State) (d : HoistDesc) (e : Engine) (who : Waiter) : State :=
  let a := operandA d e
  if d.afab then
    match e.job with
    | none => answerW s who ltUnbound false []
    | some j =>
      if indexLost e then answerW s who stBadSource false []
      else finishW (issueWrite s e.h j (atomPacket s d e j 0 0 a [] false true) none who) who
  else if hbmEnd ≤ a then answerW s who stAtomTarget false []
  else if addrHalf a ≠ e.h ∧ (!halfRunning s (addrHalf a) ∨ !seamUp s) then answerW s who stHalfDown false []
  else finishW (closeSource s (addrHalf a) d.epoch e.index ⟨who, 0, [], e.die, a⟩) who

/-- The requests of a HATOM of one engine. (Log 53, DEDUCED). -/
def atomRun (d : HoistDesc) (e : Engine) (fc aop : Nat) : List HWork :=
  let w := fcWidth fc / 8
  let step := if aop = 4 then 2 * w else w
  let n := d.len / step
  ((List.range d.rows).flatMap fun r => (List.range n).map fun i =>
    HWork.elem (rowPlace (placeB opHatom d e) d.bstr r |>.add (i * step))
      ((operandA d e + r * d.astr + i * w) % 2 ^ 64) (decide (r + 1 = d.rows) && decide (i + 1 = n)) .ok) ++
    if d.close ∧ (!d.afab ∨ n = 0) then [.close] else []

/-! Issue. -/

/-- Requests one engine issues: one a step (R257). -/
def requestCount (op aop fc : Nat) (d : HoistDesc) (x : Engine) : Nat :=
  if op = opHatom then d.rows * (d.len / (if aop = 4 then 2 * (fcWidth fc / 8) else fcWidth fc / 8))
  else
    let e := (ends op d x).2
    ((List.range d.rows).map fun r => ceilDiv (locAddr (rowPlace e.1 e.2 r) % 64 + d.len) 64).sum

/-- The requests one engine makes of an instruction, in issue order. A row of no bytes needs none, but at a gateway, which
takes no such row (R319). -/
def hoistWork (s : State) (op fc aop : Nat) (d : HoistDesc) (x : Engine) : List HWork :=
  let e := ends op d x
  let gw := op ≠ opHatom ∧ (atGateway s x e.1.1 ∨ atGateway s x e.2.1)
  if d.len = 0 ∧ ¬(op = opHatom ∧ d.close) ∧ ¬gw then []
  else if outOfRange d x then [.code stAddrRange]
  else if op = opHatom then atomRun d x fc aop
  else if d.wmode ≠ 0 then weirTransfer op d x
  else if d.len = 0 then (List.range d.rows).map fun _ => .code gwSize
  else
    (List.range d.rows).flatMap fun r => moveRow s x (rowPlace e.1.1 e.1.2 r) (rowPlace e.2.1 e.2.2 r) d.len

/-- The outcome of the ECC check a request meets. -/
def withEcc (w : HWork) (e : Ecc) : HWork :=
  match w with
  | .move a b n _ => .move a b n e
  | .elem o a l _ => .elem o a l e
  | w => w

/-- What a request does once its engine's sluice takes it. -/
def runReq (s : State) (r : HReq) : State :=
  match r.work with
  | .move src dst n ecc => finishW (hoistMove s r.eng src dst n ecc r.who) r.who
  | .bulk loc a n write =>
    let (s, c) := gatewayRow s r.eng.h (r.eng.job.getD 0) r.eng.sunit a n write loc none r.who
    answerW s r.who c false []
  | .elem opnd a last ecc => atomElement s r.d r.eng r.fc r.aop r.repro opnd a last ecc r.who
  | .close => atomClose s r.d r.eng r.who
  | .block k => weirBlock s r.op r.d r.eng k r.who
  | .code c => answerW s r.who c false []

/-- The places a request reads and writes, with their lengths. -/
def workSpans (r : HReq) : List (Loc × Nat) :=
  match r.work with
  | .move a b n _ => [(a, n), (b, n)]
  | .elem o a .. => [(o, 2 * (fcWidth r.fc / 8)), (if r.d.afab then .fab a else .pkg a, fcWidth r.fc / 8)]
  | .block k =>
    let p := blockEnds r.op r.d r.eng k
    let n := 256 * weirBytes r.d.wfmt / p.1.length
    (p.1 ++ p.2).map fun l => (l, n)
  | .close => [(if r.d.afab then .fab (operandA r.d r.eng) else .pkg (operandA r.d r.eng), 1)]
  | .bulk .. | .code _ => []

/-- Do two spans share a 64-byte line? -/
def meets (a b : Loc × Nat) : Bool :=
  let share (x m y n : Nat) : Bool := (linesOf x m).any (linesOf y n).contains
  match a.1, b.1 with
  | .tile p x, .tile q y | .sram p x, .sram q y => p == q && share x a.2 y b.2
  | .pkg x, .pkg y => share x a.2 y b.2
  | _, _ => false

/-- The spans of a block in the weir. -/
def blockSpans (b : WeirBlk) : List (Loc × Nat) :=
  (b.src ++ b.dst).map (·, pieceBytes b) ++ b.side.toList.map (·, 2)

/-- The engine that a hoist's waiter names. -/
def engineOf : Waiter → Option Nat
  | .hoist _ _ e => some e
  | _ => none

/-- Requests of engine e without their answer (R257). -/
def engineBusy (s : State) (e : Nat) : Nat :=
  let of (h : Nat) : List Waiter :=
    let x := half s h
    x.adds.map Add64.who ++ x.ckp.ops.map Prod.snd ++ x.reqs.map LeatReq.who ++ x.msgs.map GwMsg.who ++
      x.epochs.flatMap fun p => (p.2.closing.map fun c => c.2.who) ++ p.2.closers.map Closer.who
  ((of 0 ++ of 1 ++ s.weir.map WeirBlk.who).filter fun w => engineOf w == some e).length

/-- Requests one engine holds outstanding (R257). -/
def engineMax : Nat := 512

/-- Does the seam admit no request of this kind now (R279)? -/
def acrossSeam (s : State) (r : HReq) : Bool :=
  s.seamPause && (workSpans r).any fun l => match l.1 with
    | .pkg a => seamHeld s r.eng.h a
    | _ => false

/-- Does the request stay at its engine: the seam admits none, the engine has its fill, or a block it must follow is still in
the weir (R257, R278, R279)? -/
def stays (s : State) (r : HReq) : Bool :=
  acrossSeam s r || decide (engineMax ≤ engineBusy s r.eng.sunit) ||
    s.weir.any fun b => engineOf b.who == some r.eng.sunit && (blockSpans b).any fun p => (workSpans r).any (meets p)

/-- Requests go on in issue order; behind one that stays, the later ones of its engine stay (R272). -/
def drainFrom : List HReq → List Nat → State → State
  | [], _, s => s
  | r :: l, stuck, s =>
    if stuck.contains r.eng.sunit || stays s r then
      drainFrom l (r.eng.sunit :: stuck) (updHalf s r.eng.h fun x => { x with hq := x.hq ++ [r] })
    else drainFrom l stuck (runReq s r)

/-- The engines of half h issue what they can. -/
def drainHoists (s : State) (h : Nat) : State :=
  drainFrom (half s h).hq [] (updHalf s h fun x => { x with hq := [] })

/-- One instruction's requests at one engine. -/
def hoistReqs (s : State) (op fc aop : Nat) (d : HoistDesc) (repro : Bool) (u : Proc) (id : Nat) (x : Engine) : List HReq :=
  (hoistWork s op fc aop d x).map fun w => ⟨.hoist u id x.sunit, x, d, op, fc, aop, repro, w⟩

/-- Requests join their engines' queues. -/
def queueReqs (s : State) (u : Proc) (id : Nat) (rs : List HReq) : State :=
  let s := updCtl s u fun c => { c with flights := c.flights.map fun f =>
    if f.id = id then { f with waitOn := f.waitOn + rs.length } else f }
  rs.foldl (fun s r => updHalf s r.eng.h fun x => { x with hq := x.hq ++ [r] }) s

/-- The ECC outcomes of an instruction's requests, counted over its engines in issue order. -/
def markEcc (ecc : List (Nat × Ecc)) (rs : List HReq) : List HReq :=
  rs.zipIdx.map fun e => match ecc.find? fun x => x.1 == e.2 with
    | some x => { e.1 with work := withEcc e.1.work x.2 }
    | none => e.1

/-- Is the result mode of a float ADD reproducible (R264)? -/
def reproMode (s : State) (u : Proc) (d : HoistDesc) : Bool :=
  match u with
  | .seq l => getF s F.ROW_DETMODE_REPRO l.toNat == 1
  | .rcc r => getF s F.ROW_DETMODE_REPRO (rowLeader s r.toNat) == 1
  | .node .. => d.nrepro

/-- Issues the head of the hoist queue if it is `op`: checked, then its requests go to every engine of the stream; its token
waits for the answers. -/
def hoistIssue (s : State) (u : Proc) (op : Nat) (ecc : List (Nat × Ecc)) : State :=
  issueHead s u 3 op fun s e =>
    let d := hoistDesc e.ps
    let fc := bits e.w.toNat 55 52
    let aop := bits e.w.toNat 47 44
    match hoistCheck u op e.w d with
    | some c => refuseEntry s u e 3 c
    | none =>
      let xs := engines s u e.id d
      let n := (xs.map (requestCount op aop fc d)).foldl max 0
      let s := launch s u e 3 (procStep s u + n) 0 0
      let rs := markEcc ecc (xs.flatMap (hoistReqs s op fc aop d (reproMode s u d) u e.id))
      drainHoists (drainHoists (queueReqs s u e.id rs) 0) 1

/-- HGET (R258, R261): A into the local store. -/
def execHget (x : HoistRun) (s : State) : Out := .next (hoistIssue s x.u opHget x.ecc)

/-- HPUT (R258, R261): the local store to A. -/
def execHput (x : HoistRun) (s : State) : Out := .next (hoistIssue s x.u opHput x.ecc)

/-- HCP (R258, R261): A to B, either in the package or on the fabric. -/
def execHcp (x : HoistRun) (s : State) : Out := .next (hoistIssue s x.u opHcp x.ecc)

/-- HATOM (R263-R267): the operation applied element by element at A. -/
def execHatom (x : HoistRun) (s : State) : Out := .next (hoistIssue s x.u opHatom x.ecc)

end Sys2Proof.Machine
end

