-- ==== Sys2Proof/Machine/Time.lean ====
section
/-! DEFINITION. The two counters of each half (R324-R332): their rate, exchanges, PPS, roles and states. -/

namespace Sys2Proof.Machine

/-! The counters run (R324, R325, R330). -/

/-- A signed 16-bit field. -/
def sfield (v : Nat) : Int := sext 16 v

def clampInt (lim v : Int) : Int := max (-lim) (min lim v)

/-- Fraction units in one REF_CLK period of 6.4 ns. -/
def periodUnits : Int := 64000

/-- The rate correction of a counter for one REF_CLK period, in units of 10⁻⁴ ns (R325, R330), toward its parent: half or
1.5 times the rate beyond 1 µs, 500 ppm within it, which closes 3 ns in 6 µs; in HOLDOVER the last one. Without REF_CLK
the internal oscillator is anywhere within 50 ppm. -/
def correction (st : Nat) (refLost : Bool) (c : Clk) (osc : Int) : Int :=
  if refLost then clampInt 3 osc
  else if st = tsFree then 0
  else if st = tsHoldover then c.rate
  else if 10000000 < c.off then -(periodUnits / 2)
  else if c.off < -10000000 then periodUnits / 2
  else -clampInt 32 c.off

/-- A counter and what it keeps beside its register, one REF_CLK period later. (Log 91, DESIGN CHOICE). -/
def advanceClk (st : Nat) (refLost : Bool) (osc : Int) (v : W64) (c : Clk) : W64 × Clk :=
  let d := correction st refLost c osc
  let t := c.frac + (periodUnits + d).toNat
  let x := { c with frac := t % 10000, off := c.off + d }
  (v + BitVec.ofNat 64 (t / 10000), if refLost then x else { x with rate := d })

/-- Does half h's PPS output own MFP0 (R402)? -/
def ownsMfp (s : State) (h : Nat) : Bool := ownerOf s 1 0 == h + 1

/-- Half h's PPS output drives MFP0 high: for 100 µs from each whole second of hall time, where it is enabled and the half
has power (R332). -/
def ppsHigh (s : State) (h : Nat) : Bool :=
  ownsMfp s h && domainOn s (domTime h) && getF s F.TB_CFG_PPS_OUT_EN h == 1 && decide (hallTime s h % 1000000000 < 100000)

/-- MFP0 as its owner drives it (R332, R481). -/
def drivePps (s : State) : State := { s with pins := { s.pins with mfp0 := ppsHigh s 0 || ppsHigh s 1 } }

/-- One REF_CLK period of half h's timebase, while its die is on. -/
def tickHalf (s : State) (h : Nat) : State :=
  if !domainOn s (domTime h) then s
  else
    let tb := (half s h).tb
    let lost := s.pins.refLost
    let p := advanceClk (getF s F.TB_STAT_POD_STATE h) lost (Config.fineRate s.free) (reg s .tbPod h 0) tb.pod
    let q := advanceClk (getF s F.TB_STAT_HALL_STATE h) lost (Config.fineRate (s.free + 1)) (reg s .tbHall h 0) tb.hall
    let s := setReg (setReg s .tbPod h 0 p.1) .tbHall h 0 q.1
    updHalf { s with free := s.free + 2 } h fun x => { x with tb := { x.tb with pod := p.2, hall := q.2 } }

/-- One REF_CLK period of the timebases. -/
def tickTime (s : State) : State := drivePps (tickHalf (tickHalf s 0) 1)

/-! Exchanges (R325, R326, R328, R329). -/

/-- Fields of one of the two counters. -/
structure Counter where
  reg : Reg
  state : Fld
  offs : Fld
  role : Fld
  parent : Fld
  hall : Bool

def podCounter : Counter := ⟨.tbPod, F.TB_STAT_POD_STATE, F.TB_STAT_POD_OFFS, F.TB_CFG_POD_ROLE, F.TB_CFG_POD_PARENT, false⟩
def hallCounter : Counter :=
  ⟨.tbHall, F.TB_STAT_HALL_STATE, F.TB_STAT_HALL_OFFS, F.TB_CFG_HALL_ROLE, F.TB_CFG_HALL_PARENT, true⟩

/-- What half h keeps beside the counter's register. -/
def getClk (s : State) (h : Nat) (c : Counter) : Clk := if c.hall then (half s h).tb.hall else (half s h).tb.pod

def updClk (s : State) (h : Nat) (c : Counter) (f : Clk → Clk) : State :=
  updHalf s h fun x => { x with
    tb := if c.hall then { x.tb with hall := f x.tb.hall } else { x.tb with pod := f x.tb.pod } }

/-- The counter takes its parent's value. -/
def setCounter (s : State) (h : Nat) (c : Counter) (v : W64) : State :=
  updClk (setReg s c.reg h 0 v) h c fun x => { x with frac := 0, off := 0 }

/-- The offset field, from units of 10⁻⁴ ns: in 0.125 ns or in ns, stopping at its range. -/
def putOffset (s : State) (h : Nat) (c : Counter) (off : Int) : State :=
  let v := clampInt 32767 (off.tdiv (if c.hall then 10000 else 1250))
  putF s c.offs h (v % 65536).toNat

/-- The counter less its parent's value, in units of 10⁻⁴ ns. -/
def offsetOf (s : State) (h : Nat) (c : Counter) (parent : W64) : Int :=
  ((reg s c.reg h 0).toNat : Int) * 10000 + (getClk s h c).frac - (parent.toNat : Int) * 10000

/-- An exchange with a parent that reads `parent` (R325, R329): a FREE counter behind it steps forward once; otherwise the
offset is taken, 100 exchanges in a row below 1 ns lock it, and one above 1 µs ends LOCKED with a TIME_OFFSET record.
(Log 90, DEDUCED). -/
def exchange (s : State) (h : Nat) (c : Counter) (parent : W64) : State :=
  let st := getF s c.state h
  let step := decide (st = tsFree ∧ offsetOf s h c parent < 0)
  let s := if step then setCounter s h c parent else s
  let off := offsetOf s h c parent
  let s := putOffset s h c off
  let good := if off.natAbs < 10000 then (getClk s h c).good + 1 else 0
  let s := updClk s h c fun x => { x with good := good, off := off, heard := reg s .tbPod h 0 }
  if st = tsLocked then
    if 10000000 < off.natAbs then
      setTimeState (plainRecord s h utDie h clTransient 0x000D 0 0) h c.hall tsAcquiring
    else s
  else setTimeState s h c.hall (if 100 ≤ good then tsLocked else tsAcquiring)

/-- Can half h exchange time: its timebase runs and REF_CLK is present (R330)? -/
def canExchange (s : State) (h : Nat) : Bool := domainOn s (domTime h) && !s.pins.refLost

/-- A master that hears another one becomes its follower, but for a backup that took over, which stays master (R331). -/
def hearMaster (s : State) (h : Nat) (c : Counter) : State := if getF s c.role h = 2 then putF s c.role h 1 else s

/-- Half h takes part in the exchange of a counter: it has a role in the tree, hall time does not follow PPS here, and it is
no backup that became master (R331). -/
def inTree (s : State) (h : Nat) (c : Counter) : Bool :=
  canExchange s h && getF s c.role h != 0 && !(c.hall && getF s F.TB_CFG_PPS_IN_EN h == 1) && !(getClk s h c).took

/-- The exchange of a counter with its parent. -/
def treeExchange (s : State) (h : Nat) (c : Counter) (parent : W64) : State :=
  if inTree s h c then exchange (hearMaster s h c) h c parent else s

/-- A TIME packet of half h over link l to the part at its far end (R304, R326): the counter, then a word with bit 0 hall
time, bit 1 a request, and the sender's pod above them. (Log 158, DESIGN CHOICE). -/
def timePacket (s : State) (h l : Nat) (c : Counter) (ask : Bool) : Packet :=
  let w := (reg s .leatLink h l).toNat
  let kind := getF s F.LEAT_CFG_POD h * 4 + 2 * ask.toNat + c.hall.toNat
  { mkReq s h 0 6 (bits w 50 43 * 2 ^ 56 + bits w 42 42 * 2 ^ 55) 0 1
      (padLine [reg s c.reg h 0, BitVec.ofNat 64 kind]) with key := 0, epoch := 0 }

/-- Half h's part of the two-way exchange: its own TIME packet goes to the parent, if that is a link (R326, R328). -/
def askParent (s : State) (h : Nat) (c : Counter) : State :=
  let l := getF s c.parent h
  if inTree s h c ∧ l < 64 ∧ linkUp s h l then enqueue s h l (timePacket s h l c true) else s

/-- POD_TIME_EXCHANGE (R325, R326, R329). -/
def execPodTimeExchange (h : BitVec 1) (parent : W64) (s : State) : Out :=
  .next (treeExchange (askParent s h.toNat podCounter) h.toNat podCounter parent)

/-- HALL_TIME_EXCHANGE (R328, R329). -/
def execHallTimeExchange (h : BitVec 1) (parent : W64) (s : State) : Out :=
  .next (treeExchange (askParent s h.toNat hallCounter) h.toNat hallCounter parent)

/-- Is the sender of TIME packet p the far end of link l of half h? -/
def farEnd (s : State) (h l : Nat) (p : Packet) : Bool :=
  let w := (reg s .leatLink h l).toNat
  let pod := if bit w 51 then bits w 41 30 else getF s F.LEAT_CFG_POD h
  bits w 50 43 == p.srcNode.toNat && bits w 42 42 == p.srcHalf.toNat && pod == (p.data.getD 1 0).toNat / 4

/-- Does TIME packet p come from the half's parent (R326, R328)? -/
def fromParent (s : State) (h : Nat) (c : Counter) (p : Packet) : Bool :=
  let l := getF s c.parent h
  if l = 64 then p.srcNode.toNat == myNode s h && p.srcHalf.toNat == 1 - h else farEnd s h l p

/-- A half below asks: this half's own counter goes back over the link to it, so a master hands its time down and the halves
under it relay it (R326, R328). -/
def answerTime (s : State) (h : Nat) (c : Counter) (p : Packet) : State :=
  if !canExchange s h ∨ getF s c.role h = 0 then s
  else match (List.range 64).find? fun l => linkUp s h l && farEnd s h l p with
    | some l => enqueue s h l (timePacket s h l c false)
    | none => s

/-- LEAT_TIME (R326, R328): a TIME packet of another incarnation is fenced; one for another part goes on; a request is
answered; the parent's time is the half's exchange, any other sender's is not. -/
def arriveTime (s : State) (h : Nat) (p : Packet) : State :=
  let d := p.daddr.toNat
  if bits d 63 56 ≠ myNode s h then rerouteOther s h p
  else
    let k := bits d 55 55
    let kind := (p.data.getD 1 0).toNat
    let c := if bit kind 0 then hallCounter else podCounter
    if fenced s k p then fence s k p
    else if bit kind 1 then answerTime s k c p
    else if fromParent s k c p then treeExchange s k c (p.data.getD 0 0)
    else s

def execLeatTime (h : BitVec 1) (p : Packet) (s : State) : Out := .next (arriveTime s h.toNat { p with ptype := 6 })

/-! PPS (R328, R332, R480, R481). -/

/-- The whole second nearest to a hall time. -/
def nearestSecond (t : Nat) : Nat := (t + 500000000) / 1000000000 * 1000000000

/-- PPS_EDGE (R328): PPS_SEEN sets; a half that follows the pulse takes a waiting TB_HALLSET value, or corrects toward
the whole second. A half without power or in reset ignores the edge (R491). -/
def execPpsEdge (h : BitVec 1) (s : State) : Out :=
  .next (
    let h := h.toNat
    if !domainOn s (domTime h) ∨ (half s h).rst then s
    else
      let s := putF s F.TB_STAT_PPS_SEEN h 1
      let s := updHalf s h fun x => { x with tb := { x.tb with edge := reg s .tbPod h 0 } }
      if getF s F.TB_CFG_PPS_IN_EN h = 0 ∨ s.pins.refLost then s
      else match (half s h).tb.hallset with
        | some v =>
          let s := setCounter (updHalf s h fun x => { x with tb := { x.tb with hallset := none } }) h hallCounter v
          exchange s h hallCounter v
        | none => exchange s h hallCounter (BitVec.ofNat 64 (nearestSecond (hallTime s h))))

/-- Nanoseconds of pod time of half h since an instant. -/
def podSince (s : State) (h : Nat) (t : W64) : Nat := (reg s .tbPod h 0).toNat - t.toNat

/-- PPS_TIMEOUT (R329, R347): 1.1 s without an edge. -/
def execPpsTimeout (h : BitVec 1) (s : State) : Out :=
  .next (
    let h := h.toNat
    if podSince s h (half s h).tb.edge < 1100000000 then s
    else
      let s := putF s F.TB_STAT_PPS_SEEN h 0
      if getF s F.TB_CFG_PPS_IN_EN h = 1 ∧ getF s F.TB_STAT_HALL_STATE h = tsLocked then
        setTimeState s h true tsHoldover else s)

/-- PPS_OUT_PULSE (R332, R481): the owning half drives MFP0 as hall time says. (Log 140, DEDUCED). -/
def execPpsOutPulse (h : BitVec 1) (s : State) : Out := .next (if ownsMfp s h.toNat then drivePps s else s)

/-- PPS_OUT_EN_WRITE (R332): refused unless the half owns MFP0. Clearing it lets the ball go low.
-/
def ppsOutWrite (s : State) (by' : Requester) (h : Nat) (v : W64) : State :=
  guarded s by' .tbCfg h 0 fun s =>
    if bit v.toNat 44 ∧ !ownsMfp s h then denied s by'
    else
      done (drivePps (putF s F.TB_CFG_PPS_OUT_EN h (bits v.toNat 44 44)))

def execPpsOutEnWrite (by' : Requester) (h : BitVec 1) (v : W64) (s : State) : Out := .next (ppsOutWrite s by' h.toNat v)

/-- TB_HALLSET_WRITE (R328): accepted at a hall master that is not LOCKED; with PPS_IN_EN it waits for the edge. -/
def hallsetWrite (s : State) (by' : Requester) (h : Nat) (v : W64) : State :=
  guarded s by' .tbHallset h 0 fun s =>
    if getF s F.TB_CFG_HALL_ROLE h ≠ 2 ∨ getF s F.TB_STAT_HALL_STATE h = tsLocked then denied s by'
    else if getF s F.TB_CFG_PPS_IN_EN h = 1 then
      done (updHalf s h fun x => { x with tb := { x.tb with hallset := some v } })
    else done (setCounter s h hallCounter v)

def execTbHallsetWrite (by' : Requester) (h : BitVec 1) (v : W64) (s : State) : Out := .next (hallsetWrite s by' h.toNat v)

/-! The reference clock and the masters (R330, R331). -/

/-- A counter that was following goes to HOLDOVER. -/
def toHoldover (s : State) (h : Nat) (hall : Bool) : State :=
  if getF s (if hall then F.TB_STAT_HALL_STATE else F.TB_STAT_POD_STATE) h = tsFree then s
  else setTimeState s h hall tsHoldover

/-- Every leat port of half h that is UP or TRAINING goes DOWN, and its link with it (R316, R330). -/
def dropLeat (s : State) (h : Nat) : State :=
  let up := (List.range 64).filter fun l => linkUp s h l
  let s := (List.range 72).foldl (fun s p =>
    if portState s h p = 1 ∨ portState s h p = 2 then putF s F.LEAT_PORT_STATE h 0 p else s) s
  up.foldl (fun s l => linkDown s h l) s

/-- REF_CLK_LOST (R330): REF_LOST, HOLDOVER, and the leat links go down. -/
def execRefClkLost (s : State) : Out :=
  .next (
    let s := { s with pins := { s.pins with refLost := true } }
    [0, 1].foldl (fun s h =>
      let s := putF s F.TB_STAT_REF_LOST h 1
      dropLeat (toHoldover (toHoldover s h false) h true) h) s)

/-- REF_CLK_RETURN (R330): exchanges are possible again; the counters relock through ACQUIRING. -/
def execRefClkReturn (s : State) : Out :=
  .next (
    let s := { s with pins := { s.pins with refLost := false } }
    [0, 1].foldl (fun s h => putF s F.TB_STAT_REF_LOST h 0) s)

/-- MASTER_TAKEOVER (R331): a backup master that has heard no master for 10 µs, 1 ms for hall time, keeps its value and
becomes master. It has lost its parent. -/
def execMasterTakeover (h : BitVec 1) (hall : Bool) (s : State) : Out :=
  .next (
    let h := h.toNat
    let c := if hall then hallCounter else podCounter
    if getF s c.role h ≠ 3 ∨ podSince s h (getClk s h c).heard < (if hall then 1000000 else 10000) then s
    else
      let s := putF (putF s c.role h 2) F.TB_STAT_MASTER_TAKEN h 1
      let s := updClk s h c fun x => { x with took := true }
      if getF s c.state h = tsLocked then setTimeState s h hall tsHoldover else s)

end Sys2Proof.Machine
end

