-- ==== Sys2Proof/Machine/Coll.lean ====
section
/-! DEFINITION. Collective engines (R335-R346): rings, descriptors, contributions, reductions, abort notices, barriers. -/

namespace Sys2Proof.Machine

/-! Statuses (R344). -/

def csTimeout : Nat := 0x80
def csMismatch : Nat := 0x81
def csAbort : Nat := 0x82
def csBadDescriptor : Nat := 0x83
def csMemberLost : Nat := 0x84
def csReleaseLate : Nat := 0x85
def csMemory : Nat := 0x86

/-! Rings (R215, R336). -/

/-- Records or descriptors between two free-running indices. -/
def ringCount (tail head : Nat) : Nat := (tail + 65536 - head) % 65536

/-- R215: is a doorbell write with these new indices accepted? -/
def doorbellLegal (sqLog cqLog tail0 head0 cqTail cqHead0 tail cqHead : Nat) : Bool :=
  sqLog != 0 && cqLog != 0 &&
    (tail == tail0 || (decide (ringCount tail head0 ≤ 2 ^ sqLog) && decide (ringCount tail0 head0 ≤ ringCount tail head0))) &&
    (cqHead == cqHead0 || decide (ringCount cqTail cqHead ≤ ringCount cqTail cqHead0))

/-- Descriptors posted and not taken. -/
def collPosted (s : State) (h : Nat) : Nat := ringCount (getF s F.COLL_DB_SQ_TAIL h) (half s h).collHead

def collCqFull (s : State) (h : Nat) : Bool :=
  decide (2 ^ getF s F.COLL_CQ_CQ_LOG2 h ≤ ringCount (half s h).collTail (getF s F.COLL_DB_CQ_HEAD h))

/-- Consecutive words of HBM. -/
def hbmWords (s : State) (a n : Nat) : List W64 := (List.range n).map fun i => hbmWord s (a + 8 * i)

/-! Groups and members (R336). -/

def collP (s : State) (h g : Nat) : Nat := getF s F.COLL_GROUP_W0_PM1 h g + 1
def collRank (s : State) (h g : Nat) : Nat := getF s F.COLL_GROUP_W0_RANK h g
def collSlot (s : State) (h g : Nat) : Nat := getF s F.COLL_GROUP_W0_SLOT h g
def collSeq (s : State) (h g : Nat) : Nat := getF s F.COLL_GROUP_W1_SEQ h g

/-- Entry r of a group's member list. -/
def member (s : State) (h g r : Nat) : Nat := hbmNat s (getF s F.COLL_GROUP_W1_LIST h g + 4 * r) 4

/-- The entry that names half h of this part. -/
def selfEntry (s : State) (h : Nat) : Nat := getF s F.LEAT_CFG_POD h * 2 ^ 20 + myNode s h * 2 ^ 12 + h * 2 ^ 11

/-! Descriptors (R337, R338). -/

def cdOp (ws : List W64) : Nat := bits (ws.getD 0 0).toNat 63 60
def cdDt (ws : List W64) : Nat := bits (ws.getD 0 0).toNat 59 56
def cdRed (ws : List W64) : Nat := bits (ws.getD 0 0).toNat 55 53
def cdRepro (ws : List W64) : Bool := bit (ws.getD 0 0).toNat 52
def cdGroup (ws : List W64) : Nat := bits (ws.getD 0 0).toNat 51 46
def cdRoot (ws : List W64) : Nat := bits (ws.getD 0 0).toNat 45 31
def cdCount (ws : List W64) : Nat := bits (ws.getD 1 0).toNat 39 0
def cdSrc (ws : List W64) : Nat := bits (ws.getD 2 0).toNat 47 0
def cdDst (ws : List W64) : Nat := bits (ws.getD 3 0).toNat 47 0
def cdTmo (ws : List W64) : Nat := bits (ws.getD 4 0).toNat 63 48
def cdHall (ws : List W64) : Bool := bit (ws.getD 4 0).toNat 47
def cdEarliest (ws : List W64) : Nat := (ws.getD 5 0).toNat
def cdTag (ws : List W64) : Nat := bits (ws.getD 7 0).toNat 31 0

def opAllReduce : Nat := 0
def opReduceScatter : Nat := 1
def opAllGather : Nat := 2
def opBroadcast : Nat := 3
def opAllToAll : Nat := 4
def opBarrier : Nat := 5
def opStartBarrier : Nat := 6

def cdBytes (ws : List W64) : Nat := fcWidth (cdDt ws) / 8

/-- Bytes read at SRC and written at DST (R338). -/
def srcBytes (ws : List W64) : Nat := cdCount ws * cdBytes ws
def dstBytes (ws : List W64) (p : Nat) : Nat :=
  if cdOp ws = opReduceScatter then cdCount ws / p * cdBytes ws
  else if cdOp ws = opAllGather then p * cdCount ws * cdBytes ws
  else cdCount ws * cdBytes ws

def overlaps (a n b m : Nat) : Bool := decide (a < b + m) && decide (b < a + n)

/-- Does a descriptor of half h break a rule of R336-R338? (Log 95, DEDUCED). -/
def collBad (s : State) (h : Nat) (ws : List W64) : Bool :=
  let g := cdGroup ws
  let p := collP s h g
  let op := cdOp ws
  let w (i : Nat) : Nat := (ws.getD i 0).toNat
  let e := cdBytes ws
  let barrier := op == opBarrier || op == opStartBarrier
  let resv := bits (w 0) 30 0 != 0 || bits (w 1) 63 40 != 0 || bits (w 2) 63 48 != 0 || bits (w 3) 63 48 != 0 ||
    bits (w 4) 46 0 != 0 || w 6 != 0 || bits (w 7) 63 32 != 0
  decide (7 ≤ op) || !([0x5, 0xA, 0xB, 0xC, 0xD].contains (cdDt ws)) || decide (4 < cdRed ws) ||
    (decide (3 ≤ cdRed ws) && (fcFloat (cdDt ws)).isSome) || resv ||
    (if op = opBroadcast then decide (p ≤ cdRoot ws) else cdRoot ws != 0) ||
    ((op == opReduceScatter || op == opAllToAll) && cdCount ws % p != 0) || (barrier && cdCount ws != 0) ||
    getF s F.COLL_GROUP_W0_VALID h g == 0 || decide (p < 2) || decide (p ≤ collRank s h g) ||
    getF s F.LEAT_JOB_VALID h (collSlot s h g) == 0 || member s h g (collRank s h g) != selfEntry s h ||
    (!barrier && (cdSrc ws % e != 0 || cdDst ws % e != 0 || addrHalf (cdSrc ws) != h || addrHalf (cdDst ws) != h ||
      (overlaps (cdSrc ws) (srcBytes ws) (cdDst ws) (dstBytes ws p) &&
        !(cdSrc ws == cdDst ws && (op == opAllReduce || op == opBroadcast)))))

/-- What two members of one collective must agree on (R341): OP, DT, RED, REPRO, ROOT; COUNT; SEQ. -/
def collDigest (ws : List W64) (seq : Nat) : List W64 :=
  let w := (ws.getD 0 0).toNat
  [BitVec.ofNat 64 (bits w 63 52 * 2 ^ 52 + bits w 45 31 * 2 ^ 31), BitVec.ofNat 64 (cdCount ws), BitVec.ofNat 64 seq]

/-! Runs. -/

def getRuns (s : State) (h : Nat) : List CollRun := (half s h).colls
def setRuns (s : State) (h : Nat) (l : List CollRun) : State := updHalf s h fun x => { x with colls := l }

/-- A collective not yet launched here whose packets have arrived has no descriptor words. -/
def runBlank (g seq : Nat) : CollRun := ⟨g, [], seq, 0, [], [], [], none, false, none⟩

def launched (r : CollRun) : Bool := !r.words.isEmpty
def runOf (s : State) (h g : Nat) : Option CollRun := (getRuns s h).find? fun r => r.group == g && launched r

def runIs (g seq : Nat) (r : CollRun) : Bool := r.group == g && r.seq == seq
def findRun (s : State) (h g seq : Nat) : Option CollRun := (getRuns s h).find? (runIs g seq)

def updRun (s : State) (h g seq : Nat) (f : CollRun → CollRun) : State :=
  setRuns s h ((getRuns s h).map fun r => if runIs g seq r then f r else r)

/-- The run of a group and sequence number, made blank where there is none. -/
def ensureRun (s : State) (h g seq : Nat) : State :=
  if (findRun s h g seq).isSome then s else setRuns s h (getRuns s h ++ [runBlank g seq])

/-! Packets: the sequence number in TAG, the pod of the target in the low bits of DADDR; words 4 to 6 of the first line hold
the group, the sender's rank and the kind: 0 contribution, 1 notice, 2 arrival, 3 TR, 4 refusal; word 7 the sender's entry of
the member list. -/

def collPacket (s : State) (h g seq kind entry : Nat) (data : List W64) : Packet :=
  let d := bits entry 19 12 * 2 ^ 56 + bits entry 11 11 * 2 ^ 55 + bits entry 31 20
  let head := (List.range 4).map fun i => data.getD i 0
  let ws := padLine (head ++ [BitVec.ofNat 64 g, BitVec.ofNat 64 (collRank s h g), BitVec.ofNat 64 kind,
    BitVec.ofNat 64 (selfEntry s h)] ++ data.drop 4)
  { mkReq s h (collSlot s h g) 7 d 0 (ws.length / 8) ws with tag := BitVec.ofNat 16 seq }

def cpGroup (p : Packet) : Nat := (p.data.getD 4 0).toNat % 64
def cpRank (p : Packet) : Nat := (p.data.getD 5 0).toNat
def cpKind (p : Packet) : Nat := (p.data.getD 6 0).toNat

/-- How a packet is delivered to the other half of this part. -/
abbrev Deliver := State → Nat → Packet → State

/-- Sends a packet to a member; false when no route leads there or its half is down. A member of another pod is reached
through the gateways. -/
def collSend (del : Deliver) (s : State) (h entry : Nat) (p : Packet) : State × Bool :=
  let pod := bits entry 31 20
  let node := bits entry 19 12
  let hf := bits entry 11 11
  if pod = getF s F.LEAT_CFG_POD h ∧ node = myNode s h then
    if hf = h then (s, true) else if halfRunning s hf then (del s hf p, true) else (s, false)
  else
    let w := if pod = getF s F.LEAT_CFG_POD h then routeWord s h node hf else (reg s .leatPodroute h pod).toNat
    match pickLink s h w p.daddr with
    | some l => (enqueue s h l p, true)
    | none => (s, false)

/-- Ranks of the other members. -/
def otherRanks (s : State) (h g : Nat) : List Nat := (List.range (collP s h g)).filter (· != collRank s h g)

/-- R341, R342: a member that has no notice raises one, keeps it and floods it. -/
def raiseNotice (del : Deliver) (s : State) (h g seq status culprit : Nat) : State :=
  match findRun s h g seq with
  | none => s
  | some r =>
    if !r.notices.isEmpty then s
    else
      let me := collRank s h g
      let t := hallTime s h
      let s := updRun s h g seq fun r => { r with notices := [⟨status, culprit, me, t, r.edge⟩] }
      let body : List W64 := [BitVec.ofNat 64 (status + 256 * r.edge.toNat), BitVec.ofNat 64 culprit, BitVec.ofNat 64 me, BitVec.ofNat 64 t]
      (otherRanks s h g).foldl (fun s k =>
        let e := member s h g k
        (collSend del s h e (collPacket s h g seq 1 e body)).1) s

/-- Sends one packet to rank k; a member that cannot be reached is lost (R341). -/
def collSendRank (del : Deliver) (s : State) (h g seq kind k : Nat) (data : List W64) : State :=
  let e := member s h g k
  match collSend del s h e (collPacket s h g seq kind e data) with
  | (s, true) => s
  | (s, false) => raiseNotice del s h g seq csMemberLost k

/-! Contributions. -/

/-- Bytes rank `src` contributes to rank `dst`; none where it contributes nothing. -/
def partFor (ws : List W64) (p src dst : Nat) (bs : List Byte) : Option (List Byte) :=
  let n := cdCount ws / p * cdBytes ws
  let op := cdOp ws
  if op = opReduceScatter ∨ op = opAllToAll then some ((bs.drop (dst * n)).take n)
  else if op = opBroadcast then (if src = cdRoot ws then some bs else none)
  else if op = opStartBarrier then none
  else some bs

/-- Words a contribution needs. -/
def partWords (ws : List W64) (p : Nat) : Nat :=
  let op := cdOp ws
  let n := if op = opReduceScatter ∨ op = opAllToAll then cdCount ws / p * cdBytes ws else cdCount ws * cdBytes ws
  ceilDiv n 8

/-- The packets of one contribution: the digest, its length in words, then up to 16 words a packet. -/
def splitPart : Nat → List W64 → List (List W64)
  | 0, _ => []
  | f + 1, ws => if ws.length ≤ 16 then [ws] else ws.take 16 :: splitPart f (ws.drop 16)

def sendPart (del : Deliver) (s : State) (h g seq k : Nat) (dg part : List W64) : State :=
  (splitPart (part.length + 1) part).foldl (fun s c =>
    collSendRank del s h g seq 0 k (dg ++ [BitVec.ofNat 64 c.length] ++ c)) s

/-- Ranks whose contribution the run still lacks, in increasing order. -/
def lacking (s : State) (h : Nat) (r : CollRun) : List Nat :=
  let p := collP s h r.group
  let op := cdOp r.words
  let need := 3 + partWords r.words p
  let has (k : Nat) : Bool := decide (need ≤ (mget (fun _ => ([] : List W64)) k r.data).length)
  if op = opStartBarrier then
    let l := (List.range p).filter fun k => !r.arrived.contains k
    if l.isEmpty ∧ r.tr.isNone then [0] else l
  else if op = opBroadcast then (if has (cdRoot r.words) then [] else [cdRoot r.words])
  else (List.range p).filter fun k => !has k

/-! Completion (R344). -/

/-- The notice R342 selects: the lowest culprit, and among those the lowest detecting rank. -/
def pickNotice (l : List Notice) : Option Notice :=
  l.foldl (fun b n => match b with
    | none => some n
    | some b => if n.culprit < b.culprit ∨ (n.culprit = b.culprit ∧ n.detector < b.detector) then some n else some b) none

/-- The record of a finished run. -/
def collRecord (r : CollRun) (status tEnd : Nat) : List W64 :=
  let best := pickNotice r.notices
  let first := r.notices.foldl (fun t n => min t n.stamp) (2 ^ 64 - 1)
  let w0 := status * 2 ^ 56 + cdOp r.words * 2 ^ 52 + r.group * 2 ^ 46 +
    (if status = csTimeout ∧ best.any Notice.edge then 2 ^ 45 else 0) + cdTag r.words
  let w1 := r.seq * 2 ^ 48 + (match best with
    | some n => if status = 0 then 0 else n.culprit * 2 ^ 32 + n.detector
    | none => 0)
  let w2 := if status = 0 then (match r.tr with
    | some t => t.toNat
    | none => 0) else first
  [BitVec.ofNat 64 w0, BitVec.ofNat 64 w1, BitVec.ofNat 64 w2, BitVec.ofNat 64 tEnd]

/-- Writes the record of a run that is over, if the completion ring has room; else it waits. -/
def collFinish (s : State) (h : Nat) (r : CollRun) (status tEnd : Nat) : State :=
  if collCqFull s h then
    updRun s h r.group r.seq fun x => { x with done := some (status, BitVec.ofNat 64 tEnd) }
  else
    let rec4 := collRecord r status tEnd
    let i := (half s h).collTail
    let a := getF s F.COLL_CQ_CQ_BASE h * 4096 + i % 2 ^ getF s F.COLL_CQ_CQ_LOG2 h * 32
    let s := (memWrite s h a (wordBytes rec4) .nobody).1
    let s := updHalf s h fun x => { x with collTail := (i + 1) % 65536,
                                           colls := x.colls.filter fun y => !runIs r.group r.seq y }
    raiseEvent s h evColl status rec4

/-- Records that waited for room. -/
def collFlush (s : State) (h : Nat) : State :=
  (getRuns s h).foldl (fun s r => match r.done with
    | some (st, t) => collFinish s h r st t.toNat
    | none => s) s

/-! Reductions (R339). -/

def combine (red dt a b : Nat) : Nat :=
  match red with
  | 0 => (atomNew dt 0 a b 0).1
  | 1 => (atomNew dt 1 a b 0).1
  | 2 => (atomNew dt 2 a b 0).1
  | 3 => Nat.land a b
  | _ => Nat.lor a b

/-- One level of the tree of R339 over relative ranks: pairs at distance 2^l. -/
def treeLevel (f : Nat → Nat → Nat) (l : Nat) (xs : List Nat) : List Nat :=
  xs.zipIdx.map fun e =>
    if e.2 % 2 ^ (l + 1) = 0 ∧ e.2 + 2 ^ l < xs.length then f e.1 (xs.getD (e.2 + 2 ^ l) 0) else e.1

/-- The sum of element i in network order: of the values left, two are added, rounded once, until one is left (R88).
(Log 94, DESIGN CHOICE). -/
def mergeSum (seq dt i : Nat) : Nat → List Nat → Nat
  | 0, xs => xs.headD 0
  | f + 1, xs =>
    let n := xs.length
    if n < 2 then xs.headD 0
    else
      let k := Config.sumOrder seq n i
      let rest := xs.eraseIdx (k % n)
      let j := k / n % (n - 1)
      mergeSum seq dt i f (combine 0 dt (xs.getD (k % n) 0) (rest.getD j 0) :: rest.eraseIdx j)

/-- The reduction of element i over the members in rank order, with root ρ. -/
def reduceElem (seq red dt root : Nat) (repro : Bool) (i : Nat) (xs : List Nat) : Nat :=
  if !repro ∧ red = 0 ∧ (fcFloat dt).isSome then mergeSum seq dt i xs.length xs
  else
    let p := xs.length
    let rel := (List.range p).map fun q => xs.getD ((q + root) % p) 0
    ((List.range (Nat.clog 2 p)).foldl (fun v l => treeLevel (combine red dt) l v) rel).headD 0

/-- Elements of rank k's contribution. -/
def partElems (r : CollRun) (n k : Nat) : List Nat :=
  patterns (cdBytes r.words) ((wordBytes ((mget (fun _ => ([] : List W64)) k r.data).drop 3)).take (n * cdBytes r.words))
where
  patterns (eb : Nat) (bs : List Byte) : List Nat :=
    (List.range (bs.length / eb)).map fun i => ofBytes ((bs.drop (eb * i)).take eb)

/-- What this member's DST receives (R338). -/
def collResult (s : State) (h : Nat) (r : CollRun) : List Byte :=
  let p := collP s h r.group
  let ws := r.words
  let e := cdBytes ws
  let all (n : Nat) : List (List Nat) := (List.range p).map (partElems r n)
  let out (xs : List Nat) : List Byte := xs.flatMap (toBytes e)
  let reduce (n root : Nat) : List Byte :=
    let cols := all n
    out ((List.range n).map fun i =>
      reduceElem r.seq (cdRed ws) (cdDt ws) root (cdRepro ws) i (cols.map fun c => c.getD i 0))
  match cdOp ws with
  | 0 => reduce (cdCount ws) 0
  | 1 => reduce (cdCount ws / p) (collRank s h r.group)
  | 2 => out ((all (cdCount ws)).flatten)
  | 3 => out (partElems r (cdCount ws) (cdRoot ws))
  | 4 => out ((all (cdCount ws / p)).flatten)
  | _ => []

/-- Writes bytes into a half's HBM line by line; the first failing status. -/
def writeRegion (s : State) (h : Nat) : Nat → Nat → List Byte → State × BitVec 8
  | 0, _, _ => (s, 0)
  | f + 1, a, bs =>
    if bs.isEmpty then (s, 0)
    else
      let k := 64 - a % 64
      let (s, c) := memWrite s h a (bs.take k) .nobody
      let (s, c') := writeRegion s h f (a + min k bs.length) (bs.drop k)
      (s, if c.getD 0 = 0 then c' else c.getD 0)

/-! Arrivals (R336, R341, R342, R345, R346). -/

def collClock (s : State) (h : Nat) (ws : List W64) : Nat := (reg s (if cdHall ws then .tbHall else .tbPod) h 0).toNat

/-- TR reaches a member: too late, it raises COLL_RELEASE_LATE; else it waits for TR. -/
def takeTr (del : Deliver) (s : State) (h g seq tr : Nat) : State :=
  match findRun s h g seq with
  | none => s
  | some r =>
    if !r.notices.isEmpty ∨ r.tr.isSome then s
    else if tr < collClock s h r.words + 2000 then raiseNotice del s h g seq csReleaseLate (collRank s h g)
    else updRun s h g seq fun r => { r with tr := some (BitVec.ofNat 64 tr) }

/-- The later of EARLIEST and TA plus 20 µs or 50 µs, rounded up to a whole µs. -/
def releaseInstant (ws : List W64) (ta : Nat) : Nat :=
  ceilDiv (max (cdEarliest ws) (ta + if cdHall ws then 50000 else 20000)) 1000 * 1000

/-- Rank k has arrived; at the last arrival rank 0 fixes TR and sends it. -/
def arriveRank (del : Deliver) (s : State) (h g seq k : Nat) : State :=
  let s := updRun s h g seq fun r =>
    if r.arrived.contains k then r else { r with arrived := r.arrived ++ [k] }
  match findRun s h g seq with
  | none => s
  | some r =>
    if collRank s h g = 0 ∧ launched r ∧ r.tr.isNone ∧ r.notices.isEmpty ∧ collP s h g ≤ r.arrived.length then
      let tr := releaseInstant r.words (collClock s h r.words)
      let s := takeTr del s h g seq tr
      (otherRanks s h g).foldl (fun s k => collSendRank del s h g seq 3 k [BitVec.ofNat 64 tr]) s
    else s

/-- A contribution, notice, arrival or TR for the run of sequence number `seq`. -/
def collTake (del : Deliver) (s : State) (h g seq : Nat) (p : Packet) : State :=
  let k := cpRank p
  let w (i : Nat) : W64 := p.data.getD i 0
  let s := ensureRun s h g seq
  match findRun s h g seq with
  | none => s
  | some r =>
    let ended := !r.notices.isEmpty || r.done.isSome
    match cpKind p with
    | 1 =>
      let n : Notice := ⟨(w 0).toNat % 256, (w 1).toNat, (w 2).toNat, (w 3).toNat, bit (w 0).toNat 8⟩
      if r.notices.contains n then s else updRun s h g seq fun r => { r with notices := r.notices ++ [n] }
    | 2 => if ended then bumpF s F.LEAT_DROP_LATE_RESP h else arriveRank del s h g seq k
    | 3 => if ended then bumpF s F.LEAT_DROP_LATE_RESP h else takeTr del s h g seq (w 0).toNat
    | _ =>
      if ended then bumpF s F.LEAT_DROP_LATE_RESP h
      else
        let dg := p.data.take 3
        let old := mget (fun _ => ([] : List W64)) k r.data
        let body := (p.data.drop 8).take (w 3).toNat
        let s := updRun s h g seq fun r => { r with
          data := mput k (if old.isEmpty then dg ++ body else old ++ body) r.data }
        if launched r ∧ dg ≠ collDigest r.words seq then raiseNotice del s h g seq csMismatch k else s

/-- A COLL packet that half h refuses is answered by one of kind 4, with the code. (Log 96, DEDUCED). -/
def collRefuse (del : Deliver) (s : State) (h : Nat) (p : Packet) (code : BitVec 8) : State :=
  let e := (p.data.getD 7 0).toNat
  (collSend del s h e (collPacket s h (cpGroup p) p.tag.toNat 4 e [code.setWidth 64])).1

/-- A refusal at half h: the member that answers HALF_DOWN is lost (R341); nothing follows from LEAT_KEY. One for a collective
that is over is discarded. -/
def collRefused (del : Deliver) (s : State) (h : Nat) (p : Packet) : State :=
  let g := cpGroup p
  match findRun s h g p.tag.toNat with
  | none => bumpF s F.LEAT_DROP_LATE_RESP h
  | some r =>
    if !r.notices.isEmpty ∨ r.done.isSome then bumpF s F.LEAT_DROP_LATE_RESP h
    else if p.data.getD 0 0 ≠ stHalfDown.setWidth 64 then s
    else match (otherRanks s h g).find? fun k => member s h g k == (p.data.getD 7 0).toNat with
      | some k => raiseNotice del s h g r.seq csMemberLost k
      | none => s

/-- A COLL packet at half h: on to its part, or checked against the group's own slot (checks 1, 2 and 4 of R311) and
taken by the run it belongs to; a half that is not RUNNING refuses it. One of an earlier sequence number is discarded. (Log 96,
DEDUCED). -/
def collArrive (del : Deliver) (s : State) (h : Nat) (p : Packet) : State :=
  let d := p.daddr.toNat
  let pod := bits d 11 0
  if pod ≠ getF s F.LEAT_CFG_POD h then
    match pickLink s h (reg s .leatPodroute h pod).toNat p.daddr with
    | some l => enqueue s h l p
    | none => s
  else if bits d 63 56 ≠ myNode s h then rerouteOther s h p
  else
    let h := bits d 55 55
    let g := cpGroup p
    let slot := collSlot s h g
    if fenced s h p then fence s h p
    else if cpKind p = 4 then collRefused del s h p
    else if getF s F.LEAT_JOB_EPOCH h slot ≠ p.epoch.toNat then bumpF s F.LEAT_DROP_STALE_EPOCH h
    else if getF s F.LEAT_JOB_KEY h slot ≠ p.key.toNat then collRefuse del s h p ltKey
    else if !halfRunning s h then collRefuse del s h p stHalfDown
    else
      let base := match runOf s h g with
        | some r => r.seq
        | none => collSeq s h g
      let ahead := (p.tag.toNat + 65536 - base) % 65536
      if 32768 ≤ ahead then bumpF s F.LEAT_DROP_LATE_RESP h
      else collTake del s h g (if ahead = 0 ∨ (runOf s h g).isNone then base else (base + 1) % 65536) p

/-- Delivery between the two halves of this part; a chain of answers is at most four packets long. -/
def collDeliver : Nat → Deliver
  | 0, s, _, _ => s
  | n + 1, s, h, p => collArrive (collDeliver n) s h p

def deliver4 : Deliver := collDeliver 4

/-- LEAT_COLL (R336, R342). -/
def execLeatColl (h : BitVec 1) (p : Packet) (s : State) : Out :=
  .next (collArrive deliver4 s h.toNat { p with ptype := 7 })

/-! Engines (R335). -/

/-- Engines of half h that take work. -/
def collEngines (s : State) (h : Nat) : Nat :=
  if domainOn s (domSwitch h 1) then
    ((List.range 8).filter fun e => (getUnit s utEngine (16 + 8 * h + e)).st == 0).length
  else 0

/-- The descriptor at the head of the submission ring. -/
def collHeadWords (s : State) (h : Nat) : List W64 :=
  hbmWords s (getF s F.COLL_SQ_SQ_BASE h * 4096 + (half s h).collHead % 2 ^ getF s F.COLL_SQ_SQ_LOG2 h * 64) 8

/-- Does a route lead to rank k now (R341)? -/
def memberReach (s : State) (h g k : Nat) : Bool :=
  let e := member s h g k
  (collSend (fun s _ _ => s) s h e (collPacket s h g 0 2 e [])).2

/-- A launch: the contribution is read and sent; a bad descriptor, a memory status or a mismatch raises a notice.
(Log 93, DESIGN CHOICE). -/
def collStart (s : State) (h g seq : Nat) (ws : List W64) : State :=
  let me := collRank s h g
  if (findRun s h g seq).any (fun r => !r.notices.isEmpty) then s
  else if collBad s h ws then raiseNotice deliver4 s h g seq csBadDescriptor me
  else
    let p := collP s h g
    let (c, bs) := if srcBytes ws = 0 ∨ (cdOp ws = opBroadcast ∧ cdRoot ws ≠ me) then (0, [])
      else memReadAny s h .nobody (srcBytes ws / 64 + 2) (cdSrc ws) (srcBytes ws)
    if c ≠ 0 then raiseNotice deliver4 s h g seq csMemory me
    else
      let dg := collDigest ws seq
      let keep (s : State) : State := match partFor ws p me me bs with
        | some b => updRun s h g seq fun r => { r with data := mput me (dg ++ wordsOf b) r.data }
        | none => s
      let early : Option (Nat × List W64) := match findRun s h g seq with
        | some r => r.data.find? fun (e : Nat × List W64) => e.2.take 3 != dg
        | none => none
      match early with
      | some e => raiseNotice deliver4 s h g seq csMismatch e.1
      | none =>
        (otherRanks s h g).foldl (fun s k => match partFor ws p me k bs with
          | some b => sendPart deliver4 s h g seq k dg (wordsOf b)
          | none => s) (keep s)

/-- Takes the head descriptor when it is `op` (or no operation at all) on group g and an engine is free. -/
def collLaunch (s : State) (h g op : Nat) : State :=
  let ws := collHeadWords s h
  let running := ((getRuns s h).filter launched).length
  if !halfRunning s h ∨ collPosted s h = 0 ∨ cdGroup ws ≠ g ∨ (cdOp ws ≠ op ∧ cdOp ws < 7) ∨ (runOf s h g).isSome ∨
      collEngines s h ≤ running then s
  else
    let seq := collSeq s h g
    let s := ensureRun s h g seq
    let s := updRun s h g seq fun r => { r with words := ws, launch := hallTime s h }
    let s := putF s F.COLL_GROUP_W1_SEQ h (seq + 1) g
    let s := updHalf s h fun x => { x with collHead := (x.collHead + 1) % 65536 }
    collStart s h g seq ws

/-- Completes the run of group g once it lacks nothing: DST is written and the record follows. While it lacks something, a
member that no route leads to is lost (R341). -/
def collComplete (s : State) (h g : Nat) : State :=
  match runOf s h g with
  | none => s
  | some r =>
    if !r.notices.isEmpty ∨ r.done.isSome ∨ cdOp r.words = opStartBarrier ∨ 7 ≤ cdOp r.words then s
    else if !(lacking s h r).isEmpty then
      match (lacking s h r).find? fun k => !memberReach s h g k with
      | some k => raiseNotice deliver4 s h g r.seq csMemberLost k
      | none => s
    else
      let bs := collResult s h r
      let (s, c) := writeRegion s h (bs.length / 64 + 2) (cdDst r.words) bs
      if c ≠ 0 then raiseNotice deliver4 s h g r.seq csMemory (collRank s h g)
      else collFinish s h r 0 (hallTime s h)

/-- An engine works on group g's collective: launched if it is next in the ring, completed if it lacks nothing. -/
def collWork (s : State) (h g op : Nat) : State :=
  let s := collLaunch s h g op
  if (runOf s h g).any fun r => cdOp r.words == op then collComplete s h g else s

/-- ALL_REDUCE (R338, R339). -/
def execAllReduce (h : BitVec 1) (g : BitVec 6) (s : State) : Out := .next (collWork s h.toNat g.toNat opAllReduce)

/-- REDUCE_SCATTER (R338, R339). -/
def execReduceScatter (h : BitVec 1) (g : BitVec 6) (s : State) : Out :=
  .next (collWork s h.toNat g.toNat opReduceScatter)

/-- ALL_GATHER (R338). -/
def execAllGather (h : BitVec 1) (g : BitVec 6) (s : State) : Out := .next (collWork s h.toNat g.toNat opAllGather)

/-- BROADCAST (R338). -/
def execBroadcast (h : BitVec 1) (g : BitVec 6) (s : State) : Out := .next (collWork s h.toNat g.toNat opBroadcast)

/-- ALL_TO_ALL (R338). -/
def execAllToAll (h : BitVec 1) (g : BitVec 6) (s : State) : Out := .next (collWork s h.toNat g.toNat opAllToAll)

/-- BARRIER (R345): completes once every member has launched it. -/
def execBarrier (h : BitVec 1) (g : BitVec 6) (s : State) : Out := .next (collWork s h.toNat g.toNat opBarrier)

/-- START_BARRIER (R345): the launch; arrivals, TR and the release follow. -/
def execStartBarrier (h : BitVec 1) (g : BitVec 6) (s : State) : Out :=
  .next (collLaunch s h.toNat g.toNat opStartBarrier)

/-- START_BARRIER_ARRIVAL (R345): this member arrives once it has launched and its slot reads DRAINED, and tells every
member; the arrival of another rank is taken as its packet would be. -/
def execStartBarrierArrival (h : BitVec 1) (g : BitVec 6) (rank : BitVec 15) (s : State) : Out :=
  .next (
    let h := h.toNat
    let g := g.toNat
    match runOf s h g with
    | none => s
    | some r =>
      if cdOp r.words ≠ opStartBarrier ∨ !r.notices.isEmpty ∨ r.done.isSome then s
      else if rank.toNat = collRank s h g then
        if getF s F.LEAT_JOB_DRAINED h (collSlot s h g) = 0 ∨ r.arrived.contains rank.toNat then s
        else
          let s := (otherRanks s h g).foldl (fun s k => collSendRank deliver4 s h g r.seq 2 k []) s
          arriveRank deliver4 s h g r.seq rank.toNat
      else if rank.toNat < collP s h g then arriveRank deliver4 s h g r.seq rank.toNat
      else s)

/-! Timeouts, aborts, the doorbell (R341, R342, R215). -/

/-- Nanoseconds of a run's timeout. -/
def collTmo (s : State) (h : Nat) (r : CollRun) : Nat :=
  (if cdTmo r.words = 0 then getF s F.COLL_CFG_TMO_MS h else cdTmo r.words) * 1000000

/-- COLL_TIMEOUT (R341): TMO has elapsed while the member still waits; the culprit is the lowest rank it lacks. -/
def execCollTimeout (h : BitVec 1) (g : BitVec 6) (s : State) : Out :=
  .next (
    let h := h.toNat
    let g := g.toNat
    match runOf s h g with
    | none => s
    | some r =>
      match lacking s h r with
      | [] => s
      | k :: _ =>
        if !r.notices.isEmpty ∨ r.done.isSome ∨ hallTime s h < r.launch + collTmo s h r then s
        else
          let near := within 40 (hallTime s h) (r.launch + collTmo s h r)
          raiseNotice deliver4 (updRun s h g r.seq fun r => { r with edge := near }) h g r.seq csTimeout k)

/-- What DST holds after an abort is undefined (R343), where the descriptor names a DST. (Log 98, DEDUCED). -/
def loseDst (s : State) (h : Nat) (r : CollRun) : State :=
  if !launched r ∨ 5 ≤ cdOp r.words ∨ collBad s h r.words then s
  else smear s (cdDst r.words) (dstBytes r.words (collP s h r.group))

/-- COLL_SETTLE (R342): 2 ms after the earliest stamp the member completes with the notice R342 selects. -/
def execCollSettle (h : BitVec 1) (g : BitVec 6) (s : State) : Out :=
  .next (
    let h := h.toNat
    match runOf s h g.toNat with
    | none => s
    | some r =>
      match pickNotice r.notices with
      | none => s
      | some n =>
        let first := r.notices.foldl (fun t n => min t n.stamp) n.stamp
        if r.done.isSome ∨ hallTime s h < first + 2000000 then s
        else
          collFinish (loseDst s h r) h r n.status (first + 2000000))

/-- A write of COLL_DB (R215, R336): refused, or the indices change, waiting records move on, and ABORT aborts. -/
def collDbWrite (s : State) (by' : Requester) (h : Nat) (v : W64) : State :=
  guarded s by' .collDb h 0 fun s =>
    let x := half s h
    let tail := bits v.toNat 15 0
    let head := bits v.toNat 31 16
    if !doorbellLegal (getF s F.COLL_SQ_SQ_LOG2 h) (getF s F.COLL_CQ_CQ_LOG2 h) (getF s F.COLL_DB_SQ_TAIL h) x.collHead
        x.collTail (getF s F.COLL_DB_CQ_HEAD h) tail head then denied s by'
    else
      let s := putF (putF s F.COLL_DB_SQ_TAIL h tail) F.COLL_DB_CQ_HEAD h head
      let s := collFlush s h
      let g := bits v.toNat 61 56
      done (if bit v.toNat 63 then
        match runOf s h g with
        | some r => if r.done.isSome then s else raiseNotice deliver4 s h g r.seq csAbort (collRank s h g)
        | none => s
      else s)

/-- COLL_DOORBELL (R335). -/
def execCollDoorbell (by' : Requester) (h : BitVec 1) (v : W64) (s : State) : Out :=
  .next (collDbWrite s by' h.toNat v)

/-- COLL_CQ_RELEASE (R215). -/
def execCollCqRelease (by' : Requester) (h : BitVec 1) (v : W64) (s : State) : Out :=
  .next (collDbWrite s by' h.toNat v)

/-- COLL_ABORT (R341): ABORT for group g, the indices as they stand. -/
def execCollAbort (by' : Requester) (h : BitVec 1) (g : BitVec 6) (s : State) : Out :=
  .next (
    let v := 2 ^ 63 + g.toNat * 2 ^ 56 + getF s F.COLL_DB_CQ_HEAD h.toNat * 65536 + getF s F.COLL_DB_SQ_TAIL h.toNat
    collDbWrite s by' h.toNat (BitVec.ofNat 64 v))

end Sys2Proof.Machine
end

