-- ==== Sys2Proof/Machine/Fantail.lean ====
section
/-! DEFINITION. The fantail of each half (R38-R45, R463-R468): reserves, the burst bucket, operating points of free and
paced gangs, sensors, the clamp, the pacing timer's releases. -/

namespace Sys2Proof.Machine

/-! Reserves (R466). -/

/-- Reserve of a row at OP-1 to OP-6, in watts. -/
def rowReserve (op : Nat) : Nat := [41, 76, 96, 120, 176, 230].getD (op - 1) 0

/-- OP_MIN and OP_MAX of a row (R465). -/
def opLimits (s : State) (r : Nat) : Nat × Nat := mget (fun _ => (1, 6)) r (half s (rowHalf r)).cfg.rowop

/-- Reserve of a domain other than a row's, in watts. -/
def domReserve (n : Nat) : Nat :=
  if n < 104 then (if n % 13 < 8 then 0 else if n % 13 < 12 then 12 else 25)
  else if n < 112 then 20
  else if n < 144 then 66
  else if n < 162 then 28
  else if n < 170 then [20, 45, 45, 30].getD ((n - 162) % 4) 0
  else if n < 174 then [40, 20].getD ((n - 170) % 2) 0
  else if n < 176 then 5
  else 2

/-- Domains whose reserve counts in half h: bridge b in half b. -/
def reserveDomains (h : Nat) : List Nat :=
  (List.range 180).filter fun n => domHalf n == some h || n == domSeam h

def halfRows (h : Nat) : List Nat := rangeFrom (32 * h) 32

/-- The reserve of half h in watts when row r is at point `op r`. -/
def reserveAt (s : State) (h : Nat) (op : Nat → Nat) : Nat :=
  let rows := (halfRows h).foldl (fun a r => a + rowReserve (op r)) 0
  ((reserveDomains h).filter (domainOn s)).foldl (fun a n => a + domReserve n) rows

/-- The point a row's reserve is taken at: that of its target while paced, OP_MIN while free. -/
def reservePoint (s : State) (r : Nat) : Nat :=
  if getF s F.ROW_PACE_PACE_EN r = 1 then (pacePoint (getF s F.ROW_PACE_PACE_TARGET r)).getD 6 else (opLimits s r).1

/-- PWR_MEAS.RESERVE (R466). -/
def reserveNow (s : State) (h : Nat) : Nat := reserveAt s h (reservePoint s)

def sustainW (s : State) (h : Nat) : Nat := getF s F.PWR_BUDGET_SUSTAIN 0 h * 10
def burstW (s : State) (h : Nat) : Nat := getF s F.PWR_BUDGET_BURST 0 h * 10

/-- Bmax in mJ (R463). -/
def bucketMax (s : State) (h : Nat) : Nat := (burstW s h - sustainW s h) * getF s F.PWR_BUDGET_BURST_MS 0 h

/-- The bucket of half h, in units of 10 µJ, as PWR_MEAS and PWR_STAT show it. -/
def setBucket (s : State) (h b : Nat) : State :=
  let s := updHalf s h fun x => { x with bucket := b }
  let s := putF s F.PWR_MEAS_BUCKET 0 (b / 100) h
  putF s F.PWR_STAT_HELD 0 (if b = 0 then 1 else 0) h

/-- The bucket is full when the half enters RUNNING (R463). (Log 136, DEDUCED). -/
def fillBucket (s : State) (h : Nat) : State := setBucket s h (bucketMax s h * 100)

/-! Operating points. -/

def curOp (s : State) (r : Nat) : Nat := getF s F.ROW_FANTAIL_CUR_OP r
/-- PACE_EN as the row's register holds it. -/
def paceEn (s : State) (r : Nat) : Bool := getF s F.ROW_PACE_PACE_EN r == 1

/-- Is the row paced now: by its register, or while a change waits for the next boundary by the mode still in force
(R45)? -/
def isPaced (s : State) (r : Nat) : Bool :=
  if (seqCtl s (rowLeader s r)).paceNew then getF s F.ROW_PACE_PACE_ACTIVE r == 1 else paceEn s r

/-- OP_MIN and OP_MAX of a gang: every row of it stands at one point (R39, R465). -/
def gangLimits (s : State) (l : Nat) : Nat × Nat :=
  let ls := (gangRows s l).map (opLimits s)
  let lo := ls.foldl (fun a x => max a x.1) 1
  (lo, max lo (ls.foldl (fun a x => min a x.2) 6))

/-- Every row of a gang takes one point (R39), within the limits of all of them (R465). -/
def placeGang (s : State) (l op : Nat) : State :=
  let lim := gangLimits s l
  let p := max lim.1 (min lim.2 op)
  (gangRows s l).foldl (fun s r => if domainOn s (domRow r) then putF s F.ROW_FANTAIL_CUR_OP r p else s) s

/-- Leaders of the free gangs that half h governs. -/
def freeGangs (s : State) (h : Nat) : List Nat := (halfRows h).filter fun l => rowLeader s l == l && !isPaced s l

/-- Every free row of the half goes to its OP_MIN (R464). -/
def freeToMin (s : State) (h : Nat) : State := (freeGangs s h).foldl (fun s l => placeGang s l 1) s

/-- Does the half have a fantail at work: its control die is on and its firmware runs? -/
def fantailLive (s : State) (h : Nat) : Bool := domainOn s (domCtl h 0) && decide (hsLoaded ≤ halfState s h)

/-- The power predicted for half h with the points it now has; entry 64 + h stands for all but its rows. -/
def predicted (s : State) (h n : Nat) : Nat :=
  (halfRows h).foldl (fun a r => a + Config.predictPower n r (curOp s r)) (Config.predictPower n (64 + h) 0)

/-- Did the free gang of leader l change its point less than 100 µs, ten evaluations, ago (R39)? -/
def dwells (s : State) (h l : Nat) : Bool :=
  let t := mget zNat l (half s h).opSince
  t != 0 && decide ((half s h).evals < t + 10)

/-- The order in which the fantail serves the free gangs: those that still dwell at a point, then by a turn of its own.
(Log 70, DESIGN CHOICE). -/
def fantailOrder (s : State) (h n : Nat) : List Nat :=
  let ls := freeGangs s h
  (ls.filter (dwells s h)) ++
    (ls.filter fun l => !dwells s h l).insertionSort fun a b => Config.fantailTurn n a ≤ Config.fantailTurn n b

/-- The highest point up to `cap` at which the gang of leader l keeps the predicted power within the budget, the gangs
not served yet standing at OP_MIN. -/
def raiseGang (h n budget : Nat) : Nat → State → Nat → State
  | 0, s, l => placeGang s l 0
  | op + 1, s, l =>
    let t := placeGang s l (op + 1)
    if predicted t h n ≤ budget then t else raiseGang h n budget op s l

/-- The points of the free gangs at evaluation n: each the highest that keeps the half within its budget (R39), never
below OP_MIN (R44). A gang that dwells is not raised, and while a sensor throttles none is (R468).
 -/
def chooseFree (s : State) (h n budget : Nat) : State :=
  let hot := getF s F.PWR_STAT_THROTTLE 0 h == 1
  let t := (fantailOrder s h n).foldl (fun t l =>
    raiseGang h n budget (if hot || dwells s h l then curOp s l else 6) t l) (freeToMin s h)
  (freeGangs s h).foldl (fun t l =>
    if curOp t l = curOp s l then t
    else updHalf t h fun x => { x with opSince := mset zNat l x.evals x.opSince }) t

/-- Replica-ring rates of the half's rows, 0 while off (R34). -/
def measureRates (s : State) (h : Nat) : State :=
  (halfRows h).foldl (fun s r =>
    let (v, s) := fresh s
    putF s F.ROW_FANTAIL_MEAS_RATE r (if domainOn s (domRow r) then v.toNat else 0)) s

/-- Paced rows stand at PACE_OP, unless a junction of the half is at 95 °C, where they may have been lowered (R43). -/
def holdPaced (s : State) (h : Nat) : State :=
  if (halfRows h).any fun r => getF s F.ROW_FANTAIL_HOT r == 1 then s
  else
    (halfRows h).foldl (fun s r =>
      if domainOn s (domRow r) ∧ getF s F.ROW_PACE_PACE_OP r ≠ 0 then
        putF s F.ROW_FANTAIL_CUR_OP r (getF s F.ROW_PACE_PACE_OP r) else s) s

/-- FANTAIL_EVALUATION (R39, R463, R464): the mean power P of the last 10 µs moves the bucket, ends a clamp, and the free
gangs take the points the budget admits. VIN and the measured rates are free values. -/
def execFantailEvaluation (h : BitVec 1) (watts : BitVec 16) (s : State) : Out :=
  .next (
    let h := h.toNat
    let p := watts.toNat
    if !fantailLive s h then s
    else
      let n := 2 * (half s h).evals + h
      let s := updHalf s h fun x => { x with evals := x.evals + 1 }
      let b : Int := min (bucketMax s h * 100 : Nat) ((half s h).bucket - ((p : Int) - sustainW s h))
      let s := if (half s h).bucketOn then setBucket s h b.toNat else s
      let s := putF s F.PWR_MEAS_P_AVG 0 p h
      let (v, s) := fresh s
      let s := measureRates (putF s F.PWR_MEAS_VIN 0 v.toNat h) h
      let s := if p < sustainW s h then putF s F.PWR_STAT_CLAMP 0 0 h else s
      let s := holdPaced s h
      if getF s F.PWR_STAT_CLAMP 0 h = 1 then s
      else chooseFree s h n (if (half s h).bucket = 0 then sustainW s h else burstW s h))

/-- POWER_SAMPLE (R464): a 1 µs sample above BURST clamps the free rows and counts. -/
def execPowerSample (h : BitVec 1) (watts : BitVec 16) (s : State) : Out :=
  .next (
    let h := h.toNat
    if !fantailLive s h ∨ watts.toNat ≤ burstW s h then s
    else
      let s := if getF s F.PWR_STAT_CLAMP 0 h = 1 then s else bumpF s F.PWR_STAT_CLAMPS 0 1 h
      freeToMin (putF s F.PWR_STAT_CLAMP 0 1 h) h)

/-! Sensors (R467, R468, R43, R48). -/

/-- One reading of every sensor of half h into the registers. -/
def readSensors (s : State) (h : Nat) (t : Temps) : State :=
  let s := (t.rows.zipIdx (32 * h)).foldl (fun s e =>
    if domainOn s (domRow e.2) ∧ e.2 < 32 * h + 32 then
      putF (putF s F.ROW_FANTAIL_TJ e.2 (min 255 e.1)) F.ROW_FANTAIL_HOT e.2 (if 95 ≤ e.1 then 1 else 0)
    else s) s
  let s := (t.hbm.zipIdx (16 * h)).foldl (fun s e =>
    if e.2 < 16 * h + 16 then
      (rangeFrom (32 * e.2) 32).foldl (fun s ch => putF s F.HBM_CHST_HOT ch (if 85 < e.1 then 1 else 0)) s
    else s) s
  let top (xs : List Nat) : Nat := min 255 (xs.foldl max 0)
  let s := putF s F.PWR_STAT_TJ_HOT 0 (top (t.rows ++ t.dies)) h
  putF (putF s F.PWR_STAT_TSTACK_HOT 0 (top t.hbm) h) F.PWR_STAT_TOPT_HOT 0 (top t.optics) h

/-- Compute dies whose free rows a throttle point lowers: a row of the die, or a stack it owns. -/
def hotDies (h tjmax : Nat) (t : Temps) : List Nat :=
  let a := (t.rows.zipIdx.filter fun e => decide (tjmax ≤ e.1)).map fun e => 4 * h + e.2 / 8
  let b := (t.hbm.zipIdx.filter fun e => decide (95 ≤ e.1)).map fun e => 4 * h + e.2 / 4
  (a ++ b).dedup

/-- Free gangs with a row on a die that stands above its OP_MIN. -/
def lowerable (s : State) (d : Nat) : List Nat :=
  (List.range 64).filter fun l => rowLeader s l == l && !isPaced s l &&
    (gangRows s l).any fun r => r / 8 == d && decide ((opLimits s r).1 < curOp s r)

/-- Lowers the free gangs of a die by one point. -/
def lowerFree (s : State) (d : Nat) : State := (lowerable s d).foldl (fun s l => placeGang s l (curOp s l - 1)) s

/-- Lowers the paced gangs of half h by one point: PACE_LOST in each row, a TRANSIENT record for each gang (R43). -/
def lowerPaced (s : State) (h : Nat) : State :=
  let rows := (halfRows h).filter fun r => isPaced s r && decide (1 < curOp s r)
  let s' := rows.foldl (fun s r =>
    putF (putF s F.ROW_FANTAIL_CUR_OP r (curOp s r - 1)) F.ROW_PACE_PACE_LOST r 1) s
  ((rows.map (rowLeader s)).dedup).foldl (fun s l => plainRecord s h utGang l clTransient 0x000E 0 0) s'

/-- Is a sensor of the reading at or above its throttle point, lowered by m degrees? -/
def sensorsAbove (tjmax m : Nat) (t : Temps) : Bool :=
  t.rows.any (fun x => decide (tjmax < x + m + 1)) || t.dies.any (fun x => decide (95 < x + m + 1)) ||
    t.hbm.any (fun x => decide (95 < x + m + 1)) || t.optics.any (fun x => decide (85 < x + m + 1))

/-- SENSOR_READ (R43, R48, R467, R468, R469): registers, refresh doubling, throttling of free rows, of paced ones where a
row at 95 °C has no free row left to lower, and THERM_ALERT_N. (Log 71, DEDUCED). -/
def execSensorRead (h : BitVec 1) (t : Temps) (s : State) : Out :=
  .next (
    let h := h.toNat
    if !fantailLive s h then s
    else
      let tj := getF s F.PWR_BUDGET_TJMAX 0 h
      let s := readSensors s h t
      let dies := hotDies h tj t
      let s := if !dies.isEmpty then putF s F.PWR_STAT_THROTTLE 0 1 h
        else if sensorsAbove tj 2 t then s else putF s F.PWR_STAT_THROTTLE 0 0 h
      let stuck := t.rows.zipIdx.any fun e => decide (95 ≤ e.1) && (lowerable s (4 * h + e.2 / 8)).isEmpty
      let s := dies.foldl lowerFree s
      let s := if stuck then lowerPaced s h else s
      updHalf s h fun x => { x with hot := sensorsAbove tj 0 t })

/-! The pacing timer (R40). -/

/-- PACING_RELEASE (R40): once pod time reaches T0 + n / PACE_TARGET and every earlier handshake has issued, handshake n
may issue. The target is the one in force (R45); a handshake that issues late begins the schedule anew (`paceAnchor`).
(Log 68, DEDUCED). -/
def execPacingRelease (l : BitVec 6) (s : State) : Out :=
  .next (
    let ln := l.toNat
    let c := seqCtl s ln
    let tgt := c.paceTgt
    if rowLeader s ln ≠ ln ∨ gangState s ln ≠ gsRunning ∨ getF s F.ROW_PACE_PACE_ACTIVE ln = 0 ∨ tgt = 0 ∨
        rowSteps s ln < c.paceN + c.paceRel then s
    else
      let now := (podTime s (rowHalf ln)).toNat
      let due := c.paceT0.toNat + ceilDiv (c.paceRel * 1000) tgt
      if now < due then s
      else updSeq s ln fun c => { c with paceRel := c.paceRel + 1 })

end Sys2Proof.Machine
end

