-- ==== Sys2Proof/Machine/Vector.lean ====
section
/-! DEFINITION. The vector engine (R116-R135): checks at issue, issue rules, element-wise meanings, SUMQ, exceptions. -/

namespace Sys2Proof.Machine

/-- The fields of a V-format word (R152). -/
structure VFields where
  fc : Nat
  fc2 : Nat
  ctl : Nat
  n : Nat
  vd : Nat
  va : Nat
  vb : Nat
  vc : Nat
  mask : Nat
  men : Bool
  bs : Bool
  sce : Bool
  scb : Nat
  scf : Bool
  res : Bool
deriving DecidableEq, Repr

def vFields (w : BitVec 56) : VFields :=
  let x := w.toNat
  ⟨bits x 55 52, bits x 51 48, bits x 47 44, bits x 43 31 + 1, bits x 30 26, bits x 25 21, bits x 20 16, bits x 15 11,
   bits x 10 8, bit x 7, bit x 6, bit x 5, bits x 4 2, bit x 1, bit x 0⟩

/-! Opcodes of the vector group (R150). -/
def opVadd : Nat := 0x40
def opVmul : Nat := 0x41
def opVfma : Nat := 0x42
def opVwmul : Nat := 0x43
def opVdot4 : Nat := 0x44
def opVmax : Nat := 0x45
def opVmin : Nat := 0x46
def opVcmp : Nat := 0x47
def opVsel : Nat := 0x48
def opVsum : Nat := 0x49
def opVperm : Nat := 0x4A
def opVcvt : Nat := 0x4B
def opVld : Nat := 0x4C
def opVst : Nat := 0x4D
def opVexp : Nat := 0x4E
def opVlog2 : Nat := 0x4F
def opVrcp : Nat := 0x50
def opVrsq : Nat := 0x51
def opVtanh : Nat := 0x52
def opVsig : Nat := 0x53
def opSumq : Nat := 0x54

def isTransc (op : Nat) : Bool := decide (opVexp ≤ op) && decide (op ≤ opVsig)

/-- Float formats of the FMA unit (R124). -/
def fmaFloat (fc : Nat) : Bool := [0x0, 0x1, 0x5, 0x6, 0xA, 0xC].contains fc

/-- Integer lanes of the vector engine (R117, R118): every integer format but I4. -/
def intLane (fc : Nat) : Bool := [0x7, 0x8, 0xB, 0xD].contains fc

/-- The legal (result, a, b) formats of VWMUL and VDOT4 (R126). -/
def wideOk (dot : Bool) (r a b : Nat) : Bool :=
  (r == 0xA && ((a == 0x5 && b == 0x5) || (a == 0x6 && b == 0x6) || (decide (a ≤ 1) && decide (b ≤ 1)))) ||
  (!dot && r == 0xC && a == 0xA && b == 0xA) ||
  (r == 0xB && (a == 0x7 || a == 0x8) && (b == 0x7 || b == 0x8))

/-- The result format of VSUM (R129). -/
def sumFormat (fc : Nat) : Nat :=
  if fc = 0xC then 0xC else if fc = 0xD then 0xD else if fmaFloat fc then 0xA else 0xB

/-- Operand uses of an instruction: vector registers read, with their counts and formats; the register written. -/
def vReads (op : Nat) (f : VFields) : List (Nat × Nat × Nat) :=
  let b := if f.bs then [] else [(f.vb, f.n, f.fc)]
  if op = opVfma then [(f.va, f.n, f.fc)] ++ b ++ [(f.vc, f.n, f.fc)]
  else if op = opVwmul ∨ op = opVdot4 then
    [(f.va, f.n, f.fc2)] ++ (if f.bs then [] else [(f.vb, f.n, f.ctl)]) ++
      (if op = opVdot4 then [(f.vc, f.n / 4, f.fc)] else [])
  else if op = opVsum ∨ isTransc op then [(f.va, f.n, f.fc)]
  else if op = opVperm then (f.va, f.n, f.fc) :: (if f.ctl = 0 then [(f.vc, f.n, 0xB)] else [])
  else if op = opVcvt then [(f.va, f.n, f.fc2)]
  else if op = opVld then (if f.ctl = 1 then [(f.vc, f.n, 0xB)] else [])
  else if op = opVst then (f.vd, f.n, f.fc) :: (if f.ctl = 1 then [(f.vc, f.n, 0xB)] else [])
  else if op = opSumq then [(f.va, f.n, f.fc)]
  else (f.va, f.n, f.fc) :: b

/-- Vector registers written, with counts and formats. -/
def vWrites (op : Nat) (f : VFields) : List (Nat × Nat × Nat) :=
  if op = opVcmp ∨ op = opVst ∨ op = opSumq then []
  else if op = opVsum then [(f.vd, 1, sumFormat f.fc)]
  else if op = opVdot4 then [(f.vd, f.n / 4, f.fc)]
  else if op = opVcvt ∧ f.sce then [(f.vd, f.n, f.fc), (f.vc, ceilDiv f.n (2 ^ (f.scb + 3)), 0x8)]
  else [(f.vd, f.n, f.fc)]

/-- Fields an instruction does not use must be 0; fields it uses must be legal (R150, R152). -/
def vFieldsOk (op : Nat) (f : VFields) : Bool :=
  let usesB := op == opVadd || op == opVmul || op == opVfma || op == opVwmul || op == opVdot4 || op == opVmax ||
    op == opVmin || op == opVcmp || op == opVsel
  let usesC := op == opVfma || op == opVdot4 || (op == opVperm && f.ctl == 0) ||
    ((op == opVld || op == opVst) && f.ctl == 1) || (op == opVcvt && f.sce)
  let usesA := !((op == opVld && f.ctl == 2))
  !f.res && (usesB || (f.vb == 0 && !f.bs)) && (usesC || f.vc == 0) && (usesA || f.va == 0) &&
  (f.men || f.mask == 0) &&
  decide (f.fc ≤ 0xD) &&
  (if op = opVwmul ∨ op = opVdot4 then decide (f.fc2 ≤ 0xD) && decide (f.ctl ≤ 0xD)
   else if op = opVcvt then decide (f.fc2 ≤ 0xD) && ctlLegal f.ctl
   else f.fc2 == 0) &&
  (if op = opVcmp then decide (f.ctl ≤ 5) && decide (f.vd < 8)
   else if op = opVperm then decide (f.ctl ≤ 2)
   else if op = opVld then decide (f.ctl ≤ 2)
   else if op = opVst then decide (f.ctl ≤ 1)
   else if op = opSumq then decide (f.ctl ≤ 5) && decide (f.vd < 16) && !f.men
   else if op = opVwmul ∨ op = opVdot4 ∨ op = opVcvt then true
   else f.ctl == 0) &&
  (op != opVsel || f.men) &&
  (if op = opVcvt then (if f.sce then decide (f.scb ≤ 5) else f.scb == 0 && !f.scf)
   else !f.sce && f.scb == 0 && !f.scf)

/-- Is the operand format or pairing legal (R117, R118, R124, R126, R127, R130)? -/
def vFormatOk (op : Nat) (f : VFields) : Bool :=
  if op = opVfma then fmaFloat f.fc
  else if op = opVwmul then wideOk false f.fc f.fc2 f.ctl
  else if op = opVdot4 then wideOk true f.fc f.fc2 f.ctl
  else if isTransc op then f.fc == 0xA || f.fc == 0x5 || f.fc == 0x6
  else if op = opSumq then f.fc == 0xC || f.fc == 0xD
  else if op = opVcvt then true
  else if op = opVld ∧ f.ctl = 2 then f.fc == 0xD
  else if op = opVperm then decide (8 ≤ fcWidth f.fc)
  else if op = opVld ∨ op = opVst then f.ctl != 1 || decide (8 ≤ fcWidth f.fc)
  else fmaFloat f.fc || intLane f.fc

/-- Does the instruction's count n keep the limit and the multiple of an operand's format (R62, R117)? (Log 40, DEDUCED). -/
def countOk (n fc : Nat) : Bool :=
  let w := fcWidth fc
  decide (1 ≤ n) && decide (n ≤ (if w ≤ 8 then 8192 else 65536 / w)) && (w != 6 || n % 4 == 0) && (w != 4 || n % 2 == 0)

/-- The check of a vector instruction at issue: none lets it run, otherwise the reason code (R117, R150-R152, R168).
(Log 39, DEDUCED). -/
def vCheck (op : Nat) (f : VFields) : Option (BitVec 8) :=
  if !vFieldsOk op f then some rcBadField
  else if !vFormatOk op f then some rcBadFormat
  else if op = opVcvt ∧ f.sce ∧ 4 < f.fc then some rcParam
  else if (op = opVdot4 ∧ f.n % 4 ≠ 0) ∨ (op = opVld ∧ f.ctl = 2 ∧ f.n ≠ 4) then some rcBadCount
  else if !((vReads op f ++ vWrites op f).all fun r => countOk f.n r.2.2) then some rcBadCount
  else if (vWrites op f).any fun w => (vReads op f).any fun r => r.1 == w.1 then some rcOverlap
  else if op = opVcvt ∧ f.sce ∧ f.vc = f.vd then some rcOverlap
  else none

/-! Issue rules (R120-R123). -/

/-- Unit of an instruction: 1 FMA, 2 ALU, 3 permute, 4 convert, 5 tile port, 0 none (R120). -/
def vUnit (op : Nat) (f : VFields) : Nat :=
  let flt := (fcFloat f.fc).isSome
  if op = opSumq then 0
  else if op = opVld ∨ op = opVst then 5
  else if op = opVcvt then 4
  else if op = opVperm then 3
  else if op = opVmax ∨ op = opVmin ∨ op = opVsel ∨ op = opVcmp then 2
  else if isTransc op then 1
  else if flt then 1 else 2

/-- Latency L (R120). -/
def vLatency (op : Nat) (f : VFields) : Nat :=
  let flt := (fcFloat f.fc).isSome
  if op = opSumq then (if f.ctl = 5 then 88 else 24)
  else if op = opVld then 6
  else if op = opVst then 0
  else if op = opVcvt then (if f.sce then 7 else 3)
  else if op = opVperm then 4
  else if op = opVmax ∨ op = opVmin ∨ op = opVsel ∨ op = opVcmp then 2
  else if isTransc op then 14
  else if op = opVsum then (if flt then 12 else 6)
  else if flt then (if f.fc = 0xC then 8 else 6)
  else if op = opVadd then 2
  else 4

/-- Occupancy G (R120), bank conflicts at the tile port apart (R121). -/
def vOccupancy (op : Nat) (f : VFields) : Nat :=
  if op = opSumq then 1
  else if isTransc op then ceilDiv f.n 16
  else if (op = opVld ∨ op = opVst) ∧ f.ctl = 1 then ceilDiv f.n 32
  else
    let big := (vReads op f ++ vWrites op f).foldl (fun a r => max a (ceilDiv (r.2.1 * fcWidth r.2.2) 8)) 1
    ceilDiv big 256

/-- An instruction with dispatch number `id` issued at step t, while the array makes the accesses `uses`. -/
def vFlight (uses : List TileUse) (id : Nat) (op : BitVec 8) (f : VFields) (t : Nat) : VFlight :=
  let o := op.toNat
  let g := vOccupancy o f
  { id := id, op := op, unit := vUnit o f, start := t, base := g,
    g := if vUnit o f = 5 then portOccupancy uses t g else g, l := vLatency o f,
    reads := (vReads o f).map fun r => (r.1, r.2.1), writes := (vWrites o f).map fun r => (r.1, r.2.1),
    maskRead := if f.men then some f.mask else none,
    maskWrite := if o = opVcmp then some f.vd else none }

/-- May C chain on the running producer P (R123)? Every register they share is read with the count it was written with. -/
def chains (p c : VFlight) : Bool :=
  p.unit != c.unit && (p.writes.all fun w => c.reads.all fun r => r.1 != w.1 || r.2 == w.2) &&
    p.op.toNat != opVld && p.op.toNat != opVsum && c.op.toNat != opVperm &&
    c.op.toNat != opVst && c.op.toNat != opSumq && decide (p.start + p.l + (p.g - c.g) ≤ c.start)

/-- Does P use a register of the list, as one it reads or writes? -/
def usesReg (rs : List (Nat × Nat)) (r : Nat) : Bool := rs.any fun x => x.1 == r

/-- The issue conditions of R120 and R122 for `c`, to issue at c.start, against the instructions issued before it: one issue
a step; a SUMQ has read its source by the step after its own. -/
def vMayIssue (before : List VFlight) (c : VFlight) : Bool :=
  before.all fun p =>
    let done := decide (vDone p ≤ c.start)
    let readDone := done || p.unit == 0
    decide (p.start < c.start) &&
    (c.unit == 0 || p.unit != c.unit || decide (p.start + p.g ≤ c.start)) &&
    (!(p.writes.any fun w => usesReg c.reads w.1) || done || chains p c) &&
    (p.maskWrite.isNone || p.maskWrite != c.maskRead || done) &&
    (done || !(c.writes.any fun w => usesReg p.writes w.1)) &&
    (readDone || !(c.writes.any fun w => usesReg p.reads w.1)) &&
    (done || c.maskWrite.isNone || (p.maskRead != c.maskWrite && p.maskWrite != c.maskWrite))

/-! Meanings, one core at a time. -/

/-- One destination element: its index, new bits, flags, whether its address is out of range (R131), and, for VST, its
byte address. -/
structure VEl where
  i : Nat
  val : Nat
  fl : Fl
  range : Bool
  addr : Nat
deriving DecidableEq, Repr

/-- What an instruction does on one core: destination elements in order, flags that belong to no element, block scale
bytes, generator state. -/
structure VRes where
  els : List VEl
  extra : Fl
  scales : List Nat
  gen : Option W64
deriving DecidableEq, Repr

def vEl (i : Nat) (r : Nat × Fl) : VEl := ⟨i, r.1, r.2, false, 0⟩

/-- Mask bit i of a core under an instruction's mask (R119). -/
def maskOn (x : CoreSt) (f : VFields) (i : Nat) : Bool := !f.men || bit (mget zNat f.mask x.m) i

/-- Source b: a vector register, or the low bits of a scalar for every element (R152). -/
def srcB (x : CoreSt) (f : VFields) (e : QEntry) (fc i : Nat) : Nat :=
  if f.bs then e.bv.toNat % 2 ^ fcWidth fc else rdElem x.v (8192 * f.vb) (fcWidth fc) i

def srcA (x : CoreSt) (f : VFields) (fc i : Nat) : Nat := rdElem x.v (8192 * f.va) (fcWidth fc) i
def srcC (x : CoreSt) (f : VFields) (fc i : Nat) : Nat := rdElem x.v (8192 * f.vc) (fcWidth fc) i

/-- Rounds an arithmetic result to a float format: E4M3 saturates (R124). -/
def arithRound (fc : Nat) (r : Num × Fl) : Nat × Fl :=
  let v := fcConvert fc .nearest (fc == 0) r.1
  (v.1, flJoin r.2 v.2)

/-- Wraps an exact integer result into a lane (R125). -/
def intWrap (fc : Nat) (v : Int) : Nat × Fl :=
  match fcInt fc with
  | some (w, sg) =>
    let u := (v % 2 ^ w).toNat
    (u, flIf (decodeInt w sg u != v) flIntWrap)
  | none => (0, flNone)

/-- The integer value of an element. -/
def laneInt (fc b : Nat) : Int :=
  match fcInt fc with
  | some (w, sg) => decodeInt w sg b
  | none => 0

/-- Element-wise VADD, VMUL: float rounded once, integer wrapped. -/
def binArith (fc : Nat) (mul : Bool) (a b : Nat) : Nat × Fl :=
  if (fcFloat fc).isSome then
    arithRound fc (if mul then (fcDecode fc a).mul (fcDecode fc b) else (fcDecode fc a).add (fcDecode fc b))
  else intWrap fc (if mul then laneInt fc a * laneInt fc b else laneInt fc a + laneInt fc b)

/-- The unmasked destination elements below n. -/
def unmasked (x : CoreSt) (f : VFields) (n : Nat) (g : Nat → VEl) : List VEl :=
  ((List.range n).filter (maskOn x f)).map g

def plainRes (els : List VEl) : VRes := ⟨els, flNone, [], none⟩

/-- VDOT4 element j (R126): c_j and four exact products added in order, each float addition rounded in FP32. -/
def dot4 (x : CoreSt) (f : VFields) (e : QEntry) (j : Nat) : Nat × Fl :=
  let prod (k : Nat) := (srcA x f f.fc2 (4 * j + k), srcB x f e f.ctl (4 * j + k))
  [0, 1, 2, 3].foldl (fun acc k =>
    let (a, b) := prod k
    if (fcFloat f.fc).isSome then
      let p := (fcDecode f.fc2 a).mul (fcDecode f.ctl b)
      let s := f32AddNum acc.1 p.1
      (s.1, flJoin acc.2 (flJoin p.2 s.2))
    else
      let s := intWrap f.fc (laneInt f.fc acc.1 + laneInt f.fc2 a * laneInt f.ctl b)
      (s.1, flJoin acc.2 s.2)) (srcC x f f.fc j, flNone)

/-- One VSUM addition in the result format. -/
def sumAdd (rf : Nat) (a b : Nat × Fl) : Nat × Fl :=
  let r := binArith rf false a.1 b.1
  (r.1, flJoin (flJoin a.2 b.2) r.2)

/-- The pairwise tree of R129 over partials; an empty one passes its sibling. -/
def sumTree (rf : Nat) : Nat → List (Option (Nat × Fl)) → Option (Nat × Fl)
  | 0, l => l.headD none
  | k + 1, l =>
    sumTree rf k ((List.range (l.length / 2)).map fun t =>
      match l.getD (2 * t) none, l.getD (2 * t + 1) none with
      | some a, some b => some (sumAdd rf a b)
      | some a, none => some a
      | none, b => b)

/-- VSUM (R129): 32 partials in increasing element order, then the tree; +0 when every element is masked off. -/
def vsumOf (x : CoreSt) (f : VFields) : Nat × Fl :=
  let rf := sumFormat f.fc
  let el (i : Nat) : Nat × Fl := fcConvert rf .nearest false (fcDecode f.fc (srcA x f f.fc i))
  let parts := (List.range 32).map fun j =>
    ((List.range f.n).filter fun i => i % 32 == j && maskOn x f i).foldl (fun acc i =>
      match acc with
      | none => some (el i)
      | some a => some (sumAdd rf a (el i))) none
  (sumTree rf 5 parts).getD (0, flNone)

/-- VPERM source index of element i (R125). -/
def permIndex (x : CoreSt) (f : VFields) (i : Nat) : Nat :=
  match f.ctl with
  | 0 => srcC x f 0xB i
  | 1 => 0
  | _ => f.n - 1 - i

/-- VCVT (R71-R75): one draw per element position under stochastic rounding, block scales over all elements. -/
def vcvtOf (x : CoreSt) (f : VFields) (gen : W64) : VRes :=
  let src := (List.range f.n).map fun i => fcDecode f.fc2 (srcA x f f.fc2 i)
  let (sc, xs, extra) := if f.sce then scaleBlocks f.n f.fc f.scf (2 ^ (f.scb + 3)) src else ([], src, flNone)
  let (ds, gen') := if bits f.ctl 3 2 = 2 then draws f.n gen else ([], gen)
  let els := unmasked x f f.n fun i =>
    let v := fcConvert f.fc (ctlRnd f.ctl ds i) (bit f.ctl 1) (xs.getD i (.nan false))
    vEl i (v.1, flJoin v.2 (flIf (src.getD i (.nan false)).isSnan flInvalid))
  ⟨els, extra, sc, if bits f.ctl 3 2 = 2 then some gen' else none⟩

/-- Byte address of element i of an indexed access: base + VC[i], a signed offset (R131). -/
def indexAddr (x : CoreSt) (f : VFields) (base i : Nat) : Int := (base : Int) + sext 32 (srcC x f 0xB i)

/-- Is an indexed address in range: below 1 MiB and aligned to its element (R131)? -/
def indexOk (a : Int) (w : Nat) : Bool := decide (0 ≤ a) && decide (a < 2 ^ 20) && decide (a % (w / 8 : Nat) = 0)

/-- VLD (R152): plain with wrap, indexed, or the core's identity. (Log 38, DEDUCED). -/
def vldOf (x : CoreSt) (f : VFields) (e : QEntry) (r c idx rows : Nat) : VRes :=
  let w := fcWidth f.fc
  let base := bits e.sv.toNat 13 0 * 64
  plainRes (unmasked x f f.n fun i =>
    match f.ctl with
    | 0 =>
      let a := base + w * i / 8
      let sh := w * i % 8
      let v := ofBytes ((List.range (ceilDiv (sh + w) 8)).map fun j => mget zByte ((a + j) % tileBytes) x.tile)
      vEl i (v / 2 ^ sh % 2 ^ w, flNone)
    | 1 =>
      let a := indexAddr x f base i
      if indexOk a w then vEl i (ofBytes (rdBytes x.tile a.toNat (w / 8)), flNone) else ⟨i, 0, flNone, true, 0⟩
    | _ => vEl i ([c, r, idx, rows].getD i 0, flNone))

/-- VST (R152): the elements and their byte addresses. Sub-byte elements are stored plain in R62's packing. -/
def vstOf (x : CoreSt) (f : VFields) (e : QEntry) : VRes :=
  let w := fcWidth f.fc
  let base := bits e.sv.toNat 13 0 * 64
  plainRes (unmasked x f f.n fun i =>
    let v := rdElem x.v (8192 * f.vd) w i
    if f.ctl = 1 then
      let a := indexAddr x f base i
      if indexOk a w then ⟨i, v, flNone, false, a.toNat⟩ else ⟨i, v, flNone, true, 0⟩
    else ⟨i, v, flNone, false, base⟩)

/-- The true value of a transcendental at the nonzero ± m × 2 ^ e, and its bound in ulp of FP32 (R88, R127). -/
def transcTrue (op : Nat) (n : Bool) (m : Nat) (e : Int) : Num × Nat :=
  let x : Num := .fin n m e
  if op = opVrcp then ((Num.div (numPow2 0) x).1, 1)
  else if op = opVrsq then ((Num.div (numPow2 0) (Num.sqrt x).1).1, 1)
  else if op = opVexp then (trueExp2 n m e, 2)
  else if op = opVlog2 then (trueLog2 m e, 2)
  else if op = opVtanh then (if n then (trueTanh m e).neg else trueTanh m e, 4)
  else (trueSig n m e, 4)

/-- A transcendental at an FP32, BF16 or FP16 value (R127, R128): the table's special values, otherwise a result within the
bound of R88, of the part's unpublished choice, then one rounding to a 16-bit destination. A tiny VEXP result sets
UNDERFLOW, one of the others when it is inexact (R73, R127). (Log 35, DESIGN CHOICE). -/
def transcOf (op fc b : Nat) : Nat × Fl :=
  let x := fcDecode fc b
  let one := numPow2 0
  let half := numPow2 (-1)
  let zero (n : Bool) : Num := .fin n 0 0
  let free (n : Bool) (m : Nat) (e : Int) : Num × Fl :=
    let v := transcTrue op n m e
    let r := pickUlp v.2 v.1 (Config.transc (op * 16 + fc) (BitVec.ofNat 32 (toF32 x).1))
    let inexact := Num.cmp r v.1 != .eq
    (r, flJoin (flIf inexact flInexact) (flIf ((inexact || op == opVexp) && isTiny v.1) flUnderflow))
  let r : Num × Fl :=
    match x with
    | .nan sn => (.nan false, flIf sn flInvalid)
    | .inf n =>
      if op = opVrcp then (zero n, flNone)
      else if op = opVrsq then (if n then (.nan false, flInvalid) else (zero false, flNone))
      else if op = opVexp then (if n then (zero false, flNone) else (.inf false, flNone))
      else if op = opVlog2 then (if n then (.nan false, flInvalid) else (.inf false, flNone))
      else if op = opVtanh then (if n then one.neg else one, flNone)
      else (if n then zero false else one, flNone)
    | .fin n 0 _ =>
      if op = opVrcp ∨ op = opVrsq then (.inf n, flDivzero)
      else if op = opVexp then (one, flNone)
      else if op = opVlog2 then (.inf true, flDivzero)
      else if op = opVtanh then (zero n, flNone)
      else (half, flNone)
    | .fin n m e =>
      if (op = opVrsq ∨ op = opVlog2) ∧ n then (.nan false, flInvalid)
      else if op = opVexp then
        if !n && decide (7 ≤ magExp m e) then (.inf false, flJoin flOverflow flInexact) else free n m e
      else if op = opVrcp ∧ (magExp m e < -128 ∨ (magExp m e = -128 ∧ m = 2 ^ Nat.log2 m)) then
        (.inf n, flJoin flOverflow flInexact)
      else free n m e
  let v := fcConvert fc .nearest false r.1
  (v.1, flJoin r.2 v.2)

/-- The effect of a vector instruction on one core: row r, logical column c, gang index idx, gang rows; `gen` is its
generator's state. (Log 37, DEDUCED). -/
def vMeaning (x : CoreSt) (e : QEntry) (r c idx rows : Nat) (gen : W64) : VRes :=
  let f := vFields e.w
  let op := e.op.toNat
  let fc := f.fc
  if op = opVadd ∨ op = opVmul then
    plainRes (unmasked x f f.n fun i => vEl i (binArith fc (op == opVmul) (srcA x f fc i) (srcB x f e fc i)))
  else if op = opVfma then
    plainRes (unmasked x f f.n fun i => vEl i
      (arithRound fc ((fcDecode fc (srcA x f fc i)).fma (fcDecode fc (srcB x f e fc i)) (fcDecode fc (srcC x f fc i)))))
  else if op = opVwmul then
    plainRes (unmasked x f f.n fun i =>
      let a := srcA x f f.fc2 i
      let b := srcB x f e f.ctl i
      vEl i (if (fcFloat fc).isSome then arithRound fc ((fcDecode f.fc2 a).mul (fcDecode f.ctl b))
        else intWrap fc (laneInt f.fc2 a * laneInt f.ctl b)))
  else if op = opVdot4 then plainRes (unmasked x f (f.n / 4) fun j => vEl j (dot4 x f e j))
  else if op = opVmax ∨ op = opVmin then
    plainRes (unmasked x f f.n fun i =>
      let v := maxMin (op == opVmax) (fcDecode fc (srcA x f fc i)) (fcDecode fc (srcB x f e fc i))
      vEl i ((fcConvert fc .nearest false v.1).1, v.2))
  else if op = opVcmp then
    plainRes (unmasked x f f.n fun i =>
      let p := predHolds f.ctl (fcDecode fc (srcA x f fc i)) (fcDecode fc (srcB x f e fc i))
      vEl i (if p.1 then 1 else 0, p.2))
  else if op = opVsel then
    plainRes ((List.range f.n).map fun i =>
      vEl i (if maskOn x f i then srcA x f fc i else srcB x f e fc i, flNone))
  else if op = opVsum then plainRes [vEl 0 (vsumOf x f)]
  else if op = opVperm then
    plainRes (unmasked x f f.n fun i =>
      let j := permIndex x f i
      vEl i (if j < f.n then srcA x f fc j else 0, flNone))
  else if op = opVcvt then vcvtOf x f gen
  else if op = opVld then vldOf x f e r c idx rows
  else if op = opVst then vstOf x f e
  else plainRes (unmasked x f f.n fun i => vEl i (transcOf op fc (srcA x f fc i)))

/-- Writes destination elements into a core: vector register, mask register or tile memory. -/
def vWrite (x : CoreSt) (op : Nat) (f : VFields) (els : List VEl) : CoreSt :=
  if op = opVcmp then
    let old := mget zNat f.vd x.m
    let new := els.foldl (fun m e => m - (if bit m e.i then 2 ^ e.i else 0) + (e.val % 2) * 2 ^ e.i) old
    { x with m := mset zNat f.vd new x.m }
  else if op = opVst then
    let w := fcWidth f.fc
    { x with tile := els.foldl (fun t e =>
        if f.ctl = 1 then wrBytes t e.addr (toBytes (w / 8) e.val)
        else
          let a := e.addr + w * e.i / 8
          let sh := w * e.i % 8
          let n := ceilDiv (sh + w) 8
          let old := ofBytes ((List.range n).map fun j => mget zByte ((a + j) % tileBytes) t)
          let new := old - old / 2 ^ sh % 2 ^ w * 2 ^ sh + e.val % 2 ^ w * 2 ^ sh
          ((toBytes n new).zipIdx a).foldl (fun t b => mset zByte (b.2 % tileBytes) b.1 t) t) x.tile }
  else
    let fc := if op = opVsum then sumFormat f.fc else f.fc
    { x with v := els.foldl (fun v e => wrElem v (8192 * f.vd) (fcWidth fc) e.i e.val) x.v }

/-- Writes the block scale bytes of VCVT to VC (R70); later bytes keep their contents. -/
def vScales (x : CoreSt) (f : VFields) (sc : List Nat) : CoreSt :=
  { x with v := wrBytes x.v (8192 * f.vc) (sc.map (BitVec.ofNat 8)) }

/-! Exceptions (R131, R132). -/

/-- Trap bits of CORE_VTRAP as CORE_ARITH flags: OVERFLOW, DIVZERO, INVALID. -/
def trapMask (vt : Nat) : BitVec 7 :=
  (if bit vt 2 then flOverflow.bits else 0) ||| (if bit vt 1 then flDivzero.bits else 0) |||
    (if bit vt 0 then flInvalid.bits else 0)

/-- The cause of an element's exception under trap bits, if any: RANGE first, then INVALID, DIVZERO, OVERFLOW. -/
def elCause (vt : Nat) (e : VEl) : Option Nat :=
  let t := e.fl.bits &&& trapMask vt
  if e.range then some 1
  else if t &&& flInvalid.bits ≠ 0 then some 2
  else if t &&& flDivzero.bits ≠ 0 then some 3
  else if t &&& flOverflow.bits ≠ 0 then some 4
  else none

/-- The first exceptional element: its index and cause. -/
def firstExc (vt : Nat) (els : List VEl) : Option (Nat × Nat) :=
  els.findSome? fun e => (elCause vt e).map fun c => (e.i, c)

/-- One core's share of an instruction: place, slot, whether its traps are ignored, and its result. -/
structure VShare where
  r : Nat
  c : Nat
  slot : Nat
  res : VRes
  exc : Option (Nat × Nat)
deriving DecidableEq, Repr

/-- Generator state of a core's vector engine (R75). -/
def vecGen (s : State) (l : Nat) (x : CoreSt) (r c : Nat) : W64 := x.genV.getD (genSeed (seqCtl s l).seed 0 r c)

/-- The shares of the cores of a gang; `noTrap` lists places whose CORE_VTRAP is ignored (R134). -/
def vShares (s : State) (l : Nat) (e : QEntry) (places : List (Nat × Nat)) (noTrap : List (Nat × Nat)) : List VShare :=
  let rows := gangRows s l
  places.map fun p =>
    let slot := slotOf s p.1 p.2
    let x := getCore s slot
    let res := vMeaning x e p.1 p.2 (rows.idxOf p.1) rows.length (vecGen s l x p.1 p.2)
    let vt := if noTrap.contains p then 0 else (reg s .coreVtrap slot 0).toNat
    ⟨p.1, p.2, slot, res, firstExc vt res.els⟩

/-- Result group of element i (R123, R132). -/
def vGroup (e : QEntry) (i : Nat) : Nat :=
  let f := vFields e.w
  i * vOccupancy e.op.toNat f / f.n

/-- The block scale bytes of groups before g0, each byte an element of its register (R123, R132). -/
def scalesBefore (e : QEntry) (g0 : Nat) (sc : List Nat) : List Nat :=
  sc.take (((List.range sc.length).filter fun j =>
    decide (j * vOccupancy e.op.toNat (vFields e.w) / sc.length < g0)).length)

/-- Applies a whole share: elements, scales, flags, generator. -/
def vApply (s : State) (e : QEntry) (h : VShare) : State :=
  let f := vFields e.w
  let x := vWrite (getCore s h.slot) e.op.toNat f h.res.els
  let x := if h.res.scales.isEmpty then x else vScales x f h.res.scales
  let x := match h.res.gen with
    | some g => { x with genV := some g }
    | none => x
  let s := setCore s h.slot x
  addFlags s h.slot (h.res.els.foldl (fun a e => flJoin a e.fl) h.res.extra)

/-- Applies the part of a share before group g0: elements and block scales. The flags X has set are those of its elements up
to that group and of its block scales (R132 step 1); its generator stays where X found it. (Log 151, DESIGN CHOICE). -/
def vApplyPart (s : State) (e : QEntry) (g0 : Nat) (h : VShare) : State :=
  let f := vFields e.w
  let x := vWrite (getCore s h.slot) e.op.toNat f (h.res.els.filter fun y => decide (vGroup e y.i < g0))
  let s := setCore s h.slot (vScales x f (scalesBefore e g0 h.res.scales))
  addFlags s h.slot
    ((h.res.els.filter fun y => decide (vGroup e y.i ≤ g0)).foldl (fun a y => flJoin a y.fl) h.res.extra)

/-- Native position of an instruction as CORE_VEXC records it (R170). (Log 41, DEDUCED). -/
def recordExc (s : State) (l : Nat) (e : QEntry) (h : VShare) (i cause : Nat) : State :=
  let w := activeBank s l * 2 ^ 47 + nativePos s l e.pos % 2 ^ 13 * 2 ^ 34 + i % 2 ^ 13 * 2 ^ 21 + cause * 2 ^ 4 + 1
  setReg s .coreVexc h.slot 0 (BitVec.ofNat 64 w)

/-- Runs an instruction on the given cores: whole, or, when a core meets an exception, up to the group of the earliest
one, the exceptions of that group recorded and the instruction held (R132); a later group's are not. `noTrap` and `skipped`
are the cores an earlier answer exempted (R134). (Log 152, DESIGN CHOICE). -/
def vRun (s : State) (l : Nat) (e : QEntry) (places noTrap skipped : List (Nat × Nat)) : State :=
  let sh := vShares s l e places noTrap
  match (sh.filterMap fun h => h.exc.map fun x => vGroup e x.1).min? with
  | none => sh.foldl (fun s h => vApply s e h) s
  | some g0 =>
    let faulty := sh.filter fun h => match h.exc with
      | some x => vGroup e x.1 == g0
      | none => false
    let saved := sh.map fun h => (h.slot, reg s .coreArith h.slot 0, (getCore s h.slot).genV)
    let s := sh.foldl (fun s h => vApplyPart s e g0 h) s
    let s := faulty.foldl (fun s h => match h.exc with
      | some x => recordExc s l e h x.1 x.2
      | none => s) s
    updSeq s l fun c => { c with vexc := some ⟨e, faulty.map fun h => ((h.r, h.c), none), saved, skipped, noTrap⟩ }

/-! SUMQ (R130, R181, R182). -/

/-- Combines two summary values (R130), and the flags of that (R61, R73). (Log 150, DESIGN CHOICE). -/
def sumqOp (ctl fc : Nat) (a b : W64) : W64 × Fl :=
  match ctl with
  | 0 => (a ||| b, flNone)
  | 1 => (a &&& b, flNone)
  | 2 => if fc = 0xC then f64Op ((f64Num a).add (f64Num b)) else (a + b, flNone)
  | 3 => if fc = 0xC then f64Op (maxMin true (f64Num a) (f64Num b)) else (if a.toInt < b.toInt then b else a, flNone)
  | _ => if fc = 0xC then f64Op (maxMin false (f64Num a) (f64Num b)) else (if b.toInt < a.toInt then b else a, flNone)

/-- The values of one combination in order, the first starting it, and the flags of each value's turn. -/
def sumqScan (ctl fc : Nat) : List W64 → W64 × List Fl
  | [] => (0, [])
  | v :: r => r.foldl (fun (a : W64 × List Fl) x => let y := sumqOp ctl fc a.1 x; (y.1, a.2 ++ [y.2])) (v, [flNone])

/-- The combined value. -/
def sumqFold (ctl fc : Nat) (l : List W64) : W64 := (sumqScan ctl fc l).1

/-- Element 0 of register va from the 64 columns of row r, in logical column order. -/
def sumqColumns (s : State) (r va : Nat) : List W64 :=
  (List.range 64).map fun c => BitVec.ofNat 64 (rdElem (getCore s (slotOf s r c)).v (8192 * va) 64 0)

/-- Summary slot q of some row of the gang is still full, or a value is on its way to it (R181). -/
def sumqBlocked (s : State) (l q : Nat) : Bool :=
  (gangRows s l).any fun r => bit (getCtl s (rccOf r)).full.toNat q || (seqCtl s l).fills.any fun x => x.1 == r && x.2.1 == q

/-- The fills a SUMQ starts: each row's own value after 24 steps (88 for ALL), the leader's slot taking the gang's
combination after 32 or 96 steps when the gang has more rows. -/
def sumqFills (s : State) (l : Nat) (f : VFields) (now : Nat) : List (Nat × Nat × W64 × Nat) :=
  let rows := gangRows s l
  if f.ctl = 5 then
    rows.flatMap fun r => (sumqColumns s r f.va).zipIdx.map fun (v, c) => (r, 16 + c, v, now + 88)
  else
    let own := rows.map fun r => (r, sumqFold f.ctl f.fc (sumqColumns s r f.va))
    own.map fun (r, v) =>
      if r = l ∧ 1 < rows.length then
        (r, f.vd, sumqFold f.ctl f.fc (own.map (·.2)), now + (if isLarge s l then 96 else 32))
      else (r, f.vd, v, now + 24)

/-- The flags of a SUMQ: those of taking in a column's value go to the CORE_ARITH of that column's core, those of taking in
a row's value in a gang's combination to that of the row's column 0 (R81). (Log 150, DESIGN CHOICE). -/
def sumqFlags (s : State) (l : Nat) (f : VFields) : State :=
  if f.ctl = 5 then s
  else
    let rows := gangRows s l
    let own := rows.map fun r => (r, sumqScan f.ctl f.fc (sumqColumns s r f.va))
    let s := own.foldl (fun s x => x.2.2.zipIdx.foldl (fun s y => addFlags s (slotOf s x.1 y.2) y.1) s) s
    if rows.length ≤ 1 then s
    else ((sumqScan f.ctl f.fc (own.map (·.2.1))).2.zip rows).foldl (fun s y => addFlags s (slotOf s y.2 0) y.1) s

/-! Issue. -/

/-- Issues the head of the vector queue if it is `op` and the issue rules let it: checks, effect on every core of the
gang, flight (R122, R123, R190). -/
def vIssue (s : State) (l : BitVec 6) (op : Nat) : State :=
  let u : Proc := .seq l
  let ln := l.toNat
  let now := stepNow s ln
  match headOf s u 2 op with
  | .ready e =>
    let f := vFields e.w
    match vCheck op f with
    | some code => issueHead s u 2 op fun s e => refuseEntry s u e 2 code
    | none =>
      let fl := vFlight (arrUses (seqCtl s ln).arr) e.id e.op f now
      let before := (seqCtl s ln).vfl
      if !vMayIssue before fl || (op == opSumq && f.ctl != 5 && sumqBlocked s ln f.vd) then s
      else issueHead s u 2 op fun s e =>
        let s := updCtl s u fun c =>
          { c with vfl := (c.vfl.filter fun p => decide (now < max (vDone p) (p.start + p.g))) ++ [fl] }
        let s := launch s u e 2 (vDone fl) 0 0
        if op = opSumq then sumqFlags (updCtl s u fun c => { c with fills := c.fills ++ sumqFills s ln f now }) ln f
        else vRun s ln e (gangCores s ln) [] []
  | _ => s

def execVadd (l : BitVec 6) (s : State) : Out := .next (vIssue s l opVadd)
def execVmul (l : BitVec 6) (s : State) : Out := .next (vIssue s l opVmul)
def execVfma (l : BitVec 6) (s : State) : Out := .next (vIssue s l opVfma)
def execVwmul (l : BitVec 6) (s : State) : Out := .next (vIssue s l opVwmul)
def execVdot4 (l : BitVec 6) (s : State) : Out := .next (vIssue s l opVdot4)
def execVmax (l : BitVec 6) (s : State) : Out := .next (vIssue s l opVmax)
def execVmin (l : BitVec 6) (s : State) : Out := .next (vIssue s l opVmin)
def execVcmp (l : BitVec 6) (s : State) : Out := .next (vIssue s l opVcmp)
def execVsel (l : BitVec 6) (s : State) : Out := .next (vIssue s l opVsel)
def execVsum (l : BitVec 6) (s : State) : Out := .next (vIssue s l opVsum)
def execVperm (l : BitVec 6) (s : State) : Out := .next (vIssue s l opVperm)
def execVcvt (l : BitVec 6) (s : State) : Out := .next (vIssue s l opVcvt)
def execVld (l : BitVec 6) (s : State) : Out := .next (vIssue s l opVld)
def execVst (l : BitVec 6) (s : State) : Out := .next (vIssue s l opVst)
def execVexp (l : BitVec 6) (s : State) : Out := .next (vIssue s l opVexp)
def execVlog2 (l : BitVec 6) (s : State) : Out := .next (vIssue s l opVlog2)
def execVrcp (l : BitVec 6) (s : State) : Out := .next (vIssue s l opVrcp)
def execVrsq (l : BitVec 6) (s : State) : Out := .next (vIssue s l opVrsq)
def execVtanh (l : BitVec 6) (s : State) : Out := .next (vIssue s l opVtanh)
def execVsig (l : BitVec 6) (s : State) : Out := .next (vIssue s l opVsig)
def execSumq (l : BitVec 6) (s : State) : Out := .next (vIssue s l opSumq)

/-- SUMMARY_SLOT_FILL (R181, R182): the values due by now land in row r's summary slots, their full flags set, or in
its gather buffer. Once the gang no longer runs, an issued SUMQ completes at its own time, without steps (R192). -/
def execSummarySlotFill (r : BitVec 6) (s : State) : Out :=
  .next (
    let rn := r.toNat
    let l := rowLeader s rn
    let due := (seqCtl s l).fills.filter fun x => x.1 == rn && (gangState s l != gsRunning || decide (x.2.2.2 ≤ stepNow s rn))
    let s := updSeq s l fun c => { c with fills := c.fills.filter fun x => !due.contains x }
    due.foldl (fun s x =>
      if x.2.1 < 16 then
        let s := setReg s .rowSummary rn x.2.1 x.2.2.1
        updCtl s (.rcc r) fun c => { c with full := c.full ||| BitVec.ofNat 16 (2 ^ x.2.1) }
      else setReg s .rowGather rn (x.2.1 - 16) x.2.2.1) s)

/-! The handler's answers (R133, R134). -/

/-- A core's CORE_ARITH and generator as they were when the excepted instruction began (R133). -/
def vRestore (s : State) (v : Vexc) (slot : Nat) : State :=
  match v.saved.find? fun y => y.1 == slot with
  | some y => setCore (setReg s .coreArith slot 0 y.2.1) slot { getCore s slot with genV := y.2.2 }
  | none => s

/-- Resumes once every faulting core has its ACTION: HALT wins; otherwise every core but those that SKIP re-executes
the instruction whole from its restored state (R133, R134); answers to an earlier exception of it stand.
(Log 151, DESIGN CHOICE). -/
def vResume (s : State) (l : Nat) (v : Vexc) : State :=
  match v.faulting.find? fun y => y.2 == some 3 with
  | some y =>
    let s := updSeq s l fun c => { c with flights := c.flights.filter fun g => g.id != v.entry.id }
    haltFrom s l y.1.1 rcVexcHalt 0 v.entry.pos 2
  | none =>
    let answered (a : BitVec 2) := (v.faulting.filter fun y => y.2 == some a).map (·.1)
    let skip := v.skipped ++ answered 2
    let noTrap := v.noTrap.filter (fun p => !(v.faulting.any fun y => y.1 == p)) ++ answered 1
    let again := (gangCores s l).filter fun p => !skip.contains p
    let fl := vFlight (arrUses (seqCtl s l).arr) v.entry.id v.entry.op (vFields v.entry.w) (stepNow s l)
    let s := updSeq s l fun c =>
      { c with vexc := none, vfl := [fl],
               flights := c.flights.map fun g => if g.id = v.entry.id then { g with due := vDone fl } else g }
    let s := again.foldl (fun s p => vRestore s v (slotOf s p.1 p.2)) s
    vRun s l v.entry again noTrap skip

/-- A core's ACTION: CORE_VEXC.PENDING clears, and the gang resumes when every faulting core has answered. -/
def vAction (s : State) (r col : BitVec 6) (a : BitVec 2) : State :=
  let l := rowLeader s r.toNat
  let p := (r.toNat, col.toNat)
  match (seqCtl s l).vexc with
  | none => s
  | some v =>
    if v.faulting.any fun y => y.1 == p && y.2.isNone then
      let s := putF s F.CORE_VEXC_PENDING (slotOf s p.1 p.2) 0
      let v := { v with faulting := v.faulting.map fun y => if y.1 = p then (p, some a) else y }
      let s := updSeq s l fun c => { c with vexc := some v }
      if v.faulting.all fun y => y.2.isSome then vResume s l v else s
    else s

def execVexcRestart (r col : BitVec 6) (s : State) : Out := .next (vAction s r col 0)
def execVexcRestartNotrap (r col : BitVec 6) (s : State) : Out := .next (vAction s r col 1)
def execVexcSkip (r col : BitVec 6) (s : State) : Out := .next (vAction s r col 2)
def execVexcHalt (r col : BitVec 6) (s : State) : Out := .next (vAction s r col 3)

end Sys2Proof.Machine
end

