-- ==== Sys2Proof/Machine/Loader.lean ====
section
/-! DEFINITION. The Icsum loader: what it refuses in an image (R145-R147, R150, R158, R164-R168, R171). -/

namespace Sys2Proof.Machine

def opLoop : Nat := 0x02
def opLoopR : Nat := 0x03
def opEndl : Nat := 0x04

/-- Used fields of a sequencer control or scalar word (R157, R158); the second operand of SADD to SSHR apart. -/
def wordMask (op : Nat) : Nat :=
  match op with
  | 0x01 => 0xFF
  | 0x02 | 0x03 | 0x05 => 0x7F * 2 ^ 49
  | 0x06 => 0xF * 2 ^ 49 + 0xFFFF * 2 ^ 32
  | 0x07 => mIMM32
  | 0x08 => 0x7FF * 2 ^ 45 + 0xFF * 2 ^ 21
  | 0x09 => 0x1F * 2 ^ 51 + 0xFF * 2 ^ 21 + 2 ^ 20
  | 0x10 => mSD + mIMM32
  | 0x19 => mSD + 0x3F * 2 ^ 40
  | 0xA0 => mSD + mSA + mIMM32
  | 0xA1 => mSA + mSB + mIMM32
  | 0xA2 => mSD + mSA + mSB + mIMM32
  | 0xA3 => mSD + mIMM32
  | 0xA4 => mSA
  | 0xA8 | 0xA9 | 0xAA | 0xAB | 0xAC => mSD + mSA + mSB
  | 0xAD => mSD + mSA
  | 0xAE => mSD + mSA + mSB + 7
  | 0xAF => mSD + mSA + 0x1F
  | 0xB0 => mSD + 0xF
  | 0xB1 => mSA + 0xF
  | 0xB2 => mSA + 0x3F
  | _ => 0

/-- The constant-field check of a word (R168): a reason code, or none. -/
def wordCheck (u : Proc) (op : Nat) (w : BitVec 56) : Option (BitVec 8) :=
  let x := w.toNat
  let qm := bits x 55 51
  if opGroup op = 3 then
    if op < 0x40 then mWordCheck op w else if op = 0x80 then trCheck w [] else vCheck op (vFields w)
  else if opGroup op = 4 then hoistCheck u op w (hoistDesc [])
  else if 0x11 ≤ op ∧ op ≤ 0x18 then (if aluLegal w then none else some rcBadField)
  else if strayBits w (wordMask op) ∨ ((op = opLoop ∨ op = opLoopR) ∧ !bit x 55 ∧ 32 ≤ bits x 54 49) ∨
      (op = 0x08 ∧ (qm = 0 ∨ (bits x 49 45 ≠ 0 ∧ !(bit x 50 && bit qm 0)))) ∨
      (op = 0x09 ∧ ((namedQueues qm).length ≠ 1 ∨ bit qm 0)) ∨ (op = 0xA2 ∧ 5 < fSD w) ∨
      (op = 0xAE ∧ 5 < bits x 2 0) ∨ (op = 0xAF ∧ (2 < bits x 3 2 ∨ bit x 0)) then some rcBadField
  else none

/-- Tokens a word names. -/
def tokensOf (op : Nat) (w : BitVec 56) : List Nat :=
  (if op = 0x08 ∨ op = 0x09 then [bits w.toNat 28 21] else []) ++ (tinOf op w).toList ++
    ((toutOf op w).map BitVec.toNat).toList

/-- Loop structure and targets of the word at address p, `d` loops being open (R164-R166). -/
def placeCheck (ws : List W64) (op : Nat) (w : BitVec 56) (p d : Nat) : Option (BitVec 8) :=
  let inside (t : Int) : Bool := decide (0 ≤ t) && decide (t < ws.length)
  if op = opLoop ∨ op = opLoopR then
    if op = opLoopR ∧ d ≠ 0 then some rcReplayNest
    else if 4 ≤ d ∨ (matchEndl ws p).isNone then some rcLoopDepth
    else if matchEndl ws p = some (p + 1) then some rcBadField
    else none
  else if op = opEndl then (if d = 0 then some rcLoopDepth else none)
  else if op = 0x05 then (if d ≤ bits w.toNat 55 54 then some rcLoopDepth else none)
  else if op = 0x06 then
    let t := (p : Int) + sext 16 (bits w.toNat 47 32)
    if t < 0 ∨ !decideTargetOk ws p t.toNat then some rcBadTarget else none
  else if op = 0xA2 ∨ op = 0xA3 then (if inside (p + sIMM32 w) then none else some rcBadTarget)
  else none

/-- One word of a program: the first refusal of R171 it meets. -/
def loadWord (u : Proc) (ws : List W64) (w : W64) (p d : Nat) : Option (BitVec 8) :=
  let op := opOf w
  let x : BitVec 56 := w.setWidth 56
  if opGroup op = 0 then some rcBadOpcode
  else if !groupAllowed (targetOf u) (opGroup op) then some rcQueueClass
  else (wordCheck u op x).orElse fun _ =>
    if (tokensOf op x).any fun t => decide (240 ≤ t) then some rcReservedToken else placeCheck ws op x p d

/-- Loops open after a word. -/
def depthAfter (op d : Nat) : Nat :=
  if op = opLoop ∨ op = opLoopR then d + 1 else if op = opEndl then d - 1 else d

/-- Every word from address p on: the first refusal, with its address. -/
def loadWords (u : Proc) (ws : List W64) : List W64 → Nat → Nat → Option (BitVec 8 × Option Nat)
  | [], _, _ => none
  | w :: r, p, d => ((loadWord u ws w p d).map fun c => (c, some p)).orElse fun _ =>
      loadWords u ws r (p + 1) (depthAfter (opOf w) d)

/-- The header (R147). -/
def headerOk (image : List W64) : Bool :=
  let h (i : Nat) : Nat := (image.getD i 0).toNat
  decide (4 ≤ image.length) && bits (h 0) 63 32 == 0x4943534D && bits (h 0) 31 16 == 1 && decide (bits (h 0) 15 8 ≤ 2) &&
    bits (h 0) 7 0 == 0 && bits (h 1) 63 32 == 0 && bits (h 1) 31 0 + 4 == image.length && bits (h 3) 63 32 == 0 &&
    decide (bits (h 3) 31 0 < image.length - 4)

/-- The refusal of an image for a stream, if any: its code, and the Icsum address concerned where there is one (R171).
(Log 30, DEDUCED). -/
def loadRefusal (u : Proc) (image : List W64) : Option (BitVec 8 × Option Nat) :=
  let ws := image.drop 4
  if !headerOk image then some (rcBadHeader, none)
  else (loadWords u ws ws 0 0).orElse fun _ =>
    match u with
    | .seq _ => if 8192 < Config.nativeSize ws then some (rcProgSize, none) else none
    | _ => none

/-- The program of an accepted image. -/
def programOf (image : List W64) : Program :=
  let h (i : Nat) : Nat := (image.getD i 0).toNat
  { progNone with
    target := BitVec.ofNat 8 (bits (h 0) 15 8), entry := bits (h 3) 31 0, pused := image.getD 2 0, words := image.drop 4 }

/-! What the loader adds (R163, R168, R170). -/

/-- The hoist instructions of a program from address p on, d loops being open: address, whether inside a loop, word. -/
def hoistPlaces : List W64 → Nat → Nat → List (Nat × Bool × W64)
  | [], _, _ => []
  | w :: r, p, d =>
    let rest := hoistPlaces r (p + 1) (depthAfter (opOf w) d)
    if opGroup (opOf w) = 4 then (p, decide (0 < d), w) :: rest else rest

/-- The hoists that may find the queue full, each with the hoist whose completion keeps a place free: itself at its last
turn inside a loop, the hoist 512 places earlier elsewhere (R168). -/
def guardedHoists (hs : List (Nat × Bool × W64)) : List (Nat × Nat × W64) :=
  hs.zipIdx.filterMap fun (h, j) =>
    if h.2.1 then some (h.1, h.1, h.2.2)
    else if 512 ≤ j then (hs[j - 512]?).map fun g => (h.1, g.1, g.2.2)
    else none

/-- The translation of a program for a stream (R168, R170): ENTRY's code begins at native word 0; a hoist that is waited
on and signals no token is assigned one of t240-t255. A node program is untimed and gets no WAIT.T. -/
def translated (s : State) (u : Proc) (p : Program) : Program :=
  let rows := match u with
    | .seq l => (gangRows s l.toNat).length
    | _ => 1
  let gs := match u with
    | .node .. => []
    | _ => guardedHoists (hoistPlaces p.words 0 0)
  let mute := (gs.filter fun g => !bit g.2.2.toNat 20).map fun g => g.2.1
  let toks : Map Nat := mute.zipIdx.foldl (fun m e => mput e.1 (240 + e.2 % 16) m) []
  { p with
    amap := (List.range p.words.length).map fun a =>
      if a = p.entry then 0 else (Config.nativePos p.words p.entry rows a).toNat
    waits := gs.foldl (fun m g =>
      mput g.1 (if bit g.2.2.toNat 20 then bits g.2.2.toNat 19 12 else (mfind g.2.1 toks).getD 240) m) []
    toks := toks }

end Sys2Proof.Machine
end

