-- ==== Sys2Proof/Machine/Rows.lean ====
section
/-! DEFINITION. Gang control and the row registers software writes (R177, R185-R198, R345), program loads. -/

namespace Sys2Proof.Machine

/-! Gangs. -/

/-- What a solver engine leaves in a gang it has driven (R223): free values in its registers (scalar and parameter registers,
tokens, step counter, queue counts, summaries, generations of its banks, the registers of its control cores and cores), its
instruction store and everything the cores hold; no ARM stands. -/
def scrambleGang (s : State) (l : Nat) : State :=
  let v (s : State) (n i : Nat) : W64 := Config.freeValue (s.free + n + i)
  let scalars (s : State) (c : Ctl) : Ctl :=
    { c with s := ((List.range 32).map fun i => (i, v s 0 i)).filter fun e => e.2 != 0 }
  let s := updSeq s l fun c =>
    { scalars s c with
      armed := false
      tok := (List.range 240).map fun i =>
        let x := v s 32 i
        (i, ⟨bits x.toNat 10 0, bit x.toNat 11, if bit x.toNat 11 then x.extractLsb' 16 8 else 0⟩) }
  let s := { s with free := s.free + 272 }
  (gangRows s l).foldl (fun s r =>
    let s := updCtl s (rccOf r) (scalars s)
    let s := { s with free := s.free + 32 }
    let s := setReg (setReg s .rowStep r 0 (v s 0 0)) .rowQstat r 0 (v s 1 0)
    let s := putF (putF s F.ROW_IMCTL_GEN0 r (bits (v s 2 0).toNat 15 0)) F.ROW_IMCTL_GEN1 r (bits (v s 3 0).toNat 15 0)
    let s := (List.range 16).foldl (fun s i => setReg s .rowSummary r i (v s 4 i)) s
    let s := (List.range 64).foldl (fun s i => setReg s .rowGather r i (v s 20 i)) s
    let s := { s with free := s.free + 84 }
    let s := (List.range 64).foldl (fun s i =>
      setReg (setReg s .rowPshadow r i (v s 0 i)) .rowPactive r i (v s 64 i)) s
    let s := (List.range 8192).foldl (fun s i =>
      setReg (setReg s .rowBank0 r i (v s 128 i)) .rowBank1 r i (v s 8320 i)) s
    let s := (List.range 64).foldl (fun s c =>
      let p := slotOf s r c
      let s := setReg (setCore s p (scratchCore (2 ^ 20 * s.free + 16 * p))) .coreArith p 0 (v s 16512 c &&& 0xFFFF0000007F)
      setReg (setReg s .coreArrayStat p 0 (v s 16576 c)) .coreVtrap p 0 (v s 16640 c &&& 7)) s
    { s with free := s.free + 16704, progs := mdrop (fun k => k / 2 == r && decide (k < 128)) s.progs }) s

/-- A solver engine takes its update gang and drives it with programs of its own (R223): it runs. -/
def takeGangs (s : State) (gs : List Nat) : State := gs.foldl (fun s g => setGangState (scrambleGang s g) g gsRunning) s

/-- The descriptor has ended: its gangs are STOPPED and hold no defined values (R223). -/
def returnGangs (s : State) (gs : List Nat) : State := gs.foldl (fun s g => setGangState (scrambleGang s g) g gsStopped) s

/-- May the gang start: no row of it has lost its layout (R176), and its rows and every slot its column maps name are on and not QUARANTINED (R419, R455)? -/
def gangFit (s : State) (l : Nat) : Bool :=
  getF s F.ROW_GANG_ROWS l == (gangRows s l).length && (gangRows s l).all fun r => domainOn s (domRow r) && (getUnit s utRow r).st != 3 &&
    (List.range 64).all fun c => (getUnit s utSlot (slotOf s r c)).st != 3

/-- The registers of a context as it is created (R148): tile memory, SRAM and the instruction store keep what they hold.
(Log 17, DEDUCED). -/
def freshContext (s : State) (l : Nat) : State :=
  let seed := BitVec.ofNat 32 (getF s F.ROW_DETMODE_SR_JOB_SEED l)
  let s := setSeq s l { ctlZero with seed := seed }
  (gangRows s l).foldl (fun s r =>
    let b := blockBase .row r
    let s := setCtl s (rccOf r) ctlZero
    let s := { s with mg := mdrop (fun a => decide (b ≤ a) && decide (a < b + 0x40000) && ctxOffset (a - b)) s.mg }
    (List.range 64).foldl (fun s c =>
      let p := slotOf s r c
      let s := setCore s p { coreZero with tile := (getCore s p).tile }
      setReg (setReg (setReg s .coreArith p 0 0) .coreArrayStat p 0 0) .coreVtrap p 0 0) s) s

/-- A context that STOP with SAVE took away is restored (R189). (Log 61, DEDUCED). -/
def bringBack (s : State) (l : Nat) : State :=
  if (seqCtl s l).away then
    let k := curCtx s l
    let (s, x) := fetchSaved s l k
    let s := loadSaved s l k x
    { s with saves := mdrop (· == 4 * l + k) s.saves }
  else s

/-- Row control cores of the gang start their programs at ENTRY. (Log 16, DEDUCED). -/
def startRccs (s : State) (l : Nat) : State :=
  (gangRows s l).foldl (fun s r =>
    let e := (progOf s (rccOf r)).entry
    updCtl s (rccOf r) fun c => { c with pc := e, halted := false, busy := stepNow s r }) s

/-- GO (R184, R188, R189): an armed bank becomes active, and the gang runs from the entry of the active bank. -/
def goGang (s : State) (l : Nat) : State :=
  let s := bringBack s l
  let s := updSeq s l fun c => { discardQueues c with loops := [], away := false, restored := false }
  let s := boundary (setGangState (startRccs s l) l gsRunning) l true
  setPc s (seqOf l) (progOf s (seqOf l)).entry

/-- CONT (R189): the gang resumes at the boundary where it stopped, at ENTRY if its context never ran. -/
def contGang (s : State) (l : Nat) : State :=
  let s := bringBack s l
  let c := seqCtl s l
  let s := if c.nextId = 0 ∧ c.loops = [] ∧ rowSteps s l = 0 then
    setPc (startRccs s l) (seqOf l) (progOf s (seqOf l)).entry else s
  boundary (setGangState (updSeq s l fun c => { c with armed := false, away := false, restored := false }) l gsRunning) l true

/-- The resident context is halted and may not run until its CHALTED bit is cleared (R197). -/
def residentHalted (s : State) (l : Nat) : Bool := bit (getF s F.ROW_CTXCTL_CHALTED l) (curCtx s l)

/-- One gang command at a row (R189, R223, R419): only at the leader, only in a state that allows it. -/
def gangCommand (s : State) (by' : Requester) (row : Nat) (ok : State → Bool) (f : State → State) : State :=
  guarded s by' .rowCtl row 0 fun s =>
    if rowLeader s row ≠ row ∨ lent s row ∨ !ok s then denied s by' else done (f s)

def startable (l : Nat) (states : List Nat) (s : State) : Bool :=
  states.contains (gangState s l) && gangFit s l && !residentHalted s l

def goCmd (s : State) (by' : Requester) (row : Nat) : State :=
  gangCommand s by' row (startable row [gsStopped, gsHalted]) fun s => goGang s row

/-- (Log 62, DEDUCED). -/
def armCmd (s : State) (by' : Requester) (row : Nat) : State :=
  gangCommand s by' row (startable row [gsStopped]) fun s => updSeq s row fun c => { c with armed := true }

def contCmd (s : State) (by' : Requester) (row : Nat) : State :=
  gangCommand s by' row (startable row [gsStopped]) fun s => contGang s row

def stopCmd (s : State) (by' : Requester) (row : Nat) (save : Bool) : State :=
  gangCommand s by' row (fun s => gangState s row == gsRunning) fun s =>
    updSeq s row fun c => { c with stopReq := some save }

def yieldCmd (s : State) (by' : Requester) (row : Nat) : State :=
  gangCommand s by' row (fun s => gangState s row == gsRunning) fun s => updSeq s row fun c => { c with yieldReq := true }

/-- GO. -/
def execGo (by' : Requester) (row : BitVec 6) (s : State) : Out := .next (goCmd s by' row.toNat)
/-- ARM: as GO, the first step at the next barrier release. -/
def execArm (by' : Requester) (row : BitVec 6) (s : State) : Out := .next (armCmd s by' row.toNat)
/-- CONT. -/
def execCont (by' : Requester) (row : BitVec 6) (s : State) : Out := .next (contCmd s by' row.toNat)
/-- STOP. -/
def execStop (by' : Requester) (row : BitVec 6) (s : State) : Out := .next (stopCmd s by' row.toNat false)
/-- STOP with SAVE. -/
def execStopSave (by' : Requester) (row : BitVec 6) (s : State) : Out := .next (stopCmd s by' row.toNat true)
/-- YIELD. -/
def execYield (by' : Requester) (row : BitVec 6) (s : State) : Out := .next (yieldCmd s by' row.toNat)

/-- A write of ROW_CTL: exactly one command bit (R189). -/
def rowCtlWrite (s : State) (by' : Requester) (row : Nat) (v : W64) : State :=
  match bits v.toNat 4 0 with
  | 1 => goCmd s by' row
  | 2 => armCmd s by' row
  | 4 => contCmd s by' row
  | 8 => stopCmd s by' row (bit v.toNat 5)
  | 16 => yieldCmd s by' row
  | _ => guarded s by' .rowCtl row 0 fun s => denied s by'

/-- CONTEXT_SWITCH (R194, R196). -/
def execContextSwitch (l : BitVec 6) (s : State) : Out := .next (contextSwitch s l.toNat)

/-- WATCHDOG_EXPIRY (R198). -/
def execWatchdogExpiry (l : BitVec 6) (s : State) : Out := .next (watchdogExpiry s l.toNat)

/-! Barrier release (R345, R40). -/

/-- Runs of half h that release job slot `slot` at a TR they hold and that has come. -/
def releasing (s : State) (h slot : Nat) : List CollRun :=
  (getRuns s h).filter fun r => r.tr.any (fun t => decide (t.toNat ≤ collClock s h r.words)) && r.notices.isEmpty && r.done.isNone && collSlot s h r.group == slot

/-- Gangs of half h armed and bound, for their resident context, to the slot. -/
def armedFor (s : State) (h slot : Nat) : List Nat :=
  (halfRows h).filter fun l => rowLeader s l == l && (seqCtl s l).armed && gangState s l == gsStopped && !lent s l &&
    boundSlot s h (l - 32 * h) (curCtx s l) == some slot

/-- The pod time at which a release of half h was due: TR itself, or the same instant on the pod's counter where TR is a
hall time (R58). -/
def releaseT0 (s : State) (h : Nat) (r : CollRun) : W64 :=
  podTime s h - (BitVec.ofNat 64 (collClock s h r.words) - r.tr.getD 0)

/-- A gang released at pod time T0: as GO. A restored context goes on after its braked STEPMARK (R366). -/
def releaseGang (s : State) (l : Nat) (tr : W64) : State :=
  let s := if (seqCtl s l).restored then startPace (setGangState s l gsRunning) l else goGang s l
  updSeq s l fun c => { c with armed := false, restored := false, paceT0 := tr }

/-- BARRIER_RELEASE (R56, R58, R345): once the counter has reached TR, the armed gangs bound to the slot start, and this member's START_BARRIER completes.
(Log 73, DEDUCED). -/
def execBarrierRelease (h : BitVec 1) (slot : BitVec 4) (s : State) : Out :=
  .next (
    let h := h.toNat
    match releasing s h slot.toNat with
    | [] => s
    | r :: rs =>
      let t0 := releaseT0 s h r
      let s := (armedFor s h slot.toNat).foldl (fun s l => releaseGang s l t0) s
      (r :: rs).foldl (fun s r => collFinish s h r 0 (hallTime s h)) s)

/-! Programs (R145-R147, R168, R187). -/

/-- A refused write to the active bank (R187). (Log 64, DEDUCED). -/
def imBusy (s : State) (by' : Requester) (row : Nat) : State := denied (bumpF s F.ROW_IMCTL_BUSY_CNT row) by'

/-- ICSUM_PROGRAM_LOAD: the loader of a half's firmware checks the image and reports a code, or places the program: a core
stream's native words in the idle bank of its row, another stream's program where it starts at ENTRY. -/
def execIcsumProgramLoad (u : Proc) (bank : BitVec 1) (image : List W64) (s : State) : Out :=
  .next (
    let b := bank.toNat
    let h := match u with
      | .seq l => rowHalf l.toNat
      | .rcc r => rowHalf r.toNat
      | .node h _ => h.toNat
    if !nodeLive s h ∨ (headerOk image ∧ (programOf image).target.toNat ≠ targetOf u) then s
    else match loadRefusal u image with
      | some (c, a) => answer s (match a with
          | some p => .codeAt c p
          | none => .code c)
      | none =>
        let p := translated s u (programOf image)
        match u with
        | .seq l =>
          let row := l.toNat
          if lent s row ∨ !domainOn s (domRow row) then accessError s
          else if activeBank s row = b then accessError (bumpF s F.ROW_IMCTL_BUSY_CNT row)
          else
            let s := { s with progs := mput (progKey u b) p s.progs }
            let s := setWords s (if b = 0 then .rowBank0 else .rowBank1) row 0 ((Config.nativeWords p.words p.entry (gangRows s row).length).take 8192)
            done (putF s F.ROW_IMCTL_ARMED row 0)
        | _ =>
          let s := { s with progs := mput (progKey u 0) p s.progs }
          done (updCtl s u fun c => { c with pc := p.entry, halted := false }))

/-- INSTR_STORE_WRITE (R187): a word of the idle bank, whose program is then no longer known; the active one is
IM_BUSY. -/
def instrWrite (s : State) (by' : Requester) (row b i : Nat) (v : W64) : State :=
  let r : Reg := if b = 0 then .rowBank0 else .rowBank1
  guarded s by' r row i fun s =>
    if lent s row then denied s by'
    else if activeBank s row = b then imBusy s by' row
    else
      let s := setReg s r row i v
      let s := { s with progs := mdrop (· == 2 * row + b) s.progs }
      done (putF s F.ROW_IMCTL_ARMED row 0)

def execInstrStoreWrite (by' : Requester) (row : BitVec 6) (bank : BitVec 1) (i : BitVec 13) (v : W64) (s : State) :
    Out :=
  .next (instrWrite s by' row.toNat bank.toNat i.toNat v)

/-- A write of ROW_IMCTL (R188): ACTX and SWITCHED, and the idle bank's generation, which arms the bank or not; a
change of the active bank's generation is IM_BUSY. The idle bank's native words carry the first generation it is given
after its load. (Log 63, DEDUCED). -/
def imctlWrite (s : State) (by' : Requester) (row : Nat) (v : W64) : State :=
  guarded s by' .rowImctl row 0 fun s =>
    let a := activeBank s row
    let gen (b : Nat) : Nat := if b = 0 then getF s F.ROW_IMCTL_GEN0 row else getF s F.ROW_IMCTL_GEN1 row
    let new (b : Nat) : Nat := if b = 0 then bits v.toNat 47 32 else bits v.toNat 63 48
    if lent s row then denied s by'
    else if new a ≠ gen a then imBusy s by' row
    else
      let i := 1 - a
      let ahead := (new i + 65536 - gen a) % 65536
      let s' := setReg s .rowImctl row 0 (storedWord .rowImctl (reg s .rowImctl row 0) v)
      let s' := putF s' F.ROW_IMCTL_ARMED row (if 1 ≤ ahead ∧ ahead ≤ 32767 then 1 else 0)
      done (match mfind (2 * row + i) s'.progs with
        | some p =>
          let p := { p with gen := some (p.gen.getD (BitVec.ofNat 16 (new i))) }
          { s' with progs := mput (2 * row + i) p s'.progs }
        | none => s')

/-- IMCTL_GEN_WRITE. -/
def execImctlGenWrite (by' : Requester) (row : BitVec 6) (v : W64) (s : State) : Out :=
  .next (imctlWrite s by' row.toNat v)

/-! Parameters (R186). -/

/-- A shadow register is written; a PATCH that lands in it in the same step comes after and stands (R186). -/
def pshadowSet (s : State) (by' : Requester) (row i : Nat) (v : W64) : State :=
  guarded s by' .rowPshadow row i fun s =>
    if rowLeader s row ≠ row ∨ lent s row then denied s by'
    else if mget zNat i (seqCtl s row).landed = stepNow s row + 1 then done s
    else done (setReg s .rowPshadow row i v)

def pactiveSet (s : State) (by' : Requester) (row i : Nat) (v : W64) : State :=
  guarded s by' .rowPactive row i fun s =>
    if rowLeader s row ≠ row ∨ lent s row ∨ ¬ [gsStopped, gsHalted].contains (gangState s row) then denied s by'
    else done (setReg s .rowPactive row i v)

/-- PSHADOW_WRITE. -/
def execPshadowWrite (by' : Requester) (row : BitVec 6) (i : BitVec 6) (v : W64) (s : State) : Out :=
  .next (pshadowSet s by' row.toNat i.toNat v)

/-- PACTIVE_WRITE. -/
def execPactiveWrite (by' : Requester) (row : BitVec 6) (i : BitVec 6) (v : W64) (s : State) : Out :=
  .next (pactiveSet s by' row.toNat i.toNat v)

/-! The column map (R177, R456). -/

/-- Slots a row's 64 columns name after word n is replaced. (Log 65, DEDUCED). -/
def mapAfter (s : State) (row n : Nat) (v : W64) : List Nat :=
  (List.range 64).map fun c =>
    bits (if c / 8 = n then v else reg s .rowColmap row (c / 8)).toNat (8 * (c % 8) + 6) (8 * (c % 8))

/-- The units of a row's slots after its map has changed: a slot newly named serves, one no longer named is spare. -/
def remapUnits (s : State) (row : Nat) (old new : List Nat) : State :=
  (List.range 68).foldl (fun s k =>
    let p := rowSlot0 row + k
    let u := getUnit s utSlot p
    if new.contains k ∧ !old.contains k ∧ (u.st = 1 ∨ u.st = 2) then
      setUnit s utSlot p { u with st := 0, back := 0, pending := false, causes := [] }
    else if old.contains k ∧ !new.contains k ∧ u.st = 0 then setUnit s utSlot p { u with st := 1 }
    else s) s

/-- COLMAP_WRITE: refused while the gang is RUNNING or SWITCHING, for a slot above 67 and for one named twice. -/
def colmapSet (s : State) (by' : Requester) (row n : Nat) (v : W64) : State :=
  guarded s by' .rowColmap row n fun s =>
    let new := mapAfter s row n v
    if [gsRunning, gsSwitching].contains (gangState s (rowLeader s row)) ∨ new.any (fun k => decide (67 < k)) ∨
        new.dedup.length ≠ 64 then denied s by'
    else
      let old := mapAfter s row n (reg s .rowColmap row n)
      let s := setReg s .rowColmap row n (storedWord .rowColmap (reg s .rowColmap row n) v)
      done (remapUnits s row old new)

def execColmapWrite (by' : Requester) (row : BitVec 6) (n : BitVec 3) (v : W64) (s : State) : Out :=
  .next (colmapSet s by' row.toNat n.toNat v)

/-! Contexts and the watchdog (R194-R198). -/

/-- Contexts whose CVALID bit a write changes: one that comes to exist starts anew with the seed in force. -/
def setValid (s : State) (l : Nat) (new : Nat) : State :=
  let old := getF s F.ROW_CTXCTL_CVALID l
  let seed := BitVec.ofNat 32 (getF s F.ROW_DETMODE_SR_JOB_SEED l)
  let s := (List.range 4).foldl (fun s k =>
    if bit new k = bit old k then s
    else if k = curCtx s l then (if bit new k then freshContext s l else s)
    else if bit new k then putSaved s l k (savedNew seed)
    else { s with saves := mdrop (· == 4 * l + k) s.saves }) s
  putF s F.ROW_CTXCTL_CVALID l new

/-- A write of ROW_CTXCTL: CVALID changes only while STOPPED; a nonzero WDOG_LIMIT needs the row's event timer (R198).
(Log 67, DEDUCED). -/
def ctxctlWrite (s : State) (by' : Requester) (row : Nat) (v : W64) : State :=
  guarded s by' .rowCtxctl row 0 fun s =>
    let valid := bits v.toNat 63 60
    let lim := bits v.toNat 31 0
    if (valid ≠ getF s F.ROW_CTXCTL_CVALID row ∧ gangState s (rowLeader s row) ≠ gsStopped) ∨
        (lim ≠ 0 ∧ ownerOf s 2 row ≠ 1) then denied s by'
    else
      let s := setValid s row valid
      done (setReg s .rowCtxctl row 0 (storedWord .rowCtxctl (reg s .rowCtxctl row 0) v))

/-- WDOG_LIMIT_WRITE (R198): the limit, the other fields as they stand. -/
def execWdogLimitWrite (by' : Requester) (row : BitVec 6) (v : W64) (s : State) : Out :=
  .next (
    let w := setBits (setBits 0 63 60 (getF s F.ROW_CTXCTL_CVALID row.toNat)) 31 0 v.toNat
    ctxctlWrite s by' row.toNat w)

/-- A word of ROW_CTXn: writable only while the gang is STOPPED. -/
def ctxWordWrite (s : State) (by' : Requester) (r : Reg) (row k : Nat) (v : W64) : State :=
  guarded s by' r row k fun s =>
    if gangState s (rowLeader s row) ≠ gsStopped then denied s by' else plainWrite s by' r row k v

/-! Pacing and result mode (R38, R42, R45, R55, R465, R466). -/

/-- Does the row's half still keep its budget with the row paced at point op, or free (R466)? -/
def reserveFits (s : State) (row : Nat) (op : Option Nat) : Bool :=
  let h := rowHalf row
  let f (r : Nat) : Nat := if r = row then op.getD (opLimits s r).1 else reservePoint s r
  decide (reserveAt s h f ≤ sustainW s h)

/-- An accepted ROW_PACE write: a running gang takes it at its next boundary, another one at once. -/
def paceTake (s : State) (row : Nat) (v : W64) : State :=
  let same := bit v.toNat 63 = paceEn s row ∧ bits v.toNat 47 32 = getF s F.ROW_PACE_PACE_TARGET row
  let s := setReg s .rowPace row 0 (storedWord .rowPace (reg s .rowPace row 0) v)
  if same then s
  else if gangState s (rowLeader s row) = gsRunning then updSeq s (rowLeader s row) fun c => { c with paceNew := true }
  else placePaced s row

/-- PACE_WRITE: refused without the row's timer, without a target, too fast (PACE_TOO_FAST), outside OP_MIN and OP_MAX,
where the gang's other rows would differ, or where the reserve would exceed the budget. (Log 69, DEDUCED). -/
def paceSet (s : State) (by' : Requester) (row : Nat) (v : W64) : State :=
  guarded s by' .rowPace row 0 fun s =>
    let en := bit v.toNat 63
    let tgt := bits v.toNat 47 32
    let differ := (gangRows s (rowLeader s row)).any fun r =>
      r != row && (paceEn s r != en || getF s F.ROW_PACE_PACE_TARGET r != tgt)
    if en then
      if ownerOf s 2 row ≠ 2 ∨ tgt = 0 then denied s by'
      else match pacePoint tgt with
        | none => denied (putF s F.ROW_PACE_PACE_TOO_FAST row 1) by'
        | some op =>
          if op < (opLimits s row).1 ∨ (opLimits s row).2 < op ∨ differ ∨ !reserveFits s row (some op) then denied s by'
          else done (paceTake s row v)
    else if 1179 < tgt ∨ differ ∨ !reserveFits s row none then denied s by'
    else done (paceTake s row v)

def execPaceWrite (by' : Requester) (row : BitVec 6) (v : W64) (s : State) : Out :=
  .next (paceSet s by' row.toNat v)

/-- DETMODE_WRITE (R55): only while the gang does not run; every row of the gang takes the value. -/
def detmodeSet (s : State) (by' : Requester) (row : Nat) (v : W64) : State :=
  guarded s by' .rowDetmode row 0 fun s =>
    let l := rowLeader s row
    if ¬ [gsStopped, gsHalted].contains (gangState s l) then denied s by'
    else done ((gangRows s l).foldl (fun s r =>
      setReg s .rowDetmode r 0 (storedWord .rowDetmode (reg s .rowDetmode r 0) v)) s)

def execDetmodeWrite (by' : Requester) (row : BitVec 6) (v : W64) (s : State) : Out :=
  .next (detmodeSet s by' row.toNat v)

end Sys2Proof.Machine
end

