-- ==== Sys2Proof/Machine/Ckpt.lean ====
section
/-! DEFINITION. The checkpoint unit of each half (R348-R363) and its restore (R364-R368): triggers, holds, brakes, the cut,
the background copy, the manifest. -/

namespace Sys2Proof.Machine

/-- The context that the bytes of a save area hold (R197): the manual does not lay an area out. (Log 103, DESIGN CHOICE). -/
opaque Config.areaContext : List Byte → Saved

/-! States and results (R351, R367, R368). -/

def ckIdle : Nat := 0
def ckHolding : Nat := 1
def ckBraking : Nat := 2
def ckArrived : Nat := 3
def ckCopying : Nat := 4
def ckSealing : Nat := 5

def ckState (s : State) (h : Nat) : Nat := getF s F.CKP_STAT_STATE h

def ckAborted : Nat := 0x01
def ckTimeoutCode : Nat := 0x02
def ckHaltCode : Nat := 0x03
def ckEpochOpen : Nat := 0x04
def ckHalfCode : Nat := 0x05
def ckCopyFail : Nat := 0x06
def ckConfig : Nat := 0x07

def updCkp (s : State) (h : Nat) (f : CkpSt → CkpSt) : State := updHalf s h fun x => { x with ckp := f x.ckp }

/-! The job (R348). -/

/-- Bytes of the save area of a gang of n rows (R197). -/
def areaBytes (n : Nat) : Nat := n * 97 * 2 ^ 20

/-- Contexts of half h bound to job slot `slot`: (leader, context). -/
def boundContexts (s : State) (h slot : Nat) : List (Nat × Nat) :=
  (halfRows h).flatMap fun l =>
    if rowLeader s l ≠ l then []
    else ((List.range 4).filter fun k => bit (getF s F.ROW_CTXCTL_CVALID l) k &&
      boundSlot s h (l - 32 * h) k == some slot).map fun k => (l, k)

def jobContexts (s : State) (h : Nat) : List (Nat × Nat) := boundContexts s h (getF s F.CKP_CFG_SLOT h)

/-- Tracked regions of half h: number, base, size. -/
def ckpRegions (s : State) (h : Nat) : List (Nat × Nat × Nat) :=
  ((List.range 16).filter fun n => getF s F.CKP_REGION_W0_VALID h n == 1).map fun n =>
    (n, getF s F.CKP_REGION_W0_BASE h n, getF s F.CKP_REGION_W1_SIZE h n)

/-- Base and size of a context's save area. -/
def saveArea (s : State) (l k : Nat) : Nat × Nat :=
  (getF s F.ROW_CTX_W0_SAVE_BASE l k * 65536, areaBytes (gangRows s l).length)

def anyPair {α : Type} (f : α → α → Bool) : List α → Bool
  | [] => false
  | x :: r => r.any (f x) || anyPair f r

def rangesMeet (a b : Nat × Nat) : Bool := decide (a.1 < b.1 + b.2) && decide (b.1 < a.1 + a.2)

/-- R350: EN = 1 is refused for this job slot. -/
def ckpConfigBad (s : State) (h slot : Nat) : Bool :=
  let cs := boundContexts s h slot
  let rs := (ckpRegions s h).map fun r => r.2
  let areas := cs.map fun c => saveArea s c.1 c.2
  decide (((cs.map Prod.fst).dedup).length ≠ cs.length) ||
    cs.any (fun c => getF s F.ROW_CTX_W0_SAVE_BASE c.1 c.2 == 0) ||
    rs.any (fun r => decide (r.1 < h * 2 ^ 41) || decide ((h + 1) * 2 ^ 41 < r.1 + r.2) || !regionInHbm s r.1 r.2) ||
    anyPair rangesMeet rs || rs.any fun r => areas.any (rangesMeet r)

/-! Settings (R350, R351). -/

/-- Timer instants PHASE + k × PERIOD that have passed. -/
def instantsPast (s : State) (h : Nat) : Nat :=
  let p := (reg s .ckpPeriod h 0).toNat
  let f := (reg s .ckpPhase h 0).toNat
  let t := (podTime s h).toNat
  if p = 0 ∨ t < f then 0 else (t - f) / p + 1

/-- A write of CKP_CFG: only while IDLE; EN = 1 is checked and starts SEQ anew. -/
def ckpCfgWrite (s : State) (by' : Requester) (h : Nat) (v : W64) : State :=
  guarded s by' .ckpCfg h 0 fun s =>
    if ckState s h ≠ ckIdle ∨ !inRange .ckpCfg v then denied s by'
    else if bit v.toNat 63 ∧ ckpConfigBad s h (bits v.toNat 59 56) then
      denied (putF s F.CKP_STAT_RESULT h ckConfig) by'
    else
      let s := setReg s .ckpCfg h 0 (storedWord .ckpCfg (reg s .ckpCfg h 0) v)
      done (if bit v.toNat 63 then
        updCkp (putF s F.CKP_STAT_SEQ h 0) h fun c => { c with ticks := instantsPast s h } else s)

/-- CKP_ENABLE (R350): a write of CKP_CFG with EN = 1. -/
def execCkpEnable (by' : Requester) (h : BitVec 1) (v : W64) (s : State) : Out :=
  .next (ckpCfgWrite s by' h.toNat (setBits v 63 63 1))

/-! Ending a checkpoint (R357). -/

/-- Event codes of source 0x03 (R388). -/
def evArrived : Nat := 1
def evDone : Nat := 2
def evFailed : Nat := 3

/-- An event of the checkpoint unit, to the host and to node software (R355, R363, R388). -/
def ckpEvent (s : State) (h code : Nat) (w : W64) : State := tellNode (raiseEvent s h evCkp code [w]) h evCkp code [w]

/-- A held or braking context dispatches again; a braked gang runs on, no replay boundary, its pacing anew (R355). -/
def resumeHeld (s : State) (l : Nat) : State :=
  let c := seqCtl s l
  let s := if c.draining = some .hold ∨ c.draining = some .brake then updSeq s l fun c => { c with draining := none } else s
  if gangState s l = gsBraked then restartPace (setGangState s l gsRunning) l else s

/-- Every context of the half that the checkpoint stopped goes on. -/
def resumeAll (s : State) (h : Nat) : State :=
  ((halfRows h).filter fun l => rowLeader s l == l).foldl resumeHeld s

/-- The trackers are disarmed, and what they held is applied. -/
def disarm (s : State) (h : Nat) : State :=
  releaseHeld (updCkp s h fun c => { c with
    armed := false, spans := [], copied := [], stashed := [], stash := [], hashes := [] }) h

/-- The eight control die hoist engines that copy in page mode (R359). -/
def copyEngines : List Nat := rangeFrom 24 8

def markEngines (s : State) (h v : Nat) : State := copyEngines.foldl (fun s e => putF s F.HOIST_STAT_CKP h v e) s

/-- A checkpoint ends without a cut, or without a manifest. -/
def ckpEnd (s : State) (h result : Nat) : State :=
  if ckState s h = ckIdle then s
  else
    let s := putF (putF s F.CKP_STAT_STATE h ckIdle) F.CKP_STAT_RESULT h result
    let s := disarm (markEngines (resumeAll s h) h 0) h
    let s := updCkp s h fun c => { c with held := [], braked := [], engPaused := false, cuts := mdrop (· < 256) c.cuts }
    ckpEvent s h evFailed (BitVec.ofNat 64 result)

/-- A job context of the half has halted while the unit brakes. (Log 100, DEDUCED). -/
def jobHalted (s : State) (h : Nat) : Bool :=
  (jobContexts s h).any fun c => bit (getF s F.ROW_CTXCTL_CHALTED c.1) c.2 ||
    (gangState s c.1 == gsHalted && getF s F.ROW_STATUS_HCTX c.1 == c.2)

/-- The unit holds or brakes contexts. (Log 104, DEDUCED). -/
def braking (s : State) (h : Nat) : Bool := ckState s h == ckHolding || ckState s h == ckBraking

/-! Triggers (R351, R353, R354). -/

/-- A checkpoint begins: its number, and the pod time of its trigger. -/
def ckpBegin (s : State) (h st t : Nat) : State :=
  let s := putF (putF s F.CKP_STAT_STATE h st) F.CKP_STAT_NEAR_EDGE h 0
  let s := setReg (putF s F.CKP_STAT_SEQ h (getF s F.CKP_STAT_SEQ h + 1)) .ckpMark h 0 0
  updCkp s h fun c => { c with held := [], braked := [], edge := false, since := t, engPaused := false }

/-- A timer or software trigger: skipped while the unit is not IDLE. -/
def ckpTrigger (s : State) (h t : Nat) : State :=
  if ckState s h = ckIdle then ckpBegin s h ckHolding t else bumpF s F.CKP_STAT_SKIPPED h

/-- CKP_TIMER_TRIGGER (R351): pod time has reached the next instant. -/
def execCkpTimerTrigger (h : BitVec 1) (s : State) : Out :=
  .next (
    let h := h.toNat
    let p := (reg s .ckpPeriod h 0).toNat
    let t := (reg s .ckpPhase h 0).toNat + (half s h).ckp.ticks * p
    if getF s F.CKP_CFG_EN h = 0 ∨ getF s F.CKP_CFG_TRIG h ≠ 1 ∨ p = 0 ∨ !halfRunning s h ∨ (podTime s h).toNat < t then s
    else ckpTrigger (updCkp s h fun c => { c with ticks := c.ticks + 1 }) h t)

/-- A write of CKP_CTL: exactly one bit. NOW triggers where triggers are enabled, ABORT ends a checkpoint before RELEASE
(R357), RELEASE resumes the contexts of an ARRIVED one and the copy begins (R355, R359). -/
def ckpCtlWrite (s : State) (by' : Requester) (h : Nat) (v : W64) : State :=
  guarded s by' .ckpCtl h 0 fun s =>
    match bits v.toNat 2 0 with
    | 1 => done (if getF s F.CKP_CFG_EN h = 1 ∧ halfRunning s h then ckpTrigger s h (podTime s h).toNat else s)
    | 2 => done (if braking s h ∨ ckState s h = ckArrived then
        ckpEnd s h (if jobHalted s h ∧ ckState s h ≠ ckArrived then ckHaltCode else ckAborted) else s)
    | 4 => done (if ckState s h = ckArrived then
        let s := updCkp (resumeAll s h) h fun c => { c with tcut := reg s .tbHall h 0 }
        markEngines (setReg (putF s F.CKP_STAT_STATE h ckCopying) .ckpProg h 0 0) h 1
      else s)
    | _ => denied s by'

/-- CKP_NOW. -/
def execCkpNow (by' : Requester) (h : BitVec 1) (s : State) : Out := .next (ckpCtlWrite s by' h.toNat 1)
/-- CKP_ABORT. -/
def execCkpAbort (by' : Requester) (h : BitVec 1) (s : State) : Out := .next (ckpCtlWrite s by' h.toNat 2)
/-- CKP_RELEASE. -/
def execCkpRelease (by' : Requester) (h : BitVec 1) (s : State) : Out := .next (ckpCtlWrite s by' h.toNat 4)

/-- CKP_HOLD (R353, R354): the first STEPMARK of a job context after the trigger. -/
def ckpHold (s : State) (h l k : Nat) : State :=
  let m := (reg s .rowMark l 0).toNat
  let t := (half s h).ckp.since
  let now := (podTime s h).toNat
  let near := within 2 now t
  let s := setReg s .ckpMark h 0 (BitVec.ofNat 64 (max (reg s .ckpMark h 0).toNat m))
  let s := if near then putF s F.CKP_STAT_NEAR_EDGE h 1 else s
  let s := updCkp s h fun c => { c with held := c.held ++ [(l, k)], edge := c.edge || near }
  updSeq s l fun c => { c with draining := some .hold }

def startBrake (s : State) (l : Nat) : State := updSeq s l fun c => { c with draining := some .brake }

/-- What the half's checkpoint unit does at a STEPMARK of leader l (R351-R353). (Log 99, DEDUCED). -/
def ckpAtMark (s : State) (l : Nat) : State :=
  let h := rowHalf l
  let k := curCtx s l
  if !(jobContexts s h).contains (l, k) then s
  else
    let m := (reg s .rowMark l 0).toNat
    let p := (reg s .ckpPeriod h 0).toNat
    let due := getF s F.CKP_CFG_EN h = 1 ∧ getF s F.CKP_CFG_TRIG h = 2 ∧ p ≠ 0 ∧ m % p = 0 ∧ m ≠ 0
    if ckState s h = ckHolding then ckpHold (if due then bumpF s F.CKP_STAT_SKIPPED h else s) h l k
    else if ckState s h = ckBraking ∧ m = (reg s .ckpTarget h 0).toNat then startBrake s l
    else if due then
      if ckState s h = ckIdle ∧ halfRunning s h then
        let s := setReg (ckpBegin s h ckBraking (podTime s h).toNat) .ckpTarget h 0 (BitVec.ofNat 64 m)
        startBrake s l
      else bumpF s F.CKP_STAT_SKIPPED h
    else s

/-- STEPMARK (R349): the mark count of the context advances, TAG is recorded, and the checkpoint unit acts. -/
def execStepmark (l : BitVec 6) (w : BitVec 56) (s : State) : Out :=
  .next (seqExec s l w mIMM32 fun s =>
    let s := updCtl s (.seq l) fun c => { c with tag := BitVec.ofNat 32 (fIMM32 w) }
    let s := (gangRows s l.toNat).foldl (fun s r => setReg s .rowMark r 0 (reg s .rowMark r 0 + 1)) s
    ckpAtMark (retire s (.seq l) 1) l.toNat)

/-- A write of CKP_TARGET (R353): the agreed count; contexts that stand at it brake in place, the others go on. -/
def ckpTargetSet (s : State) (by' : Requester) (h : Nat) (v : W64) : State :=
  guarded s by' .ckpTarget h 0 fun s =>
    if ckState s h ≠ ckHolding then denied s by'
    else
      let s := putF (setReg s .ckpTarget h 0 v) F.CKP_STAT_STATE h ckBraking
      let s := (half s h).ckp.held.foldl (fun s c =>
        if reg s .rowMark c.1 0 = v then startBrake s c.1 else resumeHeld s c.1) s
      done (updCkp s h fun c => { c with held := [] })

/-- CKP_TARGET_WRITE. -/
def execCkpTargetWrite (by' : Requester) (h : BitVec 1) (v : W64) (s : State) : Out :=
  .next (ckpTargetSet s by' h.toNat v)

/-- BRAKE (R352): the queues of a braking context have drained; the gang is BRAKED and the full save set is written to
its save area. -/
def execBrake (l : BitVec 6) (s : State) : Out :=
  .next (
    let l := l.toNat
    let c := seqCtl s l
    if rowLeader s l ≠ l ∨ gangState s l ≠ gsRunning ∨ c.draining ≠ some .brake ∨ !drained c then s
    else
      let k := curCtx s l
      let s := setGangState (thaw (updSeq s l fun c => { c with draining := none }) l) l gsBraked
      let x := savedOf s l true
      updCkp (smearArea s l k) (rowHalf l) fun c =>
        { c with braked := c.braked ++ [(l, k)], cuts := mput (4 * l + k) x c.cuts })

/-! The cut (R355-R358). -/

/-- The engine has joined, or has nothing to join with (R356). -/
def engineJoined (s : State) (h : Nat) : Bool :=
  getF s F.CKP_CFG_ENG h == 0 || (half s h).ckp.engPaused ||
    (match (half s h).solv with
      | some r => r.done.isSome
      | none => true)

def epochOpen (s : State) (h : Nat) : Bool := (List.range 16).any fun n => getF s F.HBM_REPOCH_OPEN h n == 1

/-- What a checkpoint covers: the regions, then the save areas in increasing leader and context (R355, R359). -/
def ckpSpans (s : State) (h : Nat) : List (Nat × Nat) :=
  ((ckpRegions s h).map fun r => r.2) ++ (jobContexts s h).map fun c => saveArea s c.1 c.2

/-- CKP_ARRIVED (R355, R357): every job context has braked; a gang lent to the engine joins with it (R243, R356). A halted job context, or an open epoch, ends the checkpoint. -/
def execCkpArrived (h : BitVec 1) (s : State) : Out :=
  .next (
    let h := h.toNat
    if braking s h ∧ jobHalted s h then ckpEnd s h ckHaltCode
    else if ckState s h ≠ ckBraking ∨ !(jobContexts s h).all (fun c => (half s h).ckp.braked.contains c || lent s c.1) ∨
        !engineJoined s h then s
    else if epochOpen s h then ckpEnd s h ckEpochOpen
    else
      let spans := ckpSpans s h
      let s := updCkp s h fun c => { c with armed := true, spans := spans, copied := [], stashed := [], stash := [],
                                            hashes := [] }
      ckpEvent (putF s F.CKP_STAT_STATE h ckArrived) h evArrived (reg s .ckpTarget h 0))

/-- CKP_BRAKE_TIMEOUT (R357): TMO_MS has passed since the trigger. -/
def execCkpBrakeTimeout (h : BitVec 1) (s : State) : Out :=
  .next (
    let h := h.toNat
    let late : Bool := (half s h).ckp.since + 1000000 * getF s F.CKP_CFG_TMO_MS h ≤ (podTime s h).toNat
    if braking s h ∧ late then ckpEnd s h (if jobHalted s h then ckHaltCode else ckTimeoutCode) else s)

/-! The copy (R359-R362). -/

/-- Pages covered, in the order of their shards. -/
def ckpPages (c : CkpSt) : List Nat := c.spans.flatMap fun p => rangeFrom (p.1 / 65536) (p.2 / 65536)

/-- The next page: one with a stashed slice first, else the lowest address. -/
def nextPage (c : CkpSt) : Option Nat :=
  let left := (ckpPages c).filter fun p => !c.copied.contains p
  match left.find? fun p => c.stashed.any fun q => q / 32 == p with
  | some p => some p
  | none => left.foldl (fun b p => match b with
      | some q => some (min q p)
      | none => some p) none

/-- A page as the cut holds it: stashed bytes stand before those in HBM. -/
def pageBytes (s : State) (h p : Nat) : List Byte :=
  let st := (half s h).ckp.stash
  (List.range 65536).map fun i => (mfind (65536 * p + i) st).getD (hbmByte s (65536 * p + i))

/-- The job slot under which control die hoist e sends: its own LEAT_BINDn's, if valid (R312). -/
def copySlot (s : State) (h e : Nat) : Option Nat := boundSlot s h (32 + e) 0

/-- Bytes written to a fabric address by control die hoist e; the first code. An unbound hoist sends nothing. -/
def writeFab (s : State) (h e a : Nat) (bs : List Byte) : State × BitVec 8 :=
  match copySlot s h e with
  | none => (s, ltUnbound)
  | some slot =>
    let lines := cutLines (bs.length / 64 + 2) (.fab a) bs
    lines.foldl (fun acc l =>
      let (s, c) := putFab acc.1 h slot (4480 + 32 * h + e) (locAddr l.1) l.2 .nobody
      (s, if acc.2 = 0 then c.getD 0 else acc.2)) (s, 0)

/-- Fabric address n bytes past CKP_DEST. -/
def destAddr (s : State) (h n : Nat) : Nat := ((reg s .ckpDest h 0).toNat + n) % 2 ^ 64

/-- One page to its place past CKP_DEST, by the eight hoists in turn: as a bulk row where that is a GATEWAY region (R319), else line by line.
(Log 101, DEDUCED). -/
def copyPage (s : State) (h p : Nat) : State × BitVec 8 :=
  let c := (half s h).ckp
  let n := (ckpPages c).idxOf p
  let e := 24 + n % 8
  let a := destAddr s h (65536 * n)
  if isGateway s h a then
    match copySlot s h e with
    | none => (s, ltUnbound)
    | some slot => gatewayRow s h slot (4480 + 32 * h + e) a 65536 true (.pkg (65536 * p))
        (some (pageBytes s h p)) .nobody
  else writeFab s h e a (pageBytes s h p)

/-- The page is copied and hashed; operations held for it go on. -/
def pageDone (s : State) (h p : Nat) (bs : List Byte) : State :=
  let s := updCkp s h fun c => { c with
    copied := c.copied ++ [p], hashes := mput p (Config.sha512 bs) c.hashes,
    stash := mdrop (fun a => a / 65536 == p) c.stash }
  releaseHeld (setReg s .ckpProg h 0 (reg s .ckpProg h 0 + 65536)) h

/-- CKP_PAGE_COPY (R359, R360, R362): the next page moves; `ok` is false where a leat or gateway error ended it. -/
def execCkpPageCopy (h : BitVec 1) (ok : Bool) (s : State) : Out :=
  .next (
    let h := h.toNat
    if ckState s h ≠ ckCopying then s
    else match nextPage (half s h).ckp with
      | none => s
      | some p =>
        let bs := pageBytes s h p
        let (s, c) := copyPage s h p
        if !ok ∨ c ≠ 0 then ckpEnd s h ckCopyFail else pageDone s h p bs)

/-! The manifest (R362, R363). -/

/-- Exactly n bytes: cut off, or padded with zeros. -/
def fixLen (n : Nat) (bs : List Byte) : List Byte := (bs ++ List.replicate n 0).take n

/-- DIGEST of a shard from the hashes of its pages. -/
def shardDigest (c : CkpSt) (base len : Nat) : BitVec 512 :=
  Config.sha512 ((rangeFrom (base / 65536) (len / 65536)).flatMap fun p => digestBytes ((mfind p c.hashes).getD 0))

/-- One 128-byte record. -/
def manifestRecord (s : State) (h kind idx ctx rows base len off : Nat) : List Byte :=
  let head := kind + idx * 2 ^ 8 + ctx * 2 ^ 16 + rows * 2 ^ 24 +
    getF s F.LEAT_JOB_EPOCH h (getF s F.CKP_CFG_SLOT h) * 2 ^ 32
  toBytes 8 head ++ toBytes 8 (reg s .ckpJob h 0).toNat ++ toBytes 8 (reg s .ckpTarget h 0).toNat ++
    toBytes 8 base ++ toBytes 8 len ++ toBytes 8 (destAddr s h off) ++ toBytes 16 0 ++
    digestBytes (shardDigest (half s h).ckp base len)

/-- Every record, in the order of the shards. -/
def manifestRecords (s : State) (h : Nat) : List (List Byte) :=
  let rs := (ckpRegions s h).map fun r => (0, r.1, 0, 0, r.2.1, r.2.2)
  let cs := (jobContexts s h).map fun c =>
    let a := saveArea s c.1 c.2
    (1, c.1, c.2, (gangRows s c.1).length, a.1, a.2)
  ((rs ++ cs).foldl (fun acc (kind, idx, ctx, rows, base, len) =>
    (acc.1 + len, acc.2 ++ [manifestRecord s h kind idx ctx rows base len acc.1])) (0, [])).2

def manifestHeader (s : State) (h n : Nat) : List Byte :=
  let c := (half s h).ckp
  let who := getF s F.LEAT_JOB_EPOCH h (getF s F.CKP_CFG_SLOT h) * 2 ^ 48 + myNode s h * 2 ^ 40 +
    getF s F.LEAT_CFG_POD h * 2 ^ 28 + h * 2 ^ 27 + getF s F.CKP_STAT_NEAR_EDGE h * 2 ^ 26 + c.engPaused.toNat * 2 ^ 25
  fixLen 256 (toBytes 8 (0x434B504D * 2 ^ 32 + 0x0001 * 2 ^ 16) ++ toBytes 8 (reg s .ckpJob h 0).toNat ++
    toBytes 8 (reg s .ckpTarget h 0).toNat ++ toBytes 8 (getF s F.CKP_STAT_SEQ h) ++ toBytes 8 c.tcut.toNat ++
    toBytes 8 who ++ toBytes 8 (reg s .devId 0 0).toNat ++ toBytes 8 n ++ fixLen 133 (idPub h))

/-- A signature block by half h's identity key: r, s and four zero bytes. -/
def signBlock (s : State) (h : Nat) (bs : List Byte) : List Byte × State :=
  let (k, s) := draw s h
  (fixLen 132 (Config.ecdsaSign (idPrivate h) k.toNat (Config.sha512 bs)) ++ [0, 0, 0, 0], s)

/-- The sealed cuts, by digest of their save area. -/
def sealCuts (s : State) (h : Nat) : State :=
  let c := (half s h).ckp
  let keep := (jobContexts s h).foldl (fun m p =>
    let a := saveArea s p.1 p.2
    match mfind (4 * p.1 + p.2) c.cuts with
    | some x => mput (256 + (shardDigest c a.1 a.2).toNat) x m
    | none => m) (mdrop (· < 256) c.cuts)
  updCkp s h fun c => { c with cuts := keep }

/-- CKP_SEAL (R363): every shard is copied; the signed manifest follows the last one, RESULT is OK and the unit is
IDLE. -/
def execCkpSeal (h : BitVec 1) (s : State) : Out :=
  .next (
    let h := h.toNat
    if ckState s h ≠ ckCopying ∨ (nextPage (half s h).ckp).isSome then s
    else
      let s := putF s F.CKP_STAT_STATE h ckSealing
      let recs := manifestRecords s h
      let body := manifestHeader s h recs.length ++ recs.flatten
      let (sig, s) := signBlock s h body
      let (s, c) := writeFab s h 24 (destAddr s h (65536 * (ckpPages (half s h).ckp).length)) (body ++ sig)
      if c ≠ 0 then ckpEnd s h ckCopyFail
      else
        let s := disarm (markEngines (sealCuts s h) h 0) h
        let s := updCkp s h fun c => { c with braked := [], engPaused := false }
        let s := putF (putF s F.CKP_STAT_STATE h ckIdle) F.CKP_STAT_RESULT h 0
        ckpEvent s h evDone (reg s .ckpTarget h 0))

/-! Restore (R364-R367). -/

def rsIdle : Nat := 0
def rsVerifying : Nat := 1
def rsVerified : Nat := 2
def rsCommitting : Nat := 3
def rsRestored : Nat := 4
def rsRefused : Nat := 5

def rstSignature : Nat := 0x10
def rstDigest : Nat := 0x11
def rstMixedStep : Nat := 0x12
def rstMixedJob : Nat := 0x13
def rstAgreement : Nat := 0x14
def rstLayout : Nat := 0x15
def rstStepping : Nat := 0x16
def rstFetch : Nat := 0x17
def rstNotVerified : Nat := 0x18

def rsState (s : State) (h : Nat) : Nat := getF s F.CKP_RSTAT_RSTATE h

def setRestore (s : State) (h st code bad : Nat) : State :=
  putF (putF (putF s F.CKP_RSTAT_RSTATE h st) F.CKP_RSTAT_RCODE h code) F.CKP_RSTAT_FIRST_BAD h bad

/-- Word i of the manifest header, and fields of a shard's record. -/
def headWord (hd : List Byte) (i : Nat) : Nat := ofBytes ((hd.drop (8 * i)).take 8)
def recWord (x : Shard) (i : Nat) : Nat := (x.record.getD i 0).toNat
def recKind (x : Shard) : Nat := bits (recWord x 0) 7 0
def recIndex (x : Shard) : Nat := bits (recWord x 0) 15 8
def recCtx (x : Shard) : Nat := bits (recWord x 0) 23 16
def recRows (x : Shard) : Nat := bits (recWord x 0) 31 24
def recDigest (x : Shard) : List Byte := (wordBytes x.record).drop 64

/-- DIGEST of fetched bytes (R362). -/
def bytesDigest (bs : List Byte) : BitVec 512 :=
  Config.sha512 ((List.range (ceilDiv bs.length 65536)).flatMap fun i =>
    digestBytes (Config.sha512 ((bs.drop (65536 * i)).take 65536)))

/-- The bytes are those the record names. -/
def digestOk (x : Shard) : Bool := x.bytes.length == recWord x 4 && digestBytes (bytesDigest x.bytes) == recDigest x

/-- The lowest code that applies to a shard (R364). -/
def shardCode (hd : List Byte) (sigOk : Bool) (x : Shard) : Nat :=
  if !x.fetchErr ∧ !digestOk x then rstDigest
  else if recWord x 2 ≠ headWord hd 2 then rstMixedStep
  else if recWord x 1 ≠ headWord hd 1 ∨ bits (recWord x 0) 47 32 ≠ bits (headWord hd 5) 63 48 then rstMixedJob
  else if x.fetchErr then rstFetch
  else if sigOk then 0 else rstSignature

/-- The signature of a manifest under the key it carries. -/
def manifestSigned (hd : List Byte) (shards : List Shard) (sig : List Byte) : Bool :=
  Config.ecdsaVerify ((hd.drop 64).take 133) (Config.sha512 (hd ++ shards.flatMap fun x => wordBytes x.record))
    (sig.take 132)

/-- The report of R364, at CKP_RREP. -/
def restoreReport (s : State) (h : Nat) (codes : List (Shard × Nat)) : State :=
  let bs := (codes.zipIdx).flatMap fun e => toBytes 8 (recWord e.1.1 2) ++ toBytes 8 (e.1.2 * 2 ^ 56 + e.2)
  (writeRegion s h (bs.length / 64 + 2) (reg s .ckpRrep h 0).toNat bs).1

/-- RESTORE_VERIFY_DONE (R364): signature, records and digests are checked, the report is written, and the restore is
VERIFIED or REFUSED with the first failing shard; a manifest that did not arrive whole refuses it with RST_FETCH (R368). -/
def execRestoreVerifyDone (h : BitVec 1) (header : List Byte) (shards : List Shard) (sig : List Byte) (s : State) : Out :=
  .next (
    let h := h.toNat
    if rsState s h ≠ rsVerifying then s
    else if header.length < 256 then setRestore s h rsRefused rstFetch 0
    else
      let hd := fixLen 256 header
      let ok := manifestSigned hd shards sig
      let codes := shards.map fun x => (x, shardCode hd ok x)
      let s := restoreReport s h codes
      let bad := codes.findIdx? fun e => e.2 != 0
      let good := ok && bad.isNone
      let s := updCkp s h fun c => { c with header := hd, shards := shards.map fun x => { x with bytes := [] }, verified := good }
      if good then setRestore s h rsVerified 0 0
      else
        let i := bad.getD 0
        setRestore s h rsRefused ((codes[i]?.map fun e => e.2).getD rstSignature) i)

/-- The gangs a restore's save areas need exist as recorded, every row STOPPED (R366). -/
def layoutOk (s : State) (h : Nat) (x : Shard) : Bool :=
  let l := recIndex x
  recKind x != 1 ||
    (decide (32 * h ≤ l) && decide (l < 32 * h + 32) && rowLeader s l == l && (gangRows s l).length == recRows x &&
      decide (recCtx x < 4) && bit (getF s F.ROW_CTXCTL_CVALID l) (recCtx x) && gangState s l == gsStopped && !lent s l)

/-- A write of CKP_RCTL: exactly one bit. -/
def ckpRctlWrite (s : State) (by' : Requester) (h : Nat) (v : W64) : State :=
  guarded s by' .ckpRctl h 0 fun s =>
    let c := (half s h).ckp
    let busy := rsState s h = rsVerifying ∨ rsState s h = rsCommitting
    let no (code : Nat) : State :=
      if busy then putF s F.CKP_RSTAT_RCODE h code else setRestore s h rsRefused code 0
    match bits v.toNat 63 61 with
    | 4 =>
      if busy then denied s by'
      else done (updCkp (setRestore s h rsVerifying 0 0) h fun c => { c with verified := false, header := [], shards := [] })
    | 2 =>
      done (if !c.verified ∨ rsState s h ≠ rsVerified then no rstNotVerified
        else if (reg s .ckpRstep h 0).toNat ≠ headWord c.header 2 ∨ (reg s .ckpRjob h 0).toNat ≠ headWord c.header 1 then
          no rstAgreement
        else if !c.shards.all (layoutOk s h) then no rstLayout
        else if (reg s .devId 0 0).toNat ≠ headWord c.header 6 then no rstStepping
        else setRestore s h rsCommitting 0 0)
    | 1 => done (updCkp (setRestore s h rsIdle 0 0) h fun c => { c with verified := false, header := [], shards := [] })
    | _ => denied s by'

/-- RESTORE_VERIFY. (Log 102, DEDUCED). -/
def execRestoreVerify (by' : Requester) (h : BitVec 1) (s : State) : Out :=
  .next (ckpRctlWrite s by' h.toNat (BitVec.ofNat 64 (2 ^ 63)))
/-- RESTORE_COMMIT (R365, R366). -/
def execRestoreCommit (by' : Requester) (h : BitVec 1) (s : State) : Out :=
  .next (ckpRctlWrite s by' h.toNat (BitVec.ofNat 64 (2 ^ 62)))
/-- RESTORE_CANCEL. -/
def execRestoreCancel (by' : Requester) (h : BitVec 1) (s : State) : Out :=
  .next (ckpRctlWrite s by' h.toNat (BitVec.ofNat 64 (2 ^ 61)))

/-- A save area becomes the stopped, resident context of its gang (R366): a cut this part sealed, or what its bytes
hold. (Log 103, DESIGN CHOICE). -/
def loadArea (s : State) (h : Nat) (x : Shard) : State :=
  let l := recIndex x
  let k := recCtx x
  let key := 256 + (bytesDigest x.bytes).toNat
  let sv := (mfind key (half s h).ckp.cuts).getD (Config.areaContext x.bytes)
  let s := if curCtx s l = k then s else saveAs s l true
  let s := loadSaved s l k sv
  let s := { s with saves := mdrop (· == 4 * l + k) s.saves }
  let s := putF s F.ROW_CTXCTL_CHALTED l (getF s F.ROW_CTXCTL_CHALTED l &&& (15 - 2 ^ k))
  setGangState (updSeq s l fun c => { discardQueues c with away := false, restored := true }) l gsStopped

/-- RESTORE_COMMIT_DONE (R366): the shards, fetched again, are written to SRC_BASE and checked; a mismatch leaves every
written region uninitialised; else each save area is loaded into its gang. -/
def execRestoreCommitDone (h : BitVec 1) (shards : List Shard) (s : State) : Out :=
  .next (
    let h := h.toNat
    if rsState s h ≠ rsCommitting then s
    else
      let recs := (half s h).ckp.shards
      let got := recs.zipIdx.map fun e =>
        match shards[e.2]? with
        | some y => { e.1 with bytes := y.bytes, fetchErr := y.fetchErr }
        | none => { e.1 with fetchErr := true }
      match got.findIdx? fun x => x.fetchErr || !digestOk x with
      | some i =>
        let s := got.foldl (fun s x =>
          smear s (recWord x 3) (recWord x 4)) s
        setRestore s h rsRefused (if (got[i]?.map fun x => x.fetchErr).getD true then rstFetch else rstDigest) i
      | none =>
        let s := got.foldl (fun s x => (writeRegion s h (x.bytes.length / 64 + 2) (recWord x 3) x.bytes).1) s
        let s := (got.filter fun x => recKind x == 1).foldl (fun s x => loadArea s h x) s
        updCkp (setRestore s h rsRestored 0 0) h fun c => { c with verified := false })

end Sys2Proof.Machine
end

