-- ==== Sys2Proof/Machine/Stop.lean ====
section
/-! DEFINITION. Half states (R21-R25, R424), power domains (R453-R460), resets (R478), calibration (R502, R503), trips and
regulator faults (R454, R469), FATAL stops (R416). -/

namespace Sys2Proof.Machine

/-! A half leaves RUNNING (R23, R24, R176, R341, R357). -/

/-- Gangs with rows in both halves. -/
def spanning (s : State) : List Nat :=
  (List.range 64).filter fun l => rowLeader s l == l &&
    (gangRows s l).any (fun r => r < 32) && (gangRows s l).any fun r => 32 ≤ r

/-- A gang that spans the halves halts with HALF_LEFT, whatever its contexts (R176). Every row of it shows the halt: its
leader's half may be the one that is lost. (Log 144, DEDUCED). -/
def haltLeft (s : State) (l : Nat) : State :=
  let s := setGangState (haltGang s l rcHalfLeft 0 (seqCtl s l).pc 0) l gsHalted
  (gangRows s l).foldl (fun s r =>
    putF (putF s F.ROW_STATUS_STATE r gsHalted) F.ROW_STATUS_HCODE r rcHalfLeft.toNat) s

/-- R176: a gang that spans the halves halts with HALF_LEFT, and no longer waits armed. -/
def haltSpanning (s : State) : State :=
  (spanning s).foldl (fun s l =>
    if [gsRunning, gsSwitching, gsBraked].contains (gangState s l) then haltLeft s l
    else updSeq s l fun c => { c with armed := false }) s

/-- Groups of half k that name half h of this part: ranks of the entry. -/
def ranksOf (s : State) (k h g : Nat) : List Nat :=
  (List.range (collP s k g)).filter fun r => member s k g r == selfEntry s h

/-- COLL_MEMBER_LOST in the collectives of half k that half h belongs to. -/
def loseMember (s : State) (k h : Nat) : State :=
  ((getRuns s k).filter launched).foldl (fun s r =>
    match ranksOf s k h r.group with
    | [] => s
    | m :: _ => if r.done.isSome then s else raiseNotice deliver4 s k r.group r.seq csMemberLost m) s

/-- Does the job of half k's checkpoint span half h: one of its contexts' gangs has rows there? -/
def jobSpans (s : State) (k h : Nat) : Bool :=
  (jobContexts s k).any fun c => (gangRows s c.1).any fun r => rowHalf r == h

/-- A write of the engine. One that meets an armed tracker's unstashed slice is held while the slice is stashed, then
applied (R360). (Log 135, DEDUCED). -/
def engWrite (s : State) (a : Nat) (bs : List Byte) : State :=
  hbmStore (stashFor (stashFor s a) (a + bs.length - 1)) a bs

/-- The solver run of half k stops at once with a status that no RESUME follows (R223, R241, R243): its gangs are free, and
a factorisation is marked failed in its state block (R227). -/
def endSolver (s : State) (k status : Nat) : State :=
  match (half s k).solv with
  | some r =>
    if r.done.isSome then s
    else
      let s := returnGangs s (solverGangs s k)
      let s := if r.phase = 1 then s else engWrite s (bits (r.words.getD 7 0).toNat 47 0 + 0x80) (toBytes 8 4)
      updHalf s k fun x => { x with solv := some { r with done := some (status, 0, 0), gm := none } }
  | none => s

/-- HALF_LOST. -/
def stopSolver (s : State) (k : Nat) : State := endSolver s k 0x09

def isSplit (r : SolvRun) : Bool := bit (r.words.getD 0 0).toNat 52

/-- What follows when half h is RUNNING no longer, in both halves. -/
def leaveRunning (s : State) (h : Nat) : State :=
  let k := 1 - h
  let spans := jobSpans s k h
  let s := haltSpanning s
  let s := stopSolver s h
  let s := if (half s k).solv.any isSplit then stopSolver s k else s
  let s := putF s F.SOLV_STAT_STATE h 3
  let s := ckpEnd s h ckHalfCode
  let s := if spans then ckpEnd s k ckHalfCode else s
  loseMember (loseMember s h h) k h

/-! Abrupt stops (R24). -/

/-- Who waits for something that half h held; a closing add is waited for at its epoch. -/
def waitersAt (s : State) (h : Nat) : List Waiter :=
  let x := half s h
  let e := x.epochs.flatMap fun e => (e.2.closing.map fun c => c.2.who) ++ e.2.closers.map Closer.who
  (x.adds.filter fun a => !a.closes).map Add64.who ++ x.ckp.ops.map Prod.snd ++ e

def placeHalf : Loc → Option Nat
  | .tile p _ => some (p / 2176)
  | .sram r _ => some (r / 32)
  | .pkg a => if a < hbmEnd then some (addrHalf a) else if inAperture a then some (apSlot a / 2176) else none
  | .fab _ => none

/-- Does a block in the weir come from or go to half h? -/
def weirTouches (h : Nat) (b : WeirBlk) : Bool := (b.src ++ b.dst ++ b.side.toList).any fun l => placeHalf l == some h

/-- HBM addresses of half h that a request without its answer names: held, waiting for its turn or for DONE, in the weir or at
its engine (R255). -/
def waitingAddrs (s : State) (h : Nat) : List Nat :=
  let x := half s h
  let pkg (l : Loc × Nat) : List Nat := match l.1 with
    | .pkg a => [a, a + l.2 - 1]
    | _ => []
  let held : List Nat := x.ckp.ops.flatMap fun o => (opLines o.1).map (64 * ·)
  let open' : List Nat := x.epochs.flatMap fun e => (e.2.closing.map fun c => c.2.addr) ++ e.2.closers.map Closer.addr
  (x.adds.map Add64.addr ++ held ++ open' ++ (s.weir.flatMap fun b => (blockSpans b).flatMap pkg) ++
    ((half s 0).hq ++ (half s 1).hq).flatMap fun r => (workSpans r).flatMap pkg).filter fun a =>
      decide (a < hbmEnd) && addrHalf a == h

/-- Nothing waits at half h any more, and none of its own requests at the other half. -/
def dropWaiting (s : State) (h : Nat) : State :=
  let s := updHalf { s with weir := s.weir.filter fun b => !weirTouches h b } h fun x => { x with
    adds := [], epochs := [], hq := [], ckp := { x.ckp with ops := [] } }
  updHalf s (1 - h) fun x => { x with
    ckp := { x.ckp with ops := x.ckp.ops.map fun o => if waiterHalf o.2 = h then (o.1, .nobody) else o } }

/-- Cross-half accesses that half h has not answered complete HALF_LOST at the other half's requesters (R24): none is applied
or answered otherwise after the stop. -/
def loseAccesses (s : State) (h : Nat) : State :=
  let ws := (waitersAt s h ++ (s.weir.filter (weirTouches h)).map WeirBlk.who).filter fun w => waiterHalf w != h
  answerAll (dropWaiting s h) ws stHalfLost

/-! What a half holds. -/

def ctlHalf (k : Nat) : Nat := if k < 64 then k / 32 else if k < 128 then (k - 64) / 32 else (k - 128) / 24
def progHalf (k : Nat) : Nat := if k < 128 then k / 64 else ctlHalf (k - 128)
def linkHalf (k : Nat) : Nat := if k < 128 then k / 64 else if k < 192 then k - 128 else 2

/-- The half a shared resource belongs to; none for MFP0 (R402). (Log 120, DEDUCED). -/
def ownerHalf (key : Nat) : Option Nat :=
  match key / 65536 with
  | 2 => some (key % 65536 / 32)
  | 3 => some (key % 65536 / 512)
  | 4 => some (key % 65536)
  | _ => none

/-- Addresses of half h's own blocks. -/
def ofHalf (h a : Nat) : Bool :=
  (decide (halfBase h ≤ a) && decide (a < halfBase h + 0x10000000)) ||
    (decide (blockBase .solv h ≤ a) && decide (a < blockBase .solv h + 0x20))

/-- Words of the package blocks that half h keeps. -/
def ofPackage (h a : Nat) : Bool :=
  [regAddr .devElogStat 0 h, regAddr .devUsel 0 h, regAddr .devUstat 0 h, regAddr .devUcmd 0 h, regAddr .devCal 0 h,
   regAddr .pwrBudget 0 h, regAddr .pwrMeas 0 h, regAddr .pwrStat 0 h].contains a ||
    (decide (regAddr .devElog 0 (16384 * h) ≤ a) && decide (a < regAddr .devElog 0 (16384 * h) + 0x20000))

/-- Everything half h holds outside the registers `keep` is gone: memory, cores, streams, programs, links. -/
def clearHalf (s : State) (h : Nat) (keep : Nat → Bool) : State :=
  { s with
    mg := mdrop (fun a => ofHalf h a && !keep a) s.mg
    hbm := mdrop (fun a => decide (h * 2 ^ 41 ≤ a) && decide (a < (h + 1) * 2 ^ 41)) s.hbm
    smears := s.smears.filter fun x => addrHalf x.1 != h
    cores := mdrop (fun p => p / 2176 == h) s.cores
    ctl := mdrop (fun k => ctlHalf k == h) s.ctl
    progs := mdrop (fun k => progHalf k == h) s.progs
    saves := mdrop (fun k => k / 128 == h) s.saves
    links := mdrop (fun k => linkHalf k == h) s.links
    ramp := s.ramp.filter fun n => domHalf n != some h }

/-- GEN of a half is not 0: it holds a configuration. -/
def configured (s : State) (h : Nat) : Bool := getF s F.FST_STAT_GEN h != 0

/-- Everything of half h returns to its After load value (R394, R415); the level of its reset input stays. -/
def eraseHalf (s : State) (h : Nat) : State :=
  let other := configured s (1 - h)
  let s := clearHalf s h fun _ => false
  let s := { s with
    mg := mdrop (ofPackage h) s.mg
    owners := mdrop (fun k => match ownerHalf k with
      | some j => j == h
      | none => !other) s.owners
    boots := s.boots + 1
    pins := { s.pins with faultLow := s.pins.faultLow.filter (· != h),
                          fatal := setBits (setBits s.pins.fatal h h 0) (47 + 16 * h) (32 + 16 * h) 0 } }
  setHalf s h { halfZero with
    rst := (half s h).rst, evals := (half s h).evals, units := mdrop (fun k => k / 65536 != utBridge) (half s h).units }

/-! Domains (R455-R460). -/

/-- The boot set of half h (R460), the bridges apart. -/
def bootSet (h : Nat) : List Nat :=
  [domTrust h, domTime h, domCtl h 0, domSwitch h 0, domOptic (9 * h), domOptic (9 * h + 1)]

def halfDomains (h : Nat) : List Nat := (List.range 180).filter fun n => domHalf n == some h

def domainsOff (s : State) (ns : List Nat) : State := ns.foldl (fun s n => setDomain s n false) s
def domainsOn (s : State) (ns : List Nat) : State := ns.foldl (fun s n => setDomain s n true) s

/-- A bridge without power from either half, or switched on again, holds nothing (R453, R458). -/
def clearBridge (s : State) (b : Nat) : State :=
  let base := blockBase .seam b
  let s := { s with mg := mdrop (fun a => decide (base ≤ a) && decide (a < base + 0x1000)) s.mg
                    links := mdrop (· == seamKey b) s.links
                    weir := s.weir.filter fun x => x.bridge != b }
  setUnit s utBridge b (unitDefault (unitKey utBridge b))

/-- The bridges lose power with the last half that feeds them. -/
def feedBridges (s : State) : State :=
  if domainOn s (domTrust 0) ∨ domainOn s (domTrust 1) then s
  else { clearBridge (clearBridge (domainsOff s [domSeam 0, domSeam 1]) 0) 1 with seamPause := false }

/-- The boot set of half h comes on, the bridges with it. -/
def bootSetOn (s : State) (h : Nat) : State := domainsOn s (bootSet h ++ [domSeam 0, domSeam 1])

/-- Row registers that the configuration sets: the control die rewrites them when a row comes back (R458). -/
def rowConfig (o : Nat) : Bool := o == 0x0 || (decide (0x40 ≤ o) && decide (o < 0x80)) || o == 0x110 || o == 0x118

def dropBlock (s : State) (base size : Nat) (keep : Nat → Bool) : State :=
  { s with mg := mdrop (fun a => decide (base ≤ a) && decide (a < base + size) && !keep (a - base)) s.mg }

/-- Contents of a row: its registers, its named slots, its streams and programs. -/
def clearRow (s : State) (r : Nat) : State :=
  let slots := ((List.range 64).map (slotOf s r)).filter fun p => slotRow p == r
  let s := slots.foldl (fun s p => { dropBlock s (blockBase .core p) 0x1000 (fun _ => false) with
    cores := mdrop (· == p) s.cores }) s
  let pace := storedWord .rowPace 0 (reg s .rowPace r 0)
  let s := dropBlock s (blockBase .row r) 0x80000 rowConfig
  let s := setReg s .rowPace r 0 pace
  { s with ctl := mdrop (fun k => k == r || k == 64 + r) s.ctl
           progs := mdrop (fun k => k / 2 == r && decide (k < 128) || k == 192 + r) s.progs
           saves := mdrop (fun k => k / 4 == r) s.saves }

/-- Contents of a domain that is switched off (R458). -/
def domainLose (s : State) (n : Nat) : State :=
  if n < 104 then
    if n % 13 < 8 then clearRow s (8 * (n / 13) + n % 13)
    else if n % 13 = 12 then dropBlock s (blockBase .die (n / 13)) 0x1000 fun _ => false
    else s
  else if n < 112 then
    let d := n - 104
    { s with cores := mdrop (fun p => p / 544 == d && domSlot s p == n) s.cores }
  else if n < 144 then
    let k := n - 112
    let lost (a : Nat) : Bool := match hbmWhere s a with
      | some (ch, _, _) => ch / 32 == k
      | none => false
    let s := { s with hbm := mdrop lost s.hbm }
    let s := updHalf s (k / 16) fun x => { x with baseKeys := mdrop (· == k) x.baseKeys }
    (rangeFrom (32 * k) 32).foldl (fun s ch =>
      putF (dropBlock s (blockBase .ch ch) 0x1000 fun _ => false) F.HBM_CHST_STATE ch 3) s
  else if n < 162 then
    let e := n - 144
    (List.range 8).foldl (fun s i =>
      setReg s .leatPort (e / 9) (8 * (e % 9) + i) 0) s
  else if n < 170 then
    let h := (n - 162) / 4
    let part := (n - 162) % 4
    if part = 1 ∨ part = 2 then
      let lo := 128 + 24 * h + 12 * (part - 1)
      { s with ctl := mdrop (fun k => decide (lo ≤ k) && decide (k < lo + 12)) s.ctl
               progs := mdrop (fun k => decide (128 + lo ≤ k) && decide (k < 128 + lo + 12)) s.progs }
    else if part = 3 then
      let s := dropBlock s (blockBase .solv h) 0x20 fun _ => false
      updHalf s h fun x => { x with solv := none, cancel := false }
    else s
  else if n < 174 then
    let h := (n - 170) / 2
    if (n - 170) % 2 = 1 then
      let s := dropBlock s (blockBase .coll h) 0x1000 fun _ => false
      updHalf s h fun x => { x with colls := [], collHead := 0, collTail := 0 }
    else s
  else if n < 176 then clearBridge s (n - 174)
  else s

/-- A domain is switched off (R457, R458). -/
def switchOff (s : State) (n : Nat) : State :=
  if domainOn s n then setDomain (domainLose s n) n false else { s with ramp := s.ramp.filter (· != n) }

/-- A row that is switched on stands at its PACE_OP in paced mode, at its gang's OP_MIN otherwise (R34, R42, R44). -/
def placeRow (s : State) (r : Nat) : State :=
  if paceEn s r then placePaced s r else putF s F.ROW_FANTAIL_CUR_OP r (gangLimits s (rowLeader s r)).1

/-- DOMAIN_RAMP_DONE (R458, R460): one of the eight domains that its half ramps up is on; registers hold their After load
values, channels of a stack enter TRAINING. (Log 3, DESIGN CHOICE). -/
def execDomainRampDone (n : BitVec 8) (s : State) : Out :=
  .next (
    let n := n.toNat
    let mine := s.ramp.filter fun m => domHalf m == domHalf n
    if !(mine.take 8).contains n then s
    else
      let s := setDomain { s with ramp := s.ramp.filter (· != n) } n true
      if 112 ≤ n ∧ n < 144 then
        (rangeFrom (32 * (n - 112)) 32).foldl (fun s ch => putF s F.HBM_CHST_STATE ch 3) s
      else if n < 104 ∧ n % 13 < 8 then placeRow s (8 * (n / 13) + n % 13)
      else s)

/-! Reset, power-off and boot (R424, R459, R460, R478). -/

/-- Half h boots: its boot set is on and the trust die leaves reset; STAGE is 0, REF_LOST shows the clock (R491).
(Log 117, DEDUCED). -/
def startBoot (s : State) (h : Nat) : State :=
  let s := putF s F.TB_STAT_REF_LOST h s.pins.refLost.toNat
  putF (putF s F.DEV_HALF_FATAL 0 0 h) F.DEV_HALF_STATE 0 hsBoot h

/-- An abrupt stop in which half h loses everything (R24, R478): its state is OFF. -/
def stopHalf (s : State) (h : Nat) : State :=
  let s := leaveRunning (loseAccesses s h) h
  let s := eraseHalf s h
  putF (putF s F.DEV_HALF_FATAL 0 0 h) F.DEV_HALF_STATE 0 hsOff h

/-- Half h in reset: every domain but the boot set is off, everything else is lost. -/
def holdReset (s : State) (h : Nat) : State :=
  let s := stopHalf s h
  domainsOff s ((halfDomains h).filter fun n => !(bootSet h).contains n)

/-- A half leaves reset while input is present and neither reset input holds it; from OFF its boot set comes on. -/
def leaveReset (s : State) (h : Nat) : State :=
  if s.pins.input ∧ !s.pins.rstLow ∧ !(half s h).rst then startBoot (bootSetOn s h) h else s

/-- POWER_UP (R452, R460): the boot sets of both halves come on, PWR_GOOD rises, and each half that is not held in reset
boots. -/
def execPowerUp (s : State) : Out :=
  .next (
    if s.pins.input then s
    else
      let s := { s with pins := { s.pins with input := true, pwrGood := true } }
      let s := bootSetOn (bootSetOn s 0) 1
      leaveReset (leaveReset s 0) 1)

/-- INPUT_REMOVAL (R450, R461): every domain is off and every register, store and key is lost; only what is outside the
part stays: the levels at its pins. -/
def execInputRemoval (s : State) : Out :=
  .next (
    if !s.pins.input then s
    else
      let x (y : Half) : Half := { halfZero with rst := y.rst, evals := y.evals }
      { State.reset with
        pending := s.pending, h0 := x s.h0, h1 := x s.h1,
        pins := { pinsZero with rstLow := s.pins.rstLow, refLost := s.pins.refLost, tapReset := s.pins.tapReset }, resp := .none, late := s.late, asked := s.asked,
        free := s.free, boots := s.boots + 1 })

/-- RST_N_ASSERT (R478): both halves stop abruptly. -/
def execRstNAssert (s : State) : Out :=
  .next (
    let s := { s with pins := { s.pins with rstLow := true } }
    if !s.pins.input then s
    else
      let s := holdReset (holdReset s 0) 1
      let s := clearBridge (clearBridge s 0) 1
      { s with seamPause := false, owners := [], pins := { s.pins with debugOnly := false, mfp0 := false } })

/-- RST_N_RELEASE (R478). -/
def execRstNRelease (s : State) : Out :=
  .next (
    if !s.pins.rstLow then s
    else leaveReset (leaveReset { s with pins := { s.pins with rstLow := false } } 0) 1)

/-- HALF_RESET_ASSERT (R478): HALFh_RST_N goes low. -/
def execHalfResetAssert (h : BitVec 1) (s : State) : Out :=
  .next (
    let h := h.toNat
    let s := updHalf s h fun x => { x with rst := true }
    if s.pins.input then holdReset s h else s)

/-- HALF_RESET_RELEASE (R478): RST_N wins. -/
def execHalfResetRelease (h : BitVec 1) (s : State) : Out :=
  .next (
    let h := h.toNat
    if !(half s h).rst then s else leaveReset (updHalf s h fun x => { x with rst := false }) h)

/-! DEV_HALF (R424). -/

/-- A FULL stream of either half is being committed (R427). -/
def fullCommitting (s : State) : Bool :=
  [0, 1].any fun h => getF s F.FST_STAT_STATE h == 2 && (half s h).fstKind == some 0

/-- The write that carries a command of DEV_HALF: refused while input is absent or the command is not allowed. -/
def halfCommand (s : State) (by' : Requester) (h : Nat) (ok : Bool) (f : State → State) : State :=
  guarded s by' .devHalf 0 h fun s => if ok then done (f s) else denied s by'

/-- DRAIN (R23): an orderly stop of a RUNNING half begins. (Log 74, DEDUCED). -/
def halfDrainCmd (s : State) (by' : Requester) (h : Nat) : State :=
  halfCommand s by' h (halfRunning s h && !fullCommitting s) fun s =>
    leaveRunning (setHalfState s h hsDraining) h

/-- RESET (R424): acts as HALFh_RST_N; from OFF it switches the half's domains on. (Log 119, DEDUCED). -/
def halfResetCmd (s : State) (by' : Requester) (h : Nat) : State :=
  halfCommand s by' h s.pins.input fun s => feedBridges (leaveReset (holdReset s h) h)

/-- POWER_OFF (R424): every domain of the half off. -/
def halfPowerOffCmd (s : State) (by' : Requester) (h : Nat) : State :=
  halfCommand s by' h ([hsLoaded, hsService].contains (halfState s h)) fun s =>
    feedBridges (domainsOff (stopHalf s h) (halfDomains h))

/-- HALF_DRAIN. -/
def execHalfDrain (by' : Requester) (h : BitVec 1) (s : State) : Out := .next (halfDrainCmd s by' h.toNat)
/-- HALF_RESET. -/
def execHalfReset (by' : Requester) (h : BitVec 1) (s : State) : Out := .next (halfResetCmd s by' h.toNat)
/-- HALF_POWER_OFF. -/
def execHalfPowerOff (by' : Requester) (h : BitVec 1) (s : State) : Out := .next (halfPowerOffCmd s by' h.toNat)

/-- A write of DEV_HALF: exactly one bit. -/
def devHalfWrite (s : State) (by' : Requester) (h : Nat) (v : W64) : State :=
  match bits v.toNat 2 0 with
  | 1 => halfDrainCmd s by' h
  | 2 => halfResetCmd s by' h
  | 4 => halfPowerOffCmd s by' h
  | _ => guarded s by' .devHalf 0 h fun s => denied s by'

/-- HALF_DRAIN_COMPLETE (R23): every accepted access is answered. -/
def execHalfDrainComplete (h : BitVec 1) (s : State) : Out :=
  .next (
    let h := h.toNat
    if halfState s h ≠ hsDraining ∨ !(waitersAt s h).isEmpty ∨ s.weir.any (weirTouches h) then s
    else setHalfState s h hsService)

/-! FATAL (R416, R420). -/

/-- Blocks a FATAL half still serves (R496). -/
def keptByFatal (h a : Nat) : Bool :=
  (decide (blockBase .sec h ≤ a) && decide (a < blockBase .sec h + 0x2000)) ||
    (decide (blockBase .fst h ≤ a) && decide (a < blockBase .fst h + 0x2000000)) ||
    (decide (blockBase .lom h ≤ a) && decide (a < blockBase .lom h + 0x1000)) ||
    (decide (blockBase .tb h ≤ a) && decide (a < blockBase .tb h + 0x1000)) || a == regAddr .leatCfg h 0

/-- The half stops abruptly, keeping its log, its links to the host, its trust die and its clock; FATAL, in SERVICE.
(Log 118, DEDUCED). -/
def fatalStop (s : State) (h code : Nat) : State :=
  if isFatal s h then s
  else
    let s := leaveRunning (loseAccesses s h) h
    let s := { clearHalf s h (keptByFatal h) with links := mdrop (fun k => linkHalf k == h && k != lomKey h) s.links }
    let x := half s h
    let s := setHalf s h { halfZero with
      lom := { x.lom with dmas := [], hreqs := [] }, units := x.units, seen := x.seen, sec := x.sec, tb := x.tb,
      cfg := x.cfg, evals := x.evals, rst := x.rst }
    let p := s.pins
    let first := !bit p.fatal.toNat h
    let s := { s with pins := { p with
      faultLow := if p.faultLow.contains h then p.faultLow else p.faultLow ++ [h],
      fatal := if first then setBits (setBits p.fatal h h 1) (47 + 16 * h) (32 + 16 * h) code else p.fatal } }
    let s := setHalfState (putF s F.DEV_HALF_FATAL 0 1 h) h hsService
    plainRecord s h utHalf h clFatal 0x0012 0 code

/-- A FATAL record of a unit, and the stop that follows (R414, R420). -/
def fatalRecord (s : State) (ut ui code : Nat) (addr : W64) (detail : Nat) : State :=
  let h := unitHalf ut ui
  fatalStop (plainRecord s h ut ui clFatal code addr detail) h code

/-- A trip (R469): a THERMAL_TRIP record, the abrupt stop, and every domain of the half off but control die part 0 and the
trust die; a trip on one of those two dies switches them off as well. -/
def execThermalTrip (h : BitVec 1) (utype : BitVec 8) (uindex : BitVec 16) (s : State) : Out :=
  .next (
    let h := h.toNat
    if halfState s h = hsOff then s
    else
      let s := fatalStop (plainRecord s h utype.toNat uindex.toNat clFatal 0x0011 0 0) h 0x0011
      let own := utype.toNat == utDie && ((uindex == 64 + BitVec.ofNat 16 h) || (uindex == 128 + BitVec.ofNat 16 h))
      let keep := if own then [] else [domCtl h 0, domTrust h]
      feedBridges (domainsOff { s with ramp := s.ramp.filter fun n => domHalf n != some h }
        ((halfDomains h).filter fun n => !keep.contains n)))

/-- Domains a regulator die feeds (R453), the bridges apart. -/
def fedBy (die : Nat) : List Nat :=
  let h := die / 16
  let k := die % 16
  if k < 8 then
    let d := 4 * h + k / 2
    if k % 2 = 0 then rangeFrom (13 * d) 4 ++ rangeFrom (13 * d + 8) 2
    else rangeFrom (13 * d + 4) 4 ++ rangeFrom (13 * d + 10) 3 ++ [domSpare d]
  else if k < 12 then rangeFrom (domStack (16 * h + 4 * (k - 8))) 4
  else if k = 12 then rangeFrom (domOptic (9 * h)) 5
  else if k = 13 then rangeFrom (domOptic (9 * h + 5)) 4
  else if k = 14 then rangeFrom (domCtl h 0) 4 ++ rangeFrom (domSwitch h 0) 2
  else [domTrust h, domTime h]

/-- REGULATOR_FAULT (R454): a POWER_FAULT record, its outputs off, and its half FATAL. -/
def execRegulatorFault (die : BitVec 5) (s : State) : Out :=
  .next (
    let die := die.toNat
    if !s.pins.input then s
    else
      let s := fatalRecord s utDie (256 + die) 0x0010 0 0
      let s := domainsOff { s with ramp := s.ramp.filter fun n => !(fedBy die).contains n } (fedBy die)
      if die % 16 = 15 then feedBridges s else s)

/-! Calibration (R502, R503). -/

/-- CALIBRATION_START (R502): the half's firmware has started and its domains are on; the channels train. -/
def execCalibrationStart (h : BitVec 1) (s : State) : Out :=
  .next (
    let h := h.toNat
    if halfState s h ≠ hsLoaded ∨ isFatal s h ∨ s.ramp.any (fun n => domHalf n == some h) ∨
        getF s F.DEV_CAL_STEP 0 h ≠ 0 ∨ getF s F.DEV_CAL_DONE 0 h = 1 then s
    else
      let s := putF s F.DEV_CAL_STEP 0 1 h
      (rangeFrom (512 * h) 512).foldl (fun s ch => putF s F.HBM_CHST_STATE ch 3) s)

/-- A CAL_FAIL record of a unit that is left QUARANTINED with incarnation 2. -/
def calFail (s : State) (ut ui step cause : Nat) : State :=
  let s := plainRecord s (logHalf s ut ui) ut ui clLasting 0x0008 0 (step * 2 ^ 24 + cause * 2 ^ 16)
  updUnit s ut ui fun u => { u with st := 3, back := 3, inc := 2, trans := [], pending := false, causes := [] }

/-- Every tile memory of half h holds 0 (R508). -/
def zeroTiles (s : State) (h : Nat) : State :=
  (s.cores.filter fun e => unitHalf utSlot e.1 == h).foldl (fun s e => setCore s e.1 { getCore s e.1 with tile := [] }) s

/-- CALIBRATION_DONE (R502, R503): the base dies hold the key set (R251); channels that pass end in OUT, those that fail in FENCED; every other unit that fails is
QUARANTINED; every tile memory is 0 (R508). (Log 137, DEDUCED). -/
def execCalibrationDone (h : BitVec 1) (r : CalReport) (s : State) : Out :=
  .next (
    let h := h.toNat
    if getF s F.DEV_CAL_STEP 0 h = 0 ∨ getF s F.DEV_CAL_DONE 0 h = 1 ∨ halfState s h ≠ hsLoaded ∨ isFatal s h then s
    else
      let mine (ut : Nat) (l : List Nat) : List Nat := (l.filter fun i => unitExists ut i && unitHalf ut i == h).dedup
      let bases := mine utBase r.keyLoad
      let slots := mine utSlot r.slots
      let rows := mine utRow r.rows
      let chans := r.chans.filter fun c => unitExists utChan c.1 && unitHalf utChan c.1 == h
      let bad := (chans.map Prod.fst).dedup
      let dl := mine utDlink r.dlinks
      let oes := mine utOptic r.optics
      let s := (rangeFrom (512 * h) 512).foldl (fun s ch =>
        putF s F.HBM_CHST_STATE ch (if bad.contains ch then 1 else 2)) s
      let s := r.softrep.foldl (fun s e => if unitHalf utChan e.1 = h ∧ e.1 < 1024 then
        putF s F.HBM_CHST_SOFTREP e.1 e.2 else s) s
      let s := zeroTiles (((rangeFrom (16 * h) 16).filter (!bases.contains ·)).foldl loadKey s) h
      let s := bases.foldl (fun s i => calFail s utBase i 1 0) s
      let s := rows.foldl (fun s i => calFail s utRow i 2 0) s
      let s := slots.foldl (fun s i => calFail s utSlot i 2 0) s
      let s := chans.foldl (fun s c => calFail s utChan c.1 3 (if c.2 then 1 else 0)) s
      let s := dl.foldl (fun s i => calFail s utDlink i 4 0) s
      let s := oes.foldl (fun s i => calFail s utOptic i 5 0) s
      let s := measureRates s h
      let s := putF (putF s F.DEV_CAL_SLOTS_FAILED 0 slots.length h) F.DEV_CAL_CH_FAILED 0 bad.length h
      let s := putF s F.DEV_CAL_OE_FAILED 0 ((oes.map fun i => 2 ^ (i % 9)).sum) h
      let s := putF (putF s F.DEV_CAL_DLINK_FAILED 0 dl.length h) F.DEV_CAL_ROWS_FAILED 0 rows.length h
      putF (putF s F.DEV_CAL_DONE 0 1 h) F.DEV_CAL_STEP 0 5 h)

end Sys2Proof.Machine
end

