-- ==== Sys2Proof/Machine/Lom.lean ====
section
/-! DEFINITION. The Lomly link (spec/15): ports, forwarding and the end of a session, events, DMA queues. Sessions form in
Sec, management reads and writes in LinkCmd. -/

namespace Sys2Proof.Machine

def updLom (s : State) (h : Nat) (f : LomSt → LomSt) : State := updHalf s h fun x => { x with lom := f x.lom }
def getLom (s : State) (h : Nat) : LomSt := (half s h).lom

/-! Ports (R370, R371, R390, R391). -/

def portF (p : Nat) : Fld := if p = 0 then F.LOM_STAT_P0_STATE else F.LOM_STAT_P1_STATE
def lomPort (s : State) (h p : Nat) : Nat := getF s (portF p) h
def lomActive (s : State) (h : Nat) : Nat := getF s F.LOM_STAT_ACTIVE h

/-- The link is up while its active port is UP. -/
def lomUp (s : State) (h : Nat) : Bool := lomPort s h (lomActive s h) == 2

/-- The link carries sealed traffic: it is up with a session (2 established, 3 rekeying). -/
def lomLive (s : State) (h : Nat) : Bool := lomUp s h && decide (2 ≤ getF s F.LOM_STAT_SSTATE h)

/-- The optical engine of a port: OE0 and OE1, or OE8 while it replaces OE0 (R370, R419). -/
def lomEngine (s : State) (h p : Nat) : Nat := 9 * h + if p = 0 ∧ (half s h).cfg.oesub = 0 then 8 else p

/-- R391: a half whose link is down sends its events over the other half's link, and stops when its own returns. -/
def forwardCheck (s : State) (h : Nat) : State :=
  let fwd (s : State) (b : Bool) : State := updLom s h fun l => { l with fwd := b }
  let on := (getLom s h).fwd
  if on then
    if lomUp s h then fwd (raiseEvent s h evLink 5 []) false
    else if getF s F.LOM_CFG_EVFWD h = 0 then fwd s false
    else s
  else if !lomUp s h ∧ lomUp s (1 - h) ∧ getF s F.LOM_CFG_EVFWD h = 1 ∧ halfState s h ≠ hsOff then
    raiseEvent (fwd s true) h evLink 4 []
  else s

def forwardBoth (s : State) : State := forwardCheck (forwardCheck s 0) 1

/-- A management response that was not sent: its transaction is lost (R390). (Log 106, DEDUCED). -/
def lostMrsp (p : LomPkt) : LomPkt :=
  if p.ptype = 2 then { p with status := lomLinkLost, data := 0 } else p

/-- A response or record packet of the part (R381). -/
def lomPkt (ptype : Nat) (queue tag : Nat) (status : BitVec 8) (data aux : W64) (body : List W64) : LomPkt :=
  { addr := 0, ptype := BitVec.ofNat 4 ptype, queue := BitVec.ofNat 4 queue, tag := BitVec.ofNat 16 tag,
    status := status, lines := BitVec.ofNat 2 (body.length / 8), rlinesm1 := 0, data := data, aux := aux, body := body }

/-- STATE of a queue shows whether it holds descriptors (0 off, 1 idle, 2 active). -/
def queueState (s : State) (h q : Nat) : State :=
  let v := if getF s F.LOM_QCTL_EN h q = 0 then 0
    else if (getLom s h).dmas.any fun d => d.q == q then 2 else 1
  putF s F.LOM_QCTL_STATE h v q

/-- A completion record (R386). -/
def dcpl (s : State) (h : Nat) (q : Nat) (tag : Nat) (status moved : Nat) : State :=
  lomSend s h 1 (lomPkt 4 q 0 0 (BitVec.ofNat 64 (status * 2 ^ 56 + q * 2 ^ 52 + tag)) (BitVec.ofNat 64 moved) [])

def dmaTag (d : Dma) : Nat := bits (d.words.getD 0 0).toNat 31 0
/-- (Log 108, DEDUCED). -/
def dmaFence (d : Dma) : Bool := bit (d.words.getD 0 0).toNat 62
def dmaAfter (d : Dma) : Bool := bit (d.words.getD 0 0).toNat 61
def dmaLen (d : Dma) : Nat := bits (d.words.getD 3 0).toNat 33 0

/-- A descriptor leaves with its status: the record, DONE and ERR of its queue (R386). -/
def dmaLeave (s : State) (h : Nat) (d : Dma) (status : Nat) : State :=
  let s := updLom s h fun l => { l with
    dmas := l.dmas.filter fun e => e.id != d.id
    hreqs := l.hreqs.filter fun r => r.dma != d.id
    fenced := if status = 0 ∨ l.fenced.contains d.q then l.fenced else l.fenced ++ [d.q] }
  let s := bumpF s F.LOM_QCTL_DONE h 1 d.q
  let s := if status = 0 then s else putF s F.LOM_QCTL_ERR h 1 d.q
  queueState (dcpl s h d.q (dmaTag d) status d.moved) h d.q

/-- R392: EN := 0 takes effect once no started descriptor of the queue is left. -/
def queueOff (s : State) (h q : Nat) : State :=
  let mine := (getLom s h).dmas.filter fun d => d.q == q
  if !(getLom s h).stopping.contains q ∨ mine.any (fun d => d.started) then s
  else
    let s := mine.foldl (fun s d => dmaLeave s h d lomQueueOff.toNat) s
    let s := updLom s h fun l => { l with stopping := l.stopping.filter (· != q), fenced := l.fenced.filter (· != q) }
    queueState (putF s F.LOM_QCTL_EN h 0 q) h q

/-- The started descriptors are lost with the port (R390); what their lines met first stands. -/
def loseStarted (s : State) (h : Nat) : State :=
  let s := ((getLom s h).dmas.filter fun d => d.started).foldl (fun s d =>
    dmaLeave s h d (if d.err = 0 then lomLinkLost.toNat else d.err)) s
  (List.range 16).foldl (fun s q => queueOff s h q) s

/-- Requests for host memory of descriptors that are lost no longer wait for a credit. -/
def dropHostReqs (s : State) (h : Nat) : State :=
  updLink s (lomKey h) fun x => { x with
    waitL := (x.waitL.filter fun e => !([5, 7].contains e.2.ptype.toNat)).map fun e => (e.1, lostMrsp e.2) }

def resendEvents (s : State) (h : Nat) : State :=
  updLom s h fun l => { l with events := l.events.map fun e => { e with sent := false } }

/-- The session ends: its keys are erased, its flits are gone; completion records and lost responses wait for the next
one (R374, R389, R440). -/
def endSession (s : State) (h : Nat) : State :=
  let x := getLink s (lomKey h)
  let kept := ((x.unacked.flatMap fun f => f.lpkts.map fun p => (f.vc.toNat, p)) ++ x.waitL).filter fun e =>
    [2, 4].contains e.2.ptype.toNat
  let s := setLink s (lomKey h) { linkZero with waitL := kept.map fun e => (e.1, lostMrsp e.2) }
  let s := updLom s h fun l => { l with hs := none, keys := none, oldKeys := none }
  let s := putF (putF (putF s F.LOM_STAT_SSTATE h 0) F.LOM_STAT_SESSION h 0) F.LOM_STAT_PROFILE h 0
  resendEvents s h

/-- What a change of the active port costs (R390). -/
def loseTraffic (s : State) (h : Nat) : State := dropHostReqs (loseStarted s h) h

/-- The active port goes DOWN: the link switches to the other port if that is UP, and keeps the session; otherwise the
link is down (R390). -/
def activeDown (s : State) (h : Nat) : State :=
  let p := lomActive s h
  let s := putF s (portF p) h 0
  if lomPort s h (1 - p) = 2 then
    let s := putF s F.LOM_STAT_ACTIVE h (1 - p)
    let s := putF s F.LOM_STAT_DELAY h ((getLom s h).delays.getD (1 - p) 0)
    let s := resendEvents (loseTraffic (bumpF s F.LOM_CNT_PORTSW h) h) h
    raiseEvent s h evLink 2 []
  else forwardBoth (endSession (loseTraffic s h) h)

/-- A port goes DOWN. -/
def portGone (s : State) (h p : Nat) : State :=
  if lomPort s h p ≠ 2 then s
  else if p = lomActive s h then activeDown s h
  else putF s (portF p) h 0

/-- The loss of an UP port is a LINK_DEGRADED error of its engine (R371, R413). -/
def portLost (s : State) (h p : Nat) : State :=
  if lomPort s h p ≠ 2 then s
  else detectUncorrected (portGone s h p) utOptic (lomEngine s h p) 0x0005 0 (64 + p)

/-- LOMLY_PORT_DOWN (R371). -/
def execLomlyPortDown (h : BitVec 1) (p : BitVec 1) (s : State) : Out := .next (portLost s h.toNat p.toNat)

/-- An uncorrectable codeword at the active port, which goes DOWN with the 17th in 1 ms (R371). -/
def lomBadWord (s : State) (h : Nat) : State :=
  let now := (podTime s h).toNat
  let l := (getLom s h).bad.filter (fun t => decide (now < t + 1000000)) ++ [now]
  if 16 < l.length then portLost (updLom s h fun x => { x with bad := [] }) h (lomActive s h)
  else updLom s h fun x => { x with bad := l }

/-- LOMLY_PORT_UP (R371, R491): a port longer than 100 ns stays DOWN, a LINK_TRAIN record once the half is configured
(R413). The first port to come up is the active one. -/
def execLomlyPortUp (h : BitVec 1) (p : BitVec 1) (delayNs : BitVec 8) (s : State) : Out :=
  .next (
    let h := h.toNat
    let p := p.toNat
    let e := lomEngine s h p
    if halfState s h = hsOff ∨ s.pins.refLost ∨ 2 ≤ lomPort s h p ∨ !domainOn s (domOptic e) ∨ (getUnit s utOptic e).st = 3 then s
    else if 100 < delayNs.toNat then
      let s := putF s (portF p) h 0
      if configured s h then plainRecord s h utOptic e clLasting 0x000F 0 (64 + p) else s
    else
      let first := !lomUp s h
      let s := putF s (portF p) h 2
      let s := updLom s h fun l => { l with delays := l.delays.set p delayNs.toNat }
      if first then
        forwardBoth (putF (putF s F.LOM_STAT_ACTIVE h p) F.LOM_STAT_DELAY h delayNs.toNat)
      else s)

/-! Events (R387-R389). -/

/-- Words of an event record (R388). -/
def eventWords (e : Event) : List W64 :=
  let w := [BitVec.ofNat 64 (e.src + e.half * 2 ^ 8 + e.code * 2 ^ 16), e.stamp] ++ e.payload
  (w ++ List.replicate 8 0).take 8

/-- EVENT_SEND (R389): the oldest event not sent, on a VC2 credit; a half in BOOT sends boot status only, the events of
its state and its link (R379). -/
def execEventSend (h : BitVec 1) (s : State) : Out :=
  .next (
    let h := h.toNat
    let ok (e : Event) : Bool := !e.sent && (halfState s h != hsBoot || [evHalf, evLink].contains e.src)
    if !lomLive s h ∨ (getLink s (lomKey h)).cr.getD 2 0 = 0 then s
    else match (getLom s h).events.find? ok with
      | none => s
      | some e =>
        let s := updLom s h fun l => { l with
          events := l.events.map fun x => if x.seq = e.seq then { x with sent := true } else x }
        lomSend s h 2 (lomPkt 9 0 0 0 0 (BitVec.ofNat 64 e.seq) (eventWords e)))

/-- EVACK (R389): events up to EVSEQ are received; the count of those discarded follows when space returns. -/
def evackApply (s : State) (h : Nat) (evseq : BitVec 32) : State :=
  let s := updLom s h fun l => { l with
    events := l.events.filter fun e => decide (2 ^ 31 ≤ (evseq.toNat + 2 ^ 32 - e.seq) % 2 ^ 32) }
  let l := getLom s h
  if l.evLost = 0 ∨ 4096 ≤ l.events.length ∨ !bit (getF s F.LOM_CFG_EVMASK h) evLostSrc then s
  else
    let q := (l.evSeq + 1) % 2 ^ 32
    updLom s h fun l => { l with
      evSeq := q, evLost := 0,
      events := l.events ++ [⟨q, evLostSrc, h, 0, reg s .tbHall h 0, [BitVec.ofNat 64 (l.evLost % 2 ^ 32)], false⟩] }

def execEvack (h : BitVec 1) (evseq : BitVec 32) (s : State) : Out :=
  .next (if lomLive s h.toNat then evackApply s h.toNat evseq else s)

/-- The source under which a doorbell interrupt stands among the events of node software; R388 numbers none.
 -/
def evDoorbell : Nat := 0

/-- A host write of LOM_HDBn (R387): it raises an interrupt to node software. (Log 160, DESIGN CHOICE). -/
def hdbWrite (s : State) (by' : Requester) (h n : Nat) (v : W64) : State :=
  guarded s by' .lomHdb h n fun s =>
    match by' with
    | .host _ => done (tellNode (setReg s .lomHdb h n (reg s .lomHdb h n ||| v)) h evDoorbell n [v])
    | _ => done s

/-- HOST_DOORBELL_WRITE (R387). -/
def execHostDoorbellWrite (h : BitVec 1) (n : BitVec 6) (v : W64) (s : State) : Out :=
  .next (hdbWrite s (.host h) h.toNat n.toNat v)

/-- A write of LOM_EVPOST (R388). -/
def evpostWrite (s : State) (by' : Requester) (h : Nat) (v : W64) : State :=
  guarded s by' .lomEvpost h 0 fun s => done (raiseEvent s h evPost 0 [v])

/-- NODE_POST_EVENT (R388). -/
def execNodePostEvent (h : BitVec 1) (v : W64) (s : State) : Out := .next (evpostWrite s (.node h) h.toNat v)

/-! DMA queues (R383-R386, R392). -/

/-- Host requests the link keeps outstanding. (Log 107, DEDUCED). -/
def hostReqMax : Nat := 1024

def running (l : LomSt) : List Dma := l.dmas.filter fun d => d.started

/-- Queues with a unit to issue. -/
def dueQueues (l : LomSt) : List Nat :=
  (List.range 16).filter fun q => (running l).any fun d => d.q == q && decide (d.issued < dmaLen d)

/-- The queue of the next 4 KiB unit: weighted round-robin in increasing queue number (R383). -/
def nextTurn (s : State) (h : Nat) : Option (Nat × Nat) :=
  let l := getLom s h
  let due := dueQueues l
  let (q, n) := l.turn
  if due.contains q ∧ n < getF s F.LOM_QCTL_WEIGHT h q then some (q, n + 1)
  else match due.find? (q < ·) with
    | some r => some (r, 1)
    | none => due.head?.map fun r => (r, 1)

def hostReq (s : State) (h : Nat) (d : Dma) (read : Bool) (paddr haddr lines : Nat) (body : List W64) : State :=
  let tag := (getLom s h).nextTag
  let s := updLom s h fun l => { l with
    nextTag := (tag + 1) % 65536, hreqs := l.hreqs ++ [⟨tag, d.id, read, paddr, haddr, lines⟩] }
  let p := lomPkt (if read then 5 else 7) d.q tag 0 0 0 body
  lomSend s h 0 { p with addr := BitVec.ofNat 64 haddr, rlinesm1 := if read then BitVec.ofNat 6 (lines - 1) else 0 }

/-- Lines of HBM sent to the host: up to three in a packet; a line that fails is answered with its code (R385). -/
def sendLines (s : State) (h : Nat) (d : Dma) (paddr haddr n : Nat) : State :=
  let ls := (List.range n).map fun i => (64 * i, memRead s h (paddr + 64 * i) 64 (.dma h d.id))
  if ls.all fun l => l.2.1 == 0 then
    hostReq s h d false paddr haddr n (wordsOf (ls.flatMap fun l => l.2.2))
  else ls.foldl (fun s l =>
    if l.2.1 = 0 then hostReq s h d false (paddr + l.1) (haddr + l.1) 1 (wordsOf l.2.2)
    else dmaAnswer s h d.id l.2.1) s

/-- Issues one 4 KiB unit of a descriptor. -/
def issueUnit (s : State) (h : Nat) (d : Dma) : State :=
  let n := min 4096 (dmaLen d - d.issued)
  let haddr := ((d.words.getD 1 0).toNat + d.issued) % 2 ^ 64
  let paddr := bits (d.words.getD 2 0).toNat 47 0 + d.issued
  let s := updLom s h fun l => { l with
    dmas := l.dmas.map fun e => if e.id = d.id then { e with issued := e.issued + n } else e }
  if bit (d.words.getD 0 0).toNat 63 then
    (List.range (ceilDiv n 192)).foldl (fun s i =>
      sendLines s h d (paddr + 192 * i) ((haddr + 192 * i) % 2 ^ 64) (min 3 (n / 64 - 3 * i))) s
  else hostReq s h d true paddr haddr (n / 64) []

/-- Units are issued while the link has room for their requests. -/
def refill : Nat → State → Nat → State
  | 0, s, _ => s
  | k + 1, s, h =>
    if hostReqMax < (getLom s h).hreqs.length + 64 then s
    else match nextTurn s h with
      | none => s
      | some (q, n) =>
        match (running (getLom s h)).find? fun d => d.q == q && decide (d.issued < dmaLen d) with
        | none => s
        | some d =>
          if (List.range 64).any fun i => seamHeld s h (bits (d.words.getD 2 0).toNat 47 0 + d.issued + 64 * i) then s
          else refill k (issueUnit (updLom s h fun l => { l with turn := (q, n) }) h d) h

def refillAll (s : State) (h : Nat) : State := if lomLive s h then refill hostReqMax s h else s

/-- The rules of the descriptor table (R384). -/
def descLegal (w : Nat → Nat) : Bool :=
  bits (w 0) 60 32 == 0 && w 1 % 64 == 0 && bits (w 2) 63 48 == 0 && w 2 % 64 == 0 && bits (w 3) 63 34 == 0 &&
    w 3 != 0 && w 3 % 64 == 0 && w 4 % 8 == 0 && w 6 == 0 && w 7 == 0

/-- DESC (R383): a descriptor joins its queue, which holds 64; a queue that is off and the boot profile refuse it. -/
def descApply (s : State) (h q : Nat) (line : List W64) : State :=
  let tag := bits (line.getD 0 0).toNat 31 0
  if halfState s h = hsBoot then dcpl s h q tag lomBootOnly.toNat 0
  else if getF s F.LOM_QCTL_EN h q = 0 then dcpl s h q tag lomQueueOff.toNat 0
  else if 64 ≤ ((getLom s h).dmas.filter fun d => d.q == q && !d.started).length then s
  else
    queueState (updLom s h fun l => { l with
      nextId := l.nextId + 1
      dmas := l.dmas ++ [⟨l.nextId, q, line, false, 0, 0, 0, bits (line.getD 3 0).toNat 33 0 / 64⟩] }) h q

def execDesc (h : BitVec 1) (q : BitVec 4) (line : List W64) (s : State) : Out :=
  .next (if lomLive s h.toNat then descApply s h.toNat q.toNat line else s)

/-- DMA_DESCRIPTOR_START (R383-R386): the next held descriptor of the queue, unless the link runs eight, FENCE waits, or
the queue is being switched off. One that is refused completes at once. -/
def execDmaDescriptorStart (h : BitVec 1) (q : BitVec 4) (s : State) : Out :=
  .next (
    let h := h.toNat
    let q := q.toNat
    let l := getLom s h
    match l.dmas.find? fun d => d.q == q && !d.started with
    | none => refillAll s h
    | some d =>
      let w (i : Nat) : Nat := (d.words.getD i 0).toNat
      if !lomLive s h ∨ l.stopping.contains q ∨ 8 ≤ (running l).length ∨
          (dmaFence d ∧ (running l).any fun e => e.q == q) then refillAll s h
      else if dmaFence d ∧ l.fenced.contains q then dmaLeave s h d lomFenceErr.toNat
      else if !descLegal w then dmaLeave s h d lomBadDesc.toNat
      else if !regionInHbm s (w 2) (w 3) then dmaLeave s h d lomBadAddr.toNat
      else refillAll (updLom s h fun l => { l with
        dmas := l.dmas.map fun e => if e.id = d.id then { e with started := true } else e }) h)

/-- HRSP (R385): lines for an outstanding HRD are written to HBM in address order. -/
def hrspApply (s : State) (h : Nat) (tag : Nat) (lines : List W64) : State :=
  match (getLom s h).hreqs.find? fun r => r.tag == tag && r.read with
  | none => s
  | some r =>
    let n := min (lines.length / 8) r.lines
    let step (e : HostReq) : HostReq :=
      if e.tag = tag then { e with paddr := e.paddr + 64 * n, haddr := e.haddr + 64 * n, lines := e.lines - n } else e
    let s := updLom s h fun l => { l with hreqs := (l.hreqs.map step).filter fun e => e.lines != 0 }
    let s := (List.range n).foldl (fun s i =>
      finishW (memWrite s h (r.paddr + 64 * i) (wordBytes ((lines.drop (8 * i)).take 8)) (.dma h r.dma)) (.dma h r.dma)) s
    refillAll s h

def execHrsp (h : BitVec 1) (tag : BitVec 16) (lines : List W64) (s : State) : Out :=
  .next (if lomLive s h.toNat then hrspApply s h.toNat tag.toNat lines else s)

/-- A host request ends with a code for each of its lines. -/
def hostReqEnd (s : State) (h : Nat) (r : HostReq) (code : BitVec 8) : State :=
  let s := updLom s h fun l => { l with hreqs := l.hreqs.filter (·.tag != r.tag) }
  refillAll ((List.range r.lines).foldl (fun s _ => dmaAnswer s h r.dma code) s) h

/-- HWACK (R385). -/
def hwackApply (s : State) (h tag : Nat) : State :=
  match (getLom s h).hreqs.find? fun r => r.tag == tag && !r.read with
  | none => s
  | some r => hostReqEnd s h r 0

def execHwack (h : BitVec 1) (tag : BitVec 16) (s : State) : Out :=
  .next (if lomLive s h.toNat then hwackApply s h.toNat tag.toNat else s)

/-- LOMLY_DMA_TIMEOUT (R385): no answer within TMO. -/
def execLomlyDmaTimeout (h : BitVec 1) (tag : BitVec 16) (s : State) : Out :=
  .next (
    match (getLom s h.toNat).hreqs.find? fun r => r.tag == tag.toNat with
    | none => s
    | some r => hostReqEnd s h.toNat r lomTimeout)

/-- A write of LOM_QCTLn (R392): EN := 0 waits for the started descriptors. -/
def qctlWrite (s : State) (by' : Requester) (h q : Nat) (v : W64) : State :=
  guarded s by' .lomQctl h q fun s =>
    if !inRange .lomQctl v then denied s by'
    else
      let was := getF s F.LOM_QCTL_EN h q
      let s := setReg s .lomQctl h q (storedWord .lomQctl (reg s .lomQctl h q) v)
      if bit v.toNat 63 then
        done (queueState (updLom s h fun l => { l with stopping := l.stopping.filter (· != q) }) h q)
      else if was = 0 then done s
      else
        let s := putF s F.LOM_QCTL_EN h 1 q
        done (queueOff (updLom s h fun l => { l with
          stopping := if l.stopping.contains q then l.stopping else l.stopping ++ [q] }) h q)

/-- LOM_QUEUE_DISABLE (R392). -/
def execLomQueueDisable (by' : Requester) (h : BitVec 1) (q : BitVec 4) (v : W64) (s : State) : Out :=
  .next (qctlWrite s by' h.toNat q.toNat (setBits v 63 63 0))

/-- A write of LOM_CFG: EVFWD may start or end forwarding (R391). -/
def lomCfgWrite (s : State) (by' : Requester) (h : Nat) (v : W64) : State :=
  guarded s by' .lomCfg h 0 fun s =>
    if inRange .lomCfg v then
      done (forwardCheck (setReg s .lomCfg h 0 (storedWord .lomCfg (reg s .lomCfg h 0) v)) h)
    else denied s by'

end Sys2Proof.Machine
end

