-- ==== Sys2Proof/Machine/Msl.lean ====
section
/-! DEFINITION. MSL, the sliced FP64 sequence (R82-R87, R107-R112, R155). -/

namespace Sys2Proof.Machine

/-- The descriptor of R155. -/
structure MslDesc where
  s : Nat
  full : Bool
  inpl : Bool
  m : Nat
  n : Nat
  k : Nat
  aLine : Nat
  aStride : Nat
  bLine : Nat
  bStride : Nat
  asLine : Nat
  bsLine : Nat
  wLine : Nat
  dLine : Nat
  scLine : Nat
deriving DecidableEq, Repr

def mslDesc (d : List W64) : MslDesc :=
  let a := dw d 0
  let b := dw d 1
  let c := dw d 2
  ⟨bits a 63 60, bit a 59, bit a 58, bits a 57 50 + 1, bits a 49 43 + 1, bits a 42 27 + 1, bits b 63 50, bits b 49 36,
   bits b 35 22, bits b 21 8, bits c 63 50, bits c 49 36, bits c 35 22, bits c 21 8, bits (dw d 3) 63 50⟩

/-- Does a region an MSL writes meet one it reads (R168)? Its workspace it reads after writing it, and D may lie over that
(R109). -/
def mslOverlap (x : MslDesc) : Bool :=
  let a : Rect := ⟨x.aLine * 64, x.m, x.aStride * 64, 8 * x.k⟩
  let b : Rect := ⟨x.bLine * 64, x.k, x.bStride * 64, 8 * x.n⟩
  let as : Rect := ⟨x.asLine * 64, 1, 0, x.m * x.k * x.s⟩
  let bs : Rect := ⟨x.bsLine * 64, 1, 0, x.k * x.n * x.s⟩
  let out : List Rect := [⟨x.wLine * 64, 1, 0, x.m * x.n * 32⟩, ⟨x.dLine * 64, 1, 0, x.m * x.n * 8⟩, ⟨x.scLine * 64, 1, 0, 8⟩]
  !x.inpl && (anyMeet out [a, b, as, bs] || anyMeet [as] [a, b, bs] || anyMeet [bs] [a, b])

/-- The check of an MSL (R107, R155, R156, R168). -/
def mslCheck (d : List W64) : Option (BitVec 8) :=
  let x := mslDesc d
  if x.s < 6 ∨ 10 < x.s ∨ bits (dw d 0) 26 0 ≠ 0 ∨ bits (dw d 1) 7 0 ≠ 0 ∨ bits (dw d 2) 7 0 ≠ 0 ∨
      bits (dw d 3) 49 0 ≠ 0 then some rcBadField
  else if x.inpl ∧ 8 < x.s then some rcParam
  else if !tileFits (x.aLine * 64) x.m (x.aStride * 64) (8 * x.k) ∨ !tileFits (x.bLine * 64) x.k (x.bStride * 64) (8 * x.n) ∨
      (!x.inpl ∧ (!tileFits (x.asLine * 64) 1 0 (x.m * x.k * x.s) ∨ !tileFits (x.bsLine * 64) 1 0 (x.k * x.n * x.s))) ∨
      !tileFits (x.wLine * 64) 1 0 (x.m * x.n * 32) ∨ !tileFits (x.dLine * 64) 1 0 (x.m * x.n * 8) ∨
      !tileFits (x.scLine * 64) 1 0 8 then some rcTileBounds
  else if mslOverlap x then some rcOverlap
  else none

/-! Slices (R82). -/

/-- Exponent of a nonzero finite element; a subnormal counts with −1022. -/
def f64Exp : Num → Option Int
  | .fin _ m e => if m = 0 then none else some (max (-1022) (magExp m e))
  | _ => none

def isFinite : Num → Bool
  | .fin .. => true
  | _ => false

/-- e_max of a row of A or column of B; none when every element is zero. -/
def vecExp (xs : List Num) : Option Int :=
  xs.foldl (fun a x => match f64Exp x, a with
    | some e, some b => some (max e b)
    | some e, none => some e
    | none, a => a) none

/-- The 7s-bit truncation of an element of a vector with exponent e_max, and its sign. -/
def truncated (s : Nat) (emax : Int) : Num → Bool × Nat
  | .fin n m e =>
    let k := e + 7 * s - emax - 1
    (n, if 0 ≤ k then m * 2 ^ k.toNat else m / 2 ^ (-k).toNat)
  | _ => (false, 0)

/-- Slice i (1 … s) of an element. -/
def slice (s : Nat) (emax : Int) (i : Nat) (x : Num) : Int :=
  let t := truncated s emax x
  let d : Int := (t.2 / 2 ^ (7 * (s - i)) % 128 : Nat)
  if t.1 then -d else d

/-- Exponent of |x| − |x′| rounded up to a power of two; none when nothing was lost (R110). -/
def lossExp (s : Nat) (emax : Int) : Num → Option Int
  | .fin _ m e =>
    let k := e + 7 * s - emax - 1
    if 0 ≤ k then none
    else
      let r := m % 2 ^ (-k).toNat
      if r = 0 then none
      else some ((Nat.log2 r : Nat) + e + (if r = 2 ^ Nat.log2 r then 0 else 1))
  | _ => none

/-- The slice pairs (R83) in pass order (R107). -/
def mslPairs (s : Nat) (full : Bool) : List (Nat × Nat) :=
  (rangeFrom 2 (if full then 2 * s - 1 else s)).flatMap fun l =>
    ((rangeFrom 1 s).filter fun i => decide (i < l) && decide (l - i ≤ s)).map fun i => (i, l - i)

/-- The integer I of an output (R84). -/
def mslSum (s : Nat) (pairs : List (Nat × Nat)) (ea eb : Int) (xs ys : List Num) : Int :=
  pairs.foldl (fun acc p =>
    let t := (xs.zip ys).foldl (fun (a : Int) z => a + slice s ea p.1 z.1 * slice s eb p.2 z.2) 0
    acc + t * 2 ^ (7 * (2 * s - p.1 - p.2))) 0

/-- An output (R61, R84, R87): FP64 pattern and flags. -/
def mslOut (s : Nat) (pairs : List (Nat × Nat)) (xs ys : List Num) : Nat × Fl :=
  if !(xs.all isFinite && ys.all isFinite) then (fF64.defaultNan, flIf (xs.any Num.isSnan || ys.any Num.isSnan) flInvalid)
  else match vecExp xs, vecExp ys with
    | some ea, some eb =>
      let i := mslSum s pairs ea eb xs ys
      fF64.round .nearest false (.fin (decide (i < 0)) i.natAbs (ea + eb + 2 - 14 * s))
    | _, _ => (0, flNone)

/-! The sidecar (R110). -/

/-- The larger of two optional exponents. -/
def maxExp (a b : Option Int) : Option Int :=
  match a, b with
  | some x, some y => some (max x y)
  | some x, none => some x
  | none, b => b

/-- Largest loss and spread over the finite vectors of an operand. -/
def mslLoss (s : Nat) (vs : List (List Num)) : Option Int × Nat :=
  vs.foldl (fun acc xs =>
    match (if xs.all isFinite then vecExp xs else none) with
    | none => acc
    | some e =>
      let lo := xs.foldl (fun (a : Int) x => match f64Exp x with
        | some y => min a y
        | none => a) e
      (xs.foldl (fun a x => maxExp a (lossExp s e x)) acc.1, max acc.2 (min 255 (e - lo).toNat))) (none, 0)

def expField (e : Option Int) : Nat :=
  match e with
  | none => 0x8000
  | some e => (e % 65536).toNat

def sidecar (s : Nat) (rows cols : List (List Num)) : Nat :=
  let a := mslLoss s rows
  let b := mslLoss s cols
  let bad := !((rows ++ cols).all fun v => v.all isFinite)
  expField a.1 * 2 ^ 48 + expField b.1 * 2 ^ 32 + a.2 * 2 ^ 24 + b.2 * 2 ^ 16 +
    (if a.1.isNone && b.1.isNone then 2 else 0) + (if bad then 1 else 0)

/-! Step count (R111). -/

/-- Passes of level l. -/
def levelPasses (x : MslDesc) (l : Nat) : Nat :=
  ((mslPairs x.s x.full).filter fun p => p.1 + p.2 == l).length * ceilDiv x.k 128

/-- Exposed fold steps times 2,048: each fold with the passes that follow it; the last chain is left to the final
sweep. -/
def foldExposed (x : MslDesc) : Nat :=
  let top := if x.full then 2 * x.s else x.s + 1
  let share := 2048 - 128 - 9 * x.n
  let follows := (rangeFrom 2 (top - 1)).flatMap fun l =>
    let p := levelPasses x l
    ((List.range ((p - 1) / 128)).map fun i => p - 128 * (i + 1)) ++ (if l = top then [] else [levelPasses x (l + 1)])
  (follows.zipIdx.map fun (n, j) => ((if j = 0 then 28 * x.n else 52 * x.n) - share * n) * x.m).foldl (· + ·) 0

/-- Steps of the scan and of the cut of an operand of r vectors (T_prep). -/
def scanSteps (x : MslDesc) (r : Nat) : Nat := ceilDiv (r * x.k) 128
def cutSteps (x : MslDesc) (r : Nat) : Nat := ceilDiv (r * x.k * (8 + x.s)) 2048
def prepSteps (x : MslDesc) : Nat := scanSteps x x.m + cutSteps x x.m + (scanSteps x x.n + cutSteps x x.n)

/-- Passes of a sequence, P. -/
def mslPasses (x : MslDesc) : Nat := (mslPairs x.s x.full).length * ceilDiv x.k 128

/-- Steps of the sequence (R111): the exposures of all folds add up before the sum is rounded up to whole steps.
(Log 155, DESIGN CHOICE). -/
def mslSteps (x : MslDesc) : Nat :=
  prepSteps x + 128 + mslPasses x * max x.m 128 + 264 + ceilDiv (foldExposed x) 2048 + ceilDiv (36 * x.n * x.m) 2048

/-- The last load start and the last swap of a sequence begun at step t (R94, R107): each pass but the first loads while the
one before it streams. -/
def mslLoads (x : MslDesc) (t : Nat) : Nat × Nat :=
  let first := t + prepSteps x + 128 + ceilDiv (foldExposed x) 2048
  let n := max x.m 128
  (if mslPasses x ≤ 1 then t + prepSteps x else first + (mslPasses x - 2) * n, first + (mslPasses x - 1) * n)

/-- The sequence's use of tile memory (R98, R111): 16 lines a step in the scan, every bank in the cut and the final sweep,
128 + 9 N bytes a step in the passes. -/
def mslUses (x : MslDesc) (t : Nat) : List TileUse :=
  let scan := scanSteps x x.m + scanSteps x x.n
  let sweep := ceilDiv (36 * x.n * x.m) 2048
  [⟨t, scan, x.aLine, 16⟩, ⟨t + scan, prepSteps x - scan, 0, 32⟩,
   ⟨t + prepSteps x + 128, mslPasses x * max x.m 128, x.wLine, ceilDiv (128 + 9 * x.n) 64⟩,
   ⟨t + (mslSteps x - sweep), sweep, 0, 32⟩]

/-! The sequence on one core. -/

/-- Slice i of every element of a vector; a vector that is all zero, or holds a NaN or an infinity, has zeros (R82, R87).
 -/
def sliceVec (s i : Nat) (xs : List Num) : List Int :=
  match (if xs.all isFinite then vecExp xs else none) with
  | some e => xs.map (slice s e i)
  | none => xs.map fun _ => 0

def byteOf (v : Int) : Byte := BitVec.ofInt 8 v

/-- The slice planes the cut writes (R82, R107): s planes of INT8 for each operand, a plane row-major as its operand is; with
INPL the planes of a row, or of a row of B, take the first s bytes of each element's eight in its row, plane by plane.
 -/
def writeSlices (t : Map Byte) (x : MslDesc) (rows cols : List (List Num)) : Map Byte :=
  (rangeFrom 1 x.s).foldl (fun t i =>
    let t := rows.zipIdx.foldl (fun t r =>
      wrBytes t (if x.inpl then (x.aLine + r.2 * x.aStride) * 64 + (i - 1) * x.k
        else x.asLine * 64 + ((i - 1) * x.m + r.2) * x.k) ((sliceVec x.s i r.1).map byteOf)) t
    let bs := cols.map (sliceVec x.s i)
    (List.range x.k).foldl (fun t k =>
      wrBytes t (if x.inpl then (x.bLine + k * x.bStride) * 64 + (i - 1) * x.n
        else x.bsLine * 64 + ((i - 1) * x.k + k) * x.n) (bs.map fun b => byteOf (b.getD k 0))) t) t

/-- The passes of level l in order (R107). -/
def passesOf (x : MslDesc) (l : Nat) : List ((Nat × Nat) × Nat) :=
  ((mslPairs x.s x.full).filter fun p => p.1 + p.2 == l).flatMap fun p => (List.range (ceilDiv x.k 128)).map fun kt => (p, kt)

/-- What a list of passes adds to an output's column chain (R83, R108). -/
def chainOf (s : Nat) (xs ys : List Num) (ps : List ((Nat × Nat) × Nat)) : Int :=
  ps.foldl (fun a p =>
    let u := (sliceVec s p.1.1 xs).zip (sliceVec s p.1.2 ys)
    ((u.drop (128 * p.2)).take 128).foldl (fun a z => a + z.1 * z.2) a) 0

/-- The chain a level leaves in its psum buffer: the passes since its last fold by the 128-pass limit (R108). -/
def lastChain (x : MslDesc) (xs ys : List Num) (l : Nat) : Int :=
  let ps := passesOf x l
  chainOf x.s xs ys (ps.drop (128 * ((ps.length - 1) / 128)))

/-- The 192-bit integer I in the workspace as the final sweep finds it: every fold but the last chain (R84, R108, R109). -/
def foldedI (x : MslDesc) (xs ys : List Num) : Int :=
  let top := if x.full then 2 * x.s else x.s + 1
  (rangeFrom 2 (top - 1)).foldl (fun a l =>
    a + (chainOf x.s xs ys (passesOf x l) - (if l = top then lastChain x xs ys l else 0)) * 2 ^ (7 * (2 * x.s - l))) 0

/-- The workspace (R108): I of every output, 24 bytes each, then the two psum buffers of 4 bytes an output, a level's buffer
the one of its parity, all row-major. -/
def writeWorkspace (t : Map Byte) (x : MslDesc) (rows cols : List (List Num)) : Map Byte :=
  let w := x.wLine * 64
  let top := if x.full then 2 * x.s else x.s + 1
  rows.zipIdx.foldl (fun t r => cols.zipIdx.foldl (fun t c =>
    let j := r.2 * x.n + c.2
    let psum (l : Nat) := toBytes 4 (lastChain x r.1 c.1 l % 2 ^ 32).toNat
    let t := wrBytes t (w + 24 * j) (toBytes 24 (foldedI x r.1 c.1 % 2 ^ 192).toNat)
    let t := wrBytes t (w + 24 * x.m * x.n + 4 * (top % 2 * x.m * x.n + j)) (psum top)
    wrBytes t (w + 24 * x.m * x.n + 4 * ((top + 1) % 2 * x.m * x.n + j)) (psum (top - 1))) t) t

/-- The weight plane of slice j of K-tile kt of B. -/
def slicePlane (s : Nat) (cols : List (List Num)) (k j kt : Nat) : Plane :=
  let kv := min 128 (k - 128 * kt) - 1
  let w := placeMap kv (cols.length - 1) fun kk n => (byteOf ((sliceVec s j (cols.getD n [])).getD (128 * kt + kk) 0)).toNat
  ⟨true, 0x7, kv, cols.length - 1, false, 0, w, []⟩

/-- The loads of a sequence, in order, as (slice, tile). -/
def sliceLoads (x : MslDesc) : List (Nat × Nat) :=
  (mslPairs x.s x.full).flatMap fun p => (List.range (ceilDiv x.k 128)).map fun kt => (p.2, kt)

/-- The whole sequence on a core (R107-R110): exponents, slice planes, workspace, D, sidecar, the weight planes left. A vector
that is all zero or not finite leaves its entry of the exponent file as it was. (Log 46, DESIGN CHOICE). -/
def mslCore (c : CoreSt) (x : MslDesc) : CoreSt × Fl :=
  let rows := (List.range x.m).map fun m => (List.range x.k).map fun k =>
    f64Num (BitVec.ofNat 64 (rdElem c.tile ((x.aLine + m * x.aStride) * 64) 64 k))
  let cols := (List.range x.n).map fun n => (List.range x.k).map fun k =>
    f64Num (BitVec.ofNat 64 (rdElem c.tile ((x.bLine + k * x.bStride) * 64) 64 n))
  let expo (base : Nat) (vs : List (List Num)) (m : Map Int) : Map Int :=
    vs.zipIdx.foldl (fun m v => match (if v.1.all isFinite then vecExp v.1 else none) with
      | some e => mset zInt (base + v.2) e m
      | none => m) m
  let t := writeWorkspace (writeSlices c.tile x rows cols) x rows cols
  let pairs := mslPairs x.s x.full
  let outs := rows.map fun r => cols.map fun y => mslOut x.s pairs r y
  let t := outs.zipIdx.foldl (fun t r => r.1.zipIdx.foldl (fun t y =>
    wrElem t (x.dLine * 64 + 8 * x.n * r.2) 64 y.2 y.1.1) t) t
  let sc := sidecar x.s rows cols
  let t := wrBytes t (x.scLine * 64) (toBytes 8 sc)
  let loads := sliceLoads x
  let planeAt (i : Nat) : Plane := match loads[i]? with
    | some (j, kt) => slicePlane x.s cols x.k j kt
    | none => c.active
  let fl := outs.foldl (fun a r => r.foldl (fun a y => flJoin a y.2) a) (flIf (sc % 2 == 1) flNonfinite)
  ({ c with tile := t, active := planeAt (loads.length - 1), shadow := planeAt (loads.length - 2),
            msl := expo 256 cols (expo 0 rows c.msl) }, fl)

/-- MSL (R107, R111, R112): the whole sequence, issued as one instruction once the issue slot is free, every earlier row has
entered the tailrace and a load under way is complete. (Log 155, DESIGN CHOICE). -/
def execMsl (l : BitVec 6) (s : State) : Out :=
  let ln := l.toNat
  let now := stepNow s ln
  .next (mIssue s l opMsl (fun _ e => mslCheck e.ps)
    (fun c _ => decide (c.arr.slot ≤ now) && decide (c.arr.rows ≤ now) && (c.arr.mlw.all fun t => decide (t + 128 ≤ now)))
    (fun s e =>
      let x := mslDesc e.ps
      let t := mslSteps x
      let s := (gangCores s ln).foldl (fun s p =>
        let slot := slotOf s p.1 p.2
        let r := mslCore (getCore s slot) x
        addFlags (setCore s slot r.1) slot r.2) s
      let s := setArr (addUses s ln now (mslUses x now)) ln fun a => { a with
        mlw := some (mslLoads x now).1, msw := some (mslLoads x now).2, slot := now + t, rows := now + t, run := none,
        own := [], uses := arrUses a }
      launch s (.seq l) e 1 (now + t - 1) 0 0))

end Sys2Proof.Machine
end

