-- ==== Sys2Proof/Machine/SolvMath.lean ====
section
/-! DEFINITION. The solver engine's descriptors, storage and arithmetic (R217-R232). -/

namespace Sys2Proof.Machine

/-! Statuses (R241). -/

def svOk : Nat := 0x00
def svIterLimit : Nat := 0x01
def svStagnated : Nat := 0x02
def svDeadlineIter : Nat := 0x03
def svDeadlineFactor : Nat := 0x04
def svNonfinite : Nat := 0x05
def svBadDescriptor : Nat := 0x06
def svBadStructure : Nat := 0x07
def svGang : Nat := 0x08
def svHalfLost : Nat := 0x09
def svMemory : Nat := 0x0A
def svCancelled : Nat := 0x0B
def svMismatch : Nat := 0x0C
def svOverflow : Nat := 0x0D
def svUpdateFault : Nat := 0x0E
def svNotFactored : Nat := 0x0F

/-! The descriptor (R217). -/

/-- A descriptor's fields; `chol` and `lu` tell the factorisation it makes or continues. -/
structure SolvDesc where
  op : Nat
  chol : Bool
  bsr : Bool
  f32 : Bool
  s : Nat
  full : Bool
  split : Bool
  refine : Nat
  pw : Nat
  tag : Nat
  nt : Nat
  nrhs : Nat
  tau : Nat
  maxit : Nat
  restart : Nat
  gang : Nat
  a : Nat
  aorig : Nat
  piv : Nat
  b : Nat
  x : Nat
  work : Nat
  deadline : Nat
  rtol : W64
  anorm : W64
  rowptr : Nat
  colidx : Nat
  nnzb : Nat
  x0 : Nat
deriving DecidableEq, Repr

/-- The fields of 16 words; `fop` is the OP of the factorisation (R238, R239). -/
def solvDesc (ws : List W64) (fop : Nat) : SolvDesc :=
  let w (i : Nat) : Nat := (ws.getD i 0).toNat
  let ad (i : Nat) : Nat := bits (w i) 47 0
  let orD (v d : Nat) : Nat := if v = 0 then d else v
  { op := bits (w 0) 63 60, chol := fop == 2, bsr := bit (w 0) 59, f32 := bit (w 0) 58, s := orD (bits (w 0) 57 54) 8,
    full := bit (w 0) 53, split := bit (w 0) 52, refine := bits (w 0) 51 50,
    pw := if bit (w 0) 59 || bit (w 0) 49 then 128 else 256, tag := bits (w 0) 31 0,
    nt := bits (w 1) 63 51, nrhs := bits (w 1) 50 45 + 1, tau := orD (bits (w 1) 44 39) 40, maxit := bits (w 1) 38 31,
    restart := bits (w 1) 30 26 + 1, gang := bits (w 1) 25 20, a := ad 2, aorig := ad 3, piv := ad 4, b := ad 5, x := ad 6,
    work := ad 7, deadline := w 8, rtol := ws.getD 9 0, anorm := ws.getD 10 0, rowptr := ad 11, colidx := ad 12,
    nnzb := bits (w 13) 31 0, x0 := ad 14 }

def SolvDesc.n (d : SolvDesc) : Nat := 128 * d.nt

/-- Bytes of an element of A (R218). -/
def SolvDesc.ba (d : SolvDesc) : Nat := if d.f32 then 4 else 8

/-- Panels, and the columns of panel k; the last may be narrower. -/
def SolvDesc.panels (d : SolvDesc) : Nat := ceilDiv d.n d.pw
def SolvDesc.cols (d : SolvDesc) (k : Nat) : List Nat := rangeFrom (k * d.pw) (min d.pw (d.n - k * d.pw))

/-- Columns of a SPLIT matrix in half hh (R220). -/
def SolvDesc.colsIn (d : SolvDesc) (hh : Nat) : Nat :=
  ((List.range d.panels).filter fun k => k % 2 == hh).foldl (fun n k => n + (d.cols k).length) 0

def splitStep : Nat := 2 ^ 41

/-- A matrix region at `base` with elements of bw bytes: the parts of its word. -/
def SolvDesc.matrix (d : SolvDesc) (word base bw : Nat) : List (Nat × Nat × Nat) :=
  if d.bsr then [(word, base, d.nnzb * 16384 * bw)]
  else if d.split then
    [(word, base, d.colsIn 0 * d.n * bw), (word, base + splitStep, d.colsIn 1 * d.n * bw)]
  else [(word, base, d.n * d.n * bw)]

/-- Bytes of WORK (R218). -/
def SolvDesc.workBytes (d : SolvDesc) : Nat :=
  let q := if d.refine = 0 then 0 else if d.refine = 1 then 2 else d.restart + 4
  65536 + d.n * d.pw * 8 + q * d.n * d.nrhs * 8

/-- The regions of a descriptor (R218): word, base, bytes. -/
def SolvDesc.regions (d : SolvDesc) : List (Nat × Nat × Nat) :=
  let vec := d.n * d.nrhs * 8
  d.matrix 2 d.a d.ba ++ (if d.aorig = 0 then [] else d.matrix 3 d.aorig 8) ++
    (if d.chol then [] else [(4, d.piv, d.n * 4)]) ++
    (if d.b = 0 then [] else [(5, d.b, vec), (6, d.x, vec)]) ++ [(7, d.work, d.workBytes)] ++
    (if d.bsr then [(11, d.rowptr, (d.nt + 1) * 4), (12, d.colidx, d.nnzb * 4)] else []) ++
    (if d.b = 0 ∨ d.x0 = 0 then [] else [(14, d.x0, vec)])

/-- A region lies in one half's HBM (R219). -/
def inOneHalf (s : State) (hh a n : Nat) : Bool :=
  addrHalf a == hh && (n == 0 || (addrHalf (a + n - 1) == hh && regionInHbm s a n))

/-- May two regions overlap (R219)? -/
def mayOverlap (i j : Nat) : Bool := [(5, 6), (6, 5), (6, 14), (14, 6)].contains (i, j)

/-- Is word k of a descriptor of engine h at fault (R219)? An overlap is the later word's. -/
def solvBadWord (s : State) (h : Nat) (ws : List W64) (d : SolvDesc) (k : Nat) : Bool :=
  let w := (ws.getD k 0).toNat
  let own : Bool := match k with
    | 0 => !([1, 2, 3, 4].contains d.op) || !([6, 7, 8, 9, 10].contains d.s) || d.refine == 3 || bits w 48 32 != 0 ||
        (d.split && d.bsr)
    | 1 => d.nt == 0 || decide (4096 < d.nt) || bits w 19 0 != 0 || ((d.maxit == 0) != (d.refine == 0))
    | 2 => bits w 63 48 != 0 || d.a % 65536 != 0
    | 3 => bits w 63 48 != 0 || (d.aorig == 0 && (d.refine != 0 || d.f32))
    | 7 => bits w 63 48 != 0 || d.work % 65536 != 0
    | 4 | 5 | 6 | 11 | 12 | 14 => bits w 63 48 != 0
    | 10 => match f64Num d.anorm with
        | .fin n m _ => n && m != 0
        | _ => true
    | 13 => bits w 63 32 != 0
    | 15 => w != 0
    | _ => false
  let rs := d.regions
  let mine := rs.filter fun r => r.1 == k
  let pair := d.split && (k == 2 || k == 3)
  own || (mine.zipIdx.any fun r => !inOneHalf s (if pair then r.2 else h) r.1.2.1 r.1.2.2) ||
    (mine.any fun r => rs.any fun q => decide (q.1 < k) && !mayOverlap q.1 k && overlaps r.2.1 r.2.2 q.2.1 q.2.2)

/-- The first failing word. (Log 128, DEDUCED). -/
def solvCheck (s : State) (h : Nat) (ws : List W64) (d : SolvDesc) : Option Nat :=
  (List.range 16).find? (solvBadWord s h ws d)

/-- The first line of the regions that its half does not serve now. -/
def solvBadLine (s : State) (d : SolvDesc) : Option Nat :=
  d.regions.findSome? fun r =>
    ((List.range (ceilDiv r.2.2 64)).map fun i => r.2.1 + 64 * i).find? fun a => memStatus s (addrHalf a) a != 0

/-! Engine accesses. -/

def engWord (s : State) (a : Nat) (v : W64) : State := engWrite s a (toBytes 8 v.toNat)

/-! Storage (R220, R221). -/

/-- The blocks of a block row: block column and block number. -/
def bsrRow (s : State) (d : SolvDesc) (i : Nat) : List (Nat × Nat) :=
  let p := hbmNat s (d.rowptr + 4 * i) 4
  let q := hbmNat s (d.rowptr + 4 * (i + 1)) 4
  (rangeFrom p (q - p)).map fun b => (hbmNat s (d.colidx + 4 * b) 4, b)

/-- Address of tile (I, J) of a matrix at `base` with elements of bw bytes; none for one that is not stored. -/
def tileAddr (s : State) (d : SolvDesc) (base bw i j : Nat) : Option Nat :=
  if d.bsr then ((bsrRow s d i).find? fun e => e.1 == j).map fun e => base + e.2 * 16384 * bw
  else if d.chol && decide (i < j) then none
  else
    let t := d.pw / 128
    let k := j / t
    if d.split then some (base + k % 2 * splitStep + ((k / 2 * t + j % t) * d.nt + i) * 16384 * bw)
    else some (base + (j * d.nt + i) * 16384 * bw)

def tileStored (s : State) (d : SolvDesc) (i j : Nat) : Bool := (tileAddr s d d.a d.ba i j).isSome

/-- Is element (i, j) stored and used? CHOL uses the lower triangle of diagonal tiles. -/
def elemUsed (s : State) (d : SolvDesc) (i j : Nat) : Bool :=
  tileStored s d (i / 128) (j / 128) && !(d.chol && decide (i < j))

def inTile (i j : Nat) : Nat := i % 128 * 128 + j % 128

/-- An FP32 pattern widened exactly. -/
def widen (v : Nat) : W64 := (f64Op (f32Num v, flNone)).1

/-- Element (i, j) of A as FP64; 0 where nothing is stored. -/
def getA (s : State) (d : SolvDesc) (i j : Nat) : W64 :=
  match tileAddr s d d.a d.ba (i / 128) (j / 128) with
  | some t => if d.f32 then widen (hbmNat s (t + 4 * inTile i j) 4) else hbmWord s (t + 8 * inTile i j)
  | none => 0

/-- Element (i, j) of A written, rounded to FP32 with F32; whether that overflowed. -/
def putA (s : State) (d : SolvDesc) (i j : Nat) (v : W64) : State × Bool :=
  match tileAddr s d d.a d.ba (i / 128) (j / 128) with
  | some t =>
    if d.f32 then
      let r := toF32 (f64Num v)
      (engWrite s (t + 4 * inTile i j) (toBytes 4 r.1), bit r.2.bits.toNat 2)
    else (engWord s (t + 8 * inTile i j) v, false)
  | none => (s, false)

/-- Element (i, j) of the original matrix; CHOL's is symmetric. -/
def getO (s : State) (d : SolvDesc) (i j : Nat) : W64 :=
  let (i, j) := if d.chol && decide (i < j) then (j, i) else (i, j)
  match tileAddr s d d.aorig 8 (i / 128) (j / 128) with
  | some t => hbmWord s (t + 8 * inTile i j)
  | none => 0

/-- Does the original matrix hold element (i, j)? -/
def origUsed (s : State) (d : SolvDesc) (i j : Nat) : Bool :=
  if d.chol && decide (i < j) then tileStored s d (j / 128) (i / 128) else tileStored s d (i / 128) (j / 128)

/-- Row pointers, order and diagonals of a BSR matrix (R221). -/
def bsrSound (s : State) (d : SolvDesc) : Bool :=
  let p (i : Nat) : Nat := hbmNat s (d.rowptr + 4 * i) 4
  p 0 == 0 && p d.nt == d.nnzb &&
    (List.range d.nt).all fun i =>
      let cs := (bsrRow s d i).map Prod.fst
      decide (p i ≤ p (i + 1)) && decide (cs.Pairwise (· < ·)) && cs.contains i &&
        cs.all fun c => decide (c < d.nt) && !(d.chol && decide (i < c))

/-- The structure holds every block that panel step k fills in (R221). -/
def fillSound (s : State) (d : SolvDesc) (k : Nat) : Bool :=
  !d.bsr || (rangeFrom (k + 1) (d.nt - k - 1)).all fun i => !tileStored s d i k ||
    (rangeFrom (k + 1) (d.nt - k - 1)).all fun j =>
      (if d.chol then !tileStored s d j k || decide (i < j) else !tileStored s d k j) || tileStored s d i j

/-! FP64 arithmetic, one rounding an operation. -/

def magW (w : W64) : W64 := w &&& 0x7FFFFFFFFFFFFFFF
def negW (w : W64) : W64 := w ^^^ 0x8000000000000000
def finW (w : W64) : Bool := w.toNat / 2 ^ 52 % 2048 != 2047
def ovf (f : Fl) : Bool := bit f.bits.toNat 2
def addW (a b : W64) : W64 × Fl := f64Op ((f64Num a).add (f64Num b))
def mulW (a b : W64) : W64 × Fl := f64Op ((f64Num a).mul (f64Num b))
def divW (a b : W64) : W64 × Fl := f64Op ((f64Num a).div (f64Num b))
def sqrtW (a : W64) : W64 := (f64Op (f64Num a).sqrt).1
def gtW (a b : W64) : Bool := !(f64Num a).isNan && !(f64Num b).isNan && (f64Num a).cmp (f64Num b) == .gt

/-- 2 ^ e as FP64. -/
def pow2W (e : Int) : W64 := (f64Op (numPow2 e, flNone)).1

/-- c − a b, fused, and whether it overflowed. -/
def subMul (c a b : W64) : W64 × Bool :=
  let r := f64Op ((f64Num (negW a)).fma (f64Num b) (f64Num c))
  (r.1, ovf r.2)

/-- c less the products of the pairs in order, one fused multiply-add a term. -/
def subMuls (c : W64) (ps : List (W64 × W64)) : W64 × Bool :=
  ps.foldl (fun acc p =>
    let r := subMul acc.1 p.1 p.2
    (r.1, acc.2 || r.2)) (c, false)

/-- The largest magnitude; magnitudes order as their patterns. -/
def maxMag (ws : List W64) : W64 := ws.foldl (fun m w => if m.toNat < (magW w).toNat then magW w else m) 0

/-- ⌈log2⌉ of a nonzero finite magnitude. -/
def ceilLog2 (w : W64) : Int :=
  match f64Num w with
  | .fin _ m e => if m = 0 then -1074 else magExp m e + (if m = 2 ^ Nat.log2 m then 0 else 1)
  | _ => 1024

/-- The exponent of Λ (R226); none when M is 0 and nothing is limited. -/
def limitExp (pw : Nat) (mx : W64) : Option Int :=
  if mx = 0 then none else some (1021 - (Nat.log2 pw : Int) - ceilLog2 mx)

/-- The multiplier limit of R226: pivot p of a column whose largest magnitude below the diagonal is `big`. -/
def limitPivot (lam : Option Int) (p big : W64) : W64 × Bool :=
  match lam, f64Num p, f64Num big with
  | some l, .fin _ m e, .fin _ mb eb =>
    if mb ≠ 0 ∧ (Num.fin false mb eb).cmp (.fin false m (e + l)) = .gt then
      let q := pow2W (ceilLog2 big - l)
      (if bit p.toNat 63 then negW q else q, true)
    else (p, false)
  | _, _, _ => (p, false)

/-! A panel (R224, R225): its columns as lists over the panel's rows. -/

/-- The panel while it is factorised: columns, exchanges (column, chosen place), logged columns, flags of R240, and the
status that stops it (0 none). -/
structure Pan where
  cols : List (List W64)
  piv : List (Nat × Nat)
  logs : List Nat
  flags : Nat
  bad : Nat
deriving DecidableEq, Repr

def swapAt (i j : Nat) (l : List W64) : List W64 := (l.set i (l.getD j 0)).set j (l.getD i 0)

/-- The place of the largest magnitude, the lowest on ties, counted from j. -/
def argMax (j : Nat) (l : List W64) : Nat :=
  (l.zipIdx.foldl (fun (b : Nat × Nat) e =>
    if b.2 < (magW e.1).toNat then (e.2, (magW e.1).toNat) else b) (0, 0)).1 + j

/-- The pivot the engine uses (R224, R226) and what it logs: 1 SINGULAR_REGULARISED, 2 OVERFLOW_AVOIDED. -/
def usePivot (t : W64) (lam : Option Int) (p big : W64) : W64 × Nat :=
  let low := !gtW (magW p) t
  let p1 := if low then (if bit p.toNat 63 && magW p != 0 then negW t else t) else p
  let q := limitPivot lam p1 big
  (q.1, (if low then 1 else 0) + (if q.2 then 2 else 0))

/-- Column j (global c) of an LU panel; `cand` of its rows may be chosen. (Log 130, DEDUCED). -/
def luColumn (t : W64) (lam : Option Int) (cand c0 : Nat) (p : Pan) (j : Nat) : Pan :=
  if p.bad ≠ 0 then p
  else
    let cs := ((p.cols.getD j []).take cand).drop j
    if !cs.all finW then { p with bad := svNonfinite }
    else
      let i := argMax j cs
      let cols := p.cols.map (swapAt j i)
      let col := cols.getD j []
      let below := col.drop (j + 1)
      let (q, why) := usePivot t lam (col.getD j 0) (maxMag below)
      let f := below.map fun x => divW x q
      let ls := f.map Prod.fst
      let elim (y : List W64) : List (W64 × Bool) :=
        List.zipWith (fun a l => subMul a l (y.getD j 0)) (y.drop (j + 1)) ls
      let upd := cols.zipIdx.map fun e =>
        if e.2 < j then (e.1, false)
        else if e.2 = j then (e.1.take j ++ q :: ls, f.any fun x => ovf x.2)
        else
          let u := elim e.1
          (e.1.take (j + 1) ++ u.map Prod.fst, u.any Prod.snd)
      { cols := upd.map Prod.fst, piv := p.piv ++ [(j, i)],
        logs := if why = 0 then p.logs else p.logs ++ [c0 + j], flags := p.flags ||| why,
        bad := if upd.any Prod.snd then svOverflow else 0 }

/-- Column j of a CHOL panel (R225): its rows below the diagonal are those of L11, then of L21. -/
def cholColumn (t : W64) (lam : Option Int) (c0 : Nat) (p : Pan) (j : Nat) : Pan :=
  if p.bad ≠ 0 then p
  else
    let col := p.cols.getD j []
    let row (i : Nat) : List W64 := (p.cols.take j).map fun y => y.getD i 0
    let lj := row j
    let upd := (col.zipIdx.drop j).map fun e => subMuls e.1 ((row e.2).zip lj)
    let d := (upd.headD (0, false)).1
    let below := (upd.drop 1).map Prod.fst
    let over1 := upd.any Prod.snd
    if !(col.drop (j + 1)).all finW ∨ d = 0x7FF0000000000000 then { p with bad := svNonfinite }
    else
      let low := !gtW d t
      let r := limitPivot lam (sqrtW (if low then t else d)) (maxMag below)
      let f := below.map fun x => divW x r.1
      let why := (if low then 1 else 0) + (if r.2 then 2 else 0)
      { p with
        cols := p.cols.set j (col.take j ++ r.1 :: f.map Prod.fst)
        logs := if why = 0 then p.logs else p.logs ++ [c0 + j]
        flags := p.flags ||| why
        bad := if over1 || f.any (fun x => ovf x.2) then svOverflow else 0 }

/-- Global rows of the panel at column c0. -/
def panelRows (s : State) (d : SolvDesc) (c0 : Nat) : List Nat :=
  ((rangeFrom (c0 / 128) (d.nt - c0 / 128)).filter fun i => tileStored s d i (c0 / 128)).flatMap fun i =>
    rangeFrom (128 * i) 128

/-- The panel factorised (R222 step 1, and step 2 of CHOL). -/
def factorPanel (s : State) (d : SolvDesc) (t mx : W64) (cs rows : List Nat) : Pan :=
  let c0 := cs.headD 0
  let lam := limitExp d.pw mx
  let p : Pan := ⟨cs.map fun j => rows.map fun i => getA s d i j, [], [], 0, 0⟩
  (List.range cs.length).foldl
    (fun p j => if d.chol then cholColumn t lam c0 p j
      else luColumn t lam (if d.bsr then 128 else rows.length) c0 p j) p

/-- The panel stored; whether a rounding to FP32 overflowed. -/
def storePanel (s : State) (d : SolvDesc) (cs rows : List Nat) (p : Pan) : State × Bool :=
  (cs.zip p.cols).foldl (fun acc e =>
    (rows.zip e.2).foldl (fun acc x =>
      if d.chol && decide (x.1 < e.1) then acc
      else
        let r := putA acc.1 d x.1 e.1 x.2
        (r.1, acc.2 || r.2)) acc) (s, false)

/-- The panel's row exchanges on the columns outside it, and PIV. -/
def exchangeRows (s : State) (d : SolvDesc) (cs rows : List Nat) (p : Pan) : State :=
  p.piv.foldl (fun s e =>
    let r := rows.getD e.1 0
    let q := rows.getD e.2 0
    let s := engWrite s (d.piv + 4 * r) (toBytes 4 q)
    if r = q then s
    else ((List.range d.n).filter fun c => !cs.contains c && tileStored s d (r / 128) (c / 128)).foldl (fun s c =>
      let x := getA s d r c
      let y := getA s d q c
      (putA (putA s d r c y).1 d q c x).1) s) s

/-- U12 := L11⁻¹ A12 (R222, R224). -/
def upperBlock (s : State) (d : SolvDesc) (cs : List Nat) : State × Bool :=
  let c0 := cs.headD 0
  let right := rangeFrom (c0 + cs.length) (d.n - c0 - cs.length)
  (right.filter fun c => tileStored s d (c0 / 128) (c / 128)).foldl (fun acc c =>
    let us := cs.foldl (fun (u : List W64 × Bool) r =>
      let x := subMuls (getA acc.1 d r c) (((rangeFrom c0 (r - c0)).map fun t => getA acc.1 d r t).zip u.1)
      (u.1 ++ [x.1], u.2 || x.2)) ([], false)
    (cs.zip us.1).foldl (fun acc e =>
      let w := putA acc.1 d e.1 c e.2
      (w.1, acc.2 || w.2)) (acc.1, acc.2 || us.2)) (s, false)

/-- BF16 pattern of an FP64 value that FP32 holds (R228). -/
def toBf16 (w : W64) : Nat × Fl := fBF16.round .nearest false (f64Num w)

/-- One element of the trailing update (R228): the tile's value, its row of L21 and column of U12. -/
def updateElem (d : SolvDesc) (a : W64) (xs ys : List W64) : W64 × Bool :=
  if d.f32 then
    let start := (toF32 (f64Num a)).1
    let r := (xs.zip ys).foldl (fun (acc : Nat × Bool) p =>
      let x := toBf16 (negW p.1)
      let y := toBf16 p.2
      let z := f32AddNum acc.1 ((fBF16.decode x.1).mul (fBF16.decode y.1)).1
      (z.1, acc.2 || ovf x.2 || ovf y.2 || ovf z.2)) (start, false)
    (widen r.1, r.2)
  else
    let m := mslOut d.s (mslPairs d.s d.full) (xs.map f64Num) (ys.map f64Num)
    let r := addW a (negW (BitVec.ofNat 64 m.1))
    (r.1, ovf m.2 || ovf r.2)

/-- The sidecar of the sliced product of an output tile (R110, R228), with the tile's turn in its step: it goes into the
engine's own part of WORK. (Log 157, DESIGN CHOICE). -/
def tileSidecar (s : State) (d : SolvDesc) (cs : List Nat) (t : (Nat × Nat) × Nat) : State :=
  if d.f32 then s
  else
    let row (i : Nat) : List Num := cs.map fun k => f64Num (getA s d i k)
    let col (j : Nat) : List Num := cs.map fun k => f64Num (if d.chol then getA s d j k else getA s d k j)
    engWord s (d.work + 0x400 + 8 * (t.2 % 0x1F80)) (BitVec.ofNat 64
      (sidecar d.s ((rangeFrom (128 * t.1.1) 128).map row) ((rangeFrom (128 * t.1.2) 128).map col)))

/-- The trailing update of a panel step (R222 step 3): state, largest magnitude written, whether it overflowed; the sliced
path's sidecars go into WORK (R228). -/
def trailing (s : State) (d : SolvDesc) (cs : List Nat) : State × W64 × Bool :=
  let c0 := cs.headD 0
  let c1 := c0 + cs.length
  let rest := rangeFrom (c1 / 128) (d.nt - c1 / 128)
  let left := rest.filter fun i => tileStored s d i (c0 / 128)
  let top := if d.chol then left else rest.filter fun j => tileStored s d (c0 / 128) j
  let tiles := left.flatMap fun i => (top.filter fun j => !(d.chol && decide (i < j))).map fun j => (i, j)
  let elems := tiles.flatMap fun t => (rangeFrom (128 * t.1) 128).flatMap fun i =>
    ((rangeFrom (128 * t.2) 128).filter fun j => !(d.chol && decide (i < j))).map fun j => (i, j)
  elems.foldl (fun acc e =>
    let xs := cs.map fun k => getA s d e.1 k
    let ys := cs.map fun k => if d.chol then getA s d e.2 k else getA s d k e.2
    let r := updateElem d (getA s d e.1 e.2) xs ys
    let w := putA acc.1 d e.1 e.2 r.1
    (w.1, maxMag [acc.2.1, r.1], acc.2.2 || r.2 || w.2)) (tiles.zipIdx.foldl (fun s t => tileSidecar s d cs t) s, 0, false)

/-! The scan (R222). -/

/-- Every stored element's place. -/
def storedElems (s : State) (d : SolvDesc) : List (Nat × Nat) :=
  (List.range d.n).flatMap fun i => ((List.range d.n).filter fun j => elemUsed s d i j).map fun j => (i, j)

/-- Largest magnitude and whether every element is finite. -/
def scanMatrix (s : State) (d : SolvDesc) : W64 × Bool :=
  (storedElems s d).foldl (fun acc e =>
    let v := if d.f32 then getO s d e.1 e.2 else getA s d e.1 e.2
    (maxMag [acc.1, v], acc.2 && finW v)) (0, true)

/-- A := AORIG rounded to FP32. -/
def convertMatrix (s : State) (d : SolvDesc) : State :=
  (storedElems s d).foldl (fun s e => (putA s d e.1 e.2 (getO s d e.1 e.2)).1) s

/-- T (R224). -/
def threshold (d : SolvDesc) (anorm : W64) : W64 :=
  if anorm = 0 then pow2W (-(d.tau : Int)) else (mulW (pow2W (-(d.tau : Int))) anorm).1

/-! Triangular solves and residuals (R230). -/

/-- The factors applied to a vector: PIV, then L, then U. -/
def triSolve (s : State) (d : SolvDesc) (v : List W64) : List W64 :=
  let idx := List.range d.n
  let v := if d.chol then v else idx.foldl (fun v j => swapAt j (hbmNat s (d.piv + 4 * j) 4) v) v
  let y := idx.foldl (fun (y : List W64) i =>
    let ts := (List.range i).filter fun t => elemUsed s d i t
    let x := (subMuls (v.getD i 0) (ts.map fun t => (getA s d i t, y.getD t 0))).1
    y ++ [if d.chol then (divW x (getA s d i i)).1 else x]) []
  let up (i t : Nat) : W64 := if d.chol then getA s d t i else getA s d i t
  let used (i t : Nat) : Bool := if d.chol then elemUsed s d t i else elemUsed s d i t
  idx.reverse.foldl (fun (x : List W64) i =>
    let ts := (rangeFrom (i + 1) (d.n - i - 1)).filter (used i)
    let z := (subMuls (y.getD i 0) (ts.map fun t => (up i t, x.getD (t - i - 1) 0))).1
    (divW z (up i i)).1 :: x) []

/-- Column j of right-hand sides laid out as in R218. -/
def rhsCol (d : SolvDesc) (v : List W64) (j : Nat) : List W64 := (v.drop (j * d.n)).take d.n

/-- The n × NRHS words at a region. -/
def readVec (s : State) (d : SolvDesc) (a : Nat) : List W64 := hbmWords s a (d.n * d.nrhs)

def writeVec (s : State) (a : Nat) (v : List W64) : State :=
  (v.zipIdx).foldl (fun s e => engWord s (a + 8 * e.2) e.1) s

/-- Every column of v mapped. -/
def eachCol (d : SolvDesc) (f : List W64 → List W64) (v : List W64) : List W64 :=
  (List.range d.nrhs).flatMap fun j => f (rhsCol d v j)

def residualCol (s : State) (d : SolvDesc) (b x : List W64) : List W64 :=
  (List.range d.n).map fun i =>
    let ks := (List.range d.n).filter fun k => origUsed s d i k
    (subMuls (b.getD i 0) (ks.map fun k => (getO s d i k, x.getD k 0))).1

/-- ‖A‖∞ of the original matrix: row sums in increasing column order. -/
def normInfA (s : State) (d : SolvDesc) : W64 :=
  maxMag ((List.range d.n).map fun i =>
    ((List.range d.n).filter fun k => origUsed s d i k).foldl (fun a k => (addW a (magW (getO s d i k))).1) 0)

/-- ‖r‖∞ / (‖A‖∞ ‖x‖∞ + ‖b‖∞), 0 when both are 0. -/
def backErr (na : W64) (r x b : List W64) : W64 :=
  let den := (addW (mulW na (maxMag x)).1 (maxMag b)).1
  if maxMag r = 0 ∧ den = 0 then 0 else (divW (maxMag r) den).1

/-- The largest of figures that are not negative; a NaN among them is the result. -/
def maxErr (ws : List W64) : W64 :=
  match ws.find? fun w => (f64Num w).isNan with
  | some w => w
  | none => maxMag ws

/-! The GMRES procedure for one right-hand side (R232): every operation in FP64, rounded once, in increasing order; whether a
product and its sum are one operation is the engine's. -/

/-- a + b c. -/
def gmMulAdd (use : Nat) (a b c : W64) : W64 :=
  if Config.gmresFused use then (f64Op ((f64Num b).fma (f64Num c) (f64Num a))).1 else (addW a (mulW b c).1).1

/-- A dot product, from +0. -/
def gmDot (a b : List W64) : W64 := (a.zip b).foldl (fun x p => gmMulAdd 0 x p.1 p.2) 0

def norm2 (v : List W64) : W64 := sqrtW (gmDot v v)

/-- The rotation (c, s, r) that takes (a, b) to (r, 0). -/
def gmGivens (a b : W64) : W64 × W64 × W64 :=
  let r := sqrtW (gmMulAdd 2 (mulW a a).1 b b)
  if r = 0 then (pow2W 0, 0, 0) else ((divW a r).1, (divW b r).1, r)

/-- A rotation applied to a pair. -/
def gmRotate (c s x y : W64) : W64 × W64 := (gmMulAdd 2 (mulW c x).1 s y, gmMulAdd 2 (mulW c y).1 (negW s) x)

/-- A v from the original matrix: fused multiply-adds in increasing column order from +0. -/
def timesA (s : State) (d : SolvDesc) (v : List W64) : List W64 :=
  (residualCol s d (List.replicate d.n 0) (v.map negW))

/-- One inner step; the loop is over when the residual estimate is at most 2^-26 β. (Log 131, DESIGN CHOICE). -/
def gmStep (s : State) (d : SolvDesc) (beta : W64) (m : Gm) : Gm :=
  let w := triSolve s d (timesA s d (m.vs.getLastD []))
  let (hs, w) := m.vs.foldl (fun (acc : List W64 × List W64) v =>
    let h := gmDot acc.2 v
    (acc.1 ++ [h], List.zipWith (fun a b => gmMulAdd 1 a (negW h) b) acc.2 v)) ([], w)
  let hn := norm2 w
  let col := m.rots.zipIdx.foldl (fun (c : List W64) e =>
    let p := gmRotate e.1.1 e.1.2 (c.getD e.2 0) (c.getD (e.2 + 1) 0)
    (c.set e.2 p.1).set (e.2 + 1) p.2) (hs ++ [hn])
  let i := m.rots.length
  let (c, sn, r) := gmGivens (col.getD i 0) (col.getD (i + 1) 0)
  let p := gmRotate c sn (m.g.getD i 0) 0
  { vs := m.vs ++ [w.map fun x => (divW x hn).1], rots := m.rots ++ [(c, sn)], cols := m.cols ++ [col.take i ++ [r]],
    g := m.g.take i ++ [p.1, p.2], stop := !gtW (magW p.2) (mulW (pow2W (-26)) beta).1 || hn == 0 }

/-- The correction d once the inner loop is left: the small triangular system, then Σ y_i v_i in increasing i. -/
def gmSolve (d : SolvDesc) (m : Gm) : List W64 :=
  let k := m.cols.length
  let y := (List.range k).reverse.foldl (fun (y : List W64) i =>
    let t := ((rangeFrom (i + 1) (k - i - 1)).zip y).foldl (fun a e =>
      gmMulAdd 1 a (negW ((m.cols.getD e.1 []).getD i 0)) e.2) (m.g.getD i 0)
    (divW t ((m.cols.getD i []).getD i 0)).1 :: y) []
  (m.vs.zip y).foldl (fun acc e => List.zipWith (fun a v => gmMulAdd 1 a e.2 v) acc e.1) (List.replicate d.n 0)

/-- The procedure of the next right-hand side from `col` on; one whose z is zero needs no correction. -/
def gmNext (s : State) (d : SolvDesc) (res : List W64) (late : Bool) (col : Nat) : Option GmRun :=
  (rangeFrom col (d.nrhs - col)).findSome? fun j =>
    let z := triSolve s d (rhsCol d res j)
    let beta := norm2 z
    if beta = 0 then none else some ⟨j, res, beta, ⟨[z.map fun x => (divW x beta).1], [], [], [beta], false⟩, late⟩

/-- The iterate with d added to the column of right-hand side j. -/
def addCol (d : SolvDesc) (x : List W64) (j : Nat) (dx : List W64) : List W64 :=
  x.take (j * d.n) ++ List.zipWith (fun a b => (addW a b).1) (rhsCol d x j) dx ++ x.drop ((j + 1) * d.n)

end Sys2Proof.Machine
end

