-- ==== Sys2Proof/Machine/Solver.lean ====
section
/-! DEFINITION. The solver engines (spec/09): rings, starting a descriptor, panel steps, refinement, completion, the
checkpoint brake (R356). -/

namespace Sys2Proof.Machine

/-! Rings and the doorbell (R214-R216, R236). -/

def getSolv (s : State) (h : Nat) : Option SolvRun := (half s h).solv

/-- The completion ring is full (R215). -/
def cqFull (s : State) (h : Nat) : Bool :=
  decide (2 ^ getF s F.SOLV_CQ_CQ_LOG2 h ≤ ringCount (getF s F.SOLV_STAT_CQ_TAIL h) (getF s F.SOLV_DB_CQ_HEAD h))

/-- A write of SOLV_DB: both indices are set where R215 accepts them, which ends a wait for completion ring space (R216);
CANCEL reaches a running descriptor. -/
def solvDbWrite (s : State) (by' : Requester) (h : Nat) (v : W64) : State :=
  guarded s by' .solvDb h 0 fun s =>
    let tail := bits v.toNat 15 0
    let head := bits v.toNat 31 16
    if !doorbellLegal (getF s F.SOLV_SQ_SQ_LOG2 h) (getF s F.SOLV_CQ_CQ_LOG2 h) (getF s F.SOLV_DB_SQ_TAIL h)
        (getF s F.SOLV_STAT_SQ_HEAD h) (getF s F.SOLV_STAT_CQ_TAIL h) (getF s F.SOLV_DB_CQ_HEAD h) tail head then
      denied s by'
    else
      let s := putF (putF s F.SOLV_DB_SQ_TAIL h tail) F.SOLV_DB_CQ_HEAD h head
      let s := if getF s F.SOLV_STAT_STATE h = 2 ∧ !cqFull s h ∧ (getSolv s h).isNone then putF s F.SOLV_STAT_STATE h 0 else s
      done (if bit v.toNat 63 ∧ (half s h).solv.any (fun r => r.done.isNone) then
        updHalf s h fun x => { x with cancel := true } else s)

/-- SOLV_DOORBELL (R215): a write of SOLV_DB that posts descriptors. -/
def execSolvDoorbell (by' : Requester) (h : BitVec 1) (v : W64) (s : State) : Out :=
  .next (solvDbWrite s by' h.toNat v)

/-- SOLV_CQ_RELEASE (R215): a write of SOLV_DB that frees completion records. -/
def execSolvCqRelease (by' : Requester) (h : BitVec 1) (v : W64) (s : State) : Out :=
  .next (solvDbWrite s by' h.toNat v)

/-- SOLV_CANCEL (R236): CANCEL with the indices as they stand. -/
def execSolvCancel (by' : Requester) (h : BitVec 1) (s : State) : Out :=
  .next (
    let v := 2 ^ 63 + getF s F.SOLV_DB_CQ_HEAD h.toNat * 65536 + getF s F.SOLV_DB_SQ_TAIL h.toNat
    solvDbWrite s by' h.toNat (BitVec.ofNat 64 v))

/-- Both rings of engine h are empty. -/
def solvRingsEmpty (s : State) (h : Nat) : Bool :=
  getF s F.SOLV_DB_SQ_TAIL h == getF s F.SOLV_STAT_SQ_HEAD h && getF s F.SOLV_STAT_CQ_TAIL h == getF s F.SOLV_DB_CQ_HEAD h

/-- A write of SOLV_SQ or SOLV_CQ (R214): only while IDLE with both rings empty; a ring has 2^5 to 2^9 slots or none.
(Log 134, DEDUCED). -/
def solvRingWrite (s : State) (by' : Requester) (r : Reg) (h : Nat) (v : W64) : State :=
  guarded s by' r h 0 fun s =>
    let n := bits v.toNat 3 0
    if getF s F.SOLV_STAT_STATE h ≠ 0 ∨ !solvRingsEmpty s h ∨ (n ≠ 0 ∧ (n < 5 ∨ 9 < n)) then denied s by'
    else plainWrite s by' r h 0 v

/-! The state block (R227). -/

def fopOf (ws : List W64) : Nat := bits (ws.getD 0 0).toNat 63 60

/-- Kind, panels, T, M, ‖A‖max and the log written into the state block; the engine's own words say whether the scan is
done and which of SINGULAR_REGULARISED and OVERFLOW_AVOIDED are set (R227, R229). -/
def writeBlock (s : State) (d : SolvDesc) (r : SolvRun) (kind : Nat) : State :=
  let w := d.work
  let s := [(0x80, BitVec.ofNat 64 kind), (0x88, BitVec.ofNat 64 r.panel), (0x90, r.t), (0x98, r.mx), (0xA0, r.anorm),
      (0xA8, BitVec.ofNat 64 r.logCount), (0x200, if r.phase = 2 then 0 else 1), (0x208, BitVec.ofNat 64 (r.flags % 4))].foldl
    (fun s e => engWord s (w + e.1) e.2) s
  (List.range 64).foldl (fun s i => engWrite s (w + 0x100 + 4 * i) (toBytes 4 (r.logged.getD i 0))) s

def blockKind (s : State) (d : SolvDesc) : Nat := (hbmWord s (d.work + 0x80)).toNat
def blockCopy (s : State) (work : Nat) : List W64 := hbmWords s work 16

/-- The run a state block records. -/
def runOfBlock (s : State) (d : SolvDesc) (r : SolvRun) : SolvRun :=
  let w := d.work
  let n := (hbmWord s (w + 0xA8)).toNat
  { r with panel := (hbmWord s (w + 0x88)).toNat, t := hbmWord s (w + 0x90), mx := hbmWord s (w + 0x98),
           anorm := hbmWord s (w + 0xA0), logCount := n,
           logged := (List.range (min n 64)).map fun i => hbmNat s (w + 0x100 + 4 * i) 4,
           flags := (hbmWord s (w + 0x208)).toNat % 4,
           phase := if hbmWord s (w + 0x200) = 0 then 2 else 0 }

/-- Words of two descriptors agree but for the bits `skip` gives each word. (Log 133, DEDUCED). -/
def wordsMatch (ks : List Nat) (skip : Nat → W64) (a b : List W64) : Bool :=
  ks.all fun k => (a.getD k 0 ||| skip k) == (b.getD k 0 ||| skip k)

/-- R238: everything but OP, TAG, GANG and DEADLINE. -/
def resumeSkip (k : Nat) : W64 :=
  if k = 0 then 0xF0000000FFFFFFFF else if k = 1 then 0x3F00000 else if k = 8 then 0xFFFFFFFFFFFFFFFF else 0

/-- R239: OP, REFINE, MAXIT and RESTART. -/
def solveSkip (k : Nat) : W64 :=
  if k = 0 then 0xF00C000000000000 else if k = 1 then 0x7FFC000000 else 0

/-! Gangs (R223). -/

def SolvDesc.gangs (d : SolvDesc) : List Nat := if d.split then [d.gang, d.gang + 32] else [d.gang]

/-- Can the engine take the gangs the descriptor names? (Log 129, DEDUCED). -/
def gangsFree (s : State) (h : Nat) (d : SolvDesc) : Bool :=
  (!d.split || (h == 0 && decide (d.gang < 32))) &&
    d.gangs.all fun g =>
      let hh := if d.split then rowHalf g else h
      rowLeader s g == g && (gangRows s g).all (fun r => rowHalf r == hh && getF s F.ROW_IMCTL_ARMED r == 0) &&
        gangState s g == gsStopped && getF s F.ROW_CTXCTL_CVALID g == 1 && gangFit s g && !lent s g

/-! Runs. -/

def setSolv (s : State) (h : Nat) (r : SolvRun) : State :=
  putF (updHalf s h fun x => { x with solv := some r }) F.SOLV_STAT_PANEL h (r.panel % 8192)

def runDesc (r : SolvRun) : SolvDesc := solvDesc r.words r.fop

/-- The run ends with a status. -/
def endRun (r : SolvRun) (status : Nat) (detail addr : Nat := 0) : SolvRun :=
  { r with gm := none, done := some (status, detail, addr) }

/-- A run that holds its gangs ends with a status; the gangs are free (R223). -/
def endSolv (s : State) (h : Nat) (r : SolvRun) (status : Nat) (detail addr : Nat := 0) : State :=
  setSolv (returnGangs s (runDesc r).gangs) h (endRun r status detail addr)

/-- A default NaN (R235). -/
def nanW : W64 := 0x7FF8000000000000

def newRun (ws : List W64) (fop : Nat) (now : W64) : SolvRun :=
  { words := ws, phase := 2, fop := fop, panel := 0, t := 0, mx := 0, anorm := 0, logged := [], logCount := 0, flags := 0,
    start := now, iters := 0, bad := 0, rnorm := nanW, berr := nanW, normA := none, tested := false, x := [], b := [],
    gm := none, done := none }

/-- A deadline test (R233) and its NEAR_EDGE; the deadline stands before a cancel (R243). -/
def solvEdge (s : State) (h : Nat) (r : SolvRun) : SolvRun :=
  let t := (runDesc r).deadline
  if t ≠ 0 ∧ within 40 (hallTime s h) t then { r with flags := r.flags ||| 4 } else r

def solvLate (s : State) (h : Nat) (r : SolvRun) : Bool :=
  (runDesc r).deadline != 0 && decide ((runDesc r).deadline ≤ hallTime s h)

/-- The status of a stop at a test point, if there is one: `late` on a deadline, CANCELLED on a cancel. -/
def solvStop (s : State) (h : Nat) (r : SolvRun) (late : Nat) : Option Nat :=
  if solvLate s h r then some late else if (half s h).cancel then some svCancelled else none

/-- A resumable stop of a factorisation (R234, R236). -/
def stopFactor (s : State) (h : Nat) (r : SolvRun) (status : Nat) : State :=
  endSolv (writeBlock s (runDesc r) r 2) h r status

/-- A failure that cannot be resumed. -/
def failFactor (s : State) (h : Nat) (r : SolvRun) (status : Nat) (detail addr : Nat := 0) : State :=
  endSolv (writeBlock s (runDesc r) r 4) h r status detail addr

/-- The engine waits at the checkpoint brake (R356). -/
def engHeld (s : State) (h : Nat) : Bool :=
  (half s h).ckp.engPaused && [ckHolding, ckBraking, ckArrived].contains (ckState s h)

/-- A checkpoint asks the engine to join. -/
def brakeWanted (s : State) (h : Nat) : Bool :=
  getF s F.CKP_CFG_ENG h == 1 && !(half s h).ckp.engPaused && [ckHolding, ckBraking].contains (ckState s h)

def joinBrake (s : State) (h : Nat) : State := updCkp s h fun c => { c with engPaused := true }

/-! Starting (R216, R219, R222, R233, R238, R239). -/

/-- The factors are complete (kind 3): nothing more, the direct solve, or refinement. -/
def startSolve (s : State) (h : Nat) (r : SolvRun) : State :=
  let d := runDesc r
  if d.b = 0 then endSolv s h r svOk
  else if d.refine = 0 then
    let x := eachCol d (triSolve s d) (readVec s d d.b)
    endSolv (writeVec s d.x x) h r svOk
  else setSolv s h { r with phase := 1 }

/-- The scan (R222), after its deadline test. -/
def solvScan (s : State) (h : Nat) (r : SolvRun) : State :=
  let d := runDesc r
  let r := solvEdge s h r
  match solvStop s h r svDeadlineFactor with
  | some c => stopFactor s h r c
  | none =>
    let given : Bool := match f64Num d.anorm with
      | .fin _ m _ => m != 0
      | _ => false
    let m := if given then (d.anorm, true) else scanMatrix s d
    if !m.2 then failFactor s h r svNonfinite
    else
      let s := if d.f32 then convertMatrix s d else s
      let r := { r with phase := 0, anorm := m.1, mx := m.1, t := threshold d m.1 }
      setSolv (writeBlock s d r 1) h r

/-- The checks of a descriptor that stand between R219 and its work, in order: status, DETAIL, ADDR. -/
def solvRefusal (s : State) (h : Nat) (ws : List W64) (d : SolvDesc) : Option (Nat × Nat × Nat) :=
  match solvCheck s h ws d with
  | some k => some (svBadDescriptor, k, 0)
  | none =>
    let copy := blockCopy s d.work
    if d.op = 3 ∧ ¬ (blockKind s d = 3 ∧ wordsMatch [0, 1, 2, 3, 4, 10, 11, 12, 13] solveSkip ws copy) then
      some (svNotFactored, 0, 0)
    else if d.op = 4 ∧ ¬ (blockKind s d = 2 ∧ wordsMatch (List.range 16) resumeSkip ws copy) then some (svMismatch, 0, 0)
    else if d.split ∧ !halfRunning s (1 - h) then some (svHalfLost, 0, 0)
    else if !gangsFree s h d then some (svGang, 0, 0)
    else match solvBadLine s d with
      | some a => some (svMemory, 0, a)
      | none => if d.bsr ∧ !bsrSound s d then some (svBadStructure, 0, 0) else none

/-- A validated descriptor begins: the engine takes its gangs; a factorisation that resumes is factorising again (R227). -/
def solvBegin (s : State) (h : Nat) (d : SolvDesc) (r : SolvRun) : State :=
  let s := takeGangs s d.gangs
  match d.op with
  | 3 =>
    let r := solvEdge s h { runOfBlock s d r with phase := 1, flags := 0 }
    match solvStop s h r svDeadlineIter with
    | some c => endSolv s h r c
    | none => startSolve s h r
  | 4 =>
    let r := runOfBlock s d r
    let r := { r with flags := r.flags + 16 }
    let s := writeBlock s d r 1
    if r.phase = 2 then solvScan s h r else setSolv s h r
  | _ =>
    let s := smear (engWrite s d.work (wordBytes r.words)) (d.work + 0x200) (d.workBytes - 0x200)
    solvScan s h r

/-- Engine h reads the descriptor at the head of its ring, if it is one that the command starts; one with an illegal OP is
an LU command's to refuse. -/
def solverStart (s : State) (h op : Nat) : State :=
  let head := getF s F.SOLV_STAT_SQ_HEAD h
  let posted := ringCount (getF s F.SOLV_DB_SQ_TAIL h) head
  let a := getF s F.SOLV_SQ_SQ_BASE h * 4096 + head % 2 ^ getF s F.SOLV_SQ_SQ_LOG2 h * 128
  let ws := hbmWords s a 16
  let hop := fopOf ws
  if !halfRunning s h ∨ getF s F.SOLV_STAT_STATE h ≠ 0 ∨ (getSolv s h).isSome ∨ posted = 0 ∨ cqFull s h ∨
      (getUnit s utEngine h).st ≠ 0 ∨ ¬ (hop = op ∨ (op = 1 ∧ ¬ [1, 2, 3, 4].contains hop)) then s
  else
    let s := putF (putF s F.SOLV_STAT_SQ_HEAD h (head + 1)) F.SOLV_STAT_STATE h 1
    let s := updHalf s h fun x => { x with cancel := false }
    let d0 := solvDesc ws 1
    let fop := if hop = 3 ∨ hop = 4 then (if fopOf (blockCopy s d0.work) = 2 then 2 else 1) else hop
    let d := solvDesc ws fop
    let r := newRun ws fop (reg s .tbHall h 0)
    match solvRefusal s h ws d with
    | some c =>
      let r := endRun r c.1 c.2.1 c.2.2
      setSolv (if c.1 = svBadStructure ∧ d.op ≠ 3 then
        writeBlock s d (if d.op = 4 then runOfBlock s d r else r) 4 else s) h r
    | none => solvBegin s h d r

/-- SOLVER_LU (R224). -/
def execSolverLu (h : BitVec 1) (s : State) : Out := .next (solverStart s h.toNat 1)

/-- SOLVER_CHOL (R225). -/
def execSolverChol (h : BitVec 1) (s : State) : Out := .next (solverStart s h.toNat 2)

/-- SOLVER_SOLVE (R239). -/
def execSolverSolve (h : BitVec 1) (s : State) : Out := .next (solverStart s h.toNat 3)

/-- SOLVER_RESUME (R238). -/
def execSolverResume (h : BitVec 1) (s : State) : Out := .next (solverStart s h.toNat 4)

/-! Panel steps (R222-R228). -/

/-- The tiles of a step that failed hold no defined values; completed panels keep theirs. -/
def smearStep (s : State) (d : SolvDesc) (c0 : Nat) : State :=
  let ts := rangeFrom (c0 / 128) (d.nt - c0 / 128)
  ts.foldl (fun s i => ts.foldl (fun s j => match tileAddr s d d.a d.ba i j with
    | some a => smear s a (16384 * d.ba)
    | none => s) s) s

/-- One panel step (R222); the state block says that the engine is factorising (R227). (Log 132, DEDUCED). -/
def panelStep (s : State) (h : Nat) (r : SolvRun) : State :=
  let d := runDesc r
  let cs := d.cols r.panel
  let c0 := cs.headD 0
  let rows := panelRows s d c0
  let p := factorPanel s d r.t r.mx cs rows
  let r := { r with flags := r.flags ||| p.flags, logged := (r.logged ++ p.logs).take 64,
                    logCount := r.logCount + p.logs.length }
  if p.bad ≠ 0 then failFactor (smearStep s d c0) h r p.bad
  else
    let (s, o1) := storePanel s d cs rows p
    let s := if d.chol then s else exchangeRows s d cs rows p
    let (s, o2) := if d.chol then (s, false) else upperBlock s d cs
    let (s, m, o3) := trailing s d cs
    if o1 || o2 || o3 then failFactor (smearStep s d c0) h r svOverflow
    else
      let r := { r with panel := r.panel + 1, mx := maxMag [r.mx, m] }
      if d.panels ≤ r.panel then startSolve (writeBlock s d r 3) h r
      else setSolv (writeBlock s d r 1) h r

/-- SOLVER_PANEL_STEP (R222, R233, R243, R356): after the deadline test the engine joins a checkpoint that waits for it, or
runs one panel step; an update gang that halted leaves the step partly written. -/
def execSolverPanelStep (h : BitVec 1) (s : State) : Out :=
  .next (
    let h := h.toNat
    match getSolv s h with
    | none => s
    | some r =>
      let d := runDesc r
      if r.done.isSome ∨ r.phase ≠ 0 ∨ engHeld s h then s
      else
        let r := solvEdge s h r
        match solvStop s h r svDeadlineFactor with
        | some c => stopFactor s h r c
        | none =>
          if brakeWanted s h then joinBrake (setSolv (writeBlock s d r 2) h r) h
          else match d.gangs.find? fun g => gangState s g == gsHalted with
            | some g =>
              failFactor (smearStep s d ((d.cols r.panel).headD 0)) h r svUpdateFault (getF s F.ROW_STATUS_HCODE g)
            | none =>
              let s := writeBlock s d r 1
              match solvBadLine s d with
              | some a => failFactor s h r svMemory 0 a
              | none => if !fillSound s d r.panel then failFactor s h r svBadStructure else panelStep s h r)

/-! Refinement (R230-R232, R235). -/

/-- The run stops in refinement with its last iterate in X. -/
def stopRefine (s : State) (h : Nat) (r : SolvRun) (status : Nat) : State :=
  endSolv (writeVec s (runDesc r).x r.x) h r status

/-- The residuals of the iterate, in the layout of B. -/
def solvResiduals (s : State) (d : SolvDesc) (r : SolvRun) : List W64 :=
  (List.range d.nrhs).flatMap fun j => residualCol s d (rhsCol d r.b j) (rhsCol d r.x j)

/-- A GMRES-based correction goes on with the procedure given, or counts once no right-hand side is left (R232). -/
def gmContinue (r : SolvRun) (g : Option GmRun) : SolvRun :=
  match g with
  | some g => { r with gm := some g }
  | none => { r with gm := none, iters := r.iters + 1, tested := false }

/-- A correction: classical, of every right-hand side, or the start of a GMRES-based one (R231, R232). -/
def correct (s : State) (h : Nat) (d : SolvDesc) (r : SolvRun) : State :=
  let res := solvResiduals s d r
  setSolv s h (if d.refine = 1 then
    { r with x := List.zipWith (fun a b => (addW a b).1) r.x (eachCol d (triSolve s d) res), iters := r.iters + 1, tested := false }
  else gmContinue r (gmNext s d res false 0))

/-- One inner step of a GMRES-based correction and the test after it (R232, R233, R236): a cancel stops the run; the
residual's estimate, RESTART steps or the deadline end the loop, the right-hand side is corrected and the next one begins. -/
def gmInner (s : State) (h : Nat) (d : SolvDesc) (r : SolvRun) (g : GmRun) : State :=
  let m := gmStep s d g.beta g.gm
  let r := solvEdge s h r
  let late := g.late || solvLate s h r
  if !late && (half s h).cancel then stopRefine s h r svCancelled
  else if late || m.stop || decide (d.restart ≤ m.cols.length) then
    setSolv s h (gmContinue { r with x := addCol d r.x g.col (gmSolve d m) } (gmNext s d g.res late (g.col + 1)))
  else setSolv s h { r with gm := some { g with gm := m, late := late } }

/-- The residual test of R230 and what R231 does with it; none goes on to a correction. -/
def testRun (s : State) (h : Nat) (d : SolvDesc) (r : SolvRun) : SolvRun × Option Nat :=
  let res := solvResiduals s d r
  let na := r.normA.getD (normInfA s d)
  let err := maxErr ((List.range d.nrhs).map fun j => backErr na (rhsCol d res j) (rhsCol d r.x j) (rhsCol d r.b j))
  let tol := if d.rtol = 0 then (mulW (f64Op (numOfInt d.n, flNone)).1 (pow2W (-53))).1 else d.rtol
  let halved := gtW (mulW r.berr (pow2W (-1))).1 err
  let r := { r with normA := some na, rnorm := maxMag res, berr := err, tested := true,
                    bad := if r.iters = 0 then 0 else if halved then 0 else r.bad + 1 }
  if !res.all finW ∨ !finW na then (r, some svNonfinite)
  else if !(f64Num err).isNan ∧ !(f64Num tol).isNan ∧ !gtW err tol then (r, some svOk)
  else if 2 ≤ r.iters ∧ 2 ≤ r.bad then (r, some svStagnated)
  else
    let r := solvEdge s h r
    match solvStop s h r svDeadlineIter with
    | some c => (r, some c)
    | none => if r.iters = d.maxit then (r, some svIterLimit) else (r, none)

/-- SOLVER_CORRECTION (R230-R232, R356): the first pass starts from X0 or the direct solve; the residual is formed and
tested; then the run stops, joins a checkpoint, or applies one correction, a GMRES-based one an inner step at a time. -/
def execSolverCorrection (h : BitVec 1) (s : State) : Out :=
  .next (
    let h := h.toNat
    match getSolv s h with
    | none => s
    | some r =>
      let d := runDesc r
      if r.done.isSome ∨ r.phase ≠ 1 ∨ engHeld s h then s
      else match solvBadLine s d with
      | some a => endSolv s h r svMemory 0 a
      | none => match r.gm with
      | some g => gmInner s h d r g
      | none =>
        if r.tested then correct s h d r
        else
          let r := if r.x ≠ [] then r
            else
              let b := readVec s d d.b
              { r with b := b, x := if d.x0 = 0 then eachCol d (triSolve s d) b else readVec s d d.x0 }
          match testRun s h d r with
          | (r, some c) =>
            if c = svNonfinite then endSolv s h r c else stopRefine s h r c
          | (r, none) =>
            if brakeWanted s h then joinBrake (setSolv (writeVec s d.x r.x) h r) h
            else correct s h d r)

/-! Completion (R216, R240). -/

/-- The 64-byte completion record. -/
def solvRecord (r : SolvRun) (status detail addr : Nat) (tEnd : W64) : List W64 :=
  let flags := r.flags + (if 64 < r.logCount then 8 else 0)
  [BitVec.ofNat 64 (status * 2 ^ 56 + flags * 2 ^ 40 + (runDesc r).tag),
   BitVec.ofNat 64 (r.panel % 2 ^ 13 * 2 ^ 51 + r.iters * 2 ^ 43 + r.logCount % 2 ^ 32),
   r.rnorm, r.berr, r.anorm, r.start, tEnd, BitVec.ofNat 64 (detail * 2 ^ 48 + addr)]

/-- SOLVER_COMPLETION (R216, R240): the record is written once the ring has room, and the submitting side is told; a ring it
fills puts the engine in CQ_FULL. -/
def execSolverCompletion (h : BitVec 1) (s : State) : Out :=
  .next (
    let h := h.toNat
    match getSolv s h with
    | none => s
    | some r =>
      match r.done with
      | none => s
      | some (status, detail, addr) =>
        let tail := getF s F.SOLV_STAT_CQ_TAIL h
        let log := getF s F.SOLV_CQ_CQ_LOG2 h
        if cqFull s h then
          if halfRunning s h then putF s F.SOLV_STAT_STATE h 2 else s
        else
          let ws := solvRecord r status detail addr (reg s .tbHall h 0)
          let a := getF s F.SOLV_CQ_CQ_BASE h * 4096 + tail % 2 ^ log * 64
          let s := engWrite s a (wordBytes ws)
          let s := putF (putF s F.SOLV_STAT_CQ_TAIL h (tail + 1)) F.SOLV_STAT_PANEL h 0
          let s := putF s F.SOLV_STAT_STATE h (if !halfRunning s h then 3 else if cqFull s h then 2 else 0)
          let s := updHalf s h fun x => { x with solv := none, cancel := false }
          if bit (half s h).cfg.writers 0 then raiseEvent s h evSolver status ws
          else tellNode s h evSolver status ws)

end Sys2Proof.Machine
end

