-- ==== Sys2Proof/Machine/Rel.lean ====
section
/-! DEFINITION. Classification, tests, retirement and admission of units (spec/17). -/

namespace Sys2Proof.Machine

/-! Units in use and their domains (R417, R455). -/

/-- The domain a unit lies in; none for types without a test. -/
def unitDomain (s : State) (ut ui : Nat) : Option Nat :=
  match ut with
  | 0x01 => some (domSlot s ui)
  | 0x02 => some (domRow ui)
  | 0x04 => some (13 * (ui / 16) + 12)
  | 0x05 => some (domStack (ui / 32))
  | 0x06 => some (domStack ui)
  | 0x07 => some (domOptic ui)
  | 0x08 => some (domSeam ui)
  | 0x09 => some (domCtl (ui / 24) (1 + ui % 24 / 12))
  | 0x0A => if ui < 16 then some (domCtl ui 3) else some (domSwitch ((ui - 16) / 8) 1)
  | _ => none

/-- Is the unit's domain on? -/
def unitOn (s : State) (ut ui : Nat) : Bool :=
  match unitDomain s ut ui with
  | some n => domainOn s n
  | none => true

/-- A unit of half h that exists; the bridges count as either half's (R422). -/
def unitOf (h ut ui : Nat) : Bool := unitExists ut ui && (ut == utBridge || unitHalf ut ui == h)

def gangBusy (s : State) (l : Nat) : Bool := [gsRunning, gsSwitching].contains (gangState s l)

/-- A paced gang of half h waits for a hoist (R427). -/
def pacedWait (s : State) (h : Nat) : Bool :=
  (List.range 64).any fun l => rowLeader s l == l && gangBusy s l && isPaced s l && (gangRows s l).any (rowHalf · == h) &&
    (seqCtl s l).flights.any fun f => f.op.toNat / 4 == 0x24 && !f.reported

/-- Does running work use the unit (R417, R422)? Optical engines, bridges and node cores are tested beside their work.
(Log 121, DEDUCED). -/
def unitBusy (s : State) (ut ui : Nat) : Bool :=
  match ut with
  | 0x01 => slotNamed s ui && gangBusy s (rowLeader s (slotRow ui))
  | 0x02 => gangBusy s (rowLeader s ui)
  | 0x04 => (rangeFrom (8 * (ui / 16)) 8).any fun r => gangBusy s (rowLeader s r)
  | 0x05 | 0x06 => pacedWait s (unitHalf ut ui)
  | 0x0A =>
    if ui < 16 then (half s ui).solv.any (fun r => r.done.isNone) else (getRuns s ((ui - 16) / 8)).any launched
  | _ => false

/-! Retirement (R279, R419-R421). -/

/-- The next incarnation, skipping 0. -/
def nextInc (n : Nat) : Nat := n % 65535 + 1

/-- Engine-side loss of an optical engine: its ports go DOWN, links without a port go down (R316, R419). -/
def engineDown (s : State) (e : Nat) : State :=
  let h := e / 9
  let n := e % 9
  let had := (List.range 64).filter (linkUp s h)
  let s := (List.range 8).foldl (fun s i =>
    if [1, 2].contains (portState s h (8 * n + i)) then putF s F.LEAT_PORT_STATE h 0 (8 * n + i) else s) s
  let s := had.foldl (fun s l => if linkUp s h l then s else linkDown s h l) s
  ([0, 1].filter fun p => lomEngine s h p == e).foldl (fun s p => portGone s h p) s

/-- Does an atomic from die `die` of who waits for it cross the halves by bridge b? (Log 122, DEDUCED). -/
def atomicVia (s : State) (b : Nat) (die : Option Nat) (a : Nat) (who : Waiter) : Bool :=
  who != .nobody && addrHalf a != waiterHalf who && bridgeFor s die a == some b

/-- R279: unacknowledged atomics of the bridge, those whose close waits for DONE among them, end SEAM_LOST; whether they are
still applied is open. -/
def loseAtomics (s : State) (b : Nat) : State :=
  [0, 1].foldl (fun s h =>
    let x := half s h
    let lostA (a : Add64) : Bool := atomicVia s b a.die a.addr a.who
    let lostO (o : HeldOp × Waiter) : Bool := match o.1 with
      | .atomic r _ d _ => atomicVia s b d r.addr.toNat o.2
      | _ => false
    let lostC (c : Closer) : Bool := atomicVia s b c.die c.addr c.who
    let gone (c : Closer) : Closer := if lostC c then { c with who := .nobody } else c
    let ws := ((x.adds.filter fun a => lostA a && !a.closes).map Add64.who) ++ (x.ckp.ops.filter lostO).map Prod.snd ++
      x.epochs.flatMap fun p => ((p.2.closing.map Prod.snd ++ p.2.closers).filter lostC).map Closer.who
    let s := updHalf s h fun y => { y with
      adds := y.adds.map fun a => if lostA a then { a with who := .nobody } else a
      ckp := { y.ckp with ops := y.ckp.ops.map fun o => if lostO o then (o.1, .nobody) else o }
      epochs := y.epochs.map fun p => (p.1, { p.2 with
        closing := p.2.closing.map fun c => (c.1, gone c.2), closers := p.2.closers.map gone }) }
    answerAll s ws stSeamLost) s

/-- A bridge is retired (R279): admission stops, weir blocks are coded again on the other bridge; without one no
cross-half path remains (R295). -/
def retireBridge (s : State) (b : Nat) : State :=
  if getF s F.SEAM_STATE_STATE b = 1 then s
  else
    let s := putF (loseAtomics s b) F.SEAM_STATE_STATE b 1
    if bridgeUp s (1 - b) then
      { s with seamPause := true
               weir := s.weir.map fun x => if x.bridge = b then { x with bridge := 1 - b, coded := none } else x }
    else
      let ws := s.weir.map WeirBlk.who
      haltSpanning (answerAll { s with weir := [], seamPause := false } ws stHalfDown)

/-- What leaves service with a unit (R254, R419); a solver descriptor in progress ends MEMORY_ERROR. -/
def unitGone (s : State) (ut ui : Nat) : State :=
  match ut with
  | 0x05 => if getF s F.HBM_CHST_STATE ui = 0 then putF s F.HBM_CHST_STATE ui 1 else s
  | 0x07 => engineDown s ui
  | 0x08 => retireBridge s ui
  | 0x09 => updCtl s (.node (BitVec.ofNat 1 (ui / 24)) (BitVec.ofNat 5 (ui % 24))) fun c => { c with halted := true }
  | 0x0A => if ui < 2 then endSolver s ui 0x0A else s
  | _ => s

/-- A unit enters QUARANTINED with its incarnation advanced (R421). -/
def quarantine (s : State) (ut ui : Nat) : State :=
  if (getUnit s ut ui).st = 3 then s
  else
    let s := updUnit s ut ui fun u => { u with
      st := 3, back := 3, pending := false, admission := false, causes := [], trans := [], inc := nextInc u.inc }
    unitGone s ut ui

/-- A unit is retired. A serving slot whose row has no SPARE slot left takes its row with it (R419). -/
def retireUnit (s : State) (ut ui : Nat) : State :=
  let served := ut = utSlot ∧ slotNamed s ui
  let s := quarantine s ut ui
  if served ∧ !((List.range 68).any fun k => (getUnit s utSlot (rowSlot0 (slotRow ui) + k)).st == 1) then
    quarantine s utRow (slotRow ui)
  else s

/-! Tests (R414, R415, R417). -/

/-- TARGETED_TEST_START (R417): a test that is due starts unless work uses the unit. -/
def execTargetedTestStart (h : BitVec 1) (utype : BitVec 8) (uindex : BitVec 16) (s : State) : Out :=
  .next (
    let ut := utype.toNat
    let ui := uindex.toNat
    let u := getUnit s ut ui
    if !unitOf h.toNat ut ui ∨ !hasTest ut ∨ !unitOn s ut ui ∨ !u.pending ∨ u.st = 2 ∨ unitBusy s ut ui then s
    else setUnit s ut ui { u with back := u.st, st := 2, pending := false })

/-- The 24 hours of R415, in ns. -/
def promoteSpan : Nat := 86400 * 10 ^ 9

/-- Does the window that ends at `stamp` hold t? -/
def inSpan (stamp t : Nat) : Bool := decide (stamp ≤ t + promoteSpan) && decide (t ≤ stamp)

/-- The record of one cause after a passed test: TRANSIENT, or LASTING by promotion; true when promoted (R415). -/
def transientRecord (s : State) (ut ui : Nat) (x : Cause) : State × Bool :=
  let stamp := x.stamp.toNat
  let old := (getUnit s ut ui).trans
  let near := old.any fun t => within 40 (t + promoteSpan) stamp
  let promoted := decide (2 ≤ (old.filter (inSpan stamp)).length)
  (writeRecord s (logHalf s ut ui) ut ui (if promoted then clLasting else clTransient) false promoted near x, promoted)

/-- LASTING records of the causes of a failed test; SIGNATURE where nothing else called for it. -/
def lastingRecords (s : State) (ut ui : Nat) (causes : List Cause) : State :=
  let h := logHalf s ut ui
  let cs := if causes.isEmpty then [causeNow s h ut ui 0x0007 0 0 false] else causes
  cs.foldl (fun s x => writeRecord s h ut ui clLasting false false false x) s

/-- A test ends (R414, R422): a failure retires the unit; a pass classifies what was not corrected, and makes an
admitted unit SPARE. -/
def testEnd (s : State) (ut ui : Nat) (pass : Bool) : State :=
  let u := getUnit s ut ui
  let s := setUnit s ut ui { u with st := u.back, pending := false, admission := false, causes := [] }
  if !pass ∨ u.pending then retireUnit (lastingRecords s ut ui u.causes) ut ui
  else if u.admission then updUnit s ut ui fun v => { v with st := 1, inc := nextInc v.inc }
  else
    let (s, p) := (u.causes.filter fun c => !c.corrected).foldl (fun (s, p) x =>
      let (s, q) := transientRecord s ut ui x
      (s, p || q)) (s, false)
    if p then retireUnit s ut ui else s

/-- TARGETED_TEST_COMPLETE (R414); an error detected during the test fails it (R427). -/
def execTargetedTestComplete (h : BitVec 1) (utype : BitVec 8) (uindex : BitVec 16) (pass : Bool) (s : State) : Out :=
  .next (
    let ut := utype.toNat
    let ui := uindex.toNat
    if !unitOf h.toNat ut ui ∨ !hasTest ut ∨ (getUnit s ut ui).st ≠ 2 then s else testEnd s ut ui pass)

/-- PERIODIC_TEST_SLICE (R418): a row without work runs a slice of the slot test over its active slots. -/
def execPeriodicTestSlice (row : BitVec 6) (badSlot : Option (BitVec 7)) (s : State) : Out :=
  .next (
    let r := row.toNat
    let l := rowLeader s r
    let resident := bit (getF s F.ROW_CTXCTL_CVALID l) (curCtx s l) && !(seqCtl s l).away
    if !bit (mget z64 r (half s (rowHalf r)).cfg.rowtest).toNat 63 ∨ !halfRunning s (rowHalf r) ∨ !domainOn s (domRow r) ∨
        (getUnit s utRow r).st = 3 ∨ gangState s l ≠ gsStopped ∨ resident ∨ lent s r then s
    else match badSlot with
      | none => s
      | some k =>
        let p := rowSlot0 r + k.toNat
        if 68 ≤ k.toNat ∨ !slotNamed s p ∨ (getUnit s utSlot p).st = 3 then s else detectUncorrected s utSlot p 0x0007 0 0)

/-- SPARE_SLOT_TEST_PASS (R418). -/
def execSpareSlotTestPass (slot : BitVec 13) (mismatch : Bool) (s : State) : Out :=
  .next (
    let p := slot.toNat
    if !unitExists utSlot p ∨ (getUnit s utSlot p).st ≠ 1 ∨ !unitOn s utSlot p ∨ !mismatch then s
    else detectUncorrected s utSlot p 0x0007 0 0)

/-- OPTICAL_MARGIN_SCAN (R418): an OPT_MARGIN error for each lane below the limit. -/
def execOpticalMarginScan (h : BitVec 1) (n : BitVec 4) (lowLanes : List Nat) (s : State) : Out :=
  .next (
    let e := 9 * h.toNat + n.toNat
    if 9 ≤ n.toNat ∨ !bit (mget z64 e (half s h.toNat).cfg.opttest).toNat 63 ∨ !unitOn s utOptic e ∨
        (getUnit s utOptic e).st = 3 ∨ !halfRunning s h.toNat then s
    else ((lowLanes.filter (· < 72)).dedup).foldl (fun s k => detectUncorrected s utOptic e 0x0009 0 k) s)

/-- HANDSHAKE_STALL (R413): of a row, a die link, a leat or Lomly engine, or a bridge. -/
def execHandshakeStall (h : BitVec 1) (utype : BitVec 8) (uindex : BitVec 16) (s : State) : Out :=
  .next (
    let ut := utype.toNat
    let ui := uindex.toNat
    if ¬ [utRow, utDlink, utOptic, utBridge].contains ut ∨ !unitOf h.toNat ut ui ∨ !unitOn s ut ui then s
    else detectUncorrected s ut ui 0x000A 0 0)

/-! DEV_UCMD (R422). -/

/-- Type and index that DEV_USELh names. -/
def selected (s : State) (h : Nat) : Nat × Nat := (getF s F.DEV_USEL_UTYPE 0 h, getF s F.DEV_USEL_UINDEX 0 h)

/-- A unit command: it must select a unit of half h that has a targeted test and is not ABSENT. -/
def unitCommand (s : State) (by' : Requester) (h : Nat) (ok : State → Nat → Nat → Bool) (f : State → Nat → Nat → State) :
    State :=
  guarded s by' .devUcmd 0 h fun s =>
    let (ut, ui) := selected s h
    if unitOf h ut ui && hasTest ut && unitOn s ut ui && ok s ut ui then done (f s ut ui) else denied s by'

/-- RETIRE: refused for a unit that a running gang uses; an engine is retired at its work (R419). -/
def unitRetireCmd (s : State) (by' : Requester) (h : Nat) : State :=
  unitCommand s by' h (fun s ut ui => ut == utEngine || !unitBusy s ut ui) fun s ut ui => retireUnit s ut ui

/-- May the unit be admitted (R422, R427)? -/
def admissible (h : Nat) (s : State) (ut ui : Nat) : Bool :=
  (getUnit s ut ui).st == 3 && halfRunning s h && !(ut == utChan && getF s F.HBM_CHST_STATE ui == 1)

/-- ADMIT: the unit's test is due. -/
def unitAdmitCmd (s : State) (by' : Requester) (h : Nat) : State :=
  unitCommand s by' h (admissible h) fun s ut ui => updUnit s ut ui fun u => { u with pending := true, admission := true }

/-- TEST: the test is due; one that runs is shared. -/
def unitTestCmd (s : State) (by' : Requester) (h : Nat) : State :=
  unitCommand s by' h (fun _ _ _ => true) fun s ut ui =>
    updUnit s ut ui fun u => if u.st = 2 then u else { u with pending := true }

/-- UNIT_RETIRE_CMD. -/
def execUnitRetireCmd (by' : Requester) (h : BitVec 1) (s : State) : Out := .next (unitRetireCmd s by' h.toNat)

/-- UNIT_ADMIT (R422): the command with the outcome of its test. -/
def execUnitAdmit (by' : Requester) (h : BitVec 1) (pass : Bool) (s : State) : Out :=
  .next (unitCommand s by' h.toNat (admissible h.toNat) fun s ut ui =>
    testEnd (updUnit s ut ui fun u => { u with back := 3, st := 2, pending := false, admission := true }) ut ui pass)

/-- UNIT_TEST. -/
def execUnitTest (by' : Requester) (h : BitVec 1) (s : State) : Out := .next (unitTestCmd s by' h.toNat)

/-- A write of DEV_UCMD: exactly one bit. -/
def devUcmdWrite (s : State) (by' : Requester) (h : Nat) (v : W64) : State :=
  match bits v.toNat 2 0 with
  | 1 => unitTestCmd s by' h
  | 2 => unitAdmitCmd s by' h
  | 4 => unitRetireCmd s by' h
  | _ => guarded s by' .devUcmd 0 h fun s => denied s by'

/-- TRANSIENT records in the present 24 hours (R422). -/
def transients (s : State) (ut ui : Nat) : Nat :=
  ((getUnit s ut ui).trans.filter (inSpan (hallTime s (unitHalf ut ui)))).length

/-- DEV_USTATh (R422): 0 where the selection names no unit of the half. -/
def devUstat (s : State) (h : Nat) : W64 :=
  let (ut, ui) := selected s h
  if !unitOf h ut ui then 0
  else if !hasTest ut then BitVec.ofNat 64 (unitInc s ut ui)
  else
    let u := getUnit s ut ui
    let st := if unitOn s ut ui then u.st else 4
    BitVec.ofNat 64 (st * 2 ^ 61 + u.pending.toNat * 2 ^ 60 + min 255 (transients s ut ui) * 2 ^ 48 + u.heard * 2 ^ 32 +
      u.corrected * 2 ^ 16 + u.inc)

/-- A read clears HEARD and CORRECTED. -/
def ustatClear (s : State) (h : Nat) : State :=
  let (ut, ui) := selected s h
  if !unitOf h ut ui ∨ !hasTest ut then s else updUnit s ut ui fun u => { u with heard := 0, corrected := 0 }

end Sys2Proof.Machine
end

