-- ==== Sys2Proof/Machine/Sec.lean ====
section
/-! DEFINITION. The trust dies (spec/18) and the Lomly sessions they terminate (R374-R378): boot, images, measurements,
quotes, debug access, handshakes. -/

namespace Sys2Proof.Machine

def updSec (s : State) (h : Nat) (f : SecSt → SecSt) : State := updHalf s h fun x => { x with sec := f x.sec }
def getSec (s : State) (h : Nat) : SecSt := (half s h).sec

/-! Boot stages and codes (SEC_BSTAT). -/

def sgKeys : Nat := 1
def sgAwait : Nat := 2
def sgRunning : Nat := 4
def sgFailed : Nat := 5

def secStage (s : State) (h : Nat) : Nat := getF s F.SEC_BSTAT_STAGE h
def setStage (s : State) (h stage code : Nat) : State := putF (putF s F.SEC_BSTAT_STAGE h stage) F.SEC_BSTAT_CODE h code

def devIdBytes (s : State) : List Byte := wordBytes [reg s .devId 0 0]

/-! Measurements (R437). -/

/-- MR i := SHA-512(MR ‖ v); its count rises. -/
def extendMr (s : State) (h i : Nat) (v : List Byte) : State :=
  let s := setWords s .secMr h (8 * i) (wordsOf (sha (regBytes s .secMr h (8 * i) 8 ++ v)))
  updSec s h fun x => { x with counts := x.counts.set i ((x.counts.getD i 0 + 1) % 65536) }

/-! Trust die boot (R430, R433). -/

/-- TRUST_DIE_BOOT: self-tests, MR0, the identity key, the drawn keys and nonce; then the image is awaited. In the
debug-only state no identity key exists (R447). (Log 113, DEDUCED). -/
def execTrustDieBoot (h : BitVec 1) (katOk idOk : Bool) (s : State) : Out :=
  .next (
    let h := h.toNat
    let dbg := s.pins.debugOnly
    if halfState s h ≠ hsBoot ∨ secStage s h ≠ 0 ∨ getF s F.SEC_BSTAT_CODE h ≠ 0 ∨ !domainOn s (domTrust h) then s
    else if !katOk then setStage s h 0 0x07
    else
      let s := putF s F.SEC_BSTAT_DEBUG h dbg.toNat
      let s := putF s F.SEC_DBGSTAT_DSTATE h (if dbg then 2 else 0)
      let s := extendMr s h 0 (sha (Config.romContents ++ devIdBytes s ++ [if dbg then 1 else 0]))
      if !dbg ∧ !idOk then setStage s h sgKeys 0x01
      else
        let s := if dbg then s
          else updSec (setWords s .secIdpub h 0 (wordsOf (fixLen 133 (idPub h)))) h fun x => { x with idKey := true }
        let (k, s) := draw s h
        let (n, s) := draw s h
        let s := updSec s h fun x => { x with hbmKey := some ⟨k.extractLsb' 256 256, k.extractLsb' 0 256⟩ }
        let s := setReg s .fstNonce h 0 (BitVec.ofNat 64 (n.toNat % (2 ^ 64 - 1) + 1))
        setStage s h sgAwait 0)

/-! Firmware images (R433-R435). -/

def imageMax : Nat := 2 ^ 25

/-- IMG lines (R433, R448): lines beyond 32 MiB are discarded; a failed attempt is followed by a new one (R435). -/
def imgApply (s : State) (h : Nat) (off : Nat) (lines : List W64) : State :=
  if halfState s h ≠ hsBoot ∨ ¬ [sgAwait, sgFailed].contains (secStage s h) then s
  else
    let fit := (List.range (lines.length / 8)).filter fun j => decide (off + 64 * j + 64 ≤ imageMax)
    let bytes := fit.flatMap fun j => (wordBytes ((lines.drop (8 * j)).take 8)).zipIdx (off + 64 * j)
    let s := updSec s h fun x => { x with image := bytes.foldl (fun m e => mset zByte e.2 e.1 m) x.image }
    let top := (fit.map fun j => off + 64 * j + 64).foldl max (getF s F.SEC_BSTAT_BYTES h)
    putF (putF s F.SEC_BSTAT_STAGE h sgAwait) F.SEC_BSTAT_BYTES h top

/-- IMG (R379, R391): over a half's own link, or forwarded to the other half. -/
def execImg (link : BitVec 1) (target : BitVec 1) (offset : W64) (lines : List W64) (s : State) : Out :=
  .next (
    let l := link.toNat
    if !lomLive s l ∨ (link ≠ target ∧ getF s F.LOM_CFG_XMGMT l = 0) then s
    else imgApply s target.toNat offset.toNat lines)

/-- Bytes [a, a + n) of the staged image. -/
def imageBytes (s : State) (h a n : Nat) : List Byte := (rangeFrom a n).map fun i => mget zByte i (getSec s h).image

/-- A signature block: r and s, then 4 zero bytes. -/
def sigOk (key : List Byte) (digest : BitVec 512) (block : List Byte) : Bool :=
  block.length == 136 && (block.drop 132).all (· == 0) && Config.ecdsaVerify key digest (block.take 132)

/-- The checks of R435 in their order: the failing CODE, or 0. -/
def imageCheck (s : State) (h : Nat) : Nat :=
  let b := imageBytes s h
  let len := ofBytes (b 8 8)
  let zero (a n : Nat) : Bool := (b a n).all (· == 0)
  if ofBytes (b 0 8) ≠ 0x4657494D00010000 ∨ !zero 40 24 ∨ !zero 197 3 ∨ !zero 333 179 then 0x02
  else if len % 64 ≠ 0 ∨ len < 1024 ∨ imageMax < len ∨ getF s F.SEC_BSTAT_BYTES h < len then 0x06
  else if b 16 8 ≠ devIdBytes s then 0x03
  else if Config.sha512 (b 200 133) ≠ Config.rootHash ∨ b 64 133 ≠ b 200 133 then 0x04
  else if !sigOk (b 64 133) (Config.sha512 (b 0 (len - 136))) (b (len - 136) 136) then 0x05
  else 0

/-- The image runs: MR1, LOADED, the full profile (R380), and the domains that are still off (R460). -/
def launchImage (s : State) (h : Nat) : State :=
  let len := ofBytes (imageBytes s h 8 8)
  let s := extendMr s h 1 (sha (imageBytes s h 0 len))
  let s := putF (setStage s h sgRunning 0) F.SEC_BSTAT_BYTES h len
  let s := updSec s h fun x => { x with image := [] }
  let s := { s with ramp := s.ramp ++ (halfDomains h).filter fun n => !(domainOn s n || s.ramp.contains n) }
  let s := if 2 ≤ getF s F.LOM_STAT_SSTATE h then putF s F.LOM_STAT_PROFILE h 2 else s
  raiseEvent (setHalfState s h hsLoaded) h evLink 1 []

/-- A command of SEC_BCTL: refused before the image is awaited and once it runs. (Log 114, DEDUCED). -/
def bootCommand (s : State) (by' : Requester) (h : Nat) (f : State → State) : State :=
  guarded s by' .secBctl h 0 fun s => if [sgAwait, sgFailed].contains (secStage s h) then done (f s) else denied s by'

/-- LAUNCH (R435). -/
def imageLaunch (s : State) (by' : Requester) (h : Nat) : State :=
  bootCommand s by' h fun s =>
    let c := imageCheck s h
    if c = 0 then launchImage s h else setStage s h sgFailed c

/-- CLEAR. -/
def imageClear (s : State) (by' : Requester) (h : Nat) : State :=
  bootCommand s by' h fun s =>
    putF (putF (updSec s h fun x => { x with image := [] }) F.SEC_BSTAT_STAGE h sgAwait) F.SEC_BSTAT_BYTES h 0

/-- IMAGE_LAUNCH. -/
def execImageLaunch (by' : Requester) (h : BitVec 1) (s : State) : Out := .next (imageLaunch s by' h.toNat)
/-- IMAGE_CLEAR. -/
def execImageClear (by' : Requester) (h : BitVec 1) (s : State) : Out := .next (imageClear s by' h.toNat)

def secBctlWrite (s : State) (by' : Requester) (h : Nat) (v : W64) : State :=
  match bits v.toNat 1 0 with
  | 1 => imageLaunch s by' h
  | 2 => imageClear s by' h
  | _ => guarded s by' .secBctl h 0 fun s => denied s by'

/-! Quotes and EXTEND (R437-R439). -/

/-- Bytes 0-519 of a quote without its STAMP (R438). -/
def quoteBody (s : State) (h : Nat) (nonce : List Byte) : List Byte :=
  let w3 := h * 2 ^ 63 + s.pins.debugOnly.toNat * 2 ^ 62 + getF s F.LOM_STAT_PROFILE h * 2 ^ 60
  let c (i : Nat) : Nat := (getSec s h).counts.getD i 0
  wordBytes [0x51554F5400010000, reg s .devId 0 0, BitVec.ofNat 64 w3, 0, reg s .fstNonce h 0,
    BitVec.ofNat 64 (getF s F.FST_STAT_GEN h * 2 ^ 32),
    BitVec.ofNat 64 (c 0 + c 1 * 2 ^ 16 + c 2 * 2 ^ 32 + c 3 * 2 ^ 48), 0]
    ++ fixLen 64 nonce ++ regBytes s .secMr h 0 32 ++ fixLen 136 ((regBytes s .secIdpub h 0 17).take 133)

/-- The quote as it is signed now; unsigned in the debug-only state. -/
def signQuote (s : State) (h : Nat) (body : List Byte) : List Byte × State :=
  let body := body.take 24 ++ toBytes 8 (hallTime s h) ++ body.drop 32
  if s.pins.debugOnly then (body ++ List.replicate 136 0, s)
  else
    let (sig, s) := signBlock s h body
    (body ++ sig, s)

def committing (s : State) (h : Nat) : Bool := getF s F.FST_STAT_STATE h == 2

/-- What the present quote will cover (R439). (Log 115, DEDUCED). -/
def captureQuote (s : State) (h : Nat) : State :=
  updSec s h fun x => { x with quote := some (quoteBody s h (regBytes s .secQnonce h 0 8)) }

/-- QUOTE: refused while BUSY; while a stream commits the quote waits for it (R448). -/
def quoteCmd (s : State) (by' : Requester) (h : Nat) : State :=
  guarded s by' .secQctl h 0 fun s =>
    if getF s F.SEC_QCTL_BUSY h = 1 then denied s by'
    else
      let s := putF s F.SEC_QCTL_BUSY h 1
      done (if committing s h then s else captureQuote s h)

/-- EXTEND of MR3: waits while a quote is BUSY. -/
def extendCmd (s : State) (by' : Requester) (h : Nat) : State :=
  guarded s by' .secQctl h 0 fun s =>
    let v := regBytes s .secMext h 0 8
    done (if getF s F.SEC_QCTL_BUSY h = 1 then updSec s h fun x => { x with extendWait := x.extendWait ++ [v] }
      else extendMr s h 3 v)

/-- QUOTE. -/
def execQuote (by' : Requester) (h : BitVec 1) (s : State) : Out := .next (quoteCmd s by' h.toNat)
/-- EXTEND. -/
def execExtend (by' : Requester) (h : BitVec 1) (s : State) : Out := .next (extendCmd s by' h.toNat)

/-- QUOTE_COMPLETE (R438, R439): the quote stands in SEC_QUOTE; EXTENDs that waited follow. -/
def execQuoteComplete (h : BitVec 1) (s : State) : Out :=
  .next (
    let h := h.toNat
    match (getSec s h).quote with
    | none => s
    | some body =>
      let (q, s) := signQuote s h body
      let s := setWords s .secQuote h 0 (wordsOf q)
      let s := putF (putF s F.SEC_QCTL_BUSY h 0) F.SEC_QCTL_DONE h 1
      let ws := (getSec s h).extendWait
      ws.foldl (fun s v => extendMr s h 3 v) (updSec s h fun x => { x with quote := none, extendWait := [] }))

/-- A write of SEC_QCTL: exactly one bit; DONE is cleared by its own. -/
def secQctlWrite (s : State) (by' : Requester) (h : Nat) (v : W64) : State :=
  match bits v.toNat 62 62, bits v.toNat 1 0 with
  | 0, 1 => quoteCmd s by' h
  | 0, 2 => extendCmd s by' h
  | 1, 0 => guarded s by' .secQctl h 0 fun s => done (putF s F.SEC_QCTL_DONE h 0)
  | _, _ => guarded s by' .secQctl h 0 fun s => denied s by'

/-! Debug access (R445-R447). -/

/-- R398: a key that the root endorses made the signature over the digest. -/
def originOk (root endorse signer sig : List Byte) (digest : BitVec 512) : Bool :=
  Config.sha512 root == Config.rootHash && sigOk root (Config.sha512 signer) endorse && sigOk signer digest sig

def setDstate (s : State) (h v : Nat) : State := if s.pins.debugOnly then s else putF s F.SEC_DBGSTAT_DSTATE h v

/-- A fresh challenge stands in SEC_DBGCHAL. -/
def newChallenge (s : State) (h : Nat) : State :=
  let (d, s) := draw s h
  let c := (digestBytes d).take 32 ++ devIdBytes s ++ [BitVec.ofNat 8 h] ++ List.replicate 23 0
  setDstate (updSec (setWords s .secDbgchal h 0 (wordsOf c)) h fun x => { x with challenge := true }) h 1

def mayChallenge (s : State) (h : Nat) : Bool := (half s h).cfg.dbgUnlock && !(getSec s h).lockout

/-- CHALLENGE: refused while UNLOCK is 0 or the lockout stands. (Log 116, DEDUCED). -/
def challengeCmd (s : State) (by' : Requester) (h : Nat) : State :=
  guarded s by' .secDbgctl h 0 fun s => if mayChallenge s h then done (newChallenge s h) else denied s by'

/-- Does the response in SEC_DBGRESP answer the challenge? -/
def responseOk (s : State) (h : Nat) : Bool :=
  let r := (regBytes s .secDbgresp h 0 68).take 538
  let d := Config.sha512 (regBytes s .secDbgchal h 0 8 ++ sha ((regBytes s .secIdpub h 0 17).take 133))
  originOk (r.drop 405) ((r.drop 269).take 136) ((r.drop 136).take 133) (r.take 136) d

/-- R446: sessions end and keys are gone with a reset of both halves as by RST_N; both boot into the debug-only state. -/
def unlockPart (s : State) : State :=
  let s := holdReset (holdReset s 0) 1
  let s := clearBridge (clearBridge s 0) 1
  let s := { s with seamPause := false, owners := [], pins := { s.pins with debugOnly := true, mfp0 := false } }
  leaveReset (leaveReset s 0) 1

/-- The present challenge is used up or void. -/
def dropChallenge (s : State) (h : Nat) : State := setDstate (updSec s h fun x => { x with challenge := false }) h 0

/-- A failed SUBMIT: the third one starts the CHALLENGE lockout. -/
def failSubmit (s : State) (h : Nat) : State :=
  let s := bumpF (dropChallenge s h) F.SEC_DBGSTAT_FAILS h
  updSec s h fun x => if 2 ≤ x.fails then { x with fails := 0, lockout := true } else { x with fails := x.fails + 1 }

def submitDebug (s : State) (h : Nat) : State :=
  if (getSec s h).challenge ∧ responseOk s h then unlockPart s else failSubmit s h

/-- SUBMIT: refused where debug may not be unlocked (R448). -/
def submitCmd (s : State) (by' : Requester) (h : Nat) : State :=
  guarded s by' .secDbgctl h 0 fun s => if (half s h).cfg.dbgUnlock then done (submitDebug s h) else denied s by'

/-- DEBUG_CHALLENGE. -/
def execDebugChallenge (by' : Requester) (h : BitVec 1) (s : State) : Out := .next (challengeCmd s by' h.toNat)
/-- DEBUG_SUBMIT. -/
def execDebugSubmit (by' : Requester) (h : BitVec 1) (s : State) : Out := .next (submitCmd s by' h.toNat)

def secDbgctlWrite (s : State) (by' : Requester) (h : Nat) (v : W64) : State :=
  match bits v.toNat 1 0 with
  | 1 => challengeCmd s by' h
  | 2 => submitCmd s by' h
  | _ => guarded s by' .secDbgctl h 0 fun s => denied s by'

/-- DEBUG_CHALLENGE_EXPIRY: 10 s after CHALLENGE. -/
def execDebugChallengeExpiry (h : BitVec 1) (s : State) : Out :=
  .next (if (getSec s h.toNat).challenge then dropChallenge s h.toNat else s)

/-- DEBUG_LOCKOUT_EXPIRY. -/
def execDebugLockoutExpiry (h : BitVec 1) (s : State) : Out :=
  .next (updSec s h.toNat fun x => { x with lockout := false })

/-- DRBG_RESEED (R443): due after 2^20 requests. -/
def execDrbgReseed (h : BitVec 1) (s : State) : Out :=
  .next (if (getSec s h.toNat).requests < 2 ^ 20 then s else updSec s h.toNat fun x => { x with requests := 0 })

/-! Lomly handshakes (R374-R378). The messages are byte strings in the order of R374's table. -/

/-- A failed handshake: ABORT; three within 1 s lock HELLO out (R377). A failed rekey leaves the running session. -/
def abortHandshake (s : State) (h : Nat) : State :=
  let now := hallTime s h
  let l := getLom s h
  let was := (l.hs.any fun x => x.rekey) && decide (2 ≤ getF s F.LOM_STAT_SSTATE h)
  let late := (l.failAt.filter fun t => decide (now < t + 10 ^ 9)) ++ [now]
  let s := updLom s h fun x => if 3 ≤ late.length then { x with hs := none, failAt := [], lockout := true }
    else { x with hs := none, failAt := late }
  answer (putF s F.LOM_STAT_SSTATE h (if was then 2 else 0)) .abort

/-- ACCEPT: the part's nonce and ephemeral key, DEV_ID, SESSION, the profile granted, and a quote whose nonce hashes
messages 1 and 2. (Log 112, DEDUCED). -/
def acceptHello (s : State) (h : Nat) (nonce pub : List Byte) (profile : BitVec 2) (session : Nat) (rekey : Bool) : State :=
  if !Config.onCurve pub ∨ getF s F.SEC_BSTAT_CODE h = 1 then abortHandshake s h
  else
    let (d, s) := draw s h
    let (e, s) := draw s h
    let mine := (digestBytes d).take 32
    let granted := if halfState s h = hsBoot then 1 else 2
    let m1 := nonce ++ pub ++ [profile.setWidth 8]
    let m2 := mine ++ fixLen 133 (Config.ephPub e) ++ devIdBytes s ++ toBytes 4 session ++ [BitVec.ofNat 8 granted]
    let (q, s) := signQuote s h (quoteBody s h (sha (m1 ++ m2)))
    let z := Config.ecdh e pub
    let x : Handshake := ⟨1, m1 ++ m2 ++ q, directionKey (nonce ++ mine) z "lomly h2p", directionKey (nonce ++ mine) z "lomly p2h",
      granted, session, rekey⟩
    let s := putF (updLom s h fun l => { l with hs := some x }) F.LOM_STAT_SSTATE h (if rekey then 3 else 1)
    answer s (.bytes (m2 ++ q))

/-- The trust die serves handshakes once its boot has reached the identity key. -/
def handshakes (s : State) (h : Nat) : Bool := lomUp s h && halfState s h != hsOff && decide (1 ≤ secStage s h)

/-- Does the other half's link carry half h's handshake, whose own link is down (R391)? -/
def forwarded (s : State) (h : Nat) : Bool :=
  !lomUp s h && lomLive s (1 - h) && getF s F.LOM_CFG_XMGMT (1 - h) == 1 && halfState s h != hsOff &&
    decide (1 ≤ secStage s h)

/-- HELLO (R374, R377, R393): only on the active port, not during the lockout. It ends a session that still stands. One that
the other half's link forwards is answered with the half's own quote; no session of this link forms (R391). -/
def execHello (h : BitVec 1) (port : BitVec 1) (nonce pub : List Byte) (profile : BitVec 2) (s : State) : Out :=
  .next (
    let h := h.toNat
    if forwarded s h ∧ !(getLom s h).lockout then
      let (v, s) := fresh s
      let t := acceptHello s h nonce pub profile (v.toNat % (2 ^ 32 - 1) + 1) false
      putF (updLom t h fun l => { l with hs := none }) F.LOM_STAT_SSTATE h 0
    else if !handshakes s h ∨ port.toNat ≠ lomActive s h ∨ (getLom s h).lockout then answer s .none
    else
      let s := if 2 ≤ getF s F.LOM_STAT_SSTATE h then endSession (loseTraffic s h) h else s
      let (v, s) := fresh s
      acceptHello s h nonce pub profile (v.toNat % (2 ^ 32 - 1) + 1) false)

/-- Words of HOSTKEY as bytes. -/
def hostKeyBytes (s : State) (h : Nat) : List Byte := wordBytes (half s h).cfg.hostKey

/-- PROOF (R376): the key of the policy, and its signature over messages 1 and 2. -/
def execProof (h : BitVec 1) (pub sig : List Byte) (s : State) : Out :=
  .next (
    let h := h.toNat
    match (getLom s h).hs with
    | none => s
    | some x =>
      if x.step ≠ 1 ∨ getF s F.LOM_CFG_HOSTAUTH h = 0 then s
      else if sha pub = hostKeyBytes s h ∧ Config.onCurve pub ∧ Config.ecdsaVerify pub (Config.sha512 x.text) sig then
        answer (updLom s h fun l => { l with hs := some { x with step := 2, text := x.text ++ pub ++ sig } }) .ok
      else abortHandshake s h)

/-- FINISH (R374, R378): the host's first sealed flit carries the hash of messages 1 to 3, and the part's answers it. A
missing PROOF ends the handshake. -/
def execFinish (h : BitVec 1) (ok : Bool) (s : State) : Out :=
  .next (
    let h := h.toNat
    match (getLom s h).hs with
    | none => s
    | some x =>
      if !ok ∨ (x.step = 1 ∧ getF s F.LOM_CFG_HOSTAUTH h = 1) then abortHandshake s h
      else
        let k := lomKey h
        let old := (getLom s h).keys
        let s := if x.rekey then updLink s k fun y => { y with session := x.session }
          else updLink s k fun y => { linkZero with session := x.session, waitL := y.waitL }
        let s := updLom s h fun l => { l with
          hs := none, keys := some (x.h2p, x.p2h), oldKeys := if x.rekey then old else none }
        let s := putF (putF (putF s F.LOM_STAT_SSTATE h 2) F.LOM_STAT_SESSION h x.session) F.LOM_STAT_PROFILE h x.profile
        let s := if x.rekey then raiseEvent s h evLink 3 [] else s
        answer s (.bytes (sha x.text)))

/-- HELLO_LOCKOUT_EXPIRY (R377). -/
def execHelloLockoutExpiry (h : BitVec 1) (s : State) : Out :=
  .next (updLom s h.toNat fun l => { l with lockout := false })

/-- REKEY (R378): messages 1 and 2 again, inside the session, for SESSION + 1. -/
def execRekey (h : BitVec 1) (nonce pub : List Byte) (s : State) : Out :=
  .next (
    let h := h.toNat
    if !lomLive s h then s
    else
      let n := getF s F.LOM_STAT_SESSION h
      acceptHello s h nonce pub (BitVec.ofNat 2 (getF s F.LOM_STAT_PROFILE h)) (n % (2 ^ 32 - 1) + 1) true)

/-- REKEY_START (R378): the part asks for a rekey with a SESSION packet. -/
def execRekeyStart (h : BitVec 1) (s : State) : Out :=
  .next (
    let h := h.toNat
    if !lomLive s h ∨ getF s F.LOM_STAT_SSTATE h = 3 then s
    else lomSend (putF s F.LOM_STAT_SSTATE h 3) h 2 (lomPkt 12 0 0 0 0 0 []))

/-- Old keys go once no flit sealed under them is left (R378). -/
def dropOldKeys (s : State) (h : Nat) : State :=
  let x := getLink s (lomKey h)
  if x.unacked.any fun f => f.session.toNat ≠ x.session then s else updLom s h fun l => { l with oldKeys := none }

end Sys2Proof.Machine
end

