-- ==== Sys2Proof/Machine/Stream.lean ====
section
/-! DEFINITION. The Fueman configuration stream (spec/16): its parts, its validation in the order of R405, its commit
(R406). -/

namespace Sys2Proof.Machine

/-- An item of a section: its section's number and type, its KIND and INDEX, its number in the section, the word offset of
its tag, its payload. -/
structure Item where
  sect : Nat
  ty : Nat
  home : Nat
  kind : Nat
  idx : Nat
  no : Nat
  word : Nat
  ps : List Nat
deriving DecidableEq, Repr

/-- A section: number, type, level, index, word offset of its header, words of its body, items. -/
structure Sect where
  no : Nat
  ty : Nat
  level : Nat
  idx : Nat
  word : Nat
  len : Nat
  items : List Item
deriving DecidableEq, Repr

/-- A refusal as FST_ERR shows it (R408). -/
structure SErr where
  code : Nat
  a : Nat
  b : Nat
  item : Nat
  word : Nat
deriving DecidableEq, Repr

def fsHeader : Nat := 0x01
def fsDevice : Nat := 0x02
def fsGen : Nat := 0x03
def fsNonce : Nat := 0x04
def fsRoot : Nat := 0x05
def fsSignature : Nat := 0x06
def fsStructure : Nat := 0x07
def fsScope : Nat := 0x08
def fsField : Nat := 0x09
def fsMissing : Nat := 0x0A
def fsResource : Nat := 0x0B
def fsResourceBusy : Nat := 0x0C
def fsGang : Nat := 0x0D
def fsMap : Nat := 0x0E
def fsRegion : Nat := 0x0F
def fsRoute : Nat := 0x10
def fsPower : Nat := 0x11
def fsBusy : Nat := 0x12
def fsHalfState : Nat := 0x13
def fsNotPermitted : Nat := 0x14
def fsUnitFailed : Nat := 0x15
def fsCrossHalf : Nat := 0x16

def headErr (code word : Nat) : SErr := ⟨code, 0xFF, 0xFF, 0xFFFF, word⟩
def sectErr (code : Nat) (x : Sect) : SErr := ⟨code, x.no, 0xFF, 0xFFFF, x.word⟩
def itemErr (code : Nat) (i : Item) (k : Nat := 0) : SErr := ⟨code, i.sect, 0xFF, i.no, i.word + 1 + k⟩

/-- The refusal when a check fails. -/
def expect (ok : Bool) (e : SErr) : Option SErr := if ok then none else some e

def firstErr {α : Type} (l : List α) (f : α → Option SErr) : Option SErr := l.findSome? f

/-! The staged words and header fields (R396, R397). -/

def fstW (s : State) (h i : Nat) : Nat := (reg s .fstWindow h i).toNat
def fstKindOf (s : State) (h : Nat) : Nat := bits (fstW s h 0) 15 8
def fstSects (s : State) (h : Nat) : Nat := bits (fstW s h 0) 7 0
def fstLen (s : State) (h : Nat) : Nat := fstW s h 1
def prevGen (s : State) (h k : Nat) : Nat := if k = 0 then bits (fstW s h 3) 31 0 else bits (fstW s h 3) 63 32

/-- Halves in scope: those PREV_GEN does not mark as outside. -/
def fstScope (s : State) (h : Nat) : List Nat := [0, 1].filter fun k => prevGen s h k != 0xFFFFFFFF

/-- Bytes [a, a + n) of the staged stream. -/
def fstBytes (s : State) (h a n : Nat) : List Byte :=
  (rangeFrom a n).map fun i => BitVec.ofNat 8 (fstW s h (i / 8) / 256 ^ (i % 8))

/-! Step 1 and 2: header and origin. -/

def vHeader (s : State) (h : Nat) : Option SErr :=
  let kind := fstKindOf s h
  let n := fstSects s h
  let len := fstLen s h
  let zero (a k : Nat) : Bool := (fstBytes s h a k).all (· == 0)
  let sc := fstScope s h
  let shape := match kind with
    | 0 => sc == [0, 1]
    | 1 => sc.length == 1
    | _ => !sc.isEmpty
  let nonceOk (k : Nat) : Bool :=
    let v := fstW s h (4 + k)
    if v = 0 then !(kind == 2 && sc.contains k && (half s k).cfg.nonceReq) else v == (reg s .fstNonce k 0).toNat
  let stateOk (k : Nat) : Bool := if kind = 2 then halfRunning s k else halfState s k == hsLoaded && !isFatal s k
  expect (bits (fstW s h 0) 63 16 == 0x4655454D0001 && decide (kind ≤ 2) && decide (1 ≤ n) && decide (n ≤ 254) &&
      !(kind == 2 && n != 1)) (headErr fsHeader 0)
    <|> expect (len % 8 == 0 && decide (680 ≤ len) && decide (len ≤ 2 ^ 24)) (headErr fsHeader 1)
    <|> expect (zero 48 16) (headErr fsHeader 6)
    <|> expect (zero 197 3) (headErr fsHeader 24)
    <|> expect (zero 469 43) (headErr fsHeader 58)
    <|> expect (fstW s h 2 == (reg s .devId 0 0).toNat) (headErr fsDevice 2)
    <|> expect (shape && sc.contains h && sc.all fun k => prevGen s h k == getF s F.FST_STAT_GEN k) (headErr fsGen 3)
    <|> firstErr [0, 1] (fun k => expect (nonceOk k) (headErr fsNonce (4 + k)))
    <|> expect (sc.all stateOk) (headErr fsHalfState 0)

/-- R398. -/
def vOrigin (s : State) (h : Nat) : Option SErr :=
  let b := fstBytes s h
  let len := fstLen s h
  expect (Config.sha512 (b 336 133) == Config.rootHash) (headErr fsRoot 42)
    <|> expect (sigOk (b 336 133) (Config.sha512 (b 64 133)) (b 200 136)) (headErr fsSignature 25)
    <|> expect (sigOk (b 64 133) (Config.sha512 (b 0 (len - 136))) (b (len - 136) 136)) (headErr fsSignature (len / 8 - 17))

/-! Step 3: structure (R399, R400). -/

/-- Payload words of an item. -/
def itemWords (ty kind : Nat) : Option Nat :=
  match ty, kind with
  | 1, 1 => some 2
  | 2, 1 => some 8
  | 2, 2 | 3, 1 | 3, 2 | 3, 3 | 4, 1 | 4, 2 | 4, 3 | 4, 4 | 5, 1 | 5, 2 | 5, 3 | 5, 4 | 6, 1 | 6, 2 | 6, 3 | 7, 1 | 7, 2
  | 7, 3 | 8, 1 | 8, 2 | 8, 3 | 8, 4 | 9, 1 | 9, 3 | 9, 4 | 9, 5 | 9, 6 => some 1
  | 4, 5 | 4, 6 | 9, 2 => some 8
  | 6, 4 => some 3
  | _, _ => none

/-- Where something lies: half, die, row, channel. -/
structure Place where
  half : Option Nat
  die : Option Nat
  row : Option Nat
  chan : Option Nat
deriving DecidableEq, Repr

def rowPlace' (r : Nat) : Place := ⟨some (r / 32), some (r / 8), some r, none⟩
def chanPlace (c : Nat) : Place := ⟨some (c / 512), some (c / 128), none, some c⟩
def halfPlace (h : Nat) : Place := ⟨some h, none, none, none⟩

/-- The place an item's INDEX names; none where it is out of range. `home` is the half of its section. -/
def itemPlace (ty kind idx home : Nat) : Option Place :=
  let upTo (n : Nat) (p : Place) : Option Place := if idx < n then some p else none
  match ty, kind with
  | 1, 1 | 2, 1 | 6, 2 | 6, 3 | 7, 1 | 8, 2 => upTo 64 (rowPlace' idx)
  | 3, 2 => upTo 32 ⟨some (idx / 16), some (idx / 4), none, none⟩
  | 4, 2 => upTo 16 (halfPlace home)
  | 4, 3 | 4, 5 | 5, 1 => upTo 64 (halfPlace home)
  | 4, 4 => upTo 128 (halfPlace home)
  | 4, 6 => upTo 2048 (halfPlace home)
  | 5, 2 => upTo 512 (halfPlace home)
  | 5, 3 => upTo 4096 (halfPlace home)
  | 6, 4 | 8, 1 => upTo 1 ⟨none, none, none, none⟩
  | 7, 2 | 8, 3 => upTo 1024 (chanPlace idx)
  | 7, 3 => upTo 18 (halfPlace (idx / 9))
  | _, _ => upTo 2 (halfPlace idx)

/-- Does a section of this level and index cover the place? -/
def covers (level idx : Nat) (p : Place) : Bool :=
  match level with
  | 0 => true
  | 1 => p.half == some idx
  | 2 => p.die == some idx
  | 3 => p.row == some idx
  | _ => p.chan == some idx

def sectPlace (level idx : Nat) : Option Place :=
  match level with
  | 0 => if idx = 0 then some ⟨none, none, none, none⟩ else none
  | 1 => if idx < 2 then some (halfPlace idx) else none
  | 2 => if idx < 8 then some ⟨some (idx / 4), some idx, none, none⟩ else none
  | 3 => if idx < 64 then some (rowPlace' idx) else none
  | 4 => if idx < 1024 then some (chanPlace idx) else none
  | _ => none

/-- Levels a type may have (R407). -/
def levelsOf (ty : Nat) : List Nat :=
  match ty with
  | 1 | 6 => [0, 1, 2, 3]
  | 2 => [1, 2, 3]
  | 3 => [1, 2]
  | 7 => [1, 2, 3, 4]
  | 8 => [0, 1, 3, 4]
  | _ => [1]

def overlap (x y : Sect) : Bool :=
  let (a, b) := if x.level ≤ y.level then (x, y) else (y, x)
  match sectPlace b.level b.idx with
  | some p => covers a.level a.idx p
  | none => false

/-- The items of a body of n words from word p; none where a tag or a length is wrong. -/
def parseItems (w : Nat → Nat) (sect ty home : Nat) : Nat → Nat → Nat → Nat → Option (List Item)
  | 0, _, _, n => if n = 0 then some [] else none
  | fuel + 1, no, p, n =>
    if n = 0 then some []
    else
      let t := w p
      let k := bits t 15 0
      if bits t 39 16 ≠ 0 ∨ itemWords ty (bits t 63 56) ≠ some k ∨ n < k + 1 then none
      else
        (parseItems w sect ty home fuel (no + 1) (p + 1 + k) (n - 1 - k)).map fun l =>
          ⟨sect, ty, home, bits t 63 56, bits t 55 40, no, p, (List.range k).map fun j => w (p + 1 + j)⟩ :: l

/-- Half of a section, for items whose INDEX names none. -/
def homeOf (level idx : Nat) : Nat := ((sectPlace level idx).bind Place.half).getD 0

/-- The sections between word p and the signature at word `last`, or the refusal. -/
def parseSects (w : Nat → Nat) (last : Nat) : Nat → Nat → Nat → Sum SErr (List Sect)
  | 0, no, p => if p = last then .inr [] else .inl ⟨fsStructure, no, 0xFF, 0xFFFF, p⟩
  | n + 1, no, p =>
    let t := w p
    let ty := bits t 63 56
    let level := bits t 55 52
    let idx := bits t 51 40
    let len := bits t 31 0
    let e (code : Nat) : SErr := ⟨code, no, 0xFF, 0xFFFF, p⟩
    if last < p + 4 ∨ ty = 0 ∨ 9 < ty ∨ bits t 39 32 ≠ 0 ∨ w (p + 1) ≠ 0 ∨ w (p + 2) ≠ 0 ∨ w (p + 3) ≠ 0 ∨ len % 8 ≠ 0 ∨
        last < p + 4 + len / 8 then .inl (e fsStructure)
    else if !(levelsOf ty).contains level ∨ (sectPlace level idx).isNone then .inl (e fsScope)
    else match parseItems w no ty (homeOf level idx) (len / 8 + 1) 0 (p + 4) (len / 8) with
      | none => .inl (e fsStructure)
      | some items =>
        match parseSects w last n (no + 1) (p + 4 + len / 8) with
        | .inl x => .inl x
        | .inr l => .inr (⟨no, ty, level, idx, p, len / 8, items⟩ :: l)

/-- Sections in increasing type order, those of one type apart (R399). -/
def vOrder : List Sect → Option SErr
  | [] => none
  | x :: r =>
    (match r with
      | y :: _ => expect (x.ty ≤ y.ty) (sectErr fsStructure y)
      | [] => none)
    <|> firstErr r (fun y => expect (!(y.ty == x.ty && overlap x y)) ⟨fsStructure, x.no, y.no, 0xFFFF, y.word⟩)
    <|> vOrder r

/-- Rows of a GANG item's mask. -/
def maskRows (i : Item) : List Nat := (List.range 64).filter fun r => bit (i.ps.getD 0 0) r

/-- Scope of sections for the kind, and of items in their section (R395, R399). -/
def vScope (s : State) (h : Nat) (l : List Sect) : Option SErr :=
  let kind := fstKindOf s h
  let sc := fstScope s h
  let sectOk (x : Sect) : Bool := match (sectPlace x.level x.idx).bind Place.half with
    | some k => if kind = 2 then sc == [k] else sc.contains k
    | none => kind != 2 || sc == [0, 1]
  let inScope (x : Sect) (p : Place) : Bool := covers x.level x.idx p && (match p.half with
    | some k => sc.contains k
    | none => true)
  let dieLocal (x : Sect) : Bool := !(x.ty == 3 && x.level == 2 && getF s F.HBM_MAPCFG_MODE (x.idx / 4) != 0)
  firstErr l fun x => expect (sectOk x && dieLocal x) (sectErr fsScope x) <|> firstErr x.items fun i =>
    match itemPlace i.ty i.kind i.idx i.home with
    | none => some (itemErr fsScope i)
    | some p =>
      expect (inScope x p && (i.ty != 1 || (maskRows i).all fun r => inScope x (rowPlace' r))) (itemErr fsScope i)

/-- Reserved bits of payload word k of an item. -/
def reservedMask (ty kind k : Nat) : Nat :=
  let below (n : Nat) : Nat := 2 ^ 64 - 2 ^ n
  match ty, kind with
  | 1, 1 => if k = 1 then 2 ^ 32 - 2 else 0
  | 2, 1 => 0x8080808080808080
  | 2, 2 => below 4
  | 3, 1 => 2 ^ 52 - 1
  | 3, 2 => below 32
  | 3, 3 => below 4
  | 4, 1 => 2 ^ 28 - 2 ^ 16
  | 4, 2 => 2 ^ 62 - 2 ^ 48
  | 4, 3 => below 16
  | 5, 1 => 2 ^ 30 - 1
  | 5, 2 | 5, 3 => 2 ^ 60 + (2 ^ 36 - 1)
  | 5, 4 => 2 ^ 44 - 1
  | 6, 1 => 2 ^ 16 - 1
  | 6, 2 => below 8
  | 6, 3 => 2 ^ 63 - 2 ^ 48 + (2 ^ 32 - 2 ^ 20) + (2 ^ 16 - 2 ^ 3)
  | 6, 4 => if k = 2 then below 52 else 0
  | 7, 1 => 2 ^ 63 - 2 ^ 48 + (2 ^ 32 - 2 ^ 16)
  | 7, 2 => 2 ^ 63 - 2 ^ 60 + (2 ^ 56 - 1)
  | 7, 3 => 2 ^ 63 - 2 ^ 32
  | 8, _ => below 2
  | 9, 1 | 9, 3 => below 3
  | 9, 4 | 9, 5 => below 18
  | 9, 6 => below 2
  | _, _ => 0

def vReserved (l : List Item) : Option SErr :=
  firstErr l fun i => firstErr (i.ps.zipIdx) fun e =>
    expect (e.1 &&& reservedMask i.ty i.kind e.2 == 0) (itemErr fsField i e.2)

def itemsOf (l : List Sect) : List Item := l.flatMap Sect.items
def pick (l : List Item) (ty kind : Nat) : List Item := l.filter fun i => i.ty == ty && i.kind == kind
def p0 (i : Item) : Nat := i.ps.getD 0 0

/-! Step 4: content (R400, R401). -/

/-- R173: one to eight rows of one die, or two or more whole dies. -/
def gangShape (rows : List Nat) : Bool :=
  let dies := (rows.map (· / 8)).dedup
  !rows.isEmpty && (dies.length == 1 || rows.length == 8 * dies.length)

def colmapSlots (i : Item) : List Nat := (List.range 64).map fun c => bits (i.ps.getD (c / 8) 0) (8 * (c % 8) + 6) (8 * (c % 8))

/-- A stream that configures a half for the first time meets units that calibration left failed (R503, R507). -/
def freshKind (s : State) (h : Nat) : Bool := fstKindOf s h != 2

/-- A channel listed as MAPPED must not be FENCED or in TRAINING (R255, R408). -/
def vChanmap (s : State) (fresh : Bool) (i : Item) : Option SErr :=
  firstErr (List.range 32) fun k =>
    let st := getF s F.HBM_CHST_STATE (32 * i.idx + k)
    if bit (p0 i) k ∧ (st = 1 ∨ st = 3) then some (itemErr (if st = 1 ∧ fresh then fsUnitFailed else fsMap) i) else none

/-- The link table half k has once the items are applied. -/
def linkAfter (s : State) (l : List Item) (k n : Nat) : Nat :=
  match (pick l 5 1).reverse.find? fun i => i.home == k && i.idx == n with
  | some i => p0 i
  | none => (reg s .leatLink k n).toNat

def linkPorts (w : Nat) : List Nat := ((List.range 8).filter fun i => bit w (52 + i)).map (8 * bits w 63 60 + ·)
def linkDefined (w : Nat) : Bool := bits w 59 52 != 0
def interpod (w : Nat) : Bool := bit w 51

/-- The rules of one item's own register and chapter. -/
def vItem (s : State) (h : Nat) (l : List Item) (i : Item) : Option SErr :=
  let w := p0 i
  let after := linkAfter s l i.home
  let bad (code : Nat) (c : Bool) : Option SErr := expect (!c) (itemErr code i)
  match i.ty, i.kind with
  | 1, 1 =>
    let rows := maskRows i
    bad fsGang (!gangShape rows || rows.head? != some i.idx)
  | 2, 1 =>
    let k := colmapSlots i
    bad fsField (k.any (fun x => decide (67 < x)) || k.dedup.length != 64)
      <|> bad fsUnitFailed (k.any fun x => (getUnit s utSlot (rowSlot0 i.idx + x)).st == 3)
  | 2, 2 =>
    bad fsField (decide (7 < w) && w != 15)
      <|> bad fsUnitFailed (w != 15 && (getUnit s utOptic (9 * i.idx + 8)).st == 3)
  | 3, 1 => bad fsField (decide (1 < bits w 63 62) || decide (2 < bits w 61 60))
  | 3, 2 => vChanmap s (freshKind s h) i
  | 4, 1 => bad fsField (bits w 15 0 == 0)
  | 4, 6 => bad fsRegion (!regionLegal i.home fun k => i.ps.getD k 0)
  | 5, 1 =>
    bad fsField (decide (8 < bits w 63 60))
      <|> bad fsRoute (!([1, 2, 4, 8].contains (linkPorts w).length))
      <|> bad fsRoute ((List.range 64).any fun n =>
        n != i.idx && linkDefined (after n) && (linkPorts (after n)).any (linkPorts w).contains)
      <|> bad fsUnitFailed ((getUnit s utOptic (9 * i.home + bits w 63 60)).st == 3)
  | 5, 2 => bad fsRoute ((routeLinks w).any fun n => !linkDefined (after n) || interpod (after n))
  | 5, 3 => bad fsRoute (bit w 63 || (routeLinks w).any fun n => !linkDefined (after n) || !interpod (after n))
  | 5, 4 =>
    let pod := bits w 61 55
    let hall := bits w 52 46
    let lost (role parent : Nat) (inPod : Bool) : Bool := role % 2 == 1 && decide (parent < 64) &&
      (!linkDefined (linkAfter s l i.idx parent) || (inPod && interpod (linkAfter s l i.idx parent)))
    bad fsField (decide (64 < pod) || decide (64 < hall))
      <|> bad fsRoute (lost (bits w 63 62) pod true || (lost (bits w 54 53) hall false && !bit w 45))
  | 6, 1 => bad fsField (bits w 31 24 == 0 || decide (10 < bits w 31 24) || decide (95 < bits w 23 16))
  | 6, 2 =>
    let lo := bits w 3 0
    let hi := bits w 7 4
    bad fsField (lo == 0 || decide (6 < hi) || decide (hi < lo))
  | 6, 3 =>
    let t := bits w 47 32
    bad fsField (decide (1179 < t) || (bit w 63 && t == 0))
  | 7, 1 => bad fsField (decide (bits w 47 32 < 4))
  | 7, 2 => bad fsField (bits w 59 56 != 0 && bits w 59 56 != 5)
  | 8, k => bad fsField (k != 1 && w == 3)
  | _, _ => none

/-- Sections a stream of its kind must hold (R401). -/
def vMissing (s : State) (h : Nat) (l : List Sect) : Option SErr :=
  if fstKindOf s h = 2 then none
  else
    let has (ty k : Nat) : Bool := l.any fun x => x.ty == ty && (sectPlace x.level x.idx).bind Place.half == some k
    expect ((fstScope s h).all (fun k => has 3 k && has 9 k) && l.any fun x => x.ty == 8 && x.level == 0)
      (headErr fsMissing 0)

/-- No row stands in two GANG items. -/
def vDisjoint : List Item → Option SErr
  | [] => none
  | i :: r => firstErr r (fun j => expect (!(maskRows j).any (maskRows i).contains) ⟨fsGang, i.sect, j.sect, j.no, j.word + 1⟩)
    <|> vDisjoint r

/-! What the stream asks for, laid over the present configuration. -/

/-- Leader and gang of each row once the gangs sections are applied: a row in scope that no item names stands alone. -/
def gangAfter (s : State) (l : List Sect) (r : Nat) : Nat × Nat :=
  let mine := (pick (itemsOf l) 1 1).find? fun i => (maskRows i).contains r
  match mine with
  | some i => (i.idx, p0 i)
  | none =>
    if l.any fun x => x.ty == 1 && covers x.level x.idx (rowPlace' r) then (r, 2 ^ r)
    else (rowLeader s r, ((gangRows s (rowLeader s r)).map (2 ^ ·)).sum)

/-- The owner table after the stream. -/
def planOwners (s : State) (l : List Item) : State :=
  (l.filter fun i => i.ty == 8).foldl (fun s i => setOwner s i.kind i.idx (p0 i)) s

/-- The bits of a DOMAINS item. -/
def domBit (i : Item) (n : Nat) : Bool := bit (i.ps.getD (n / 64) 0) (n % 64)

/-- Budgets, limits, pacing and domains after the stream. -/
def planPower (s : State) (l : List Item) : State :=
  (l.filter fun i => i.ty == 6).foldl (fun s i =>
    let w := p0 i
    match i.kind with
    | 1 => setReg s .pwrBudget 0 i.idx (BitVec.ofNat 64 w)
    | 2 => updHalf s (rowHalf i.idx) fun x => { x with cfg := { x.cfg with
        rowop := mset (fun _ => (1, 6)) i.idx (bits w 3 0, bits w 7 4) x.cfg.rowop } }
    | 3 => putF (putF s F.ROW_PACE_PACE_EN i.idx (bits w 63 63)) F.ROW_PACE_PACE_TARGET i.idx (bits w 47 32)
    | _ => (List.range 180).foldl (fun s n => setDomain s n (domBit i n)) s) s

/-- R38: the rows of every gang the stream leaves are paced alike. -/
def vPaceAlike (s : State) (l : List Sect) : Option SErr :=
  let t := planPower s (itemsOf l)
  let alike (r q : Nat) : Bool := isPaced t r == isPaced t q && getF t F.ROW_PACE_PACE_TARGET r == getF t F.ROW_PACE_PACE_TARGET q
  let bad := (List.range 64).filter fun r => !alike r (gangAfter s l r).1
  match bad.head? with
  | none => none
  | some r =>
    match (pick (itemsOf l) 6 3).find? fun i => (gangAfter s l i.idx).1 == (gangAfter s l r).1 with
    | some i => some (itemErr fsGang i)
    | none => some (match (pick (itemsOf l) 1 1).find? fun i => (maskRows i).contains r with
      | some i => itemErr fsGang i
      | none => headErr fsGang 0)

def vContent (s : State) (h : Nat) (l : List Sect) : Option SErr :=
  let is := itemsOf l
  firstErr is (vItem s h is) <|> vDisjoint (pick is 1 1) <|> vPaceAlike s l <|> vMissing s h l

/-! Step 5: cross-section rules (R403, R404, R462, R466). -/

/-- What an item enables: resource kind, index, the owner it needs. -/
def enables (i : Item) : Option (Nat × Nat × Nat) :=
  let w := p0 i
  match i.ty, i.kind with
  | 2, 2 => if w = 15 then none else some (4, i.idx, 1)
  | 5, 1 => if bits w 63 60 = 8 then some (4, i.home, 2) else none
  | 5, 4 => if bit w 44 then some (1, 0, 1 + i.idx) else none
  | 6, 3 => if bit w 63 then some (2, i.idx, 2) else none
  | 7, 2 => if bit w 63 then some (3, i.idx, 1) else none
  | 9, 6 => if bit w 0 then some (1, 0, 3) else none
  | _, _ => none

/-- Two features of one stream on one resource. -/
def vTwoFeatures : List Item → Option SErr
  | [] => none
  | i :: r =>
    (match enables i with
    | none => none
    | some (k, n, o) => firstErr r fun j => match enables j with
      | some (k', n', o') => expect (!(k == k' && n == n' && o != o')) ⟨fsResource, i.sect, j.sect, i.no, i.word + 1⟩
      | none => none)
    <|> vTwoFeatures r

def ownersSect (l : List Sect) : Nat := ((l.find? fun x => x.ty == 8).map Sect.no).getD 0xFF

/-- R403: every feature enabled owns its resource. -/
def vOwned (s : State) (l : List Sect) : Option SErr :=
  let t := planOwners s (itemsOf l)
  firstErr (itemsOf l) fun i => match enables i with
    | some (k, n, o) => expect (ownerOf t k n == o) { itemErr fsResource i with b := ownersSect l }
    | none => none

/-- Is the feature enabled that holds resource n of a kind as owner o now (R404)? -/
def featureOn (s : State) (k n o : Nat) : Bool :=
  match k, o with
  | 1, 3 => (half s 0).cfg.dbgTrig || (half s 1).cfg.dbgTrig
  | 1, o => o != 0 && getF s F.TB_CFG_PPS_OUT_EN (o - 1) == 1
  | 2, 1 => getF s F.ROW_CTXCTL_WDOG_LIMIT n != 0
  | 2, 2 => isPaced s n
  | 3, 1 => bit (mget z64 n (half s (n / 512)).cfg.chantest).toNat 63 || getF s F.HBM_TG_CTL_MODE n == 1
  | 3, 2 => getF s F.HBM_TG_CTL_MODE n == 2
  | 4, 1 => (half s n).cfg.oesub != 15
  | 4, 2 => (List.range 64).any fun k => linkDefined (reg s .leatLink n k).toNat && bits (reg s .leatLink n k).toNat 63 60 == 8
  | _, _ => false

def vTaken (s : State) (l : List Item) : Option SErr :=
  firstErr (l.filter fun i => i.ty == 8) fun i =>
    let o := ownerOf s i.kind i.idx
    expect (!(p0 i != o && featureOn s i.kind i.idx o)) (itemErr fsResourceBusy i)

/-- The power plan check of half k (R462, R465, R466). -/
def powerFits (t : State) : Bool :=
  let sus (k : Nat) : Nat := getF t F.PWR_BUDGET_SUSTAIN 0 k
  let bst (k : Nat) : Nat := getF t F.PWR_BUDGET_BURST 0 k
  let e (k : Nat) : Nat := (bst k - sus k) * 10 * getF t F.PWR_BUDGET_BURST_MS 0 k
  decide (sus 0 ≤ bst 0) && decide (sus 1 ≤ bst 1) && decide (sus 0 + sus 1 ≤ 1000) && decide (bst 0 + bst 1 ≤ 1200) &&
    decide (e 0 + e 1 ≤ 20000)

/-- A paced row's point lies within its limits. -/
def paceFits (t : State) (r : Nat) : Bool :=
  !isPaced t r || (match pacePoint (getF t F.ROW_PACE_PACE_TARGET r) with
    | some op => decide ((opLimits t r).1 ≤ op) && decide (op ≤ (opLimits t r).2)
    | none => false)

def vPower (s : State) (h : Nat) (l : List Sect) : Option SErr :=
  match l.find? fun x => x.ty == 6 with
  | none => none
  | some x =>
    let t := planPower s (itemsOf l)
    expect (powerFits t) (sectErr fsPower x)
      <|> firstErr (pick (itemsOf l) 6 3 ++ pick (itemsOf l) 6 2) (fun i => expect (paceFits t i.idx) (itemErr fsPower i))
      <|> expect ((fstScope s h).all fun k => decide (reserveNow t k ≤ sustainW t k)) (sectErr fsPower x)

/-- Is domain n on, or on its way? -/
def domainDue (s : State) (n : Nat) : Bool := domainOn s n || s.ramp.contains n

/-- R405 step 5: package-level entries of a HALF stream agree with the RUNNING other half. -/
def vAgree (s : State) (h : Nat) (l : List Item) : Option SErr :=
  match fstScope s h with
  | [k] =>
    if fstKindOf s h ≠ 1 ∨ !halfRunning s (1 - k) then none
    else
      firstErr (pick l 8 1) (fun i => expect (p0 i == ownerOf s 1 0) (itemErr fsCrossHalf i))
        <|> firstErr (pick l 6 4) fun i =>
          expect ((List.range 180).all fun n => domHalf n == some k || domBit i n == domainDue s n) (itemErr fsCrossHalf i)
  | _ => none

def vCross (s : State) (h : Nat) (l : List Sect) : Option SErr :=
  let is := itemsOf l
  vTwoFeatures is <|> vOwned s l <|> vTaken s is <|> vPower s h l <|> vAgree s h is

/-! Step 6: the state of the units (R255, R407, R457). -/

/-- Leaders of the present gangs that a gangs section touches. (Log 127, DEDUCED). -/
def touchedGangs (s : State) (x : Sect) : List Nat :=
  (((List.range 64).filter fun r => covers x.level x.idx (rowPlace' r)).map (rowLeader s)).dedup

def vGangs (s : State) (x : Sect) : Option SErr :=
  firstErr (touchedGangs s x) fun g =>
    expect ((gangRows s g).all fun r => covers x.level x.idx (rowPlace' r)) (sectErr fsScope x)
      <|> expect (gangState s g == gsStopped && !lent s g) (sectErr fsBusy x)

def vSpares (s : State) (i : Item) : Option SErr :=
  if i.kind = 1 then expect ([gsStopped, gsHalted].contains (gangState s (rowLeader s i.idx))) (itemErr fsBusy i)
  else expect (p0 i == 15 || (List.range 8).all fun k => portState s i.idx (8 * p0 i + k) != 2) (itemErr fsBusy i)

/-- Does a die network carry a DIEROUTE path (R400)? -/
def onPath (s : State) (d : Nat) : Bool :=
  let h := d / 4
  let route := (half s h).cfg.dieRoute
  (List.range 4).any fun i => (if bit route i then (i + 1) % 4 else (i + 3) % 4) == d % 4

/-- May domain n be switched off under the plan (R457)? A stream that starts a half finds no work to keep. -/
def mayOff (s : State) (fresh : Bool) (keeps : Nat → Bool) (n : Nat) : Bool :=
  if n < 104 then
    let d := n / 13
    let k := n % 13
    if k < 8 then
      let r := 8 * d + k
      let l := rowLeader s r
      fresh || ([gsStopped, gsHalted].contains (gangState s l) && !lent s r &&
        (!bit (getF s F.ROW_CTXCTL_CVALID l) (curCtx s l) || (seqCtl s l).away))
    else if k < 12 then !keeps (domStack (4 * d + (k - 8)))
    else
      (List.range 12).all (fun j => !keeps (13 * d + j)) && !onPath s d && !(d % 4 == 1 && keeps (domSeam 0)) &&
        !(d % 4 == 3 && keeps (domSeam 1))
  else if n < 112 then true
  else if n < 144 then (List.range 32).all fun c => getF s F.HBM_CHST_STATE (32 * (n - 112) + c) == 2
  else if n < 162 then
    let e := n - 144
    let h := e / 9
    (List.range 8).all (fun k => [0, 3].contains (portState s h (8 * (e % 9) + k))) &&
      !(lomUp s h && lomEngine s h (lomActive s h) == e)
  else if n < 170 then
    let h := (n - 162) / 4
    match (n - 162) % 4 with
    | 0 => false
    | 3 => !((half s h).solv.any fun r => r.done.isNone)
    | k => (List.range 12).all fun c =>
        let u : Proc := .node (BitVec.ofNat 1 h) (BitVec.ofNat 5 (12 * (k - 1) + c))
        (getCtl s u).halted || (mfind (progKey u 0) s.progs).isNone
  else if n < 174 then (n - 170) % 2 == 1 && !((getRuns s ((n - 170) / 2)).any launched)
  else if n < 176 then getF s F.SEAM_STATE_STATE (n - 174) == 1 || [0, 1].any fun k => halfState s k == hsOff
  else false

def vDomains (s : State) (h : Nat) (i : Item) : Option SErr :=
  let off := (List.range 180).filter fun n => domainDue s n && !domBit i n
  expect (off.all (mayOff s (freshKind s h) (domBit i))) (itemErr fsBusy i)

/-- The map of half k: mode, granule, reserve, and the listed channels of each stack, as the stream leaves them. -/
def mapAfterStream (s : State) (l : List Item) : State :=
  let s := (pick l 3 1).foldl (fun s i => setReg s .hbmMapcfg i.idx 0 (BitVec.ofNat 64 (p0 i))) s
  (pick l 3 2).foldl (fun s i => (List.range 32).foldl (fun s k =>
    let ch := 32 * i.idx + k
    putF s F.HBM_CHST_STATE ch (if bit (p0 i) k then 0 else if getF s F.HBM_CHST_STATE ch = 3 then 3 else 2)) s) s

/-- What makes a window what it is (R255): its half's settings and its stacks' listed channels. -/
def windowKey (s : State) (h n : Nat) : W64 × List Bool :=
  let spread := getF s F.HBM_MAPCFG_MODE h = 1
  let first := if spread then 16 * h else 16 * h + 4 * n
  (reg s .hbmMapcfg h 0, (List.range (if spread then 512 else 128)).map fun c => chListed s (32 * first + c))

/-- Windows of half h the section touches; a change of routes touches every one. -/
def touchedWindows (s : State) (l : List Item) (h : Nat) : List Nat :=
  let t := mapAfterStream s l
  let route := (pick l 3 3).any fun i => i.idx == h && p0 i != (half s h).cfg.dieRoute
  (List.range 4).filter fun n => route || windowKey s h n != windowKey t h n

/-- The window of its half that an address lies in (R246). -/
def windowIndex (s : State) (a : Nat) : Nat := if getF s F.HBM_MAPCFG_MODE (addrHalf a) = 0 then a / 2 ^ 39 % 4 else 0

def vMemory (s : State) (x : Sect) : Option SErr :=
  let h := homeOf x.level x.idx
  let ws := touchedWindows s x.items h
  expect (ckState s h == ckIdle) (sectErr fsBusy x)
    <|> expect (!(waitingAddrs s h).any fun a => ws.contains (windowIndex s a)) (sectErr fsBusy x)

/-- R321: the entry replaced, where a new job takes it over. -/
def vRegion (s : State) (i : Item) : Option SErr :=
  if i.kind = 6 then expect (reuseLegal (regionWord s i.home i.idx) fun k => i.ps.getD k 0) (itemErr fsRegion i) else none

def vState (s : State) (h : Nat) (l : List Sect) : Option SErr :=
  let is := itemsOf l
  let byNode := (half s h).fstBy
  let part := fstKindOf s h = 2
  expect (!(byNode && (fstKindOf s h != 2 || l.any (fun x => x.ty == 9) || !bit (half s h).cfg.writers 2)))
      (headErr fsNotPermitted 0)
    <|> (if part then
      firstErr (l.filter fun x => x.ty == 1) (vGangs s)
        <|> firstErr (is.filter fun i => i.ty == 2) (vSpares s)
        <|> firstErr (l.filter fun x => x.ty == 3) (vMemory s)
        <|> firstErr (is.filter fun i => i.ty == 4) (vRegion s)
      else none)
    <|> firstErr (pick is 6 4) (vDomains s h)

/-- The sections of the staged stream. -/
def fstParse (s : State) (h : Nat) : Sum SErr (List Sect) :=
  parseSects (fstW s h) (fstLen s h / 8 - 17) (fstSects s h) 0 64

/-- The first failure of R405, or the sections of a valid stream. -/
def validate (s : State) (h : Nat) : Sum SErr (List Sect) :=
  match vHeader s h <|> vOrigin s h with
  | some e => .inl e
  | none =>
    match fstParse s h with
    | .inl e => .inl e
    | .inr l =>
      match vOrder l <|> vScope s h l <|> vReserved (itemsOf l) <|> vContent s h l <|> vCross s h l <|> vState s h l with
      | some e => .inl e
      | none => .inr l

/-! APPLY and DISCARD (R396, R504). -/

def fsIdle : Nat := 0
def fsCommitting : Nat := 2
def fsAccepted : Nat := 3
def fsRefused : Nat := 4

def setFstState (s : State) (h v : Nat) : State := putF s F.FST_STAT_STATE h v

/-- FST_ERR of half k (R408), found by half h. -/
def setFstErr (s : State) (k h : Nat) (e : SErr) : State :=
  setReg s .fstErr k 0 (BitVec.ofNat 64 (e.code * 2 ^ 56 + e.a * 2 ^ 48 + e.b * 2 ^ 40 + e.item * 2 ^ 24 + h * 2 ^ 23 +
    e.word % 2 ^ 23))

def noErr : SErr := ⟨0, 0xFF, 0xFF, 0xFFFF, 0⟩

/-- Halves whose FST block shows the stream: both for a FULL one (R406). -/
def fstShown (s : State) (h : Nat) : List Nat := if fstKindOf s h = 0 then [0, 1] else [h]

/-- A refused stream (R405): the error, REFUSED, nothing else. -/
def refuseStream (s : State) (h : Nat) (e : SErr) : State :=
  (fstShown s h).foldl (fun s k =>
    let s := setFstState (setFstErr s k h e) k fsRefused
    updHalf s k fun x => { x with fstKind := none }) s

/-- The other half's copy of a FULL stream (R396). (Log 126, DEDUCED). -/
def copyWindow (s : State) (h : Nat) : State :=
  let base (k : Nat) : Nat := regAddr .fstWindow k 0
  { s with mg := mreplaceD mgDefault (base (1 - h)) (base (1 - h) + 2 ^ 24) (mslice (base h) (base h + 2 ^ 24) s.mg) s.mg }

/-- A validated stream waits for its commit in every half in scope. -/
def holdStream (s : State) (h : Nat) (byNode : Bool) : State :=
  let kind := fstKindOf s h
  let ks := if kind = 2 then [h] else fstScope s h
  let s := if kind = 0 then copyWindow s h else s
  ks.foldl (fun s k => updHalf (setFstState (setFstErr s k h noErr) k fsCommitting) k fun x =>
    { x with fstKind := some kind, fstBy := byNode }) s

def isNode : Requester → Bool
  | .node _ => true
  | _ => false

/-- Halves the staged stream's scope includes, as R504 asks. -/
def applyScope (s : State) (h : Nat) : List Nat := if fstKindOf s h = 0 then [0, 1] else (fstScope s h)

/-- Did node software write a word of the staged stream (R407)? (Log 164, DEDUCED). -/
def nodeStaged (s : State) (h : Nat) : Bool := (half s h).fstNode.any fun k => decide (8 * k < fstLen s h)

/-- APPLY: refused while a stream is under way and before calibration has ended. (Log 125, DEDUCED). -/
def applyCmd (s : State) (by' : Requester) (h : Nat) : State :=
  guarded s by' .fstCtl h 0 fun s =>
    if [1, 2].contains (getF s F.FST_STAT_STATE h) ∨ (applyScope s h).any (fun k => getF s F.DEV_CAL_DONE 0 k == 0) then
      denied s by'
    else
      let byNode := isNode by' || nodeStaged s h
      let s := updHalf s h fun x => { x with fstBy := byNode }
      done (match validate s h with
        | .inl e => refuseStream s h e
        | .inr _ => holdStream s h byNode)

/-- DISCARD. -/
def discardCmd (s : State) (by' : Requester) (h : Nat) : State :=
  guarded s by' .fstCtl h 0 fun s =>
    if [1, 2].contains (getF s F.FST_STAT_STATE h) then denied s by'
    else
      let a := regAddr .fstWindow h 0
      let s := updHalf s h fun x => { x with fstNode := [] }
      done (setFstState { s with mg := mdrop (fun k => decide (a ≤ k) && decide (k < a + 2 ^ 24)) s.mg } h fsIdle)

def execFstApply (by' : Requester) (h : BitVec 1) (s : State) : Out := .next (applyCmd s by' h.toNat)
def execFstDiscard (by' : Requester) (h : BitVec 1) (s : State) : Out := .next (discardCmd s by' h.toNat)

def fstCtlWrite (s : State) (by' : Requester) (h : Nat) (v : W64) : State :=
  match bits v.toNat 1 0 with
  | 1 => applyCmd s by' h
  | 2 => discardCmd s by' h
  | _ => guarded s by' .fstCtl h 0 fun s => denied s by'

/-- A write of a window word, remembered where node software makes it. -/
def fstWindowWrite (s : State) (by' : Requester) (h k : Nat) (v : W64) : State :=
  guarded s by' .fstWindow h k fun s =>
    if [1, 2].contains (getF s F.FST_STAT_STATE h) then denied s by'
    else
      let s := updHalf s h fun x =>
        { x with fstNode := (if isNode by' then [k] else []) ++ x.fstNode.filter (· != k) }
      done (setReg s .fstWindow h k v)

/-! Commit (R406). -/

def updCfg (s : State) (h : Nat) (f : Cfg → Cfg) : State := updHalf s h fun x => { x with cfg := f x.cfg }

/-- Security policy items. -/
def commitPolicy (s : State) (i : Item) : State :=
  let w := p0 i
  let h := i.idx
  match i.kind with
  | 1 => updCfg s h fun c => { c with writers := w }
  | 2 =>
    let key := i.ps.map (BitVec.ofNat 64)
    let none := key.all (· == 0)
    putF (updCfg s h fun c => { c with hostKey := if none then [] else key }) F.LOM_CFG_HOSTAUTH h (if none then 0 else 1)
  | 3 =>
    let s := putF (putF s F.LOM_CFG_XMGMT h (bits w 0 0)) F.LOM_CFG_EVFWD h (bits w 1 1)
    forwardCheck (updCfg s h fun c => { c with nonceReq := bit w 2 }) h
  | 4 => updCfg s h fun c => { c with hostRead := w }
  | 5 => updCfg s h fun c => { c with hostWrite := w }
  | _ =>
    let s := updCfg s h fun c => { c with dbgTrig := bit w 0, dbgUnlock := bit w 1 }
    if !bit w 1 ∧ (getSec s h).challenge then dropChallenge s h else s

/-- Power plan items: a paced gang that runs changes at its next boundary (R45). -/
def commitPower (s : State) (i : Item) : State :=
  let w := p0 i
  match i.kind with
  | 1 =>
    let s := setReg s .pwrBudget 0 i.idx (BitVec.ofNat 64 w)
    if (half s i.idx).bucketOn then setBucket s i.idx (min (half s i.idx).bucket (bucketMax s i.idx * 100)) else s
  | 2 => updCfg s (rowHalf i.idx) fun c => { c with rowop := mset (fun _ => (1, 6)) i.idx (bits w 3 0, bits w 7 4) c.rowop }
  | 3 =>
    let v := setBits (setBits 0 63 63 (bits w 63 63)) 47 32 (bits w 47 32)
    paceTake s i.idx v
  | _ =>
    let s := (List.range 180).foldl (fun s n => if domBit i n then s else switchOff s n) s
    { s with ramp := s.ramp ++ (List.range 180).filter fun n => domBit i n && !domainDue s n }

/-- An OESUB item (R400, R419): OE8 takes the links of engine n, which train on its ports; links of the engine it served
before return to their own. -/
def commitOesub (s : State) (h n : Nat) : State :=
  let old := (half s h).cfg.oesub
  if n = old then s
  else
    let s := if old = 15 then s else engineDown s (9 * h + 8)
    let s := updCfg s h fun c => { c with oesub := n }
    let moved := (List.range 64).filter fun l =>
      let w := (reg s .leatLink h l).toNat
      linkDefined w && (bits w 63 60 == n || bits w 63 60 == old)
    moved.foldl (fun s l => (portsOf s h l).foldl (fun s p =>
      if portState s h p = 2 then s else putF (putF s F.LEAT_PORT_STATE h 1 p) F.LEAT_PORT_LINK h l p) s) s

def commitSpare (s : State) (i : Item) : State :=
  if i.kind = 1 then
    let r := i.idx
    let old := (List.range 64).map fun c => slotOf s r c - rowSlot0 r
    remapUnits (setWords s .rowColmap r 0 (i.ps.map (BitVec.ofNat 64))) r old (colmapSlots i)
  else commitOesub s i.idx (p0 i)

/-- Lengths of the half's windows: N × C (R247, R248). -/
def setWinlens (s : State) (h : Nat) : State :=
  let n (first : Nat) (c : Nat) : Nat := 2 * ((rangeFrom (32 * first) c).filter (chListed s)).length * pcBytes s h
  let spread := getF s F.HBM_MAPCFG_MODE h = 1
  (List.range 4).foldl (fun s k =>
    putF s F.HBM_WINLEN_LENGTH h (if spread then (if k = 0 then n (16 * h) 512 else 0) else n (16 * h + 4 * k) 128) k) s

/-- A memory map section: windows that change hold nothing defined (R256, R508). -/
def commitMemory (s : State) (l : List Item) (h : Nat) : State :=
  let t := mapAfterStream s l
  let changed := (List.range 4).filter fun n => windowKey s h n != windowKey t h n
  let lost (a : Nat) : Bool := decide (a / 2 ^ 41 = h) && changed.contains (a / 2 ^ 39 % 4)
  let t := (pick l 3 3).foldl (fun s i => updCfg s i.idx fun c => { c with dieRoute := p0 i }) t
  let t := setWinlens { t with hbm := mdrop lost t.hbm } h
  updHalf t h fun x => { x with accs := mdrop lost x.accs }

/-- Gangs: rows whose gang changes lose their contexts; new ones are created (R407, R148). -/
def commitGangs (s : State) (l : List Sect) : State :=
  let after := (List.range 64).map (gangAfter s l)
  let mask (r : Nat) : Nat := (after.getD r (r, 2 ^ r)).2
  let lead (r : Nat) : Nat := (after.getD r (r, 2 ^ r)).1
  let now (r : Nat) : Nat := ((gangRows s (rowLeader s r)).map (2 ^ ·)).sum
  let changed := (List.range 64).filter fun r => mask r != now r
  let s := changed.foldl (fun s r =>
    let rows := (List.range 64).filter fun q => bit (mask r) q
    let w := lead r * 2 ^ 58 + rows.length * 2 ^ 51 + (rows.idxOf r) * 2 ^ 45 + (if 8 < rows.length then 2 ^ 44 else 0)
    let s := setReg (setReg s .rowGang r 0 (BitVec.ofNat 64 w)) .rowCtxctl r 0 (regDefault .rowCtxctl r 0)
    let s := putF (setGangState s r gsStopped) F.ROW_STATUS_CTX r 0
    { s with saves := mdrop (fun k => k / 4 == r) s.saves }) s
  let s := (pick (itemsOf l) 1 1).foldl (fun s i =>
    (maskRows i).foldl (fun s r => setReg s .rowDetmode r 0 (BitVec.ofNat 64 (i.ps.getD 1 0))) s) s
  let alone := changed.filter fun r => !((pick (itemsOf l) 1 1).any fun i => (maskRows i).contains r)
  let s := alone.foldl (fun s r => setReg s .rowDetmode r 0 0) s
  (changed.filter fun r => lead r == r).foldl freshContext s

/-- A link: ports of an unchanged definition that are UP stay; a new one trains (R300, R406). -/
def commitLink (s : State) (i : Item) : State :=
  let h := i.home
  let old := (reg s .leatLink h i.idx).toNat
  let was := if linkDefined old then portsOf s h i.idx else []
  let same := old = p0 i
  let s := if same then s
    else
      let up := linkUp s h i.idx
      let s := was.foldl (fun s p => putF s F.LEAT_PORT_STATE h 0 p) s
      if up then linkDown s h i.idx else s
  let s := setReg s .leatLink h i.idx (BitVec.ofNat 64 (p0 i))
  (portsOf s h i.idx).foldl (fun s p =>
    if portState s h p = 2 then s else putF (putF s F.LEAT_PORT_STATE h 1 p) F.LEAT_PORT_LINK h i.idx p) s

/-- Time roles: a half without a role is FREE (R329). -/
def commitTime (s : State) (h w : Nat) : State :=
  let s := setReg s .tbCfg h 0 (BitVec.ofNat 64 w)
  let s := updHalf s h fun x => { x with
    tb := { x.tb with pod := { x.tb.pod with took := false }, hall := { x.tb.hall with took := false } } }
  let s := if getF s F.TB_CFG_POD_ROLE h = 0 then setTimeState s h false tsFree else s
  if getF s F.TB_CFG_HALL_ROLE h = 0 ∧ getF s F.TB_CFG_PPS_IN_EN h = 0 then setTimeState s h true tsFree else s

def commitRoute (s : State) (i : Item) : State :=
  match i.kind with
  | 1 => commitLink s i
  | 2 => setReg s .leatRoute i.home i.idx (BitVec.ofNat 64 (p0 i))
  | 3 => setReg s .leatPodroute i.home i.idx (BitVec.ofNat 64 (p0 i))
  | _ => commitTime s i.idx (p0 i)

def commitRegion (s : State) (i : Item) : State :=
  let w := BitVec.ofNat 64 (p0 i)
  match i.kind with
  | 1 => setReg s .leatCfg i.idx 0 w
  | 2 =>
    let s' := setReg s .leatJob i.home i.idx (storedWord .leatJob (reg s .leatJob i.home i.idx) w)
    if getF s F.LEAT_JOB_EPOCH i.home i.idx = bits w.toNat 47 32 then s' else putF s' F.LEAT_JOB_DRAINED i.home 0 i.idx
  | 3 => setReg s .leatBind i.home i.idx w
  | 4 => setReg s .leatSrcinc i.home i.idx w
  | 5 => setWords s .leatSset i.home (8 * i.idx) (i.ps.map (BitVec.ofNat 64))
  | _ => putRegion s i.home i.idx fun k => i.ps.getD k 0

def commitTest (s : State) (i : Item) : State :=
  let w := BitVec.ofNat 64 (p0 i)
  match i.kind with
  | 1 => updCfg s (rowHalf i.idx) fun c => { c with rowtest := mset z64 i.idx w c.rowtest }
  | 2 => updCfg s (i.idx / 512) fun c => { c with chantest := mset z64 i.idx w c.chantest }
  | _ => updCfg s (i.idx / 9) fun c => { c with opttest := mset z64 i.idx w c.opttest }

/-- Is the item of a half that commits? Package-level entries always are. -/
def itemIn (ks : List Nat) (i : Item) : Bool :=
  match (itemPlace i.ty i.kind i.idx i.home).bind Place.half with
  | some k => ks.contains k
  | none => true

/-- The items in section order (R406). -/
def commitItems (s : State) (l : List Sect) (ks : List Nat) : State :=
  let is := (itemsOf l).filter (itemIn ks)
  let run (ty : Nat) (f : State → Item → State) (s : State) : State := (is.filter fun i => i.ty == ty).foldl f s
  let s := run 9 commitPolicy s
  let s := run 8 (fun s i => setOwner s i.kind i.idx (p0 i)) s
  let s := run 6 commitPower s
  let s := run 2 commitSpare s
  let s := ks.foldl (fun s k =>
    let mine := is.filter fun i => i.ty == 3 && itemIn [k] i
    if mine.isEmpty then s else commitMemory s mine k) s
  let s := if l.any fun x => x.ty == 1 then commitGangs s l else s
  run 7 commitTest (run 4 commitRegion (run 5 commitRoute s))

/-- MR2 takes the SHA-512 of each section, header included, in stream order (R406, R437). -/
def measureStream (s : State) (h k : Nat) (l : List Sect) : State :=
  l.foldl (fun s x => extendMr s k 2 (sha (fstBytes s h (8 * x.word) (32 + 8 * x.len)))) s

/-- A half enters RUNNING (R395, R463): its bucket is full, its solver engine IDLE. -/
def enterRunning (s : State) (k : Nat) : State :=
  let s := putF (setHalfState s k hsRunning) F.SOLV_STAT_STATE k 0
  fillBucket (updHalf s k fun x => { x with bucketOn := true }) k

/-- The halves that commit the stream h holds: those of its scope where it still waits (R409). -/
def committers (s : State) (h : Nat) : List Nat :=
  if (half s h).fstKind = some 2 then fstScope s h
  else (fstScope s h).filter fun k => (half s k).fstKind.isSome && committing s k && halfState s k == hsLoaded

/-- What a waiting quote now covers (R448). -/
def quoteAfter (s : State) (k : Nat) : State :=
  if getF s F.SEC_QCTL_BUSY k = 1 ∧ (getSec s k).quote.isNone then captureQuote s k else s

/-- The commit of a validated stream in the halves `ks`. -/
def commitStream (s : State) (h : Nat) (l : List Sect) (ks : List Nat) : State :=
  let kind := fstKindOf s h
  let s := commitItems s l ks
  let s := ks.foldl (fun s k => measureStream s h k l) s
  let s := ks.foldl (fun s k => putF s F.FST_STAT_GEN k ((prevGen s h k + 1) % 2 ^ 32)) s
  let s := ks.foldl (fun s k => if kind = 2 then s else enterRunning s k) s
  ((if kind = 2 then [h] else ks).dedup).foldl (fun s k =>
    quoteAfter (updHalf (setFstState s k fsAccepted) k fun x => { x with fstKind := none }) k) s

/-- STREAM_COMMIT (R406, R439): a held stream, whose state conditions still hold, commits whole; it waits while a quote is
BUSY. -/
def execStreamCommit (h : BitVec 1) (s : State) : Out :=
  .next (
    let h := h.toNat
    let ks := committers s h
    if (half s h).fstKind.isNone ∨ !committing s h ∨ ks.any (fun k => (getSec s k).quote.isSome) then s
    else match fstParse s h with
      | .inl e => refuseStream s h e
      | .inr l =>
        let mine := l.map fun x => { x with items := x.items.filter (itemIn ks) }
        match firstErr (pick (itemsOf mine) 3 2) (vChanmap s false) <|> vState s h mine with
        | some e => refuseStream s h e
        | none => commitStream s h l ks)

end Sys2Proof.Machine
end

