-- ==== Sys2Proof/Machine/Mgmt.lean ====
section
/-! DEFINITION. Reads and writes of the management space as one access each (R7-R10, R382, R387, R422, R493-R499), every
register by its own rule. -/

namespace Sys2Proof.Machine

/-! Writes. -/

/-- CORE_ARITH (R81): flags clear where 1 is written, SAT_CLR clears SAT_COUNT. -/
def arithWrite (s : State) (by' : Requester) (slot : Nat) (v : W64) : State :=
  guarded s by' .coreArith slot 0 fun s =>
    let w := storedWord .coreArith (reg s .coreArith slot 0) v
    done (setReg s .coreArith slot 0 (if bit v.toNat 7 then setBits w 47 32 0 else w))

/-- CORE_VEXC (R134, R135): the ACTION of the core that serves a column of its row. -/
def vexcWrite (s : State) (by' : Requester) (slot : Nat) (v : W64) : State :=
  guarded s by' .coreVexc slot 0 fun s =>
    let r := slotRow slot
    match (List.range 64).find? fun c => slotOf s r c == slot with
    | some c => done (vAction s (BitVec.ofNat 6 r) (BitVec.ofNat 6 c) (BitVec.ofNat 2 (bits v.toNat 63 62)))
    | none => done s

/-- Row control core SRAM through the management space (R499). -/
def sramWrite (s : State) (by' : Requester) (row k : Nat) (v : W64) : State :=
  guarded s by' .rowSram row k fun s =>
    if [gsRunning, gsSwitching].contains (gangState s (rowLeader s row)) then denied s by'
    else done (setReg s .rowSram row k v)

/-- COLL_SQ and COLL_CQ (R336): as SOLV_SQ, while both rings are empty and no collective runs. (Log 97, DEDUCED). -/
def collRingWrite (s : State) (by' : Requester) (r : Reg) (h : Nat) (v : W64) : State :=
  guarded s by' r h 0 fun s =>
    let n := bits v.toNat 3 0
    if collPosted s h ≠ 0 ∨ (half s h).collTail ≠ getF s F.COLL_DB_CQ_HEAD h ∨ (getRuns s h).any launched ∨
        (n ≠ 0 ∧ (n < 5 ∨ 9 < n)) then denied s by'
    else plainWrite s by' r h 0 v

/-- COLL_GROUPn (R336): word 0 only while no collective of the group runs; LIST is 8-byte aligned and in this half. -/
def collGroupWrite (s : State) (by' : Requester) (r : Reg) (h n : Nat) (v : W64) : State :=
  guarded s by' r h n fun s =>
    if (if r = .collGroupW0 then (runOf s h n).isSome
        else bits v.toNat 47 0 % 8 ≠ 0 ∨ bits v.toNat 47 0 / 2 ^ 41 ≠ h) then denied s by'
    else plainWrite s by' r h n v

/-- A CKP register whose value is a multiple of 64 KiB (R351); a region's size is not 0. (Log 141, DEDUCED). -/
def ckpAlignedWrite (s : State) (by' : Requester) (r : Reg) (h n : Nat) (v : W64) : State :=
  guarded s by' r h n fun s =>
    let x := if r = .ckpDest then v.toNat else bits v.toNat 47 0
    if x % 65536 ≠ 0 ∨ (r = .ckpRegionW1 ∧ bits v.toNat 43 0 = 0) then denied s by'
    else plainWrite s by' r h n v

/-- CKP_RREP (R367): a package address in this half. -/
def ckpRrepWrite (s : State) (by' : Requester) (h : Nat) (v : W64) : State :=
  guarded s by' .ckpRrep h 0 fun s =>
    if v.toNat / 2 ^ 41 ≠ h then denied s by' else plainWrite s by' .ckpRrep h 0 v

/-- A word of a write-only window, kept for the command that uses it. -/
def windowWrite (s : State) (by' : Requester) (r : Reg) (i k : Nat) (v : W64) : State :=
  guarded s by' r i k fun s => done (setReg s r i k v)

/-- A write of word k of register r in instance i, by the register's own rule. -/
def writeTo (s : State) (by' : Requester) (r : Reg) (i k : Nat) (v : W64) : State :=
  match r with
  | .devHalf => devHalfWrite s by' k v
  | .devUcmd => devUcmdWrite s by' k v
  | .coreArith => arithWrite s by' i v
  | .coreVexc => vexcWrite s by' i v
  | .rowCtl => rowCtlWrite s by' i v
  | .rowImctl => imctlWrite s by' i v
  | .rowColmap => colmapSet s by' i k v
  | .rowCtxctl => ctxctlWrite s by' i v
  | .rowCtxW0 | .rowCtxW1 => ctxWordWrite s by' r i k v
  | .rowPace => paceSet s by' i v
  | .rowDetmode => detmodeSet s by' i v
  | .rowPshadow => pshadowSet s by' i k v
  | .rowPactive => pactiveSet s by' i k v
  | .rowBank0 => instrWrite s by' i 0 k v
  | .rowBank1 => instrWrite s by' i 1 k v
  | .rowSram => sramWrite s by' i k v
  | .hbmRepoch => epochWrite s by' i k v
  | .hbmTgCtl => tgWrite s by' i v
  | .leatJob => jobWrite s by' i k v
  | .leatRcommit => rcommitWrite s by' i v
  | .collSq | .collCq => collRingWrite s by' r i v
  | .collDb => collDbWrite s by' i v
  | .collGroupW0 | .collGroupW1 => collGroupWrite s by' r i k v
  | .tbCfg => ppsOutWrite s by' i v
  | .tbHallset => hallsetWrite s by' i v
  | .ckpCfg => ckpCfgWrite s by' i v
  | .ckpCtl => ckpCtlWrite s by' i v
  | .ckpTarget => ckpTargetSet s by' i v
  | .ckpRctl => ckpRctlWrite s by' i v
  | .ckpDest | .ckpRegionW0 | .ckpRegionW1 => ckpAlignedWrite s by' r i k v
  | .ckpRrep => ckpRrepWrite s by' i v
  | .lomCfg => lomCfgWrite s by' i v
  | .lomEvpost => evpostWrite s by' i v
  | .lomQctl => qctlWrite s by' i k v
  | .lomHdb => hdbWrite s by' i k v
  | .secBctl => secBctlWrite s by' i v
  | .secQctl => secQctlWrite s by' i v
  | .secDbgctl => secDbgctlWrite s by' i v
  | .secMext | .secDbgresp => windowWrite s by' r i k v
  | .fstCtl => fstCtlWrite s by' i v
  | .fstWindow => fstWindowWrite s by' i k v
  | .solvSq | .solvCq => solvRingWrite s by' r i v
  | .solvDb => solvDbWrite s by' i v
  | _ => guarded s by' r i k fun s => plainWrite s by' r i k v

/-- A write access of `size` bytes (R7): anything but an aligned 64-bit access is refused. -/
def writeReg (s : State) (by' : Requester) (addr size : Nat) (v : W64) : State :=
  if size ≠ 8 ∨ addr % 8 ≠ 0 then denied s by'
  else match regAt addr with
    | some (r, i, k) => writeTo s by' r i k v
    | none => match gate s by' true addr with
      | some c => refuseAcc s by' c
      | none => denied s by'

/-- The bits of W1C fields among `v`. -/
def w1cBits (r : Reg) (v : W64) : W64 :=
  (regSpec r).fields.foldl (fun w f =>
    match f.acc with
    | .w1c => setBits w f.hi f.lo (bits v.toNat f.hi f.lo)
    | _ => w) 0

/-- Status bits the part sets at the moment of a write win over it (R10). -/
def setDuring (s : State) (addr : Nat) (sets : W64) : State :=
  match regAt addr with
  | some (r, i, k) =>
    if w1cBits r sets ≠ 0 ∧ blockOn s (regSpec r).blk i then setReg s r i k (reg s r i k ||| w1cBits r sets) else s
  | none => s

/-- REGISTER_WRITE (R9, R10). -/
def execRegisterWrite (by' : Requester) (addr : BitVec 48) (size : Nat) (v : RegData) (s : State) : Out :=
  .next (setDuring (writeReg s by' addr.toNat size v.word) addr.toNat v.sets)

/-! Reads. -/

/-- Requests that wait for an answer at control hoist e of half h (R257, R499). -/
def hoistOutst (s : State) (h e : Nat) : Nat :=
  min engineMax (engineBusy s (4480 + 32 * h + e))

/-- What word k of register r in instance i shows: values formed at the read, 0 while the domain is off (R497), an
unpowered bridge RETIRED (R280). (Log 57, DESIGN CHOICE). -/
def shownWord (s : State) (r : Reg) (i k : Nat) : W64 :=
  if !blockOn s (regSpec r).blk i then (if r = .seamState then setBits 0 63 62 2 else 0)
  else
    let w := readWord r (reg s r i k)
    match r with
    | .devUstat => devUstat s k
    | .pwrMeas => setBits w 15 0 (reserveNow s k)
    | .hoistStat => setBits w 41 32 (hoistOutst s i k)
    | _ => w

/-- What a read leaves behind: RC fields cleared (R9), HEARD and CORRECTED of the unit selected (R422), an entry of the
error log seen (R423). LOM_HDB is cleared by node software's reads only (R387). (Log 124, DEDUCED). -/
def afterRead (s : State) (by' : Requester) (r : Reg) (i k : Nat) : State :=
  if !blockOn s (regSpec r).blk i then s
  else match r with
    | .devUstat => ustatClear s k
    | .devElog =>
      let h := k / 16384
      let j := k % 16384 / 4
      updHalf s h fun x => { x with seen := mset zNat j (mget zNat j x.seen ||| 2 ^ (k % 4)) x.seen }
    | .lomHdb => match by' with
      | .host _ => s
      | _ => setReg s r i k 0
    | _ => setReg s r i k (clearedWord r (reg s r i k))

/-- Bits and counts the part sets at the moment of the read come after the clear (R10); those of DEV_USTAT are the selected
unit's. -/
def setAfter (s : State) (r : Reg) (i k : Nat) (sets : W64) : State :=
  if r = .devUstat then
    let (ut, ui) := selected s k
    if !unitOf k ut ui ∨ !hasTest ut then s
    else updUnit s ut ui fun u => { u with
      heard := satAdd 16 u.heard (bits sets.toNat 47 32), corrected := satAdd 16 u.corrected (bits sets.toNat 31 16) }
  else setReg s r i k (reg s r i k ||| (sets &&& (clearedWord r sets ^^^ sets)))

/-- A read access of `size` bytes to a register (R7); the value is the answer. (Log 12, DEDUCED). -/
def readReg (s : State) (by' : Requester) (addr size : Nat) : State :=
  if size ≠ 8 ∨ addr % 8 ≠ 0 then denied s by'
  else match gate s by' false addr, regAt addr with
    | some c, _ => refuseAcc s by' c
    | none, none => denied s by'
    | none, some (r, i, k) => answer (afterRead s by' r i k) (.value (shownWord s r i k))

/-- READ_TO_CLEAR (R9, R10). -/
def execReadToClear (by' : Requester) (addr : BitVec 48) (rd : RegRead) (s : State) : Out :=
  .next (
    let s' := readReg s by' addr.toNat rd.size
    match s'.resp, regAt addr.toNat with
    | .value _, some (r, i, k) => if blockOn s (regSpec r).blk i then setAfter s' r i k rd.sets else s'
    | _, _ => s')

/-! Loads and stores of the control subset (R159). -/

def loadAddr (c : Ctl) (w : BitVec 56) : Nat := (sreg c (fSA w) + w64 (sIMM32 w)).toNat

/-- What a control core's access finds: the offset in its own SRAM, a register, memory, or nothing it may address. -/
inductive Target where
  | sram (row off : Nat)
  | reg (addr : Nat)
  | mem (half addr : Nat)
  | none
deriving DecidableEq, Repr

/-- Where a stream's aligned 64-bit access goes: a row control core reaches its SRAM and its own row's block, a node core
the whole address map. (Log 14, DEDUCED). -/
def loadTarget (u : Proc) (a : Nat) : Target :=
  if a % 8 ≠ 0 then .none
  else match u with
    | .seq _ => .none
    | .rcc r =>
      let b := blockBase .row r.toNat
      if a < b ∨ b + 0x80000 ≤ a then .none
      else if b + 0x40000 ≤ a then .sram r.toNat (a - b - 0x40000)
      else .reg a
    | .node h _ => if a < hbmEnd ∨ inAperture a then .mem h.toNat a else .reg a

/-- The requester a control core's register accesses come from. -/
def procRequester : Proc → Requester
  | .seq l => .firmware (BitVec.ofNat 1 (rowHalf l.toNat))
  | .rcc r => .firmware (BitVec.ofNat 1 (rowHalf r.toNat))
  | .node h _ => .node h

/-- The loaded value, if the access is served. (Log 13, DEDUCED). -/
def loadFrom (s : State) (u : Proc) (t : Target) : State × Option W64 :=
  match t with
  | .none => (s, none)
  | .sram r o => (s, some (reg s .rowSram r (o / 8)))
  | .reg a =>
    let s := readReg s (procRequester u) a 8
    match s.resp with
    | .value v => (s, some v)
    | _ => (s, none)
  | .mem h a =>
    let (c, bs) := memRead s h a 8 (.core u)
    if c = 0 then (s, some (BitVec.ofNat 64 (ofBytes bs))) else (answer s (.code c), none)

/-- The store, and whether it was served. -/
def storeTo (s : State) (u : Proc) (t : Target) (v : W64) : State × Bool :=
  match t with
  | .none => (s, false)
  | .sram r o => (setReg s .rowSram r (o / 8) v, true)
  | .reg a =>
    let s := writeReg s (procRequester u) a 8 v
    (s, s.resp == .ok)
  | .mem h a =>
    match memWrite s h a (toBytes 8 v.toNat) (.core u) with
    | (s, some c) => if c = 0 then (s, true) else (answer s (.code c), false)
    | (s, none) => (s, true)

/-- An access that is not served: a row control core's is refused with ADDR_CLASS (R159); a node core keeps its place,
the access error or memory code answered (R493). An address no access of it may name is ADDR_CLASS too. -/
def accessRefused (s : State) (u : Proc) (t : Target) : State :=
  match u, t with
  | .node .., .none => refuseNext s u rcAddrClass
  | .node .., _ => s
  | _, _ => refuseNext s u rcAddrClass

/-- A load across the seam waits while it admits nothing (R279). -/
def targetHeld (s : State) : Target → Bool
  | .mem h a => seamHeld s h a
  | _ => false

/-- SLD (R158, R159, R180). -/
def execSld (u : Proc) (w : BitVec 56) (s : State) : Out :=
  .next (controlOnly s u fun s =>
    let t := loadTarget u (loadAddr (getCtl s u) w)
    if !canExec s u ∨ targetHeld s t then s
    else if strayBits w (mSD + mSA + mIMM32) then refuseNext s u rcBadField
    else match loadFrom s u t with
      | (s, some v) => retire (updCtl s u fun c => setSreg c (fSD w) v) u 2
      | (s, none) => accessRefused s u t)

/-- SST (R158, R159, R180). -/
def execSst (u : Proc) (w : BitVec 56) (s : State) : Out :=
  .next (controlOnly s u fun s =>
    if !canExec s u then s
    else if strayBits w (mSA + mSB + mIMM32) then refuseNext s u rcBadField
    else
      let c := getCtl s u
      let t := loadTarget u (loadAddr c w)
      match storeTo s u t (sreg c (fSB w)) with
      | (s, true) => retire s u 2
      | (s, false) => accessRefused s u t)

end Sys2Proof.Machine
end

