-- ==== Sys2Proof/Machine/LinkCmd.lean ====
section
/-! DEFINITION. What arrives over a link (R301-R304, R372, R373, R381, R382): flits, NAKs, management reads and writes of the
host, and the end of a DMA descriptor (R385). -/

namespace Sys2Proof.Machine

/-! Management over Lomly (R382). -/

/-- MRSP: the answer of the access just made. -/
def mrsp (s : State) (l : Nat) (tag : BitVec 16) : State :=
  let (c, v) : BitVec 8 × W64 := match s.resp with
    | .value v => (0, v)
    | .code c => (c, 0)
    | .accessError => (lomAccess, 0)
    | _ => (0, 0)
  lomSend s l 1 (lomPkt 2 0 tag.toNat c v 0 [])

def mrdApply (s : State) (link : BitVec 1) (addr : W64) (tag : BitVec 16) : State :=
  mrsp (readReg s (.host link) addr.toNat 8) link.toNat tag

def mwrApply (s : State) (link : BitVec 1) (addr v : W64) (tag : BitVec 16) : State :=
  mrsp (writeReg s (.host link) addr.toNat 8 v) link.toNat tag

/-- MRD (R382). -/
def execMrd (link : BitVec 1) (addr : W64) (tag : BitVec 16) (s : State) : Out :=
  .next (if lomLive s link.toNat then mrdApply s link addr tag else s)

/-- MWR (R382). -/
def execMwr (link : BitVec 1) (addr : W64) (v : W64) (tag : BitVec 16) (s : State) : Out :=
  .next (if lomLive s link.toNat then mwrApply s link addr v tag else s)

/-! The end of a descriptor (R385, R386). -/

/-- The AFTER write, as if it came from the host: the status it leaves the descriptor with. -/
def afterWrite (s : State) (h : Nat) (d : Dma) : State × Nat :=
  if dmaAfter d then
    let s := writeReg s (.host (BitVec.ofNat 1 h)) (d.words.getD 4 0).toNat 8 (d.words.getD 5 0)
    match s.resp with
    | .code _ | .accessError => (s, if d.err = 0 then lomAfterRefused.toNat else d.err)
    | _ => (s, d.err)
  else (s, d.err)

/-- DMA_DESCRIPTOR_COMPLETE (R385, R392): every line is applied or acknowledged; the AFTER write, then the DCPL. -/
def execDmaDescriptorComplete (h : BitVec 1) (id : Nat) (s : State) : Out :=
  .next (
    let h := h.toNat
    match (getLom s h).dmas.find? fun d => d.id == id && d.started && d.left == 0 with
    | none => s
    | some d =>
      let (s, status) := afterWrite s h d
      refillAll (queueOff (dmaLeave s h d status) h d.q) h)

/-! Flits (R301-R303). -/

/-- The port of leat link l that a flit arrived on: flits go round the UP ports in SEQ order (R299). (Log 83, DEDUCED). -/
def arrivalPort (s : State) (h l seq : Nat) : Option Nat :=
  let up := (portsOf s h l).filter fun p => portState s h p == 2
  up[seq % up.length]?

/-- A NAK sent or received counts in RETRIES. -/
def countRetry (s : State) (l : LinkId) (seq : Nat) : State :=
  match l with
  | .leat h k => match arrivalPort s h.toNat k.toNat seq with
    | some p => bumpF s F.LEAT_PORT_RETRIES h.toNat 1 p
    | none => s
  | .lomly h _ => bumpF s F.LOM_CNT_RETRIES h.toNat
  | .seam b => bumpF s F.SEAM_STATE_RETRIES b.toNat

def countUncorr (s : State) (l : LinkId) (seq : Nat) : State :=
  match l with
  | .leat h k => match arrivalPort s h.toNat k.toNat seq with
    | some p => bumpF s F.LEAT_PORT_UNCORR h.toNat 1 p
    | none => s
  | .lomly h _ => bumpF s F.LOM_CNT_UNCORR h.toNat
  | .seam _ => s

/-- What an uncorrectable codeword may cost the port it came over. -/
def afterBadWord (s : State) (l : LinkId) : State :=
  match l with
  | .lomly h _ => lomBadWord s h.toNat
  | _ => s

/-- The part owes a NAK. -/
def sendNak (s : State) (l : LinkId) (seq : Nat) : State :=
  countRetry (updLink s (linkKey l) fun x => { x with nak := true }) l seq

/-- Does the link carry traffic now: leat with a session over an UP port, Lomly at the active UP port? -/
def linkLive (s : State) (l : LinkId) : Bool :=
  match l with
  | .leat h k => linkUp s h.toNat k.toNat && (getLink s (linkKey l)).session != 0
  | .lomly h p => lomUp s h.toNat && lomActive s h.toNat == p.toNat && decide (2 ≤ getF s F.LOM_STAT_SSTATE h.toNat)
  | .seam b => bridgeUp s b.toNat

/-- An illegal packet type fails the flit (R304, R381). (Log 111, DEDUCED). -/
def typesLegal (l : LinkId) (f : Flit) : Bool :=
  match l with
  | .leat .. => f.pkts.all fun p => decide (p.ptype.toNat < 8)
  | _ => f.lpkts.all fun p => decide (p.ptype.toNat < 13)

/-- The flit is sealed under a session this end holds keys for. -/
def sessionKnown (s : State) (l : LinkId) (f : Flit) : Bool :=
  f.session.toNat == (getLink s (linkKey l)).session ||
    (match l with
      | .lomly h _ => (getLom s h.toNat).oldKeys.isSome && f.session != 0
      | _ => f.session != 0 && f.session.toNat == (getLink s (linkKey l)).old)

/-- Eight tag failures in a row end the session (R302, R373): a leat link goes down, a Lomly port too. -/
def sessionFails (s : State) (l : LinkId) : State :=
  match l with
  | .leat h k => updLink (linkDown s h.toNat k.toNat) (linkKey l) fun x => { x with down := true }
  | .lomly h p => endSession (portGone s h.toNat p.toNat) h.toNat
  | .seam _ => s

/-- A flit that fails its tag. -/
def tagFailure (s : State) (l : LinkId) (seq : Nat) : State :=
  let s := match l with
    | .lomly h _ => bumpF s F.LOM_CNT_TAGFAIL h.toNat
    | _ => s
  let n := (getLink s (linkKey l)).tagFails + 1
  if 8 ≤ n then sessionFails s l
  else sendNak (updLink s (linkKey l) fun x => { x with tagFails := n }) l seq

/-- A leat packet is delivered or goes on (R304, R307). -/
def deliverP (s : State) (h : Nat) (p : Packet) : State :=
  match p.ptype.toNat with
  | 0 | 1 | 2 => arriveReq s h p
  | 3 | 4 => arriveResp s h p
  | 5 => arriveBulk s h p
  | 6 => arriveTime s h p
  | _ => collArrive deliver4 s h p

/-- A Lomly packet of the host is delivered (R381); packets the part itself sends, and SESSION messages, which the
handshake commands carry, have no further effect. -/
def deliverL (s : State) (h : Nat) (p : LomPkt) : State :=
  let b := BitVec.ofNat 1 h
  match p.ptype.toNat with
  | 0 => mrdApply s b p.addr p.tag
  | 1 => mwrApply s b p.addr p.data p.tag
  | 3 => descApply s h p.queue.toNat p.body
  | 6 => hrspApply s h p.tag.toNat p.body
  | 8 => hwackApply s h p.tag.toNat
  | 10 => evackApply s h (BitVec.ofNat 32 p.aux.toNat)
  | 11 => imgApply s h p.addr.toNat p.body
  | _ => s

def deliverFlit (s : State) (l : LinkId) (f : Flit) : State :=
  match l with
  | .leat h _ => f.pkts.foldl (fun s p => deliverP s h.toNat p) s
  | .lomly h _ => f.lpkts.foldl (fun s p => deliverL s h.toNat p) s
  | .seam _ => s

/-- The ACK of a good flit is taken. -/
def takeHeader (s : State) (l : LinkId) (f : Flit) : State :=
  let k := linkKey l
  let s := updLink (takeAck s k f.ack) k fun x => { x with tagFails := 0 }
  match l with
  | .lomly h _ => dropOldKeys s h.toNat
  | _ => updLink s k fun x => if x.unacked.any fun f => f.session.toNat == x.old then x else { x with old := 0 }

/-- A flit received in order: the credits it returns are held, the buffer its packets took is owed back (R301, R303). -/
def inOrder (x : LinkSt) (f : Flit) : LinkSt :=
  let vc := f.vc.toNat
  { x with
    rx := (x.rx + 1) % 2 ^ 64
    nak := false
    cr := [x.cr.getD 0 0 + f.cr0.toNat, x.cr.getD 1 0 + f.cr1.toNat, x.cr.getD 2 0 + f.cr2.toNat]
    owed := if f.kind = 0 then x.owed.set vc (x.owed.getD vc 0 + 1) else x.owed }

/-- LINK_FLIT_RECEIVE (R301-R303, R372, R373). An uncorrectable codeword, a failed tag or a gap is answered with a NAK; a
repeated flit is dropped; a flit of any kind in order is taken, its packets delivered. -/
def execLinkFlitReceive (l : LinkId) (f : Flit) (s : State) : Out :=
  .next (
    let k := linkKey l
    let seq := f.seq.toNat
    let joining : Bool := match l with
      | .seam _ => false
      | _ => f.session == 0 && f.tagOk
    if !linkLive s l ∨ joining then s
    else if !f.fecOk then afterBadWord (sendNak (countUncorr s l seq) l seq) l
    else if !f.tagOk ∨ !sessionKnown s l f ∨ !typesLegal l f then tagFailure s l seq
    else
      let s := takeHeader s l f
      let s := if f.kind = 2 then countRetry s l seq else s
      let rx := (getLink s k).rx
      if seq = rx % 65536 then
        let s := updLink s k fun x => inOrder x f
        pump (if f.kind = 0 then deliverFlit s l f else s) k
      else if (rx + 65535 + 65536 - seq) % 65536 < 32768 then pump s k
      else pump (sendNak s l seq) k)

/-- LINK_NAK (R302, R373): flits up to ACK leave the retry buffer; the others are sent again in their order, before any new
one. -/
def execLinkNak (l : LinkId) (ack : BitVec 16) (s : State) : Out :=
  .next (
    if linkLive s l then
      let s := takeAck s (linkKey l) ack
      let s := match l with
        | .lomly h _ => dropOldKeys s h.toNat
        | _ => s
      pump (countRetry s l ack.toNat) (linkKey l)
    else s)

end Sys2Proof.Machine
end

