-- ==== Sys2Proof/Machine/Pins.lean ====
section
/-! DEFINITION. The management bus target (R482, R483) and the boundary scan port (R484). -/

namespace Sys2Proof.Machine

def updPins (s : State) (f : Pins → Pins) : State := { s with pins := f s.pins }

/-! I3C (R482). The target answers while input is present. -/

/-- I3C_INDEX_WRITE: one byte sets the index; a longer write is NACKed. -/
def execI3cIndexWrite (bytes : List Byte) (s : State) : Out :=
  .next (
    if !s.pins.input then s
    else match bytes with
      | [b] => done (updPins s fun p => { p with i3cIdx := b.toNat })
      | _ => accessError s)

/-- I3C_PRIVATE_READ: the 8 bytes at the index, which advances by 8; indexes with no entry read 0. (Log 138, DEDUCED). -/
def execI3cPrivateRead (s : State) : Out :=
  .next (
    if !s.pins.input then s
    else
      let v := mget z64 s.pins.i3cIdx s.pins.i3cSnap
      answer (updPins s fun p => { p with i3cIdx := (p.i3cIdx + 8) % 256 }) (.bytes (toBytes 8 v.toNat)))

/-- I3C_SETDASA: the dynamic address, from the static one. -/
def execI3cSetdasa (addr : BitVec 7) (s : State) : Out :=
  .next (
    if !s.pins.input ∨ s.pins.i3cDyn.isSome then s
    else done (updPins s fun p => { p with i3cDyn := some addr }))

/-- The provisional ID, most significant byte first, then BCR and DCR. (Log 10, PRESUMED). -/
def provisionalId : List Byte :=
  let p := Config.mipiId.toNat * 2 ^ 33 + 2 ^ 32 + Config.serial.toNat % 2 ^ 32
  (toBytes 6 p).reverse ++ [0, 0]

/-- I3C_ENTDAA: the target without a dynamic address sends its provisional ID and takes the address given. -/
def execI3cEntdaa (addr : BitVec 7) (s : State) : Out :=
  .next (
    if !s.pins.input ∨ s.pins.i3cDyn.isSome then s
    else answer (updPins s fun p => { p with i3cDyn := some addr }) (.bytes provisionalId))

/-- What each index shows now (R483): 0 while its source does not run. -/
def i3cSources (s : State) : List (Nat × W64) :=
  let on (b : Bool) (v : W64) : W64 := if b then v else 0
  let trust := halfState s 0 != hsOff || halfState s 1 != hsOff
  let ctl (h : Nat) : Bool := decide (hsLoaded ≤ halfState s h)
  let tb (h : Nat) : Bool := halfState s h != hsOff && domainOn s (domTime h)
  [(0x00, on trust (reg s .devId 0 0)), (0x08, on trust Config.serial),
   (0x10, on (ctl 0) (shownWord s .devHalf 0 0)), (0x18, on (ctl 1) (shownWord s .devHalf 0 1)),
   (0x20, on s.pins.input (shownWord s .pwrMeas 0 0)), (0x28, on s.pins.input (shownWord s .pwrMeas 0 1)),
   (0x30, on (ctl 0) (shownWord s .pwrStat 0 0)), (0x38, on (ctl 1) (shownWord s .pwrStat 0 1)),
   (0x40, reg s .pwrDomstat 0 0), (0x48, reg s .pwrDomstat 0 1), (0x50, reg s .pwrDomstat 0 2), (0x58, s.pins.fatal),
   (0x60, on (tb 0) (shownWord s .tbStat 0 0)), (0x68, on (tb 1) (shownWord s .tbStat 1 0))]

/-- I3C_SNAPSHOT (R483). -/
def execI3cSnapshot (s : State) : Out :=
  .next (if s.pins.input then updPins s fun p => { p with i3cSnap := (i3cSources s).filter fun e => e.2 != 0 } else s)

/-! The scan port (R484): it works whenever half 0's boot set is on and TRST_N is high. -/

def tapWorks (s : State) : Bool := (bootSet 0).all (domainOn s) && !s.pins.tapReset

/-- The instruction register takes an opcode and the data register a capture, which is answered. -/
def tapCapture (s : State) (op : BitVec 8) (dr : List Byte) : State :=
  answer (updPins s fun p => { p with tapIr := op, tapDr := dr }) (.bytes dr)

/-- The boundary register's capture: the levels at the balls, which the board sets. (Log 139, DESIGN CHOICE). -/
def tapBoundary (s : State) (op : BitVec 8) : State :=
  tapCapture { s with free := s.free + 1 } op (Config.boundaryScan s.free)

/-- EXTEST drives the balls only while both halves are in BOOT or LOADED; otherwise it is BYPASS. -/
def execTapExtest (s : State) : Out :=
  .next (
    if !tapWorks s then s
    else if [0, 1].all fun h => [hsBoot, hsLoaded].contains (halfState s h) then tapBoundary s 0x00
    else tapCapture s 0x00 [0])

def execTapIdcode (s : State) : Out := .next (if tapWorks s then tapCapture s 0x01 (toBytes 4 0x101007B3) else s)

def execTapSamplePreload (s : State) : Out := .next (if tapWorks s then tapBoundary s 0x02 else s)

/-- DBG_CHALLENGE (R445, R484): Capture-DR acts as CHALLENGE and loads SEC_DBGCHAL. -/
def execTapDbgChallenge (h : BitVec 1) (s : State) : Out :=
  .next (
    if !tapWorks s then s
    else
      let k := h.toNat
      let s := if halfState s k ≠ hsOff ∧ mayChallenge s k then newChallenge s k else s
      tapCapture s (if k = 0 then 0x20 else 0x22) (regBytes s .secDbgchal k 0 8))

/-- DBG_RESPONSE (R445, R484): Update-DR writes SEC_DBGRESP and acts as SUBMIT. -/
def execTapDbgResponse (h : BitVec 1) (resp : List Byte) (s : State) : Out :=
  .next (
    if !tapWorks s then s
    else
      let k := h.toNat
      let s := tapCapture s (if k = 0 then 0x21 else 0x23) resp
      if halfState s k = hsOff then s
      else
        let s := setWords s .secDbgresp k 0 (wordsOf resp)
        if (half s k).cfg.dbgUnlock then submitDebug s k else s)

/-- BYPASS: every opcode without an instruction of its own. -/
def execTapBypass (opcode : BitVec 8) (s : State) : Out :=
  .next (
    if !tapWorks s ∨ [0x00, 0x01, 0x02, 0x20, 0x21, 0x22, 0x23].contains opcode.toNat then s
    else tapCapture s opcode [0])

/-- TAP_RESET: the level of TRST_N; low holds the port in Test-Logic-Reset, whose instruction is IDCODE. -/
def execTapReset (low : Bool) (s : State) : Out :=
  .next (updPins s fun p =>
    if low then { p with tapReset := true, tapIr := 0x01, tapDr := [] } else { p with tapReset := false })

end Sys2Proof.Machine
end

