-- ==== Sys2Proof/Machine/Dispatch.lean ====
section
/-! DEFINITION. The effect of each command on everything but the queue: one arm a command. -/

namespace Sys2Proof.Machine

def exec (i : Instr) (s : State) : Host.Outcome State Fault Refusal :=
  match i with
  | .registerWrite b addr size v => Sys2Proof.Machine.execRegisterWrite b addr size v s
  | .readToClear b addr rd => Sys2Proof.Machine.execReadToClear b addr rd s
  | .queueDispatch u op w => Sys2Proof.Machine.execQueueDispatch u op w s
  | .bubble leader why => Sys2Proof.Machine.execBubble leader why s
  | .nop leader w => Sys2Proof.Machine.execNop leader w s
  | .halt leader w => Sys2Proof.Machine.execHalt leader w s
  | .loop leader w => Sys2Proof.Machine.execLoop leader w s
  | .loopR leader w => Sys2Proof.Machine.execLoopR leader w s
  | .endl leader w => Sys2Proof.Machine.execEndl leader w s
  | .brk leader w => Sys2Proof.Machine.execBrk leader w s
  | .decide leader w => Sys2Proof.Machine.execDecide leader w s
  | .stepmark leader w => Sys2Proof.Machine.execStepmark leader w s
  | .waitT u w => Sys2Proof.Machine.execWaitT u w s
  | .sigT u w => Sys2Proof.Machine.execSigT u w s
  | .sli u w => Sys2Proof.Machine.execSli u w s
  | .sadd u w => Sys2Proof.Machine.execSadd u w s
  | .ssub u w => Sys2Proof.Machine.execSsub u w s
  | .smul u w => Sys2Proof.Machine.execSmul u w s
  | .sand u w => Sys2Proof.Machine.execSand u w s
  | .sor u w => Sys2Proof.Machine.execSor u w s
  | .sxor u w => Sys2Proof.Machine.execSxor u w s
  | .sshl u w => Sys2Proof.Machine.execSshl u w s
  | .sshr u w => Sys2Proof.Machine.execSshr u w s
  | .smovp u w => Sys2Proof.Machine.execSmovp u w s
  | .sld u w => Sys2Proof.Machine.execSld u w s
  | .sst u w => Sys2Proof.Machine.execSst u w s
  | .br u w => Sys2Proof.Machine.execBr u w s
  | .jal u w => Sys2Proof.Machine.execJal u w s
  | .jr u w => Sys2Proof.Machine.execJr u w s
  | .fadd u w => Sys2Proof.Machine.execFadd u w s
  | .fsub u w => Sys2Proof.Machine.execFsub u w s
  | .fmul u w => Sys2Proof.Machine.execFmul u w s
  | .ffma u w => Sys2Proof.Machine.execFfma u w s
  | .fdiv u w => Sys2Proof.Machine.execFdiv u w s
  | .fsqrt u w => Sys2Proof.Machine.execFsqrt u w s
  | .fcmp u w => Sys2Proof.Machine.execFcmp u w s
  | .fcvt u w => Sys2Proof.Machine.execFcvt u w s
  | .sumrd row w => Sys2Proof.Machine.execSumrd row w s
  | .post row w => Sys2Proof.Machine.execPost row w s
  | .patch row w => Sys2Proof.Machine.execPatch row w s
  | .mlw leader => Sys2Proof.Machine.execMlw leader s
  | .msw leader => Sys2Proof.Machine.execMsw leader s
  | .mma leader => Sys2Proof.Machine.execMma leader s
  | .mga leader => Sys2Proof.Machine.execMga leader s
  | .mgd leader => Sys2Proof.Machine.execMgd leader s
  | .mdistL1 leader => Sys2Proof.Machine.execMdistL1 leader s
  | .mdistL2 leader => Sys2Proof.Machine.execMdistL2 leader s
  | .mminplus leader => Sys2Proof.Machine.execMminplus leader s
  | .mmaxplus leader => Sys2Proof.Machine.execMmaxplus leader s
  | .mcmp leader => Sys2Proof.Machine.execMcmp leader s
  | .msl leader => Sys2Proof.Machine.execMsl leader s
  | .vadd leader => Sys2Proof.Machine.execVadd leader s
  | .vmul leader => Sys2Proof.Machine.execVmul leader s
  | .vfma leader => Sys2Proof.Machine.execVfma leader s
  | .vwmul leader => Sys2Proof.Machine.execVwmul leader s
  | .vdot4 leader => Sys2Proof.Machine.execVdot4 leader s
  | .vmax leader => Sys2Proof.Machine.execVmax leader s
  | .vmin leader => Sys2Proof.Machine.execVmin leader s
  | .vcmp leader => Sys2Proof.Machine.execVcmp leader s
  | .vsel leader => Sys2Proof.Machine.execVsel leader s
  | .vsum leader => Sys2Proof.Machine.execVsum leader s
  | .vperm leader => Sys2Proof.Machine.execVperm leader s
  | .vcvt leader => Sys2Proof.Machine.execVcvt leader s
  | .vld leader => Sys2Proof.Machine.execVld leader s
  | .vst leader => Sys2Proof.Machine.execVst leader s
  | .vexp leader => Sys2Proof.Machine.execVexp leader s
  | .vlog2 leader => Sys2Proof.Machine.execVlog2 leader s
  | .vrcp leader => Sys2Proof.Machine.execVrcp leader s
  | .vrsq leader => Sys2Proof.Machine.execVrsq leader s
  | .vtanh leader => Sys2Proof.Machine.execVtanh leader s
  | .vsig leader => Sys2Proof.Machine.execVsig leader s
  | .sumq leader => Sys2Proof.Machine.execSumq leader s
  | .summarySlotFill row => Sys2Proof.Machine.execSummarySlotFill row s
  | .trcfg leader => Sys2Proof.Machine.execTrcfg leader s
  | .trcfgTableLoad leader => Sys2Proof.Machine.execTrcfgTableLoad leader s
  | .hget x => Sys2Proof.Machine.execHget x s
  | .hput x => Sys2Proof.Machine.execHput x s
  | .hcp x => Sys2Proof.Machine.execHcp x s
  | .hatom x => Sys2Proof.Machine.execHatom x s
  | .instructionComplete u id who err => Sys2Proof.Machine.execInstructionComplete u id who err s
  | .tokenDecrement u id => Sys2Proof.Machine.execTokenDecrement u id s
  | .vexcRestart row col => Sys2Proof.Machine.execVexcRestart row col s
  | .vexcRestartNotrap row col => Sys2Proof.Machine.execVexcRestartNotrap row col s
  | .vexcSkip row col => Sys2Proof.Machine.execVexcSkip row col s
  | .vexcHalt row col => Sys2Proof.Machine.execVexcHalt row col s
  | .contextSwitch leader => Sys2Proof.Machine.execContextSwitch leader s
  | .watchdogExpiry leader => Sys2Proof.Machine.execWatchdogExpiry leader s
  | .icsumProgramLoad u bank image => Sys2Proof.Machine.execIcsumProgramLoad u bank image s
  | .go b row => Sys2Proof.Machine.execGo b row s
  | .arm b row => Sys2Proof.Machine.execArm b row s
  | .cont b row => Sys2Proof.Machine.execCont b row s
  | .stop b row => Sys2Proof.Machine.execStop b row s
  | .stopSave b row => Sys2Proof.Machine.execStopSave b row s
  | .yield b row => Sys2Proof.Machine.execYield b row s
  | .colmapWrite b row n v => Sys2Proof.Machine.execColmapWrite b row n v s
  | .imctlGenWrite b row v => Sys2Proof.Machine.execImctlGenWrite b row v s
  | .instrStoreWrite b row bank idx v => Sys2Proof.Machine.execInstrStoreWrite b row bank idx v s
  | .pshadowWrite b row idx v => Sys2Proof.Machine.execPshadowWrite b row idx v s
  | .pactiveWrite b row idx v => Sys2Proof.Machine.execPactiveWrite b row idx v s
  | .wdogLimitWrite b row v => Sys2Proof.Machine.execWdogLimitWrite b row v s
  | .paceWrite b row v => Sys2Proof.Machine.execPaceWrite b row v s
  | .detmodeWrite b row v => Sys2Proof.Machine.execDetmodeWrite b row v s
  | .fantailEvaluation h watts => Sys2Proof.Machine.execFantailEvaluation h watts s
  | .pacingRelease leader => Sys2Proof.Machine.execPacingRelease leader s
  | .sensorRead h t => Sys2Proof.Machine.execSensorRead h t s
  | .thermalTrip h utype uindex => Sys2Proof.Machine.execThermalTrip h utype uindex s
  | .powerSample h watts => Sys2Proof.Machine.execPowerSample h watts s
  | .barrierRelease h slot => Sys2Proof.Machine.execBarrierRelease h slot s
  | .solvDoorbell b h v => Sys2Proof.Machine.execSolvDoorbell b h v s
  | .solvCqRelease b h v => Sys2Proof.Machine.execSolvCqRelease b h v s
  | .solvCancel b h => Sys2Proof.Machine.execSolvCancel b h s
  | .solverLu h => Sys2Proof.Machine.execSolverLu h s
  | .solverChol h => Sys2Proof.Machine.execSolverChol h s
  | .solverSolve h => Sys2Proof.Machine.execSolverSolve h s
  | .solverResume h => Sys2Proof.Machine.execSolverResume h s
  | .solverPanelStep h => Sys2Proof.Machine.execSolverPanelStep h s
  | .solverCorrection h => Sys2Proof.Machine.execSolverCorrection h s
  | .solverCompletion h => Sys2Proof.Machine.execSolverCompletion h s
  | .memoryRead h addr len ecc => Sys2Proof.Machine.execMemoryRead h addr len ecc s
  | .memoryWrite h addr bytes => Sys2Proof.Machine.execMemoryWrite h addr bytes s
  | .memoryAtomic h req => Sys2Proof.Machine.execMemoryAtomic h req s
  | .reproFp64AddApply h n => Sys2Proof.Machine.execReproFp64AddApply h n s
  | .epochOpen b h n v => Sys2Proof.Machine.execEpochOpen b h n v s
  | .epochAbort b h n v => Sys2Proof.Machine.execEpochAbort b h n v s
  | .epochTimeout h n => Sys2Proof.Machine.execEpochTimeout h n s
  | .tgStart b ch v => Sys2Proof.Machine.execTgStart b ch v s
  | .tgStop b ch v => Sys2Proof.Machine.execTgStop b ch v s
  | .tgModeSelect b ch v => Sys2Proof.Machine.execTgModeSelect b ch v s
  | .tgRunEnd ch errors pc offset => Sys2Proof.Machine.execTgRunEnd ch errors pc offset s
  | .scrubRead ch pc offset ecc => Sys2Proof.Machine.execScrubRead ch pc offset ecc s
  | .dramRefresh ch k => Sys2Proof.Machine.execDramRefresh ch k s
  | .trackerHoldRelease h => Sys2Proof.Machine.execTrackerHoldRelease h s
  | .bridgeAdmissionResume b => Sys2Proof.Machine.execBridgeAdmissionResume b s
  | .weirBlockEncode b dir => Sys2Proof.Machine.execWeirBlockEncode b dir s
  | .weirBlockDecode b dir => Sys2Proof.Machine.execWeirBlockDecode b dir s
  | .linkFlitReceive l f => Sys2Proof.Machine.execLinkFlitReceive l f s
  | .linkNak l ack => Sys2Proof.Machine.execLinkNak l ack s
  | .leatPortRemove h p => Sys2Proof.Machine.execLeatPortRemove h p s
  | .leatLinkTrained h link delayNs lanes => Sys2Proof.Machine.execLeatLinkTrained h link delayNs lanes s
  | .leatSessionHandshake h link peer sigOk debugPeer => Sys2Proof.Machine.execLeatSessionHandshake h link peer sigOk debugPeer s
  | .leatReadReq h p => Sys2Proof.Machine.execLeatReadReq h p s
  | .leatWrite h p => Sys2Proof.Machine.execLeatWrite h p s
  | .leatAtomic h p => Sys2Proof.Machine.execLeatAtomic h p s
  | .leatReadResp h p => Sys2Proof.Machine.execLeatReadResp h p s
  | .leatCompletion h p => Sys2Proof.Machine.execLeatCompletion h p s
  | .leatBulk h p => Sys2Proof.Machine.execLeatBulk h p s
  | .leatTime h p => Sys2Proof.Machine.execLeatTime h p s
  | .leatColl h p => Sys2Proof.Machine.execLeatColl h p s
  | .leatTimeout h tag => Sys2Proof.Machine.execLeatTimeout h tag s
  | .leatRcommit b h v => Sys2Proof.Machine.execLeatRcommit b h v s
  | .leatJobEpochWrite b h n v => Sys2Proof.Machine.execLeatJobEpochWrite b h n v s
  | .leatSlotDrained h n => Sys2Proof.Machine.execLeatSlotDrained h n s
  | .gwMessageComplete h id status => Sys2Proof.Machine.execGwMessageComplete h id status s
  | .gwTimeout h id => Sys2Proof.Machine.execGwTimeout h id s
  | .podTimeExchange h parent => Sys2Proof.Machine.execPodTimeExchange h parent s
  | .hallTimeExchange h parent => Sys2Proof.Machine.execHallTimeExchange h parent s
  | .ppsEdge h => Sys2Proof.Machine.execPpsEdge h s
  | .ppsTimeout h => Sys2Proof.Machine.execPpsTimeout h s
  | .ppsOutPulse h => Sys2Proof.Machine.execPpsOutPulse h s
  | .ppsOutEnWrite b h v => Sys2Proof.Machine.execPpsOutEnWrite b h v s
  | .tbHallsetWrite b h v => Sys2Proof.Machine.execTbHallsetWrite b h v s
  | .refClkLost => Sys2Proof.Machine.execRefClkLost s
  | .refClkReturn => Sys2Proof.Machine.execRefClkReturn s
  | .masterTakeover h hall => Sys2Proof.Machine.execMasterTakeover h hall s
  | .collDoorbell b h v => Sys2Proof.Machine.execCollDoorbell b h v s
  | .collCqRelease b h v => Sys2Proof.Machine.execCollCqRelease b h v s
  | .collAbort b h g => Sys2Proof.Machine.execCollAbort b h g s
  | .allReduce h g => Sys2Proof.Machine.execAllReduce h g s
  | .reduceScatter h g => Sys2Proof.Machine.execReduceScatter h g s
  | .allGather h g => Sys2Proof.Machine.execAllGather h g s
  | .broadcast h g => Sys2Proof.Machine.execBroadcast h g s
  | .allToAll h g => Sys2Proof.Machine.execAllToAll h g s
  | .barrier h g => Sys2Proof.Machine.execBarrier h g s
  | .startBarrier h g => Sys2Proof.Machine.execStartBarrier h g s
  | .startBarrierArrival h g rank => Sys2Proof.Machine.execStartBarrierArrival h g rank s
  | .collTimeout h g => Sys2Proof.Machine.execCollTimeout h g s
  | .collSettle h g => Sys2Proof.Machine.execCollSettle h g s
  | .ckpEnable b h v => Sys2Proof.Machine.execCkpEnable b h v s
  | .ckpNow b h => Sys2Proof.Machine.execCkpNow b h s
  | .ckpAbort b h => Sys2Proof.Machine.execCkpAbort b h s
  | .ckpRelease b h => Sys2Proof.Machine.execCkpRelease b h s
  | .ckpTimerTrigger h => Sys2Proof.Machine.execCkpTimerTrigger h s
  | .ckpTargetWrite b h v => Sys2Proof.Machine.execCkpTargetWrite b h v s
  | .brake leader => Sys2Proof.Machine.execBrake leader s
  | .ckpArrived h => Sys2Proof.Machine.execCkpArrived h s
  | .ckpBrakeTimeout h => Sys2Proof.Machine.execCkpBrakeTimeout h s
  | .ckpPageCopy h ok => Sys2Proof.Machine.execCkpPageCopy h ok s
  | .ckpSeal h => Sys2Proof.Machine.execCkpSeal h s
  | .restoreVerify b h => Sys2Proof.Machine.execRestoreVerify b h s
  | .restoreVerifyDone h header shards sig => Sys2Proof.Machine.execRestoreVerifyDone h header shards sig s
  | .restoreCommit b h => Sys2Proof.Machine.execRestoreCommit b h s
  | .restoreCommitDone h shards => Sys2Proof.Machine.execRestoreCommitDone h shards s
  | .restoreCancel b h => Sys2Proof.Machine.execRestoreCancel b h s
  | .lomlyPortDown h p => Sys2Proof.Machine.execLomlyPortDown h p s
  | .lomlyPortUp h p delayNs => Sys2Proof.Machine.execLomlyPortUp h p delayNs s
  | .hello h port nonce pub profile => Sys2Proof.Machine.execHello h port nonce pub profile s
  | .proof h pub sig => Sys2Proof.Machine.execProof h pub sig s
  | .finish h ok => Sys2Proof.Machine.execFinish h ok s
  | .helloLockoutExpiry h => Sys2Proof.Machine.execHelloLockoutExpiry h s
  | .rekey h nonce pub => Sys2Proof.Machine.execRekey h nonce pub s
  | .rekeyStart h => Sys2Proof.Machine.execRekeyStart h s
  | .mrd link addr tag => Sys2Proof.Machine.execMrd link addr tag s
  | .mwr link addr v tag => Sys2Proof.Machine.execMwr link addr v tag s
  | .desc h q line => Sys2Proof.Machine.execDesc h q line s
  | .hrsp h tag lines => Sys2Proof.Machine.execHrsp h tag lines s
  | .hwack h tag => Sys2Proof.Machine.execHwack h tag s
  | .evack h evseq => Sys2Proof.Machine.execEvack h evseq s
  | .img link target offset lines => Sys2Proof.Machine.execImg link target offset lines s
  | .eventSend h => Sys2Proof.Machine.execEventSend h s
  | .dmaDescriptorStart h q => Sys2Proof.Machine.execDmaDescriptorStart h q s
  | .dmaDescriptorComplete h id => Sys2Proof.Machine.execDmaDescriptorComplete h id s
  | .lomlyDmaTimeout h tag => Sys2Proof.Machine.execLomlyDmaTimeout h tag s
  | .lomQueueDisable b h q v => Sys2Proof.Machine.execLomQueueDisable b h q v s
  | .hostDoorbellWrite h n v => Sys2Proof.Machine.execHostDoorbellWrite h n v s
  | .nodePostEvent h v => Sys2Proof.Machine.execNodePostEvent h v s
  | .fstApply b h => Sys2Proof.Machine.execFstApply b h s
  | .fstDiscard b h => Sys2Proof.Machine.execFstDiscard b h s
  | .streamCommit h => Sys2Proof.Machine.execStreamCommit h s
  | .targetedTestStart h utype uindex => Sys2Proof.Machine.execTargetedTestStart h utype uindex s
  | .targetedTestComplete h utype uindex pass => Sys2Proof.Machine.execTargetedTestComplete h utype uindex pass s
  | .periodicTestSlice row badSlot => Sys2Proof.Machine.execPeriodicTestSlice row badSlot s
  | .handshakeStall h utype uindex => Sys2Proof.Machine.execHandshakeStall h utype uindex s
  | .unitRetireCmd b h => Sys2Proof.Machine.execUnitRetireCmd b h s
  | .unitAdmit b h pass => Sys2Proof.Machine.execUnitAdmit b h pass s
  | .unitTest b h => Sys2Proof.Machine.execUnitTest b h s
  | .halfDrain b h => Sys2Proof.Machine.execHalfDrain b h s
  | .halfDrainComplete h => Sys2Proof.Machine.execHalfDrainComplete h s
  | .halfReset b h => Sys2Proof.Machine.execHalfReset b h s
  | .halfPowerOff b h => Sys2Proof.Machine.execHalfPowerOff b h s
  | .trustDieBoot h katOk idOk => Sys2Proof.Machine.execTrustDieBoot h katOk idOk s
  | .imageLaunch b h => Sys2Proof.Machine.execImageLaunch b h s
  | .imageClear b h => Sys2Proof.Machine.execImageClear b h s
  | .quote b h => Sys2Proof.Machine.execQuote b h s
  | .quoteComplete h => Sys2Proof.Machine.execQuoteComplete h s
  | .extend b h => Sys2Proof.Machine.execExtend b h s
  | .debugChallenge b h => Sys2Proof.Machine.execDebugChallenge b h s
  | .debugSubmit b h => Sys2Proof.Machine.execDebugSubmit b h s
  | .debugChallengeExpiry h => Sys2Proof.Machine.execDebugChallengeExpiry h s
  | .debugLockoutExpiry h => Sys2Proof.Machine.execDebugLockoutExpiry h s
  | .drbgReseed h => Sys2Proof.Machine.execDrbgReseed h s
  | .powerUp => Sys2Proof.Machine.execPowerUp s
  | .inputRemoval => Sys2Proof.Machine.execInputRemoval s
  | .regulatorFault die => Sys2Proof.Machine.execRegulatorFault die s
  | .domainRampDone n => Sys2Proof.Machine.execDomainRampDone n s
  | .calibrationStart h => Sys2Proof.Machine.execCalibrationStart h s
  | .calibrationDone h r => Sys2Proof.Machine.execCalibrationDone h r s
  | .rstNAssert => Sys2Proof.Machine.execRstNAssert s
  | .rstNRelease => Sys2Proof.Machine.execRstNRelease s
  | .halfResetAssert h => Sys2Proof.Machine.execHalfResetAssert h s
  | .halfResetRelease h => Sys2Proof.Machine.execHalfResetRelease h s
  | .i3cIndexWrite bytes => Sys2Proof.Machine.execI3cIndexWrite bytes s
  | .i3cPrivateRead => Sys2Proof.Machine.execI3cPrivateRead s
  | .i3cSetdasa addr => Sys2Proof.Machine.execI3cSetdasa addr s
  | .i3cEntdaa addr => Sys2Proof.Machine.execI3cEntdaa addr s
  | .i3cSnapshot => Sys2Proof.Machine.execI3cSnapshot s
  | .tapExtest => Sys2Proof.Machine.execTapExtest s
  | .tapIdcode => Sys2Proof.Machine.execTapIdcode s
  | .tapSamplePreload => Sys2Proof.Machine.execTapSamplePreload s
  | .tapDbgChallenge h => Sys2Proof.Machine.execTapDbgChallenge h s
  | .tapDbgResponse h resp => Sys2Proof.Machine.execTapDbgResponse h resp s
  | .tapBypass opcode => Sys2Proof.Machine.execTapBypass opcode s
  | .tapReset low => Sys2Proof.Machine.execTapReset low s
  | .tileApertureAccess addr write len bytes => Sys2Proof.Machine.execTileApertureAccess addr write len bytes s
  | .spareSlotTestPass slot mismatch => Sys2Proof.Machine.execSpareSlotTestPass slot mismatch s
  | .opticalMarginScan h n lowLanes => Sys2Proof.Machine.execOpticalMarginScan h n lowLanes s
  | .channelTrainingDone stack => Sys2Proof.Machine.execChannelTrainingDone stack s

end Sys2Proof.Machine
end

