-- ==== Sys2Proof/Machine/Tick.lean ====
section
/-! DEFINITION. A REF_CLK period of the part, with no command: the counters run, saturated sluices count it, and hoist
requests that their engines held go on. -/

namespace Sys2Proof.Machine

/-- The sluices of half h in saturation add n ns (R273, R303): the ports' by engine, the gateways'. -/
def countNs (s : State) (h n : Nat) : State :=
  let mine := (List.range 64).filter fun l => (getLink s (leatKey h l)).sat != 0
  let engines := ((mine.filter fun l => bit (getLink s (leatKey h l)).sat 0).map (linkEngine s h)).dedup
  let s := engines.foldl (fun s e => bumpF s F.LEAT_SLUICE_SAT_NS h n (2 * e)) s
  ([0, 1].filter fun g => mine.any fun l => bit (getLink s (leatKey h l)).sat (1 + g)).foldl
    (fun s g => bumpF s F.GW_SLUICE_SAT_NS h n (2 * g)) s

/-- Half h's sluices over the time since t0 of its timebase. -/
def countFrom (s : State) (h t0 : Nat) : State := countNs s h ((reg s .tbPod h 0).toNat - t0)

/-- One REF_CLK period of the part (R272, R273, R325). -/
def tickAll (s : State) : State :=
  let t (h : Nat) : Nat := (reg s .tbPod h 0).toNat
  let u := tickTime s
  drainHoists (drainHoists (countFrom (countFrom u 0 (t 0)) 1 (t 1)) 0) 1

end Sys2Proof.Machine
end

