-- ==== Sys2Proof/Machine/Step.lean ====
section
/-! DEFINITION. One step: the command at the front of the queue, or a REF_CLK period where none waits. -/

namespace Sys2Proof.Machine

/-- The oldest waiting command runs with the rest of the queue; without one, time passes (R31, R325).
(Log 1, DESIGN CHOICE; 2, DESIGN CHOICE). -/
def step (s : State) : Host.Outcome State Fault Refusal :=
  match s.pending with
  | [] => .next (tickAll s)
  | c :: r => exec c { s with pending := r }

/-- The command a table word spells, at the front of the queue; no word spells one. -/
def State.withFetchWord (s : State) (nbits w : Nat) : State :=
  match decodeTableWord nbits w with
  | some c => { s with pending := c :: s.pending }
  | none => s

end Sys2Proof.Machine
end

