-- ==== Sys2Proof/Safety.lean ====
section
/-! DEFINITION. What counts as a safe run: the conditions on a state that claims use. -/

namespace Sys2Proof.Machine

/-- The large stores stand in canonical form: register words, streams, cores and links listed once, in rising order, and
only where they differ from their reset value; HBM bytes listed once, in rising order. -/
structure State.Canon (s : State) : Prop where
  mg : mwf mgDefault s.mg = true
  hbm : Memory.wf s.hbm = true
  cores : mwf (fun _ => coreZero) s.cores = true
  ctl : mwf (fun _ => ctlZero) s.ctl = true
  links : mwf (fun _ => linkZero) s.links = true

/-- A step of the gang of leader l in which nothing else falls due: no PATCH and no halt is on its way to the leader (R175,
R186), its pacing is not late (R40), and no MSW waits for its load (R94). -/
structure PlainStep (s : State) (l : Nat) : Prop where
  patches : (seqCtl s l).patches = []
  halt : (seqCtl s l).lateHalt = none
  pace : paceAnchor s l = s
  load : mswWaits s l = false

end Sys2Proof.Machine
end

