-- ==== Sys2Proof/Certificates/Slice0/Obligations.lean ====
section
/-! DEFINITION. The statements for the provers. An accepted command is one that `gate` lets through; `Out` is an outcome. -/

open Sys2Proof Sys2Proof.Machine

/-- One step takes the command at the front of the queue and runs it with the rest of the queue. -/
def Obligations.StepRunsFront : Prop :=
  ∀ (c : Instr) (s : State) (r : List Instr), step { s with pending := c :: r } = exec c { s with pending := r }

/-- No command stops the machine: every one answers a next state, in every state.
No command touches the queue. -/
def Obligations.CommandsAnswerAndLeaveTheQueue : Prop :=
  (∀ (c : Instr) (s : State), ∃ t, exec c s = .next t)
  ∧
  (∀ (c : Instr) (s t : State), exec c s = .next t → t.pending = s.pending)

/-- The stores stand in canonical form at reset. -/
def Obligations.ResetCanonical : Prop :=
  State.reset.Canon

/-- Every step keeps the canonical form of the register words, HBM bytes, cores, streams and links. -/
def Obligations.StepKeepsCanonical : Prop :=
  ∀ s t : State, s.Canon → step s = .next t → t.Canon

/-- A step of a gang adds one to ROW_STEP of each of its rows, and touches no memory byte, core, link or pin, unless a
halt that another row ordered takes effect at it (R29, R30, R31). Where nothing falls due at the step (no PATCH, no such
halt, no late pacing, no MSW that waits for its load) it changes nothing else at all. -/
def Obligations.StepCountsInEveryRow : Prop :=
  ∀ (s : State) (l : Nat), s.Canon → l < 64 →
    ((∀ p ∈ (seqCtl s l).patches, p.reg < 64) → (∀ x, (seqCtl s l).lateHalt = some x → stepNow s l + 1 < x.at') →
      (∀ r ∈ gangRows s l, reg (tick s l) .rowStep r 0 = reg s .rowStep r 0 + 1) ∧
      tick s l = { s with mg := (tick s l).mg, ctl := (tick s l).ctl }) ∧
    (PlainStep s l →
      (∀ a, (∀ r ∈ gangRows s l, a ≠ regAddr .rowStep r 0) → mget mgDefault a (tick s l).mg = mget mgDefault a s.mg) ∧
      tick s l = { s with mg := (tick s l).mg })

/-- SLI, SADD to SSHR and SMOVP (R158): sD takes the value, the pc advances, one step or one held step passes
(R167, R180), and the stream keeps everything else. A word whose generation is not its bank's is refused (R171).
The model's own choices enter by log entries 28, 49.
Completion (exec answers a next state under conditions on the state and the operands alone) is concluded for: SLI, SADD,
SSUB, SMUL, SAND, SOR, SXOR, SSHL, SSHR, SMOVP. -/
def Obligations.ScalarIntegerResults : Prop :=
  ∀ (u : Proc) (w : BitVec 56) (s : State), s.Canon → canExec s u = true → staleWord s u = false →
    let c := getCtl s u
    let a := sreg c (fSA w)
    let b := operand2 c w
    let put (v : W64) : State := spend (setCtl s u { setSreg c (fSD w) v with pc := c.pc + 1 }) u 1
    (strayBits w (mSD + mIMM32) = false → exec (.sli u w) s = .next (put (w64 (sIMM32 w)))) ∧
    (strayBits w (mSD + 0x3F * 2 ^ 40) = false → exec (.smovp u w) s = .next (put (preg s u (bits w.toNat 45 40)))) ∧
    (aluLegal w = true →
      exec (.sadd u w) s = .next (put (a + b)) ∧ exec (.ssub u w) s = .next (put (a - b)) ∧
      exec (.smul u w) s = .next (put (a * b)) ∧ exec (.sand u w) s = .next (put (a &&& b)) ∧
      exec (.sor u w) s = .next (put (a ||| b)) ∧ exec (.sxor u w) s = .next (put (a ^^^ b)) ∧
      exec (.sshl u w) s = .next (put (a <<< (b.toNat % 64))) ∧ exec (.sshr u w) s = .next (put (a >>> (b.toNat % 64))))

/-- FADD to FSQRT, FCMP and FCVT of a control stream (R158, R72, R73): the result rounded once, its flags and saturations
in the stream's arithmetic flags, and the steps of R180's table. A stochastic FCVT takes one free value
(assumption log: DESIGN CHOICE). On a core stream each of them is refused with QUEUE_CLASS (R147, R158).
The model's own choices enter by log entries 15, 28, 33, 34.
Completion (exec answers a next state under conditions on the state and the operands alone) is concluded for: FADD, FSUB,
FMUL, FFMA, FDIV, FSQRT, FCMP, FCVT. -/
def Obligations.ScalarFloatResults : Prop :=
  (∀ (l : BitVec 6) (w : BitVec 56) (s : State), canExec s (.seq l) = true → staleWord s (.seq l) = false →
    let r := Host.Outcome.next (refuseNext s (.seq l) rcQueueClass)
    exec (.fadd (.seq l) w) s = r ∧ exec (.fsub (.seq l) w) s = r ∧ exec (.fmul (.seq l) w) s = r ∧
    exec (.ffma (.seq l) w) s = r ∧ exec (.fdiv (.seq l) w) s = r ∧ exec (.fsqrt (.seq l) w) s = r ∧
    exec (.fcmp (.seq l) w) s = r ∧ exec (.fcvt (.seq l) w) s = r) ∧
  (∀ (u : Proc) (w : BitVec 56) (s : State), s.Canon → canExec s u = true → (∀ l, u ≠ .seq l) →
    let c := getCtl s u
    let a := f64Num (sreg c (fSA w))
    let b := f64Num (sreg c (fSB w))
    let d := f64Num (sreg c (fSD w))
    let put (n : Nat) (r : W64 × Fl) : State := spend (setCtl s u { setSreg c (fSD w) r.1 with
      pc := c.pc + 1,
      arith := setBits (c.arith ||| BitVec.ofNat 64 r.2.bits.toNat) 47 32
        (satAdd 16 (bits c.arith.toNat 47 32) r.2.sat) }) u n
    (strayBits w (mSD + mSA + mSB) = false →
      exec (.fadd u w) s = .next (put 4 (f64Op (a.add b))) ∧ exec (.fsub u w) s = .next (put 4 (f64Op (a.add b.neg))) ∧
      exec (.fmul u w) s = .next (put 4 (f64Op (a.mul b))) ∧ exec (.ffma u w) s = .next (put 4 (f64Op (a.fma b d))) ∧
      exec (.fdiv u w) s = .next (put 24 (f64Op (a.div b)))) ∧
    (strayBits w (mSD + mSA) = false → exec (.fsqrt u w) s = .next (put 28 (f64Op a.sqrt))) ∧
    (strayBits w (mSD + mSA + mSB + 7) = false → bits w.toNat 2 0 ≤ 5 →
      exec (.fcmp u w) s = .next (put 2 (if (predHolds (bits w.toNat 2 0) a b).1 then 1 else 0,
        (predHolds (bits w.toNat 2 0) a b).2))) ∧
    (strayBits w (mSD + mSA + 0x1F) = false → bits (bits w.toNat 3 0) 3 2 ≤ 2 → bit (bits w.toNat 3 0) 0 = false →
      let r := fcvtRnd s (bits w.toNat 3 0)
      let x := if bit w.toNat 4 then roundInt 64 true r a
        else fF64.round r (bit (bits w.toNat 3 0) 1) (numOfInt (sreg c (fSA w)).toInt)
      let t := put 3 (BitVec.ofNat 64 x.1, x.2)
      exec (.fcvt u w) s = .next (if bits (bits w.toNat 3 0) 3 2 = 2 then { t with free := s.free + 1 } else t)))

/-- BR, JAL and JR of a control stream (R158, R166): the pc goes to the target inside the program, or past an untaken
branch; JAL links. On a core stream each is refused with QUEUE_CLASS (R147, R158).
The model's own choices enter by log entries 15, 28, 29.
Completion (exec answers a next state under conditions on the state and the operands alone) is concluded for: BR, JAL, JR. -/
def Obligations.ControlStreamJumps : Prop :=
  (∀ (l : BitVec 6) (w : BitVec 56) (s : State), canExec s (.seq l) = true → staleWord s (.seq l) = false →
    let r := Host.Outcome.next (refuseNext s (.seq l) rcQueueClass)
    exec (.br (.seq l) w) s = r ∧ exec (.jal (.seq l) w) s = r ∧ exec (.jr (.seq l) w) s = r) ∧
  (∀ (u : Proc) (w : BitVec 56) (s : State), s.Canon → canExec s u = true → (∀ l, u ≠ .seq l) →
    let c := getCtl s u
    let inside (t : Int) : Prop := 0 ≤ t ∧ t < (progOf s u).words.length
    let t : Int := c.pc + sIMM32 w
    (strayBits w (mSD + mSA + mSB + mIMM32) = false → fSD w ≤ 5 →
      (brTaken (fSD w) (sreg c (fSA w)) (sreg c (fSB w)) = true → inside t →
        exec (.br u w) s = .next (spend (setCtl s u { c with pc := t.toNat }) u 2)) ∧
      (brTaken (fSD w) (sreg c (fSA w)) (sreg c (fSB w)) = false →
        exec (.br u w) s = .next (spend (setCtl s u { c with pc := c.pc + 1 }) u 2))) ∧
    (strayBits w (mSD + mIMM32) = false → inside t →
      exec (.jal u w) s = .next (spend (setCtl s u { setSreg c (fSD w) (BitVec.ofNat 64 (c.pc + 1)) with
        pc := t.toNat }) u 2)) ∧
    (strayBits w mSA = false → inside (sreg c (fSA w)).toNat →
      exec (.jr u w) s = .next (spend (setCtl s u { c with pc := (sreg c (fSA w)).toNat }) u 1)))

/-- SLD of a control stream (R158, R159, R180): sD takes the word of its SRAM, a register or memory at sA + IMM32; a
register read acts as any read does, and a load across a seam that admits nothing waits (R279).
SST of a control stream (R158, R159, R180): sB goes to its SRAM, a register or memory at sA + IMM32; a store that the
memory holds back is posted, and the core goes on.
The model's own choices enter by log entries 12, 13, 14, 15, 80.
Completion (exec answers a next state under conditions on the state and the operands alone) is concluded for: SLD, SST. -/
def Obligations.ScalarLoadsAndStores : Prop :=
  (∀ (u : Proc) (w : BitVec 56) (s : State), canExec s u = true → (∀ l, u ≠ .seq l) →
    strayBits w (mSD + mSA + mIMM32) = false →
    let put (s : State) (v : W64) : State := retire (updCtl s u fun c => setSreg c (fSD w) v) u 2
    (∀ r o, loadTarget u (loadAddr (getCtl s u) w) = .sram r o →
      exec (.sld u w) s = .next (put s (reg s .rowSram r (o / 8)))) ∧
    (∀ a v, loadTarget u (loadAddr (getCtl s u) w) = .reg a → (readReg s (procRequester u) a 8).resp = .value v →
      exec (.sld u w) s = .next (put (readReg s (procRequester u) a 8) v)) ∧
    (∀ h a, loadTarget u (loadAddr (getCtl s u) w) = .mem h a →
      (seamHeld s h a = true → exec (.sld u w) s = .next s) ∧
      (seamHeld s h a = false → (memRead s h a 8 (.core u)).1 = 0 →
        exec (.sld u w) s = .next (put s (BitVec.ofNat 64 (ofBytes (memRead s h a 8 (.core u)).2))))))
  ∧
  (∀ (u : Proc) (w : BitVec 56) (s : State), canExec s u = true → (∀ l, u ≠ .seq l) →
    strayBits w (mSA + mSB + mIMM32) = false →
    let v := sreg (getCtl s u) (fSB w)
    (∀ r o, loadTarget u (loadAddr (getCtl s u) w) = .sram r o →
      exec (.sst u w) s = .next (retire (setReg s .rowSram r (o / 8) v) u 2)) ∧
    (∀ a, loadTarget u (loadAddr (getCtl s u) w) = .reg a → (writeReg s (procRequester u) a 8 v).resp = .ok →
      exec (.sst u w) s = .next (retire (writeReg s (procRequester u) a 8 v) u 2)) ∧
    (∀ h a, loadTarget u (loadAddr (getCtl s u) w) = .mem h a →
      (∀ t c, memWrite s h a (toBytes 8 v.toNat) (.core u) = (t, c) → (c = none ∨ c = some 0) →
        exec (.sst u w) s = .next (retire t u 2))))

/-- SUMRD, POST and PATCH of a row control core (R166, R180, R181, R183, R186): the slot is read and its full flag
cleared; the decision slot takes sA and stands posted, seen from the next step on; sA goes to the gang's shadow parameter
register in the next step, or 64 steps on from a follower of a large gang (R175), and lands there when its step has
come. Nothing else of the core or of any other stream changes.
The model's own choices enter by log entries 24, 47.
Completion (exec answers a next state under conditions on the state and the operands alone) is concluded for: SUMRD, POST,
PATCH. -/
def Obligations.RowControlCommands : Prop :=
  ∀ (r : BitVec 6) (w : BitVec 56) (s : State), s.Canon → canExec s (.rcc r) = true →
    let u : Proc := .rcc r
    let c := getCtl s u
    let q := bits w.toNat 3 0
    let l := rowLeader s r.toNat
    (strayBits w (mSD + 0xF) = false → bit c.full.toNat q = true →
      exec (.sumrd r w) s = .next (setCtl s u { setSreg c (fSD w) (reg s .rowSummary r.toNat q) with
        pc := c.pc + 1, busy := stepNow s r.toNat + 1, full := c.full &&& ~~~(BitVec.ofNat 16 (2 ^ q)) })) ∧
    (strayBits w (mSA + 0xF) = false →
      exec (.post r w) s = .next (setCtl s u { c with
        dec := mset z64 q (sreg c (fSA w)) c.dec, posted := c.posted ||| BitVec.ofNat 16 (2 ^ q),
        postAt := mset zNat q (stepNow s r.toNat + 1) c.postAt, pc := c.pc + 1, busy := stepNow s r.toNat + 1 })) ∧
    (strayBits w (mSA + 0x3F) = false →
      exec (.patch r w) s = .next (setCtl
        (updSeq s l fun x => { x with patches := addPatch x.patches {
          at' := stepNow s r.toNat + (if isLarge s l && r.toNat != l then 64 else 1), row := getF s F.ROW_GANG_INDEX r.toNat,
          reg := bits w.toNat 5 0, val := sreg c (fSA w) } })
        u { c with pc := c.pc + 1, busy := stepNow s r.toNat + 1 })) ∧
    (∀ p n, (seqCtl s l).patches = [p] → p.at' ≤ n → reg (landPatches s l n) .rowPshadow l p.reg = p.val)

/-- NOP, HALT, STEPMARK and the bubbles (R29, R157, R167, R192, R349): one step each; HALT stops dispatch and halts its
gang with CODE once the queues have drained; STEPMARK raises the mark count of every row and records TAG before the
checkpoint unit acts on it.
A bubble of a running gang is a step that issues nothing, taken only while the sequencer waits for the reason it
gives and counted where the manual counts it (R29, R94, R132, R163, R166, R178); during a context switch or a brake no
step counter advances (R196, R352).
The model's own choices enter by log entries 18, 28, 48, 99.
Completion (exec answers a next state under conditions on the state and the operands alone) is concluded for: BUBBLE, NOP,
HALT, STEPMARK. -/
def Obligations.SequencerControl : Prop :=
  (∀ (l : BitVec 6) (w : BitVec 56) (s : State), s.Canon → canExec s (.seq l) = true → staleWord s (.seq l) = false →
    let u : Proc := .seq l
    let c := getCtl s u
    (strayBits w 0 = false → exec (.nop l w) s = .next (tick (setCtl s u { c with pc := c.pc + 1 }) l.toNat)) ∧
    (strayBits w 0xFF = false →
      let code := BitVec.ofNat 8 (bits w.toNat 7 0)
      let t := tick (setCtl s u { c with draining := some (.halt rcHaltInstr code c.pc 0) }) l.toNat
      exec (.halt l w) s = .next (finishDrain t l.toNat) ∧
      (drained (seqCtl t l.toNat) = false → finishDrain t l.toNat = t) ∧
      (drained (seqCtl t l.toNat) = true → (seqCtl t l.toNat).draining = some (.halt rcHaltInstr code c.pc 0) →
        finishDrain t l.toNat =
          haltGang (updSeq t l.toNat fun c => { c with draining := none }) l.toNat rcHaltInstr code c.pc 0)) ∧
    (strayBits w mIMM32 = false → exec (.stepmark l w) s = .next (ckpAtMark (tick (setCtl
      ((gangRows s l.toNat).foldl (fun s r => setReg s .rowMark r 0 (reg s .rowMark r 0 + 1)) s) u
      { c with tag := BitVec.ofNat 32 (fIMM32 w), pc := c.pc + 1 }) l.toNat) l.toNat)))
  ∧
  (∀ (l : BitVec 6) (y : BubbleWhy) (s : State), seqLive s l.toNat = true →
    (bubbleWaits s l.toNat y = false → exec (.bubble l y) s = .next s) ∧
    (bubbleWaits s l.toNat y = true → frozen (seqCtl s l.toNat) = true →
      exec (.bubble l y) s = .next (stepEvents (updSeq s l.toNat fun c => { c with lag := c.lag + 1 }) l.toNat)) ∧
    (bubbleWaits s l.toNat y = true → frozen (seqCtl s l.toNat) = false →
      exec (.bubble l y) s = .next (tick (match y with
        | .token | .loadRule => s
        | .decision => bumpF s F.ROW_QSTAT_DECIDE_WAIT l.toNat
        | .queueFull => bumpF s F.ROW_QSTAT_QFULL_STALL l.toNat) l.toNat)))

/-- LOOP, LOOP.R and ENDL (R164, R165, R167): the low word of the source counts the iterations, zero skips the body; an
iteration of a LOOP.R enters at a replay boundary, unless the step has stopped the gang; ENDL repeats or leaves the innermost loop at no cost.
BRK and DECIDE (R164, R166, R183): BRK leaves LV + 1 loops, a conditional one on a nonzero posting alone; DECIDE
consumes its posting and goes to its target or past it; both wait in bubbles where none stands.
The model's own choices enter by log entries 18, 24, 28, 49.
Completion (exec answers a next state under conditions on the state and the operands alone) is concluded for: LOOP, LOOP_R,
ENDL, BRK, DECIDE. -/
def Obligations.LoopsBreaksAndDecisions : Prop :=
  (∀ (l : BitVec 6) (w : BitVec 56) (s : State), s.Canon → canExec s (.seq l) = true → staleWord s (.seq l) = false →
    let u : Proc := .seq l
    let c := getCtl s u
    let n := bits w.toNat 54 49
    let v := if bit w.toNat 55 then preg s u n else sreg c n
    let stepped (c : Ctl) : State := tick (setCtl s u c) l.toNat
    let enter (replay : Bool) (e : Nat) : Ctl :=
      { c with loops := ⟨c.pc + 1, e, bits v.toNat 31 0 - 1, replay⟩ :: c.loops, pc := c.pc + 1 }
    (∀ e, strayBits w (0x7F * 2 ^ 49) = false → (bit w.toNat 55 = true ∨ n < 32) → c.loops.length < 4 →
      bits v.toNat 63 32 = 0 → matchEndl (progOf s u).words c.pc = some e →
      (bits v.toNat 31 0 = 0 → exec (.loop l w) s = .next (stepped { c with pc := e + 1 })) ∧
      (bits v.toNat 31 0 ≠ 0 → exec (.loop l w) s = .next (stepped (enter false e))) ∧
      (bits v.toNat 31 0 = 0 → c.loops = [] → exec (.loopR l w) s = .next (stepped { c with pc := e + 1 })) ∧
      (bits v.toNat 31 0 ≠ 0 → c.loops = [] →
        exec (.loopR l w) s = .next (if gangState (stepped (enter true e)) l.toNat = gsRunning then
          finishDrain (loopBoundary (stepped (enter true e)) l.toNat) l.toNat else stepped (enter true e)))) ∧
    (∀ f r, strayBits w 0 = false → c.loops = f :: r →
      (f.left = 0 → exec (.endl l w) s = .next (setCtl s u { c with loops := r, pc := c.pc + 1 })) ∧
      (f.left ≠ 0 → f.replay = false →
        exec (.endl l w) s = .next (setCtl s u { c with loops := { f with left := f.left - 1 } :: r, pc := f.body })) ∧
      (f.left ≠ 0 → f.replay = true → exec (.endl l w) s = .next (finishDrain (loopBoundary
        (setCtl s u { c with loops := { f with left := f.left - 1 } :: r, pc := f.body }) l.toNat) l.toNat))))
  ∧
  (∀ (l : BitVec 6) (w : BitVec 56) (s : State), canExec s (.seq l) = true → staleWord s (.seq l) = false →
    let u : Proc := .seq l
    let lv := bits w.toNat 55 54
    let d := bits w.toNat 52 49
    let taken := takePosting s l.toNat d
    (strayBits w (0x7F * 2 ^ 49) = false → lv < (getCtl s u).loops.length →
      (bit w.toNat 53 = false → exec (.brk l w) s = .next (tick (updCtl s u fun c => leaveLoops c lv) l.toNat)) ∧
      (∀ v, bit w.toNat 53 = true → posting s l.toNat d = some v → exec (.brk l w) s = .next (tick (updCtl taken u fun c =>
        if v ≠ 0 then leaveLoops c lv else { c with pc := c.pc + 1 }) l.toNat)) ∧
      (bit w.toNat 53 = true → posting s l.toNat d = none →
        exec (.brk l w) s = .next (bubbleStep s l.toNat .decision))) ∧
    (strayBits w (0xF * 2 ^ 49 + 0xFFFF * 2 ^ 32) = false →
      let p := (getCtl s u).pc
      let t := (p : Int) + sext 16 (bits w.toNat 47 32)
      0 ≤ t → decideTargetOk (progOf s u).words p t.toNat = true →
      (∀ v, posting s l.toNat d = some v →
        exec (.decide l w) s = .next (tick (setPc taken u (if v ≠ 0 then t.toNat else p + 1)) l.toNat)) ∧
      (posting s l.toNat d = none → exec (.decide l w) s = .next (bubbleStep s l.toNat .decision))))

/-- WAIT.T, SIG.T and QUEUE_DISPATCH (R149, R157, R160, R161, R162, R168, R178): the entry goes to the tail of its queue in
one step, a signalling instruction and SIG.T raising their token at dispatch; a wait of the sequencer alone ends at
count 0, a tolerant one taking the error code and clearing it; while the count stands it holds its stream in bubbles.
A token falls by one at a decrement, stops at 0, and keeps its first error code (R161, R162).
The model's own choices enter by log entries 20, 22, 23, 25, 28, 30, 142.
Completion (exec answers a next state under conditions on the state and the operands alone) is concluded for:
QUEUE_DISPATCH, WAIT_T, SIG_T. -/
def Obligations.TokensAndDispatch : Prop :=
  (∀ (u : Proc) (op : BitVec 8) (w : BitVec 56) (s : State), canExec s u = true → staleWord s u = false →
    let c := getCtl s u
    let go (c : Ctl) : State := advance (retire (setCtl s u c) u 1) u
    let t := bits w.toNat 28 21
    let q := queueOf op.toNat
    (q ≠ 0 → groupAllowed (targetOf u) (opGroup op.toNat) = true → insertedWait s u = none → queueFull c q = false →
      let w := if q = 3 then assignToken s u w else w
      let e := makeEntry s u op w
      let c' := pushEntry (match u with
        | .seq _ => bringInForce c e
        | _ => c) q e
      exec (.queueDispatch u op w) s = .next (go { (match toutOf op.toNat w with
        | some t => setTok c' t.toNat { getTok c' t.toNat with count := (getTok c' t.toNat).count + 1 }
        | none => c') with passed := false })) ∧
    (∀ q, strayBits w (0x1F * 2 ^ 51 + 0xFF * 2 ^ 21 + 2 ^ 20) = false → namedQueues (bits w.toNat 55 51) = [q] →
      bit (bits w.toNat 55 51) 0 = false → queueFull c q = false →
      let k : Token := { getTok c t with count := (getTok c t).count + 1 }
      exec (.sigT u w) s = .next (go (setTok (pushEntry c q (tokenEntry c 0x09 w)) t
        (if bit w.toNat 20 then { k with err := false, code := 0 } else k)))) ∧
    (strayBits w (0x7FF * 2 ^ 45 + 0xFF * 2 ^ 21) = false → bits w.toNat 55 51 = 1 → bit w.toNat 50 = true →
      (getTok c t).count = 0 →
      let k := getTok c t
      exec (.waitT u w) s = .next (go (setTok (setSreg { c with waiting := false } (bits w.toNat 49 45)
        (if k.err then k.code.setWidth 64 else 0)) t { k with err := false, code := 0 }))) ∧
    (strayBits w (0x7FF * 2 ^ 45 + 0xFF * 2 ^ 21) = false → bits w.toNat 55 51 = 1 →
      (bits w.toNat 49 45 = 0 ∨ bit w.toNat 50 = true) → (getTok c t).count ≠ 0 →
      exec (.waitT u w) s = .next (match u with
        | .seq l => bubbleStep (setCtl s u { c with waiting := true }) l.toNat .token
        | _ => setCtl s u { c with waiting := true })))
  ∧
  (∀ (c : Ctl) (t err : BitVec 8), mwf (fun _ => tokZero) c.tok = true →
    let k := getTok c t.toNat
    let k' := getTok (tokDec c t err) t.toNat
    k'.count = k.count - 1 ∧ (k.err = true → k'.err = true ∧ k'.code = k.code) ∧
    (k.err = false → err ≠ 0 → k'.err = true ∧ k'.code = err) ∧ (k.err = false → err = 0 → k'.err = false) ∧
    ∀ x, x ≠ t.toNat → getTok (tokDec c t err) x = getTok c x)

/-- INSTRUCTION_COMPLETE and TOKEN_DECREMENT (R161, R162, R179): the last report completes an instruction whose requests
are all answered and fixes the step of its decrement; at that step its token falls by one, takes the first error, and the
instruction leaves. A stream that no longer runs counts no steps (R192).
SUMMARY_SLOT_FILL (R181, R182): the values that are due for a row land in its summary slots, full flags set, or in its
gather buffer, and are no longer on their way; a gang that no longer runs counts no steps, and they land at once (R192).
The model's own choices enter by log entries 20, 23, 48.
Completion (exec answers a next state under conditions on the state and the operands alone) is concluded for:
SUMMARY_SLOT_FILL, INSTRUCTION_COMPLETE, TOKEN_DECREMENT. -/
def Obligations.CompletionsAndSummaries : Prop :=
  (∀ (u : Proc) (id : Nat) (s : State),
    let c := getCtl s u
    (∀ f err, c.flights.find? (fun f => f.id == id && !f.reported && f.op != 0x09) = some f →
      (issueLive s u = true → f.due ≤ procStep s u) → f.waitOn = 0 → (∀ v, c.vexc = some v → v.entry.id ≠ id) →
      let f' : Flight := { f with err := if f.err = 0 then err else f.err, reported := true, decAt := procStep s u + decDelay s u }
      exec (.instructionComplete u id none err) s = .next (advance (reportSigs (countDone (setCtl s u { c with
        flights := if f.tok.isNone then c.flights.filter fun g => g.id != id
          else c.flights.map fun g => if g.id = id then f' else g }) u f.q) u) u)) ∧
    (∀ f, c.flights.find? (fun f => f.id == id && f.reported) = some f → (issueLive s u = true → f.decAt ≤ procStep s u) →
      let c' := { c with flights := c.flights.filter fun g => g.id != id }
      exec (.tokenDecrement u id) s = .next (advance (setCtl s u (match f.tok with
        | some t => tokDec c' t f.err
        | none => c')) u)))
  ∧
  (∀ (r : BitVec 6) (s : State),
    let l := rowLeader s r.toNat
    let due := (seqCtl s l).fills.filter fun x =>
      x.1 == r.toNat && (gangState s l != gsRunning || decide (x.2.2.2 ≤ stepNow s r.toNat))
    exec (.summarySlotFill r) s = .next (due.foldl (fun s x =>
      if x.2.1 < 16 then updCtl (setReg s .rowSummary r.toNat x.2.1 x.2.2.1) (.rcc r) fun c =>
        { c with full := c.full ||| BitVec.ofNat 16 (2 ^ x.2.1) }
      else setReg s .rowGather r.toNat (x.2.1 - 16) x.2.2.1)
      (updSeq s l fun c => { c with fills := c.fills.filter fun x => !due.contains x })))

/-- MLW and MSW issue (R94, R95, R100): every core of the gang loads its shadow plane from its own tile memory, or exchanges
its planes; the instruction leaves the queue, can complete 254 steps later, and holds the next load or swap as R94 says. The
lines a load reads stand in the way of the stream under way (R98).
MSW twice, with nothing between them, leaves the planes of a core as they were, and one MSW exchanges them whether or
not a plane was loaded.
The model's own choices enter by log entries 20, 25, 26, 27, 48, 154.
Completion (exec answers a next state under conditions on the state and the operands alone) is concluded for: MLW, MSW. -/
def Obligations.WeightPlanesLoadAndSwap : Prop :=
  (∀ (l : BitVec 6) (s : State) (e : QEntry), issueLive s (.seq l) = true →
    let u : Proc := .seq l
    let ln := l.toNat
    let now := stepNow s ln
    let popped := updCtl s u fun c => popEntry c 1
    awaitsTable (getCtl s u) e.id now = false → ((getCtl s u).arr.mlw.all fun t => decide (t + 128 ≤ now)) = true →
    (headOf s u 1 opMlw = .ready e → mWordCheck opMlw e.w = none → mlwCheck e.w e.ps = none →
      ((wDesc e.ps).cmp = true → ∀ p ∈ gangCores s ln, cmpFits (getCore s (slotOf s p.1 p.2)) (wDesc e.ps) = true) →
      ((getCtl s u).arr.msw.all fun t => decide (t ≤ now)) = true →
      exec (.mlw l) s = .next (advance (launch (setArr (addUses ((gangCores popped ln).foldl (fun s p =>
        let slot := slotOf s p.1 p.2
        let r := loadPlane (getCore s slot) (wDesc e.ps) (mSCD e.w)
        addFlags (setCore s slot { getCore s slot with shadow := r.1 }) slot r.2) popped) ln now
          (loadUses (wDesc e.ps) (mSCD e.w) now)) ln fun a => { a with mlw := some now }) u e 1 (now + 254) 0 0) u)) ∧
    (headOf s u 1 opMsw = .ready e → mWordCheck opMsw e.w = none → (getCtl s u).arr.slot ≤ now →
      exec (.msw l) s = .next (advance (launch (setArr ((gangCores popped ln).foldl (fun s p =>
        updPlace s p.1 p.2 fun x => { x with active := x.shadow, shadow := x.active }) popped) ln
          fun a => { a with msw := some now }) u e 1 (now + 254) 0 0) u)))
  ∧
  (∀ (s : State) (r c : Nat), s.Canon →
    let swap (s : State) : State := updPlace s r c fun x => { x with active := x.shadow, shadow := x.active }
    let p := slotOf s r c
    (getCore (swap s) p).active = (getCore s p).shadow ∧ (getCore (swap s) p).shadow = (getCore s p).active ∧
      getCore (swap (swap s)) p = getCore s p)

/-- MMA, MGA, MDIST, MMINPLUS, MMAXPLUS and MCMP issue (R92, R97, R101, R114, R204, R205): every core streams its rows past
its active plane into its tailrace, or for MGA into its accumulator, its last vectors stand in the hoppers, the steps
waited for them count, and the step bookkeeping of the array moves on.
The model's own choices enter by log entries 20, 25, 26, 27, 42, 45, 48, 161.
Completion (exec answers a next state under conditions on the state and the operands alone) is concluded for: MMA, MGA,
MDIST_L1, MDIST_L2, MMINPLUS, MMAXPLUS, MCMP. -/
def Obligations.ArrayStreams : Prop :=
  ∀ (l : BitVec 6) (s : State) (e : QEntry), issueLive s (.seq l) = true → awaitsTable (getCtl s (.seq l)) e.id (stepNow s l.toNat) = false →
    ∀ x ∈ [(Instr.mma l, opMma), (.mga l, opMga), (.mdistL1 l, opMdistL1), (.mdistL2 l, opMdistL2),
      (.mminplus l, opMminplus), (.mmaxplus l, opMmaxplus), (.mcmp l, opMcmp)],
    let u : Proc := .seq l
    let ln := l.toNat
    let op := x.2
    let now := stepNow s ln
    let popped := updCtl s u fun c => popEntry c 1
    let plane (s : State) := planeFor (gangPlane s ln) (mFC e.w)
    let cls (s : State) := (rateClass (mFC e.w) (plane s).fc).getD .b
    let tr (s : State) := trInForce (seqCtl s ln) e.id
    headOf s u 1 op = .ready e → mWordCheck op e.w = none → mmaCheck op e.w e.ps (gangPlane s ln) (tr s) = none →
    (getCtl s u).arr.slot ≤ now → (getCtl s u).arr.rows ≤ now + 255 + classV (cls s) →
      let d := aDesc e.ps
      let c := cls popped
      let run := streamRun op e (plane popped) c (tr popped) now
      let edges := if op = opMga then [] else trFirst (tr popped) (now + 255 + classV c)
      let steps := streamSteps (arrUses (seqCtl popped ln).arr ++ edges) run
      let last := lastStep run steps
      exec x.1 s = .next (advance (launch (setArr ((gangCores popped ln).foldl (fun s p =>
        let slot := slotOf s p.1 p.2
        let plane := planeFor (getCore s slot).active (mFC e.w)
        let r := streamRows op e.w e.ps plane (getCore s slot).tile
        let core := { getCore s slot with hop := hopperFill (getCore s slot).tile d (mFC e.w) plane.kv c steps }
        let s := bumpF s F.CORE_ARRAY_STAT_HOPPER_STALL slot (last + run.pace - now - classV c * d.m)
        if op = opMga then
          let a := accumulate core r.1
          addFlags (setCore s slot a.1) slot (flJoin r.2 a.2)
        else tailOn s ln p core (tr popped) (plane.nv + 1) r.1 r.2) popped) ln fun a => { beginRun a now edges run steps with
          slot := last + run.pace, rows := last + 256 + classV c,
          adds := if op = opMga then max a.adds (last + 264 + classV c - (d.m - 1)) else a.adds })
        u e 1 (last + 263 + classV c) 0 0) u)

/-- MGD drains the accumulator of every core through its tailrace and leaves it +0; MSL runs its whole sequence on every
core as one instruction, and leaves the last load and swap of its sequence to the next instruction (R107, R111, R114,
R206).
The model's own choices enter by log entries 20, 25, 26, 27, 46, 48, 155, 156.
Completion (exec answers a next state under conditions on the state and the operands alone) is concluded for: MGD, MSL. -/
def Obligations.AccumulatorAndMslSequences : Prop :=
  ∀ (l : BitVec 6) (s : State) (e : QEntry), issueLive s (.seq l) = true →
    let u : Proc := .seq l
    let ln := l.toNat
    let now := stepNow s ln
    let c := getCtl s u
    let popped := updCtl s u fun c => popEntry c 1
    awaitsTable c e.id now = false →
    (headOf s u 1 opMgd = .ready e → mWordCheck opMgd e.w = none →
      trPassCheck (trInForce (seqCtl s ln) e.id) 128 128 [] = none →
      let tr := trInForce (seqCtl popped ln) e.id
      let e0 := max now (max (seqCtl popped ln).arr.rows (seqCtl popped ln).arr.adds)
      exec (.mgd l) s = .next (advance (launch (setArr (addUses ((gangCores popped ln).foldl (fun s p =>
        let x := getCore s (slotOf s p.1 p.2)
        let rows := (List.range 128).map fun m => (List.range 128).map fun n => f32Num (mget zNat (128 * m + n) x.acc)
        tailOn s ln p { x with acc := [], accOver := [] } tr 128 rows flNone) popped) ln now
          (trFirst tr e0 ++ (List.range 128).flatMap fun m => rowAccesses (trUses tr 128) (e0 + m) m))
        ln fun a => { a with rows := e0 + 128 }) u e 1 (e0 + 135) 0 0) u)) ∧
    (headOf s u 1 opMsl = .ready e → mWordCheck opMsl e.w = none → mslCheck e.ps = none → c.arr.slot ≤ now →
      c.arr.rows ≤ now → (c.arr.mlw.all fun t => decide (t + 128 ≤ now)) = true →
      let x := mslDesc e.ps
      let t := mslSteps x
      exec (.msl l) s = .next (advance (launch (setArr (addUses ((gangCores popped ln).foldl (fun s p =>
        let slot := slotOf s p.1 p.2
        let r := mslCore (getCore s slot) x
        addFlags (setCore s slot r.1) slot r.2) popped) ln now (mslUses x now)) ln fun a => { a with
          mlw := some (mslLoads x now).1, msw := some (mslLoads x now).2, slot := now + t, rows := now + t, run := none,
          own := [], uses := arrUses a })
        u e 1 (now + t - 1) 0 0) u))

/-- TRCFG completes once issued; one with TLOAD loads the table named from every core's own tile memory in 16 steps
(R139, R143).
The model's own choices enter by log entries 20, 25, 26, 48.
Completion (exec answers a next state under conditions on the state and the operands alone) is concluded for: TRCFG,
TRCFG_TABLE_LOAD. -/
def Obligations.TailraceConfiguration : Prop :=
  ∀ (l : BitVec 6) (s : State) (e : QEntry), issueLive s (.seq l) = true → headOf s (.seq l) 4 0x80 = .ready e →
    trCheck e.w e.ps = none →
    let u : Proc := .seq l
    let ln := l.toNat
    let now := stepNow s ln
    let popped := updCtl s u fun c => popEntry c 4
    (trTload e.ps = false → exec (.trcfg l) s = .next (advance (launch popped u e 4 (stepNow popped ln) 0 0) u)) ∧
    (trTload e.ps = true → tailBusy (getCtl s u) (trTsel e.ps) e.id now = false →
      exec (.trcfgTableLoad l) s = .next (advance (launch ((gangCores popped ln).foldl (fun s p => updPlace s p.1 p.2 fun x =>
        if trTsel e.ps then { x with tabB := readTable x e.ps } else { x with tabA := readTable x e.ps }) popped)
        u e 4 (now + 16) 0 0) u))

/-- Every vector instruction issues when the rules of R122 and R123 let it: it leaves its queue, runs on every core of the
gang, and can complete when its last result is written (R120, R190); SUMQ's values are on their way to the summary slots
(R181).
The model's own choices enter by log entries 20, 26, 37, 39, 48, 150, 152.
Completion (exec answers a next state under conditions on the state and the operands alone) is concluded for: VADD, VMUL,
VFMA, VWMUL, VDOT4, VMAX, VMIN, VCMP, VSEL, VSUM, VPERM, VCVT, VLD, VST, VEXP, VLOG2, VRCP, VRSQ, VTANH, VSIG, SUMQ. -/
def Obligations.VectorInstructionsIssue : Prop :=
  ∀ (l : BitVec 6) (s : State) (e : QEntry), issueLive s (.seq l) = true →
    let u : Proc := .seq l
    let ln := l.toNat
    let now := stepNow s ln
    let f := vFields e.w
    let fl := vFlight (arrUses (seqCtl s ln).arr) e.id e.op f now
    let launched := launch (updCtl (updCtl s u fun c => popEntry c 2) u fun c =>
      { c with vfl := (c.vfl.filter fun p => decide (now < max (vDone p) (p.start + p.g))) ++ [fl] }) u e 2 (vDone fl) 0 0
    vMayIssue (seqCtl s ln).vfl fl = true →
    (∀ x ∈ [(Instr.vadd l, opVadd), (.vmul l, opVmul), (.vfma l, opVfma), (.vwmul l, opVwmul), (.vdot4 l, opVdot4),
        (.vmax l, opVmax), (.vmin l, opVmin), (.vcmp l, opVcmp), (.vsel l, opVsel), (.vsum l, opVsum), (.vperm l, opVperm),
        (.vcvt l, opVcvt), (.vld l, opVld), (.vst l, opVst), (.vexp l, opVexp), (.vlog2 l, opVlog2), (.vrcp l, opVrcp),
        (.vrsq l, opVrsq), (.vtanh l, opVtanh), (.vsig l, opVsig)],
      headOf s u 2 x.2 = .ready e → vCheck x.2 f = none →
      exec x.1 s = .next (advance (vRun launched ln e (gangCores launched ln) [] []) u)) ∧
    (headOf s u 2 opSumq = .ready e → vCheck opSumq f = none → (f.ctl = 5 ∨ sumqBlocked s ln f.vd = false) →
      exec (.sumq l) s = .next (advance (sumqFlags (updCtl launched u fun c => { c with
        fills := c.fills ++ sumqFills launched ln f now }) ln f) u))

/-- A vector instruction that meets no exception has, on every core it runs on, its results and flags (R124, R131).
The four ACTIONs of a faulting core (R133, R134): PENDING clears and the action is noted; after the last answer the
gang halts if any is HALT, and otherwise resumes.
The model's own choices enter by log entries 41, 151, 152.
Completion (exec answers a next state under conditions on the state and the operands alone) is concluded for: VEXC_RESTART,
VEXC_RESTART_NOTRAP, VEXC_SKIP, VEXC_HALT. -/
def Obligations.VectorExceptions : Prop :=
  (∀ (s : State) (l : Nat) (e : QEntry) (places noTrap skipped : List (Nat × Nat)),
    (∀ h ∈ vShares s l e places noTrap, h.exc = none) →
    vRun s l e places noTrap skipped = (vShares s l e places noTrap).foldl (fun s h => vApply s e h) s)
  ∧
  (∀ (r col : BitVec 6) (s : State) (v : Vexc),
    let l := rowLeader s r.toNat
    let p := (r.toNat, col.toNat)
    (seqCtl s l).vexc = some v → (v.faulting.any fun y => y.1 == p && y.2.isNone) = true →
    let next (a : BitVec 2) : State :=
      let v' := { v with faulting := v.faulting.map fun y => if y.1 = p then (p, some a) else y }
      let t := updSeq (putF s F.CORE_VEXC_PENDING (slotOf s p.1 p.2) 0) l fun c => { c with vexc := some v' }
      if v'.faulting.all fun y => y.2.isSome then vResume t l v' else t
    exec (.vexcRestart r col) s = .next (next 0) ∧ exec (.vexcRestartNotrap r col) s = .next (next 1) ∧
    exec (.vexcSkip r col) s = .next (next 2) ∧ exec (.vexcHalt r col) s = .next (next 3))

/-- HGET, HPUT, HCP and HATOM issue (R257, R258, R261, R263): the instruction leaves its queue, its requests join the queues
of every engine of its stream, which issue what they can, its token waiting for the answers; a refused one completes with
its code or halts (R190, R191).
The model's own choices enter by log entries 2, 20, 26, 48, 50, 52, 148.
Completion (exec answers a next state under conditions on the state and the operands alone) is concluded for: HGET, HPUT,
HCP, HATOM. -/
def Obligations.HoistInstructionsIssue : Prop :=
  ∀ (u : Proc) (ecc : List (Nat × Ecc)) (s : State) (e : QEntry), issueLive s u = true →
    ∀ x ∈ [(Instr.hget ⟨u, ecc⟩, opHget), (.hput ⟨u, ecc⟩, opHput), (.hcp ⟨u, ecc⟩, opHcp), (.hatom ⟨u, ecc⟩, opHatom)],
    headOf s u 3 x.2 = .ready e →
    let popped := updCtl s u fun c => popEntry c 3
    let d := hoistDesc e.ps
    let fc := bits e.w.toNat 55 52
    let aop := bits e.w.toNat 47 44
    (hoistCheck u x.2 e.w d = none →
      let xs := engines popped u e.id d
      let t := launch popped u e 3 (procStep popped u + (xs.map (requestCount x.2 aop fc d)).foldl max 0) 0 0
      let rs := markEcc ecc (xs.flatMap (hoistReqs t x.2 fc aop d (reproMode t u d) u e.id))
      exec x.1 s = .next (advance (drainHoists (drainHoists (queueReqs t u e.id rs) 0) 1) u)) ∧
    (∀ c, hoistCheck u x.2 e.w d = some c → exec x.1 s = .next (advance (refuseEntry popped u e 3 c) u))

/-- GO, ARM, CONT, STOP, STOP with SAVE and YIELD (R189, R223, R419): a ROW_CTL write acts at the leader of a gang that is
not lent to a solver engine, in a state that allows the command; at a follower or in another state it is refused and
changes nothing else.
After an accepted GO the gang is RUNNING, with no loop open, nothing in its queues and no stop or return pending (R184,
R189).
The model's own choices enter by log entries 16, 60, 61, 66.
Completion (exec answers a next state under conditions on the state and the operands alone) is concluded for: GO, ARM, CONT,
STOP, STOP_SAVE, YIELD. -/
def Obligations.GangCommands : Prop :=
  (∀ (b : Requester) (row : BitVec 6) (s : State), gate s b true (regAddr .rowCtl row.toNat 0) = none →
    let r := row.toNat
    let st := gangState s r
    let fit := gangFit s r = true ∧ residentHalted s r = false
    (rowLeader s r = r → lent s r = false →
      (st = gsStopped ∨ st = gsHalted → fit → exec (.go b row) s = .next (done (goGang s r))) ∧
      (st = gsStopped → fit → exec (.arm b row) s = .next (done (updSeq s r fun c => { c with armed := true }))) ∧
      (st = gsStopped → fit → exec (.cont b row) s = .next (done (contGang s r))) ∧
      (st = gsRunning → exec (.stop b row) s = .next (done (updSeq s r fun c => { c with stopReq := some false }))) ∧
      (st = gsRunning → exec (.stopSave b row) s = .next (done (updSeq s r fun c => { c with stopReq := some true }))) ∧
      (st = gsRunning → exec (.yield b row) s = .next (done (updSeq s r fun c => { c with yieldReq := true })))) ∧
    (rowLeader s r ≠ r ∨ lent s r = true ∨ (st ≠ gsStopped ∧ st ≠ gsHalted) → exec (.go b row) s = .next (denied s b)) ∧
    (rowLeader s r ≠ r ∨ lent s r = true ∨ st ≠ gsStopped →
      exec (.arm b row) s = .next (denied s b) ∧ exec (.cont b row) s = .next (denied s b)) ∧
    (rowLeader s r ≠ r ∨ lent s r = true ∨ st ≠ gsRunning → exec (.stop b row) s = .next (denied s b) ∧
      exec (.stopSave b row) s = .next (denied s b) ∧ exec (.yield b row) s = .next (denied s b)))
  ∧
  (∀ (b : Requester) (row : BitVec 6) (s : State), s.Canon → gate s b true (regAddr .rowCtl row.toNat 0) = none →
    let r := row.toNat
    rowLeader s r = r → lent s r = false → gangFit s r = true → residentHalted s r = false →
    gangState s r = gsStopped ∨ gangState s r = gsHalted → (∀ p ∈ (seqCtl (bringBack s r) r).patches, p.reg < 64) →
      ∃ t, exec (.go b row) s = .next t ∧ gangState t r = gsRunning ∧ t.resp = .ok ∧
        let c := seqCtl t r
        c.loops = [] ∧ c.qM = [] ∧ c.qV = [] ∧ c.qH = [] ∧ c.qT = [] ∧ c.away = false ∧ c.restored = false)

/-- PSHADOW_WRITE, PACTIVE_WRITE, INSTR_STORE_WRITE, IMCTL_GEN_WRITE and COLMAP_WRITE (R177, R186, R187, R188): an accepted
write lands in its word; the active set takes one only while STOPPED or HALTED, the active bank takes none and counts
IM_BUSY, the generation written of the idle bank arms it or disarms it and becomes that of the words it was loaded with, a
PATCH that lands in the step of a shadow write stands, and a column map names 64 different slots of its row.
PACE_WRITE and DETMODE_WRITE (R42, R55, R466): paced mode needs the row's timer, a target some operating point reaches
within the row's limits, and a reserve the half's budget holds; the result mode changes only while the gang does not run,
for every row of the gang.
The model's own choices enter by log entries 28, 63, 64, 65, 66, 67, 68, 69.
Completion (exec answers a next state under conditions on the state and the operands alone) is concluded for: COLMAP_WRITE,
IMCTL_GEN_WRITE, INSTR_STORE_WRITE, PSHADOW_WRITE, PACTIVE_WRITE, PACE_WRITE, DETMODE_WRITE. -/
def Obligations.RowRegisterWrites : Prop :=
  (∀ (b : Requester) (row i : BitVec 6) (bank : BitVec 1) (j : BitVec 13) (n : BitVec 3) (v : W64) (s : State),
    let r := row.toNat
    (gate s b true (regAddr .rowPshadow r i.toNat) = none → rowLeader s r = r → lent s r = false →
      (mget zNat i.toNat (seqCtl s r).landed ≠ stepNow s r + 1 →
        exec (.pshadowWrite b row i v) s = .next (done (setReg s .rowPshadow r i.toNat v))) ∧
      (mget zNat i.toNat (seqCtl s r).landed = stepNow s r + 1 → exec (.pshadowWrite b row i v) s = .next (done s))) ∧
    (gate s b true (regAddr .rowPactive r i.toNat) = none → rowLeader s r = r → lent s r = false →
      (gangState s r = gsStopped ∨ gangState s r = gsHalted →
        exec (.pactiveWrite b row i v) s = .next (done (setReg s .rowPactive r i.toNat v))) ∧
      (gangState s r ≠ gsStopped → gangState s r ≠ gsHalted → exec (.pactiveWrite b row i v) s = .next (denied s b))) ∧
    (let k : Reg := if bank = 0 then .rowBank0 else .rowBank1;
      gate s b true (regAddr k r j.toNat) = none → lent s r = false →
      (activeBank s r = bank.toNat →
        exec (.instrStoreWrite b row bank j v) s = .next (denied (bumpF s F.ROW_IMCTL_BUSY_CNT r) b)) ∧
      (activeBank s r ≠ bank.toNat → ∃ t, exec (.instrStoreWrite b row bank j v) s = .next t ∧
        (s.Canon → reg t k r j.toNat = v ∧ t.resp = .ok))) ∧
    (gate s b true (regAddr .rowImctl r 0) = none → lent s r = false → activeBank s r = 0 →
      let now := getF s F.ROW_IMCTL_GEN0 r
      let new := bits v.toNat 63 48
      let s' := setReg s .rowImctl r 0 (storedWord .rowImctl (reg s .rowImctl r 0) v)
      bits v.toNat 47 32 = now →
      let s' := putF s' F.ROW_IMCTL_ARMED r
        (if 1 ≤ (new + 65536 - now) % 65536 ∧ (new + 65536 - now) % 65536 ≤ 32767 then 1 else 0)
      exec (.imctlGenWrite b row v) s = .next (done { s' with progs := match mfind (2 * r + 1) s'.progs with
        | some p => mput (2 * r + 1) { p with gen := some (p.gen.getD (BitVec.ofNat 16 new)) } s'.progs
        | none => s'.progs })) ∧
    (gate s b true (regAddr .rowColmap r n.toNat) = none →
      let new := mapAfter s r n.toNat v
      let busy := gangState s (rowLeader s r) = gsRunning ∨ gangState s (rowLeader s r) = gsSwitching
      (busy ∨ (∃ k ∈ new, 67 < k) ∨ ¬ new.Nodup → exec (.colmapWrite b row n v) s = .next (denied s b)) ∧
      (¬ busy → (∀ k ∈ new, k ≤ 67) → new.Nodup → exec (.colmapWrite b row n v) s = .next (done (remapUnits
        (setReg s .rowColmap r n.toNat (storedWord .rowColmap (reg s .rowColmap r n.toNat) v)) r
        (mapAfter s r n.toNat (reg s .rowColmap r n.toNat)) new)))))
  ∧
  (∀ (b : Requester) (row : BitVec 6) (v : W64) (s : State),
    let r := row.toNat
    let l := rowLeader s r
    let tgt := bits v.toNat 47 32
    (gate s b true (regAddr .rowPace r 0) = none → gangRows s l = [r] →
      (bit v.toNat 63 = false → tgt ≤ 1179 → reserveFits s r none = true →
        exec (.paceWrite b row v) s = .next (done (paceTake s r v))) ∧
      (bit v.toNat 63 = true → tgt ≠ 0 → ownerOf s 2 r = 2 →
        (pacePoint tgt = none → exec (.paceWrite b row v) s = .next (denied (putF s F.ROW_PACE_PACE_TOO_FAST r 1) b)) ∧
        (∀ op, pacePoint tgt = some op →
          ((opLimits s r).1 ≤ op → op ≤ (opLimits s r).2 → reserveFits s r (some op) = true →
            exec (.paceWrite b row v) s = .next (done (paceTake s r v))) ∧
          (op < (opLimits s r).1 ∨ (opLimits s r).2 < op ∨ reserveFits s r (some op) = false →
            exec (.paceWrite b row v) s = .next (denied s b)))) ∧
      (bit v.toNat 63 = true → tgt = 0 ∨ ownerOf s 2 r ≠ 2 → exec (.paceWrite b row v) s = .next (denied s b))) ∧
    (gate s b true (regAddr .rowDetmode r 0) = none →
      let idle := gangState s l = gsStopped ∨ gangState s l = gsHalted
      (¬ idle → exec (.detmodeWrite b row v) s = .next (denied s b)) ∧
      (idle → exec (.detmodeWrite b row v) s = .next (done ((gangRows s l).foldl (fun s r =>
        setReg s .rowDetmode r 0 (storedWord .rowDetmode (reg s .rowDetmode r 0) v)) s)))))

/-- CONTEXT_SWITCH (R194, R196, R197): a drained gang that is SWITCHING saves its resident context, loads the next runnable one
from its area and resumes at a boundary.
ICSUM_PROGRAM_LOAD (R147, R171, R187): an image the loader refuses is answered with its reason code and the word it stands at; an accepted one of
a core stream goes to the idle bank, which is then not armed; one of a row control core or node core starts at ENTRY.
The model's own choices enter by log entries 26, 28, 30, 58, 59, 60, 66.
Completion (exec answers a next state under conditions on the state and the operands alone) is concluded for:
CONTEXT_SWITCH, ICSUM_PROGRAM_LOAD. -/
def Obligations.ContextsAndPrograms : Prop :=
  (∀ (l : BitVec 6) (s : State),
    let ln := l.toNat
    rowLeader s ln = ln →
    (∀ k, gangState s ln = gsSwitching → drained (seqCtl s ln) = true → nextCtx s ln = some k →
      let f := fetchSaved (saveResident s ln) ln k
      let t := loadSaved f.1 ln k f.2
      let t := { t with saves := mdrop (· == 4 * ln + k) t.saves }
      let c := seqCtl t ln
      exec (.contextSwitch l) s = .next (boundary (setGangState
        (if c.boundary = 0 ∧ c.nextId = 0 ∧ c.loops = [] ∧ rowSteps t ln = 0 then
          setPc t (seqOf ln) (progOf t (seqOf ln)).entry else t) ln gsRunning) ln true)))
  ∧
  (∀ (image : List W64) (bank : BitVec 1) (s : State),
    let p (u : Proc) := translated s u (programOf image)
    let mine (u : Proc) : Prop := headerOk image = true → (programOf image).target.toNat = targetOf u
    (∀ (l : BitVec 6) (c : BitVec 8) (a : Option Nat), nodeLive s (rowHalf l.toNat) = true → mine (.seq l) →
      loadRefusal (.seq l) image = some (c, a) →
      exec (.icsumProgramLoad (.seq l) bank image) s = .next (answer s (match a with
        | some q => .codeAt c q
        | none => .code c))) ∧
    (∀ l : BitVec 6, nodeLive s (rowHalf l.toNat) = true → mine (.seq l) → loadRefusal (.seq l) image = none →
      lent s l.toNat = false → domainOn s (domRow l.toNat) = true →
      (activeBank s l.toNat = bank.toNat → exec (.icsumProgramLoad (.seq l) bank image) s =
        .next (accessError (bumpF s F.ROW_IMCTL_BUSY_CNT l.toNat))) ∧
      (activeBank s l.toNat ≠ bank.toNat → ∃ t, exec (.icsumProgramLoad (.seq l) bank image) s = .next t ∧ t.resp = .ok ∧
        mfind (progKey (.seq l) bank.toNat) t.progs = some (p (.seq l)) ∧
        (s.Canon → getF t F.ROW_IMCTL_ARMED l.toNat = 0))) ∧
    (∀ u : Proc, targetOf u ≠ 0 → nodeLive s (match u with
        | .seq l => rowHalf l.toNat
        | .rcc r => rowHalf r.toNat
        | .node h _ => h.toNat) = true → mine u → loadRefusal u image = none →
      exec (.icsumProgramLoad u bank image) s = .next (done (updCtl { s with progs := mput (progKey u 0) (p u) s.progs } u
        fun c => { c with pc := (p u).entry, halted := false }))))

/-- The watchdog of R198: with WDOG_LIMIT nonzero, the running context halts with WATCHDOG once it has run that many steps
since its last replay boundary, and not before; a nonzero limit is refused unless the resource-owner table gives the
event timer of the row to the replay watchdog; a limit of 0 is always accepted.
Completion (exec answers a next state under conditions on the state and the operands alone) is concluded for:
WATCHDOG_EXPIRY, WDOG_LIMIT_WRITE. -/
def Obligations.WatchdogLimits : Prop :=
  (∀ (l : BitVec 6) (s : State),
    let r := l.toNat
    let n := getF s F.ROW_CTXCTL_WDOG_LIMIT r
    let ran := rowSteps s r - (seqCtl s r).boundary
    rowLeader s r = r → gangState s r = gsRunning → lent s r = false → n ≠ 0 →
      (n ≤ ran → exec (.watchdogExpiry l) s = .next (haltGang s r rcWatchdog 0 (seqCtl s r).pc 0)) ∧
      (ran < n → exec (.watchdogExpiry l) s = .next s)) ∧
  (∀ (b : Requester) (row : BitVec 6) (v : W64) (s : State), gate s b true (regAddr .rowCtxctl row.toNat 0) = none →
    let r := row.toNat
    let lim := bits v.toNat 31 0
    (lim ≠ 0 → ownerOf s 2 r ≠ 1 → exec (.wdogLimitWrite b row v) s = .next (denied s b)) ∧
    (lim = 0 ∨ ownerOf s 2 r = 1 → ∃ t, exec (.wdogLimitWrite b row v) s = .next t ∧ t.resp = .ok ∧
      (s.Canon → getF t F.ROW_CTXCTL_WDOG_LIMIT r = lim)))

/-- PACING_RELEASE and BARRIER_RELEASE (R40, R345): of a running paced gang whose earlier handshakes have issued, handshake n
is released once pod time reaches T0 + n / PACE_TARGET, the target in force; once the counter has reached TR the armed gangs
bound to the slot start together, paced from that instant, and this half's part of the START_BARRIER completes; before,
nothing happens.
The model's own choices enter by log entries 62, 68, 73, 98.
Completion (exec answers a next state under conditions on the state and the operands alone) is concluded for:
PACING_RELEASE, BARRIER_RELEASE. -/
def Obligations.ReleasesAtPodTime : Prop :=
  ∀ (s : State),
    (∀ l : BitVec 6,
      let ln := l.toNat
      let c := seqCtl s ln
      let tgt := c.paceTgt
      let now := (podTime s (rowHalf ln)).toNat
      let due := c.paceT0.toNat + ceilDiv (c.paceRel * 1000) tgt
      rowLeader s ln = ln → gangState s ln = gsRunning → getF s F.ROW_PACE_PACE_ACTIVE ln ≠ 0 → tgt ≠ 0 →
      (now < due ∨ rowSteps s ln < c.paceN + c.paceRel → exec (.pacingRelease l) s = .next s) ∧
      (c.paceN + c.paceRel ≤ rowSteps s ln → due ≤ now →
        exec (.pacingRelease l) s = .next (updSeq s ln fun c => { c with paceRel := c.paceRel + 1 }))) ∧
    (∀ (h : BitVec 1) (slot : BitVec 4) (r : CollRun) (rs : List CollRun), releasing s h.toNat slot.toNat = r :: rs →
      exec (.barrierRelease h slot) s = .next ((r :: rs).foldl (fun s r => collFinish s h.toNat r 0 (hallTime s h.toNat))
        ((armedFor s h.toNat slot.toNat).foldl (fun s l => releaseGang s l (releaseT0 s h.toNat r)) s))) ∧
    (∀ (h : BitVec 1) (slot : BitVec 4), releasing s h.toNat slot.toNat = [] → exec (.barrierRelease h slot) s = .next s)

/-- FANTAIL_EVALUATION and POWER_SAMPLE (R39, R463, R464): the mean power of an evaluation is shown and moves the burst
bucket by SUSTAIN less that power, within 0 and Bmax, and a mean below SUSTAIN ends a clamp; a sample above BURST clamps the free rows to their lowest points, is
counted once a clamp, and changes nothing while the power keeps to BURST.
The model's own choices enter by log entries 70, 136.
Completion (exec answers a next state under conditions on the state and the operands alone) is concluded for:
FANTAIL_EVALUATION, POWER_SAMPLE. -/
def Obligations.BurstBucketAndClamp : Prop :=
  ∀ (h : BitVec 1) (watts : BitVec 16) (s : State), s.Canon →
    let k := h.toNat
    fantailLive s k = true →
    (∃ t, exec (.fantailEvaluation h watts) s = .next t ∧ (half t k).evals = (half s k).evals + 1 ∧
      ((half s k).bucketOn = true → ((half t k).bucket : Int) =
        max 0 (min (bucketMax s k * 100 : Nat) ((half s k).bucket + sustainW s k - watts.toNat))) ∧
      ((half s k).bucketOn = false → (half t k).bucket = (half s k).bucket) ∧
      getF t F.PWR_MEAS_P_AVG 0 k = watts.toNat ∧
      (watts.toNat < sustainW s k → getF t F.PWR_STAT_CLAMP 0 k = 0)) ∧
    (watts.toNat ≤ burstW s k → exec (.powerSample h watts) s = .next s) ∧
    (burstW s k < watts.toNat → exec (.powerSample h watts) s = .next (freeToMin (putF
      (if getF s F.PWR_STAT_CLAMP 0 k = 1 then s else bumpF s F.PWR_STAT_CLAMPS 0 1 k) F.PWR_STAT_CLAMP 0 1 k) k))

/-- MEMORY_READ and MEMORY_WRITE of HBM (R248, R260, R261, R262, R279, R360, R508): a served read answers the bytes its
addresses hold; a served write changes exactly the bytes it gives and answers that it is done; a status other than 0 is
answered in place of either, and nothing is written. What the write tracker or a seam that admits nothing holds is
answered later, under a number of its own (R23), and changes no byte now.
TILE_APERTURE_ACCESS (R494): the aperture reads and writes the tile memory of the slot its address names and no other
slot's; where the slot serves no access or the access leaves its 1 MiB, it answers NO_MEMORY and nothing is written.
The model's own choices enter by log entries 6, 75, 80, 117, 146.
Completion (exec answers a next state under conditions on the state and the operands alone) is concluded for: MEMORY_READ,
MEMORY_WRITE, TILE_APERTURE_ACCESS. -/
def Obligations.MemoryAndApertureAccesses : Prop :=
  (∀ (h : BitVec 1) (addr : BitVec 48) (len : BitVec 7) (bs : List Byte) (s : State),
    let a := addr.toNat
    let c := memStatus s h.toNat a
    inAperture a = false →
    (c ≠ 0 → exec (.memoryRead h addr len .ok) s = .next (answer s (.code c)) ∧
      exec (.memoryWrite h addr bs) s = .next (answer s (.code c))) ∧
    (c = 0 → seamHeld s h.toNat a = false →
      exec (.memoryRead h addr len .ok) s = .next (answer s (.bytes (hbmBytes s a len.toNat)))) ∧
    (c = 0 → seamHeld s h.toNat a = true → exec (.memoryRead h addr len .ok) s = .next (answer
      (holdOp { s with asked := s.asked + 1 } a (.read a len.toNat h.toNat) (.memory h.toNat s.asked)) (.later s.asked))) ∧
    (c = 0 → seamHeld s h.toNat a = false → trackerHolds s a = false → ∃ t, exec (.memoryWrite h addr bs) s = .next t ∧
      t.resp = .ok ∧ (∀ i, i < bs.length → hbmByte t (a + i) = bs.getD i 0) ∧
      (∀ x, x < a ∨ a + bs.length ≤ x → hbmByte t x = hbmByte s x) ∧
      t.mg = s.mg ∧ t.cores = s.cores ∧ t.ctl = s.ctl ∧ t.pending = s.pending) ∧
    (c = 0 → seamHeld s h.toNat a = true ∨ trackerHolds s a = true → ∃ t, exec (.memoryWrite h addr bs) s = .next t ∧
      t.resp = .later s.asked ∧ t.asked = s.asked + 1 ∧ t.hbm = s.hbm ∧ t.cores = s.cores))
  ∧
  (∀ (addr : BitVec 48) (len : Nat) (bs : List Byte) (s : State), s.Canon →
    let a := addr.toNat
    let p := apSlot a
    let o := a % 2 ^ 20
    inAperture a = true →
    (slotServes s p = true → o + len ≤ 2 ^ 20 →
      exec (.tileApertureAccess addr false len bs) s = .next (answer s (.bytes (rdBytes (getCore s p).tile o len))) ∧
      ∃ t, exec (.tileApertureAccess addr true len bs) s = .next t ∧ t.resp = .ok ∧
        (getCore t p).tile = wrBytes (getCore s p).tile o bs ∧ (∀ q, q ≠ p → getCore t q = getCore s q) ∧ t.hbm = s.hbm) ∧
    (slotServes s p = false ∨ 2 ^ 20 < o + len → ∀ w, exec (.tileApertureAccess addr w len bs) s =
      .next (answer s (.code stNoMemory))))

/-- MEMORY_ATOMIC (R263, R264): a plain operation on a word no accumulator holds answers the old value and leaves in the word
what ADD, MIN, MAX, EXCH or CAS makes of it; one to a half that is not RUNNING is answered HALF_DOWN, otherwise one
outside HBM or not aligned to the word ATOM_TARGET, and an operation or a format that is none of those listed
BAD_FORMAT.
The model's own choices enter by log entries 80, 146, 150.
Completion (exec answers a next state under conditions on the state and the operands alone) is concluded for: MEMORY_ATOMIC. -/
def Obligations.AtomicsReadModifyWrite : Prop :=
  ∀ (h : BitVec 1) (r : AtomReq) (s : State),
    let a := r.addr.toNat
    let w := fcWidth r.fc.toNat / 8
    let c := memStatus s h.toNat a
    let legal := r.aop.toNat < 5 ∧ [0x5, 0xA, 0xB, 0xC, 0xD].contains r.fc.toNat = true ∧ ¬ (3 ≤ r.aop.toNat ∧ r.fc = 0x5)
    (legal → a < hbmEnd → a % w = 0 → c = 0 → seamHeld s h.toNat a = false → trackerHolds s a = false → r.repro = false →
      r.close = false → mfind a (half s (addrHalf a)).accs = none →
      let old := hbmNat s a w
      let v := atomNew r.fc.toNat r.aop.toNat old (r.x.toNat % 2 ^ (8 * w)) (r.cmp.toNat % 2 ^ (8 * w))
      exec (.memoryAtomic h r) s = .next (answer (if v.2 then hbmStore s a (toBytes w v.1) else s)
        (.value (BitVec.ofNat 64 old)))) ∧
    (legal → a < hbmEnd → c = stHalfDown → exec (.memoryAtomic h r) s = .next (answer s (.code stHalfDown))) ∧
    (legal → hbmEnd ≤ a ∨ (a % w ≠ 0 ∧ c ≠ stHalfDown ∧ r.close = false) →
      exec (.memoryAtomic h r) s = .next (answer s (.code stAtomTarget))) ∧
    (¬ legal → exec (.memoryAtomic h r) s = .next (answer s (.code rcBadFormat)))

/-- A reproducible BF16 or FP32 word holds the exact sum of all its adds, whatever the order in which they arrive
(R265). -/
def Obligations.ReproducibleSumsIgnoreOrder : Prop :=
  ∀ (a : AccSt) (l l' : List Sys2Proof.Machine.Num), l.Perm l' →
    l.foldl accAdd a = l'.foldl accAdd a ∧ accWord (l.foldl accAdd a) = accWord (l'.foldl accAdd a)

/-- EPOCH_OPEN, EPOCH_ABORT and EPOCH_TIMEOUT (R267): OPEN = 1 opens a closed epoch with nothing closed, and is refused for
an open one; an abort, or a timeout once TIMEOUT × 10 µs of hall time have passed, closes an open epoch without DONE.
REPRO_FP64_ADD_APPLY (R253, R266, R267): the first waiting add of the epoch whose turn has come is rounded into its word,
its old value goes where it is wanted, and it waits no more; one that closes its source is answered with DONE; on a
channel fenced meanwhile it ends with CHANNEL_OFF; with none whose turn has come nothing changes.
The model's own choices enter by log entries 77, 78, 150.
Completion (exec answers a next state under conditions on the state and the operands alone) is concluded for:
REPRO_FP64_ADD_APPLY, EPOCH_OPEN, EPOCH_ABORT, EPOCH_TIMEOUT. -/
def Obligations.EpochsAndOrderedAdds : Prop :=
  (∀ (b : Requester) (h : BitVec 1) (n : BitVec 4) (v : W64) (s : State), s.Canon →
    let k := h.toNat
    let i := n.toNat
    let isOpen := getF s F.HBM_REPOCH_OPEN k i = 1
    (gate s b true (regAddr .hbmRepoch k i) = none →
      (isOpen → exec (.epochOpen b h n v) s = .next (denied s b)) ∧
      (¬ isOpen → ∃ t, exec (.epochOpen b h n v) s = .next t ∧ t.resp = .ok ∧ getF t F.HBM_REPOCH_OPEN k i = 1 ∧
        getF t F.HBM_REPOCH_DONE k i = 0 ∧ getF t F.HBM_REPOCH_NCLOSED k i = 0 ∧
        getF t F.HBM_REPOCH_NSRCM1 k i = bits v.toNat 47 32 ∧ getF t F.HBM_REPOCH_TIMEOUT k i = bits v.toNat 15 0 ∧
        (half t k).epochs = mset (fun _ => epochZero) i { epochZero with opened := hallTime s k } (half s k).epochs) ∧
      (isOpen → ∃ t, exec (.epochAbort b h n v) s = .next t ∧ t.resp = .ok ∧ getF t F.HBM_REPOCH_OPEN k i = 0 ∧
        (half t k).adds = (half s k).adds.filter fun a => a.epoch != i)) ∧
    (isOpen → getF s F.HBM_REPOCH_TIMEOUT k i ≠ 0 →
      let due := (getEpoch s k i).opened + 10000 * getF s F.HBM_REPOCH_TIMEOUT k i
      (due ≤ hallTime s k → exec (.epochTimeout h n) s = .next (abortEpoch s k i true)) ∧
      (hallTime s k < due → exec (.epochTimeout h n) s = .next s)))
  ∧
  (∀ (h : BitVec 1) (n : BitVec 4) (s : State),
    let k := h.toNat
    let mine := fun a : Add64 => a.epoch == n.toNat && addReady (getEpoch s k n.toNat) (half s k).adds a
    (∀ a, (half s k).adds.find? mine = some a →
      let t := updHalf s k fun x => { x with adds := x.adds.erase a }
      let old := hbmNat t a.addr 8
      (channelOff t a.addr = true → exec (.reproFp64AddApply h n) s = .next (settleClosing (if a.closes then
        failClose t k a.epoch a.who stChannelOff else answerW t a.who stChannelOff false []) k n.toNat)) ∧
      (channelOff t a.addr = false → exec (.reproFp64AddApply h n) s = .next (settleClosing (
        let u := giveOld (add64Word t a.addr a.x) k a.ret 8 old
        if a.closes then keepOld u k a.epoch a.who [BitVec.ofNat 64 old]
        else answerW u a.who 0 false [BitVec.ofNat 64 old]) k n.toNat))) ∧
    ((half s k).adds.find? mine = none → exec (.reproFp64AddApply h n) s = .next s))

/-- TG_START, TG_STOP, TG_MODE_SELECT and TG_RUN_END (R271, R402): a write that selects a mode of a party that does not own
the engine, or START while BUSY, is refused; a legal one is stored, START making the engine BUSY and STOP ending the run; a
run that ends is DONE, and FAIL where it met errors.
SCRUB_READ, DRAM_REFRESH, CHANNEL_TRAINING_DONE and TRACKER_HOLD_RELEASE (R48, R244, R271, R360, R418, R458): a scrub that
meets an error counts it and reports the channel; refreshes count in thousands, twice as many while the stack is hot; a
stack's channels in TRAINING enter OUT, the others stay; with nothing held no hold is released, and the oldest hold's
slices are stashed before what waited for them is applied.
The model's own choices enter by log entries 72, 75, 76, 79, 145, 159.
Completion (exec answers a next state under conditions on the state and the operands alone) is concluded for: TG_START,
TG_STOP, TG_MODE_SELECT, TG_RUN_END, SCRUB_READ, DRAM_REFRESH, TRACKER_HOLD_RELEASE, CHANNEL_TRAINING_DONE. -/
def Obligations.ChannelServices : Prop :=
  (∀ (b : Requester) (ch : BitVec 10) (v : W64) (s : State), s.Canon →
    let c := ch.toNat
    let busy := getF s F.HBM_TG_STAT_BUSY c = 1
    let mode := bits v.toNat 61 60
    let owned := (mode = 1 ∧ ownerOf s 3 c = 1 ∧ (bits v.toNat 59 56 = 0 ∨ bits v.toNat 59 56 = 5)) ∨
        (mode = 2 ∧ ownerOf s 3 c = 2 ∧ bits v.toNat 59 56 ≤ 5)
    (gate s b true (regAddr .hbmTgCtl c 0) = none →
      (mode = 1 ∧ ownerOf s 3 c ≠ 1 ∨ mode = 2 ∧ ownerOf s 3 c ≠ 2 ∨ mode = 3 → exec (.tgStart b ch v) s = .next (denied s b) ∧
        exec (.tgStop b ch v) s = .next (denied s b) ∧ exec (.tgModeSelect b ch v) s = .next (denied s b)) ∧
      (busy → exec (.tgStart b ch v) s = .next (denied s b)) ∧
      (¬ busy → owned → bit v.toNat 62 = false → (mode = 2 → getF s F.HBM_CHST_STATE c = 2) →
        ∃ t, exec (.tgStart b ch v) s = .next t ∧ t.resp = .ok ∧ getF t F.HBM_TG_STAT_BUSY c = 1 ∧
          getF t F.HBM_TG_CTL_MODE c = mode ∧ getF t F.HBM_TG_CTL_COUNT c = bits v.toNat 31 0) ∧
      (owned → bit v.toNat 63 = false →
        (∃ t, exec (.tgModeSelect b ch v) s = .next t ∧ t.resp = .ok ∧ getF t F.HBM_TG_CTL_MODE c = mode ∧
          getF t F.HBM_TG_STAT_BUSY c = getF s F.HBM_TG_STAT_BUSY c) ∧
        (busy → ∃ t, exec (.tgStop b ch v) s = .next t ∧ t.resp = .ok ∧ getF t F.HBM_TG_STAT_BUSY c = 0 ∧
          getF t F.HBM_TG_STAT_DONE c = 1))) ∧
    (∀ (errors : BitVec 32) (pc : BitVec 1) (o : BitVec 31), busy → ∃ t, exec (.tgRunEnd ch errors pc o) s = .next t ∧
      getF t F.HBM_TG_STAT_BUSY c = 0 ∧ getF t F.HBM_TG_STAT_DONE c = 1 ∧
      (errors ≠ 0 → getF t F.HBM_TG_STAT_FAIL c = 1) ∧ (errors = 0 → getF t F.HBM_TG_STAT_FAIL c = getF s F.HBM_TG_STAT_FAIL c)))
  ∧
  (∀ (ch : BitVec 10) (s : State), s.Canon →
    let c := ch.toNat
    (∀ (pc : BitVec 1) (o : BitVec 31) (e : Ecc), scrubOn s c = true →
      exec (.scrubRead ch pc o .ok) s = .next s ∧
      (e ≠ .ok → exec (.scrubRead ch pc o e) s = .next (eccChannel (tgFail s c 1 pc.toNat o.toNat) c 0 e))) ∧
    (∀ k : BitVec 32, domainOn s (domStack (c / 32)) = true → ∃ t, exec (.dramRefresh ch k) s = .next t ∧
      getF t F.HBM_CHST_REF_K c = min (2 ^ 32 - 1)
        (getF s F.HBM_CHST_REF_K c + if getF s F.HBM_CHST_HOT c = 1 then 2 * k.toNat else k.toNat)) ∧
    (∀ stack : BitVec 5, ∃ t, exec (.channelTrainingDone stack) s = .next t ∧
      getF t F.HBM_CHST_STATE c = if c / 32 = stack.toNat ∧ getF s F.HBM_CHST_STATE c = 3 then 2 else getF s F.HBM_CHST_STATE c) ∧
    (∀ h : BitVec 1, (half s h.toNat).ckp.ops = [] → exec (.trackerHoldRelease h) s = .next s) ∧
    (∀ (h : BitVec 1) (e : HeldOp × Waiter) (r : List (HeldOp × Waiter)), (half s h.toNat).ckp.ops = e :: r →
      let ls := (heldLines e.1).filter fun a => !inAperture a && trackerHolds s a
      ls.any (stashFull s) = false → exec (.trackerHoldRelease h) s =
        .next (releaseHeld (((ls.map (sliceOf s)).dedup).foldl (fun s k => stashSlice s h.toNat k) s) h.toNat)))

/-- REGISTER_WRITE and READ_TO_CLEAR reach nothing but aligned 64-bit words (R7, R9): a narrower or misaligned access is
refused with an access error and changes nothing; a write of a plain register puts its RW fields, if all keep their
range, and is refused as a whole if one does not; a status bit that the part sets at the moment of a write wins over
it (R10).
READ_TO_CLEAR (R8, R9, R10): a read of a register whose domain is on answers its fields, with its reserved and
write-only bits 0, and leaves its RC fields at what the part sets at that moment and every other bit as it was; a read of
a register whose domain is off answers 0 and changes nothing (R497).
The model's own choices enter by log entries 11, 12.
Completion (exec answers a next state under conditions on the state and the operands alone) is concluded for:
REGISTER_WRITE, READ_TO_CLEAR. -/
def Obligations.RegisterAccesses : Prop :=
  (∀ (b : Requester) (addr : BitVec 48) (size : Nat) (v sets : W64) (s : State),
    let a := addr.toNat
    (size ≠ 8 ∨ a % 8 ≠ 0 → exec (.registerWrite b addr size ⟨v, 0⟩) s = .next { s with resp := match b with
      | .host _ => .code lomAccess
      | _ => .accessError }) ∧
    (size ≠ 8 ∨ a % 8 ≠ 0 → exec (.readToClear b addr ⟨size, sets⟩) s = .next { s with resp := match b with
      | .host _ => .code lomAccess
      | _ => .accessError }) ∧
    (∀ r i k, regAt a = some (r, i, k) → a % 8 = 0 ∧ a = regAddr r i k) ∧
    (∀ r i k, regAt a = some (r, i, k) → gate s b true a = none →
      r ∈ [.coreVtrap, .leatCfg, .leatBind, .leatSrcinc, .leatStage, .collCfg, .ckpPeriod, .ckpPhase, .ckpJob, .ckpRman, .ckpRstep,
        .ckpRjob, .secQnonce] →
      (inRange r v = true → exec (.registerWrite b addr 8 ⟨v, 0⟩) s = .next (done (setReg s r i k (storedWord r (reg s r i k) v)))) ∧
      (inRange r v = false → exec (.registerWrite b addr 8 ⟨v, 0⟩) s = .next (denied s b))) ∧
    (∀ t, exec (.registerWrite b addr size ⟨v, 0⟩) s = .next t →
      exec (.registerWrite b addr size ⟨v, sets⟩) s = .next (setDuring t a sets) ∧
      (∀ r i k, regAt a = some (r, i, k) → blockOn t (regSpec r).blk i = true → w1cBits r sets ≠ 0 →
        setDuring t a sets = setReg t r i k (reg t r i k ||| w1cBits r sets))))
  ∧
  (∀ (b : Requester) (addr : BitVec 48) (sets : W64) (s : State) (r : Reg) (i k : Nat), s.Canon →
    regAt addr.toNat = some (r, i, k) → addr.toNat % 8 = 0 → gate s b false addr.toNat = none →
    r ∉ [.devUstat, .devElog, .lomHdb, .pwrMeas, .hoistStat, .seamState] →
    (blockOn s (regSpec r).blk i = true → ∃ t, exec (.readToClear b addr ⟨8, sets⟩) s = .next t ∧
      t.resp = .value (readWord r (reg s r i k)) ∧
      reg t r i k = clearedWord r (reg s r i k) ||| (sets &&& (clearedWord r sets ^^^ sets)) ∧
      (∀ r' i' k', regAddr r' i' k' ≠ regAddr r i k → reg t r' i' k' = reg s r' i' k')) ∧
    (blockOn s (regSpec r).blk i = false → exec (.readToClear b addr ⟨8, sets⟩) s = .next (answer s (.value 0))))

/-- HOST_DOORBELL_WRITE (R387): a host write ORs its data into the doorbell, and a read by node software returns the
accumulated value and clears it; the other doorbells keep theirs.
Completion (exec answers a next state under conditions on the state and the operands alone) is concluded for:
HOST_DOORBELL_WRITE. -/
def Obligations.DoorbellsAccumulate : Prop :=
  ∀ (h : BitVec 1) (n : BitVec 6) (v : W64) (s : State), s.Canon →
    let k := h.toNat
    let a := regAddr .lomHdb k n.toNat
    (gate s (.host h) true a = none → ∃ t, exec (.hostDoorbellWrite h n v) s = .next t ∧ t.resp = .ok ∧
      reg t .lomHdb k n.toNat = reg s .lomHdb k n.toNat ||| v ∧
      ∀ m : BitVec 6, m ≠ n → reg t .lomHdb k m.toNat = reg s .lomHdb k m.toNat) ∧
    (gate s (.node h) false a = none → blockOn s .lom k = true →
      ∃ t, exec (.readToClear (.node h) (BitVec.ofNat 48 a) ⟨8, 0⟩) s = .next t ∧
      t.resp = .value (reg s .lomHdb k n.toNat) ∧ reg t .lomHdb k n.toNat = 0 ∧
      ∀ m : BitVec 6, m ≠ n → reg t .lomHdb k m.toNat = reg s .lomHdb k m.toNat)

/-- LOM_QUEUE_DISABLE (R392): EN := 0 takes effect once the queue's started descriptors have completed; the descriptors
held but not started then complete with LOM_QUEUE_OFF.
Completion (exec answers a next state under conditions on the state and the operands alone) is concluded for:
LOM_QUEUE_DISABLE. -/
def Obligations.QueuesDisable : Prop :=
  ∀ (b : Requester) (h : BitVec 1) (q : BitVec 4) (v : W64) (s : State), s.Canon →
    let k := h.toNat
    let j := q.toNat
    let mine := (getLom s k).dmas.filter fun d => d.q == j
    (gate s b true (regAddr .lomQctl k j) = none → inRange .lomQctl (setBits v 63 63 0) = true →
      getF s F.LOM_QCTL_EN k j = 1 →
      (mine.any (fun d => d.started) = true → ∃ t, exec (.lomQueueDisable b h q v) s = .next t ∧ t.resp = .ok ∧
        getF t F.LOM_QCTL_EN k j = 1 ∧ (getLom t k).dmas = (getLom s k).dmas ∧ (getLom t k).stopping.contains j = true) ∧
      (mine.any (fun d => d.started) = false → ∃ u t,
        t = mine.foldl (fun s d => dmaLeave s k d lomQueueOff.toNat) u ∧ (getLom u k).dmas = (getLom s k).dmas ∧
        exec (.lomQueueDisable b h q v) s = .next (done (queueState (putF (updLom t k fun l => { l with
          stopping := l.stopping.filter (· != j), fenced := l.fenced.filter (· != j) }) F.LOM_QCTL_EN k 0 j) k j)))) ∧
    (∀ d, (getLom s k).stopping.contains j = true → mine.filter (fun d => d.started) = [d] → d.left = 0 → dmaAfter d = false →
      (getLom s k).dmas.find? (fun e => e.id == d.id && e.started && e.left == 0) = some d →
      ∃ t, exec (.dmaDescriptorComplete h d.id) s = .next t ∧ getF t F.LOM_QCTL_EN k j = 0 ∧
        ∀ e ∈ (getLom t k).dmas, e.q ≠ j)

/-- LOMLY_PORT_UP and LOMLY_PORT_DOWN (R370, R371, R390): the first port to come up is the active one; a port longer than
100 ns stays DOWN; an active port that goes DOWN gives way to the other if that is UP, and the link keeps its session,
otherwise the session ends.
LINK_FLIT_RECEIVE and LINK_NAK (R301, R302, R303, R371, R372, R373): a flit with an uncorrectable codeword is counted
and answered with a NAK; one that fails its tag, is sealed under a session not known here or carries an illegal packet
counts against its session; the next flit in order is taken, its packets delivered; a repeated one has no further effect,
and one after a gap asks for a NAK; a NAK drops what it acknowledges from the retry buffer and sends the rest again.
The model's own choices enter by log entries 82, 83, 111.
Completion (exec answers a next state under conditions on the state and the operands alone) is concluded for:
LINK_FLIT_RECEIVE, LINK_NAK, LOMLY_PORT_DOWN, LOMLY_PORT_UP. -/
def Obligations.LomlyPortsAndFlits : Prop :=
  (∀ (h : BitVec 1) (p : BitVec 1) (ns : BitVec 8) (s : State), s.Canon →
    let k := h.toNat
    let j := p.toNat
    let e := lomEngine s k j
    (halfState s k ≠ hsOff → s.pins.refLost = false → lomPort s k j < 2 → domainOn s (domOptic e) = true →
      (getUnit s utOptic e).st ≠ 3 →
      (ns.toNat ≤ 100 → ∃ t, exec (.lomlyPortUp h p ns) s = .next t ∧ lomPort t k j = 2 ∧
        (lomUp s k = false → lomActive t k = j ∧ lomUp t k = true)) ∧
      (100 < ns.toNat → ∃ t, exec (.lomlyPortUp h p ns) s = .next t ∧ lomPort t k j = 0)) ∧
    (lomPort s k j = 2 → exec (.lomlyPortDown h p) s =
      .next (detectUncorrected (portGone s k j) utOptic e 0x0005 0 (64 + j))) ∧
    (lomPort s k j = 2 → lomActive s k = j → lomPort s k (1 - j) = 2 →
      ∃ t, exec (.lomlyPortDown h p) s = .next t ∧ lomActive t k = 1 - j ∧ lomPort t k j = 0 ∧
        (getLink t (lomKey k)).session = (getLink s (lomKey k)).session) ∧
    (lomPort s k j = 2 → lomActive s k = j → lomPort s k (1 - j) ≠ 2 →
      ∃ t, exec (.lomlyPortDown h p) s = .next t ∧ (getLink t (lomKey k)).session = 0 ∧ getF t F.LOM_STAT_SSTATE k = 0))
  ∧
  (∀ (l : LinkId) (f : Flit) (s : State), linkLive s l = true → (f.session ≠ 0 ∨ ∃ b, l = .seam b) →
    let k := linkKey l
    let seq := f.seq.toNat
    let good := f.fecOk = true ∧ f.tagOk = true ∧ sessionKnown s l f = true ∧ typesLegal l f = true
    let t := if f.kind = 2 then countRetry (takeHeader s l f) l seq else takeHeader s l f
    let rx := (getLink t k).rx
    (f.fecOk = false → exec (.linkFlitReceive l f) s = .next (afterBadWord (sendNak (countUncorr s l seq) l seq) l)) ∧
    (f.fecOk = true → f.tagOk = false ∨ sessionKnown s l f = false ∨ typesLegal l f = false →
      exec (.linkFlitReceive l f) s = .next (tagFailure s l seq)) ∧
    (good → seq = rx % 65536 →
      let u := updLink t k fun x => inOrder x f
      exec (.linkFlitReceive l f) s = .next (pump (if f.kind = 0 then deliverFlit u l f else u) k)) ∧
    (good → seq ≠ rx % 65536 → (rx + 65535 + 65536 - seq) % 65536 < 32768 →
      exec (.linkFlitReceive l f) s = .next (pump t k)) ∧
    (good → seq ≠ rx % 65536 → 32768 ≤ (rx + 65535 + 65536 - seq) % 65536 →
      exec (.linkFlitReceive l f) s = .next (pump (sendNak t l seq) k)) ∧
    (∀ ack : BitVec 16, (∀ h p, l ≠ .lomly h p) → exec (.linkNak l ack) s = .next (pump (countRetry (takeAck s k ack) l ack.toNat) k)) ∧
    (∀ (ack : BitVec 16) (h p : BitVec 1), l = .lomly h p → exec (.linkNak l ack) s =
      .next (pump (countRetry (dropOldKeys (takeAck s k ack) h.toNat) l ack.toNat) k)))

/-- MRD, MWR, DESC, HRSP, HWACK, EVACK, EVENT_SEND and NODE_POST_EVENT (R381, R382, R383, R385, R388, R389): on a link that
carries sealed traffic, each packet of the host has its effect; a management access is carried out as the host's and
answered by an MRSP; an event joins the channel unless its source is masked, and the oldest one not sent goes out on a VC2
credit.
DMA_DESCRIPTOR_START, DMA_DESCRIPTOR_COMPLETE and LOMLY_DMA_TIMEOUT (R383, R384, R385, R386): the next held descriptor of
a queue starts while fewer than eight run; an illegal one completes LOM_BAD_DESC and one outside HBM LOM_BAD_ADDR; the last
line answered, an AFTER write is made and the descriptor completes; a request left unanswered ends its lines with
LOM_TIMEOUT.
The model's own choices enter by log entries 12, 108, 109.
Completion (exec answers a next state under conditions on the state and the operands alone) is concluded for: MRD, MWR,
DESC, HRSP, HWACK, EVACK, EVENT_SEND, DMA_DESCRIPTOR_START, DMA_DESCRIPTOR_COMPLETE, LOMLY_DMA_TIMEOUT, NODE_POST_EVENT. -/
def Obligations.LomlyPacketsAndDma : Prop :=
  (∀ (h : BitVec 1) (s : State),
    let k := h.toNat
    (lomLive s k = true →
      (∀ (addr v : W64) (tag : BitVec 16),
        exec (.mrd h addr tag) s = .next (mrsp (readReg s (.host h) addr.toNat 8) k tag) ∧
        exec (.mwr h addr v tag) s = .next (mrsp (writeReg s (.host h) addr.toNat 8 v) k tag)) ∧
      (∀ (q : BitVec 4) (line : List W64), exec (.desc h q line) s = .next (descApply s k q.toNat line)) ∧
      (∀ (tag : BitVec 16) (ls : List W64), exec (.hrsp h tag ls) s = .next (hrspApply s k tag.toNat ls)) ∧
      (∀ (tag : BitVec 16) (r : HostReq), (getLom s k).hreqs.find? (fun r => r.tag == tag.toNat && !r.read) = some r →
        exec (.hwack h tag) s = .next (hostReqEnd s k r 0)) ∧
      (∀ n : BitVec 32, exec (.evack h n) s = .next (evackApply s k n)) ∧
      (∀ e : Event, halfState s k ≠ hsBoot → 0 < (getLink s (lomKey k)).cr.getD 2 0 →
        (getLom s k).events.find? (fun e => !e.sent) = some e →
        exec (.eventSend h) s = .next (lomSend (updLom s k fun l => { l with
          events := l.events.map fun x => if x.seq = e.seq then { x with sent := true } else x }) k 2
          (lomPkt 9 0 0 0 0 (BitVec.ofNat 64 e.seq) (eventWords e))))) ∧
    (∀ v : W64, gate s (.node h) true (regAddr .lomEvpost k 0) = none →
      (bit (getF s F.LOM_CFG_EVMASK k) evPost = false → exec (.nodePostEvent h v) s = .next (done s)) ∧
      exec (.nodePostEvent h v) s = .next (done (raiseEvent s k evPost 0 [v]))))
  ∧
  (∀ (h : BitVec 1) (s : State),
    let k := h.toNat
    let l := getLom s k
    (∀ (q : BitVec 4) (d : Dma), l.dmas.find? (fun d => d.q == q.toNat && !d.started) = some d → lomLive s k = true →
      l.stopping.contains q.toNat = false → (running l).length < 8 → dmaFence d = false →
      let w (i : Nat) : Nat := (d.words.getD i 0).toNat
      (descLegal w = false → exec (.dmaDescriptorStart h q) s = .next (dmaLeave s k d lomBadDesc.toNat)) ∧
      (descLegal w = true → regionInHbm s (w 2) (w 3) = false →
        exec (.dmaDescriptorStart h q) s = .next (dmaLeave s k d lomBadAddr.toNat)) ∧
      (descLegal w = true → regionInHbm s (w 2) (w 3) = true → exec (.dmaDescriptorStart h q) s =
        .next (refillAll (updLom s k fun l => { l with
          dmas := l.dmas.map fun e => if e.id = d.id then { e with started := true } else e }) k))) ∧
    (∀ (id : Nat) (d : Dma), l.dmas.find? (fun d => d.id == id && d.started && d.left == 0) = some d →
      exec (.dmaDescriptorComplete h id) s = .next (refillAll (queueOff (dmaLeave (afterWrite s k d).1 k d
        (afterWrite s k d).2) k d.q) k) ∧
      (dmaAfter d = false → afterWrite s k d = (s, d.err))) ∧
    (∀ (tag : BitVec 16) (r : HostReq), l.hreqs.find? (fun r => r.tag == tag.toNat) = some r →
      exec (.lomlyDmaTimeout h tag) s = .next (hostReqEnd s k r lomTimeout)))

/-- LEAT_READ_REQ, LEAT_WRITE, LEAT_ATOMIC and LEAT_BULK at the node they name (R304, R311, R314, R319): a packet of another
incarnation is fenced, one of another epoch is discarded and counted; then the region's VALID, KEY, source set, window,
permission and bounds are checked in that order, each with its own code, and a half that is not RUNNING refuses with
HALF_DOWN; an accepted request is served, and answered by the response of its kind, at once or when what holds it ends.
LEAT_READ_RESP, LEAT_COMPLETION, LEAT_TIMEOUT, GW_MESSAGE_COMPLETE and GW_TIMEOUT (R313, R314, R315, R317, R319): an
answer of another incarnation is fenced, one that nothing waits for is counted and discarded, and any other ends its
request with its status; without an answer in time the request ends with the timeout's code.
The model's own choices enter by log entries 76, 81, 84, 85, 86, 145, 146.
Completion (exec answers a next state under conditions on the state and the operands alone) is concluded for: LEAT_READ_REQ,
LEAT_WRITE, LEAT_ATOMIC, LEAT_READ_RESP, LEAT_COMPLETION, LEAT_BULK, LEAT_TIMEOUT, GW_MESSAGE_COMPLETE, GW_TIMEOUT. -/
def Obligations.LeatRequestsAndAnswers : Prop :=
  (∀ (h : BitVec 1) (p : Packet) (s : State), bits p.daddr.toNat 63 56 = myNode s h.toNat →
    let k := bits p.daddr.toNat 55 55
    let i := bits p.daddr.toNat 54 44
    let w (n : Nat) : Nat := regionWord s k i n
    let fresh := fenced s k p = false ∧ bits (w 1) 31 16 = p.epoch.toNat
    let inWin := w 3 ≤ hallTime s k ∧ (w 4 = 2 ^ 64 - 1 ∨ hallTime s k < w 4)
    let edge := within 40 (hallTime s k) (w 3) || (w 4 != 2 ^ 64 - 1 && within 40 (hallTime s k) (w 4))
    let listed := bit (reg s .leatSset k (8 * bits (w 0) 59 54 + srcOf p / 64)).toNat (srcOf p % 64) = true
    (∀ x ∈ [(Instr.leatReadReq h p, (0 : BitVec 4), (3 : BitVec 4)), (.leatWrite h p, 1, 4), (.leatAtomic h p, 2, 4)],
      let q : Packet := { p with ptype := x.2.1 }
      let perm := match x.2.1.toNat with
        | 0 => bit (w 0) 62
        | 1 => bit (w 0) 61
        | _ => bit (w 0) 60 && !bit (w 0) 53
      let refused (c : BitVec 8) : Prop := exec x.1 s = .next (respond s k q x.2.2 c false [])
      (fenced s k p = true → exec x.1 s = .next (fence s k q)) ∧
      (fenced s k p = false → bits (w 1) 31 16 ≠ p.epoch.toNat →
        exec x.1 s = .next (bumpF s F.LEAT_DROP_STALE_EPOCH k)) ∧
      (fresh → bit (w 0) 63 = false → refused ltNoregion) ∧
      (fresh → bit (w 0) 63 = true → bits (w 1) 63 32 ≠ p.key.toNat → refused ltKey) ∧
      (fresh → bit (w 0) 63 = true → bits (w 1) 63 32 = p.key.toNat → ¬ listed → refused ltSource) ∧
      (fresh → bit (w 0) 63 = true → bits (w 1) 63 32 = p.key.toNat → listed → ¬ inWin →
        refused (if edge then ltWindowEdge else ltWindow)) ∧
      (fresh → bit (w 0) 63 = true → bits (w 1) 63 32 = p.key.toNat → listed → inWin → perm = false → refused ltPerm) ∧
      (fresh → bit (w 0) 63 = true → bits (w 1) 63 32 = p.key.toNat → listed → inWin → perm = true →
        bits (w 2) 43 0 < firstLine q (bits p.daddr.toNat 43 0) + reach q → refused ltBounds) ∧
      (fresh → bit (w 0) 63 = true → bits (w 1) 63 32 = p.key.toNat → listed → inWin → perm = true →
        firstLine q (bits p.daddr.toNat 43 0) + reach q ≤ bits (w 2) 43 0 → halfRunning s k = false → refused stHalfDown)) ∧
    (∀ t a e, verdict s k { p with ptype := 0 } (reach p) = (t, .accept a e) →
      let r := memReadAny t k (.packet k { p with ptype := 0 }) (p.lines.toNat + 2) a (64 * p.lines.toNat)
      exec (.leatReadReq h p) s = .next (respond t k { p with ptype := 0 } 3 r.1 e
        (if r.1 = 0 then lineWords r.2 p.lines.toNat else []))) ∧
    (∀ t a e u c, verdict s k { p with ptype := 1 } (reach p) = (t, .accept a e) →
      let who : Waiter := .packet k { p with ptype := 1, edge := e }
      memWriteLines t k (writeLines p a) who = (u, c) →
      exec (.leatWrite h p) s = .next (match c with
        | some c => answerW u who c e []
        | none => u)) ∧
    (∀ t a e u c, p.lines ≠ 0 → verdict s k { p with ptype := 2 } (reach p) = (t, .accept a e) →
      atomLegal p.aop.toNat p.fc.toNat = true →
      let who : Waiter := .packet k { p with ptype := 2, edge := e }
      memAtomic t k (atomOf p a) none none who = (u, c) →
      exec (.leatAtomic h p) s = .next (match c with
        | some c => answerW u who c e [BitVec.ofNat 64 (hbmNat t a (fcWidth p.fc.toNat / 8))]
        | none => u)) ∧
    (∀ t a e, p.ret = false →
      let who : Waiter := .packet h.toNat { p with ptype := 5 }
      (p.aop = 1 → verdict s k { p with ptype := 0, first := 0, last := 0 } (reach p) = (t, .accept a e) →
        let r := memReadAny t k who (p.lines.toNat + 2) a (64 * p.lines.toNat)
        exec (.leatBulk h p) s =
          .next (answerW t who r.1 false (if r.1 = 0 then lineWords r.2 p.lines.toNat else []))) ∧
      (∀ u c, p.aop ≠ 1 → verdict s k { p with ptype := 1, first := 0, last := 63 } (reach p) = (t, .accept a e) →
        memWriteLines t k (writeLines { p with first := 0, last := 63 } a) who = (u, c) →
        exec (.leatBulk h p) s = .next (match c with
          | some c => answerW u who c false []
          | none => u))))
  ∧
  (∀ (h : BitVec 1) (p : Packet) (s : State),
    (bits p.daddr.toNat 63 56 = myNode s h.toNat →
      let k := bits p.daddr.toNat 55 55
      ∀ x ∈ [(Instr.leatReadResp h p, (3 : BitVec 4)), (.leatCompletion h p, 4)],
      let mine := (half s k).reqs.find? fun r => r.tag == p.tag.toNat && (x.2 == 3) == (r.pkt.ptype == 0)
      (fenced s k p = true → exec x.1 s = .next (fence s k { p with ptype := x.2 })) ∧
      (fenced s k p = false → mine = none → exec x.1 s = .next (bumpF s F.LEAT_DROP_LATE_RESP k)) ∧
      (∀ r, fenced s k p = false → mine = some r →
        (p.status ≠ 0 ∨ p.lines = 0 → exec x.1 s = .next (answerW (dropReq s k r) r.who p.status false
          (if bulkWaiter r.who then p.data else []))) ∧
        (p.status = 0 → p.lines ≠ 0 → exec x.1 s = .next (answerW (deliverBytes (dropReq s k r) k r.slot r.pkt.sunit.toNat
          (packetBytes p) r.dst r.who) r.who 0 false (if bulkWaiter r.who then p.data else []))))) ∧
    (∀ (tag : BitVec 16) (r : LeatReq), (half s h.toNat).reqs.find? (fun r => r.tag == tag.toNat) = some r →
      let t := updHalf (dropReq s h.toNat r) h.toNat fun x => { x with
        stray := if (heldPackets (dropReq s h.toNat r) h.toNat).any (carries r) then x.stray ++ [r] else x.stray }
      exec (.leatTimeout h tag) s =
        .next (answerW (forgetRet t (.own h.toNat r.tag r.pkt.sunit.toNat)) r.who ltTimeout false [])) ∧
    (∀ (id : Nat) (m : GwMsg), (half s h.toNat).msgs.find? (fun m => m.id == id) = some m →
      let t := dropMsg s h.toNat id
      exec (.gwTimeout h id) s = .next (answerW t m.who gwTimeoutCode false []) ∧
      exec (.gwMessageComplete h id 0) s = .next (answerW t m.who 0 false []) ∧
      ∀ c : BitVec 8, c ≠ 0 → exec (.gwMessageComplete h id c) s = .next (answerW (putF (putF (putF t
        F.GW_ERR_CODE h.toNat c.toNat m.gw) F.GW_ERR_RPOD h.toNat m.pod m.gw) F.GW_ERR_RNODE h.toNat m.node m.gw) m.who
        gwRemote false [])))

/-- LEAT_RCOMMIT, LEAT_JOB_EPOCH_WRITE, LEAT_SLOT_DRAINED, LEAT_PORT_REMOVE, LEAT_LINK_TRAINED and LEAT_SESSION_HANDSHAKE
(R299, R300, R308, R312, R320, R321, R374, R441): a region is replaced as a whole by a legal staging entry; a new epoch
clears DRAINED, and nothing left of earlier ones sets it; a port is removed, a link short enough and of full width comes up,
and a session is formed with a peer that proves itself.
The model's own choices enter by log entries 81, 87, 88, 89.
Completion (exec answers a next state under conditions on the state and the operands alone) is concluded for:
LEAT_PORT_REMOVE, LEAT_LINK_TRAINED, LEAT_SESSION_HANDSHAKE, LEAT_RCOMMIT, LEAT_JOB_EPOCH_WRITE, LEAT_SLOT_DRAINED. -/
def Obligations.LeatJobsAndLinks : Prop :=
  ∀ (b : Requester) (h : BitVec 1) (s : State), s.Canon →
    let k := h.toNat
    (∀ v : W64, gate s b true (regAddr .leatRcommit k 0) = none → bit v.toNat 63 = true →
      let i := bits v.toNat 10 0
      let w (n : Nat) : Nat := (reg s .leatStage k n).toNat
      let ok := regionLegal k w = true ∧ reuseLegal (regionWord s k i) w = true
      (¬ ok → exec (.leatRcommit b h v) s = .next (denied s b)) ∧
      (ok → ∃ t, exec (.leatRcommit b h v) s = .next t ∧ t.resp = .ok ∧ (∀ n, n < 8 → regionWord t k i n = w n) ∧
        ∀ j n, j < 2048 → j ≠ i → n < 8 → regionWord t k j n = regionWord s k j n)) ∧
    (∀ (n : BitVec 4) (v : W64), gate s b true (regAddr .leatJob k n.toNat) = none →
      ∃ t, exec (.leatJobEpochWrite b h n v) s = .next t ∧ t.resp = .ok ∧
        getF t F.LEAT_JOB_EPOCH k n.toNat = bits v.toNat 47 32 ∧ getF t F.LEAT_JOB_KEY k n.toNat = bits v.toNat 31 0 ∧
        getF t F.LEAT_JOB_DRAINED k n.toNat =
          if getF s F.LEAT_JOB_EPOCH k n.toNat = bits v.toNat 47 32 then getF s F.LEAT_JOB_DRAINED k n.toNat else 0) ∧
    (∀ n : BitVec 4, (slotBusy s k n.toNat = true → exec (.leatSlotDrained h n) s = .next s) ∧
      (slotBusy s k n.toNat = false → ∃ t, exec (.leatSlotDrained h n) s = .next t ∧
        getF t F.LEAT_JOB_DRAINED k n.toNat = 1)) ∧
    (∀ (p : BitVec 7) (lanes : BitVec 8), p.toNat < 72 → portState s k p.toNat = 2 →
      ∃ t, exec (.leatPortRemove h ⟨p, lanes⟩) s = .next t ∧ portState t k p.toNat = 3 ∧
        getF t F.LEAT_PORT_LANES k p.toNat = lanes.toNat) ∧
    (∀ (link : BitVec 6) (ns : Nat) (lanes : BitVec 8),
      let ps := (portsOf s k link.toNat).filter fun p => portState s k p == 1
      let far := if bit (reg s .leatLink k link.toNat).toNat 51 then 5000 else 100
      s.pins.refLost = false → ps ≠ [] → ∃ t, exec (.leatLinkTrained h link ns lanes) s = .next t ∧
        ∀ p ∈ ps, portState t k p = if ns ≤ far ∧ lanes = 0xFF then 2 else 0) ∧
    (∀ (link : BitVec 6) (nonce eph pub : List Byte), linkUp s k link.toNat = true → Config.onCurve pub = true →
      Config.onCurve eph = true → s.pins.debugOnly = false →
      ∃ t, exec (.leatSessionHandshake h link ⟨nonce, eph, pub⟩ true false) s = .next t ∧
        (getLink t (leatKey k link.toNat)).session ≠ 0 ∧ (∃ key, mfind link.toNat (half t k).sec.linkKeys = some key) ∧
        (half t k).sec.draws = (half s k).sec.draws + 2)

/-- POD_TIME_EXCHANGE, HALL_TIME_EXCHANGE and LEAT_TIME (R325, R326, R328, R329): a counter in the tree that is FREE and
behind its parent steps to the parent's value once; otherwise only the offset is taken, and a counter never steps back; a
master that hears another becomes its follower; a half outside the tree, or a
backup that took over, takes nothing. A TIME packet for this node is
fenced, answered where it asks, or, from the parent alone, the exchange its kind names.
PPS_EDGE, PPS_TIMEOUT, TB_HALLSET_WRITE, REF_CLK_LOST, REF_CLK_RETURN and MASTER_TAKEOVER (R328, R329, R330, R331): an
edge sets PPS_SEEN and brings a waiting TB_HALLSET value into force; 1.1 s without one clear PPS_SEEN and end LOCKED in
HOLDOVER; without REF_CLK REF_LOST reads 1 in both halves; a backup master that has heard nothing for 10 µs of pod time, or
1 ms for hall time, becomes master.
The model's own choices enter by log entries 90, 158.
Completion (exec answers a next state under conditions on the state and the operands alone) is concluded for: LEAT_TIME,
POD_TIME_EXCHANGE, HALL_TIME_EXCHANGE, PPS_EDGE, PPS_TIMEOUT, TB_HALLSET_WRITE, REF_CLK_LOST, REF_CLK_RETURN,
MASTER_TAKEOVER. -/
def Obligations.TimeExchangesAndSources : Prop :=
  (∀ (h : BitVec 1) (v : W64) (s : State), s.Canon →
    let k := h.toNat
    (canExchange s k = true → getF s F.TB_CFG_POD_ROLE k ≠ 0 → (half s k).tb.pod.took = false → ∃ t, exec (.podTimeExchange h v) s = .next t ∧
      reg t .tbPod k 0 = (if getF s F.TB_STAT_POD_STATE k = tsFree ∧ offsetOf s k podCounter v < 0 then v
        else reg s .tbPod k 0) ∧
      (offsetOf s k podCounter v ≤ -40960000 → getF s F.TB_STAT_POD_STATE k = tsAcquiring →
        getF t F.TB_STAT_POD_OFFS k = 65536 - 32767) ∧
      (getF s F.TB_CFG_POD_ROLE k = 2 → getF t F.TB_CFG_POD_ROLE k = 1) ∧
      reg t .tbHall k 0 = reg s .tbHall k 0) ∧
    (canExchange s k = true → getF s F.TB_CFG_HALL_ROLE k ≠ 0 → getF s F.TB_CFG_PPS_IN_EN k = 0 →
      (half s k).tb.hall.took = false → ∃ t, exec (.hallTimeExchange h v) s = .next t ∧
      reg t .tbHall k 0 = (if getF s F.TB_STAT_HALL_STATE k = tsFree ∧ offsetOf s k hallCounter v < 0 then v
        else reg s .tbHall k 0) ∧
      (getF s F.TB_CFG_HALL_ROLE k = 2 → getF t F.TB_CFG_HALL_ROLE k = 1) ∧
      reg t .tbPod k 0 = reg s .tbPod k 0) ∧
    (canExchange s k = false ∨ getF s F.TB_CFG_POD_ROLE k = 0 ∨ (half s k).tb.pod.took = true → exec (.podTimeExchange h v) s = .next s) ∧
    (canExchange s k = false ∨ getF s F.TB_CFG_HALL_ROLE k = 0 ∨ getF s F.TB_CFG_PPS_IN_EN k = 1 ∨
      (half s k).tb.hall.took = true →
      exec (.hallTimeExchange h v) s = .next s) ∧
    (∀ p : Packet, bits p.daddr.toNat 63 56 = myNode s k →
      let j := bits p.daddr.toNat 55 55
      let q : Packet := { p with ptype := 6 }
      let kind := (p.data.getD 1 0).toNat
      let c := if bit kind 0 then hallCounter else podCounter
      (fenced s j p = true → exec (.leatTime h p) s = .next (fence s j q)) ∧
      (fenced s j p = false → bit kind 1 = true → exec (.leatTime h p) s = .next (answerTime s j c q)) ∧
      (fenced s j p = false → bit kind 1 = false → exec (.leatTime h p) s = .next
        (if fromParent s j c p then treeExchange s j c (p.data.getD 0 0) else s))))
  ∧
  (∀ (b : Requester) (h : BitVec 1) (v : W64) (s : State), s.Canon →
    let k := h.toNat
    (domainOn s (domTime k) = true → (half s k).rst = false → ∃ t, exec (.ppsEdge h) s = .next t ∧
      getF t F.TB_STAT_PPS_SEEN k = 1 ∧
      (∀ x, getF s F.TB_CFG_PPS_IN_EN k = 1 → s.pins.refLost = false → (half s k).tb.hallset = some x →
        reg t .tbHall k 0 = x ∧ (half t k).tb.hallset = none)) ∧
    (podSince s k (half s k).tb.edge < 1100000000 → exec (.ppsTimeout h) s = .next s) ∧
    (1100000000 ≤ podSince s k (half s k).tb.edge → ∃ t, exec (.ppsTimeout h) s = .next t ∧ getF t F.TB_STAT_PPS_SEEN k = 0 ∧
      (getF s F.TB_CFG_PPS_IN_EN k = 1 → getF s F.TB_STAT_HALL_STATE k = tsLocked →
        getF t F.TB_STAT_HALL_STATE k = tsHoldover)) ∧
    (gate s b true (regAddr .tbHallset k 0) = none →
      (getF s F.TB_CFG_HALL_ROLE k ≠ 2 ∨ getF s F.TB_STAT_HALL_STATE k = tsLocked →
        exec (.tbHallsetWrite b h v) s = .next (denied s b)) ∧
      (getF s F.TB_CFG_HALL_ROLE k = 2 → getF s F.TB_STAT_HALL_STATE k ≠ tsLocked → getF s F.TB_CFG_PPS_IN_EN k = 0 →
        ∃ t, exec (.tbHallsetWrite b h v) s = .next t ∧ t.resp = .ok ∧ reg t .tbHall k 0 = v)) ∧
    (∃ t, exec .refClkLost s = .next t ∧ t.pins.refLost = true ∧ ∀ j, j < 2 → getF t F.TB_STAT_REF_LOST j = 1) ∧
    (∃ t, exec .refClkReturn s = .next t ∧ t.pins.refLost = false ∧ ∀ j, j < 2 → getF t F.TB_STAT_REF_LOST j = 0) ∧
    (getF s F.TB_CFG_POD_ROLE k = 3 → 10000 ≤ podSince s k (half s k).tb.pod.heard →
      ∃ t, exec (.masterTakeover h false) s = .next t ∧ getF t F.TB_CFG_POD_ROLE k = 2 ∧
      getF t F.TB_STAT_MASTER_TAKEN k = 1 ∧ reg t .tbPod k 0 = reg s .tbPod k 0) ∧
    (getF s F.TB_CFG_HALL_ROLE k = 3 → 1000000 ≤ podSince s k (half s k).tb.hall.heard →
      ∃ t, exec (.masterTakeover h true) s = .next t ∧ getF t F.TB_CFG_HALL_ROLE k = 2 ∧
      getF t F.TB_STAT_MASTER_TAKEN k = 1 ∧ reg t .tbHall k 0 = reg s .tbHall k 0))

/-- PPS_OUT_EN_WRITE (R332): a write that sets PPS_OUT_EN is refused with an access error, and leaves the field unchanged,
unless the resource-owner table gives MFP0 to the PPS output of this half; PPS_OUT_PULSE drives the ball only then: high in the
first 100 µs of a second of hall time, while enabled and powered.
Completion (exec answers a next state under conditions on the state and the operands alone) is concluded for: PPS_OUT_PULSE,
PPS_OUT_EN_WRITE. -/
def Obligations.PpsOutputNeedsItsBall : Prop :=
  ∀ (b : Requester) (h : BitVec 1) (v : W64) (s : State), s.Canon →
    let k := h.toNat
    let owned := ownerOf s 1 0 = k + 1
    (gate s b true (regAddr .tbCfg k 0) = none → bit v.toNat 44 = true →
      (¬ owned → exec (.ppsOutEnWrite b h v) s = .next { s with resp := match b with
        | .host _ => .code lomAccess
        | _ => .accessError }) ∧
      (owned → ∃ t, exec (.ppsOutEnWrite b h v) s = .next t ∧ t.resp = .ok ∧ getF t F.TB_CFG_PPS_OUT_EN k = 1)) ∧
    (owned → exec (.ppsOutPulse h) s = .next { s with pins := { s.pins with
      mfp0 := domainOn s (domTime k) && getF s F.TB_CFG_PPS_OUT_EN k == 1 && decide (hallTime s k % 1000000000 < 100000) } }) ∧
    (¬ owned → exec (.ppsOutPulse h) s = .next s)

/-- COLL_DOORBELL, COLL_CQ_RELEASE and COLL_ABORT (R215, R335, R336, R341): a doorbell write whose indices are legal is
taken, and records that waited for room move on; one that is not changes neither index; an abort raises a notice for the
running collective of its group.
ALL_REDUCE, REDUCE_SCATTER, ALL_GATHER, BROADCAST, ALL_TO_ALL, BARRIER and START_BARRIER (R335, R336, R338, R345): the
descriptor at the head of the ring is launched under the group's next sequence number when it names the operation and the
group, an engine is free and the group is idle; a collective that lacks nothing writes its result at DST and completes; one
that lacks a member no route leads to reports that member lost.
The model's own choices enter by log entries 93, 94, 98.
Completion (exec answers a next state under conditions on the state and the operands alone) is concluded for: COLL_DOORBELL,
COLL_CQ_RELEASE, COLL_ABORT, ALL_REDUCE, REDUCE_SCATTER, ALL_GATHER, BROADCAST, ALL_TO_ALL, BARRIER, START_BARRIER. -/
def Obligations.CollectivesStart : Prop :=
  (∀ (b : Requester) (h : BitVec 1) (v : W64) (g : BitVec 6) (s : State), s.Canon →
    let k := h.toNat
    let legal (v : W64) := doorbellLegal (getF s F.COLL_SQ_SQ_LOG2 k) (getF s F.COLL_CQ_CQ_LOG2 k) (getF s F.COLL_DB_SQ_TAIL k)
      (half s k).collHead (half s k).collTail (getF s F.COLL_DB_CQ_HEAD k) (bits v.toNat 15 0) (bits v.toNat 31 16)
    let moved (v : W64) := collFlush (putF (putF s F.COLL_DB_SQ_TAIL k (bits v.toNat 15 0)) F.COLL_DB_CQ_HEAD k
      (bits v.toNat 31 16)) k
    gate s b true (regAddr .collDb k 0) = none →
    (∀ i ∈ [Instr.collDoorbell b h v, .collCqRelease b h v],
      (legal v = false → exec i s = .next (denied s b)) ∧
      (legal v = true → bit v.toNat 63 = false → exec i s = .next (done (moved v)))) ∧
    (let a : W64 := BitVec.ofNat 64 (2 ^ 63 + g.toNat * 2 ^ 56 + getF s F.COLL_DB_CQ_HEAD k * 65536 + getF s F.COLL_DB_SQ_TAIL k);
     ∀ r, legal a = true → runOf (moved a) k g.toNat = some r → r.done = none →
      exec (.collAbort b h g) s = .next (done (raiseNotice deliver4 (moved a) k g.toNat r.seq csAbort (collRank (moved a) k g.toNat)))))
  ∧
  (∀ (h : BitVec 1) (g : BitVec 6) (s : State),
    let k := h.toNat
    let j := g.toNat
    let ws := collHeadWords s k
    let seq := collSeq s k j
    let ready (op : Nat) : Prop := halfRunning s k = true ∧ collPosted s k ≠ 0 ∧ cdGroup ws = j ∧ cdOp ws = op ∧
      runOf s k j = none ∧ ((getRuns s k).filter launched).length < collEngines s k
    let taken := updHalf (putF (updRun (ensureRun s k j seq) k j seq fun r => { r with words := ws, launch := hallTime (ensureRun s k j seq) k })
      F.COLL_GROUP_W1_SEQ k (seq + 1) j) k fun x => { x with collHead := (x.collHead + 1) % 65536 }
    let start := collStart taken k j seq ws
    (∀ x ∈ [(Instr.allReduce h g, opAllReduce), (.reduceScatter h g, opReduceScatter), (.allGather h g, opAllGather),
      (.broadcast h g, opBroadcast), (.allToAll h g, opAllToAll), (.barrier h g, opBarrier)],
      (ready x.2 → exec x.1 s = .next (if (runOf start k j).any fun r => cdOp r.words == x.2 then collComplete start k j
        else start)) ∧
      (∀ r t, runOf s k j = some r → cdOp r.words = x.2 → r.notices = [] → r.done = none → lacking s k r = [] →
        writeRegion s k ((collResult s k r).length / 64 + 2) (cdDst r.words) (collResult s k r) = (t, 0) →
        exec x.1 s = .next (collFinish t k r 0 (hallTime t k))) ∧
      (∀ r m, runOf s k j = some r → cdOp r.words = x.2 → r.notices = [] → r.done = none →
        (lacking s k r).find? (fun m => !memberReach s k j m) = some m →
        exec x.1 s = .next (raiseNotice deliver4 s k j r.seq csMemberLost m))) ∧
    (ready opStartBarrier → exec (.startBarrier h g) s = .next start))

/-- START_BARRIER_ARRIVAL, COLL_TIMEOUT and COLL_SETTLE (R341, R342, R344, R345): a member arrives once its slot reads
DRAINED and tells the others, and another rank's arrival is taken as its packet would be; a member that waits TMO names the
lowest rank it lacks; a run with notices completes 2 ms after the earliest with the one R342 selects, and leaves DST
undefined (R343). LEAT_COLL (R336): a packet of another incarnation is fenced, one of an earlier epoch is discarded, one of
another key or at a half that is not RUNNING refused, one of an earlier sequence number discarded, one for the running
sequence number taken by its run; a refusal that comes back is not answered.
The model's own choices enter by log entries 85, 93, 96, 98.
Completion (exec answers a next state under conditions on the state and the operands alone) is concluded for: LEAT_COLL,
START_BARRIER_ARRIVAL, COLL_TIMEOUT, COLL_SETTLE. -/
def Obligations.CollectivesSettle : Prop :=
  (∀ (h : BitVec 1) (g : BitVec 6) (s : State) (r : CollRun),
    let k := h.toNat
    let j := g.toNat
    runOf s k j = some r → r.done = none →
    (∀ rank : BitVec 15, cdOp r.words = opStartBarrier → r.notices = [] →
      (rank.toNat = collRank s k j → getF s F.LEAT_JOB_DRAINED k (collSlot s k j) = 0 →
        exec (.startBarrierArrival h g rank) s = .next s) ∧
      (rank.toNat = collRank s k j → getF s F.LEAT_JOB_DRAINED k (collSlot s k j) = 1 → r.arrived.contains rank.toNat = false →
        exec (.startBarrierArrival h g rank) s = .next (arriveRank deliver4 ((otherRanks s k j).foldl (fun s m =>
          collSendRank deliver4 s k j r.seq 2 m []) s) k j r.seq rank.toNat)) ∧
      (rank.toNat ≠ collRank s k j → rank.toNat < collP s k j →
        exec (.startBarrierArrival h g rank) s = .next (arriveRank deliver4 s k j r.seq rank.toNat))) ∧
    (hallTime s k < r.launch + collTmo s k r → exec (.collTimeout h g) s = .next s) ∧
    (∀ m ms, lacking s k r = m :: ms → r.notices = [] → r.launch + collTmo s k r ≤ hallTime s k →
      exec (.collTimeout h g) s = .next (raiseNotice deliver4 (updRun s k j r.seq
        fun x => { x with edge := within 40 (hallTime s k) (r.launch + collTmo s k r) }) k j r.seq csTimeout m)) ∧
    (∀ n, pickNotice r.notices = some n → let first := r.notices.foldl (fun t n => min t n.stamp) n.stamp
      exec (.collSettle h g) s = .next (if hallTime s k < first + 2000000 then s
        else collFinish (loseDst s k r) k r n.status (first + 2000000)))) ∧
  (∀ (h : BitVec 1) (p : Packet) (s : State), bits p.daddr.toNat 11 0 = getF s F.LEAT_CFG_POD h.toNat →
    bits p.daddr.toNat 63 56 = myNode s h.toNat →
    let q : Packet := { p with ptype := 7 }
    let d := bits p.daddr.toNat 55 55
    let g := cpGroup p
    let slot := collSlot s d g
    (fenced s d p = true → exec (.leatColl h p) s = .next (fence s d q)) ∧
    (fenced s d p = false → cpKind p = 4 → exec (.leatColl h p) s = .next (collRefused deliver4 s d q)) ∧
    (fenced s d p = false → cpKind p ≠ 4 → getF s F.LEAT_JOB_EPOCH d slot ≠ p.epoch.toNat →
      exec (.leatColl h p) s = .next (bumpF s F.LEAT_DROP_STALE_EPOCH d)) ∧
    (fenced s d p = false → cpKind p ≠ 4 → getF s F.LEAT_JOB_EPOCH d slot = p.epoch.toNat →
      getF s F.LEAT_JOB_KEY d slot ≠ p.key.toNat → exec (.leatColl h p) s = .next (collRefuse deliver4 s d q ltKey)) ∧
    (fenced s d p = false → cpKind p ≠ 4 → getF s F.LEAT_JOB_EPOCH d slot = p.epoch.toNat →
      getF s F.LEAT_JOB_KEY d slot = p.key.toNat → halfRunning s d = false →
      exec (.leatColl h p) s = .next (collRefuse deliver4 s d q stHalfDown)) ∧
    (∀ r, fenced s d p = false → cpKind p ≠ 4 → getF s F.LEAT_JOB_EPOCH d slot = p.epoch.toNat →
      getF s F.LEAT_JOB_KEY d slot = p.key.toNat → halfRunning s d = true → runOf s d g = some r →
      (32768 ≤ (p.tag.toNat + 65536 - r.seq) % 65536 →
        exec (.leatColl h p) s = .next (bumpF s F.LEAT_DROP_LATE_RESP d)) ∧
      (r.seq = p.tag.toNat → exec (.leatColl h p) s = .next (collTake deliver4 s d g r.seq q))))

/-- CKP_ENABLE, CKP_TIMER_TRIGGER, CKP_NOW, CKP_TARGET_WRITE, CKP_ABORT, CKP_RELEASE and CKP_BRAKE_TIMEOUT (R350, R351, R353,
R355, R357, R359): an illegal setting is refused with CKP_CONFIG; a trigger begins a checkpoint at an idle unit and is
counted as skipped at another; the target makes the held contexts brake or go on; a release resumes them and the copy
begins; an abort, or TMO_MS from the trigger, ends the checkpoint with its code.
BRAKE, CKP_ARRIVED, CKP_PAGE_COPY and CKP_SEAL (R352, R355, R357, R359, R362, R363): a drained braking context stops where
it stands with its full save set; once every job context has braked, a lent gang joining with the engine that holds it, and
no epoch is open the cut is taken, the trackers arm and the event CKP_ARRIVED tells the host and node software; pages are copied one by one, each counted in CKP_PROG, and the signed manifest ends the checkpoint with RESULT OK.
The model's own choices enter by log entries 6, 58, 60, 66, 92, 99, 100, 101, 103, 104, 141.
Completion (exec answers a next state under conditions on the state and the operands alone) is concluded for: CKP_ENABLE,
CKP_NOW, CKP_ABORT, CKP_RELEASE, CKP_TIMER_TRIGGER, CKP_TARGET_WRITE, BRAKE, CKP_ARRIVED, CKP_BRAKE_TIMEOUT, CKP_PAGE_COPY,
CKP_SEAL. -/
def Obligations.CheckpointsTakeACut : Prop :=
  (∀ (b : Requester) (h : BitVec 1) (v : W64) (s : State), s.Canon →
    let k := h.toNat
    (gate s b true (regAddr .ckpCfg k 0) = none → inRange .ckpCfg (setBits v 63 63 1) = true → ckState s k = ckIdle →
      (ckpConfigBad s k (bits v.toNat 59 56) = true →
        exec (.ckpEnable b h v) s = .next (denied (putF s F.CKP_STAT_RESULT k ckConfig) b)) ∧
      (ckpConfigBad s k (bits v.toNat 59 56) = false → ∃ t, exec (.ckpEnable b h v) s = .next t ∧ t.resp = .ok ∧
        getF t F.CKP_CFG_EN k = 1 ∧ getF t F.CKP_CFG_SLOT k = bits v.toNat 59 56 ∧ getF t F.CKP_STAT_SEQ k = 0)) ∧
    (getF s F.CKP_CFG_EN k = 1 → halfRunning s k = true →
      let p := (reg s .ckpPeriod k 0).toNat
      let at' := (reg s .ckpPhase k 0).toNat + (half s k).ckp.ticks * p
      (getF s F.CKP_CFG_TRIG k = 1 → p ≠ 0 → at' ≤ (podTime s k).toNat →
        exec (.ckpTimerTrigger h) s = .next (ckpTrigger (updCkp s k fun c => { c with ticks := c.ticks + 1 }) k at')) ∧
      (gate s b true (regAddr .ckpCtl k 0) = none →
        exec (.ckpNow b h) s = .next (done (ckpTrigger s k (podTime s k).toNat)))) ∧
    (∀ t, ckState s k ≠ ckIdle → ckpTrigger s k t = bumpF s F.CKP_STAT_SKIPPED k) ∧
    (∀ t, ckState s k = ckIdle → ckState (ckpTrigger s k t) k = ckHolding ∧
      getF (ckpTrigger s k t) F.CKP_STAT_SEQ k = (getF s F.CKP_STAT_SEQ k + 1) % 2 ^ 32) ∧
    (gate s b true (regAddr .ckpTarget k 0) = none →
      (ckState s k ≠ ckHolding → exec (.ckpTargetWrite b h v) s = .next (denied s b)) ∧
      (ckState s k = ckHolding → exec (.ckpTargetWrite b h v) s = .next (done (updCkp ((half s k).ckp.held.foldl (fun s c =>
        if reg s .rowMark c.1 0 = v then startBrake s c.1 else resumeHeld s c.1)
          (putF (setReg s .ckpTarget k 0 v) F.CKP_STAT_STATE k ckBraking)) k fun c => { c with held := [] })))) ∧
    (gate s b true (regAddr .ckpCtl k 0) = none →
      (ckState s k = ckArrived → exec (.ckpAbort b h) s = .next (done (ckpEnd s k ckAborted)) ∧
        exec (.ckpRelease b h) s = .next (done (markEngines (setReg (putF (updCkp (resumeAll s k) k fun c =>
          { c with tcut := reg s .tbHall k 0 }) F.CKP_STAT_STATE k ckCopying) .ckpProg k 0 0) k 1))) ∧
      (braking s k = true → jobHalted s k = false → exec (.ckpAbort b h) s = .next (done (ckpEnd s k ckAborted)))) ∧
    (braking s k = true → let due := (half s k).ckp.since + 1000000 * getF s F.CKP_CFG_TMO_MS k
      (due ≤ (podTime s k).toNat → exec (.ckpBrakeTimeout h) s =
        .next (ckpEnd s k (if jobHalted s k then ckHaltCode else ckTimeoutCode))) ∧
      ((podTime s k).toNat < due → exec (.ckpBrakeTimeout h) s = .next s)))
  ∧
  ((∀ (l : BitVec 6) (s : State),
    let r := l.toNat
    let k := curCtx s r
    rowLeader s r = r → gangState s r = gsRunning → (seqCtl s r).draining = some .brake → drained (seqCtl s r) = true →
      let t := setGangState (thaw (updSeq s r fun c => { c with draining := none }) r) r gsBraked
      exec (.brake l) s = .next (updCkp (smearArea t r k) (rowHalf r) fun c =>
        { c with braked := c.braked ++ [(r, k)], cuts := mput (4 * r + k) (savedOf t r true) c.cuts })) ∧
  (∀ (h : BitVec 1) (s : State),
    let k := h.toNat
    (ckState s k = ckBraking → jobHalted s k = false →
      (∀ c ∈ jobContexts s k, (half s k).ckp.braked.contains c = true ∨ lent s c.1 = true) → engineJoined s k = true →
      (epochOpen s k = true → exec (.ckpArrived h) s = .next (ckpEnd s k ckEpochOpen)) ∧
      (epochOpen s k = false → ∃ t, exec (.ckpArrived h) s = .next t ∧ (half t k).ckp.armed = true ∧
        (half t k).ckp.spans = ckpSpans s k ∧ (half t k).ckp.copied = [] ∧ (s.Canon → ckState t k = ckArrived))) ∧
    (∀ p, ckState s k = ckCopying → nextPage (half s k).ckp = some p →
      (∀ t, copyPage s k p = (t, 0) → exec (.ckpPageCopy h true) s = .next (pageDone t k p (pageBytes s k p))) ∧
      (∀ t c ok, copyPage s k p = (t, c) → ok = false ∨ c ≠ 0 → exec (.ckpPageCopy h ok) s = .next (ckpEnd t k ckCopyFail))) ∧
    (∀ t, ckState s k = ckCopying → nextPage (half s k).ckp = none →
      let u := putF s F.CKP_STAT_STATE k ckSealing
      let body := manifestHeader u k (manifestRecords u k).length ++ (manifestRecords u k).flatten
      let sig := signBlock u k body
      writeFab sig.2 k 24 (destAddr sig.2 k (65536 * (ckpPages (half sig.2 k).ckp).length)) (body ++ sig.1) = (t, 0) →
      let x := updCkp (disarm (markEngines (sealCuts t k) k 0) k) k fun c => { c with braked := [], engPaused := false }
      exec (.ckpSeal h) s = .next (ckpEvent (putF (putF x F.CKP_STAT_STATE k ckIdle) F.CKP_STAT_RESULT k 0) k evDone
        (reg (putF (putF x F.CKP_STAT_STATE k ckIdle) F.CKP_STAT_RESULT k 0) .ckpTarget k 0)))))

/-- RESTORE_VERIFY, RESTORE_VERIFY_DONE, RESTORE_COMMIT, RESTORE_COMMIT_DONE and RESTORE_CANCEL (R364, R365, R366): a manifest
whose signature and shards all pass is VERIFIED, one that does not is REFUSED with the first failing shard's code, one that did
not arrive whole with RST_FETCH; a commit goes on only when the step and the job agree, the gangs are there as recorded and the
part is the one it names; it is RESTORED once every shard fetched again has its digest, and REFUSED with every written region
undefined otherwise.
The model's own choices enter by log entries 6, 102, 103.
Completion (exec answers a next state under conditions on the state and the operands alone) is concluded for:
RESTORE_VERIFY, RESTORE_VERIFY_DONE, RESTORE_COMMIT, RESTORE_COMMIT_DONE, RESTORE_CANCEL. -/
def Obligations.RestoresVerifyThenCommit : Prop :=
  ∀ (b : Requester) (h : BitVec 1) (s : State), s.Canon →
    let k := h.toNat
    let idle := rsState s k ≠ rsVerifying ∧ rsState s k ≠ rsCommitting
    let c := (half s k).ckp
    (gate s b true (regAddr .ckpRctl k 0) = none →
      (idle → ∃ t, exec (.restoreVerify b h) s = .next t ∧ t.resp = .ok ∧ rsState t k = rsVerifying) ∧
      (¬ idle → exec (.restoreVerify b h) s = .next (denied s b)) ∧
      (rsState s k ≠ rsVerified → idle → exec (.restoreCommit b h) s = .next (done (setRestore s k rsRefused rstNotVerified 0))) ∧
      (c.verified = true → rsState s k = rsVerified →
        let agree := (reg s .ckpRstep k 0).toNat = headWord c.header 2 ∧ (reg s .ckpRjob k 0).toNat = headWord c.header 1
        (¬ agree → exec (.restoreCommit b h) s = .next (done (setRestore s k rsRefused rstAgreement 0))) ∧
        (agree → c.shards.all (layoutOk s k) = false →
          exec (.restoreCommit b h) s = .next (done (setRestore s k rsRefused rstLayout 0))) ∧
        (agree → c.shards.all (layoutOk s k) = true → (reg s .devId 0 0).toNat ≠ headWord c.header 6 →
          exec (.restoreCommit b h) s = .next (done (setRestore s k rsRefused rstStepping 0))) ∧
        (agree → c.shards.all (layoutOk s k) = true → (reg s .devId 0 0).toNat = headWord c.header 6 →
          exec (.restoreCommit b h) s = .next (done (setRestore s k rsCommitting 0 0)))) ∧
      (∃ t, exec (.restoreCancel b h) s = .next t ∧ t.resp = .ok ∧ rsState t k = rsIdle ∧ (half t k).ckp.verified = false)) ∧
    (∀ (hd : List Byte) (shards : List Shard) (sig : List Byte), rsState s k = rsVerifying → hd.length < 256 →
      exec (.restoreVerifyDone h hd shards sig) s = .next (setRestore s k rsRefused rstFetch 0)) ∧
    (∀ (hd : List Byte) (shards : List Shard) (sig : List Byte), rsState s k = rsVerifying → 256 ≤ hd.length →
      let head := fixLen 256 hd
      let code := shardCode head (manifestSigned head shards sig)
      ∃ t, exec (.restoreVerifyDone h hd shards sig) s = .next t ∧
        (manifestSigned head shards sig = true → (∀ x ∈ shards, code x = 0) →
          rsState t k = rsVerified ∧ (half t k).ckp.verified = true) ∧
        (∀ i, shards.findIdx? (fun x => code x != 0) = some i → rsState t k = rsRefused ∧
          (half t k).ckp.verified = false ∧ getF t F.CKP_RSTAT_FIRST_BAD k = i % 2 ^ 32)) ∧
    (∀ shards : List Shard, rsState s k = rsCommitting → c.shards.length = shards.length →
      let got := c.shards.zipWith (fun x y => { x with bytes := y.bytes, fetchErr := y.fetchErr }) shards
      (got.all (fun x => !x.fetchErr && digestOk x) = true → exec (.restoreCommitDone h shards) s =
        .next (updCkp (setRestore ((got.filter fun x => recKind x == 1).foldl (fun s x => loadArea s k x)
          (got.foldl (fun s x => (writeRegion s k (x.bytes.length / 64 + 2) (recWord x 3) x.bytes).1) s)) k rsRestored 0 0) k
            fun c => { c with verified := false })) ∧
      (∀ i x, got.findIdx? (fun x => x.fetchErr || !digestOk x) = some i → got[i]? = some x →
        exec (.restoreCommitDone h shards) s = .next (setRestore
          (got.foldl (fun s y => smear s (recWord y 3) (recWord y 4)) s) k rsRefused
            (if x.fetchErr then rstFetch else rstDigest) i)))

/-- TRUST_DIE_BOOT, IMG, IMAGE_LAUNCH, IMAGE_CLEAR and DRBG_RESEED (R430, R433-R435, R443, R448): the boot of a trust die
extends MR0 with the digest of its ROM, identity and debug state and awaits an image, with a nonce that is not 0; a failed
self-test stops it with CODE 7; lines arrive in the staged image; a launch runs an image that passes the checks of R435 and
else fails with the code of the first that it does not pass; commands are refused before the image is awaited and once it runs.
The model's own choices enter by log entries 113, 114.
Completion (exec answers a next state under conditions on the state and the operands alone) is concluded for: IMG,
TRUST_DIE_BOOT, IMAGE_LAUNCH, IMAGE_CLEAR, DRBG_RESEED. -/
def Obligations.TrustDiesBootAndLaunch : Prop :=
  ∀ (h : BitVec 1) (s : State), s.Canon →
    let k := h.toNat
    let fresh := halfState s k = hsBoot ∧ secStage s k = 0 ∧ getF s F.SEC_BSTAT_CODE k = 0 ∧ domainOn s (domTrust k) = true
    (fresh → ∀ ok, ∃ t, exec (.trustDieBoot h false ok) s = .next t ∧ secStage t k = 0 ∧ getF t F.SEC_BSTAT_CODE k = 7) ∧
    (fresh → s.pins.debugOnly = false → ∃ t, exec (.trustDieBoot h true true) s = .next t ∧ secStage t k = sgAwait ∧
      getF t F.SEC_BSTAT_CODE k = 0 ∧ (getSec t k).idKey = true ∧ (getSec t k).hbmKey.isSome = true ∧
      reg t .fstNonce k 0 ≠ 0) ∧
    (fresh → s.pins.debugOnly = true → ∀ ok, ∃ t, exec (.trustDieBoot h true ok) s = .next t ∧ secStage t k = sgAwait ∧
      getF t F.SEC_BSTAT_DEBUG k = 1 ∧ (getSec t k).idKey = (getSec s k).idKey) ∧
    (∀ (off : W64) (lines : List W64), lomLive s k = true → halfState s k = hsBoot →
      secStage s k = sgAwait ∨ secStage s k = sgFailed →
      ∃ t, exec (.img h h off lines) s = .next t ∧ secStage t k = sgAwait ∧ getSec t k = { getSec s k with
        image := (((List.range (lines.length / 8)).filter fun j => decide (off.toNat + 64 * j + 64 ≤ 2 ^ 25)).flatMap fun j =>
          (wordBytes ((lines.drop (8 * j)).take 8)).zipIdx (off.toNat + 64 * j)).foldl
            (fun m e => mset zByte e.2 e.1 m) (getSec s k).image }) ∧
    (∀ b : Requester, gate s b true (regAddr .secBctl k 0) = none →
      let awaiting := secStage s k = sgAwait ∨ secStage s k = sgFailed
      (¬ awaiting → exec (.imageLaunch b h) s = .next (denied s b) ∧ exec (.imageClear b h) s = .next (denied s b)) ∧
      (awaiting → (∃ t, exec (.imageClear b h) s = .next t ∧ t.resp = .ok ∧ (getSec t k).image = [] ∧
          secStage t k = sgAwait ∧ getF t F.SEC_BSTAT_BYTES k = 0) ∧
        (imageCheck s k ≠ 0 → ∃ t, exec (.imageLaunch b h) s = .next t ∧ t.resp = .ok ∧ secStage t k = sgFailed ∧
          getF t F.SEC_BSTAT_CODE k = imageCheck s k) ∧
        (imageCheck s k = 0 → exec (.imageLaunch b h) s = .next (done (launchImage s k))))) ∧
    ((getSec s k).requests < 2 ^ 20 → exec (.drbgReseed h) s = .next s) ∧
    (2 ^ 20 ≤ (getSec s k).requests → ∃ t, exec (.drbgReseed h) s = .next t ∧ getSec t k = { getSec s k with requests := 0 })

/-- QUOTE, EXTEND and QUOTE_COMPLETE (R437-R439, R448): a quote is refused while one is BUSY; it covers the state and nonce at
its write, and stands signed in SEC_QUOTE when it completes; an EXTEND hashes its value into MR3, after the quote where one is
BUSY.
An extension (R437): MR i becomes the SHA-512 digest of its old value and the new one, and its count rises.
The model's own choices enter by log entry 115.
Completion (exec answers a next state under conditions on the state and the operands alone) is concluded for: QUOTE,
QUOTE_COMPLETE, EXTEND. -/
def Obligations.QuotesCoverMeasurements : Prop :=
  (∀ (b : Requester) (h : BitVec 1) (s : State), s.Canon → gate s b true (regAddr .secQctl h.toNat 0) = none →
    let k := h.toNat
    let busy := getF s F.SEC_QCTL_BUSY k
    (busy = 1 → exec (.quote b h) s = .next (denied s b)) ∧
    (busy ≠ 1 → ∃ t, exec (.quote b h) s = .next t ∧ t.resp = .ok ∧ getF t F.SEC_QCTL_BUSY k = 1 ∧
      (committing s k = true → getSec t k = getSec s k) ∧
      (committing s k = false → getSec t k = { getSec s k with quote := some (quoteBody s k (regBytes s .secQnonce k 0 8)) })) ∧
    (busy ≠ 1 → exec (.extend b h) s = .next (done (extendMr s k 3 (regBytes s .secMext k 0 8)))) ∧
    (busy = 1 → ∃ t, exec (.extend b h) s = .next t ∧ t.resp = .ok ∧ t.mg = s.mg ∧
      getSec t k = { getSec s k with extendWait := (getSec s k).extendWait ++ [regBytes s .secMext k 0 8] }) ∧
    (∀ body, (getSec s k).quote = some body →
      let q := signQuote s k body
      let t := putF (putF (setWords q.2 .secQuote k 0 (wordsOf q.1)) F.SEC_QCTL_BUSY k 0) F.SEC_QCTL_DONE k 1
      exec (.quoteComplete h) s = .next ((getSec t k).extendWait.foldl (fun s v => extendMr s k 3 v)
        (updSec t k fun x => { x with quote := none, extendWait := [] }))) ∧
    ((getSec s k).quote = none → exec (.quoteComplete h) s = .next s))
  ∧
  (∀ (s : State) (h : BitVec 1) (i : Fin 4) (v : List Byte), s.Canon →
    let k := h.toNat
    let t := extendMr s k i v
    regBytes t .secMr k (8 * i) 8 = digestBytes (Config.sha512 (regBytes s .secMr k (8 * i) 8 ++ v)) ∧
    (∀ j : Fin 4, j ≠ i → regBytes t .secMr k (8 * j) 8 = regBytes s .secMr k (8 * j) 8) ∧
    (getSec t k).counts = (getSec s k).counts.set i (((getSec s k).counts.getD i 0 + 1) % 65536))

/-- DEBUG_CHALLENGE, DEBUG_SUBMIT, DEBUG_CHALLENGE_EXPIRY and DEBUG_LOCKOUT_EXPIRY (R445, R446, R448): both commands are refused
where debug may not be unlocked, and a challenge during the lockout; a response that answers the challenge unlocks the part,
another counts as failed and uses the challenge up, the third starting the lockout; a challenge expires.
Completion (exec answers a next state under conditions on the state and the operands alone) is concluded for:
DEBUG_CHALLENGE, DEBUG_SUBMIT, DEBUG_CHALLENGE_EXPIRY, DEBUG_LOCKOUT_EXPIRY. -/
def Obligations.DebugUnlocksByChallenge : Prop :=
  ∀ (b : Requester) (h : BitVec 1) (s : State), s.Canon →
    let k := h.toNat
    (gate s b true (regAddr .secDbgctl k 0) = none →
      (((half s k).cfg.dbgUnlock = false ∨ (getSec s k).lockout = true) → exec (.debugChallenge b h) s = .next (denied s b)) ∧
      ((half s k).cfg.dbgUnlock = false → exec (.debugSubmit b h) s = .next (denied s b)) ∧
      ((half s k).cfg.dbgUnlock = true → (getSec s k).lockout = false → ∃ t, exec (.debugChallenge b h) s = .next t ∧
        t.resp = .ok ∧ (getSec t k).challenge = true ∧ (s.pins.debugOnly = false → getF t F.SEC_DBGSTAT_DSTATE k = 1)) ∧
      ((half s k).cfg.dbgUnlock = true → (getSec s k).challenge = true → responseOk s k = true →
        exec (.debugSubmit b h) s = .next (done (unlockPart s))) ∧
      ((half s k).cfg.dbgUnlock = true → ((getSec s k).challenge = false ∨ responseOk s k = false) →
        ∃ t, exec (.debugSubmit b h) s = .next t ∧ t.resp = .ok ∧ (getSec t k).challenge = false ∧
          getF t F.SEC_DBGSTAT_FAILS k = min 255 (getF s F.SEC_DBGSTAT_FAILS k + 1) ∧
          (2 ≤ (getSec s k).fails → (getSec t k).lockout = true ∧ (getSec t k).fails = 0) ∧
          ((getSec s k).fails < 2 → (getSec t k).lockout = (getSec s k).lockout ∧ (getSec t k).fails = (getSec s k).fails + 1))) ∧
    (∃ t, exec (.debugChallengeExpiry h) s = .next t ∧ (getSec t k).challenge = false) ∧
    (∃ t, exec (.debugLockoutExpiry h) s = .next t ∧ t.mg = s.mg ∧ getSec t k = { getSec s k with lockout := false })

/-- HELLO, PROOF, FINISH, HELLO_LOCKOUT_EXPIRY, REKEY and REKEY_START (R374, R376-R378, R391, R393): a HELLO is served on the
active port outside the lockout, ends the session that stands, and is answered with the part's message, or ends in an abort where its key is not on the curve; one that the other half's link forwards is answered and makes no
session; a demanded
proof must be the policy's key and verify; FINISH makes the session stand with its keys; a third failure within a second
starts the lockout; a rekey keeps the old keys until the new session's FINISH.
The model's own choices enter by log entries 9, 106, 112.
Completion (exec answers a next state under conditions on the state and the operands alone) is concluded for: HELLO, PROOF,
FINISH, HELLO_LOCKOUT_EXPIRY, REKEY, REKEY_START. -/
def Obligations.HandshakesMakeSessions : Prop :=
  ∀ (h : BitVec 1) (s : State), s.Canon →
    let k := h.toNat
    (∀ (port : BitVec 1) (nonce pub : List Byte) (p : BitVec 2),
      (forwarded s k = false ∨ (getLom s k).lockout = true →
        handshakes s k = false ∨ port.toNat ≠ lomActive s k ∨ (getLom s k).lockout = true →
        exec (.hello h port nonce pub p) s = .next (answer s .none)) ∧
      (forwarded s k = true → (getLom s k).lockout = false → Config.onCurve pub = true → getF s F.SEC_BSTAT_CODE k ≠ 1 →
        ∃ t m, exec (.hello h port nonce pub p) s = .next t ∧ t.resp = .bytes m ∧ getF t F.LOM_STAT_SSTATE k = 0 ∧
          (getLom t k).hs = none ∧ (getLom t k).keys = (getLom s k).keys) ∧
      (handshakes s k = true → port.toNat = lomActive s k → (getLom s k).lockout = false →
        let u := if 2 ≤ getF s F.LOM_STAT_SSTATE k then endSession (loseTraffic s k) k else s
        (Config.onCurve pub = false → exec (.hello h port nonce pub p) s = .next (abortHandshake (fresh u).2 k)) ∧
        (Config.onCurve pub = true → getF u F.SEC_BSTAT_CODE k ≠ 1 → u.Canon →
          ∃ t m, exec (.hello h port nonce pub p) s = .next t ∧ t.resp = .bytes m ∧ getF t F.LOM_STAT_SSTATE k = 1 ∧
            ∃ x, (getLom t k).hs = some x ∧ x.step = 1 ∧ x.rekey = false ∧ x.text = nonce ++ pub ++ [p.setWidth 8] ++ m))) ∧
    (∀ (pub sig : List Byte) (x : Handshake), (getLom s k).hs = some x → x.step = 1 → getF s F.LOM_CFG_HOSTAUTH k ≠ 0 →
      let good := sha pub = hostKeyBytes s k ∧ Config.onCurve pub = true ∧
        Config.ecdsaVerify pub (Config.sha512 x.text) sig = true
      (good → ∃ t, exec (.proof h pub sig) s = .next t ∧ t.resp = .ok ∧
        (getLom t k).hs = some { x with step := 2, text := x.text ++ pub ++ sig }) ∧
      (¬ good → exec (.proof h pub sig) s = .next (abortHandshake s k))) ∧
    (∀ x : Handshake, (getLom s k).hs = some x →
      (x.step = 1 → getF s F.LOM_CFG_HOSTAUTH k = 1 → exec (.finish h true) s = .next (abortHandshake s k)) ∧
      exec (.finish h false) s = .next (abortHandshake s k) ∧
      (x.step ≠ 1 ∨ getF s F.LOM_CFG_HOSTAUTH k ≠ 1 → ∃ t, exec (.finish h true) s = .next t ∧ t.resp = .bytes (sha x.text) ∧
        (getLom t k).hs = none ∧ (getLom t k).keys = some (x.h2p, x.p2h) ∧
        (x.rekey = true → (getLom t k).oldKeys = (getLom s k).keys) ∧
        (x.rekey = false → getF t F.LOM_STAT_SSTATE k = 2 ∧ getF t F.LOM_STAT_SESSION k = x.session % 2 ^ 32 ∧
          (getLom t k).oldKeys = none))) ∧
    (let near := (getLom s k).failAt.filter fun t => decide (hallTime s k < t + 10 ^ 9);
      (2 ≤ near.length → (getLom (abortHandshake s k) k).lockout = true) ∧
      (near.length < 2 → (getLom (abortHandshake s k) k).lockout = (getLom s k).lockout)) ∧
    (∃ t, exec (.helloLockoutExpiry h) s = .next t ∧ t.mg = s.mg ∧ getLom t k = { getLom s k with lockout := false }) ∧
    (lomLive s k = true →
      (∀ nonce pub, Config.onCurve pub = true → getF s F.SEC_BSTAT_CODE k ≠ 1 → ∃ t x, exec (.rekey h nonce pub) s = .next t ∧
        (getLom t k).hs = some x ∧ x.rekey = true ∧ x.session = getF s F.LOM_STAT_SESSION k % (2 ^ 32 - 1) + 1 ∧
        (getLom t k).keys = (getLom s k).keys ∧ getF t F.LOM_STAT_SSTATE k = 3) ∧
      (getF s F.LOM_STAT_SSTATE k = 3 → exec (.rekeyStart h) s = .next s) ∧
      (getF s F.LOM_STAT_SSTATE k ≠ 3 → exec (.rekeyStart h) s =
        .next (lomSend (putF s F.LOM_STAT_SSTATE k 3) k 2 (lomPkt 12 0 0 0 0 0 []))))

/-- TARGETED_TEST_START, TARGETED_TEST_COMPLETE, PERIODIC_TEST_SLICE, SPARE_SLOT_TEST_PASS, OPTICAL_MARGIN_SCAN and
HANDSHAKE_STALL (R413-R415, R417, R418, R421): a due test starts once no work uses its unit; one that fails retires the unit with
a new incarnation; one that passes gives the state before back, and SPARE to a unit under admission; what the background tests
find, and a handshake that stalls, is an uncorrected error with its code.
UNIT_RETIRE_CMD, UNIT_ADMIT and UNIT_TEST (R419, R421, R422): each acts on the unit DEV_USEL selects and is refused unless that
is a unit of the half with a test, its domain on; RETIRE also while work uses it, an engine apart, ADMIT unless it is QUARANTINED in a running
half, and a channel not while FENCED. TEST makes the test due. A retired unit is QUARANTINED with its incarnation advanced
past 0.
The model's own choices enter by log entries 66, 121.
Completion (exec answers a next state under conditions on the state and the operands alone) is concluded for:
TARGETED_TEST_START, TARGETED_TEST_COMPLETE, PERIODIC_TEST_SLICE, HANDSHAKE_STALL, UNIT_RETIRE_CMD, UNIT_ADMIT, UNIT_TEST,
SPARE_SLOT_TEST_PASS, OPTICAL_MARGIN_SCAN. -/
def Obligations.UnitsTestedAndCommanded : Prop :=
  (∀ (h : BitVec 1) (ut : BitVec 8) (ui : BitVec 16) (s : State),
    let t := ut.toNat
    let i := ui.toNat
    let u := getUnit s t i
    (unitOf h.toNat t i = true → hasTest t = true → unitOn s t i = true → u.pending = true → u.st ≠ 2 →
      (unitBusy s t i = true → exec (.targetedTestStart h ut ui) s = .next s) ∧
      (unitBusy s t i = false → exec (.targetedTestStart h ut ui) s =
        .next (setUnit s t i { u with back := u.st, st := 2, pending := false }))) ∧
    (unitOf h.toNat t i = true → hasTest t = true → u.st = 2 →
      let s1 := setUnit s t i { u with st := u.back, pending := false, admission := false, causes := [] }
      (exec (.targetedTestComplete h ut ui false) s = .next (retireUnit (lastingRecords s1 t i u.causes) t i)) ∧
      (u.pending = false → u.admission = true → exec (.targetedTestComplete h ut ui true) s =
        .next (updUnit s1 t i fun v => { v with st := 1, inc := nextInc v.inc })) ∧
      (u.pending = false → u.admission = false → u.causes = [] → exec (.targetedTestComplete h ut ui true) s = .next s1)) ∧
    (∀ row : BitVec 6,
      let r := row.toNat
      let l := rowLeader s r
      bit (mget z64 r (half s (rowHalf r)).cfg.rowtest).toNat 63 = true → halfRunning s (rowHalf r) = true →
      domainOn s (domRow r) = true → (getUnit s utRow r).st ≠ 3 → gangState s l = gsStopped → lent s r = false →
      (bit (getF s F.ROW_CTXCTL_CVALID l) (curCtx s l) = false ∨ (seqCtl s l).away = true) →
      exec (.periodicTestSlice row none) s = .next s ∧
      ∀ k : BitVec 7, k.toNat < 68 → slotNamed s (rowSlot0 r + k.toNat) = true →
        (getUnit s utSlot (rowSlot0 r + k.toNat)).st ≠ 3 → exec (.periodicTestSlice row (some k)) s =
          .next (detectUncorrected s utSlot (rowSlot0 r + k.toNat) 0x0007 0 0)) ∧
    (∀ p : BitVec 13, unitExists utSlot p.toNat = true → (getUnit s utSlot p.toNat).st = 1 →
      unitOn s utSlot p.toNat = true → exec (.spareSlotTestPass p false) s = .next s ∧
      exec (.spareSlotTestPass p true) s = .next (detectUncorrected s utSlot p.toNat 0x0007 0 0)) ∧
    (∀ (n : BitVec 4) (lanes : List Nat),
      let e := 9 * h.toNat + n.toNat
      n.toNat < 9 → bit (mget z64 e (half s h.toNat).cfg.opttest).toNat 63 = true → unitOn s utOptic e = true →
      (getUnit s utOptic e).st ≠ 3 → halfRunning s h.toNat = true → exec (.opticalMarginScan h n lanes) s =
        .next (((lanes.filter (· < 72)).dedup).foldl (fun s k => detectUncorrected s utOptic e 0x0009 0 k) s)) ∧
    (t = utRow ∨ t = utDlink ∨ t = utOptic ∨ t = utBridge → unitOf h.toNat t i = true → unitOn s t i = true →
      exec (.handshakeStall h ut ui) s = .next (detectUncorrected s t i 0x000A 0 0)))
  ∧
  (∀ (b : Requester) (h : BitVec 1) (s : State),
    let k := h.toNat
    let t := (selected s k).1
    let i := (selected s k).2
    let fine := unitOf k t i = true ∧ hasTest t = true ∧ unitOn s t i = true
    (gate s b true (regAddr .devUcmd 0 k) = none →
      (¬ fine → ∀ pass, exec (.unitRetireCmd b h) s = .next (denied s b) ∧ exec (.unitAdmit b h pass) s = .next (denied s b) ∧
        exec (.unitTest b h) s = .next (denied s b)) ∧
      (fine → unitBusy s t i = true → t ≠ utEngine → exec (.unitRetireCmd b h) s = .next (denied s b)) ∧
      (fine → unitBusy s t i = false ∨ t = utEngine → exec (.unitRetireCmd b h) s = .next (done (retireUnit s t i))) ∧
      (fine → admissible k s t i = false → ∀ pass, exec (.unitAdmit b h pass) s = .next (denied s b)) ∧
      (fine → admissible k s t i = true → ∀ pass, exec (.unitAdmit b h pass) s = .next (done (testEnd
        (updUnit s t i fun u => { u with back := 3, st := 2, pending := false, admission := true }) t i pass))) ∧
      (fine → exec (.unitTest b h) s =
        .next (done (updUnit s t i fun u => if u.st = 2 then u else { u with pending := true })))) ∧
    (∀ n : Nat, nextInc n ≠ 0))

/-- HALF_DRAIN, HALF_DRAIN_COMPLETE, HALF_RESET and HALF_POWER_OFF (R23, R24, R424, R427): each is refused where it is not allowed; a
drain leaves RUNNING in order; SERVICE follows once nothing is owed; a reset and a power-off stop the half abruptly, a
power-off ending OFF.
The model's own choices enter by log entries 8, 74, 92, 119.
Completion (exec answers a next state under conditions on the state and the operands alone) is concluded for: HALF_DRAIN,
HALF_DRAIN_COMPLETE, HALF_RESET, HALF_POWER_OFF. -/
def Obligations.HalvesStop : Prop :=
  ∀ (b : Requester) (h : BitVec 1) (s : State),
    let k := h.toNat
    (gate s b true (regAddr .devHalf 0 k) = none →
      (halfRunning s k = true → fullCommitting s = false → exec (.halfDrain b h) s =
        .next (done (leaveRunning (setHalfState s k hsDraining) k))) ∧
      (halfRunning s k = false ∨ fullCommitting s = true → exec (.halfDrain b h) s = .next (denied s b)) ∧
      (s.pins.input = true → exec (.halfReset b h) s = .next (done (feedBridges (leaveReset (holdReset s k) k)))) ∧
      (s.pins.input = false → exec (.halfReset b h) s = .next (denied s b)) ∧
      ((halfState s k = hsLoaded ∨ halfState s k = hsService) → exec (.halfPowerOff b h) s =
        .next (done (feedBridges (domainsOff (stopHalf s k) (halfDomains k))))) ∧
      (halfState s k ≠ hsLoaded → halfState s k ≠ hsService → exec (.halfPowerOff b h) s = .next (denied s b))) ∧
    (halfState s k = hsDraining →
      (waitersAt s k = [] → s.weir.any (weirTouches k) = false → s.Canon →
        ∃ t, exec (.halfDrainComplete h) s = .next t ∧ halfState t k = hsService) ∧
      (waitersAt s k ≠ [] → exec (.halfDrainComplete h) s = .next s)) ∧
    (s.Canon → halfState (stopHalf s k) k = hsOff)

/-- FST_APPLY, FST_DISCARD and STREAM_COMMIT (R396, R405, R406, R408, R504): a stream is refused whole, with the first error of the
order of R405, or held until its commit, as node software's where it asks or wrote a word of it; APPLY is turned away while one is under way and before calibration has ended; the
commit applies every item, measures each section into MR2 and steps the generation.
The model's own choices enter by log entries 125, 126, 164.
Completion (exec answers a next state under conditions on the state and the operands alone) is concluded for: FST_APPLY,
FST_DISCARD, STREAM_COMMIT. -/
def Obligations.StreamsCommitWhole : Prop :=
  ∀ (b : Requester) (h : BitVec 1) (s : State),
    let k := h.toNat
    let under := getF s F.FST_STAT_STATE k = 1 ∨ getF s F.FST_STAT_STATE k = 2
    let cal := (applyScope s k).all fun j => getF s F.DEV_CAL_DONE 0 j != 0
    (gate s b true (regAddr .fstCtl k 0) = none →
      (under ∨ cal = false → exec (.fstApply b h) s = .next (denied s b)) ∧
      (¬ under → cal = true →
        let byNode := isNode b || nodeStaged s k
        let s1 := updHalf s k fun x => { x with fstBy := byNode }
        (∀ e, validate s1 k = .inl e → exec (.fstApply b h) s = .next (done (refuseStream s1 k e))) ∧
        (∀ l, validate s1 k = .inr l → exec (.fstApply b h) s = .next (done (holdStream s1 k byNode)))) ∧
      (under → exec (.fstDiscard b h) s = .next (denied s b)) ∧
      (¬ under → ∃ t, exec (.fstDiscard b h) s = .next t ∧ t.resp = .ok ∧ (half t k).fstNode = [] ∧ (s.Canon → getF t F.FST_STAT_STATE k = fsIdle ∧
        ∀ j : Nat, j < 2 ^ 21 → reg t .fstWindow k j = 0))) ∧
    (let ks := committers s k;
      (half s k).fstKind.isSome = true → committing s k = true → (∀ j ∈ ks, (getSec s j).quote = none) →
      ∀ l, fstParse s k = .inr l →
        let mine := l.map fun x => { x with items := x.items.filter (itemIn ks) }
        ((firstErr (pick (itemsOf mine) 3 2) (vChanmap s false) <|> vState s k mine) = none →
          exec (.streamCommit h) s = .next (commitStream s k l ks)) ∧
        (∀ e, (firstErr (pick (itemsOf mine) 3 2) (vChanmap s false) <|> vState s k mine) = some e →
          exec (.streamCommit h) s = .next (refuseStream s k e)))

/-- POWER_UP, INPUT_REMOVAL, RST_N_ASSERT, RST_N_RELEASE, HALF_RESET_ASSERT, HALF_RESET_RELEASE and DOMAIN_RAMP_DONE (R452,
R458-R461, R478): with input present a half that no reset input holds boots; a reset input stops its halves abruptly and its
release boots them, RST_N before the inputs of the halves; without input the part keeps nothing but the levels at its pins; of
the domains of a half that ramp up the first eight may come on.
A FATAL half is in SERVICE with FATAL set, its FAULT pin asserted (R416, R420); a half in reset is OFF (R24, R478).
The model's own choices enter by log entries 8, 118, 119.
Completion (exec answers a next state under conditions on the state and the operands alone) is concluded for: POWER_UP,
INPUT_REMOVAL, DOMAIN_RAMP_DONE, RST_N_ASSERT, RST_N_RELEASE, HALF_RESET_ASSERT, HALF_RESET_RELEASE. -/
def Obligations.PowerResetsAndStops : Prop :=
  (∀ (h : BitVec 1) (s : State), s.Canon →
    let k := h.toNat
    (s.pins.input = false →
      (∃ t, exec .powerUp s = .next t ∧ t.pins.input = true ∧ t.pins.pwrGood = true ∧
        (s.pins.rstLow = false → (half s k).rst = false → halfState t k = hsBoot ∧ domainOn t (domTrust k) = true)) ∧
      exec .inputRemoval s = .next s) ∧
    (s.pins.input = true → exec .powerUp s = .next s ∧
      (∃ t, exec .inputRemoval s = .next t ∧ t.mg = [] ∧ t.hbm = [] ∧ t.cores = [] ∧ t.progs = [] ∧ t.pins.input = false ∧
        t.pins.pwrGood = false ∧ t.pins.rstLow = s.pins.rstLow ∧ (half t k).rst = (half s k).rst ∧ t.pending = s.pending) ∧
      (let u := holdReset (holdReset { s with pins := { s.pins with rstLow := true } } 0) 1;
        let v := clearBridge (clearBridge u 0) 1
        exec .rstNAssert s = .next { v with
          seamPause := false, owners := [], pins := { v.pins with debugOnly := false, mfp0 := false } }) ∧
      exec (.halfResetAssert h) s = .next (holdReset (updHalf s k fun x => { x with rst := true }) k)) ∧
    (s.pins.input = false → (∃ t, exec .rstNAssert s = .next t ∧ t = { s with pins := { s.pins with rstLow := true } }) ∧
      exec (.halfResetAssert h) s = .next (updHalf s k fun x => { x with rst := true })) ∧
    (s.pins.rstLow = true → s.pins.input = true → (half s k).rst = false →
      ∃ t, exec .rstNRelease s = .next t ∧ t.pins.rstLow = false ∧ halfState t k = hsBoot) ∧
    (s.pins.rstLow = false → exec .rstNRelease s = .next s) ∧
    ((half s k).rst = true → ∃ t, exec (.halfResetRelease h) s = .next t ∧ (half t k).rst = false ∧
      (s.pins.input = true → s.pins.rstLow = false → halfState t k = hsBoot) ∧
      (s.pins.rstLow = true → halfState t k = halfState s k)) ∧
    ((half s k).rst = false → exec (.halfResetRelease h) s = .next s) ∧
    (∀ n : BitVec 8,
      let mine := s.ramp.filter fun m => domHalf m == domHalf n.toNat
      (n.toNat ∉ mine.take 8 → exec (.domainRampDone n) s = .next s) ∧
      (n.toNat ∈ mine.take 8 → n.toNat < 180 → ∃ t, exec (.domainRampDone n) s = .next t ∧ domainOn t n.toNat = true ∧
        t.ramp = s.ramp.filter (· != n.toNat))))
  ∧
  (∀ (s : State) (h : BitVec 1) (c : Nat), s.Canon →
    let k := h.toNat
    (isFatal s k = true → fatalStop s k c = s) ∧
    (isFatal s k = false → isFatal (fatalStop s k c) k = true ∧ halfState (fatalStop s k c) k = hsService ∧
      (fatalStop s k c).pins.faultLow.contains k = true) ∧
    halfState (holdReset s k) k = hsOff ∧ isFatal (holdReset s k) k = false)

/-- REGULATOR_FAULT, THERMAL_TRIP and SENSOR_READ (R43, R414, R454, R467-R469): a regulator fault and a trip are FATAL, and switch
off what the regulator feeds, or every domain of the half but the control die's first part and the trust die, which go off
too where one of those two dies trips; a half that is OFF has no trip; while the fantail works a reading shows each row's temperature, and HOT from 95 °C.
The model's own choices enter by log entries 71, 118, 119.
Completion (exec answers a next state under conditions on the state and the operands alone) is concluded for: SENSOR_READ,
THERMAL_TRIP, REGULATOR_FAULT. -/
def Obligations.SensorsTripsAndRegulators : Prop :=
  ∀ (h : BitVec 1) (s : State), s.Canon →
    let k := h.toNat
    (∀ die : BitVec 5, s.pins.input = true →
      let u := fatalRecord s utDie (256 + die.toNat) 0x0010 0 0
      let t := domainsOff { u with ramp := u.ramp.filter fun n => !(fedBy die.toNat).contains n } (fedBy die.toNat)
      exec (.regulatorFault die) s = .next (if die.toNat % 16 = 15 then feedBridges t else t)) ∧
    (∀ (ut : BitVec 8) (ui : BitVec 16), halfState s k ≠ hsOff →
      let own := ut.toNat = utDie ∧ (ui.toNat = 64 + k ∨ ui.toNat = 128 + k)
      let kept (n : Nat) : Prop := ¬ own ∧ (n = domCtl k 0 ∨ n = domTrust k)
      let u := fatalStop (plainRecord s k ut.toNat ui.toNat clFatal 0x0011 0 0) k 0x0011
      let v := { u with ramp := u.ramp.filter fun n => domHalf n != some k }
      ∃ ns : List Nat, exec (.thermalTrip h ut ui) s = .next (feedBridges (domainsOff v ns)) ∧
        ns.Sublist (halfDomains k) ∧ ∀ n, n ∈ halfDomains k → (n ∈ ns ↔ ¬ kept n)) ∧
    (∀ (ut : BitVec 8) (ui : BitVec 16), halfState s k = hsOff → exec (.thermalTrip h ut ui) s = .next s) ∧
    (∀ t : Temps, fantailLive s k = false → exec (.sensorRead h t) s = .next s) ∧
    (∀ t : Temps, fantailLive s k = true →
      ∃ u, exec (.sensorRead h t) s = .next u ∧ (half u k).hot = sensorsAbove (getF s F.PWR_BUDGET_TJMAX 0 k) 0 t) ∧
    (∀ t : Temps, fantailLive s k = true → ∀ r : Nat, r < 32 → r < t.rows.length → domainOn s (domRow (32 * k + r)) = true →
      let u := readSensors s k t
      getF u F.ROW_FANTAIL_TJ (32 * k + r) = min 255 (t.rows.getD r 0) ∧
      (getF u F.ROW_FANTAIL_HOT (32 * k + r) = 1 ↔ 95 ≤ t.rows.getD r 0))

/-- CALIBRATION_START and CALIBRATION_DONE (R502-R504, R508): calibration starts in a LOADED half whose domains are on, with every
channel in training; when it ends every channel is OUT, or FENCED where it failed, and DEV_CAL shows what failed and DONE.
The model's own choices enter by log entries 123, 137.
Completion (exec answers a next state under conditions on the state and the operands alone) is concluded for:
CALIBRATION_START, CALIBRATION_DONE. -/
def Obligations.CalibrationReports : Prop :=
  ∀ (h : BitVec 1) (s : State), s.Canon → halfState s h.toNat = hsLoaded → isFatal s h.toNat = false →
    let k := h.toNat
    (s.ramp.any (fun n => domHalf n == some k) = false → getF s F.DEV_CAL_STEP 0 k = 0 → getF s F.DEV_CAL_DONE 0 k = 0 →
      ∃ t, exec (.calibrationStart h) s = .next t ∧ getF t F.DEV_CAL_STEP 0 k = 1 ∧
        ∀ c : Nat, c < 512 → getF t F.HBM_CHST_STATE (512 * k + c) = 3) ∧
    (∀ r : CalReport, getF s F.DEV_CAL_STEP 0 k ≠ 0 → getF s F.DEV_CAL_DONE 0 k = 0 →
      let bad := ((r.chans.filter fun c => unitExists utChan c.1 && unitHalf utChan c.1 == k).map Prod.fst).dedup
      ∃ t, exec (.calibrationDone h r) s = .next t ∧ getF t F.DEV_CAL_DONE 0 k = 1 ∧ getF t F.DEV_CAL_STEP 0 k = 5 ∧
        getF t F.DEV_CAL_CH_FAILED 0 k = bad.length ∧
        ∀ c : Nat, c < 512 → getF t F.HBM_CHST_STATE (512 * k + c) = if bad.contains (512 * k + c) then 1 else 2)

/-- The I3C target (R482, R483): it answers while input is present; one byte sets the index, a read answers eight bytes and moves on
by eight, an address is taken once, and SNAPSHOT holds what the sources show.
The boundary scan port (R445, R484): it works while half 0's boot set is on and TRST_N is high; each opcode takes its own data
register, an opcode without an instruction is BYPASS, and the debug registers act as CHALLENGE and SUBMIT do.
The model's own choices enter by log entries 10, 116, 138, 139.
Completion (exec answers a next state under conditions on the state and the operands alone) is concluded for:
I3C_INDEX_WRITE, I3C_PRIVATE_READ, I3C_SETDASA, I3C_ENTDAA, I3C_SNAPSHOT, TAP_EXTEST, TAP_IDCODE, TAP_SAMPLE_PRELOAD,
TAP_DBG_CHALLENGE, TAP_DBG_RESPONSE, TAP_BYPASS, TAP_RESET. -/
def Obligations.ManagementAndScanPorts : Prop :=
  (∀ s : State,
    (s.pins.input = false → ∀ (bs : List Byte) (a : BitVec 7), exec (.i3cIndexWrite bs) s = .next s ∧
      exec .i3cPrivateRead s = .next s ∧ exec (.i3cSetdasa a) s = .next s ∧ exec (.i3cEntdaa a) s = .next s ∧
      exec .i3cSnapshot s = .next s) ∧
    (s.pins.input = true →
      (∀ b : Byte, ∃ t, exec (.i3cIndexWrite [b]) s = .next t ∧ t.resp = .ok ∧ t.pins = { s.pins with i3cIdx := b.toNat }) ∧
      (∀ bs : List Byte, bs.length ≠ 1 → exec (.i3cIndexWrite bs) s = .next (accessError s)) ∧
      (∃ t, exec .i3cPrivateRead s = .next t ∧ t.resp = .bytes (toBytes 8 (mget z64 s.pins.i3cIdx s.pins.i3cSnap).toNat) ∧
        t.pins = { s.pins with i3cIdx := (s.pins.i3cIdx + 8) % 256 }) ∧
      (∀ a : BitVec 7, s.pins.i3cDyn = none →
        (∃ t, exec (.i3cSetdasa a) s = .next t ∧ t.resp = .ok ∧ t.pins = { s.pins with i3cDyn := some a }) ∧
        (∃ t, exec (.i3cEntdaa a) s = .next t ∧ t.resp = .bytes provisionalId ∧ t.pins = { s.pins with i3cDyn := some a })) ∧
      (∀ a : BitVec 7, s.pins.i3cDyn ≠ none → exec (.i3cSetdasa a) s = .next s ∧ exec (.i3cEntdaa a) s = .next s) ∧
      (∃ t, exec .i3cSnapshot s = .next t ∧
        ∀ a v, (a, v) ∈ i3cSources s → mget z64 a t.pins.i3cSnap = v)))
  ∧
  (∀ s : State,
    (tapWorks s = false → ∀ (h : BitVec 1) (r : List Byte) (op : BitVec 8), exec .tapExtest s = .next s ∧
      exec .tapIdcode s = .next s ∧ exec .tapSamplePreload s = .next s ∧ exec (.tapDbgChallenge h) s = .next s ∧
      exec (.tapDbgResponse h r) s = .next s ∧ exec (.tapBypass op) s = .next s) ∧
    (tapWorks s = true →
      (∃ t, exec .tapIdcode s = .next t ∧ t.resp = .bytes [0xB3, 0x07, 0x10, 0x10] ∧ t.pins.tapIr = 1 ∧ t.mg = s.mg) ∧
      (∃ t, exec .tapSamplePreload s = .next t ∧ t.pins.tapIr = 2 ∧ t.pins.tapDr = Config.boundaryScan s.free ∧ t.mg = s.mg) ∧
      (∃ t, exec .tapExtest s = .next t ∧ t.pins.tapIr = 0 ∧ t.mg = s.mg ∧
        (halfState s 0 = hsRunning → t.pins.tapDr = [0]) ∧
        (halfState s 0 = hsBoot → halfState s 1 = hsLoaded → t.pins.tapDr = Config.boundaryScan s.free)) ∧
      (∀ h : BitVec 1, halfState s h.toNat ≠ hsOff → mayChallenge s h.toNat = true →
        ∃ t, exec (.tapDbgChallenge h) s = .next t ∧ (getSec t h.toNat).challenge = true ∧
          t.resp = .bytes (regBytes t .secDbgchal h.toNat 0 8)) ∧
      (∀ (h : BitVec 1) (r : List Byte), halfState s h.toNat ≠ hsOff → (half s h.toNat).cfg.dbgUnlock = true →
        exec (.tapDbgResponse h r) s = .next (submitDebug (setWords (tapCapture s (if h.toNat = 0 then 0x21 else 0x23) r)
          .secDbgresp h.toNat 0 (wordsOf r)) h.toNat)) ∧
      (∀ op : BitVec 8, [0x00, 0x01, 0x02, 0x20, 0x21, 0x22, 0x23].contains op.toNat = false →
        ∃ t, exec (.tapBypass op) s = .next t ∧ t.pins.tapIr = op ∧ t.pins.tapDr = [0] ∧ t.mg = s.mg)) ∧
    (∃ t, exec (.tapReset true) s = .next t ∧ t.pins.tapReset = true ∧ t.pins.tapIr = 1 ∧ tapWorks t = false) ∧
    (∃ t, exec (.tapReset false) s = .next t ∧ t = { s with pins := { s.pins with tapReset := false } }))

/-- SOLV_DOORBELL, SOLV_CQ_RELEASE and SOLV_CANCEL (R214, R215, R236): a write of SOLV_DB with an index that R215 does not accept is
refused whole; an accepted one sets both indices, and ends the wait of an engine for room in its completion ring; CANCEL reaches a descriptor that is running.
SOLVER_LU, SOLVER_CHOL, SOLVER_SOLVE and SOLVER_RESUME (R216, R219, R222-R225, R238-R240): a posted descriptor whose OP is the
command's leaves the ring, the engine is RUNNING, and the work begins; one that a check refuses ends with the status of that
check and begins nothing, BAD_DESCRIPTOR giving the failing word. An engine that has a descriptor, or whose completion ring is
full, takes nothing.
The model's own choices enter by log entries 128, 129, 132, 133.
Completion (exec answers a next state under conditions on the state and the operands alone) is concluded for: SOLV_DOORBELL,
SOLV_CQ_RELEASE, SOLV_CANCEL, SOLVER_LU, SOLVER_CHOL, SOLVER_SOLVE, SOLVER_RESUME. -/
def Obligations.SolverTakesDescriptors : Prop :=
  (∀ (b : Requester) (h : BitVec 1) (v : W64) (s : State), s.Canon → gate s b true (regAddr .solvDb h.toNat 0) = none →
    let k := h.toNat
    let legal (tail head : Nat) : Bool := doorbellLegal (getF s F.SOLV_SQ_SQ_LOG2 k) (getF s F.SOLV_CQ_CQ_LOG2 k)
      (getF s F.SOLV_DB_SQ_TAIL k) (getF s F.SOLV_STAT_SQ_HEAD k) (getF s F.SOLV_STAT_CQ_TAIL k) (getF s F.SOLV_DB_CQ_HEAD k) tail head
    let tail := bits v.toNat 15 0
    let head := bits v.toNat 31 16
    (legal tail head = false →
      exec (.solvDoorbell b h v) s = .next (denied s b) ∧ exec (.solvCqRelease b h v) s = .next (denied s b)) ∧
    (legal tail head = true →
      (∃ t, exec (.solvDoorbell b h v) s = .next t ∧ t.resp = .ok ∧ getF t F.SOLV_DB_SQ_TAIL k = tail ∧
        getF t F.SOLV_DB_CQ_HEAD k = head ∧
        (getF s F.SOLV_STAT_STATE k = 2 → (half s k).solv = none →
          ringCount (getF s F.SOLV_STAT_CQ_TAIL k) head < 2 ^ getF s F.SOLV_CQ_CQ_LOG2 k → getF t F.SOLV_STAT_STATE k = 0)) ∧
      exec (.solvCqRelease b h v) s = exec (.solvDoorbell b h v) s) ∧
    (legal (getF s F.SOLV_DB_SQ_TAIL k) (getF s F.SOLV_DB_CQ_HEAD k) = true →
      ∃ t, exec (.solvCancel b h) s = .next t ∧ t.resp = .ok ∧ getF t F.SOLV_DB_SQ_TAIL k = getF s F.SOLV_DB_SQ_TAIL k ∧
        (half t k).cancel = ((half s k).cancel || (half s k).solv.any fun r => r.done.isNone)))
  ∧
  (∀ (h : BitVec 1) (s : State),
    let k := h.toNat
    let head := getF s F.SOLV_STAT_SQ_HEAD k
    let ws := hbmWords s (getF s F.SOLV_SQ_SQ_BASE k * 4096 + head % 2 ^ getF s F.SOLV_SQ_SQ_LOG2 k * 128) 16
    let room := ringCount (getF s F.SOLV_STAT_CQ_TAIL k) (getF s F.SOLV_DB_CQ_HEAD k) < 2 ^ getF s F.SOLV_CQ_CQ_LOG2 k
    let posted := ringCount (getF s F.SOLV_DB_SQ_TAIL k) head ≠ 0
    let u := updHalf (putF (putF s F.SOLV_STAT_SQ_HEAD k (head + 1)) F.SOLV_STAT_STATE k 1) k fun x => { x with cancel := false }
    let start (op : Nat) : Out := match op with
      | 1 => exec (.solverLu h) s
      | 2 => exec (.solverChol h) s
      | 3 => exec (.solverSolve h) s
      | _ => exec (.solverResume h) s
    (∀ op, op = 1 ∨ op = 2 ∨ op = 3 ∨ op = 4 →
      let fop := if op = 1 ∨ op = 2 then op else if fopOf (blockCopy u (solvDesc ws 1).work) = 2 then 2 else 1
      let d := solvDesc ws fop
      let r := newRun ws fop (reg u .tbHall k 0)
      ((half s k).solv.isSome = true ∨ ¬ room ∨ ¬ posted ∨ halfRunning s k = false → start op = .next s) ∧
      (halfRunning s k = true → getF s F.SOLV_STAT_STATE k = 0 → (half s k).solv = none → room → posted →
        (getUnit s utEngine k).st = 0 → fopOf ws = op →
        (solvRefusal u k ws d = none → start op = .next (solvBegin u k d r)) ∧
        (∀ st dt ad, solvRefusal u k ws d = some (st, dt, ad) → st ≠ svBadStructure →
          start op = .next (setSolv u k (endRun r st dt ad))) ∧
        (∀ dt ad, solvRefusal u k ws d = some (svBadStructure, dt, ad) → let e := endRun r svBadStructure dt ad
          start op = .next (setSolv
            (if d.op = 3 then u else writeBlock u d (if d.op = 4 then runOfBlock u d e else e) 4) k e)) ∧
        (∀ n, solvCheck u k ws d = some n → start op = .next (setSolv u k (endRun r svBadDescriptor n 0))))))

/-- SOLVER_PANEL_STEP, SOLVER_CORRECTION and SOLVER_COMPLETION (R216, R222, R230-R233, R236, R240, R356): before each panel a passed
deadline, then a cancel, stops a factorisation that can be resumed; an engine a checkpoint waits for joins it; otherwise one
panel step, one correction, or one inner step of a correction by GMRES is done, a residual that is small enough ending the run;
the record is written once the completion ring has room, and the engine is then free, or waits where the ring is full.
The model's own choices enter by log entries 132, 134.
Completion (exec answers a next state under conditions on the state and the operands alone) is concluded for:
SOLVER_PANEL_STEP, SOLVER_CORRECTION, SOLVER_COMPLETION. -/
def Obligations.SolverRunsToItsRecord : Prop :=
  ∀ (h : BitVec 1) (s : State) (r : SolvRun),
    let k := h.toNat
    let d := runDesc r
    (half s k).solv = some r →
    (r.done = none → engHeld s k = false → r.phase = 0 →
      (solvLate s k r = true → exec (.solverPanelStep h) s = .next (stopFactor s k (solvEdge s k r) svDeadlineFactor)) ∧
      (solvLate s k r = false → (half s k).cancel = true →
        exec (.solverPanelStep h) s = .next (stopFactor s k (solvEdge s k r) svCancelled)) ∧
      (solvLate s k r = false → (half s k).cancel = false → brakeWanted s k = true →
        exec (.solverPanelStep h) s = .next (joinBrake (setSolv (writeBlock s d (solvEdge s k r) 2) k (solvEdge s k r)) k)) ∧
      (solvLate s k r = false → (half s k).cancel = false → brakeWanted s k = false →
        (∀ g ∈ d.gangs, gangState s g ≠ gsHalted) →
        let w := writeBlock s d (solvEdge s k r) 1
        (∀ a, solvBadLine w d = some a →
          exec (.solverPanelStep h) s = .next (failFactor w k (solvEdge s k r) svMemory 0 a)) ∧
        (solvBadLine w d = none → fillSound w d r.panel = true →
          exec (.solverPanelStep h) s = .next (panelStep w k (solvEdge s k r))))) ∧
    (r.done = none → engHeld s k = false → r.phase = 1 →
      (∀ a, solvBadLine s d = some a → exec (.solverCorrection h) s = .next (endSolv s k r svMemory 0 a)) ∧
      (∀ g, solvBadLine s d = none → r.gm = some g → exec (.solverCorrection h) s = .next (gmInner s k d r g)) ∧
      (solvBadLine s d = none → r.gm = none → r.tested = true → exec (.solverCorrection h) s = .next (correct s k d r)) ∧
      (solvBadLine s d = none → r.gm = none → r.tested = false → r.x ≠ [] →
        (∀ u, testRun s k d r = (u, some svOk) → exec (.solverCorrection h) s = .next (stopRefine s k u svOk)) ∧
        (∀ u, testRun s k d r = (u, none) → brakeWanted s k = false →
          exec (.solverCorrection h) s = .next (correct s k d u)))) ∧
    (∀ st dt ad, r.done = some (st, dt, ad) → halfRunning s k = true → s.Canon →
      let tail := getF s F.SOLV_STAT_CQ_TAIL k
      let log := getF s F.SOLV_CQ_CQ_LOG2 k
      (2 ^ log ≤ ringCount tail (getF s F.SOLV_DB_CQ_HEAD k) →
        exec (.solverCompletion h) s = .next (putF s F.SOLV_STAT_STATE k 2)) ∧
      (ringCount tail (getF s F.SOLV_DB_CQ_HEAD k) < 2 ^ log → ∃ t, exec (.solverCompletion h) s = .next t ∧
        (half t k).solv = none ∧ getF t F.SOLV_STAT_CQ_TAIL k = (tail + 1) % 2 ^ 16 ∧ getF t F.SOLV_STAT_STATE k =
          if 2 ^ log ≤ ringCount ((tail + 1) % 2 ^ 16) (getF s F.SOLV_DB_CQ_HEAD k) then 2 else 0))

/-- WEIR_BLOCK_ENCODE, WEIR_BLOCK_DECODE and BRIDGE_ADMISSION_RESUME (R279, R281, R284, R285, R288): the first uncoded block of a
bridge in service is read and coded, its bytes counted before and after; a source that cannot be read ends it with its status;
a coded one leaves the bridge, its patterns are written to the destination and, where all of them arrive, its sidecar too;
admission resumes only after a retirement, with what waited for it.
The model's own choices enter by log entries 76, 80, 162.
Completion (exec answers a next state under conditions on the state and the operands alone) is concluded for:
BRIDGE_ADMISSION_RESUME, WEIR_BLOCK_ENCODE, WEIR_BLOCK_DECODE. -/
def Obligations.WeirBlocksCross : Prop :=
  ∀ (b dir : BitVec 1) (s : State),
    let k := b.toNat
    let d := dir.toNat
    (∀ x, s.weir.find? (fun x => x.bridge == k && x.dir == d && weirBlank x) = some x → bridgeUp s k = true →
      ((weirRead s x).1 ≠ 0 →
        exec (.weirBlockEncode b dir) s = .next (answerW { s with weir := s.weir.erase x } x.who (weirRead s x).1 false [])) ∧
      ((weirRead s x).1 = 0 → ∃ t c, exec (.weirBlockEncode b dir) s = .next t ∧
        t.weir = s.weir.set (s.weir.idxOf x) { x with coded := some c } ∧ t.hbm = s.hbm ∧ t.cores = s.cores ∧
        (x.mode = 3 → c = rateBlock (weirFmt x.fmt) x.param (patterns (weirBytes x.fmt) (weirRead s x).2)) ∧
        (s.Canon → getF t F.WEIR_IN_BYTES k d = min (2 ^ 64 - 1) (getF s F.WEIR_IN_BYTES k d + (weirRead s x).2.length) ∧
          getF t F.WEIR_OUT_BYTES k d = min (2 ^ 64 - 1) (getF s F.WEIR_OUT_BYTES k d + c.length)))) ∧
    (∀ x, s.weir.find? (fun x => x.bridge == k && x.dir == d && !weirBlank x) = some x →
      let coded := x.coded.getD []
      let ps := if x.mode = 3 then rateDecode (weirFmt x.fmt) x.param 256 (coded.take (32 * x.param))
        else predDecode x.mode x.fmt x.param x.square coded
      let n := pieceBytes x
      let ls := x.dst.zipIdx.flatMap fun p =>
        cutLines (n + 1) p.1 (((ps.flatMap (toBytes (weirBytes x.fmt))).drop (n * p.2)).take n)
      let put := putLines { s with weir := s.weir.erase x } (waiterHalf x.who) x.who ls
      (x.side = none ∨ put.2 ≠ 0 →
        exec (.weirBlockDecode b dir) s = .next (answerW put.1 x.who 0 false [])) ∧
      (∀ l, x.side = some l → put.2 = 0 → exec (.weirBlockDecode b dir) s = .next (answerW (finishW
        (locWrite (moreWait put.1 x.who) (waiterHalf x.who) l (coded.drop (32 * x.param)) x.who) x.who) x.who 0 false []))) ∧
    (getF s F.SEAM_STATE_STATE k = 1 → exec (.bridgeAdmissionResume b) s =
      .next (releaseHeld (releaseHeld { s with seamPause := false } 0) 1)) ∧
    (getF s F.SEAM_STATE_STATE k ≠ 1 → exec (.bridgeAdmissionResume b) s = .next s)

/-- The frame of the commands of the boundary and management ports, of the trust dies, of the tests, of the rings and of the row
controls: none of them changes a byte of HBM, a core, a program or a saved context (R262, R482-R484).
The model's own choices enter by log entries 113, 115, 137, 138, 139. -/
def Obligations.CommandsThatStoreNothing : Prop :=
  ∀ (b : Requester) (h : BitVec 1) (l : BitVec 6) (s t : State) (bs : List Byte) (a : BitVec 7) (op ut : BitVec 8) (ui : BitVec 16)
    (i : BitVec 6) (v : W64) (p q : Bool) (off : W64) (ws : List W64),
    ∀ c ∈ [Instr.i3cIndexWrite bs, .i3cPrivateRead, .i3cSetdasa a, .i3cEntdaa a, .i3cSnapshot, .tapIdcode, .tapSamplePreload,
      .tapExtest, .tapBypass op, .tapReset p, .tapDbgChallenge h, .trustDieBoot h p q, .img h h off ws, .imageClear b h,
      .quote b h, .extend b h, .quoteComplete h, .debugChallenge b h, .debugChallengeExpiry h, .debugLockoutExpiry h,
      .drbgReseed h, .helloLockoutExpiry h, .targetedTestStart h ut ui, .unitTest b h, .solvDoorbell b h v,
      .solvCqRelease b h v, .solvCancel b h, .pshadowWrite b l i v, .pactiveWrite b l i v, .arm b l, .stop b l, .stopSave b l,
      .yield b l, .wdogLimitWrite b l v, .calibrationStart h],
      exec c s = .next t → t.hbm = s.hbm ∧ t.cores = s.cores ∧ t.progs = s.progs ∧ t.saves = s.saves
end

