-- ==== Sys2Proof/Laws/Maps.lean ====
section
/-! SUPPORT. Sparse stores: reads after writes, and the canonical form under every operation. -/

namespace Sys2Proof.Machine

variable {α : Type}

/-- Keys strictly rising. -/
def Rising (m : Map α) : Prop := (m.map Prod.fst).Pairwise (· < ·)

theorem rising_nil : Rising ([] : Map α) := List.Pairwise.nil

theorem rising_cons {a : Nat} {x : α} {r : Map α} : Rising ((a, x) :: r) ↔ (∀ e ∈ r, a < e.1) ∧ Rising r := by
  simp [Rising]

theorem mwf_iff [DecidableEq α] {d : Nat → α} {m : Map α} : mwf d m = true ↔ Rising m ∧ ∀ e ∈ m, e.2 ≠ d e.1 := by
  simp [mwf, Rising]

theorem mwf_nil [DecidableEq α] {d : Nat → α} : mwf d [] = true := mwf_iff.2 ⟨rising_nil, by simp⟩

theorem mem_mput {k : Nat} {v : α} {m : Map α} {e : Nat × α} (h : e ∈ mput k v m) : e = (k, v) ∨ e ∈ m := by
  induction m with
  | nil => simpa [mput] using h
  | cons b r ih =>
    simp only [mput] at h
    split at h
    · simp only [List.mem_cons] at h ⊢; tauto
    · split at h
      · simp only [List.mem_cons] at h ⊢; tauto
      · simp only [List.mem_cons] at h ⊢
        rcases h with h | h
        · exact .inr (.inl h)
        · exact (ih h).imp_right .inr

theorem mem_mset [DecidableEq α] {d : Nat → α} {k : Nat} {v : α} {m : Map α} {e : Nat × α} (h : e ∈ mset d k v m) :
    (e = (k, v) ∧ v ≠ d k) ∨ e ∈ m := by
  induction m with
  | nil =>
    simp only [mset] at h
    split at h
    · simp at h
    · simp only [List.mem_singleton] at h; tauto
  | cons b r ih =>
    simp only [mset] at h
    split at h
    · split at h <;> simp only [List.mem_cons] at h ⊢ <;> tauto
    · split at h
      · split at h <;> simp only [List.mem_cons] at h ⊢ <;> tauto
      · simp only [List.mem_cons] at h ⊢
        rcases h with h | h
        · exact .inr (.inl h)
        · exact (ih h).imp_right .inr

theorem rising_mput {k : Nat} {v : α} {m : Map α} (w : Rising m) : Rising (mput k v m) := by
  induction m with
  | nil => exact List.pairwise_singleton ..
  | cons b r ih =>
    have hb := rising_cons.1 w
    simp only [mput]
    split
    · subst k; exact rising_cons.2 hb
    · split
      · exact rising_cons.2 ⟨fun e he => by
          rcases List.mem_cons.1 he with rfl | he
          · assumption
          · exact lt_trans ‹_› (hb.1 e he), w⟩
      · refine rising_cons.2 ⟨fun e he => ?_, ih hb.2⟩
        rcases mem_mput he with rfl | he
        · simp only; omega
        · exact hb.1 e he

theorem rising_mset [DecidableEq α] {d : Nat → α} {k : Nat} {v : α} {m : Map α} (w : Rising m) :
    Rising (mset d k v m) := by
  induction m with
  | nil => simp only [mset]; split; exacts [rising_nil, List.pairwise_singleton ..]
  | cons b r ih =>
    have hb := rising_cons.1 w
    simp only [mset]
    split
    · subst k; split; exacts [hb.2, rising_cons.2 hb]
    · split
      · split
        · exact w
        · exact rising_cons.2 ⟨fun e he => by
            rcases List.mem_cons.1 he with rfl | he
            · assumption
            · exact lt_trans ‹_› (hb.1 e he), w⟩
      · refine rising_cons.2 ⟨fun e he => ?_, ih hb.2⟩
        rcases mem_mset he with ⟨rfl, -⟩ | he
        · simp only; omega
        · exact hb.1 e he

theorem rising_mdrop {p : Nat → Bool} {m : Map α} (w : Rising m) : Rising (mdrop p m) :=
  w.sublist (List.filter_sublist.map _)

theorem mwf_mset [DecidableEq α] {d : Nat → α} {k : Nat} {v : α} {m : Map α} (w : mwf d m = true) :
    mwf d (mset d k v m) = true := by
  rw [mwf_iff] at w ⊢
  refine ⟨rising_mset w.1, fun e he => ?_⟩
  rcases mem_mset he with ⟨rfl, h⟩ | he
  · exact h
  · exact w.2 e he

theorem mwf_mdrop [DecidableEq α] {d : Nat → α} {p : Nat → Bool} {m : Map α} (w : mwf d m = true) :
    mwf d (mdrop p m) = true := by
  rw [mwf_iff] at w ⊢
  exact ⟨rising_mdrop w.1, fun e he => w.2 e (List.mem_of_mem_filter he)⟩

theorem mwf_foldl_mset [DecidableEq α] {β : Type} {d : Nat → α} {f : β → Nat} {g : β → α} {l : List β} {m : Map α}
    (w : mwf d m = true) : mwf d (l.foldl (fun acc e => mset d (f e) (g e) acc) m) = true := by
  induction l generalizing m with
  | nil => exact w
  | cons a l ih => exact ih (mwf_mset w)

theorem mwf_mreplaceD [DecidableEq α] {d : Nat → α} {lo hi : Nat} {b m : Map α} (w : mwf d m = true) :
    mwf d (mreplaceD d lo hi b m) = true := mwf_foldl_mset (mwf_mdrop w)

theorem rising_foldl_mput {β : Type} {f : β → Nat} {g : β → α} {l : List β} {m : Map α}
    (w : Rising m) : Rising (l.foldl (fun acc e => mput (f e) (g e) acc) m) := by
  induction l generalizing m with
  | nil => exact w
  | cons a l ih => exact ih (rising_mput w)

/-! Reads after writes. -/

theorem mget_lt {d : Nat → α} {k : Nat} {m : Map α} (w : ∀ e ∈ m, k < e.1) : mget d k m = d k := by
  cases m with
  | nil => rfl
  | cons b r => simp [mget, w b (by simp), Nat.ne_of_lt]

/-- Reading the key just written gives the value written. -/
theorem mget_mset_self [DecidableEq α] {d : Nat → α} {k : Nat} {v : α} {m : Map α} (w : Rising m) :
    mget d k (mset d k v m) = v := by
  induction m with
  | nil => simp only [mset]; split <;> simp_all [mget]
  | cons b r ih =>
    have hb := rising_cons.1 w
    simp only [mset]
    split
    · subst k
      split
      · rw [mget_lt hb.1]; symm; assumption
      · simp [mget]
    · split
      · split
        · rw [mget_lt]
          · symm; assumption
          · intro e he
            rcases List.mem_cons.1 he with rfl | he
            · assumption
            · exact lt_trans ‹_› (hb.1 e he)
        · simp [mget]
      · simp [mget, *, ih hb.2]

/-- Every other key reads as before. -/
theorem mget_mset_ne [DecidableEq α] {d : Nat → α} {k j : Nat} {v : α} {m : Map α} (w : Rising m) (n : j ≠ k) :
    mget d j (mset d k v m) = mget d j m := by
  induction m with
  | nil =>
    simp only [mset]
    split
    · rfl
    · simp [mget, n]
  | cons b r ih =>
    have hb := rising_cons.1 w
    simp only [mset]
    split
    · subst k
      split
      · simp only [mget, n, if_false]
        split
        · exact mget_lt fun e he => lt_trans ‹_› (hb.1 e he)
        · rfl
      · simp [mget, n]
    · split
      · split
        · rfl
        · simp only [mget, n, if_false]
          split
          · rename_i hlt
            have : j < b.1 := lt_trans hlt ‹_›
            simp [this, Nat.ne_of_lt this]
          · rfl
      · simp only [mget]
        split
        · rfl
        · split
          · rfl
          · exact ih hb.2

theorem mfind_lt {k : Nat} {m : Map α} (w : ∀ e ∈ m, k < e.1) : mfind k m = none := by
  cases m with
  | nil => rfl
  | cons b r => simp [mfind, w b (by simp), Nat.ne_of_lt]

theorem mfind_mput_self {k : Nat} {v : α} {m : Map α} : mfind k (mput k v m) = some v := by
  induction m with
  | nil => simp [mput, mfind]
  | cons b r ih =>
    simp only [mput]
    split
    · simp [mfind]
    · split
      · simp [mfind]
      · simp [mfind, *]

theorem mfind_mput_ne {k j : Nat} {v : α} {m : Map α} (n : j ≠ k) : mfind j (mput k v m) = mfind j m := by
  induction m with
  | nil => simp [mput, mfind, n]
  | cons b r ih =>
    simp only [mput]
    split
    · subst k; simp [mfind, n]
    · split
      · rename_i hlt
        simp only [mfind, n, if_false]
        split
        · rename_i h
          have : j < b.1 := lt_trans h hlt
          simp [this, Nat.ne_of_lt this]
        · rfl
      · simp only [mfind]
        split
        · rfl
        · split
          · rfl
          · exact ih

end Sys2Proof.Machine
end

