-- ==== Sys2Proof/Laws/State.lean ====
section
/-! SUPPORT. One lemma per field of `State` per update: what an update leaves alone. -/

namespace Sys2Proof.Machine

variable (s : State)

@[simp] theorem setReg_pending (r i k v) : (setReg s r i k v).pending = s.pending := rfl
@[simp] theorem setReg_hbm (r i k v) : (setReg s r i k v).hbm = s.hbm := rfl
@[simp] theorem setReg_cores (r i k v) : (setReg s r i k v).cores = s.cores := rfl
@[simp] theorem setReg_ctl (r i k v) : (setReg s r i k v).ctl = s.ctl := rfl
@[simp] theorem setReg_progs (r i k v) : (setReg s r i k v).progs = s.progs := rfl
@[simp] theorem setReg_saves (r i k v) : (setReg s r i k v).saves = s.saves := rfl
@[simp] theorem setReg_links (r i k v) : (setReg s r i k v).links = s.links := rfl
@[simp] theorem setReg_weir (r i k v) : (setReg s r i k v).weir = s.weir := rfl
@[simp] theorem setReg_seamPause (r i k v) : (setReg s r i k v).seamPause = s.seamPause := rfl
@[simp] theorem setReg_ramp (r i k v) : (setReg s r i k v).ramp = s.ramp := rfl
@[simp] theorem setReg_owners (r i k v) : (setReg s r i k v).owners = s.owners := rfl
@[simp] theorem setReg_h0 (r i k v) : (setReg s r i k v).h0 = s.h0 := rfl
@[simp] theorem setReg_h1 (r i k v) : (setReg s r i k v).h1 = s.h1 := rfl
@[simp] theorem setReg_pins (r i k v) : (setReg s r i k v).pins = s.pins := rfl
@[simp] theorem setReg_resp (r i k v) : (setReg s r i k v).resp = s.resp := rfl
@[simp] theorem setReg_late (r i k v) : (setReg s r i k v).late = s.late := rfl
@[simp] theorem setReg_asked (r i k v) : (setReg s r i k v).asked = s.asked := rfl
@[simp] theorem setReg_free (r i k v) : (setReg s r i k v).free = s.free := rfl
@[simp] theorem setReg_boots (r i k v) : (setReg s r i k v).boots = s.boots := rfl
@[simp] theorem setReg_smears (r i k v) : (setReg s r i k v).smears = s.smears := rfl

@[simp] theorem putF_pending (f i v k) : (putF s f i v k).pending = s.pending := rfl
@[simp] theorem putF_hbm (f i v k) : (putF s f i v k).hbm = s.hbm := rfl
@[simp] theorem putF_cores (f i v k) : (putF s f i v k).cores = s.cores := rfl
@[simp] theorem putF_ctl (f i v k) : (putF s f i v k).ctl = s.ctl := rfl
@[simp] theorem putF_progs (f i v k) : (putF s f i v k).progs = s.progs := rfl
@[simp] theorem putF_saves (f i v k) : (putF s f i v k).saves = s.saves := rfl
@[simp] theorem putF_links (f i v k) : (putF s f i v k).links = s.links := rfl
@[simp] theorem putF_weir (f i v k) : (putF s f i v k).weir = s.weir := rfl
@[simp] theorem putF_seamPause (f i v k) : (putF s f i v k).seamPause = s.seamPause := rfl
@[simp] theorem putF_ramp (f i v k) : (putF s f i v k).ramp = s.ramp := rfl
@[simp] theorem putF_owners (f i v k) : (putF s f i v k).owners = s.owners := rfl
@[simp] theorem putF_h0 (f i v k) : (putF s f i v k).h0 = s.h0 := rfl
@[simp] theorem putF_h1 (f i v k) : (putF s f i v k).h1 = s.h1 := rfl
@[simp] theorem putF_pins (f i v k) : (putF s f i v k).pins = s.pins := rfl
@[simp] theorem putF_resp (f i v k) : (putF s f i v k).resp = s.resp := rfl
@[simp] theorem putF_late (f i v k) : (putF s f i v k).late = s.late := rfl
@[simp] theorem putF_asked (f i v k) : (putF s f i v k).asked = s.asked := rfl
@[simp] theorem putF_free (f i v k) : (putF s f i v k).free = s.free := rfl
@[simp] theorem putF_boots (f i v k) : (putF s f i v k).boots = s.boots := rfl
@[simp] theorem putF_smears (f i v k) : (putF s f i v k).smears = s.smears := rfl

@[simp] theorem bumpF_pending (f i n k) : (bumpF s f i n k).pending = s.pending := rfl
@[simp] theorem bumpF_hbm (f i n k) : (bumpF s f i n k).hbm = s.hbm := rfl
@[simp] theorem bumpF_cores (f i n k) : (bumpF s f i n k).cores = s.cores := rfl
@[simp] theorem bumpF_ctl (f i n k) : (bumpF s f i n k).ctl = s.ctl := rfl
@[simp] theorem bumpF_progs (f i n k) : (bumpF s f i n k).progs = s.progs := rfl
@[simp] theorem bumpF_saves (f i n k) : (bumpF s f i n k).saves = s.saves := rfl
@[simp] theorem bumpF_links (f i n k) : (bumpF s f i n k).links = s.links := rfl
@[simp] theorem bumpF_weir (f i n k) : (bumpF s f i n k).weir = s.weir := rfl
@[simp] theorem bumpF_seamPause (f i n k) : (bumpF s f i n k).seamPause = s.seamPause := rfl
@[simp] theorem bumpF_ramp (f i n k) : (bumpF s f i n k).ramp = s.ramp := rfl
@[simp] theorem bumpF_owners (f i n k) : (bumpF s f i n k).owners = s.owners := rfl
@[simp] theorem bumpF_h0 (f i n k) : (bumpF s f i n k).h0 = s.h0 := rfl
@[simp] theorem bumpF_h1 (f i n k) : (bumpF s f i n k).h1 = s.h1 := rfl
@[simp] theorem bumpF_pins (f i n k) : (bumpF s f i n k).pins = s.pins := rfl
@[simp] theorem bumpF_resp (f i n k) : (bumpF s f i n k).resp = s.resp := rfl
@[simp] theorem bumpF_late (f i n k) : (bumpF s f i n k).late = s.late := rfl
@[simp] theorem bumpF_asked (f i n k) : (bumpF s f i n k).asked = s.asked := rfl
@[simp] theorem bumpF_free (f i n k) : (bumpF s f i n k).free = s.free := rfl
@[simp] theorem bumpF_boots (f i n k) : (bumpF s f i n k).boots = s.boots := rfl
@[simp] theorem bumpF_smears (f i n k) : (bumpF s f i n k).smears = s.smears := rfl

@[simp] theorem answer_pending (a) : (answer s a).pending = s.pending := rfl
@[simp] theorem answer_mg (a) : (answer s a).mg = s.mg := rfl
@[simp] theorem answer_hbm (a) : (answer s a).hbm = s.hbm := rfl
@[simp] theorem answer_cores (a) : (answer s a).cores = s.cores := rfl
@[simp] theorem answer_ctl (a) : (answer s a).ctl = s.ctl := rfl
@[simp] theorem answer_progs (a) : (answer s a).progs = s.progs := rfl
@[simp] theorem answer_saves (a) : (answer s a).saves = s.saves := rfl
@[simp] theorem answer_links (a) : (answer s a).links = s.links := rfl
@[simp] theorem answer_weir (a) : (answer s a).weir = s.weir := rfl
@[simp] theorem answer_seamPause (a) : (answer s a).seamPause = s.seamPause := rfl
@[simp] theorem answer_ramp (a) : (answer s a).ramp = s.ramp := rfl
@[simp] theorem answer_owners (a) : (answer s a).owners = s.owners := rfl
@[simp] theorem answer_h0 (a) : (answer s a).h0 = s.h0 := rfl
@[simp] theorem answer_h1 (a) : (answer s a).h1 = s.h1 := rfl
@[simp] theorem answer_pins (a) : (answer s a).pins = s.pins := rfl
@[simp] theorem answer_late (a) : (answer s a).late = s.late := rfl
@[simp] theorem answer_asked (a) : (answer s a).asked = s.asked := rfl
@[simp] theorem answer_free (a) : (answer s a).free = s.free := rfl
@[simp] theorem answer_boots (a) : (answer s a).boots = s.boots := rfl
@[simp] theorem answer_smears (a) : (answer s a).smears = s.smears := rfl

@[simp] theorem accessError_pending : (accessError s).pending = s.pending := rfl
@[simp] theorem accessError_mg : (accessError s).mg = s.mg := rfl
@[simp] theorem accessError_hbm : (accessError s).hbm = s.hbm := rfl
@[simp] theorem accessError_cores : (accessError s).cores = s.cores := rfl
@[simp] theorem accessError_ctl : (accessError s).ctl = s.ctl := rfl
@[simp] theorem accessError_progs : (accessError s).progs = s.progs := rfl
@[simp] theorem accessError_saves : (accessError s).saves = s.saves := rfl
@[simp] theorem accessError_links : (accessError s).links = s.links := rfl
@[simp] theorem accessError_weir : (accessError s).weir = s.weir := rfl
@[simp] theorem accessError_seamPause : (accessError s).seamPause = s.seamPause := rfl
@[simp] theorem accessError_ramp : (accessError s).ramp = s.ramp := rfl
@[simp] theorem accessError_owners : (accessError s).owners = s.owners := rfl
@[simp] theorem accessError_h0 : (accessError s).h0 = s.h0 := rfl
@[simp] theorem accessError_h1 : (accessError s).h1 = s.h1 := rfl
@[simp] theorem accessError_pins : (accessError s).pins = s.pins := rfl
@[simp] theorem accessError_late : (accessError s).late = s.late := rfl
@[simp] theorem accessError_asked : (accessError s).asked = s.asked := rfl
@[simp] theorem accessError_free : (accessError s).free = s.free := rfl
@[simp] theorem accessError_boots : (accessError s).boots = s.boots := rfl
@[simp] theorem accessError_smears : (accessError s).smears = s.smears := rfl

@[simp] theorem setCtl_pending (u c) : (setCtl s u c).pending = s.pending := rfl
@[simp] theorem setCtl_mg (u c) : (setCtl s u c).mg = s.mg := rfl
@[simp] theorem setCtl_hbm (u c) : (setCtl s u c).hbm = s.hbm := rfl
@[simp] theorem setCtl_cores (u c) : (setCtl s u c).cores = s.cores := rfl
@[simp] theorem setCtl_progs (u c) : (setCtl s u c).progs = s.progs := rfl
@[simp] theorem setCtl_saves (u c) : (setCtl s u c).saves = s.saves := rfl
@[simp] theorem setCtl_links (u c) : (setCtl s u c).links = s.links := rfl
@[simp] theorem setCtl_weir (u c) : (setCtl s u c).weir = s.weir := rfl
@[simp] theorem setCtl_seamPause (u c) : (setCtl s u c).seamPause = s.seamPause := rfl
@[simp] theorem setCtl_ramp (u c) : (setCtl s u c).ramp = s.ramp := rfl
@[simp] theorem setCtl_owners (u c) : (setCtl s u c).owners = s.owners := rfl
@[simp] theorem setCtl_h0 (u c) : (setCtl s u c).h0 = s.h0 := rfl
@[simp] theorem setCtl_h1 (u c) : (setCtl s u c).h1 = s.h1 := rfl
@[simp] theorem setCtl_pins (u c) : (setCtl s u c).pins = s.pins := rfl
@[simp] theorem setCtl_resp (u c) : (setCtl s u c).resp = s.resp := rfl
@[simp] theorem setCtl_late (u c) : (setCtl s u c).late = s.late := rfl
@[simp] theorem setCtl_asked (u c) : (setCtl s u c).asked = s.asked := rfl
@[simp] theorem setCtl_free (u c) : (setCtl s u c).free = s.free := rfl
@[simp] theorem setCtl_boots (u c) : (setCtl s u c).boots = s.boots := rfl
@[simp] theorem setCtl_smears (u c) : (setCtl s u c).smears = s.smears := rfl

@[simp] theorem updCtl_pending (u f) : (updCtl s u f).pending = s.pending := rfl
@[simp] theorem updCtl_mg (u f) : (updCtl s u f).mg = s.mg := rfl
@[simp] theorem updCtl_hbm (u f) : (updCtl s u f).hbm = s.hbm := rfl
@[simp] theorem updCtl_cores (u f) : (updCtl s u f).cores = s.cores := rfl
@[simp] theorem updCtl_progs (u f) : (updCtl s u f).progs = s.progs := rfl
@[simp] theorem updCtl_saves (u f) : (updCtl s u f).saves = s.saves := rfl
@[simp] theorem updCtl_links (u f) : (updCtl s u f).links = s.links := rfl
@[simp] theorem updCtl_weir (u f) : (updCtl s u f).weir = s.weir := rfl
@[simp] theorem updCtl_seamPause (u f) : (updCtl s u f).seamPause = s.seamPause := rfl
@[simp] theorem updCtl_ramp (u f) : (updCtl s u f).ramp = s.ramp := rfl
@[simp] theorem updCtl_owners (u f) : (updCtl s u f).owners = s.owners := rfl
@[simp] theorem updCtl_h0 (u f) : (updCtl s u f).h0 = s.h0 := rfl
@[simp] theorem updCtl_h1 (u f) : (updCtl s u f).h1 = s.h1 := rfl
@[simp] theorem updCtl_pins (u f) : (updCtl s u f).pins = s.pins := rfl
@[simp] theorem updCtl_resp (u f) : (updCtl s u f).resp = s.resp := rfl
@[simp] theorem updCtl_late (u f) : (updCtl s u f).late = s.late := rfl
@[simp] theorem updCtl_asked (u f) : (updCtl s u f).asked = s.asked := rfl
@[simp] theorem updCtl_free (u f) : (updCtl s u f).free = s.free := rfl
@[simp] theorem updCtl_boots (u f) : (updCtl s u f).boots = s.boots := rfl
@[simp] theorem updCtl_smears (u f) : (updCtl s u f).smears = s.smears := rfl

@[simp] theorem setCore_pending (p c) : (setCore s p c).pending = s.pending := rfl
@[simp] theorem setCore_mg (p c) : (setCore s p c).mg = s.mg := rfl
@[simp] theorem setCore_hbm (p c) : (setCore s p c).hbm = s.hbm := rfl
@[simp] theorem setCore_ctl (p c) : (setCore s p c).ctl = s.ctl := rfl
@[simp] theorem setCore_progs (p c) : (setCore s p c).progs = s.progs := rfl
@[simp] theorem setCore_saves (p c) : (setCore s p c).saves = s.saves := rfl
@[simp] theorem setCore_links (p c) : (setCore s p c).links = s.links := rfl
@[simp] theorem setCore_weir (p c) : (setCore s p c).weir = s.weir := rfl
@[simp] theorem setCore_seamPause (p c) : (setCore s p c).seamPause = s.seamPause := rfl
@[simp] theorem setCore_ramp (p c) : (setCore s p c).ramp = s.ramp := rfl
@[simp] theorem setCore_owners (p c) : (setCore s p c).owners = s.owners := rfl
@[simp] theorem setCore_h0 (p c) : (setCore s p c).h0 = s.h0 := rfl
@[simp] theorem setCore_h1 (p c) : (setCore s p c).h1 = s.h1 := rfl
@[simp] theorem setCore_pins (p c) : (setCore s p c).pins = s.pins := rfl
@[simp] theorem setCore_resp (p c) : (setCore s p c).resp = s.resp := rfl
@[simp] theorem setCore_late (p c) : (setCore s p c).late = s.late := rfl
@[simp] theorem setCore_asked (p c) : (setCore s p c).asked = s.asked := rfl
@[simp] theorem setCore_free (p c) : (setCore s p c).free = s.free := rfl
@[simp] theorem setCore_boots (p c) : (setCore s p c).boots = s.boots := rfl
@[simp] theorem setCore_smears (p c) : (setCore s p c).smears = s.smears := rfl

@[simp] theorem setHbmByte_pending (a b) : (setHbmByte s a b).pending = s.pending := rfl
@[simp] theorem setHbmByte_mg (a b) : (setHbmByte s a b).mg = s.mg := rfl
@[simp] theorem setHbmByte_cores (a b) : (setHbmByte s a b).cores = s.cores := rfl
@[simp] theorem setHbmByte_ctl (a b) : (setHbmByte s a b).ctl = s.ctl := rfl
@[simp] theorem setHbmByte_progs (a b) : (setHbmByte s a b).progs = s.progs := rfl
@[simp] theorem setHbmByte_saves (a b) : (setHbmByte s a b).saves = s.saves := rfl
@[simp] theorem setHbmByte_links (a b) : (setHbmByte s a b).links = s.links := rfl
@[simp] theorem setHbmByte_weir (a b) : (setHbmByte s a b).weir = s.weir := rfl
@[simp] theorem setHbmByte_seamPause (a b) : (setHbmByte s a b).seamPause = s.seamPause := rfl
@[simp] theorem setHbmByte_ramp (a b) : (setHbmByte s a b).ramp = s.ramp := rfl
@[simp] theorem setHbmByte_owners (a b) : (setHbmByte s a b).owners = s.owners := rfl
@[simp] theorem setHbmByte_h0 (a b) : (setHbmByte s a b).h0 = s.h0 := rfl
@[simp] theorem setHbmByte_h1 (a b) : (setHbmByte s a b).h1 = s.h1 := rfl
@[simp] theorem setHbmByte_pins (a b) : (setHbmByte s a b).pins = s.pins := rfl
@[simp] theorem setHbmByte_resp (a b) : (setHbmByte s a b).resp = s.resp := rfl
@[simp] theorem setHbmByte_late (a b) : (setHbmByte s a b).late = s.late := rfl
@[simp] theorem setHbmByte_asked (a b) : (setHbmByte s a b).asked = s.asked := rfl
@[simp] theorem setHbmByte_free (a b) : (setHbmByte s a b).free = s.free := rfl
@[simp] theorem setHbmByte_boots (a b) : (setHbmByte s a b).boots = s.boots := rfl
@[simp] theorem setHbmByte_smears (a b) : (setHbmByte s a b).smears = s.smears := rfl

@[simp] theorem setHbmBytes_pending (a b) : (setHbmBytes s a b).pending = s.pending := rfl
@[simp] theorem setHbmBytes_mg (a b) : (setHbmBytes s a b).mg = s.mg := rfl
@[simp] theorem setHbmBytes_cores (a b) : (setHbmBytes s a b).cores = s.cores := rfl
@[simp] theorem setHbmBytes_ctl (a b) : (setHbmBytes s a b).ctl = s.ctl := rfl
@[simp] theorem setHbmBytes_progs (a b) : (setHbmBytes s a b).progs = s.progs := rfl
@[simp] theorem setHbmBytes_saves (a b) : (setHbmBytes s a b).saves = s.saves := rfl
@[simp] theorem setHbmBytes_links (a b) : (setHbmBytes s a b).links = s.links := rfl
@[simp] theorem setHbmBytes_weir (a b) : (setHbmBytes s a b).weir = s.weir := rfl
@[simp] theorem setHbmBytes_seamPause (a b) : (setHbmBytes s a b).seamPause = s.seamPause := rfl
@[simp] theorem setHbmBytes_ramp (a b) : (setHbmBytes s a b).ramp = s.ramp := rfl
@[simp] theorem setHbmBytes_owners (a b) : (setHbmBytes s a b).owners = s.owners := rfl
@[simp] theorem setHbmBytes_h0 (a b) : (setHbmBytes s a b).h0 = s.h0 := rfl
@[simp] theorem setHbmBytes_h1 (a b) : (setHbmBytes s a b).h1 = s.h1 := rfl
@[simp] theorem setHbmBytes_pins (a b) : (setHbmBytes s a b).pins = s.pins := rfl
@[simp] theorem setHbmBytes_resp (a b) : (setHbmBytes s a b).resp = s.resp := rfl
@[simp] theorem setHbmBytes_late (a b) : (setHbmBytes s a b).late = s.late := rfl
@[simp] theorem setHbmBytes_asked (a b) : (setHbmBytes s a b).asked = s.asked := rfl
@[simp] theorem setHbmBytes_free (a b) : (setHbmBytes s a b).free = s.free := rfl
@[simp] theorem setHbmBytes_boots (a b) : (setHbmBytes s a b).boots = s.boots := rfl
@[simp] theorem setHbmBytes_smears (a b) : (setHbmBytes s a b).smears = s.smears := rfl

@[simp] theorem setHalf_pending (h x) : (setHalf s h x).pending = s.pending := by unfold setHalf; split <;> rfl
@[simp] theorem setHalf_mg (h x) : (setHalf s h x).mg = s.mg := by unfold setHalf; split <;> rfl
@[simp] theorem setHalf_hbm (h x) : (setHalf s h x).hbm = s.hbm := by unfold setHalf; split <;> rfl
@[simp] theorem setHalf_cores (h x) : (setHalf s h x).cores = s.cores := by unfold setHalf; split <;> rfl
@[simp] theorem setHalf_ctl (h x) : (setHalf s h x).ctl = s.ctl := by unfold setHalf; split <;> rfl
@[simp] theorem setHalf_progs (h x) : (setHalf s h x).progs = s.progs := by unfold setHalf; split <;> rfl
@[simp] theorem setHalf_saves (h x) : (setHalf s h x).saves = s.saves := by unfold setHalf; split <;> rfl
@[simp] theorem setHalf_links (h x) : (setHalf s h x).links = s.links := by unfold setHalf; split <;> rfl
@[simp] theorem setHalf_weir (h x) : (setHalf s h x).weir = s.weir := by unfold setHalf; split <;> rfl
@[simp] theorem setHalf_seamPause (h x) : (setHalf s h x).seamPause = s.seamPause := by unfold setHalf; split <;> rfl
@[simp] theorem setHalf_ramp (h x) : (setHalf s h x).ramp = s.ramp := by unfold setHalf; split <;> rfl
@[simp] theorem setHalf_owners (h x) : (setHalf s h x).owners = s.owners := by unfold setHalf; split <;> rfl
@[simp] theorem setHalf_pins (h x) : (setHalf s h x).pins = s.pins := by unfold setHalf; split <;> rfl
@[simp] theorem setHalf_resp (h x) : (setHalf s h x).resp = s.resp := by unfold setHalf; split <;> rfl
@[simp] theorem setHalf_late (h x) : (setHalf s h x).late = s.late := by unfold setHalf; split <;> rfl
@[simp] theorem setHalf_asked (h x) : (setHalf s h x).asked = s.asked := by unfold setHalf; split <;> rfl
@[simp] theorem setHalf_free (h x) : (setHalf s h x).free = s.free := by unfold setHalf; split <;> rfl
@[simp] theorem setHalf_boots (h x) : (setHalf s h x).boots = s.boots := by unfold setHalf; split <;> rfl
@[simp] theorem setHalf_smears (h x) : (setHalf s h x).smears = s.smears := by unfold setHalf; split <;> rfl
@[simp] theorem updHalf_pending (h f) : (updHalf s h f).pending = s.pending := setHalf_pending _ _ _
@[simp] theorem updHalf_mg (h f) : (updHalf s h f).mg = s.mg := setHalf_mg _ _ _
@[simp] theorem updHalf_hbm (h f) : (updHalf s h f).hbm = s.hbm := setHalf_hbm _ _ _
@[simp] theorem updHalf_cores (h f) : (updHalf s h f).cores = s.cores := setHalf_cores _ _ _
@[simp] theorem updHalf_ctl (h f) : (updHalf s h f).ctl = s.ctl := setHalf_ctl _ _ _
@[simp] theorem updHalf_progs (h f) : (updHalf s h f).progs = s.progs := setHalf_progs _ _ _
@[simp] theorem updHalf_saves (h f) : (updHalf s h f).saves = s.saves := setHalf_saves _ _ _
@[simp] theorem updHalf_links (h f) : (updHalf s h f).links = s.links := setHalf_links _ _ _
@[simp] theorem updHalf_weir (h f) : (updHalf s h f).weir = s.weir := setHalf_weir _ _ _
@[simp] theorem updHalf_seamPause (h f) : (updHalf s h f).seamPause = s.seamPause := setHalf_seamPause _ _ _
@[simp] theorem updHalf_ramp (h f) : (updHalf s h f).ramp = s.ramp := setHalf_ramp _ _ _
@[simp] theorem updHalf_owners (h f) : (updHalf s h f).owners = s.owners := setHalf_owners _ _ _
@[simp] theorem updHalf_pins (h f) : (updHalf s h f).pins = s.pins := setHalf_pins _ _ _
@[simp] theorem updHalf_resp (h f) : (updHalf s h f).resp = s.resp := setHalf_resp _ _ _
@[simp] theorem updHalf_late (h f) : (updHalf s h f).late = s.late := setHalf_late _ _ _
@[simp] theorem updHalf_asked (h f) : (updHalf s h f).asked = s.asked := setHalf_asked _ _ _
@[simp] theorem updHalf_free (h f) : (updHalf s h f).free = s.free := setHalf_free _ _ _
@[simp] theorem updHalf_boots (h f) : (updHalf s h f).boots = s.boots := setHalf_boots _ _ _
@[simp] theorem updHalf_smears (h f) : (updHalf s h f).smears = s.smears := setHalf_smears _ _ _

/-! The values written. -/

@[simp] theorem answer_resp (a) : (answer s a).resp = a := rfl
@[simp] theorem accessError_resp : (accessError s).resp = .accessError := rfl

@[simp] theorem half_setHalf_self (h x) : half (setHalf s h x) h = x := by unfold setHalf half; split <;> rfl

/-- The other half is untouched. -/
theorem half_setHalf_ne {h k x} (n : (h = 0) ≠ (k = 0)) : half (setHalf s h x) k = half s k := by
  unfold setHalf half
  by_cases h = 0 <;> by_cases k = 0 <;> simp_all

@[simp] theorem half_updHalf_self (h f) : half (updHalf s h f) h = f (half s h) := half_setHalf_self ..

theorem half_updHalf_ne {h k f} (n : (h = 0) ≠ (k = 0)) : half (updHalf s h f) k = half s k := half_setHalf_ne s n

theorem setHalf_setHalf (h x y) : setHalf (setHalf s h x) h y = setHalf s h y := by
  unfold setHalf; split <;> rfl

@[simp] theorem half_setReg (r i k v) (h) : half (setReg s r i k v) h = half s h := rfl
@[simp] theorem half_putF (f i v k) (h) : half (putF s f i v k) h = half s h := rfl
@[simp] theorem half_bumpF (f i n k) (h) : half (bumpF s f i n k) h = half s h := rfl
@[simp] theorem half_answer (a) (h) : half (answer s a) h = half s h := rfl
@[simp] theorem half_accessError (h) : half (accessError s) h = half s h := rfl
@[simp] theorem half_setCtl (u c) (h) : half (setCtl s u c) h = half s h := rfl
@[simp] theorem half_updCtl (u f) (h) : half (updCtl s u f) h = half s h := rfl
@[simp] theorem half_setCore (p c) (h) : half (setCore s p c) h = half s h := rfl
@[simp] theorem half_setHbmByte (a b) (h) : half (setHbmByte s a b) h = half s h := rfl
@[simp] theorem half_setHbmBytes (a b) (h) : half (setHbmBytes s a b) h = half s h := rfl
@[simp] theorem getCtl_setReg (r i k v) (u) : getCtl (setReg s r i k v) u = getCtl s u := rfl
@[simp] theorem getCtl_putF (f i v k) (u) : getCtl (putF s f i v k) u = getCtl s u := rfl
@[simp] theorem getCtl_bumpF (f i n k) (u) : getCtl (bumpF s f i n k) u = getCtl s u := rfl
@[simp] theorem getCtl_answer (a) (u) : getCtl (answer s a) u = getCtl s u := rfl
@[simp] theorem getCtl_accessError (u) : getCtl (accessError s) u = getCtl s u := rfl
@[simp] theorem getCtl_setCore (p c) (u) : getCtl (setCore s p c) u = getCtl s u := rfl
@[simp] theorem getCtl_setHbmByte (a b) (u) : getCtl (setHbmByte s a b) u = getCtl s u := rfl
@[simp] theorem getCtl_setHbmBytes (a b) (u) : getCtl (setHbmBytes s a b) u = getCtl s u := rfl
@[simp] theorem getCore_setReg (r i k v) (q) : getCore (setReg s r i k v) q = getCore s q := rfl
@[simp] theorem getCore_putF (f i v k) (q) : getCore (putF s f i v k) q = getCore s q := rfl
@[simp] theorem getCore_bumpF (f i n k) (q) : getCore (bumpF s f i n k) q = getCore s q := rfl
@[simp] theorem getCore_answer (a) (q) : getCore (answer s a) q = getCore s q := rfl
@[simp] theorem getCore_accessError (q) : getCore (accessError s) q = getCore s q := rfl
@[simp] theorem getCore_setCtl (u c) (q) : getCore (setCtl s u c) q = getCore s q := rfl
@[simp] theorem getCore_updCtl (u f) (q) : getCore (updCtl s u f) q = getCore s q := rfl
@[simp] theorem getCore_setHbmByte (a b) (q) : getCore (setHbmByte s a b) q = getCore s q := rfl
@[simp] theorem getCore_setHbmBytes (a b) (q) : getCore (setHbmBytes s a b) q = getCore s q := rfl
@[simp] theorem reg_answer (a) (q j m) : reg (answer s a) q j m = reg s q j m := rfl
@[simp] theorem getF_answer (a) (q j m) : getF (answer s a) q j m = getF s q j m := rfl
@[simp] theorem reg_accessError (q j m) : reg (accessError s) q j m = reg s q j m := rfl
@[simp] theorem getF_accessError (q j m) : getF (accessError s) q j m = getF s q j m := rfl
@[simp] theorem reg_setCtl (u c) (q j m) : reg (setCtl s u c) q j m = reg s q j m := rfl
@[simp] theorem getF_setCtl (u c) (q j m) : getF (setCtl s u c) q j m = getF s q j m := rfl
@[simp] theorem reg_updCtl (u f) (q j m) : reg (updCtl s u f) q j m = reg s q j m := rfl
@[simp] theorem getF_updCtl (u f) (q j m) : getF (updCtl s u f) q j m = getF s q j m := rfl
@[simp] theorem reg_setCore (p c) (q j m) : reg (setCore s p c) q j m = reg s q j m := rfl
@[simp] theorem getF_setCore (p c) (q j m) : getF (setCore s p c) q j m = getF s q j m := rfl
@[simp] theorem reg_setHbmByte (a b) (q j m) : reg (setHbmByte s a b) q j m = reg s q j m := rfl
@[simp] theorem getF_setHbmByte (a b) (q j m) : getF (setHbmByte s a b) q j m = getF s q j m := rfl
@[simp] theorem reg_setHbmBytes (a b) (q j m) : reg (setHbmBytes s a b) q j m = reg s q j m := rfl
@[simp] theorem getF_setHbmBytes (a b) (q j m) : getF (setHbmBytes s a b) q j m = getF s q j m := rfl
@[simp] theorem reg_setHalf (h x) (q j m) : reg (setHalf s h x) q j m = reg s q j m := by simp [reg]
@[simp] theorem getF_setHalf (h x) (q j m) : getF (setHalf s h x) q j m = getF s q j m := by simp [getF]
@[simp] theorem getCtl_setHalf (h x) (u) : getCtl (setHalf s h x) u = getCtl s u := by simp [getCtl]
@[simp] theorem getCore_setHalf (h x) (q) : getCore (setHalf s h x) q = getCore s q := by simp [getCore]
@[simp] theorem reg_updHalf (h f) (q j m) : reg (updHalf s h f) q j m = reg s q j m := by simp [reg]
@[simp] theorem getF_updHalf (h f) (q j m) : getF (updHalf s h f) q j m = getF s q j m := by simp [getF]
@[simp] theorem getCtl_updHalf (h f) (u) : getCtl (updHalf s h f) u = getCtl s u := by simp [getCtl]
@[simp] theorem getCore_updHalf (h f) (q) : getCore (updHalf s h f) q = getCore s q := by simp [getCore]

/-! Registers, streams, cores and bytes: reads after writes. -/

theorem regs_rising {s : State} (w : mwf mgDefault s.mg = true) : Rising s.mg := (mwf_iff.1 w).1

theorem reg_setReg_self {s : State} (w : Rising s.mg) (r i k v) : reg (setReg s r i k v) r i k = v :=
  mget_mset_self w

theorem word_setReg_ne {s : State} {a : Nat} (w : Rising s.mg) (r i k v) (n : a ≠ regAddr r i k) :
    mget mgDefault a (setReg s r i k v).mg = mget mgDefault a s.mg := mget_mset_ne w n

theorem reg_setReg_ne {s : State} (w : Rising s.mg) {r i k v r' i' k'} (n : regAddr r' i' k' ≠ regAddr r i k) :
    reg (setReg s r i k v) r' i' k' = reg s r' i' k' := mget_mset_ne w n

theorem rising_setReg {s : State} (w : Rising s.mg) (r i k v) : Rising (setReg s r i k v).mg := rising_mset w
theorem rising_putF {s : State} (w : Rising s.mg) (f i v k) : Rising (putF s f i v k).mg := rising_mset w
theorem rising_bumpF {s : State} (w : Rising s.mg) (f i n k) : Rising (bumpF s f i n k).mg := rising_mset w

theorem getCtl_setCtl_self {s : State} (w : Rising s.ctl) (u c) : getCtl (setCtl s u c) u = c := mget_mset_self w

theorem getCtl_setCtl_ne {s : State} (w : Rising s.ctl) {u u' c} (n : procNum u' ≠ procNum u) :
    getCtl (setCtl s u c) u' = getCtl s u' := mget_mset_ne w n

theorem getCore_setCore_self {s : State} (w : Rising s.cores) (p c) : getCore (setCore s p c) p = c := mget_mset_self w

theorem getCore_setCore_ne {s : State} (w : Rising s.cores) {p q c} (n : q ≠ p) :
    getCore (setCore s p c) q = getCore s q := mget_mset_ne w n

@[simp] theorem hbmByte_setHbmByte_self (a b) : hbmByte (setHbmByte s a b) a = b := by
  simp [hbmByte, setHbmByte, mfind_mput_self]

theorem hbmByte_setHbmByte_ne {a b x} (n : x ≠ a) : hbmByte (setHbmByte s a b) x = hbmByte s x := by
  simp [hbmByte, unlistedByte, setHbmByte, mfind_mput_ne n]

/-- Bytes outside [a, a + |bs|) read as before. -/
theorem hbmByte_setHbmBytes_ne {a bs x} (n : x < a ∨ a + bs.length ≤ x) : hbmByte (setHbmBytes s a bs) x = hbmByte s x := by
  have key : ∀ (bs : List Byte) (a : Nat) (m : Map Byte), (x < a ∨ a + bs.length ≤ x) →
      mfind x ((bs.zipIdx a).foldl (fun m e => mput e.2 e.1 m) m) = mfind x m := by
    intro bs
    induction bs with
    | nil => intro a m _; rfl
    | cons b r ih =>
      intro a m n
      simp only [List.zipIdx_cons, List.foldl_cons, List.length_cons] at n ⊢
      rw [ih (a + 1) _ (by omega), mfind_mput_ne (by omega)]
  simp [hbmByte, unlistedByte, setHbmBytes, key bs a s.hbm n]

/-- Byte i of the bytes stored at a. -/
theorem hbmByte_setHbmBytes {a bs i} (n : i < bs.length) : hbmByte (setHbmBytes s a bs) (a + i) = bs.getD i 0 := by
  have key : ∀ (bs : List Byte) (a : Nat) (m : Map Byte) (i : Nat), i < bs.length →
      mfind (a + i) ((bs.zipIdx a).foldl (fun m e => mput e.2 e.1 m) m) = some (bs.getD i 0) := by
    intro bs
    induction bs with
    | nil => intro a m i n; simp at n
    | cons b r ih =>
      intro a m i n
      simp only [List.zipIdx_cons, List.foldl_cons]
      cases i with
      | zero =>
        have : ∀ (bs : List Byte) (c : Nat) (m : Map Byte), a < c →
            mfind a ((bs.zipIdx c).foldl (fun m e => mput e.2 e.1 m) m) = mfind a m := by
          intro bs
          induction bs with
          | nil => intro c m _; rfl
          | cons b r ih =>
            intro c m hc
            simp only [List.zipIdx_cons, List.foldl_cons]
            rw [ih (c + 1) _ (by omega), mfind_mput_ne (by omega)]
        simp [this r (a + 1) _ (by omega), mfind_mput_self]
      | succ i =>
        have := ih (a + 1) (mput a b m) i (by simpa using n)
        rw [Nat.add_right_comm] at this
        simpa [Nat.add_assoc, Nat.add_comm 1 i] using this
  simp [hbmByte, setHbmBytes, key bs a s.hbm i n]

/-! Updates in place. -/

theorem mset_mset {α : Type} [DecidableEq α] {d : Nat → α} {k : Nat} {v x : α} {m : Map α} (w : Rising m) :
    mset d k v (mset d k x m) = mset d k v m := by
  induction m with
  | nil =>
    simp only [mset]
    split <;> simp_all [mset]
  | cons b r ih =>
    have hb := rising_cons.1 w
    have skip : ∀ {r : Map α}, (∀ e ∈ r, b.1 < e.1) → mset d b.1 v r = if v = d b.1 then r else (b.1, v) :: r := by
      intro r hr
      cases r with
      | nil => rfl
      | cons e r => simp [mset, hr e (by simp), Nat.ne_of_lt (hr e (by simp))]
    simp only [mset]
    split
    · subst k
      split
      · exact skip hb.1
      · simp [mset]
    · split
      · split
        · simp only [mset]; simp [*]
        · simp [mset]
      · simp [mset, *, ih hb.2]

theorem setCtl_setCtl {s : State} (w : Rising s.ctl) (u c d) : setCtl (setCtl s u c) u d = setCtl s u d := by
  simp [setCtl, mset_mset w]

theorem updCtl_updCtl {s : State} (w : Rising s.ctl) (u f g) : updCtl (updCtl s u f) u g = updCtl s u (g ∘ f) := by
  simp [updCtl, getCtl_setCtl_self w, setCtl_setCtl w]

end Sys2Proof.Machine
end

