-- ==== Sys2Proof/Laws/Access.lean ====
section
/-! SUPPORT. What a register command does: it is refused with the code of the gate, or its own rules apply. -/

namespace Sys2Proof.Machine

/-- An access the gate lets through is carried out. -/
theorem guarded_none {s : State} {b : Requester} {r : Reg} {i k : Nat} {f : State → State}
    (g : gate s b true (regAddr r i k) = none) : guarded s b r i k f = f s := by
  unfold guarded; rw [g]

/-- An access the gate refuses changes the answer alone. -/
theorem guarded_some {s : State} {b : Requester} {r : Reg} {i k : Nat} {f : State → State} {c : BitVec 8}
    (g : gate s b true (regAddr r i k) = some c) : guarded s b r i k f = refuseAcc s b c := by
  unfold guarded; rw [g]

/-- A refusal changes the answer alone. -/
theorem refuseAcc_eq (s : State) (b : Requester) (c : BitVec 8) :
    refuseAcc s b c = { s with resp := (refuseAcc s b c).resp } := by
  cases b <;> rfl

theorem denied_eq (s : State) (b : Requester) : denied s b = { s with resp := (denied s b).resp } := refuseAcc_eq ..

end Sys2Proof.Machine
end

