-- ==== Sys2Proof/Laws/Keeps.lean ====
section
/-! SUPPORT. `Keeps r s`: a state reached from r has r's queue, and its stores are canonical if those of r are. One rule
per form a meaning is built from. -/

namespace Sys2Proof.Machine

theorem memory_wf_iff {m : List Host.Cell} : Memory.wf m = true ↔ Rising m := by simp [Memory.wf, Rising]

/-- What every operation keeps, from state r to state s. -/
def Keeps (r s : State) : Prop := s.pending = r.pending ∧ (r.Canon → s.Canon)

def KeepsO (r : State) (o : Option State) : Prop := ∀ s, o = some s → Keeps r s
def KeepsP {α : Type} (r : State) (o : Option (State × α)) : Prop := ∀ p, o = some p → Keeps r p.1
def KeepsX (r : State) (o : Host.Outcome State Fault Refusal) : Prop := ∀ s, o = .next s → Keeps r s

variable {r s t : State} {α β : Type} {c : Prop} [Decidable c]

theorem Keeps.refl : Keeps r r := ⟨rfl, id⟩

theorem Keeps.trans {u : State} (a : Keeps r s) (b : Keeps s u) : Keeps r u := ⟨b.1.trans a.1, b.2 ∘ a.2⟩

theorem keeps_ite (a : Keeps r s) (b : Keeps r t) : Keeps r (if c then s else t) := by split <;> assumption

theorem keeps_ite1 {p q : State × α} (a : Keeps r p.1) (b : Keeps r q.1) : Keeps r (if c then p else q).1 := by
  split <;> assumption

theorem keeps_ite2 {p q : α × State} (a : Keeps r p.2) (b : Keeps r q.2) : Keeps r (if c then p else q).2 := by
  split <;> assumption

theorem keeps_iteO {p q : Option State} (a : KeepsO r p) (b : KeepsO r q) : KeepsO r (if c then p else q) := by
  split <;> assumption

theorem keeps_iteP {p q : Option (State × α)} (a : KeepsP r p) (b : KeepsP r q) : KeepsP r (if c then p else q) := by
  split <;> assumption

theorem keepsO_some (a : Keeps r s) : KeepsO r (some s) := fun _ e => by cases e; exact a
theorem keepsO_none : KeepsO r none := fun _ e => by cases e
theorem keepsP_some {p : State × α} (a : Keeps r p.1) : KeepsP r (some p) := fun _ e => by cases e; exact a
theorem keepsP_none : KeepsP (α := α) r none := fun _ e => by cases e
theorem keepsX_next (a : Keeps r s) : KeepsX r (.next s) := fun _ e => by cases e; exact a

theorem keeps_of_eq1 {p : State × α} {x : α} (e : p = (s, x)) (h : Keeps r p.1) : Keeps r s := by subst e; exact h
theorem keeps_of_eq2 {p : α × State} {x : α} (e : p = (x, s)) (h : Keeps r p.2) : Keeps r s := by subst e; exact h
theorem keeps_of_eqO {p : Option State} (e : p = some s) (h : KeepsO r p) : Keeps r s := h s e
theorem keeps_of_eqP {p : Option (State × α)} {x : α} (e : p = some (s, x)) (h : KeepsP r p) : Keeps r s := h _ e

theorem keeps_foldl {f : State → β → State} {l : List β} (a : Keeps r s) (g : ∀ t x, Keeps r t → Keeps r (f t x)) :
    Keeps r (l.foldl f s) := by
  induction l generalizing s with
  | nil => exact a
  | cons b l ih => exact ih (g _ _ a)

theorem keeps_foldl1 {f : State × α → β → State × α} {l : List β} {p : State × α} (a : Keeps r p.1)
    (g : ∀ q x, Keeps r q.1 → Keeps r (f q x).1) : Keeps r (l.foldl f p).1 := by
  induction l generalizing p with
  | nil => exact a
  | cons b l ih => exact ih (g _ _ a)

theorem keeps_foldl2 {f : α × State → β → α × State} {l : List β} {p : α × State} (a : Keeps r p.2)
    (g : ∀ q x, Keeps r q.2 → Keeps r (f q x).2) : Keeps r (l.foldl f p).2 := by
  induction l generalizing p with
  | nil => exact a
  | cons b l ih => exact ih (g _ _ a)

/-- A new state that takes the queue and the five stores from s keeps them. -/
theorem keeps_mk (h : Keeps r s) {progs saves weir seamPause ramp owners h0 h1 pins resp late asked free boots smears} :
    Keeps r ⟨s.pending, s.mg, s.hbm, s.cores, s.ctl, progs, saves, s.links, weir, seamPause, ramp, owners, h0, h1, pins,
      resp, late, asked, free, boots, smears⟩ :=
  ⟨h.1, fun w => ⟨(h.2 w).mg, (h.2 w).hbm, (h.2 w).cores, (h.2 w).ctl, (h.2 w).links⟩⟩

/-- A new state whose stores come from canonical operations on those of s keeps them. -/
theorem keeps_mkAll (h : Keeps r s) {mg hbm cores ctl links progs saves weir seamPause ramp owners h0 h1 pins resp late asked
    free boots smears}
    (m : mwf mgDefault s.mg = true → mwf mgDefault mg = true) (b : Rising s.hbm → Rising hbm)
    (co : mwf (fun _ => coreZero) s.cores = true → mwf (fun _ => coreZero) cores = true)
    (ct : mwf (fun _ => ctlZero) s.ctl = true → mwf (fun _ => ctlZero) ctl = true)
    (l : mwf (fun _ => linkZero) s.links = true → mwf (fun _ => linkZero) links = true) :
    Keeps r ⟨s.pending, mg, hbm, cores, ctl, progs, saves, links, weir, seamPause, ramp, owners, h0, h1, pins,
      resp, late, asked, free, boots, smears⟩ :=
  ⟨h.1, fun w => ⟨m (h.2 w).mg, memory_wf_iff.2 (b (memory_wf_iff.1 (h.2 w).hbm)), co (h.2 w).cores, ct (h.2 w).ctl,
    l (h.2 w).links⟩⟩

end Sys2Proof.Machine
end

