-- ==== Sys2Proof/Laws/KeepsOps.lean ====
section
/-! SUPPORT. What each operation of Machine/Ops.lean keeps. -/

namespace Sys2Proof.Machine

variable {r : State}

theorem keeps_setReg {s1} {a1} {a2} {a3} {a4} (h1 : Keeps r s1) :
    Keeps r (setReg s1 a1 a2 a3 a4) := by
  unfold setReg
  exact (keeps_mkAll h1 (fun w => (mwf_mset w)) id id id id)

theorem keeps_putF {s1} {a1} {a2} {a3} {a4} (h1 : Keeps r s1) :
    Keeps r (putF s1 a1 a2 a3 a4) := by
  unfold putF
  exact (keeps_setReg h1)

theorem keeps_bumpF {s1} {a1} {a2} {a3} {a4} (h1 : Keeps r s1) :
    Keeps r (bumpF s1 a1 a2 a3 a4) := by
  unfold bumpF
  exact (keeps_putF h1)

theorem keeps_answer {s1} {a1} (h1 : Keeps r s1) :
    Keeps r (answer s1 a1) := by
  unfold answer
  exact (keeps_mk h1)

theorem keeps_accessError {s} (h : Keeps r s) :
    Keeps r (accessError s) := by
  unfold accessError
  exact (keeps_mk h)

theorem keeps_fresh {s} (h : Keeps r s) :
    Keeps r (fresh s).2 := by
  unfold fresh
  exact (keeps_mk h)

theorem keeps_setHalf {s1} {a1} {a2} (h1 : Keeps r s1) :
    Keeps r (setHalf s1 a1 a2) := by
  unfold setHalf
  exact (keeps_ite (keeps_mk h1) (keeps_mk h1))

theorem keeps_updHalf {s1} {a1} {a2} (h1 : Keeps r s1) :
    Keeps r (updHalf s1 a1 a2) := by
  unfold updHalf
  exact (keeps_setHalf h1)

theorem keeps_setCtl {s1} {a1} {a2} (h1 : Keeps r s1) :
    Keeps r (setCtl s1 a1 a2) := by
  unfold setCtl
  exact (keeps_mkAll h1 id id id (fun w => (mwf_mset w)) id)

theorem keeps_updCtl {s1} {a1} {a2} (h1 : Keeps r s1) :
    Keeps r (updCtl s1 a1 a2) := by
  unfold updCtl
  exact (keeps_setCtl h1)

theorem keeps_setCore {s1} {a1} {a2} (h1 : Keeps r s1) :
    Keeps r (setCore s1 a1 a2) := by
  unfold setCore
  exact (keeps_mkAll h1 id id (fun w => (mwf_mset w)) id id)

theorem keeps_setHbmByte {s1} {a1} {a2} (h1 : Keeps r s1) :
    Keeps r (setHbmByte s1 a1 a2) := by
  unfold setHbmByte
  exact (keeps_mkAll h1 id (fun w => (rising_mput w)) id id id)

theorem keeps_setHbmBytes {s1} {a1} {a2} (h1 : Keeps r s1) :
    Keeps r (setHbmBytes s1 a1 a2) := by
  unfold setHbmBytes
  exact keeps_mkAll h1 id (fun w => rising_foldl_mput w) id id id

theorem keeps_setHbmWord {s1} {a1} {a2} (h1 : Keeps r s1) :
    Keeps r (setHbmWord s1 a1 a2) := by
  unfold setHbmWord
  exact (keeps_setHbmBytes h1)

theorem keeps_updPlace {s1} {a1} {a2} {a3} (h1 : Keeps r s1) :
    Keeps r (updPlace s1 a1 a2 a3) := by
  unfold updPlace
  extract_lets -merge -underBinder +onlyGivenNames x20
  clear_value x20
  exact (keeps_setCore h1)

theorem keeps_addFlags {s1} {a1} {a2} (h1 : Keeps r s1) :
    Keeps r (addFlags s1 a1 a2) := by
  unfold addFlags
  refine keeps_ite ?_ ?_
  · exact h1
  · extract_lets -merge -underBinder +onlyGivenNames x20 x21
    have h21 : Keeps r x21 := (keeps_setReg h1)
    clear_value x20 x21
    exact (keeps_bumpF h21)

end Sys2Proof.Machine
end

