-- ==== Sys2Proof/Laws/KeepsSeq.lean ====
section
/-! SUPPORT. What each operation of Machine/Seq.lean keeps. -/

namespace Sys2Proof.Machine

variable {r : State}

theorem keeps_setGangState {s1} {a1} {a2} (h1 : Keeps r s1) :
    Keeps r (setGangState s1 a1 a2) := by
  unfold setGangState
  exact (keeps_putF h1)

theorem keeps_setSeq {s1} {a1} {a2} (h1 : Keeps r s1) :
    Keeps r (setSeq s1 a1 a2) := by
  unfold setSeq
  exact (keeps_setCtl h1)

theorem keeps_updSeq {s1} {a1} {a2} (h1 : Keeps r s1) :
    Keeps r (updSeq s1 a1 a2) := by
  unfold updSeq
  exact (keeps_setSeq h1)

theorem keeps_landPatches {s1} {a1} {a2} (h1 : Keeps r s1) :
    Keeps r (landPatches s1 a1 a2) := by
  unfold landPatches
  extract_lets -merge -underBinder +onlyGivenNames x20
  clear_value x20
  refine keeps_ite ?_ ?_
  · exact h1
  · extract_lets -merge -underBinder +onlyGivenNames x21
    have h21 : Keeps r x21 := (keeps_foldl h1 (fun _ _ h22 => (keeps_setReg h22)))
    clear_value x21
    exact (keeps_updSeq h21)

theorem keeps_landAll {s1} {a1} (h1 : Keeps r s1) :
    Keeps r (landAll s1 a1) := by
  unfold landAll
  exact (keeps_foldl h1 (fun _ _ h20 => (keeps_landPatches h20)))

theorem keeps_dropPostings {s1} {a1} (h1 : Keeps r s1) :
    Keeps r (dropPostings s1 a1) := by
  unfold dropPostings
  exact (keeps_foldl h1 (fun _ _ h20 => (keeps_updCtl h20)))

theorem keeps_haltGang {s1} {a1} {a2} {a3} {a4} {a5} (h1 : Keeps r s1) :
    Keeps r (haltGang s1 a1 a2 a3 a4 a5) := by
  unfold haltGang
  extract_lets -merge -underBinder +onlyGivenNames x20 x21 x22 x23 x24 x25 x26 x27 x28 x29
  have h21 : Keeps r x21 := (keeps_dropPostings (keeps_updSeq (keeps_landAll h1)))
  have h22 : Keeps r x22 := (keeps_putF h21)
  have h23 : Keeps r x23 := (keeps_putF h22)
  have h24 : Keeps r x24 := (keeps_putF h23)
  have h25 : Keeps r x25 := (keeps_putF h24)
  have h26 : Keeps r x26 := (keeps_putF h25)
  have h27 : Keeps r x27 := (keeps_putF h26)
  have h29 : Keeps r x29 := (keeps_ite (keeps_putF h27) h27)
  clear_value x20 x21 x22 x23 x24 x25 x26 x27 x28 x29
  exact (keeps_setGangState h29)

theorem keeps_logSkip {s1} {a1} {a2} {a3} {a4} {a5} (h1 : Keeps r s1) :
    Keeps r (logSkip s1 a1 a2 a3 a4 a5) := by
  unfold logSkip
  extract_lets -merge -underBinder +onlyGivenNames x20 x21 x22 x23 x24 x25
  have h23 : Keeps r x23 := (keeps_setReg h1)
  have h24 : Keeps r x24 := (keeps_setReg h23)
  have h25 : Keeps r x25 := (keeps_ite (keeps_bumpF h24) h24)
  clear_value x20 x21 x22 x23 x24 x25
  exact (keeps_putF (keeps_bumpF h25))

theorem keeps_paceAnchor {s1} {a1} (h1 : Keeps r s1) :
    Keeps r (paceAnchor s1 a1) := by
  unfold paceAnchor
  extract_lets -merge -underBinder +onlyGivenNames x20 x21
  clear_value x20 x21
  exact (keeps_ite (keeps_updSeq h1) h1)

theorem keeps_takeLateHalt {s1} {a1} (h1 : Keeps r s1) :
    Keeps r (takeLateHalt s1 a1) := by
  unfold takeLateHalt
  split
  · exact (keeps_ite (keeps_haltGang h1) h1)
  · exact h1

theorem keeps_haltFrom {s1} {a1} {a2} {a3} {a4} {a5} {a6} (h1 : Keeps r s1) :
    Keeps r (haltFrom s1 a1 a2 a3 a4 a5 a6) := by
  unfold haltFrom
  exact (keeps_ite (keeps_updSeq h1) (keeps_haltGang h1))

theorem keeps_stepEvents {s1} {a1} (h1 : Keeps r s1) :
    Keeps r (stepEvents s1 a1) := by
  unfold stepEvents
  exact (keeps_takeLateHalt (keeps_landPatches h1))

theorem keeps_countLoadWait {s1} {a1} (h1 : Keeps r s1) :
    Keeps r (countLoadWait s1 a1) := by
  unfold countLoadWait
  exact (keeps_ite (keeps_foldl h1 (fun _ _ h20 => (keeps_bumpF h20))) h1)

theorem keeps_tick {s1} {a1} (h1 : Keeps r s1) :
    Keeps r (tick s1 a1) := by
  unfold tick
  exact (keeps_stepEvents (keeps_foldl (keeps_countLoadWait (keeps_paceAnchor h1)) (fun _ _ h20 => (keeps_setReg h20))))

theorem keeps_stepOn {s1} {a1} (h1 : Keeps r s1) :
    Keeps r (stepOn s1 a1) := by
  unfold stepOn
  exact (keeps_ite (keeps_stepEvents (keeps_updSeq h1)) (keeps_tick h1))

theorem keeps_bubbleStep {s1} {a1} {a2} (h1 : Keeps r s1) :
    Keeps r (bubbleStep s1 a1 a2) := by
  unfold bubbleStep
  refine keeps_ite ?_ ?_
  · exact (keeps_stepOn h1)
  · split
    · exact (keeps_tick h1)
    · exact (keeps_tick h1)
    · exact (keeps_tick (keeps_bumpF h1))
    · exact (keeps_tick (keeps_bumpF h1))

theorem keeps_refuseSeq {s1} {a1} {a2} {a3} {a4} {a5} (h1 : Keeps r s1) :
    Keeps r (refuseSeq s1 a1 a2 a3 a4 a5) := by
  unfold refuseSeq
  refine keeps_ite ?_ ?_
  · exact (keeps_haltGang h1)
  · extract_lets -merge -underBinder +onlyGivenNames x20
    have h20 : Keeps r x20 := (keeps_logSkip h1)
    clear_value x20
    refine keeps_stepOn ?_
    · split
      · exact h20
      · exact (keeps_updSeq h20)

theorem keeps_refuse {s1} {a1} {a2} {a3} (h1 : Keeps r s1) :
    Keeps r (refuse s1 a1 a2 a3) := by
  unfold refuse
  split
  · exact (keeps_refuseSeq h1)
  · extract_lets -merge -underBinder +onlyGivenNames x20
    have h20 : Keeps r x20 := (keeps_updCtl h1)
    clear_value x20
    exact (keeps_haltFrom h20)
  · exact (keeps_answer h1)

theorem keeps_spend {s1} {a1} {a2} (h1 : Keeps r s1) :
    Keeps r (spend s1 a1 a2) := by
  unfold spend
  split
  · exact (keeps_tick h1)
  · exact (keeps_updCtl h1)
  · exact h1

theorem keeps_setPc {s1} {a1} {a2} (h1 : Keeps r s1) :
    Keeps r (setPc s1 a1 a2) := by
  unfold setPc
  exact (keeps_updCtl h1)

theorem keeps_retire {s1} {a1} {a2} (h1 : Keeps r s1) :
    Keeps r (retire s1 a1 a2) := by
  unfold retire
  exact (keeps_spend (keeps_updCtl h1))

theorem keeps_refuseNext {s1} {a1} {a2} (h1 : Keeps r s1) :
    Keeps r (refuseNext s1 a1 a2) := by
  unfold refuseNext
  extract_lets -merge -underBinder +onlyGivenNames x20 x21
  have h21 : Keeps r x21 := (keeps_refuse h1)
  clear_value x20 x21
  split
  · exact (keeps_ite h21 (keeps_setPc h21))
  · exact h21

theorem keeps_tokenFault {s1} {a1} {a2} {a3} {a4} (h1 : Keeps r s1) :
    Keeps r (tokenFault s1 a1 a2 a3 a4) := by
  unfold tokenFault
  split
  · exact (keeps_haltGang h1)
  · extract_lets -merge -underBinder +onlyGivenNames x20
    have h20 : Keeps r x20 := (keeps_updCtl h1)
    clear_value x20
    exact (keeps_haltFrom h20)
  · exact (keeps_answer (keeps_updCtl h1))

theorem keeps_reportSigs {s1} {a1} (h1 : Keeps r s1) :
    Keeps r (reportSigs s1 a1) := by
  unfold reportSigs
  extract_lets -merge -underBinder +onlyGivenNames x20 x21
  clear_value x20 x21
  exact (keeps_setCtl h1)

theorem keeps_settleHead {s1} {a1} {a2} (h1 : Keeps r s1) :
    KeepsO r (settleHead s1 a1 a2) := by
  unfold settleHead
  extract_lets -merge -underBinder +onlyGivenNames x20
  clear_value x20
  split
  · exact keepsO_none
  · refine keeps_iteO ?_ ?_
    · extract_lets -merge -underBinder +onlyGivenNames x21 x22 x23 x24
      clear_value x21 x22 x23 x24
      refine keeps_iteO ?_ ?_
      · exact keepsO_none
      · refine keeps_iteO ?_ ?_
        · exact (keepsO_some (keeps_tokenFault h1))
        · extract_lets -merge -underBinder +onlyGivenNames x25 x26
          clear_value x25 x26
          exact (keepsO_some (keeps_setCtl h1))
    · refine keeps_iteO ?_ ?_
      · extract_lets -merge -underBinder +onlyGivenNames x27 x28
        clear_value x27 x28
        exact (keepsO_some (keeps_reportSigs (keeps_setCtl h1)))
      · split
        · exact keepsO_none
        · extract_lets -merge -underBinder +onlyGivenNames x29
          clear_value x29
          exact (keeps_iteO keepsO_none (keeps_iteO (keepsO_some (keeps_tokenFault h1)) (keepsO_some (keeps_setCtl h1))))

theorem keeps_settle {a0} {s2} {a2} (h2 : Keeps r s2) :
    Keeps r (settle a0 s2 a2) := by
  induction a0 generalizing s2 with
  | zero => exact h2
  | succ n ih =>
    unfold settle
    split
    · rename_i s' e
      obtain ⟨_, _, e⟩ := List.exists_of_findSome?_eq_some e
      exact ih (keeps_of_eqO e (keeps_settleHead h2))
    · exact h2

theorem keeps_settleAll {s1} {a1} (h1 : Keeps r s1) :
    Keeps r (settleAll s1 a1) := by
  unfold settleAll
  extract_lets -merge -underBinder +onlyGivenNames x20
  clear_value x20
  exact (keeps_settle h1)

theorem keeps_refuseEntry {s1} {a1} {a2} {a3} {a4} (h1 : Keeps r s1) :
    Keeps r (refuseEntry s1 a1 a2 a3 a4) := by
  unfold refuseEntry
  split
  · exact (keeps_refuseSeq h1)
  · extract_lets -merge -underBinder +onlyGivenNames x20
    have h20 : Keeps r x20 := (keeps_updCtl h1)
    clear_value x20
    exact (keeps_haltFrom h20)
  · extract_lets -merge -underBinder +onlyGivenNames x21
    have h21 : Keeps r x21 := by
      unfold x21
      split
      · exact (keeps_updCtl h1)
      · exact h1
    clear_value x21
    exact (keeps_answer h21)

theorem keeps_launch {s1} {a1} {a2} {a3} {a4} {a5} {a6} (h1 : Keeps r s1) :
    Keeps r (launch s1 a1 a2 a3 a4 a5 a6) := by
  unfold launch
  exact (keeps_updCtl h1)

end Sys2Proof.Machine
end

