-- ==== Sys2Proof/Laws/KeepsTrack.lean ====
section
/-! SUPPORT. What each operation of Machine/Track.lean keeps. -/

namespace Sys2Proof.Machine

variable {r : State}

theorem keeps_stashSlice {s1} {a1} {a2} (h1 : Keeps r s1) :
    Keeps r (stashSlice s1 a1 a2) := by
  unfold stashSlice
  extract_lets -merge -underBinder +onlyGivenNames x20 x21
  clear_value x20 x21
  exact (keeps_updHalf h1)

theorem keeps_stashFor {s1} {a1} (h1 : Keeps r s1) :
    Keeps r (stashFor s1 a1) := by
  unfold stashFor
  refine keeps_ite ?_ ?_
  · extract_lets -merge -underBinder +onlyGivenNames x20 x21
    have h20 : Keeps r x20 := (keeps_bumpF h1)
    have h21 : Keeps r x21 := (keeps_ite (keeps_bumpF h20) h20)
    clear_value x20 x21
    exact (keeps_stashSlice h21)
  · exact h1

theorem keeps_smear {s1} {a1} {a2} (h1 : Keeps r s1) :
    Keeps r (smear s1 a1 a2) := by
  unfold smear
  extract_lets -merge -underBinder +onlyGivenNames x20
  have h20 : Keeps r x20 := (keeps_ite (keeps_foldl h1 (fun _ _ h21 => (keeps_stashFor h21))) h1)
  clear_value x20
  exact (keeps_mkAll h20 id (fun w => (rising_mdrop w)) id id id)

end Sys2Proof.Machine
end

