-- ==== Sys2Proof/Laws/KeepsContext.lean ====
section
/-! SUPPORT. What each operation of Machine/Context.lean keeps. -/

namespace Sys2Proof.Machine

variable {r : State}

theorem keeps_loadRow {s1} {a1} {a2} (h1 : Keeps r s1) :
    Keeps r (loadRow s1 a1 a2) := by
  unfold loadRow
  exact keeps_mkAll h1 (fun w => mwf_foldl_mset (mwf_mreplaceD (mwf_mdrop w))) id id id id

theorem keeps_overwriteSaves {s1} {a1} {a2} (h1 : Keeps r s1) :
    Keeps r (overwriteSaves s1 a1 a2) := by
  unfold overwriteSaves
  exact (keeps_mk h1)

theorem keeps_smearArea {s1} {a1} {a2} (h1 : Keeps r s1) :
    Keeps r (smearArea s1 a1 a2) := by
  unfold smearArea
  exact (keeps_smear h1)

theorem keeps_putSaved {s1} {a1} {a2} {a3} (h1 : Keeps r s1) :
    Keeps r (putSaved s1 a1 a2 a3) := by
  unfold putSaved
  exact (keeps_mk h1)

theorem keeps_fetchSaved {s1} {a1} {a2} (h1 : Keeps r s1) :
    Keeps r (fetchSaved s1 a1 a2).1 := by
  unfold fetchSaved
  extract_lets -merge -underBinder +onlyGivenNames x20 x21
  clear_value x20 x21
  exact (keeps_ite1 h1 (keeps_mk h1))

theorem keeps_loadSaved {s1} {a1} {a2} {a3} (h1 : Keeps r s1) :
    Keeps r (loadSaved s1 a1 a2 a3) := by
  unfold loadSaved
  extract_lets -merge -underBinder +onlyGivenNames x20 x21 x22 x24 x26 x28 x30 x31
  have h21 : Keeps r x21 := (keeps_setSeq h1)
  clear_value x20 x21
  have h22 : Keeps r x22 := by
    unfold x22
    refine keeps_foldl ?_ ?_
    · exact h21
    · intro y33 y34 h33
      split
      · exact (keeps_setCtl h33)
  clear_value x22
  have h24 : Keeps r x24 := by
    unfold x24
    refine keeps_foldl ?_ ?_
    · exact h22
    · intro y36 y37 h36
      split
      · exact (keeps_loadRow h36)
  clear_value x24
  have h26 : Keeps r x26 := by
    unfold x26
    refine keeps_foldl ?_ ?_
    · exact h24
    · intro y39 y40 h39
      split
      · exact (keeps_putF h39)
  clear_value x26
  have h28 : Keeps r x28 := by
    unfold x28
    refine keeps_foldl ?_ ?_
    · exact h26
    · intro y42 y43 h42
      split
      · refine keeps_foldl ?_ ?_
        · exact h42
        · intro y45 y46 h45
          extract_lets -merge -underBinder +onlyGivenNames x47 x48 x49 x50
          have h49 : Keeps r x49 := (keeps_setCore h45)
          have h50 : Keeps r x50 := (keeps_setReg h49)
          clear_value x47 x48 x49 x50
          exact (keeps_setReg (keeps_setReg h50))
  have h31 : Keeps r x31 := (keeps_mk h28)
  clear_value x28 x30 x31
  exact (keeps_putF h31)

theorem keeps_saveAs {s1} {a1} {a2} (h1 : Keeps r s1) :
    Keeps r (saveAs s1 a1 a2) := by
  unfold saveAs
  extract_lets -merge -underBinder +onlyGivenNames x20
  clear_value x20
  exact (keeps_smearArea (keeps_putSaved (keeps_overwriteSaves h1)))

theorem keeps_saveResident {s1} {a1} (h1 : Keeps r s1) :
    Keeps r (saveResident s1 a1) := by
  unfold saveResident
  exact (keeps_saveAs h1)

theorem keeps_placePaced {s1} {a1} (h1 : Keeps r s1) :
    Keeps r (placePaced s1 a1) := by
  unfold placePaced
  refine keeps_ite ?_ ?_
  · exact (keeps_putF h1)
  · extract_lets -merge -underBinder +onlyGivenNames x20
    clear_value x20
    exact (keeps_putF (keeps_putF h1))

theorem keeps_restartPace {s1} {a1} (h1 : Keeps r s1) :
    Keeps r (restartPace s1 a1) := by
  unfold restartPace
  exact (keeps_updSeq h1)

theorem keeps_startPace {s1} {a1} (h1 : Keeps r s1) :
    Keeps r (startPace s1 a1) := by
  unfold startPace
  extract_lets -merge -underBinder +onlyGivenNames x20 x21
  have h21 : Keeps r x21 := (keeps_foldl h1 (fun _ _ h22 => (keeps_putF (keeps_placePaced h22))))
  clear_value x20 x21
  exact (keeps_restartPace (keeps_updSeq h21))

theorem keeps_copyParams {s1} {a1} (h1 : Keeps r s1) :
    Keeps r (copyParams s1 a1) := by
  unfold copyParams
  extract_lets -merge -underBinder +onlyGivenNames x20
  clear_value x20
  exact (keeps_mkAll h1 (fun w => (mwf_mreplaceD w)) id id id id)

theorem keeps_exchangeBank {s1} {a1} (h1 : Keeps r s1) :
    Keeps r (exchangeBank s1 a1) := by
  unfold exchangeBank
  refine keeps_ite ?_ ?_
  · extract_lets -merge -underBinder +onlyGivenNames x20 x21 x22
    have h20 : Keeps r x20 := (keeps_putF h1)
    have h21 : Keeps r x21 := (keeps_putF (keeps_putF h20))
    clear_value x20 x21 x22
    exact (keeps_updSeq h21)
  · exact h1

theorem keeps_boundary {s1} {a1} {a2} (h1 : Keeps r s1) :
    Keeps r (boundary s1 a1 a2) := by
  unfold boundary
  extract_lets -merge -underBinder +onlyGivenNames x20 x21
  have h20 : Keeps r x20 := (keeps_exchangeBank (keeps_copyParams (keeps_landPatches h1)))
  have h21 : Keeps r x21 := (keeps_ite (keeps_startPace h20) h20)
  clear_value x20 x21
  exact (keeps_updSeq h21)

theorem keeps_loopBoundary {s1} {a1} (h1 : Keeps r s1) :
    Keeps r (loopBoundary s1 a1) := by
  unfold loopBoundary
  extract_lets -merge -underBinder +onlyGivenNames x20
  clear_value x20
  split
  · exact (keeps_updSeq h1)
  · exact (keeps_ite (keeps_updSeq h1) (keeps_boundary (keeps_updSeq h1)))

theorem keeps_thaw {s1} {a1} (h1 : Keeps r s1) :
    Keeps r (thaw s1 a1) := by
  unfold thaw
  extract_lets -merge -underBinder +onlyGivenNames x20 x21
  have h21 : Keeps r x21 := (keeps_updSeq h1)
  clear_value x20 x21
  exact (keeps_foldl h21 (fun _ _ h22 => (keeps_updCtl h22)))

theorem keeps_finishDrain {s1} {a1} (h1 : Keeps r s1) :
    Keeps r (finishDrain s1 a1) := by
  unfold finishDrain
  extract_lets -merge -underBinder +onlyGivenNames x20
  clear_value x20
  split
  · exact h1
  · exact h1
  · exact h1
  · refine keeps_ite ?_ ?_
    · extract_lets -merge -underBinder +onlyGivenNames x21
      have h21 : Keeps r x21 := (keeps_updSeq h1)
      clear_value x21
      split
      · extract_lets -merge -underBinder +onlyGivenNames x22 x23
        have h22 : Keeps r x22 := (keeps_dropPostings (keeps_landAll h21))
        have h23 : Keeps r x23 := (keeps_ite (keeps_updSeq (keeps_saveResident h22)) h22)
        clear_value x22 x23
        exact (keeps_setGangState h23)
      · exact (keeps_haltGang h21)
      · exact (keeps_setGangState (keeps_thaw h21))
    · exact h1

theorem keeps_advance {s1} {a1} (h1 : Keeps r s1) :
    Keeps r (advance s1 a1) := by
  unfold advance
  extract_lets -merge -underBinder +onlyGivenNames x20
  have h20 : Keeps r x20 := (keeps_settleAll h1)
  clear_value x20
  split
  · exact (keeps_finishDrain h20)
  · exact h20

theorem keeps_issueHead {s1} {a1} {a2} {a3} {a4 : State → QEntry → State} (h1 : Keeps r s1) (g5 : ∀ y0 y1, Keeps r y0 → Keeps r (a4 y0 y1)) :
    Keeps r (issueHead s1 a1 a2 a3 a4) := by
  unfold issueHead
  refine keeps_ite ?_ ?_
  · split
    · exact (keeps_advance (g5 _ _ (keeps_updCtl h1)))
    · exact (keeps_tokenFault h1)
    · exact h1
  · exact h1

theorem keeps_contextSwitch {s1} {a1} (h1 : Keeps r s1) :
    Keeps r (contextSwitch s1 a1) := by
  unfold contextSwitch
  refine keeps_ite ?_ ?_
  · split
    · exact h1
    · extract_lets -merge -underBinder +onlyGivenNames x20
      have h20 : Keeps r x20 := (keeps_saveResident h1)
      clear_value x20
      split
      · rename_i s21_0 _ e21
        have h21_0 : Keeps r s21_0 := keeps_of_eq1 e21 (keeps_fetchSaved h20)
        extract_lets -merge -underBinder +onlyGivenNames x22 x23 x24 x25
        have h22 : Keeps r x22 := (keeps_loadSaved h21_0)
        have h23 : Keeps r x23 := (keeps_mk h22)
        have h25 : Keeps r x25 := (keeps_ite (keeps_setPc h23) h23)
        clear_value x22 x23 x24 x25
        exact (keeps_boundary (keeps_setGangState h25))
  · exact h1

theorem keeps_watchdogExpiry {s1} {a1} (h1 : Keeps r s1) :
    Keeps r (watchdogExpiry s1 a1) := by
  unfold watchdogExpiry
  extract_lets -merge -underBinder +onlyGivenNames x20 x21
  clear_value x20 x21
  exact (keeps_ite (keeps_haltGang h1) h1)

end Sys2Proof.Machine
end

