-- ==== Sys2Proof/Laws/KeepsBase.lean ====
section
/-! SUPPORT. What each operation of Machine/Base.lean keeps. -/

namespace Sys2Proof.Machine

variable {r : State}

theorem keeps_setDomain {s1} {a1} {a2} (h1 : Keeps r s1) :
    Keeps r (setDomain s1 a1 a2) := by
  unfold setDomain
  exact (keeps_setReg h1)

theorem keeps_draw {s1} {a1} (h1 : Keeps r s1) :
    Keeps r (draw s1 a1).2 := by
  unfold draw
  extract_lets -merge -underBinder +onlyGivenNames x20
  clear_value x20
  exact (keeps_updHalf h1)

theorem keeps_setWords {s1} {a1} {a2} {a3} {a4} (h1 : Keeps r s1) :
    Keeps r (setWords s1 a1 a2 a3 a4) := by
  unfold setWords
  exact (keeps_foldl h1 (fun _ _ h20 => (keeps_setReg h20)))

theorem keeps_raiseEvent {s1} {a1} {a2} {a3} {a4} (h1 : Keeps r s1) :
    Keeps r (raiseEvent s1 a1 a2 a3 a4) := by
  unfold raiseEvent
  exact (keeps_ite (keeps_updHalf h1) h1)

theorem keeps_tellNode {s1} {a1} {a2} {a3} {a4} (h1 : Keeps r s1) :
    Keeps r (tellNode s1 a1 a2 a3 a4) := by
  unfold tellNode
  exact (keeps_updHalf h1)

theorem keeps_setHalfState {s1} {a1} {a2} (h1 : Keeps r s1) :
    Keeps r (setHalfState s1 a1 a2) := by
  unfold setHalfState
  exact (keeps_raiseEvent (keeps_putF h1))

theorem keeps_setUnit {s1} {a1} {a2} {a3} (h1 : Keeps r s1) :
    Keeps r (setUnit s1 a1 a2 a3) := by
  unfold setUnit
  exact (keeps_updHalf h1)

theorem keeps_updUnit {s1} {a1} {a2} {a3} (h1 : Keeps r s1) :
    Keeps r (updUnit s1 a1 a2 a3) := by
  unfold updUnit
  exact (keeps_setUnit h1)

theorem keeps_writeRecord {s1} {a1} {a2} {a3} {a4} {a5} {a6} {a7} {a8} (h1 : Keeps r s1) :
    Keeps r (writeRecord s1 a1 a2 a3 a4 a5 a6 a7 a8) := by
  unfold writeRecord
  extract_lets -merge -underBinder +onlyGivenNames x20 x21 x22 x23 x24 x25 x27 x28
  have h24 : Keeps r x24 := (keeps_ite (keeps_bumpF h1) h1)
  have h25 : Keeps r x25 := (keeps_foldl h24 (fun _ _ h26 => (keeps_setReg h26)))
  have h27 : Keeps r x27 := (keeps_updHalf (keeps_putF h25))
  have h28 : Keeps r x28 := (keeps_ite h27 (keeps_updUnit h27))
  clear_value x20 x21 x22 x23 x24 x25 x27 x28
  exact (keeps_raiseEvent h28)

theorem keeps_plainRecord {s1} {a1} {a2} {a3} {a4} {a5} {a6} {a7} (h1 : Keeps r s1) :
    Keeps r (plainRecord s1 a1 a2 a3 a4 a5 a6 a7) := by
  unfold plainRecord
  exact (keeps_writeRecord h1)

theorem keeps_detectCorrected {s1} {a1} {a2} {a3} {a4} {a5} (h1 : Keeps r s1) :
    Keeps r (detectCorrected s1 a1 a2 a3 a4 a5) := by
  unfold detectCorrected
  extract_lets -merge -underBinder +onlyGivenNames x20 x21
  have h21 : Keeps r x21 := (keeps_writeRecord h1)
  clear_value x20 x21
  exact (keeps_updUnit h21)

theorem keeps_detectUncorrected {s1} {a1} {a2} {a3} {a4} {a5} (h1 : Keeps r s1) :
    Keeps r (detectUncorrected s1 a1 a2 a3 a4 a5) := by
  unfold detectUncorrected
  extract_lets -merge -underBinder +onlyGivenNames x20
  clear_value x20
  exact (keeps_updUnit h1)

theorem keeps_loseSlot {s1} {a1} (h1 : Keeps r s1) :
    Keeps r (loseSlot s1 a1) := by
  unfold loseSlot
  extract_lets -merge -underBinder +onlyGivenNames x20
  have h20 : Keeps r x20 := (keeps_setReg (keeps_setCore h1))
  clear_value x20
  exact (keeps_mk h20)

theorem keeps_unitErrorHalt {s1} {a1} {a2} (h1 : Keeps r s1) :
    Keeps r (unitErrorHalt s1 a1 a2) := by
  unfold unitErrorHalt
  exact (keeps_ite (keeps_haltGang h1) h1)

theorem keeps_hearQuarantined {s1} {a1} {a2} (h1 : Keeps r s1) :
    Keeps r (hearQuarantined s1 a1 a2) := by
  unfold hearQuarantined
  extract_lets -merge -underBinder +onlyGivenNames x20
  have h20 : Keeps r x20 := (keeps_updUnit h1)
  clear_value x20
  exact (keeps_plainRecord h20)

theorem keeps_setTimeState {s1} {a1} {a2} {a3} (h1 : Keeps r s1) :
    Keeps r (setTimeState s1 a1 a2 a3) := by
  unfold setTimeState
  extract_lets -merge -underBinder +onlyGivenNames x20 x21 x22
  clear_value x20 x21 x22
  exact (keeps_ite h1 (keeps_tellNode (keeps_raiseEvent (keeps_putF h1))))

theorem keeps_parentLost {s1} {a1} {a2} (h1 : Keeps r s1) :
    Keeps r (parentLost s1 a1 a2) := by
  unfold parentLost
  extract_lets -merge -underBinder +onlyGivenNames x20 x21 x22 x23
  have h23 : Keeps r x23 := (keeps_ite (keeps_setTimeState h1) h1)
  clear_value x20 x21 x22 x23
  exact (keeps_ite (keeps_setTimeState h23) h23)

end Sys2Proof.Machine
end

