-- ==== Sys2Proof/Laws/KeepsAccess.lean ====
section
/-! SUPPORT. What each operation of Machine/Access.lean keeps. -/

namespace Sys2Proof.Machine

variable {r : State}

theorem keeps_refuseAcc {s1} {a1} {a2} (h1 : Keeps r s1) :
    Keeps r (refuseAcc s1 a1 a2) := by
  unfold refuseAcc
  split
  · exact (keeps_answer h1)
  · exact (keeps_accessError h1)

theorem keeps_guarded {s1} {a1} {a2} {a3} {a4} {a5 : State → State} (h1 : Keeps r s1) (g6 : ∀ y0, Keeps r y0 → Keeps r (a5 y0)) :
    Keeps r (guarded s1 a1 a2 a3 a4 a5) := by
  unfold guarded
  split
  · exact (keeps_refuseAcc h1)
  · exact (g6 _ h1)

theorem keeps_done {s} (h : Keeps r s) :
    Keeps r (done s) := by
  unfold done
  exact (keeps_answer h)

theorem keeps_denied {s1} {a1} (h1 : Keeps r s1) :
    Keeps r (denied s1 a1) := by
  unfold denied
  exact (keeps_refuseAcc h1)

theorem keeps_plainWrite {s1} {a1} {a2} {a3} {a4} {a5} (h1 : Keeps r s1) :
    Keeps r (plainWrite s1 a1 a2 a3 a4 a5) := by
  unfold plainWrite
  exact (keeps_ite (keeps_done (keeps_setReg h1)) (keeps_denied h1))

end Sys2Proof.Machine
end

