-- ==== Sys2Proof/Laws/KeepsScalar.lean ====
section
/-! SUPPORT. What each operation of Machine/Scalar.lean keeps. -/

namespace Sys2Proof.Machine

variable {r : State}

theorem keeps_fetched {s1} {a1} {a2 : State → State} (h1 : Keeps r s1) (g3 : ∀ y0, Keeps r y0 → Keeps r (a2 y0)) :
    Keeps r (fetched s1 a1 a2) := by
  unfold fetched
  exact (keeps_ite (keeps_refuseNext h1) (g3 _ h1))

theorem keeps_seqExec {s1} {a1} {a2} {a3} {a4 : State → State} (h1 : Keeps r s1) (g5 : ∀ y0, Keeps r y0 → Keeps r (a4 y0)) :
    Keeps r (seqExec s1 a1 a2 a3 a4) := by
  unfold seqExec
  exact (keeps_ite (keeps_fetched h1 (fun _ h20 => (keeps_ite (keeps_refuseNext h20) (g5 _ h20)))) h1)

theorem keeps_execNop {a0} {a1} {s} (h : Keeps r s) :
    KeepsX r (execNop a0 a1 s) := by
  unfold execNop
  exact (keepsX_next (keeps_seqExec h (fun _ h20 => (keeps_retire h20))))

theorem keeps_execHalt {a0} {a1} {s} (h : Keeps r s) :
    KeepsX r (execHalt a0 a1 s) := by
  unfold execHalt
  refine keepsX_next ?_
  refine keeps_seqExec h ?_
  · intro y23 h23
    extract_lets -merge -underBinder +onlyGivenNames x24
    have h24 : Keeps r x24 := (keeps_updCtl h23)
    clear_value x24
    exact (keeps_finishDrain (keeps_tick h24))

theorem keeps_skipLoop {s1} {a1} (h1 : Keeps r s1) :
    Keeps r (skipLoop s1 a1) := by
  unfold skipLoop
  extract_lets -merge -underBinder +onlyGivenNames x20 x21
  clear_value x20 x21
  split
  · exact (keeps_setPc h1)
  · exact (keeps_setPc h1)

theorem keeps_refuseLoop {s1} {a1} {a2} (h1 : Keeps r s1) :
    Keeps r (refuseLoop s1 a1 a2) := by
  unfold refuseLoop
  extract_lets -merge -underBinder +onlyGivenNames x20
  have h20 : Keeps r x20 := (keeps_refuse h1)
  clear_value x20
  exact (keeps_ite h20 (keeps_skipLoop h20))

theorem keeps_loopEnter {s1} {a1} {a2} {a3} (h1 : Keeps r s1) :
    Keeps r (loopEnter s1 a1 a2 a3) := by
  unfold loopEnter
  extract_lets -merge -underBinder +onlyGivenNames x20 x21 x22 x23 x24
  clear_value x20 x21 x22 x23 x24
  refine keeps_ite ?_ ?_
  · exact (keeps_refuseLoop h1)
  · refine keeps_ite ?_ ?_
    · exact (keeps_refuseLoop h1)
    · refine keeps_ite ?_ ?_
      · exact (keeps_refuseLoop h1)
      · refine keeps_ite ?_ ?_
        · exact (keeps_refuseLoop h1)
        · split
          · exact (keeps_refuseLoop h1)
          · extract_lets -merge -underBinder +onlyGivenNames x25
            clear_value x25
            refine keeps_ite ?_ ?_
            · exact (keeps_tick (keeps_setPc h1))
            · extract_lets -merge -underBinder +onlyGivenNames x26 x27
              have h26 : Keeps r x26 := (keeps_updCtl h1)
              have h27 : Keeps r x27 := (keeps_tick h26)
              clear_value x26 x27
              exact (keeps_ite (keeps_finishDrain (keeps_loopBoundary h27)) h27)

theorem keeps_execLoop {a0} {a1} {s} (h : Keeps r s) :
    KeepsX r (execLoop a0 a1 s) := by
  unfold execLoop
  exact (keepsX_next (keeps_ite (keeps_fetched h (fun _ h20 => (keeps_loopEnter h20))) h))

theorem keeps_execLoopR {a0} {a1} {s} (h : Keeps r s) :
    KeepsX r (execLoopR a0 a1 s) := by
  unfold execLoopR
  exact (keepsX_next (keeps_ite (keeps_fetched h (fun _ h20 => (keeps_loopEnter h20))) h))

theorem keeps_execEndl {a0} {a1} {s} (h : Keeps r s) :
    KeepsX r (execEndl a0 a1 s) := by
  unfold execEndl
  refine keepsX_next ?_
  refine keeps_seqExec h ?_
  · intro y23 h23
    extract_lets -merge -underBinder +onlyGivenNames x24
    clear_value x24
    split
    · exact (keeps_refuseNext h23)
    · refine keeps_ite ?_ ?_
      · exact (keeps_updCtl h23)
      · extract_lets -merge -underBinder +onlyGivenNames x25
        have h25 : Keeps r x25 := (keeps_updCtl h23)
        clear_value x25
        exact (keeps_ite (keeps_finishDrain (keeps_loopBoundary h25)) h25)

theorem keeps_takePosting {s1} {a1} {a2} (h1 : Keeps r s1) :
    Keeps r (takePosting s1 a1 a2) := by
  unfold takePosting
  exact (keeps_updCtl h1)

theorem keeps_execBrk {a0} {a1} {s} (h : Keeps r s) :
    KeepsX r (execBrk a0 a1 s) := by
  unfold execBrk
  refine keepsX_next ?_
  refine keeps_seqExec h ?_
  · intro y23 h23
    extract_lets -merge -underBinder +onlyGivenNames x24 x25 x26
    clear_value x24 x25 x26
    refine keeps_ite ?_ ?_
    · exact (keeps_refuseNext h23)
    · refine keeps_ite ?_ ?_
      · split
        · exact (keeps_bubbleStep h23)
        · exact (keeps_tick (keeps_updCtl (keeps_takePosting h23)))
      · exact (keeps_tick (keeps_updCtl h23))

theorem keeps_execDecide {a0} {a1} {s} (h : Keeps r s) :
    KeepsX r (execDecide a0 a1 s) := by
  unfold execDecide
  refine keepsX_next ?_
  refine keeps_seqExec h ?_
  · intro y23 h23
    extract_lets -merge -underBinder +onlyGivenNames x24 x25 x26 x27
    clear_value x24 x25 x26 x27
    refine keeps_ite ?_ ?_
    · exact (keeps_refuseNext h23)
    · split
      · exact (keeps_bubbleStep h23)
      · exact (keeps_tick (keeps_setPc (keeps_takePosting h23)))

theorem keeps_execBubble {a0} {a1} {s} (h : Keeps r s) :
    KeepsX r (execBubble a0 a1 s) := by
  unfold execBubble
  exact (keepsX_next (keeps_ite (keeps_bubbleStep h) h))

theorem keeps_execWaitT {a0} {a1} {s} (h : Keeps r s) :
    KeepsX r (execWaitT a0 a1 s) := by
  unfold execWaitT
  extract_lets -merge -underBinder +onlyGivenNames x20 x21 x22 x23
  clear_value x20 x21 x22 x23
  refine keepsX_next ?_
  refine keeps_ite ?_ ?_
  · exact h
  · refine keeps_ite ?_ ?_
    · exact (keeps_refuseNext h)
    · refine keeps_ite ?_ ?_
      · exact (keeps_refuseNext h)
      · extract_lets -merge -underBinder +onlyGivenNames x24
        clear_value x24
        refine keeps_ite ?_ ?_
        · split
          · exact (keeps_bubbleStep h)
          · exact h
        · extract_lets -merge -underBinder +onlyGivenNames x25
          clear_value x25
          refine keeps_ite ?_ ?_
          · extract_lets -merge -underBinder +onlyGivenNames x26
            clear_value x26
            refine keeps_ite ?_ ?_
            · extract_lets -merge -underBinder +onlyGivenNames x27
              have h27 : Keeps r x27 := (keeps_setCtl h)
              clear_value x27
              split
              · exact (keeps_bubbleStep h27)
              · exact h27
            · refine keeps_ite ?_ ?_
              · exact (keeps_tokenFault (keeps_setCtl h))
              · extract_lets -merge -underBinder +onlyGivenNames x28 x29
                clear_value x28 x29
                exact (keeps_advance (keeps_retire (keeps_setCtl h)))
          · exact (keeps_advance (keeps_retire (keeps_setCtl h)))

theorem keeps_execSigT {a0} {a1} {s} (h : Keeps r s) :
    KeepsX r (execSigT a0 a1 s) := by
  unfold execSigT
  extract_lets -merge -underBinder +onlyGivenNames x20 x21
  clear_value x20 x21
  refine keepsX_next ?_
  refine keeps_ite ?_ ?_
  · exact h
  · refine keeps_ite ?_ ?_
    · exact (keeps_refuseNext h)
    · refine keeps_ite ?_ ?_
      · exact (keeps_refuseNext h)
      · extract_lets -merge -underBinder +onlyGivenNames x22 x23
        clear_value x22 x23
        refine keeps_ite ?_ ?_
        · split
          · exact (keeps_bubbleStep h)
          · exact h
        · extract_lets -merge -underBinder +onlyGivenNames x24 x25 x26 x27
          clear_value x24 x25 x26 x27
          exact (keeps_advance (keeps_retire (keeps_setCtl h)))

theorem keeps_scalarExec {s1} {a1} {a2} {a3} {a4} {a5} (h1 : Keeps r s1) :
    Keeps r (scalarExec s1 a1 a2 a3 a4 a5) := by
  unfold scalarExec
  refine keeps_ite ?_ ?_
  · refine keeps_fetched h1 ?_
    · intro y23 h23
      refine keeps_ite ?_ ?_
      · extract_lets -merge -underBinder +onlyGivenNames x24 x25
        have h25 : Keeps r x25 := (keeps_updCtl h23)
        clear_value x24 x25
        exact (keeps_retire h25)
      · exact (keeps_refuseNext h23)
  · exact h1

theorem keeps_aluExec {s1} {a1} {a2} {a3} (h1 : Keeps r s1) :
    Keeps r (aluExec s1 a1 a2 a3) := by
  unfold aluExec
  exact (keeps_scalarExec h1)

theorem keeps_execSli {a0} {a1} {s} (h : Keeps r s) :
    KeepsX r (execSli a0 a1 s) := by
  unfold execSli
  exact (keepsX_next (keeps_scalarExec h))

theorem keeps_execSadd {a0} {a1} {s} (h : Keeps r s) :
    KeepsX r (execSadd a0 a1 s) := by
  unfold execSadd
  exact (keepsX_next (keeps_aluExec h))

theorem keeps_execSsub {a0} {a1} {s} (h : Keeps r s) :
    KeepsX r (execSsub a0 a1 s) := by
  unfold execSsub
  exact (keepsX_next (keeps_aluExec h))

theorem keeps_execSmul {a0} {a1} {s} (h : Keeps r s) :
    KeepsX r (execSmul a0 a1 s) := by
  unfold execSmul
  exact (keepsX_next (keeps_aluExec h))

theorem keeps_execSand {a0} {a1} {s} (h : Keeps r s) :
    KeepsX r (execSand a0 a1 s) := by
  unfold execSand
  exact (keepsX_next (keeps_aluExec h))

theorem keeps_execSor {a0} {a1} {s} (h : Keeps r s) :
    KeepsX r (execSor a0 a1 s) := by
  unfold execSor
  exact (keepsX_next (keeps_aluExec h))

theorem keeps_execSxor {a0} {a1} {s} (h : Keeps r s) :
    KeepsX r (execSxor a0 a1 s) := by
  unfold execSxor
  exact (keepsX_next (keeps_aluExec h))

theorem keeps_execSshl {a0} {a1} {s} (h : Keeps r s) :
    KeepsX r (execSshl a0 a1 s) := by
  unfold execSshl
  exact (keepsX_next (keeps_aluExec h))

theorem keeps_execSshr {a0} {a1} {s} (h : Keeps r s) :
    KeepsX r (execSshr a0 a1 s) := by
  unfold execSshr
  exact (keepsX_next (keeps_aluExec h))

theorem keeps_execSmovp {a0} {a1} {s} (h : Keeps r s) :
    KeepsX r (execSmovp a0 a1 s) := by
  unfold execSmovp
  exact (keepsX_next (keeps_scalarExec h))

theorem keeps_controlOnly {s1} {a1} {a2 : State → State} (h1 : Keeps r s1) (g3 : ∀ y0, Keeps r y0 → Keeps r (a2 y0)) :
    Keeps r (controlOnly s1 a1 a2) := by
  unfold controlOnly
  split
  · exact (keeps_ite (keeps_fetched h1 (fun _ h20 => (keeps_refuseNext h20))) h1)
  · exact (g3 _ h1)

theorem keeps_jumpTo {s1} {a1} {a2} {a3} {a4} (h1 : Keeps r s1) :
    Keeps r (jumpTo s1 a1 a2 a3 a4) := by
  unfold jumpTo
  exact (keeps_ite (keeps_refuseNext h1) (keeps_spend (keeps_updCtl h1)))

theorem keeps_execBr {a0} {a1} {s} (h : Keeps r s) :
    KeepsX r (execBr a0 a1 s) := by
  unfold execBr
  refine keepsX_next ?_
  refine keeps_controlOnly h ?_
  · intro y23 h23
    refine keeps_ite ?_ ?_
    · exact h23
    · refine keeps_ite ?_ ?_
      · exact (keeps_refuseNext h23)
      · extract_lets -merge -underBinder +onlyGivenNames x24
        clear_value x24
        exact (keeps_ite (keeps_jumpTo h23) (keeps_retire h23))

theorem keeps_execJal {a0} {a1} {s} (h : Keeps r s) :
    KeepsX r (execJal a0 a1 s) := by
  unfold execJal
  refine keepsX_next ?_
  refine keeps_controlOnly h ?_
  · intro y23 h23
    refine keeps_ite ?_ ?_
    · exact h23
    · refine keeps_ite ?_ ?_
      · exact (keeps_refuseNext h23)
      · extract_lets -merge -underBinder +onlyGivenNames x24
        clear_value x24
        exact (keeps_jumpTo h23)

theorem keeps_execJr {a0} {a1} {s} (h : Keeps r s) :
    KeepsX r (execJr a0 a1 s) := by
  unfold execJr
  exact (keepsX_next (keeps_controlOnly h (fun _ h20 => (keeps_ite h20 (keeps_ite (keeps_refuseNext h20) (keeps_jumpTo h20))))))

theorem keeps_fpExec {s1} {a1} {a2} {a3} {a4} {a5} (h1 : Keeps r s1) :
    Keeps r (fpExec s1 a1 a2 a3 a4 a5) := by
  unfold fpExec
  exact (keeps_controlOnly h1 (fun _ h20 => (keeps_scalarExec h20)))

theorem keeps_execFadd {a0} {a1} {s} (h : Keeps r s) :
    KeepsX r (execFadd a0 a1 s) := by
  unfold execFadd
  exact (keepsX_next (keeps_fpExec h))

theorem keeps_execFsub {a0} {a1} {s} (h : Keeps r s) :
    KeepsX r (execFsub a0 a1 s) := by
  unfold execFsub
  exact (keepsX_next (keeps_fpExec h))

theorem keeps_execFmul {a0} {a1} {s} (h : Keeps r s) :
    KeepsX r (execFmul a0 a1 s) := by
  unfold execFmul
  exact (keepsX_next (keeps_fpExec h))

theorem keeps_execFfma {a0} {a1} {s} (h : Keeps r s) :
    KeepsX r (execFfma a0 a1 s) := by
  unfold execFfma
  exact (keepsX_next (keeps_fpExec h))

theorem keeps_execFdiv {a0} {a1} {s} (h : Keeps r s) :
    KeepsX r (execFdiv a0 a1 s) := by
  unfold execFdiv
  exact (keepsX_next (keeps_fpExec h))

theorem keeps_execFsqrt {a0} {a1} {s} (h : Keeps r s) :
    KeepsX r (execFsqrt a0 a1 s) := by
  unfold execFsqrt
  exact (keepsX_next (keeps_fpExec h))

theorem keeps_execFcmp {a0} {a1} {s} (h : Keeps r s) :
    KeepsX r (execFcmp a0 a1 s) := by
  unfold execFcmp
  exact (keepsX_next (keeps_controlOnly h (fun _ h20 => (keeps_scalarExec h20))))

theorem keeps_execFcvt {a0} {a1} {s} (h : Keeps r s) :
    KeepsX r (execFcvt a0 a1 s) := by
  unfold execFcvt
  extract_lets -merge -underBinder +onlyGivenNames x20
  clear_value x20
  refine keepsX_next ?_
  refine keeps_controlOnly h ?_
  · intro y24 h24
    extract_lets -merge -underBinder +onlyGivenNames x25 x26
    have h26 : Keeps r x26 := (keeps_scalarExec h24)
    clear_value x25 x26
    exact (keeps_ite (keeps_mk h26) h26)

theorem keeps_execSumrd {a0} {a1} {s} (h : Keeps r s) :
    KeepsX r (execSumrd a0 a1 s) := by
  unfold execSumrd
  extract_lets -merge -underBinder +onlyGivenNames x20 x21
  clear_value x20 x21
  refine keepsX_next ?_
  refine keeps_ite ?_ ?_
  · exact h
  · extract_lets -merge -underBinder +onlyGivenNames x22 x23
    have h23 : Keeps r x23 := (keeps_scalarExec h)
    clear_value x22 x23
    exact (keeps_ite (keeps_updCtl h23) h23)

theorem keeps_execPost {a0} {a1} {s} (h : Keeps r s) :
    KeepsX r (execPost a0 a1 s) := by
  unfold execPost
  extract_lets -merge -underBinder +onlyGivenNames x20 x21
  clear_value x20 x21
  refine keepsX_next ?_
  refine keeps_ite ?_ ?_
  · exact h
  · refine keeps_ite ?_ ?_
    · exact (keeps_refuseNext h)
    · extract_lets -merge -underBinder +onlyGivenNames x22
      have h22 : Keeps r x22 := (keeps_updCtl h)
      clear_value x22
      exact (keeps_retire h22)

theorem keeps_execPatch {a0} {a1} {s} (h : Keeps r s) :
    KeepsX r (execPatch a0 a1 s) := by
  unfold execPatch
  extract_lets -merge -underBinder +onlyGivenNames x20
  clear_value x20
  refine keepsX_next ?_
  refine keeps_ite ?_ ?_
  · exact h
  · refine keeps_ite ?_ ?_
    · exact (keeps_refuseNext h)
    · extract_lets -merge -underBinder +onlyGivenNames x21 x22
      clear_value x21 x22
      exact (keeps_retire (keeps_updSeq h))

end Sys2Proof.Machine
end

