-- ==== Sys2Proof/Laws/KeepsTailrace.lean ====
section
/-! SUPPORT. What each operation of Machine/Tailrace.lean keeps. -/

namespace Sys2Proof.Machine

variable {r : State}

theorem keeps_trIssue {s1} {a1} {a2} {a3 : State → QEntry → State} (h1 : Keeps r s1) (g4 : ∀ y0 y1, Keeps r y0 → Keeps r (a3 y0 y1)) :
    Keeps r (trIssue s1 a1 a2 a3) := by
  unfold trIssue
  extract_lets -merge -underBinder +onlyGivenNames x20
  clear_value x20
  split
  · refine keeps_ite ?_ ?_
    · refine keeps_issueHead h1 ?_
      · intro y24 y25 h24
        split
        · exact (keeps_refuseEntry h24)
        · exact (g4 _ _ h24)
    · exact h1
  · exact (keeps_issueHead h1 g4)
  · exact h1

theorem keeps_execTrcfg {a0} {s} (h : Keeps r s) :
    KeepsX r (execTrcfg a0 s) := by
  unfold execTrcfg
  exact (keepsX_next (keeps_trIssue h (fun _ _ h20 => (keeps_launch h20))))

theorem keeps_execTrcfgTableLoad {a0} {s} (h : Keeps r s) :
    KeepsX r (execTrcfgTableLoad a0 s) := by
  unfold execTrcfgTableLoad
  refine keepsX_next ?_
  extract_lets -merge -underBinder +onlyGivenNames x20 x21 x22
  clear_value x20 x21 x22
  split
  · refine keeps_ite ?_ ?_
    · exact h
    · refine keeps_trIssue h ?_
      · intro y26 y27 h26
        extract_lets -merge -underBinder +onlyGivenNames x28
        have h28 : Keeps r x28 := (keeps_foldl h26 (fun _ _ h29 => (keeps_updPlace h29)))
        clear_value x28
        exact (keeps_launch h28)
  · exact h

end Sys2Proof.Machine
end

