-- ==== Sys2Proof/Laws/KeepsArray.lean ====
section
/-! SUPPORT. What each operation of Machine/Array.lean keeps. -/

namespace Sys2Proof.Machine

variable {r : State}

theorem keeps_tailOn {s1} {a1} {a2} {a3} {a4} {a5} {a6} {a7} (h1 : Keeps r s1) :
    Keeps r (tailOn s1 a1 a2 a3 a4 a5 a6 a7) := by
  unfold tailOn
  extract_lets -merge -underBinder +onlyGivenNames x20 x21
  clear_value x20 x21
  exact (keeps_addFlags (keeps_setCore h1))

theorem keeps_mIssue {s1} {a1} {a2} {a3} {a4} {a5 : State → QEntry → State} (h1 : Keeps r s1) (g6 : ∀ y0 y1, Keeps r y0 → Keeps r (a5 y0 y1)) :
    Keeps r (mIssue s1 a1 a2 a3 a4 a5) := by
  unfold mIssue
  extract_lets -merge -underBinder +onlyGivenNames x20 x21
  clear_value x20 x21
  split
  · refine keeps_ite ?_ ?_
    · exact h1
    · split
      · exact (keeps_issueHead h1 (fun _ _ h22 => (keeps_refuseEntry h22)))
      · exact (keeps_ite (keeps_issueHead h1 g6) h1)
  · exact (keeps_issueHead h1 g6)
  · exact h1

theorem keeps_setArr {s1} {a1} {a2} (h1 : Keeps r s1) :
    Keeps r (setArr s1 a1 a2) := by
  unfold setArr
  exact (keeps_updSeq h1)

theorem keeps_addUses {s1} {a1} {a2} {a3} (h1 : Keeps r s1) :
    Keeps r (addUses s1 a1 a2 a3) := by
  unfold addUses
  extract_lets -merge -underBinder +onlyGivenNames x20 x21
  clear_value x20 x21
  split
  · exact (keeps_setArr h1)
  · extract_lets -merge -underBinder +onlyGivenNames x22 x23 x24 x26
    have h24 : Keeps r x24 := (keeps_foldl h1 (fun _ _ h25 => (keeps_bumpF h25)))
    have h26 : Keeps r x26 := (keeps_updSeq h24)
    clear_value x22 x23 x24 x26
    exact (keeps_setArr h26)

theorem keeps_execMlw {a0} {s} (h : Keeps r s) :
    KeepsX r (execMlw a0 s) := by
  unfold execMlw
  extract_lets -merge -underBinder +onlyGivenNames x20 x21
  clear_value x20 x21
  refine keepsX_next ?_
  refine keeps_mIssue h ?_
  · intro y25 y26 h25
    extract_lets -merge -underBinder +onlyGivenNames x27 x29
    have h27 : Keeps r x27 := by
      unfold x27
      refine keeps_foldl ?_ ?_
      · exact h25
      · intro y31 y32 h31
        extract_lets -merge -underBinder +onlyGivenNames x33 x34 x35
        clear_value x33 x34 x35
        exact (keeps_addFlags (keeps_setCore h31))
    have h29 : Keeps r x29 := (keeps_addUses h27)
    clear_value x27 x29
    exact (keeps_launch (keeps_setArr h29))

theorem keeps_execMsw {a0} {s} (h : Keeps r s) :
    KeepsX r (execMsw a0 s) := by
  unfold execMsw
  extract_lets -merge -underBinder +onlyGivenNames x20 x21
  clear_value x20 x21
  refine keepsX_next ?_
  refine keeps_mIssue h ?_
  · intro y25 y26 h25
    extract_lets -merge -underBinder +onlyGivenNames x27
    have h27 : Keeps r x27 := (keeps_foldl h25 (fun _ _ h28 => (keeps_updPlace h28)))
    clear_value x27
    exact (keeps_launch (keeps_setArr h27))

theorem keeps_stream {s1} {a1} {a2} (h1 : Keeps r s1) :
    Keeps r (stream s1 a1 a2) := by
  unfold stream
  extract_lets -merge -underBinder +onlyGivenNames x20 x21 x22 x23 x24 x25
  clear_value x20 x21 x22 x23 x24 x25
  refine keeps_mIssue h1 ?_
  · intro y28 y29 h28
    extract_lets -merge -underBinder +onlyGivenNames x30 x31 x32 x33 x34 x35 x36 x37 x39
    clear_value x30 x31 x32 x33 x34 x35 x36
    have h37 : Keeps r x37 := by
      unfold x37
      refine keeps_foldl ?_ ?_
      · exact h28
      · intro y41 y42 h41
        extract_lets -merge -underBinder +onlyGivenNames x43 x44 x45 x46 x47 x48
        have h48 : Keeps r x48 := (keeps_bumpF h41)
        clear_value x43 x44 x45 x46 x47 x48
        refine keeps_ite ?_ ?_
        · extract_lets -merge -underBinder +onlyGivenNames x49
          clear_value x49
          exact (keeps_addFlags (keeps_setCore h48))
        · exact (keeps_tailOn h48)
    have h39 : Keeps r x39 := (keeps_setArr h37)
    clear_value x37 x39
    exact (keeps_launch h39)

theorem keeps_execMma {a0} {s} (h : Keeps r s) :
    KeepsX r (execMma a0 s) := by
  unfold execMma
  exact (keepsX_next (keeps_stream h))

theorem keeps_execMga {a0} {s} (h : Keeps r s) :
    KeepsX r (execMga a0 s) := by
  unfold execMga
  exact (keepsX_next (keeps_stream h))

theorem keeps_execMdistL1 {a0} {s} (h : Keeps r s) :
    KeepsX r (execMdistL1 a0 s) := by
  unfold execMdistL1
  exact (keepsX_next (keeps_stream h))

theorem keeps_execMdistL2 {a0} {s} (h : Keeps r s) :
    KeepsX r (execMdistL2 a0 s) := by
  unfold execMdistL2
  exact (keepsX_next (keeps_stream h))

theorem keeps_execMminplus {a0} {s} (h : Keeps r s) :
    KeepsX r (execMminplus a0 s) := by
  unfold execMminplus
  exact (keepsX_next (keeps_stream h))

theorem keeps_execMmaxplus {a0} {s} (h : Keeps r s) :
    KeepsX r (execMmaxplus a0 s) := by
  unfold execMmaxplus
  exact (keepsX_next (keeps_stream h))

theorem keeps_execMcmp {a0} {s} (h : Keeps r s) :
    KeepsX r (execMcmp a0 s) := by
  unfold execMcmp
  exact (keepsX_next (keeps_stream h))

theorem keeps_execMgd {a0} {s} (h : Keeps r s) :
    KeepsX r (execMgd a0 s) := by
  unfold execMgd
  extract_lets -merge -underBinder +onlyGivenNames x20 x21
  clear_value x20 x21
  refine keepsX_next ?_
  refine keeps_mIssue h ?_
  · intro y25 y26 h25
    extract_lets -merge -underBinder +onlyGivenNames x27 x28 x29 x30 x32
    clear_value x27 x28 x29
    have h30 : Keeps r x30 := by
      unfold x30
      refine keeps_foldl ?_ ?_
      · exact h25
      · intro y34 y35 h34
        extract_lets -merge -underBinder +onlyGivenNames x36 x37
        clear_value x36 x37
        exact (keeps_tailOn h34)
    have h32 : Keeps r x32 := (keeps_addUses h30)
    clear_value x30 x32
    exact (keeps_launch (keeps_setArr h32))

end Sys2Proof.Machine
end

