-- ==== Sys2Proof/Laws/KeepsQueue.lean ====
section
/-! SUPPORT. What each operation of Machine/Queue.lean keeps. -/

namespace Sys2Proof.Machine

variable {r : State}

theorem keeps_waitInserted {s1} {a1} {a2} (h1 : Keeps r s1) :
    Keeps r (waitInserted s1 a1 a2) := by
  unfold waitInserted
  refine keeps_ite ?_ ?_
  · split
    · exact (keeps_bubbleStep h1)
    · exact h1
  · exact (keeps_spend (keeps_updCtl h1))

theorem keeps_placeEntry {s1} {a1} {a2} {a3} {a4} (h1 : Keeps r s1) :
    Keeps r (placeEntry s1 a1 a2 a3 a4) := by
  unfold placeEntry
  extract_lets -merge -underBinder +onlyGivenNames x20 x21 x22 x23
  clear_value x20 x21 x22 x23
  exact (keeps_advance (keeps_retire (keeps_setCtl h1)))

theorem keeps_execQueueDispatch {a0} {a1} {a2} {s} (h : Keeps r s) :
    KeepsX r (execQueueDispatch a0 a1 a2 s) := by
  unfold execQueueDispatch
  extract_lets -merge -underBinder +onlyGivenNames x20 x21
  clear_value x20 x21
  refine keepsX_next ?_
  refine keeps_ite ?_ ?_
  · exact h
  · refine keeps_ite ?_ ?_
    · exact (keeps_refuseNext h)
    · refine keeps_ite ?_ ?_
      · exact (keeps_refuseNext h)
      · refine keeps_ite ?_ ?_
        · exact (keeps_refuseNext h)
        · refine keeps_ite ?_ ?_
          · exact h
          · split
            · exact (keeps_waitInserted h)
            · refine keeps_ite ?_ ?_
              · split
                · exact (keeps_bubbleStep h)
                · exact h
              · exact (keeps_placeEntry h)

theorem keeps_countDone {s1} {a1} {a2} (h1 : Keeps r s1) :
    Keeps r (countDone s1 a1 a2) := by
  unfold countDone
  split
  · exact (keeps_ite (keeps_bumpF h1) h1)
  · exact h1

theorem keeps_execInstructionComplete {a0} {a1} {a2} {a3} {s} (h : Keeps r s) :
    KeepsX r (execInstructionComplete a0 a1 a2 a3 s) := by
  unfold execInstructionComplete
  refine keepsX_next ?_
  extract_lets -merge -underBinder +onlyGivenNames x20
  clear_value x20
  split
  · exact h
  · refine keeps_ite ?_ ?_
    · exact h
    · extract_lets -merge -underBinder +onlyGivenNames x21 x22 x23 x24 x25
      have h25 : Keeps r x25 := (keeps_setCtl h)
      clear_value x21 x22 x23 x24 x25
      exact (keeps_advance (keeps_reportSigs (keeps_ite (keeps_countDone h25) h25)))

theorem keeps_execTokenDecrement {a0} {a1} {s} (h : Keeps r s) :
    KeepsX r (execTokenDecrement a0 a1 s) := by
  unfold execTokenDecrement
  refine keepsX_next ?_
  extract_lets -merge -underBinder +onlyGivenNames x20
  clear_value x20
  split
  · exact h
  · refine keeps_ite ?_ ?_
    · exact h
    · extract_lets -merge -underBinder +onlyGivenNames x21 x22
      clear_value x21 x22
      exact (keeps_advance (keeps_setCtl h))

end Sys2Proof.Machine
end

