-- ==== Sys2Proof/Laws/KeepsLink.lean ====
section
/-! SUPPORT. What each operation of Machine/Link.lean keeps. -/

namespace Sys2Proof.Machine

variable {r : State}

theorem keeps_setLink {s1} {a1} {a2} (h1 : Keeps r s1) :
    Keeps r (setLink s1 a1 a2) := by
  unfold setLink
  exact (keeps_mkAll h1 id id id id (fun w => (mwf_mset w)))

theorem keeps_updLink {s1} {a1} {a2} (h1 : Keeps r s1) :
    Keeps r (updLink s1 a1 a2) := by
  unfold updLink
  exact (keeps_setLink h1)

theorem keeps_countSat {s1} {a1} {a2} {a3} (h1 : Keeps r s1) :
    Keeps r (countSat s1 a1 a2 a3) := by
  unfold countSat
  extract_lets -merge -underBinder +onlyGivenNames x20 x21 x22 x23
  have h22 : Keeps r x22 := (keeps_ite (keeps_bumpF h1) h1)
  have h23 : Keeps r x23 := (keeps_ite (keeps_bumpF h22) h22)
  clear_value x20 x21 x22 x23
  exact (keeps_ite (keeps_bumpF h23) h23)

theorem keeps_pump {s1} {a1} (h1 : Keeps r s1) :
    Keeps r (pump s1 a1) := by
  unfold pump
  extract_lets -merge -underBinder +onlyGivenNames x20
  clear_value x20
  refine keeps_ite ?_ ?_
  · exact h1
  · extract_lets -merge -underBinder +onlyGivenNames x21 x22 x23
    clear_value x21 x22 x23
    refine keeps_ite ?_ ?_
    · exact (keeps_setLink h1)
    · extract_lets -merge -underBinder +onlyGivenNames x24 x25
      clear_value x24 x25
      exact (keeps_countSat (keeps_setLink h1))

theorem keeps_enqueue {s1} {a1} {a2} {a3} (h1 : Keeps r s1) :
    Keeps r (enqueue s1 a1 a2 a3) := by
  unfold enqueue
  exact (keeps_pump (keeps_updLink h1))

theorem keeps_sendTo {s1} {a1} {a2} {a3} {a4} (h1 : Keeps r s1) :
    KeepsP r (sendTo s1 a1 a2 a3 a4) := by
  unfold sendTo
  split
  · exact keepsP_none
  · exact (keepsP_some (keeps_enqueue h1))

theorem keeps_respond {s1} {a1} {a2} {a3} {a4} {a5} {a6} (h1 : Keeps r s1) :
    Keeps r (respond s1 a1 a2 a3 a4 a5 a6) := by
  unfold respond
  split
  · rename_i s20_0 _ e20
    have h20_0 : Keeps r s20_0 := keeps_of_eqP e20 (keeps_sendTo h1)
    exact h20_0
  · exact h1

theorem keeps_dmaAnswer {s1} {a1} {a2} {a3} (h1 : Keeps r s1) :
    Keeps r (dmaAnswer s1 a1 a2 a3) := by
  unfold dmaAnswer
  exact (keeps_updHalf h1)

theorem keeps_answerTo {s1} {a1} {a2} {a3} {a4} (h1 : Keeps r s1) :
    Keeps r (answerTo s1 a1 a2 a3 a4) := by
  unfold answerTo
  split
  · exact h1
  · exact h1
  · exact h1
  · exact (keeps_updCtl h1)
  · exact (keeps_ite (keeps_respond h1) (keeps_respond h1))
  · exact (keeps_dmaAnswer h1)
  · extract_lets -merge -underBinder +onlyGivenNames x20
    clear_value x20
    exact (keeps_mk h1)

theorem keeps_dropReq {s1} {a1} {a2} (h1 : Keeps r s1) :
    Keeps r (dropReq s1 a1 a2) := by
  unfold dropReq
  exact (keeps_updHalf h1)

theorem keeps_answerW {s1} {a1} {a2} {a3} {a4} (h1 : Keeps r s1) :
    Keeps r (answerW s1 a1 a2 a3 a4) := by
  unfold answerW
  split
  · split
    · exact (keeps_answerTo (keeps_dropReq h1))
    · exact (keeps_bumpF h1)
  · exact (keeps_answerTo h1)

theorem keeps_askLater {s1} {a1} (h1 : Keeps r s1) :
    Keeps r (askLater s1 a1).1 := by
  unfold askLater
  exact (keeps_mk h1)

theorem keeps_answerAll {s1} {a1} {a2} (h1 : Keeps r s1) :
    Keeps r (answerAll s1 a1 a2) := by
  unfold answerAll
  exact (keeps_foldl h1 (fun _ _ h20 => (keeps_answerW h20)))

theorem keeps_takeAck {s1} {a1} {a2} (h1 : Keeps r s1) :
    Keeps r (takeAck s1 a1 a2) := by
  unfold takeAck
  extract_lets -merge -underBinder +onlyGivenNames x20 x21 x22 x23
  have h23 : Keeps r x23 := (keeps_setLink h1)
  clear_value x20 x21 x22 x23
  exact (keeps_ite (keeps_updHalf h23) h23)

theorem keeps_rerouteReq {s1} {a1} {a2} (h1 : Keeps r s1) :
    Keeps r (rerouteReq s1 a1 a2) := by
  unfold rerouteReq
  extract_lets -merge -underBinder +onlyGivenNames x20
  have h20 : ∀ y21, Keeps r y21 → Keeps r (x20 y21) := fun y21 h21 => (keeps_answerW (keeps_updHalf h21))
  clear_value x20
  refine keeps_ite ?_ ?_
  · exact (h20 _ h1)
  · extract_lets -merge -underBinder +onlyGivenNames x22
    clear_value x22
    split
    · exact (h20 _ h1)
    · rename_i s23_0 _ e23
      have h23_0 : Keeps r s23_0 := keeps_of_eqP e23 (keeps_sendTo h1)
      exact (keeps_updHalf h23_0)

theorem keeps_rerouteOther {s1} {a1} {a2} (h1 : Keeps r s1) :
    Keeps r (rerouteOther s1 a1 a2) := by
  unfold rerouteOther
  extract_lets -merge -underBinder +onlyGivenNames x20
  clear_value x20
  split
  · rename_i s21_0 _ e21
    have h21_0 : Keeps r s21_0 := keeps_of_eqP e21 (keeps_sendTo h1)
    exact h21_0
  · exact h1

theorem keeps_dropMsg {s1} {a1} {a2} (h1 : Keeps r s1) :
    Keeps r (dropMsg s1 a1 a2) := by
  unfold dropMsg
  exact (keeps_updHalf h1)

theorem keeps_rerouteBulk {s1} {a1} {a2} (h1 : Keeps r s1) :
    Keeps r (rerouteBulk s1 a1 a2) := by
  unfold rerouteBulk
  split
  · exact h1
  · split
    · exact (keeps_enqueue h1)
    · exact (keeps_answerW (keeps_dropMsg h1))

theorem keeps_linkDown {s1} {a1} {a2} (h1 : Keeps r s1) :
    Keeps r (linkDown s1 a1 a2) := by
  unfold linkDown
  extract_lets -merge -underBinder +onlyGivenNames x20 x21 x22 x23 x24 x25 x26 x27 x28 x29 x30 x31 x33
  have h28 : Keeps r x28 := (keeps_parentLost (keeps_setLink h1))
  have h29 : Keeps r x29 := (keeps_updHalf h28)
  have h30 : Keeps r x30 := (keeps_setWords h29)
  have h31 : Keeps r x31 := (keeps_foldl h30 (fun _ _ h32 => (keeps_rerouteReq h32)))
  have h33 : Keeps r x33 := (keeps_foldl h31 (fun _ _ h34 => (keeps_rerouteBulk h34)))
  clear_value x20 x21 x22 x23 x24 x25 x26 x27 x28 x29 x30 x31 x33
  exact (keeps_foldl h33 (fun _ _ h35 => (keeps_rerouteOther h35)))

theorem keeps_lomSend {s1} {a1} {a2} {a3} (h1 : Keeps r s1) :
    Keeps r (lomSend s1 a1 a2 a3) := by
  unfold lomSend
  exact (keeps_pump (keeps_updLink h1))

end Sys2Proof.Machine
end

