-- ==== Sys2Proof/Laws/KeepsHbm.lean ====
section
/-! SUPPORT. What each operation of Machine/Hbm.lean keeps. -/

namespace Sys2Proof.Machine

variable {r : State}

theorem keeps_loadKey {s1} {a1} (h1 : Keeps r s1) :
    Keeps r (loadKey s1 a1) := by
  unfold loadKey
  split
  · exact (keeps_updHalf h1)
  · exact h1

theorem keeps_tileStore {s1} {a1} {a2} {a3} (h1 : Keeps r s1) :
    Keeps r (tileStore s1 a1 a2 a3) := by
  unfold tileStore
  extract_lets -merge -underBinder +onlyGivenNames x20
  clear_value x20
  exact (keeps_setCore h1)

theorem keeps_setSramByte {s1} {a1} {a2} {a3} (h1 : Keeps r s1) :
    Keeps r (setSramByte s1 a1 a2 a3) := by
  unfold setSramByte
  exact (keeps_setReg h1)

theorem keeps_resync {s1} {a1} {a2} (h1 : Keeps r s1) :
    Keeps r (resync s1 a1 a2) := by
  unfold resync
  extract_lets -merge -underBinder +onlyGivenNames x20 x21
  clear_value x20 x21
  exact (keeps_ite h1 (keeps_updHalf h1))

theorem keeps_hbmStore {s1} {a1} {a2} (h1 : Keeps r s1) :
    Keeps r (hbmStore s1 a1 a2) := by
  unfold hbmStore
  exact (keeps_resync (keeps_setHbmBytes h1))

theorem keeps_holdOp {s1} {a1} {a2} {a3} (h1 : Keeps r s1) :
    Keeps r (holdOp s1 a1 a2 a3) := by
  unfold holdOp
  extract_lets -merge -underBinder +onlyGivenNames x20 x21 x22
  have h21 : Keeps r x21 := (keeps_bumpF h1)
  have h22 : Keeps r x22 := (keeps_ite h1 (keeps_ite (keeps_bumpF h21) h21))
  clear_value x20 x21 x22
  exact (keeps_updHalf h22)

theorem keeps_storeLine {s1} {a1} {a2} (h1 : Keeps r s1) :
    Keeps r (storeLine s1 a1 a2) := by
  unfold storeLine
  exact (keeps_ite (keeps_tileStore h1) (keeps_hbmStore h1))

theorem keeps_memWriteLines {s1} {a1} {a2} {a3} (h1 : Keeps r s1) :
    Keeps r (memWriteLines s1 a1 a2 a3).1 := by
  unfold memWriteLines
  extract_lets -merge -underBinder +onlyGivenNames x20 x21
  clear_value x20 x21
  split
  · exact (keeps_holdOp h1)
  · exact (keeps_foldl h1 (fun _ _ h22 => (keeps_storeLine h22)))

theorem keeps_memWrite {s1} {a1} {a2} {a3} {a4} (h1 : Keeps r s1) :
    Keeps r (memWrite s1 a1 a2 a3 a4).1 := by
  unfold memWrite
  exact (keeps_memWriteLines h1)

theorem keeps_seenBy {s1} {a1} {a2} (h1 : Keeps r s1) :
    Keeps r (seenBy s1 a1 a2) := by
  unfold seenBy
  refine keeps_ite ?_ ?_
  · exact h1
  · refine keeps_foldl ?_ ?_
    · exact h1
    · intro y22 y23 h22
      refine keeps_ite ?_ ?_
      · exact h22
      · split
        · exact (keeps_foldl h22 (fun _ _ h24 => (keeps_ite h24 (keeps_setHbmBytes h24))))
        · exact (keeps_setHbmBytes h22)
        · exact h22

theorem keeps_locWrite {s1} {a1} {a2} {a3} {a4} (h1 : Keeps r s1) :
    Keeps r (locWrite s1 a1 a2 a3 a4).1 := by
  unfold locWrite
  split
  · exact (keeps_tileStore h1)
  · exact (keeps_foldl h1 (fun _ _ h20 => (keeps_setSramByte h20)))
  · exact (keeps_memWrite h1)
  · exact h1

theorem keeps_setEpoch {s1} {a1} {a2} {a3} (h1 : Keeps r s1) :
    Keeps r (setEpoch s1 a1 a2 a3) := by
  unfold setEpoch
  exact (keeps_updHalf h1)

theorem keeps_releaseAccs {s1} {a1} {a2} (h1 : Keeps r s1) :
    Keeps r (releaseAccs s1 a1 a2) := by
  unfold releaseAccs
  extract_lets -merge -underBinder +onlyGivenNames x20
  clear_value x20
  exact (keeps_updHalf h1)

theorem keeps_epochCheck {s1} {a1} {a2} (h1 : Keeps r s1) :
    Keeps r (epochCheck s1 a1 a2) := by
  unfold epochCheck
  extract_lets -merge -underBinder +onlyGivenNames x20
  clear_value x20
  refine keeps_ite ?_ ?_
  · extract_lets -merge -underBinder +onlyGivenNames x21 x22
    have h21 : Keeps r x21 := (keeps_putF (keeps_putF h1))
    have h22 : Keeps r x22 := (keeps_setEpoch (keeps_releaseAccs h21))
    clear_value x21 x22
    exact (keeps_foldl h22 (fun _ _ h23 => (keeps_answerW h23)))
  · exact h1

theorem keeps_addClosed {s1} {a1} {a2} {a3} {a4} (h1 : Keeps r s1) :
    Keeps r (addClosed s1 a1 a2 a3 a4) := by
  unfold addClosed
  extract_lets -merge -underBinder +onlyGivenNames x20 x21
  have h21 : Keeps r x21 := (keeps_setEpoch h1)
  clear_value x20 x21
  exact (keeps_putF h21)

theorem keeps_settleClosing {s1} {a1} {a2} (h1 : Keeps r s1) :
    Keeps r (settleClosing s1 a1 a2) := by
  unfold settleClosing
  extract_lets -merge -underBinder +onlyGivenNames x20 x21 x22
  have h22 : Keeps r x22 := (keeps_setEpoch h1)
  clear_value x20 x21 x22
  exact (keeps_epochCheck (keeps_foldl h22 (fun _ _ h23 => (keeps_addClosed h23))))

theorem keeps_closeSource {s1} {a1} {a2} {a3} {a4} (h1 : Keeps r s1) :
    Keeps r (closeSource s1 a1 a2 a3 a4).1 := by
  unfold closeSource
  extract_lets -merge -underBinder +onlyGivenNames x20
  clear_value x20
  refine keeps_ite1 ?_ ?_
  · exact h1
  · extract_lets -merge -underBinder +onlyGivenNames x21
    clear_value x21
    exact (keeps_settleClosing (keeps_setEpoch h1))

theorem keeps_keepOld {s1} {a1} {a2} {a3} {a4} (h1 : Keeps r s1) :
    Keeps r (keepOld s1 a1 a2 a3 a4) := by
  unfold keepOld
  extract_lets -merge -underBinder +onlyGivenNames x20 x21
  clear_value x20 x21
  exact (keeps_setEpoch h1)

theorem keeps_failClose {s1} {a1} {a2} {a3} {a4} (h1 : Keeps r s1) :
    Keeps r (failClose s1 a1 a2 a3 a4) := by
  unfold failClose
  extract_lets -merge -underBinder +onlyGivenNames x20 x21
  clear_value x20 x21
  exact (keeps_setEpoch h1)

theorem keeps_abortEpoch {s1} {a1} {a2} {a3} (h1 : Keeps r s1) :
    Keeps r (abortEpoch s1 a1 a2 a3) := by
  unfold abortEpoch
  extract_lets -merge -underBinder +onlyGivenNames x20 x21 x22 x23 x24 x25
  have h22 : Keeps r x22 := (keeps_putF h1)
  have h23 : Keeps r x23 := (keeps_ite (keeps_putF h22) h22)
  have h24 : Keeps r x24 := (keeps_updHalf h23)
  have h25 : Keeps r x25 := (keeps_setEpoch (keeps_releaseAccs h24))
  clear_value x20 x21 x22 x23 x24 x25
  exact (keeps_answerAll h25)

theorem keeps_giveOld {s1} {a1} {a2} {a3} {a4} (h1 : Keeps r s1) :
    Keeps r (giveOld s1 a1 a2 a3 a4) := by
  unfold giveOld
  split
  · exact (keeps_locWrite h1)
  · exact h1

theorem keeps_atomPlain {s1} {a1} (h1 : Keeps r s1) :
    Keeps r (atomPlain s1 a1) := by
  unfold atomPlain
  split
  · exact (keeps_ite (keeps_hbmStore h1) h1)

theorem keeps_atomAcc {s1} {a1} {a2} {a3} (h1 : Keeps r s1) :
    Keeps r (atomAcc s1 a1 a2 a3) := by
  unfold atomAcc
  extract_lets -merge -underBinder +onlyGivenNames x20
  clear_value x20
  exact (keeps_updHalf (keeps_setHbmBytes h1))

theorem keeps_atomExact {s1} {a1} (h1 : Keeps r s1) :
    Keeps r (atomExact s1 a1).1 := by
  unfold atomExact
  extract_lets -merge -underBinder +onlyGivenNames x20 x21 x22 x23 x24 x25 x26
  clear_value x20 x21 x22 x24 x25 x26
  split
  · exact (keeps_ite1 h1 (keeps_ite1 (keeps_atomAcc h1) (keeps_atomAcc h1)))
  · split
    · exact h1
    · exact (keeps_atomAcc h1)

theorem keeps_add64Word {s1} {a1} {a2} (h1 : Keeps r s1) :
    Keeps r (add64Word s1 a1 a2) := by
  unfold add64Word
  exact (keeps_hbmStore h1)

theorem keeps_applyAtomic {s1} {a1} {a2} {a3} {a4} (h1 : Keeps r s1) :
    Keeps r (applyAtomic s1 a1 a2 a3 a4).1 := by
  unfold applyAtomic
  extract_lets -merge -underBinder +onlyGivenNames x20 x21 x22 x23 x24 x25 x26
  clear_value x20 x21 x22 x23 x24 x25
  have h26 : ∀ y27 y28, Keeps r y28 → Keeps r (x26 y27 y28).1 := fun y27 y28 h28 => (keeps_ite1 (keeps_closeSource h28) h28)
  clear_value x26
  refine keeps_ite1 ?_ ?_
  · extract_lets -merge -underBinder +onlyGivenNames x29
    clear_value x29
    refine keeps_ite1 ?_ ?_
    · exact h1
    · refine keeps_ite1 ?_ ?_
      · extract_lets -merge -underBinder +onlyGivenNames x30 x31
        clear_value x30 x31
        refine keeps_ite1 ?_ ?_
        · exact (h26 _ _ (keeps_giveOld (keeps_add64Word h1)))
        · split
          · exact (h26 _ _ h1)
          · extract_lets -merge -underBinder +onlyGivenNames x32
            have h32 : Keeps r x32 := (keeps_updHalf h1)
            clear_value x32
            exact (h26 _ _ h32)
      · split
        · rename_i s33_0 _ e33
          have h33_0 : Keeps r s33_0 := keeps_of_eq1 e33 (keeps_atomExact h1)
          exact (keeps_ite1 (h26 _ _ h33_0) (h26 _ _ (keeps_giveOld h33_0)))
  · split
    · exact (keeps_ite1 (keeps_ite1 (h26 _ _ h1) (h26 _ _ (keeps_giveOld (keeps_atomAcc h1)))) (h26 _ _ (keeps_giveOld (keeps_atomPlain h1))))
    · exact (h26 _ _ (keeps_giveOld (keeps_atomPlain h1)))

theorem keeps_refusedAtom {s1} {a1} {a2} {a3} {a4} (h1 : Keeps r s1) :
    Keeps r (refusedAtom s1 a1 a2 a3 a4).1 := by
  unfold refusedAtom
  extract_lets -merge -underBinder +onlyGivenNames x20
  clear_value x20
  exact (keeps_ite1 (keeps_closeSource h1) h1)

theorem keeps_memAtomic {s1} {a1} {a2} {a3} {a4} {a5} (h1 : Keeps r s1) :
    Keeps r (memAtomic s1 a1 a2 a3 a4 a5).1 := by
  unfold memAtomic
  extract_lets -merge -underBinder +onlyGivenNames x20 x21
  clear_value x20 x21
  refine keeps_ite1 ?_ ?_
  · exact h1
  · extract_lets -merge -underBinder +onlyGivenNames x22
    clear_value x22
    exact (keeps_ite1 h1 (keeps_ite1 (keeps_refusedAtom h1) (keeps_ite1 (keeps_refusedAtom h1) (keeps_ite1 (keeps_holdOp h1) (keeps_applyAtomic h1)))))

theorem keeps_finishW {s1} {a1} (h1 : Keeps r s1.1) :
    Keeps r (finishW s1 a1) := by
  unfold finishW
  split
  · exact (keeps_answerW h1)
  · exact h1

end Sys2Proof.Machine
end

