-- ==== Sys2Proof/Laws/KeepsMem.lean ====
section
/-! SUPPORT. What each operation of Machine/Mem.lean keeps. -/

namespace Sys2Proof.Machine

variable {r : State}

theorem keeps_eccChannel {s1} {a1} {a2} {a3} (h1 : Keeps r s1) :
    Keeps r (eccChannel s1 a1 a2 a3) := by
  unfold eccChannel
  split
  · exact h1
  · exact (keeps_detectCorrected h1)
  · exact (keeps_detectUncorrected h1)

theorem keeps_eccSlot {s1} {a1} {a2} {a3} (h1 : Keeps r s1) :
    Keeps r (eccSlot s1 a1 a2 a3) := by
  unfold eccSlot
  split
  · exact h1
  · exact (keeps_detectCorrected h1)
  · extract_lets -merge -underBinder +onlyGivenNames x20 x21
    have h20 : Keeps r x20 := (keeps_detectUncorrected h1)
    clear_value x20 x21
    exact (keeps_ite (keeps_loseSlot (keeps_unitErrorHalt h20)) h20)

theorem keeps_eccAt {s1} {a1} {a2} (h1 : Keeps r s1) :
    Keeps r (eccAt s1 a1 a2) := by
  unfold eccAt
  refine keeps_ite ?_ ?_
  · exact (keeps_eccSlot h1)
  · split
    · exact (keeps_eccChannel h1)
    · exact h1

theorem keeps_execMemoryRead {a0} {a1} {a2} {a3} {s} (h : Keeps r s) :
    KeepsX r (execMemoryRead a0 a1 a2 a3 s) := by
  unfold execMemoryRead
  refine keepsX_next ?_
  extract_lets -merge -underBinder +onlyGivenNames x20
  clear_value x20
  split
  · refine keeps_ite ?_ ?_
    · exact (keeps_answer h)
    · refine keeps_ite ?_ ?_
      · split
        · rename_i s21_0 _ e21
          have h21_0 : Keeps r s21_0 := keeps_of_eq1 e21 (keeps_askLater h)
          exact (keeps_answer (keeps_holdOp h21_0))
      · exact (keeps_answer (keeps_eccAt h))

theorem keeps_answerNow {s1} {s2} {a2} (h1 : Keeps r s1) (h2 : Keeps r s2.1) :
    Keeps r (answerNow s1 s2 a2) := by
  unfold answerNow
  split
  · refine keeps_answer ?_
    · extract_lets -merge -underBinder +onlyGivenNames x20
      have h20 : Keeps r x20 := h2
      clear_value x20
      exact (keeps_mk h20)
  · exact (keeps_answer h2)

theorem keeps_execMemoryWrite {a0} {a1} {a2} {s} (h : Keeps r s) :
    KeepsX r (execMemoryWrite a0 a1 a2 s) := by
  unfold execMemoryWrite
  refine keepsX_next ?_
  split
  · rename_i s20_0 _ e20
    have h20_0 : Keeps r s20_0 := keeps_of_eq1 e20 (keeps_askLater h)
    exact (keeps_answerNow h (keeps_memWrite h20_0))

theorem keeps_execMemoryAtomic {a0} {a1} {s} (h : Keeps r s) :
    KeepsX r (execMemoryAtomic a0 a1 s) := by
  unfold execMemoryAtomic
  refine keepsX_next ?_
  extract_lets -merge -underBinder +onlyGivenNames x20
  clear_value x20
  refine keeps_ite ?_ ?_
  · exact (keeps_answer h)
  · extract_lets -merge -underBinder +onlyGivenNames x21
    clear_value x21
    split
    · rename_i s22_0 _ e22
      have h22_0 : Keeps r s22_0 := keeps_of_eq1 e22 (keeps_askLater h)
      exact (keeps_answerNow h (keeps_memAtomic h22_0))

theorem keeps_execTileApertureAccess {a0} {a1} {a2} {a3} {s} (h : Keeps r s) :
    KeepsX r (execTileApertureAccess a0 a1 a2 a3 s) := by
  unfold execTileApertureAccess
  refine keepsX_next ?_
  extract_lets -merge -underBinder +onlyGivenNames x20
  try clear_value x20
  exact (keeps_ite (keeps_answer h) (keeps_ite (keeps_answer (keeps_tileStore h)) (keeps_answer h)))

theorem keeps_add64Apply {s1} {a1} {a2} (h1 : Keeps r s1) :
    Keeps r (add64Apply s1 a1 a2) := by
  unfold add64Apply
  extract_lets -merge -underBinder +onlyGivenNames x20
  have h20 : Keeps r x20 := (keeps_updHalf h1)
  clear_value x20
  refine keeps_ite ?_ ?_
  · exact (keeps_ite (keeps_failClose h20) (keeps_answerW h20))
  · extract_lets -merge -underBinder +onlyGivenNames x21 x22
    have h22 : Keeps r x22 := (keeps_giveOld (keeps_add64Word h20))
    clear_value x21 x22
    exact (keeps_ite (keeps_keepOld h22) (keeps_answerW h22))

theorem keeps_execReproFp64AddApply {a0} {a1} {s} (h : Keeps r s) :
    KeepsX r (execReproFp64AddApply a0 a1 s) := by
  unfold execReproFp64AddApply
  refine keepsX_next ?_
  extract_lets -merge -underBinder +onlyGivenNames x20 x21
  clear_value x20 x21
  split
  · exact h
  · exact (keeps_settleClosing (keeps_add64Apply h))

theorem keeps_epochWrite {s1} {a1} {a2} {a3} {a4} (h1 : Keeps r s1) :
    Keeps r (epochWrite s1 a1 a2 a3 a4) := by
  unfold epochWrite
  refine keeps_guarded h1 ?_
  · intro y22 h22
    extract_lets -merge -underBinder +onlyGivenNames x23 x24
    clear_value x24
    refine keeps_ite ?_ ?_
    · exact (keeps_denied h22)
    · extract_lets -merge -underBinder +onlyGivenNames x25 x26 x27 x28
      have h25 : Keeps r x25 := (keeps_ite (keeps_putF h22) h22)
      have h26 : Keeps r x26 := (keeps_ite (keeps_abortEpoch h25) h25)
      have h27 : Keeps r x27 := (keeps_putF h26)
      have h28 : Keeps r x28 := (keeps_putF h27)
      clear_value x25 x26 x27 x28
      refine keeps_done ?_
      · refine keeps_ite ?_ ?_
        · extract_lets -merge -underBinder +onlyGivenNames x29
          have h29 : Keeps r x29 := (keeps_putF (keeps_putF (keeps_putF h28)))
          clear_value x29
          exact (keeps_setEpoch h29)
        · exact h28

theorem keeps_execEpochOpen {a0} {a1} {a2} {a3} {s} (h : Keeps r s) :
    KeepsX r (execEpochOpen a0 a1 a2 a3 s) := by
  unfold execEpochOpen
  exact (keepsX_next (keeps_epochWrite h))

theorem keeps_execEpochAbort {a0} {a1} {a2} {a3} {s} (h : Keeps r s) :
    KeepsX r (execEpochAbort a0 a1 a2 a3 s) := by
  unfold execEpochAbort
  exact (keepsX_next (keeps_epochWrite h))

theorem keeps_execEpochTimeout {a0} {a1} {s} (h : Keeps r s) :
    KeepsX r (execEpochTimeout a0 a1 s) := by
  unfold execEpochTimeout
  refine keepsX_next ?_
  extract_lets -merge -underBinder +onlyGivenNames x20 x21
  clear_value x20 x21
  exact (keeps_ite (keeps_abortEpoch h) h)

theorem keeps_applyHeld {s1} {a1} (h1 : Keeps r s1) :
    Keeps r (applyHeld s1 a1) := by
  unfold applyHeld
  split
  · extract_lets -merge -underBinder +onlyGivenNames x20 x21
    clear_value x20 x21
    exact (keeps_answerW (keeps_foldl h1 (fun _ _ h22 => (keeps_storeLine h22))))
  · extract_lets -merge -underBinder +onlyGivenNames x23 x24
    clear_value x23 x24
    split
    · rename_i s25_0 _ e25
      have h25_0 : Keeps r s25_0 := keeps_of_eq1 e25 (keeps_ite1 (keeps_refusedAtom h1) (keeps_applyAtomic h1))
      extract_lets -merge -underBinder +onlyGivenNames x26
      have h26 : Keeps r x26 := by
        unfold x26
        split
        · exact (keeps_answerW h25_0)
        · exact h25_0
      clear_value x26
      exact (keeps_settleClosing h26)
  · split
    · split
      · exact (keeps_mk h1)
      · exact h1

theorem keeps_releaseHeld {s1} {a1} (h1 : Keeps r s1) :
    Keeps r (releaseHeld s1 a1) := by
  unfold releaseHeld
  extract_lets -merge -underBinder +onlyGivenNames x20 x21 x22
  clear_value x20 x21 x22
  exact (keeps_foldl (keeps_updHalf h1) (fun _ _ h23 => (keeps_applyHeld h23)))

theorem keeps_execTrackerHoldRelease {a0} {s} (h : Keeps r s) :
    KeepsX r (execTrackerHoldRelease a0 s) := by
  unfold execTrackerHoldRelease
  refine keepsX_next ?_
  extract_lets -merge -underBinder +onlyGivenNames x20
  clear_value x20
  split
  · exact h
  · extract_lets -merge -underBinder +onlyGivenNames x21
    clear_value x21
    exact (keeps_ite h (keeps_releaseHeld (keeps_foldl h (fun _ _ h22 => (keeps_stashSlice h22)))))

theorem keeps_setOwner {s1} {a1} {a2} {a3} (h1 : Keeps r s1) :
    Keeps r (setOwner s1 a1 a2 a3) := by
  unfold setOwner
  exact (keeps_mk h1)

theorem keeps_tgWrite {s1} {a1} {a2} {a3} (h1 : Keeps r s1) :
    Keeps r (tgWrite s1 a1 a2 a3) := by
  unfold tgWrite
  refine keeps_guarded h1 ?_
  · intro y22 h22
    extract_lets -merge -underBinder +onlyGivenNames x23 x24 x25 x26 x27
    clear_value x23 x24 x25 x27
    refine keeps_ite ?_ ?_
    · exact (keeps_denied h22)
    · extract_lets -merge -underBinder +onlyGivenNames x28 x29 x30
      have h28 : Keeps r x28 := (keeps_setReg h22)
      have h29 : Keeps r x29 := (keeps_ite (keeps_putF h28) h28)
      have h30 : Keeps r x30 := (keeps_ite (keeps_updHalf (keeps_putF h29)) h29)
      clear_value x28 x29 x30
      exact (keeps_done (keeps_ite (keeps_putF (keeps_putF h30)) h30))

theorem keeps_execTgStart {a0} {a1} {a2} {s} (h : Keeps r s) :
    KeepsX r (execTgStart a0 a1 a2 s) := by
  unfold execTgStart
  exact (keepsX_next (keeps_tgWrite h))

theorem keeps_execTgStop {a0} {a1} {a2} {s} (h : Keeps r s) :
    KeepsX r (execTgStop a0 a1 a2 s) := by
  unfold execTgStop
  exact (keepsX_next (keeps_tgWrite h))

theorem keeps_execTgModeSelect {a0} {a1} {a2} {s} (h : Keeps r s) :
    KeepsX r (execTgModeSelect a0 a1 a2 s) := by
  unfold execTgModeSelect
  exact (keepsX_next (keeps_tgWrite h))

theorem keeps_tgFail {s1} {a1} {a2} {a3} {a4} (h1 : Keeps r s1) :
    Keeps r (tgFail s1 a1 a2 a3 a4) := by
  unfold tgFail
  extract_lets -merge -underBinder +onlyGivenNames x20
  have h20 : Keeps r x20 := (keeps_putF (keeps_bumpF h1))
  clear_value x20
  refine keeps_ite ?_ ?_
  · exact h20
  · extract_lets -merge -underBinder +onlyGivenNames x21
    have h21 : Keeps r x21 := (keeps_updHalf h20)
    clear_value x21
    exact (keeps_putF (keeps_putF h21))

theorem keeps_execTgRunEnd {a0} {a1} {a2} {a3} {s} (h : Keeps r s) :
    KeepsX r (execTgRunEnd a0 a1 a2 a3 s) := by
  unfold execTgRunEnd
  refine keepsX_next ?_
  extract_lets -merge -underBinder +onlyGivenNames x20
  clear_value x20
  refine keeps_ite ?_ ?_
  · exact h
  · extract_lets -merge -underBinder +onlyGivenNames x21
    have h21 : Keeps r x21 := (keeps_putF (keeps_putF h))
    clear_value x21
    exact (keeps_ite h21 (keeps_tgFail h21))

theorem keeps_execScrubRead {a0} {a1} {a2} {a3} {s} (h : Keeps r s) :
    KeepsX r (execScrubRead a0 a1 a2 a3 s) := by
  unfold execScrubRead
  refine keepsX_next ?_
  extract_lets -merge -underBinder +onlyGivenNames x20
  clear_value x20
  exact (keeps_ite h (keeps_eccChannel (keeps_tgFail h)))

theorem keeps_execDramRefresh {a0} {a1} {s} (h : Keeps r s) :
    KeepsX r (execDramRefresh a0 a1 s) := by
  unfold execDramRefresh
  refine keepsX_next ?_
  extract_lets -merge -underBinder +onlyGivenNames x20
  clear_value x20
  exact (keeps_ite h (keeps_bumpF h))

theorem keeps_execChannelTrainingDone {a0} {s} (h : Keeps r s) :
    KeepsX r (execChannelTrainingDone a0 s) := by
  unfold execChannelTrainingDone
  refine keepsX_next ?_
  extract_lets -merge -underBinder +onlyGivenNames x20 x21 x22
  have h22 : Keeps r x22 := (keeps_ite (keeps_loadKey h) h)
  clear_value x20 x21 x22
  exact (keeps_foldl h22 (fun _ _ h23 => (keeps_ite (keeps_putF h23) h23)))

theorem keeps_execBridgeAdmissionResume {a0} {s} (h : Keeps r s) :
    KeepsX r (execBridgeAdmissionResume a0 s) := by
  unfold execBridgeAdmissionResume
  exact (keepsX_next (keeps_ite (keeps_releaseHeld (keeps_releaseHeld (keeps_mk h))) h))

end Sys2Proof.Machine
end

