-- ==== Sys2Proof/Laws/KeepsLeat.lean ====
section
/-! SUPPORT. What each operation of Machine/Leat.lean keeps. -/

namespace Sys2Proof.Machine

variable {r : State}

theorem keeps_moreWait {s1} {a1} (h1 : Keeps r s1) :
    Keeps r (moreWait s1 a1) := by
  unfold moreWait
  split
  · exact (keeps_updCtl h1)
  · exact h1

theorem keeps_fence {s1} {a1} {a2} (h1 : Keeps r s1) :
    Keeps r (fence s1 a1 a2) := by
  unfold fence
  extract_lets -merge -underBinder +onlyGivenNames x20
  clear_value x20
  exact (keeps_writeRecord (keeps_bumpF h1))

theorem keeps_verdict {s1} {a1} {a2} {a3} (h1 : Keeps r s1) :
    Keeps r (verdict s1 a1 a2 a3).1 := by
  unfold verdict
  extract_lets -merge -underBinder +onlyGivenNames x20 x21 x22 x23 x24 x25 x26 x27 x28 x29 x30 x31 x32
  clear_value x20 x21 x22 x23 x24 x25 x26 x27 x28 x29 x30 x31 x32
  refine keeps_ite1 ?_ ?_
  · exact (keeps_fence h1)
  · refine keeps_ite1 ?_ ?_
    · exact (keeps_bumpF h1)
    · refine keeps_ite1 ?_ ?_
      · exact h1
      · refine keeps_ite1 ?_ ?_
        · exact h1
        · refine keeps_ite1 ?_ ?_
          · exact h1
          · refine keeps_ite1 ?_ ?_
            · exact h1
            · refine keeps_ite1 ?_ ?_
              · exact h1
              · refine keeps_ite1 ?_ ?_
                · exact h1
                · refine keeps_ite1 ?_ ?_
                  · exact h1
                  · extract_lets -merge -underBinder +onlyGivenNames x33
                    have h33 : Keeps r x33 := (keeps_ite (keeps_bumpF h1) h1)
                    clear_value x33
                    exact h33

theorem keeps_serveWrite {s1} {a1} {a2} {a3} {a4} {a5} {a6} (h1 : Keeps r s1) :
    Keeps r (serveWrite s1 a1 a2 a3 a4 a5 a6).1 := by
  unfold serveWrite
  exact (keeps_ite1 (keeps_memWriteLines h1) (keeps_ite1 (keeps_ite1 (keeps_closeSource h1) h1) (keeps_ite1 (keeps_refusedAtom h1) (keeps_memAtomic h1))))

theorem keeps_serveRemote {s1} {a1} {a2} (h1 : Keeps r s1) :
    Keeps r (serveRemote s1 a1 a2) := by
  unfold serveRemote
  split
  · rename_i s20_0 e20
    have h20_0 : Keeps r s20_0 := keeps_of_eq1 e20 (keeps_verdict h1)
    exact h20_0
  · rename_i s21_0 _ e21
    have h21_0 : Keeps r s21_0 := keeps_of_eq1 e21 (keeps_verdict h1)
    exact (keeps_respond h21_0)
  · rename_i s22_0 _ e22
    have h22_0 : Keeps r s22_0 := keeps_of_eq1 e22 (keeps_verdict h1)
    exact (keeps_respond h22_0)
  · rename_i s23_0 _ _ e23
    have h23_0 : Keeps r s23_0 := keeps_of_eq1 e23 (keeps_verdict h1)
    refine keeps_ite ?_ ?_
    · split
      · exact (keeps_respond h23_0)
    · extract_lets -merge -underBinder +onlyGivenNames x24 x25
      clear_value x24 x25
      split
      · rename_i s26_0 _ e26
        have h26_0 : Keeps r s26_0 := keeps_of_eq1 e26 (keeps_serveWrite h23_0)
        split
        · exact (keeps_answerW h26_0)
        · exact h26_0

theorem keeps_arriveReq {s1} {a1} {a2} (h1 : Keeps r s1) :
    Keeps r (arriveReq s1 a1 a2) := by
  unfold arriveReq
  extract_lets -merge -underBinder +onlyGivenNames x20
  clear_value x20
  exact (keeps_ite (keeps_serveRemote h1) (keeps_rerouteOther h1))

theorem keeps_execLeatReadReq {a0} {a1} {s} (h : Keeps r s) :
    KeepsX r (execLeatReadReq a0 a1 s) := by
  unfold execLeatReadReq
  exact (keepsX_next (keeps_arriveReq h))

theorem keeps_execLeatWrite {a0} {a1} {s} (h : Keeps r s) :
    KeepsX r (execLeatWrite a0 a1 s) := by
  unfold execLeatWrite
  exact (keepsX_next (keeps_arriveReq h))

theorem keeps_execLeatAtomic {a0} {a1} {s} (h : Keeps r s) :
    KeepsX r (execLeatAtomic a0 a1 s) := by
  unfold execLeatAtomic
  exact (keepsX_next (keeps_arriveReq h))

theorem keeps_outstanding {s1} {a1} {a2} {a3} {a4} {a5} {a6} (h1 : Keeps r s1) :
    Keeps r (outstanding s1 a1 a2 a3 a4 a5 a6) := by
  unfold outstanding
  exact (keeps_updHalf h1)

theorem keeps_takeTag {s1} {a1} {a2} (h1 : Keeps r s1) :
    Keeps r (takeTag s1 a1 a2).1 := by
  unfold takeTag
  exact (keeps_updHalf h1)

theorem keeps_sendReq {s1} {a1} {a2} {a3} {a4} {a5} (h1 : Keeps r s1) :
    Keeps r (sendReq s1 a1 a2 a3 a4 a5).1 := by
  unfold sendReq
  split
  · rename_i s20_0 _ e20
    have h20_0 : Keeps r s20_0 := keeps_of_eq1 e20 (keeps_takeTag h1)
    extract_lets -merge -underBinder +onlyGivenNames x21
    clear_value x21
    split
    · exact h20_0
    · exact (keeps_enqueue (keeps_outstanding h20_0))

theorem keeps_issueWrite {s1} {a1} {a2} {a3} {a4} {a5} (h1 : Keeps r s1) :
    Keeps r (issueWrite s1 a1 a2 a3 a4 a5).1 := by
  unfold issueWrite
  extract_lets -merge -underBinder +onlyGivenNames x20 x21
  clear_value x20 x21
  refine keeps_ite1 ?_ ?_
  · extract_lets -merge -underBinder +onlyGivenNames x22
    clear_value x22
    refine keeps_ite1 ?_ ?_
    · exact h1
    · split
      · rename_i s23_0 e23
        have h23_0 : Keeps r s23_0 := keeps_of_eq1 e23 (keeps_verdict h1)
        split
        · rename_i s24_0 _ e24
          have h24_0 : Keeps r s24_0 := keeps_of_eq1 e24 (keeps_takeTag h23_0)
          exact (keeps_outstanding h24_0)
      · rename_i s25_0 _ e25
        have h25_0 : Keeps r s25_0 := keeps_of_eq1 e25 (keeps_verdict h1)
        exact h25_0
      · rename_i s26_0 _ e26
        have h26_0 : Keeps r s26_0 := keeps_of_eq1 e26 (keeps_verdict h1)
        exact h26_0
      · rename_i s27_0 _ _ e27
        have h27_0 : Keeps r s27_0 := keeps_of_eq1 e27 (keeps_verdict h1)
        split
        · rename_i s28_0 _ e28
          have h28_0 : Keeps r s28_0 := keeps_of_eq1 e28 (keeps_takeTag h27_0)
          extract_lets -merge -underBinder +onlyGivenNames x29
          have h29 : Keeps r x29 := (keeps_outstanding h28_0)
          clear_value x29
          split
          · rename_i s30_0 _ e30
            have h30_0 : Keeps r s30_0 := keeps_of_eq1 e30 (keeps_serveWrite h29)
            exact (keeps_updHalf h30_0)
          · rename_i s31_0 e31
            have h31_0 : Keeps r s31_0 := keeps_of_eq1 e31 (keeps_serveWrite h29)
            exact h31_0
  · exact (keeps_sendReq h1)

theorem keeps_putFab {s1} {a1} {a2} {a3} {a4} {a5} {a6} (h1 : Keeps r s1) :
    Keeps r (putFab s1 a1 a2 a3 a4 a5 a6).1 := by
  unfold putFab
  extract_lets -merge -underBinder +onlyGivenNames x20 x21 x22 x23
  clear_value x20 x21 x22 x23
  exact (keeps_issueWrite h1)

theorem keeps_deliverBytes {s1} {a1} {a2} {a3} {a4} {a5} {a6} (h1 : Keeps r s1) :
    Keeps r (deliverBytes s1 a1 a2 a3 a4 a5 a6) := by
  unfold deliverBytes
  refine keeps_foldl ?_ ?_
  · exact h1
  · intro y21 y22 h21
    extract_lets -merge -underBinder +onlyGivenNames x23 x24
    have h24 : Keeps r x24 := (keeps_moreWait h21)
    clear_value x23 x24
    split
    · exact (keeps_finishW (keeps_putFab h24))
    · exact (keeps_finishW (keeps_locWrite h24))

theorem keeps_issueRead {s1} {a1} {a2} {a3} {a4} {a5} (h1 : Keeps r s1) :
    Keeps r (issueRead s1 a1 a2 a3 a4 a5).1 := by
  unfold issueRead
  extract_lets -merge -underBinder +onlyGivenNames x20
  clear_value x20
  refine keeps_ite1 ?_ ?_
  · extract_lets -merge -underBinder +onlyGivenNames x21
    clear_value x21
    refine keeps_ite1 ?_ ?_
    · exact h1
    · split
      · rename_i s22_0 e22
        have h22_0 : Keeps r s22_0 := keeps_of_eq1 e22 (keeps_verdict h1)
        split
        · rename_i s23_0 _ e23
          have h23_0 : Keeps r s23_0 := keeps_of_eq1 e23 (keeps_takeTag h22_0)
          exact (keeps_outstanding h23_0)
      · rename_i s24_0 _ e24
        have h24_0 : Keeps r s24_0 := keeps_of_eq1 e24 (keeps_verdict h1)
        exact h24_0
      · rename_i s25_0 _ e25
        have h25_0 : Keeps r s25_0 := keeps_of_eq1 e25 (keeps_verdict h1)
        exact h25_0
      · rename_i s26_0 _ _ e26
        have h26_0 : Keeps r s26_0 := keeps_of_eq1 e26 (keeps_verdict h1)
        split
        · exact (keeps_ite1 h26_0 (keeps_deliverBytes h26_0))
  · exact (keeps_sendReq h1)

theorem keeps_arriveResp {s1} {a1} {a2} (h1 : Keeps r s1) :
    Keeps r (arriveResp s1 a1 a2) := by
  unfold arriveResp
  extract_lets -merge -underBinder +onlyGivenNames x20
  clear_value x20
  refine keeps_ite ?_ ?_
  · exact (keeps_rerouteOther h1)
  · extract_lets -merge -underBinder +onlyGivenNames x21
    clear_value x21
    refine keeps_ite ?_ ?_
    · exact (keeps_fence h1)
    · split
      · exact (keeps_bumpF h1)
      · extract_lets -merge -underBinder +onlyGivenNames x22 x23
        have h22 : Keeps r x22 := (keeps_dropReq h1)
        have h23 : Keeps r x23 := (keeps_ite (keeps_deliverBytes h22) h22)
        clear_value x22 x23
        exact (keeps_answerW h23)

theorem keeps_execLeatReadResp {a0} {a1} {s} (h : Keeps r s) :
    KeepsX r (execLeatReadResp a0 a1 s) := by
  unfold execLeatReadResp
  exact (keepsX_next (keeps_arriveResp h))

theorem keeps_execLeatCompletion {a0} {a1} {s} (h : Keeps r s) :
    KeepsX r (execLeatCompletion a0 a1 s) := by
  unfold execLeatCompletion
  exact (keepsX_next (keeps_arriveResp h))

theorem keeps_forgetRet {s1} {a1} (h1 : Keeps r s1) :
    Keeps r (forgetRet s1 a1) := by
  unfold forgetRet
  exact (keeps_foldl h1 (fun _ _ h20 => (keeps_updHalf h20)))

theorem keeps_execLeatTimeout {a0} {a1} {s} (h : Keeps r s) :
    KeepsX r (execLeatTimeout a0 a1 s) := by
  unfold execLeatTimeout
  refine keepsX_next ?_
  extract_lets -merge -underBinder +onlyGivenNames x20
  clear_value x20
  split
  · exact h
  · extract_lets -merge -underBinder +onlyGivenNames x21 x22
    have h21 : Keeps r x21 := (keeps_dropReq h)
    have h22 : Keeps r x22 := (keeps_updHalf h21)
    clear_value x21 x22
    exact (keeps_answerW (keeps_forgetRet h22))

theorem keeps_putRegion {s1} {a1} {a2} {a3} (h1 : Keeps r s1) :
    Keeps r (putRegion s1 a1 a2 a3) := by
  unfold putRegion
  exact (keeps_foldl h1 (fun _ _ h20 => (keeps_setReg h20)))

theorem keeps_rcommitWrite {s1} {a1} {a2} {a3} (h1 : Keeps r s1) :
    Keeps r (rcommitWrite s1 a1 a2 a3) := by
  unfold rcommitWrite
  refine keeps_guarded h1 ?_
  · intro y22 h22
    extract_lets -merge -underBinder +onlyGivenNames x23 x24
    clear_value x23 x24
    exact (keeps_ite (keeps_done h22) (keeps_ite (keeps_done (keeps_putRegion h22)) (keeps_denied h22)))

theorem keeps_execLeatRcommit {a0} {a1} {a2} {s} (h : Keeps r s) :
    KeepsX r (execLeatRcommit a0 a1 a2 s) := by
  unfold execLeatRcommit
  exact (keepsX_next (keeps_rcommitWrite h))

theorem keeps_jobWrite {s1} {a1} {a2} {a3} {a4} (h1 : Keeps r s1) :
    Keeps r (jobWrite s1 a1 a2 a3 a4) := by
  unfold jobWrite
  refine keeps_guarded h1 ?_
  · intro y22 h22
    extract_lets -merge -underBinder +onlyGivenNames x23
    have h23 : Keeps r x23 := (keeps_setReg h22)
    clear_value x23
    exact (keeps_done (keeps_ite h23 (keeps_putF h23)))

theorem keeps_execLeatJobEpochWrite {a0} {a1} {a2} {a3} {s} (h : Keeps r s) :
    KeepsX r (execLeatJobEpochWrite a0 a1 a2 a3 s) := by
  unfold execLeatJobEpochWrite
  exact (keepsX_next (keeps_jobWrite h))

theorem keeps_execLeatSlotDrained {a0} {a1} {s} (h : Keeps r s) :
    KeepsX r (execLeatSlotDrained a0 a1 s) := by
  unfold execLeatSlotDrained
  exact (keepsX_next (keeps_ite h (keeps_putF h)))

theorem keeps_execLeatPortRemove {a0} {a1} {s} (h : Keeps r s) :
    KeepsX r (execLeatPortRemove a0 a1 s) := by
  unfold execLeatPortRemove
  refine keepsX_next ?_
  extract_lets -merge -underBinder +onlyGivenNames x20 x21 x22
  clear_value x20 x21 x22
  refine keeps_ite ?_ ?_
  · exact h
  · extract_lets -merge -underBinder +onlyGivenNames x23 x24 x25 x26
    have h24 : Keeps r x24 := (keeps_putF (keeps_putF h))
    have h25 : Keeps r x25 := (keeps_bumpF h24)
    have h26 : Keeps r x26 := (keeps_detectUncorrected h25)
    clear_value x23 x24 x25 x26
    exact (keeps_ite h26 (keeps_linkDown h26))

theorem keeps_execLeatLinkTrained {a0} {a1} {a2} {a3} {s} (h : Keeps r s) :
    KeepsX r (execLeatLinkTrained a0 a1 a2 a3 s) := by
  unfold execLeatLinkTrained
  refine keepsX_next ?_
  extract_lets -merge -underBinder +onlyGivenNames x20 x21 x22 x23 x24
  clear_value x20 x21 x22 x23 x24
  refine keeps_ite ?_ ?_
  · exact h
  · extract_lets -merge -underBinder +onlyGivenNames x25
    have h25 : Keeps r x25 := by
      unfold x25
      refine keeps_foldl ?_ ?_
      · exact h
      · intro y28 y29 h28
        extract_lets -merge -underBinder +onlyGivenNames x30 x31
        have h30 : Keeps r x30 := (keeps_putF (keeps_putF h28))
        have h31 : Keeps r x31 := (keeps_putF h30)
        clear_value x30 x31
        exact (keeps_putF h31)
    clear_value x25
    exact (keeps_ite (keeps_pump h25) (keeps_plainRecord h25))

theorem keeps_execLeatSessionHandshake {a0} {a1} {a2} {a3} {a4} {s} (h : Keeps r s) :
    KeepsX r (execLeatSessionHandshake a0 a1 a2 a3 a4 s) := by
  unfold execLeatSessionHandshake
  refine keepsX_next ?_
  extract_lets -merge -underBinder +onlyGivenNames x20 x21
  clear_value x20 x21
  refine keeps_ite ?_ ?_
  · exact h
  · split
    · rename_i _ s22_1 e22
      have h22_1 : Keeps r s22_1 := keeps_of_eq2 e22 (keeps_draw h)
      split
      · rename_i _ s23_1 e23
        have h23_1 : Keeps r s23_1 := keeps_of_eq2 e23 (keeps_draw h22_1)
        split
        · rename_i _ s24_1 e24
          have h24_1 : Keeps r s24_1 := keeps_of_eq2 e24 (keeps_fresh h23_1)
          extract_lets -merge -underBinder +onlyGivenNames x25 x26 x27 x28 x29 x30
          have h29 : Keeps r x29 := (keeps_updHalf h24_1)
          have h30 : Keeps r x30 := (keeps_setWords h29)
          clear_value x25 x26 x27 x28 x29 x30
          exact (keeps_pump (keeps_updLink h30))

theorem keeps_sendBulk {s1} {a1} {a2} {a3} {a4} {a5} {a6} {a7} {a8} {a9} {a10} {a11} {a12} {a13} {a14} {a15} {a16} (h1 : Keeps r s1) :
    Keeps r (sendBulk s1 a1 a2 a3 a4 a5 a6 a7 a8 a9 a10 a11 a12 a13 a14 a15 a16) := by
  unfold sendBulk
  extract_lets -merge -underBinder +onlyGivenNames x20
  have h20 : Keeps r x20 := (keeps_moreWait h1)
  clear_value x20
  split
  · refine keeps_ite ?_ ?_
    · exact (keeps_answerW h20)
    · extract_lets -merge -underBinder +onlyGivenNames x21 x22 x23
      have h23 : Keeps r x23 := (keeps_updHalf h20)
      clear_value x21 x22 x23
      exact (keeps_foldl h23 (fun _ _ h24 => (keeps_enqueue h24)))

theorem keeps_gatewayRow {s1} {a1} {a2} {a3} {a4} {a5} {a6} {a7} {a8} {a9} (h1 : Keeps r s1) :
    Keeps r (gatewayRow s1 a1 a2 a3 a4 a5 a6 a7 a8 a9).1 := by
  unfold gatewayRow
  extract_lets -merge -underBinder +onlyGivenNames x20 x21 x22
  clear_value x20 x21 x22
  refine keeps_ite1 ?_ ?_
  · exact h1
  · refine keeps_ite1 ?_ ?_
    · exact h1
    · split
      · rename_i s23_0 e23
        have h23_0 : Keeps r s23_0 := keeps_of_eq1 e23 (keeps_verdict h1)
        split
        · rename_i s24_0 _ e24
          have h24_0 : Keeps r s24_0 := keeps_of_eq1 e24 (keeps_takeTag h23_0)
          exact (keeps_outstanding (keeps_moreWait h24_0))
      · rename_i s25_0 _ e25
        have h25_0 : Keeps r s25_0 := keeps_of_eq1 e25 (keeps_verdict h1)
        exact h25_0
      · rename_i s26_0 _ _ e26
        have h26_0 : Keeps r s26_0 := keeps_of_eq1 e26 (keeps_verdict h1)
        exact h26_0
      · rename_i s27_0 _ e27
        have h27_0 : Keeps r s27_0 := keeps_of_eq1 e27 (keeps_verdict h1)
        extract_lets -merge -underBinder +onlyGivenNames x28 x29
        clear_value x28 x29
        split
        · exact h27_0
        · exact (keeps_foldl h27_0 (fun _ _ h30 => (keeps_sendBulk h30)))

theorem keeps_endBulk {s1} {a1} {a2} {a3} (h1 : Keeps r s1) :
    Keeps r (endBulk s1 a1 a2 a3) := by
  unfold endBulk
  extract_lets -merge -underBinder +onlyGivenNames x20
  have h20 : Keeps r x20 := (keeps_dropMsg h1)
  clear_value x20
  refine keeps_ite ?_ ?_
  · exact (keeps_answerW h20)
  · extract_lets -merge -underBinder +onlyGivenNames x21
    have h21 : Keeps r x21 := (keeps_putF (keeps_putF (keeps_putF h20)))
    clear_value x21
    exact (keeps_answerW h21)

theorem keeps_execGwMessageComplete {a0} {a1} {a2} {s} (h : Keeps r s) :
    KeepsX r (execGwMessageComplete a0 a1 a2 s) := by
  unfold execGwMessageComplete
  refine keepsX_next ?_
  split
  · exact h
  · exact (keeps_endBulk h)

theorem keeps_execGwTimeout {a0} {a1} {s} (h : Keeps r s) :
    KeepsX r (execGwTimeout a0 a1 s) := by
  unfold execGwTimeout
  refine keepsX_next ?_
  split
  · exact h
  · exact (keeps_answerW (keeps_dropMsg h))

theorem keeps_bulkAnswer {s1} {a1} {a2} (h1 : Keeps r s1) :
    Keeps r (bulkAnswer s1 a1 a2) := by
  unfold bulkAnswer
  refine keeps_ite ?_ ?_
  · exact (keeps_fence h1)
  · split
    · exact (keeps_bumpF h1)
    · refine keeps_ite ?_ ?_
      · exact (keeps_endBulk h1)
      · extract_lets -merge -underBinder +onlyGivenNames x20 x21 x22
        have h22 : Keeps r x22 := (keeps_ite h1 (keeps_deliverBytes h1))
        clear_value x20 x21 x22
        exact (keeps_ite (keeps_endBulk h22) (keeps_updHalf h22))

theorem keeps_bulkServe {s1} {a1} {a2} (h1 : Keeps r s1) :
    Keeps r (bulkServe s1 a1 a2) := by
  unfold bulkServe
  extract_lets -merge -underBinder +onlyGivenNames x20 x21 x22
  clear_value x20 x21 x22
  refine keeps_ite ?_ ?_
  · extract_lets -merge -underBinder +onlyGivenNames x23
    clear_value x23
    split
    · rename_i s24_0 e24
      have h24_0 : Keeps r s24_0 := keeps_of_eq1 e24 (keeps_verdict h1)
      exact h24_0
    · rename_i s25_0 _ e25
      have h25_0 : Keeps r s25_0 := keeps_of_eq1 e25 (keeps_verdict h1)
      exact (keeps_answerW h25_0)
    · rename_i s26_0 _ e26
      have h26_0 : Keeps r s26_0 := keeps_of_eq1 e26 (keeps_verdict h1)
      exact (keeps_answerW h26_0)
    · rename_i s27_0 _ _ e27
      have h27_0 : Keeps r s27_0 := keeps_of_eq1 e27 (keeps_verdict h1)
      refine keeps_ite ?_ ?_
      · split
        · exact (keeps_answerW h27_0)
      · split
        · rename_i s28_0 _ e28
          have h28_0 : Keeps r s28_0 := keeps_of_eq1 e28 (keeps_serveWrite h27_0)
          exact (keeps_answerW h28_0)
        · rename_i s29_0 e29
          have h29_0 : Keeps r s29_0 := keeps_of_eq1 e29 (keeps_serveWrite h27_0)
          exact h29_0
  · exact (keeps_finishW (keeps_sendReq h1))

theorem keeps_arriveBulk {s1} {a1} {a2} (h1 : Keeps r s1) :
    Keeps r (arriveBulk s1 a1 a2) := by
  unfold arriveBulk
  extract_lets -merge -underBinder +onlyGivenNames x20
  clear_value x20
  exact (keeps_ite (keeps_ite (keeps_bulkAnswer h1) (keeps_rerouteOther h1)) (keeps_bulkServe h1))

theorem keeps_execLeatBulk {a0} {a1} {s} (h : Keeps r s) :
    KeepsX r (execLeatBulk a0 a1 s) := by
  unfold execLeatBulk
  exact (keepsX_next (keeps_arriveBulk h))

end Sys2Proof.Machine
end

