-- ==== Sys2Proof/Laws/KeepsWeir.lean ====
section
/-! SUPPORT. What each operation of Machine/Weir.lean keeps. -/

namespace Sys2Proof.Machine

variable {r : State}

theorem keeps_execWeirBlockEncode {a0} {a1} {s} (h : Keeps r s) :
    KeepsX r (execWeirBlockEncode a0 a1 s) := by
  unfold execWeirBlockEncode
  refine keepsX_next ?_
  extract_lets -merge -underBinder +onlyGivenNames x20 x21 x22
  clear_value x20 x21 x22
  split
  · exact h
  · refine keeps_ite ?_ ?_
    · exact h
    · split
      · refine keeps_ite ?_ ?_
        · exact (keeps_answerW (keeps_mk h))
        · extract_lets -merge -underBinder +onlyGivenNames x23 x24
          clear_value x23 x24
          split
          · extract_lets -merge -underBinder +onlyGivenNames x25 x26 x27
            have h25 : Keeps r x25 := (keeps_bumpF h)
            have h26 : Keeps r x26 := (keeps_bumpF h25)
            have h27 : Keeps r x27 := (keeps_ite (keeps_bumpF h26) (keeps_ite (keeps_bumpF h26) h26))
            clear_value x25 x26 x27
            exact (keeps_mk h27)

theorem keeps_putLines {s1} {a1} {a2} {a3} (h1 : Keeps r s1) :
    Keeps r (putLines s1 a1 a2 a3).1 := by
  unfold putLines
  refine keeps_foldl1 ?_ ?_
  · exact h1
  · intro y21 y22 h21
    split
    · rename_i s23_0 _ e23
      have h23_0 : Keeps r s23_0 := keeps_of_eq1 e23 (keeps_locWrite (keeps_moreWait h21))
      exact (keeps_finishW h23_0)

theorem keeps_execWeirBlockDecode {a0} {a1} {s} (h : Keeps r s) :
    KeepsX r (execWeirBlockDecode a0 a1 s) := by
  unfold execWeirBlockDecode
  refine keepsX_next ?_
  extract_lets -merge -underBinder +onlyGivenNames x20
  clear_value x20
  split
  · exact h
  · extract_lets -merge -underBinder +onlyGivenNames x21 x22 x23 x24 x25 x26 x27 x28 x29
    have h21 : Keeps r x21 := (keeps_mk h)
    clear_value x21 x22 x23 x24 x25 x26 x27 x28 x29
    split
    · rename_i s30_0 _ e30
      have h30_0 : Keeps r s30_0 := keeps_of_eq1 e30 (keeps_putLines h21)
      extract_lets -merge -underBinder +onlyGivenNames x31
      have h31 : Keeps r x31 := by
        unfold x31
        split
        · exact (keeps_ite (keeps_finishW (keeps_locWrite (keeps_moreWait h30_0))) h30_0)
        · exact h30_0
      clear_value x31
      exact (keeps_answerW h31)

end Sys2Proof.Machine
end

