-- ==== Sys2Proof/Laws/KeepsHoist.lean ====
section
/-! SUPPORT. What each operation of Machine/Hoist.lean keeps. -/

namespace Sys2Proof.Machine

variable {r : State}

theorem keeps_hoistWrite {s1} {a1} {a2} {a3} {a4} (h1 : Keeps r s1) :
    Keeps r (hoistWrite s1 a1 a2 a3 a4).1 := by
  unfold hoistWrite
  split
  · exact h1
  · exact (keeps_putFab h1)
  · exact (keeps_ite1 (keeps_locWrite h1) h1)

theorem keeps_eccLoc {s1} {a1} {a2} (h1 : Keeps r s1) :
    Keeps r (eccLoc s1 a1 a2) := by
  unfold eccLoc
  split
  · exact (keeps_eccSlot h1)
  · exact (keeps_eccAt h1)
  · exact h1

theorem keeps_hoistMove {s1} {a1} {a2} {a3} {a4} {a5} {a6} (h1 : Keeps r s1) :
    Keeps r (hoistMove s1 a1 a2 a3 a4 a5 a6).1 := by
  unfold hoistMove
  split
  · exact h1
  · extract_lets -merge -underBinder +onlyGivenNames x20
    clear_value x20
    exact (keeps_issueRead h1)
  · refine keeps_ite1 ?_ ?_
    · exact h1
    · split
      · refine keeps_ite1 ?_ ?_
        · exact h1
        · extract_lets -merge -underBinder +onlyGivenNames x21
          have h21 : Keeps r x21 := (keeps_eccLoc h1)
          clear_value x21
          exact (keeps_ite1 h21 (keeps_hoistWrite h21))

theorem keeps_weirBlock {s1} {a1} {a2} {a3} {a4} {a5} (h1 : Keeps r s1) :
    Keeps r (weirBlock s1 a1 a2 a3 a4 a5) := by
  unfold weirBlock
  extract_lets -merge -underBinder +onlyGivenNames x20
  clear_value x20
  split
  · split
    · split
      · refine keeps_ite ?_ ?_
        · exact (keeps_answerW h1)
        · split
          · exact (keeps_answerW h1)
          · extract_lets -merge -underBinder +onlyGivenNames x21 x22
            clear_value x21 x22
            exact (keeps_mk h1)

theorem keeps_atomElement {s1} {a1} {a2} {a3} {a4} {a5} {a6} {a7} {a8} {a9} {a10} (h1 : Keeps r s1) :
    Keeps r (atomElement s1 a1 a2 a3 a4 a5 a6 a7 a8 a9 a10) := by
  unfold atomElement
  extract_lets -merge -underBinder +onlyGivenNames x20
  clear_value x20
  split
  · split
    · extract_lets -merge -underBinder +onlyGivenNames x21 x22
      have h21 : Keeps r x21 := (keeps_ite (keeps_eccLoc h1) h1)
      clear_value x21 x22
      refine keeps_ite ?_ ?_
      · exact (keeps_answerW h21)
      · extract_lets -merge -underBinder +onlyGivenNames x23 x24 x25
        clear_value x23 x24 x25
        refine keeps_ite ?_ ?_
        · split
          · exact (keeps_answerW h21)
          · extract_lets -merge -underBinder +onlyGivenNames x26
            clear_value x26
            exact (keeps_ite (keeps_answerW h21) (keeps_finishW (keeps_issueWrite h21)))
        · exact (keeps_ite (keeps_answerW h21) (keeps_finishW (keeps_memAtomic h21)))

theorem keeps_atomClose {s1} {a1} {a2} {a3} (h1 : Keeps r s1) :
    Keeps r (atomClose s1 a1 a2 a3) := by
  unfold atomClose
  extract_lets -merge -underBinder +onlyGivenNames x20
  clear_value x20
  refine keeps_ite ?_ ?_
  · split
    · exact (keeps_answerW h1)
    · exact (keeps_ite (keeps_answerW h1) (keeps_finishW (keeps_issueWrite h1)))
  · exact (keeps_ite (keeps_answerW h1) (keeps_ite (keeps_answerW h1) (keeps_finishW (keeps_closeSource h1))))

theorem keeps_runReq {s1} {a1} (h1 : Keeps r s1) :
    Keeps r (runReq s1 a1) := by
  unfold runReq
  split
  · exact (keeps_finishW (keeps_hoistMove h1))
  · split
    · rename_i s20_0 _ e20
      have h20_0 : Keeps r s20_0 := keeps_of_eq1 e20 (keeps_gatewayRow h1)
      exact (keeps_answerW h20_0)
  · exact (keeps_atomElement h1)
  · exact (keeps_atomClose h1)
  · exact (keeps_weirBlock h1)
  · exact (keeps_answerW h1)

theorem keeps_drainFrom {a0} {a1} {s} (h : Keeps r s) :
    Keeps r (drainFrom a0 a1 s) := by
  induction a0 generalizing a1 s with
  | nil => exact h
  | cons x l ih =>
    unfold drainFrom
    exact keeps_ite (ih (keeps_updHalf h)) (ih (keeps_runReq h))

theorem keeps_drainHoists {s1} {a1} (h1 : Keeps r s1) :
    Keeps r (drainHoists s1 a1) := by
  unfold drainHoists
  exact (keeps_drainFrom (keeps_updHalf h1))

theorem keeps_queueReqs {s1} {a1} {a2} {a3} (h1 : Keeps r s1) :
    Keeps r (queueReqs s1 a1 a2 a3) := by
  unfold queueReqs
  extract_lets -merge -underBinder +onlyGivenNames x20
  have h20 : Keeps r x20 := (keeps_updCtl h1)
  clear_value x20
  exact (keeps_foldl h20 (fun _ _ h21 => (keeps_updHalf h21)))

theorem keeps_hoistIssue {s1} {a1} {a2} {a3} (h1 : Keeps r s1) :
    Keeps r (hoistIssue s1 a1 a2 a3) := by
  unfold hoistIssue
  refine keeps_issueHead h1 ?_
  · intro y22 y23 h22
    extract_lets -merge -underBinder +onlyGivenNames x24 x25 x26
    clear_value x24 x25 x26
    split
    · exact (keeps_refuseEntry h22)
    · extract_lets -merge -underBinder +onlyGivenNames x27 x28 x29 x30
      have h29 : Keeps r x29 := (keeps_launch h22)
      clear_value x27 x28 x29 x30
      exact (keeps_drainHoists (keeps_drainHoists (keeps_queueReqs h29)))

theorem keeps_execHget {a0} {s} (h : Keeps r s) :
    KeepsX r (execHget a0 s) := by
  unfold execHget
  exact (keepsX_next (keeps_hoistIssue h))

theorem keeps_execHput {a0} {s} (h : Keeps r s) :
    KeepsX r (execHput a0 s) := by
  unfold execHput
  exact (keepsX_next (keeps_hoistIssue h))

theorem keeps_execHcp {a0} {s} (h : Keeps r s) :
    KeepsX r (execHcp a0 s) := by
  unfold execHcp
  exact (keepsX_next (keeps_hoistIssue h))

theorem keeps_execHatom {a0} {s} (h : Keeps r s) :
    KeepsX r (execHatom a0 s) := by
  unfold execHatom
  exact (keepsX_next (keeps_hoistIssue h))

end Sys2Proof.Machine
end

