-- ==== Sys2Proof/Laws/KeepsTime.lean ====
section
/-! SUPPORT. What each operation of Machine/Time.lean keeps. -/

namespace Sys2Proof.Machine

variable {r : State}

theorem keeps_drivePps {s} (h : Keeps r s) :
    Keeps r (drivePps s) := by
  unfold drivePps
  exact (keeps_mk h)

theorem keeps_tickHalf {s1} {a1} (h1 : Keeps r s1) :
    Keeps r (tickHalf s1 a1) := by
  unfold tickHalf
  refine keeps_ite ?_ ?_
  · exact h1
  · extract_lets -merge -underBinder +onlyGivenNames x20 x21 x22 x23 x24
    have h24 : Keeps r x24 := (keeps_setReg (keeps_setReg h1))
    clear_value x20 x21 x22 x23 x24
    exact (keeps_updHalf (keeps_mk h24))

theorem keeps_tickTime {s} (h : Keeps r s) :
    Keeps r (tickTime s) := by
  unfold tickTime
  exact (keeps_drivePps (keeps_tickHalf (keeps_tickHalf h)))

theorem keeps_updClk {s1} {a1} {a2} {a3} (h1 : Keeps r s1) :
    Keeps r (updClk s1 a1 a2 a3) := by
  unfold updClk
  exact (keeps_updHalf h1)

theorem keeps_setCounter {s1} {a1} {a2} {a3} (h1 : Keeps r s1) :
    Keeps r (setCounter s1 a1 a2 a3) := by
  unfold setCounter
  exact (keeps_updClk (keeps_setReg h1))

theorem keeps_putOffset {s1} {a1} {a2} {a3} (h1 : Keeps r s1) :
    Keeps r (putOffset s1 a1 a2 a3) := by
  unfold putOffset
  extract_lets -merge -underBinder +onlyGivenNames x20
  clear_value x20
  exact (keeps_putF h1)

theorem keeps_exchange {s1} {a1} {a2} {a3} (h1 : Keeps r s1) :
    Keeps r (exchange s1 a1 a2 a3) := by
  unfold exchange
  extract_lets -merge -underBinder +onlyGivenNames x20 x21 x22 x23 x24 x25 x26
  have h22 : Keeps r x22 := (keeps_ite (keeps_setCounter h1) h1)
  have h24 : Keeps r x24 := (keeps_putOffset h22)
  have h26 : Keeps r x26 := (keeps_updClk h24)
  clear_value x20 x21 x22 x23 x24 x25 x26
  exact (keeps_ite (keeps_ite (keeps_setTimeState (keeps_plainRecord h26)) h26) (keeps_setTimeState h26))

theorem keeps_hearMaster {s1} {a1} {a2} (h1 : Keeps r s1) :
    Keeps r (hearMaster s1 a1 a2) := by
  unfold hearMaster
  exact (keeps_ite (keeps_putF h1) h1)

theorem keeps_treeExchange {s1} {a1} {a2} {a3} (h1 : Keeps r s1) :
    Keeps r (treeExchange s1 a1 a2 a3) := by
  unfold treeExchange
  exact (keeps_ite (keeps_exchange (keeps_hearMaster h1)) h1)

theorem keeps_askParent {s1} {a1} {a2} (h1 : Keeps r s1) :
    Keeps r (askParent s1 a1 a2) := by
  unfold askParent
  extract_lets -merge -underBinder +onlyGivenNames x20
  clear_value x20
  exact (keeps_ite (keeps_enqueue h1) h1)

theorem keeps_execPodTimeExchange {a0} {a1} {s} (h : Keeps r s) :
    KeepsX r (execPodTimeExchange a0 a1 s) := by
  unfold execPodTimeExchange
  exact (keepsX_next (keeps_treeExchange (keeps_askParent h)))

theorem keeps_execHallTimeExchange {a0} {a1} {s} (h : Keeps r s) :
    KeepsX r (execHallTimeExchange a0 a1 s) := by
  unfold execHallTimeExchange
  exact (keepsX_next (keeps_treeExchange (keeps_askParent h)))

theorem keeps_answerTime {s1} {a1} {a2} {a3} (h1 : Keeps r s1) :
    Keeps r (answerTime s1 a1 a2 a3) := by
  unfold answerTime
  refine keeps_ite ?_ ?_
  · exact h1
  · split
    · exact (keeps_enqueue h1)
    · exact h1

theorem keeps_arriveTime {s1} {a1} {a2} (h1 : Keeps r s1) :
    Keeps r (arriveTime s1 a1 a2) := by
  unfold arriveTime
  extract_lets -merge -underBinder +onlyGivenNames x20
  clear_value x20
  refine keeps_ite ?_ ?_
  · exact (keeps_rerouteOther h1)
  · extract_lets -merge -underBinder +onlyGivenNames x21 x22 x23
    clear_value x21 x22 x23
    exact (keeps_ite (keeps_fence h1) (keeps_ite (keeps_answerTime h1) (keeps_ite (keeps_treeExchange h1) h1)))

theorem keeps_execLeatTime {a0} {a1} {s} (h : Keeps r s) :
    KeepsX r (execLeatTime a0 a1 s) := by
  unfold execLeatTime
  exact (keepsX_next (keeps_arriveTime h))

theorem keeps_execPpsEdge {a0} {s} (h : Keeps r s) :
    KeepsX r (execPpsEdge a0 s) := by
  unfold execPpsEdge
  refine keepsX_next ?_
  extract_lets -merge -underBinder +onlyGivenNames x20
  clear_value x20
  refine keeps_ite ?_ ?_
  · exact h
  · extract_lets -merge -underBinder +onlyGivenNames x21 x22
    have h21 : Keeps r x21 := (keeps_putF h)
    have h22 : Keeps r x22 := (keeps_updHalf h21)
    clear_value x21 x22
    refine keeps_ite ?_ ?_
    · exact h22
    · split
      · extract_lets -merge -underBinder +onlyGivenNames x23
        have h23 : Keeps r x23 := (keeps_setCounter (keeps_updHalf h22))
        clear_value x23
        exact (keeps_exchange h23)
      · exact (keeps_exchange h22)

theorem keeps_execPpsTimeout {a0} {s} (h : Keeps r s) :
    KeepsX r (execPpsTimeout a0 s) := by
  unfold execPpsTimeout
  refine keepsX_next ?_
  extract_lets -merge -underBinder +onlyGivenNames x20
  clear_value x20
  refine keeps_ite ?_ ?_
  · exact h
  · extract_lets -merge -underBinder +onlyGivenNames x21
    have h21 : Keeps r x21 := (keeps_putF h)
    clear_value x21
    exact (keeps_ite (keeps_setTimeState h21) h21)

theorem keeps_execPpsOutPulse {a0} {s} (h : Keeps r s) :
    KeepsX r (execPpsOutPulse a0 s) := by
  unfold execPpsOutPulse
  exact (keepsX_next (keeps_ite (keeps_drivePps h) h))

theorem keeps_ppsOutWrite {s1} {a1} {a2} {a3} (h1 : Keeps r s1) :
    Keeps r (ppsOutWrite s1 a1 a2 a3) := by
  unfold ppsOutWrite
  exact (keeps_guarded h1 (fun _ h20 => (keeps_ite (keeps_denied h20) (keeps_done (keeps_drivePps (keeps_putF h20))))))

theorem keeps_execPpsOutEnWrite {a0} {a1} {a2} {s} (h : Keeps r s) :
    KeepsX r (execPpsOutEnWrite a0 a1 a2 s) := by
  unfold execPpsOutEnWrite
  exact (keepsX_next (keeps_ppsOutWrite h))

theorem keeps_hallsetWrite {s1} {a1} {a2} {a3} (h1 : Keeps r s1) :
    Keeps r (hallsetWrite s1 a1 a2 a3) := by
  unfold hallsetWrite
  exact (keeps_guarded h1 (fun _ h20 => (keeps_ite (keeps_denied h20) (keeps_ite (keeps_done (keeps_updHalf h20)) (keeps_done (keeps_setCounter h20))))))

theorem keeps_execTbHallsetWrite {a0} {a1} {a2} {s} (h : Keeps r s) :
    KeepsX r (execTbHallsetWrite a0 a1 a2 s) := by
  unfold execTbHallsetWrite
  exact (keepsX_next (keeps_hallsetWrite h))

theorem keeps_toHoldover {s1} {a1} {a2} (h1 : Keeps r s1) :
    Keeps r (toHoldover s1 a1 a2) := by
  unfold toHoldover
  exact (keeps_ite h1 (keeps_setTimeState h1))

theorem keeps_dropLeat {s1} {a1} (h1 : Keeps r s1) :
    Keeps r (dropLeat s1 a1) := by
  unfold dropLeat
  extract_lets -merge -underBinder +onlyGivenNames x20 x21
  have h21 : Keeps r x21 := (keeps_foldl h1 (fun _ _ h22 => (keeps_ite (keeps_putF h22) h22)))
  clear_value x20 x21
  exact (keeps_foldl h21 (fun _ _ h23 => (keeps_linkDown h23)))

theorem keeps_execRefClkLost {s} (h : Keeps r s) :
    KeepsX r (execRefClkLost s) := by
  unfold execRefClkLost
  refine keepsX_next ?_
  extract_lets -merge -underBinder +onlyGivenNames x20 x21
  have h21 : Keeps r x21 := (keeps_mk h)
  clear_value x20 x21
  refine keeps_foldl ?_ ?_
  · exact h21
  · intro y23 y24 h23
    extract_lets -merge -underBinder +onlyGivenNames x25
    have h25 : Keeps r x25 := (keeps_putF h23)
    clear_value x25
    exact (keeps_dropLeat (keeps_toHoldover (keeps_toHoldover h25)))

theorem keeps_execRefClkReturn {s} (h : Keeps r s) :
    KeepsX r (execRefClkReturn s) := by
  unfold execRefClkReturn
  refine keepsX_next ?_
  extract_lets -merge -underBinder +onlyGivenNames x20 x21
  have h21 : Keeps r x21 := (keeps_mk h)
  clear_value x20 x21
  exact (keeps_foldl h21 (fun _ _ h22 => (keeps_putF h22)))

theorem keeps_execMasterTakeover {a0} {a1} {s} (h : Keeps r s) :
    KeepsX r (execMasterTakeover a0 a1 s) := by
  unfold execMasterTakeover
  refine keepsX_next ?_
  extract_lets -merge -underBinder +onlyGivenNames x20 x21
  clear_value x20 x21
  refine keeps_ite ?_ ?_
  · exact h
  · extract_lets -merge -underBinder +onlyGivenNames x22 x23
    have h22 : Keeps r x22 := (keeps_putF (keeps_putF h))
    have h23 : Keeps r x23 := (keeps_updClk h22)
    clear_value x22 x23
    exact (keeps_ite (keeps_setTimeState h23) h23)

end Sys2Proof.Machine
end

