-- ==== Sys2Proof/Laws/KeepsColl.lean ====
section
/-! SUPPORT. What each operation of Machine/Coll.lean keeps. -/

namespace Sys2Proof.Machine

variable {r : State}

theorem keeps_setRuns {s1} {a1} {a2} (h1 : Keeps r s1) :
    Keeps r (setRuns s1 a1 a2) := by
  unfold setRuns
  exact (keeps_updHalf h1)

theorem keeps_updRun {s1} {a1} {a2} {a3} {a4} (h1 : Keeps r s1) :
    Keeps r (updRun s1 a1 a2 a3 a4) := by
  unfold updRun
  exact (keeps_setRuns h1)

theorem keeps_ensureRun {s1} {a1} {a2} {a3} (h1 : Keeps r s1) :
    Keeps r (ensureRun s1 a1 a2 a3) := by
  unfold ensureRun
  exact (keeps_ite h1 (keeps_setRuns h1))

theorem keeps_collSend {a0 : Deliver} {s2} {a2} {a3} {a4} (g1 : ∀ y0 y1 y2, Keeps r y0 → Keeps r (a0 y0 y1 y2)) (h2 : Keeps r s2) :
    Keeps r (collSend a0 s2 a2 a3 a4).1 := by
  unfold collSend
  extract_lets -merge -underBinder +onlyGivenNames x20 x21 x22
  clear_value x20 x21 x22
  refine keeps_ite1 ?_ ?_
  · exact (keeps_ite1 h2 (keeps_ite1 (g1 _ _ _ h2) h2))
  · extract_lets -merge -underBinder +onlyGivenNames x23
    clear_value x23
    split
    · exact (keeps_enqueue h2)
    · exact h2

theorem keeps_raiseNotice {a0 : Deliver} {s2} {a2} {a3} {a4} {a5} {a6} (g1 : ∀ y0 y1 y2, Keeps r y0 → Keeps r (a0 y0 y1 y2)) (h2 : Keeps r s2) :
    Keeps r (raiseNotice a0 s2 a2 a3 a4 a5 a6) := by
  unfold raiseNotice
  split
  · exact h2
  · refine keeps_ite ?_ ?_
    · exact h2
    · extract_lets -merge -underBinder +onlyGivenNames x20 x21 x22 x23
      have h22 : Keeps r x22 := (keeps_updRun h2)
      clear_value x20 x21 x22 x23
      refine keeps_foldl ?_ ?_
      · exact h22
      · intro y25 y26 h25
        extract_lets -merge -underBinder +onlyGivenNames x27
        clear_value x27
        exact (keeps_collSend g1 h25)

theorem keeps_collSendRank {a0 : Deliver} {s2} {a2} {a3} {a4} {a5} {a6} {a7} (g1 : ∀ y0 y1 y2, Keeps r y0 → Keeps r (a0 y0 y1 y2)) (h2 : Keeps r s2) :
    Keeps r (collSendRank a0 s2 a2 a3 a4 a5 a6 a7) := by
  unfold collSendRank
  extract_lets -merge -underBinder +onlyGivenNames x20
  clear_value x20
  split
  · rename_i s21_0 e21
    have h21_0 : Keeps r s21_0 := keeps_of_eq1 e21 (keeps_collSend g1 h2)
    exact h21_0
  · rename_i s23_0 e23
    have h23_0 : Keeps r s23_0 := keeps_of_eq1 e23 (keeps_collSend g1 h2)
    exact (keeps_raiseNotice g1 h23_0)

theorem keeps_sendPart {a0 : Deliver} {s2} {a2} {a3} {a4} {a5} {a6} {a7} (g1 : ∀ y0 y1 y2, Keeps r y0 → Keeps r (a0 y0 y1 y2)) (h2 : Keeps r s2) :
    Keeps r (sendPart a0 s2 a2 a3 a4 a5 a6 a7) := by
  unfold sendPart
  exact (keeps_foldl h2 (fun _ _ h20 => (keeps_collSendRank g1 h20)))

theorem keeps_collFinish {s1} {a1} {a2} {a3} {a4} (h1 : Keeps r s1) :
    Keeps r (collFinish s1 a1 a2 a3 a4) := by
  unfold collFinish
  refine keeps_ite ?_ ?_
  · exact (keeps_updRun h1)
  · extract_lets -merge -underBinder +onlyGivenNames x20 x21 x22 x23 x24
    have h23 : Keeps r x23 := (keeps_memWrite h1)
    have h24 : Keeps r x24 := (keeps_updHalf h23)
    clear_value x20 x21 x22 x23 x24
    exact (keeps_raiseEvent h24)

theorem keeps_collFlush {s1} {a1} (h1 : Keeps r s1) :
    Keeps r (collFlush s1 a1) := by
  unfold collFlush
  refine keeps_foldl ?_ ?_
  · exact h1
  · intro y21 y22 h21
    split
    · exact (keeps_collFinish h21)
    · exact h21

theorem keeps_writeRegion {s1} {a1} {a2} {a3} {a4} (h1 : Keeps r s1) :
    Keeps r (writeRegion s1 a1 a2 a3 a4).1 := by
  induction a2 generalizing s1 a3 a4 with
  | zero => exact h1
  | succ n ih =>
    unfold writeRegion
    refine keeps_ite1 h1 ?_
    exact ih (keeps_memWrite h1)

theorem keeps_takeTr {a0 : Deliver} {s2} {a2} {a3} {a4} {a5} (g1 : ∀ y0 y1 y2, Keeps r y0 → Keeps r (a0 y0 y1 y2)) (h2 : Keeps r s2) :
    Keeps r (takeTr a0 s2 a2 a3 a4 a5) := by
  unfold takeTr
  split
  · exact h2
  · exact (keeps_ite h2 (keeps_ite (keeps_raiseNotice g1 h2) (keeps_updRun h2)))

theorem keeps_arriveRank {a0 : Deliver} {s2} {a2} {a3} {a4} {a5} (g1 : ∀ y0 y1 y2, Keeps r y0 → Keeps r (a0 y0 y1 y2)) (h2 : Keeps r s2) :
    Keeps r (arriveRank a0 s2 a2 a3 a4 a5) := by
  unfold arriveRank
  extract_lets -merge -underBinder +onlyGivenNames x20
  have h20 : Keeps r x20 := (keeps_updRun h2)
  clear_value x20
  split
  · exact h20
  · refine keeps_ite ?_ ?_
    · extract_lets -merge -underBinder +onlyGivenNames x21 x22
      have h22 : Keeps r x22 := (keeps_takeTr g1 h20)
      clear_value x21 x22
      exact (keeps_foldl h22 (fun _ _ h24 => (keeps_collSendRank g1 h24)))
    · exact h20

theorem keeps_collTake {a0 : Deliver} {s2} {a2} {a3} {a4} {a5} (g1 : ∀ y0 y1 y2, Keeps r y0 → Keeps r (a0 y0 y1 y2)) (h2 : Keeps r s2) :
    Keeps r (collTake a0 s2 a2 a3 a4 a5) := by
  unfold collTake
  extract_lets -merge -underBinder +onlyGivenNames x20 x21 x22
  have h22 : Keeps r x22 := (keeps_ensureRun h2)
  clear_value x20 x21 x22
  split
  · exact h22
  · extract_lets -merge -underBinder +onlyGivenNames x23
    clear_value x23
    split
    · extract_lets -merge -underBinder +onlyGivenNames x24
      clear_value x24
      exact (keeps_ite h22 (keeps_updRun h22))
    · exact (keeps_ite (keeps_bumpF h22) (keeps_arriveRank g1 h22))
    · exact (keeps_ite (keeps_bumpF h22) (keeps_takeTr g1 h22))
    · refine keeps_ite ?_ ?_
      · exact (keeps_bumpF h22)
      · extract_lets -merge -underBinder +onlyGivenNames x27 x28 x29 x30
        have h30 : Keeps r x30 := (keeps_updRun h22)
        clear_value x27 x28 x29 x30
        exact (keeps_ite (keeps_raiseNotice g1 h30) h30)

theorem keeps_collRefuse {a0 : Deliver} {s2} {a2} {a3} {a4} (g1 : ∀ y0 y1 y2, Keeps r y0 → Keeps r (a0 y0 y1 y2)) (h2 : Keeps r s2) :
    Keeps r (collRefuse a0 s2 a2 a3 a4) := by
  unfold collRefuse
  extract_lets -merge -underBinder +onlyGivenNames x20
  clear_value x20
  exact (keeps_collSend g1 h2)

theorem keeps_collRefused {a0 : Deliver} {s2} {a2} {a3} (g1 : ∀ y0 y1 y2, Keeps r y0 → Keeps r (a0 y0 y1 y2)) (h2 : Keeps r s2) :
    Keeps r (collRefused a0 s2 a2 a3) := by
  unfold collRefused
  extract_lets -merge -underBinder +onlyGivenNames x20
  clear_value x20
  split
  · exact (keeps_bumpF h2)
  · refine keeps_ite ?_ ?_
    · exact (keeps_bumpF h2)
    · refine keeps_ite ?_ ?_
      · exact h2
      · split
        · exact (keeps_raiseNotice g1 h2)
        · exact h2

theorem keeps_collArrive {a0 : Deliver} {s2} {a2} {a3} (g1 : ∀ y0 y1 y2, Keeps r y0 → Keeps r (a0 y0 y1 y2)) (h2 : Keeps r s2) :
    Keeps r (collArrive a0 s2 a2 a3) := by
  unfold collArrive
  extract_lets -merge -underBinder +onlyGivenNames x20 x21
  clear_value x20 x21
  refine keeps_ite ?_ ?_
  · split
    · exact (keeps_enqueue h2)
    · exact h2
  · refine keeps_ite ?_ ?_
    · exact (keeps_rerouteOther h2)
    · extract_lets -merge -underBinder +onlyGivenNames x22 x23 x24
      clear_value x22 x23 x24
      refine keeps_ite ?_ ?_
      · exact (keeps_fence h2)
      · refine keeps_ite ?_ ?_
        · exact (keeps_collRefused g1 h2)
        · refine keeps_ite ?_ ?_
          · exact (keeps_bumpF h2)
          · refine keeps_ite ?_ ?_
            · exact (keeps_collRefuse g1 h2)
            · refine keeps_ite ?_ ?_
              · exact (keeps_collRefuse g1 h2)
              · extract_lets -merge -underBinder +onlyGivenNames x39 x40
                clear_value x39 x40
                exact (keeps_ite (keeps_bumpF h2) (keeps_collTake g1 h2))

theorem keeps_deliver4 {s h p} (hs : Keeps r s) : Keeps r (deliver4 s h p) := by
  have : ∀ n s h p, Keeps r s → Keeps r (collDeliver n s h p) := by
    intro n
    induction n with
    | zero => exact fun _ _ _ hs => hs
    | succ n ih => exact fun s h p hs => keeps_collArrive ih hs
  exact this 4 s h p hs

theorem keeps_deliver4' : ∀ s h p, Keeps r s → Keeps r (deliver4 s h p) := fun _ _ _ h => keeps_deliver4 h

theorem keeps_execLeatColl {a0} {a1} {s} (h : Keeps r s) :
    KeepsX r (execLeatColl a0 a1 s) := by
  unfold execLeatColl
  exact (keepsX_next (keeps_collArrive keeps_deliver4' h))

theorem keeps_collStart {s1} {a1} {a2} {a3} {a4} (h1 : Keeps r s1) :
    Keeps r (collStart s1 a1 a2 a3 a4) := by
  unfold collStart
  extract_lets -merge -underBinder +onlyGivenNames x20
  clear_value x20
  refine keeps_ite ?_ ?_
  · exact h1
  · refine keeps_ite ?_ ?_
    · exact (keeps_raiseNotice keeps_deliver4' h1)
    · extract_lets -merge -underBinder +onlyGivenNames x24
      clear_value x24
      split
      · refine keeps_ite ?_ ?_
        · exact (keeps_raiseNotice keeps_deliver4' h1)
        · extract_lets -merge -underBinder +onlyGivenNames x27 x28 x29
          clear_value x27
          have h28 : ∀ y30, Keeps r y30 → Keeps r (x28 y30) := by
            intro y30 h30
            unfold x28
            split
            · exact (keeps_updRun h30)
            · exact h30
          clear_value x28 x29
          split
          · exact (keeps_raiseNotice keeps_deliver4' h1)
          · refine keeps_foldl ?_ ?_
            · exact (h28 _ h1)
            · intro y33 y34 h33
              split
              · exact (keeps_sendPart keeps_deliver4' h33)
              · exact h33

theorem keeps_collLaunch {s1} {a1} {a2} {a3} (h1 : Keeps r s1) :
    Keeps r (collLaunch s1 a1 a2 a3) := by
  unfold collLaunch
  extract_lets -merge -underBinder +onlyGivenNames x20 x21
  clear_value x20 x21
  refine keeps_ite ?_ ?_
  · exact h1
  · extract_lets -merge -underBinder +onlyGivenNames x22 x23 x24 x25 x26
    have h23 : Keeps r x23 := (keeps_ensureRun h1)
    have h24 : Keeps r x24 := (keeps_updRun h23)
    have h25 : Keeps r x25 := (keeps_putF h24)
    have h26 : Keeps r x26 := (keeps_updHalf h25)
    clear_value x22 x23 x24 x25 x26
    exact (keeps_collStart h26)

theorem keeps_collComplete {s1} {a1} {a2} (h1 : Keeps r s1) :
    Keeps r (collComplete s1 a1 a2) := by
  unfold collComplete
  split
  · exact h1
  · refine keeps_ite ?_ ?_
    · exact h1
    · refine keeps_ite ?_ ?_
      · split
        · exact (keeps_raiseNotice keeps_deliver4' h1)
        · exact h1
      · extract_lets -merge -underBinder +onlyGivenNames x21
        clear_value x21
        split
        · rename_i s22_0 _ e22
          have h22_0 : Keeps r s22_0 := keeps_of_eq1 e22 (keeps_writeRegion h1)
          exact (keeps_ite (keeps_raiseNotice keeps_deliver4' h22_0) (keeps_collFinish h22_0))

theorem keeps_collWork {s1} {a1} {a2} {a3} (h1 : Keeps r s1) :
    Keeps r (collWork s1 a1 a2 a3) := by
  unfold collWork
  extract_lets -merge -underBinder +onlyGivenNames x20
  have h20 : Keeps r x20 := (keeps_collLaunch h1)
  clear_value x20
  exact (keeps_ite (keeps_collComplete h20) h20)

theorem keeps_execAllReduce {a0} {a1} {s} (h : Keeps r s) :
    KeepsX r (execAllReduce a0 a1 s) := by
  unfold execAllReduce
  exact (keepsX_next (keeps_collWork h))

theorem keeps_execReduceScatter {a0} {a1} {s} (h : Keeps r s) :
    KeepsX r (execReduceScatter a0 a1 s) := by
  unfold execReduceScatter
  exact (keepsX_next (keeps_collWork h))

theorem keeps_execAllGather {a0} {a1} {s} (h : Keeps r s) :
    KeepsX r (execAllGather a0 a1 s) := by
  unfold execAllGather
  exact (keepsX_next (keeps_collWork h))

theorem keeps_execBroadcast {a0} {a1} {s} (h : Keeps r s) :
    KeepsX r (execBroadcast a0 a1 s) := by
  unfold execBroadcast
  exact (keepsX_next (keeps_collWork h))

theorem keeps_execAllToAll {a0} {a1} {s} (h : Keeps r s) :
    KeepsX r (execAllToAll a0 a1 s) := by
  unfold execAllToAll
  exact (keepsX_next (keeps_collWork h))

theorem keeps_execBarrier {a0} {a1} {s} (h : Keeps r s) :
    KeepsX r (execBarrier a0 a1 s) := by
  unfold execBarrier
  exact (keepsX_next (keeps_collWork h))

theorem keeps_execStartBarrier {a0} {a1} {s} (h : Keeps r s) :
    KeepsX r (execStartBarrier a0 a1 s) := by
  unfold execStartBarrier
  exact (keepsX_next (keeps_collLaunch h))

theorem keeps_execStartBarrierArrival {a0} {a1} {a2} {s} (h : Keeps r s) :
    KeepsX r (execStartBarrierArrival a0 a1 a2 s) := by
  unfold execStartBarrierArrival
  refine keepsX_next ?_
  extract_lets -merge -underBinder +onlyGivenNames x20 x21
  clear_value x20 x21
  split
  · exact h
  · refine keeps_ite ?_ ?_
    · exact h
    · refine keeps_ite ?_ ?_
      · refine keeps_ite ?_ ?_
        · exact h
        · extract_lets -merge -underBinder +onlyGivenNames x22
          have h22 : Keeps r x22 := (keeps_foldl h (fun _ _ h23 => (keeps_collSendRank keeps_deliver4' h23)))
          clear_value x22
          exact (keeps_arriveRank keeps_deliver4' h22)
      · exact (keeps_ite (keeps_arriveRank keeps_deliver4' h) h)

theorem keeps_execCollTimeout {a0} {a1} {s} (h : Keeps r s) :
    KeepsX r (execCollTimeout a0 a1 s) := by
  unfold execCollTimeout
  refine keepsX_next ?_
  extract_lets -merge -underBinder +onlyGivenNames x20 x21
  clear_value x20 x21
  split
  · exact h
  · split
    · exact h
    · refine keeps_ite ?_ ?_
      · exact h
      · extract_lets -merge -underBinder +onlyGivenNames x22
        clear_value x22
        exact (keeps_raiseNotice keeps_deliver4' (keeps_updRun h))

theorem keeps_loseDst {s1} {a1} {a2} (h1 : Keeps r s1) :
    Keeps r (loseDst s1 a1 a2) := by
  unfold loseDst
  exact (keeps_ite h1 (keeps_smear h1))

theorem keeps_execCollSettle {a0} {a1} {s} (h : Keeps r s) :
    KeepsX r (execCollSettle a0 a1 s) := by
  unfold execCollSettle
  refine keepsX_next ?_
  extract_lets -merge -underBinder +onlyGivenNames x20
  clear_value x20
  split
  · exact h
  · split
    · exact h
    · extract_lets -merge -underBinder +onlyGivenNames x21
      clear_value x21
      exact (keeps_ite h (keeps_collFinish (keeps_loseDst h)))

theorem keeps_collDbWrite {s1} {a1} {a2} {a3} (h1 : Keeps r s1) :
    Keeps r (collDbWrite s1 a1 a2 a3) := by
  unfold collDbWrite
  refine keeps_guarded h1 ?_
  · intro y22 h22
    extract_lets -merge -underBinder +onlyGivenNames x23 x24 x25
    clear_value x23 x24 x25
    refine keeps_ite ?_ ?_
    · exact (keeps_denied h22)
    · extract_lets -merge -underBinder +onlyGivenNames x26 x27 x28
      have h26 : Keeps r x26 := (keeps_putF (keeps_putF h22))
      have h27 : Keeps r x27 := (keeps_collFlush h26)
      clear_value x26 x27 x28
      refine keeps_done ?_
      · refine keeps_ite ?_ ?_
        · split
          · exact (keeps_ite h27 (keeps_raiseNotice keeps_deliver4' h27))
          · exact h27
        · exact h27

theorem keeps_execCollDoorbell {a0} {a1} {a2} {s} (h : Keeps r s) :
    KeepsX r (execCollDoorbell a0 a1 a2 s) := by
  unfold execCollDoorbell
  exact (keepsX_next (keeps_collDbWrite h))

theorem keeps_execCollCqRelease {a0} {a1} {a2} {s} (h : Keeps r s) :
    KeepsX r (execCollCqRelease a0 a1 a2 s) := by
  unfold execCollCqRelease
  exact (keepsX_next (keeps_collDbWrite h))

theorem keeps_execCollAbort {a0} {a1} {a2} {s} (h : Keeps r s) :
    KeepsX r (execCollAbort a0 a1 a2 s) := by
  unfold execCollAbort
  refine keepsX_next ?_
  extract_lets -merge -underBinder +onlyGivenNames x20
  clear_value x20
  exact (keeps_collDbWrite h)

end Sys2Proof.Machine
end

