-- ==== Sys2Proof/Laws/KeepsFantail.lean ====
section
/-! SUPPORT. What each operation of Machine/Fantail.lean keeps. -/

namespace Sys2Proof.Machine

variable {r : State}

theorem keeps_setBucket {s1} {a1} {a2} (h1 : Keeps r s1) :
    Keeps r (setBucket s1 a1 a2) := by
  unfold setBucket
  extract_lets -merge -underBinder +onlyGivenNames x20 x21
  have h20 : Keeps r x20 := (keeps_updHalf h1)
  have h21 : Keeps r x21 := (keeps_putF h20)
  clear_value x20 x21
  exact (keeps_putF h21)

theorem keeps_fillBucket {s1} {a1} (h1 : Keeps r s1) :
    Keeps r (fillBucket s1 a1) := by
  unfold fillBucket
  exact (keeps_setBucket h1)

theorem keeps_placeGang {s1} {a1} {a2} (h1 : Keeps r s1) :
    Keeps r (placeGang s1 a1 a2) := by
  unfold placeGang
  extract_lets -merge -underBinder +onlyGivenNames x20 x21
  clear_value x20 x21
  exact (keeps_foldl h1 (fun _ _ h22 => (keeps_ite (keeps_putF h22) h22)))

theorem keeps_freeToMin {s1} {a1} (h1 : Keeps r s1) :
    Keeps r (freeToMin s1 a1) := by
  unfold freeToMin
  exact (keeps_foldl h1 (fun _ _ h20 => (keeps_placeGang h20)))

theorem keeps_raiseGang {a0} {a1} {a2} {a3} {s5} {a5} (h5 : Keeps r s5) :
    Keeps r (raiseGang a0 a1 a2 a3 s5 a5) := by
  induction a3 with
  | zero => exact keeps_placeGang h5
  | succ n ih =>
    unfold raiseGang
    exact keeps_ite (keeps_placeGang h5) ih

theorem keeps_chooseFree {s1} {a1} {a2} {a3} (h1 : Keeps r s1) :
    Keeps r (chooseFree s1 a1 a2 a3) := by
  unfold chooseFree
  extract_lets -merge -underBinder +onlyGivenNames x20 x21
  have h21 : Keeps r x21 := (keeps_foldl (keeps_freeToMin h1) (fun _ _ h22 => (keeps_raiseGang h22)))
  clear_value x20 x21
  exact (keeps_foldl h21 (fun _ _ h23 => (keeps_ite h23 (keeps_updHalf h23))))

theorem keeps_measureRates {s1} {a1} (h1 : Keeps r s1) :
    Keeps r (measureRates s1 a1) := by
  unfold measureRates
  refine keeps_foldl ?_ ?_
  · exact h1
  · intro y21 y22 h21
    split
    · rename_i _ s23_1 e23
      have h23_1 : Keeps r s23_1 := keeps_of_eq2 e23 (keeps_fresh h21)
      exact (keeps_putF h23_1)

theorem keeps_holdPaced {s1} {a1} (h1 : Keeps r s1) :
    Keeps r (holdPaced s1 a1) := by
  unfold holdPaced
  exact (keeps_ite h1 (keeps_foldl h1 (fun _ _ h20 => (keeps_ite (keeps_putF h20) h20))))

theorem keeps_execFantailEvaluation {a0} {a1} {s} (h : Keeps r s) :
    KeepsX r (execFantailEvaluation a0 a1 s) := by
  unfold execFantailEvaluation
  refine keepsX_next ?_
  extract_lets -merge -underBinder +onlyGivenNames x20 x21
  clear_value x20 x21
  refine keeps_ite ?_ ?_
  · exact h
  · extract_lets -merge -underBinder +onlyGivenNames x22 x23 x24 x25 x26
    have h23 : Keeps r x23 := (keeps_updHalf h)
    have h25 : Keeps r x25 := (keeps_ite (keeps_setBucket h23) h23)
    have h26 : Keeps r x26 := (keeps_putF h25)
    clear_value x22 x23 x24 x25 x26
    split
    · rename_i _ s27_1 e27
      have h27_1 : Keeps r s27_1 := keeps_of_eq2 e27 (keeps_fresh h26)
      extract_lets -merge -underBinder +onlyGivenNames x28 x29 x30
      have h28 : Keeps r x28 := (keeps_measureRates (keeps_putF h27_1))
      have h29 : Keeps r x29 := (keeps_ite (keeps_putF h28) h28)
      have h30 : Keeps r x30 := (keeps_holdPaced h29)
      clear_value x28 x29 x30
      exact (keeps_ite h30 (keeps_chooseFree h30))

theorem keeps_execPowerSample {a0} {a1} {s} (h : Keeps r s) :
    KeepsX r (execPowerSample a0 a1 s) := by
  unfold execPowerSample
  refine keepsX_next ?_
  extract_lets -merge -underBinder +onlyGivenNames x20
  clear_value x20
  refine keeps_ite ?_ ?_
  · exact h
  · extract_lets -merge -underBinder +onlyGivenNames x21
    have h21 : Keeps r x21 := (keeps_ite h (keeps_bumpF h))
    clear_value x21
    exact (keeps_freeToMin (keeps_putF h21))

theorem keeps_readSensors {s1} {a1} {a2} (h1 : Keeps r s1) :
    Keeps r (readSensors s1 a1 a2) := by
  unfold readSensors
  extract_lets -merge -underBinder +onlyGivenNames x20 x22 x25 x26
  have h20 : Keeps r x20 := (keeps_foldl h1 (fun _ _ h21 => (keeps_ite (keeps_putF (keeps_putF h21)) h21)))
  have h22 : Keeps r x22 := (keeps_foldl h20 (fun _ _ h23 => (keeps_ite (keeps_foldl h23 (fun _ _ h24 => (keeps_putF h24))) h23)))
  have h26 : Keeps r x26 := (keeps_putF h22)
  clear_value x20 x22 x25 x26
  exact (keeps_putF (keeps_putF h26))

theorem keeps_lowerFree {s1} {a1} (h1 : Keeps r s1) :
    Keeps r (lowerFree s1 a1) := by
  unfold lowerFree
  exact (keeps_foldl h1 (fun _ _ h20 => (keeps_placeGang h20)))

theorem keeps_lowerPaced {s1} {a1} (h1 : Keeps r s1) :
    Keeps r (lowerPaced s1 a1) := by
  unfold lowerPaced
  extract_lets -merge -underBinder +onlyGivenNames x20 x21
  have h21 : Keeps r x21 := (keeps_foldl h1 (fun _ _ h22 => (keeps_putF (keeps_putF h22))))
  clear_value x20 x21
  exact (keeps_foldl h21 (fun _ _ h23 => (keeps_plainRecord h23)))

theorem keeps_execSensorRead {a0} {a1} {s} (h : Keeps r s) :
    KeepsX r (execSensorRead a0 a1 s) := by
  unfold execSensorRead
  refine keepsX_next ?_
  extract_lets -merge -underBinder +onlyGivenNames x20
  clear_value x20
  refine keeps_ite ?_ ?_
  · exact h
  · extract_lets -merge -underBinder +onlyGivenNames x21 x22 x23 x24 x25 x26 x28
    have h22 : Keeps r x22 := (keeps_readSensors h)
    have h24 : Keeps r x24 := (keeps_ite (keeps_putF h22) (keeps_ite h22 (keeps_putF h22)))
    have h26 : Keeps r x26 := (keeps_foldl h24 (fun _ _ h27 => (keeps_lowerFree h27)))
    have h28 : Keeps r x28 := (keeps_ite (keeps_lowerPaced h26) h26)
    clear_value x21 x22 x23 x24 x25 x26 x28
    exact (keeps_updHalf h28)

theorem keeps_execPacingRelease {a0} {s} (h : Keeps r s) :
    KeepsX r (execPacingRelease a0 s) := by
  unfold execPacingRelease
  refine keepsX_next ?_
  extract_lets -merge -underBinder +onlyGivenNames x20 x21 x22
  clear_value x20 x21 x22
  refine keeps_ite ?_ ?_
  · exact h
  · extract_lets -merge -underBinder +onlyGivenNames x23 x24
    clear_value x23 x24
    exact (keeps_ite h (keeps_updSeq h))

end Sys2Proof.Machine
end

