-- ==== Sys2Proof/Laws/KeepsVector.lean ====
section
/-! SUPPORT. What each operation of Machine/Vector.lean keeps. -/

namespace Sys2Proof.Machine

variable {r : State}

theorem keeps_vApply {s1} {a1} {a2} (h1 : Keeps r s1) :
    Keeps r (vApply s1 a1 a2) := by
  unfold vApply
  extract_lets -merge -underBinder +onlyGivenNames x20 x21 x22 x23 x24
  have h24 : Keeps r x24 := (keeps_setCore h1)
  clear_value x20 x21 x22 x23 x24
  exact (keeps_addFlags h24)

theorem keeps_vApplyPart {s1} {a1} {a2} {a3} (h1 : Keeps r s1) :
    Keeps r (vApplyPart s1 a1 a2 a3) := by
  unfold vApplyPart
  extract_lets -merge -underBinder +onlyGivenNames x20 x21 x22
  have h22 : Keeps r x22 := (keeps_setCore h1)
  clear_value x20 x21 x22
  exact (keeps_addFlags h22)

theorem keeps_recordExc {s1} {a1} {a2} {a3} {a4} {a5} (h1 : Keeps r s1) :
    Keeps r (recordExc s1 a1 a2 a3 a4 a5) := by
  unfold recordExc
  extract_lets -merge -underBinder +onlyGivenNames x20
  clear_value x20
  exact (keeps_setReg h1)

theorem keeps_vRun {s1} {a1} {a2} {a3} {a4} {a5} (h1 : Keeps r s1) :
    Keeps r (vRun s1 a1 a2 a3 a4 a5) := by
  unfold vRun
  extract_lets -merge -underBinder +onlyGivenNames x20
  clear_value x20
  split
  · exact (keeps_foldl h1 (fun _ _ h21 => (keeps_vApply h21)))
  · extract_lets -merge -underBinder +onlyGivenNames x22 x23 x24 x26
    have h24 : Keeps r x24 := (keeps_foldl h1 (fun _ _ h25 => (keeps_vApplyPart h25)))
    clear_value x22 x23 x24
    have h26 : Keeps r x26 := by
      unfold x26
      refine keeps_foldl ?_ ?_
      · exact h24
      · intro y29 y30 h29
        split
        · exact (keeps_recordExc h29)
        · exact h29
    clear_value x26
    exact (keeps_updSeq h26)

theorem keeps_sumqFlags {s1} {a1} {a2} (h1 : Keeps r s1) :
    Keeps r (sumqFlags s1 a1 a2) := by
  unfold sumqFlags
  refine keeps_ite ?_ ?_
  · exact h1
  · extract_lets -merge -underBinder +onlyGivenNames x20 x21 x22
    have h22 : Keeps r x22 := (keeps_foldl h1 (fun _ _ h23 => (keeps_foldl h23 (fun _ _ h24 => (keeps_addFlags h24)))))
    clear_value x20 x21 x22
    exact (keeps_ite h22 (keeps_foldl h22 (fun _ _ h25 => (keeps_addFlags h25))))

theorem keeps_vIssue {s1} {a1} {a2} (h1 : Keeps r s1) :
    Keeps r (vIssue s1 a1 a2) := by
  unfold vIssue
  extract_lets -merge -underBinder +onlyGivenNames x20 x21 x22
  clear_value x20 x21 x22
  split
  · extract_lets -merge -underBinder +onlyGivenNames x23
    clear_value x23
    split
    · exact (keeps_issueHead h1 (fun _ _ h24 => (keeps_refuseEntry h24)))
    · extract_lets -merge -underBinder +onlyGivenNames x25 x26
      clear_value x25 x26
      refine keeps_ite ?_ ?_
      · exact h1
      · refine keeps_issueHead h1 ?_
        · intro y30 y31 h30
          extract_lets -merge -underBinder +onlyGivenNames x32 x33
          have h32 : Keeps r x32 := (keeps_updCtl h30)
          have h33 : Keeps r x33 := (keeps_launch h32)
          clear_value x32 x33
          exact (keeps_ite (keeps_sumqFlags (keeps_updCtl h33)) (keeps_vRun h33))
  · exact h1

theorem keeps_execVadd {a0} {s} (h : Keeps r s) :
    KeepsX r (execVadd a0 s) := by
  unfold execVadd
  exact (keepsX_next (keeps_vIssue h))

theorem keeps_execVmul {a0} {s} (h : Keeps r s) :
    KeepsX r (execVmul a0 s) := by
  unfold execVmul
  exact (keepsX_next (keeps_vIssue h))

theorem keeps_execVfma {a0} {s} (h : Keeps r s) :
    KeepsX r (execVfma a0 s) := by
  unfold execVfma
  exact (keepsX_next (keeps_vIssue h))

theorem keeps_execVwmul {a0} {s} (h : Keeps r s) :
    KeepsX r (execVwmul a0 s) := by
  unfold execVwmul
  exact (keepsX_next (keeps_vIssue h))

theorem keeps_execVdot4 {a0} {s} (h : Keeps r s) :
    KeepsX r (execVdot4 a0 s) := by
  unfold execVdot4
  exact (keepsX_next (keeps_vIssue h))

theorem keeps_execVmax {a0} {s} (h : Keeps r s) :
    KeepsX r (execVmax a0 s) := by
  unfold execVmax
  exact (keepsX_next (keeps_vIssue h))

theorem keeps_execVmin {a0} {s} (h : Keeps r s) :
    KeepsX r (execVmin a0 s) := by
  unfold execVmin
  exact (keepsX_next (keeps_vIssue h))

theorem keeps_execVcmp {a0} {s} (h : Keeps r s) :
    KeepsX r (execVcmp a0 s) := by
  unfold execVcmp
  exact (keepsX_next (keeps_vIssue h))

theorem keeps_execVsel {a0} {s} (h : Keeps r s) :
    KeepsX r (execVsel a0 s) := by
  unfold execVsel
  exact (keepsX_next (keeps_vIssue h))

theorem keeps_execVsum {a0} {s} (h : Keeps r s) :
    KeepsX r (execVsum a0 s) := by
  unfold execVsum
  exact (keepsX_next (keeps_vIssue h))

theorem keeps_execVperm {a0} {s} (h : Keeps r s) :
    KeepsX r (execVperm a0 s) := by
  unfold execVperm
  exact (keepsX_next (keeps_vIssue h))

theorem keeps_execVcvt {a0} {s} (h : Keeps r s) :
    KeepsX r (execVcvt a0 s) := by
  unfold execVcvt
  exact (keepsX_next (keeps_vIssue h))

theorem keeps_execVld {a0} {s} (h : Keeps r s) :
    KeepsX r (execVld a0 s) := by
  unfold execVld
  exact (keepsX_next (keeps_vIssue h))

theorem keeps_execVst {a0} {s} (h : Keeps r s) :
    KeepsX r (execVst a0 s) := by
  unfold execVst
  exact (keepsX_next (keeps_vIssue h))

theorem keeps_execVexp {a0} {s} (h : Keeps r s) :
    KeepsX r (execVexp a0 s) := by
  unfold execVexp
  exact (keepsX_next (keeps_vIssue h))

theorem keeps_execVlog2 {a0} {s} (h : Keeps r s) :
    KeepsX r (execVlog2 a0 s) := by
  unfold execVlog2
  exact (keepsX_next (keeps_vIssue h))

theorem keeps_execVrcp {a0} {s} (h : Keeps r s) :
    KeepsX r (execVrcp a0 s) := by
  unfold execVrcp
  exact (keepsX_next (keeps_vIssue h))

theorem keeps_execVrsq {a0} {s} (h : Keeps r s) :
    KeepsX r (execVrsq a0 s) := by
  unfold execVrsq
  exact (keepsX_next (keeps_vIssue h))

theorem keeps_execVtanh {a0} {s} (h : Keeps r s) :
    KeepsX r (execVtanh a0 s) := by
  unfold execVtanh
  exact (keepsX_next (keeps_vIssue h))

theorem keeps_execVsig {a0} {s} (h : Keeps r s) :
    KeepsX r (execVsig a0 s) := by
  unfold execVsig
  exact (keepsX_next (keeps_vIssue h))

theorem keeps_execSumq {a0} {s} (h : Keeps r s) :
    KeepsX r (execSumq a0 s) := by
  unfold execSumq
  exact (keepsX_next (keeps_vIssue h))

theorem keeps_execSummarySlotFill {a0} {s} (h : Keeps r s) :
    KeepsX r (execSummarySlotFill a0 s) := by
  unfold execSummarySlotFill
  refine keepsX_next ?_
  extract_lets -merge -underBinder +onlyGivenNames x20 x21 x22 x23
  have h23 : Keeps r x23 := (keeps_updSeq h)
  clear_value x20 x21 x22 x23
  refine keeps_foldl ?_ ?_
  · exact h23
  · intro y25 y26 h25
    refine keeps_ite ?_ ?_
    · extract_lets -merge -underBinder +onlyGivenNames x27
      have h27 : Keeps r x27 := (keeps_setReg h25)
      clear_value x27
      exact (keeps_updCtl h27)
    · exact (keeps_setReg h25)

theorem keeps_vRestore {s1} {a1} {a2} (h1 : Keeps r s1) :
    Keeps r (vRestore s1 a1 a2) := by
  unfold vRestore
  split
  · exact (keeps_setCore (keeps_setReg h1))
  · exact h1

theorem keeps_vResume {s1} {a1} {a2} (h1 : Keeps r s1) :
    Keeps r (vResume s1 a1 a2) := by
  unfold vResume
  split
  · extract_lets -merge -underBinder +onlyGivenNames x20
    have h20 : Keeps r x20 := (keeps_updSeq h1)
    clear_value x20
    exact (keeps_haltFrom h20)
  · extract_lets -merge -underBinder +onlyGivenNames x21 x22 x23 x24 x25 x26 x27
    have h26 : Keeps r x26 := (keeps_updSeq h1)
    have h27 : Keeps r x27 := (keeps_foldl h26 (fun _ _ h28 => (keeps_vRestore h28)))
    clear_value x21 x22 x23 x24 x25 x26 x27
    exact (keeps_vRun h27)

theorem keeps_vAction {s1} {a1} {a2} {a3} (h1 : Keeps r s1) :
    Keeps r (vAction s1 a1 a2 a3) := by
  unfold vAction
  extract_lets -merge -underBinder +onlyGivenNames x20 x21
  clear_value x20 x21
  split
  · exact h1
  · refine keeps_ite ?_ ?_
    · extract_lets -merge -underBinder +onlyGivenNames x22 x23 x24
      have h22 : Keeps r x22 := (keeps_putF h1)
      have h24 : Keeps r x24 := (keeps_updSeq h22)
      clear_value x22 x23 x24
      exact (keeps_ite (keeps_vResume h24) h24)
    · exact h1

theorem keeps_execVexcRestart {a0} {a1} {s} (h : Keeps r s) :
    KeepsX r (execVexcRestart a0 a1 s) := by
  unfold execVexcRestart
  exact (keepsX_next (keeps_vAction h))

theorem keeps_execVexcRestartNotrap {a0} {a1} {s} (h : Keeps r s) :
    KeepsX r (execVexcRestartNotrap a0 a1 s) := by
  unfold execVexcRestartNotrap
  exact (keepsX_next (keeps_vAction h))

theorem keeps_execVexcSkip {a0} {a1} {s} (h : Keeps r s) :
    KeepsX r (execVexcSkip a0 a1 s) := by
  unfold execVexcSkip
  exact (keepsX_next (keeps_vAction h))

theorem keeps_execVexcHalt {a0} {a1} {s} (h : Keeps r s) :
    KeepsX r (execVexcHalt a0 a1 s) := by
  unfold execVexcHalt
  exact (keepsX_next (keeps_vAction h))

end Sys2Proof.Machine
end

