-- ==== Sys2Proof/Laws/KeepsRows.lean ====
section
/-! SUPPORT. What each operation of Machine/Rows.lean keeps. -/

namespace Sys2Proof.Machine

variable {r : State}

theorem keeps_scrambleGang {s1} {a1} (h1 : Keeps r s1) :
    Keeps r (scrambleGang s1 a1) := by
  unfold scrambleGang
  extract_lets -merge -underBinder +onlyGivenNames x20 x21 x22 x23
  have h22 : Keeps r x22 := (keeps_updSeq h1)
  have h23 : Keeps r x23 := (keeps_mk h22)
  clear_value x20 x21 x22 x23
  refine keeps_foldl ?_ ?_
  · exact h23
  · intro y25 y26 h25
    extract_lets -merge -underBinder +onlyGivenNames x27 x28 x29 x30 x31 x33 x35 x36 x38 x40
    have h27 : Keeps r x27 := (keeps_updCtl h25)
    have h28 : Keeps r x28 := (keeps_mk h27)
    have h29 : Keeps r x29 := (keeps_setReg (keeps_setReg h28))
    have h30 : Keeps r x30 := (keeps_putF (keeps_putF h29))
    have h31 : Keeps r x31 := (keeps_foldl h30 (fun _ _ h32 => (keeps_setReg h32)))
    have h33 : Keeps r x33 := (keeps_foldl h31 (fun _ _ h34 => (keeps_setReg h34)))
    have h35 : Keeps r x35 := (keeps_mk h33)
    have h36 : Keeps r x36 := (keeps_foldl h35 (fun _ _ h37 => (keeps_setReg (keeps_setReg h37))))
    have h38 : Keeps r x38 := (keeps_foldl h36 (fun _ _ h39 => (keeps_setReg (keeps_setReg h39))))
    clear_value x27 x28 x29 x30 x31 x33 x35 x36 x38
    have h40 : Keeps r x40 := by
      unfold x40
      refine keeps_foldl ?_ ?_
      · exact h38
      · intro y43 y44 h43
        extract_lets -merge -underBinder +onlyGivenNames x45 x46
        have h46 : Keeps r x46 := (keeps_setReg (keeps_setCore h43))
        clear_value x45 x46
        exact (keeps_setReg (keeps_setReg h46))
    clear_value x40
    exact (keeps_mk h40)

theorem keeps_takeGangs {s1} {a1} (h1 : Keeps r s1) :
    Keeps r (takeGangs s1 a1) := by
  unfold takeGangs
  exact (keeps_foldl h1 (fun _ _ h20 => (keeps_setGangState (keeps_scrambleGang h20))))

theorem keeps_returnGangs {s1} {a1} (h1 : Keeps r s1) :
    Keeps r (returnGangs s1 a1) := by
  unfold returnGangs
  exact (keeps_foldl h1 (fun _ _ h20 => (keeps_setGangState (keeps_scrambleGang h20))))

theorem keeps_freshContext {s1} {a1} (h1 : Keeps r s1) :
    Keeps r (freshContext s1 a1) := by
  unfold freshContext
  extract_lets -merge -underBinder +onlyGivenNames x20 x21 x22
  have h22 : Keeps r x22 := (keeps_setSeq h1)
  clear_value x20 x21 x22
  refine keeps_foldl ?_ ?_
  · exact h22
  · intro y24 y25 h24
    extract_lets -merge -underBinder +onlyGivenNames x26 x27 x28
    have h27 : Keeps r x27 := (keeps_setCtl h24)
    have h28 : Keeps r x28 := (keeps_mkAll h27 (fun w => (mwf_mdrop w)) id id id id)
    clear_value x26 x27 x28
    refine keeps_foldl ?_ ?_
    · exact h28
    · intro y30 y31 h30
      extract_lets -merge -underBinder +onlyGivenNames x32 x33 x34
      have h34 : Keeps r x34 := (keeps_setCore h30)
      clear_value x32 x33 x34
      exact (keeps_setReg (keeps_setReg (keeps_setReg h34)))

theorem keeps_bringBack {s1} {a1} (h1 : Keeps r s1) :
    Keeps r (bringBack s1 a1) := by
  unfold bringBack
  refine keeps_ite ?_ ?_
  · extract_lets -merge -underBinder +onlyGivenNames x20
    clear_value x20
    split
    · rename_i s21_0 _ e21
      have h21_0 : Keeps r s21_0 := keeps_of_eq1 e21 (keeps_fetchSaved h1)
      extract_lets -merge -underBinder +onlyGivenNames x22
      have h22 : Keeps r x22 := (keeps_loadSaved h21_0)
      clear_value x22
      exact (keeps_mk h22)
  · exact h1

theorem keeps_startRccs {s1} {a1} (h1 : Keeps r s1) :
    Keeps r (startRccs s1 a1) := by
  unfold startRccs
  refine keeps_foldl ?_ ?_
  · exact h1
  · intro y21 y22 h21
    extract_lets -merge -underBinder +onlyGivenNames x23
    clear_value x23
    exact (keeps_updCtl h21)

theorem keeps_goGang {s1} {a1} (h1 : Keeps r s1) :
    Keeps r (goGang s1 a1) := by
  unfold goGang
  extract_lets -merge -underBinder +onlyGivenNames x20 x21 x22
  have h20 : Keeps r x20 := (keeps_bringBack h1)
  have h21 : Keeps r x21 := (keeps_updSeq h20)
  have h22 : Keeps r x22 := (keeps_boundary (keeps_setGangState (keeps_startRccs h21)))
  clear_value x20 x21 x22
  exact (keeps_setPc h22)

theorem keeps_contGang {s1} {a1} (h1 : Keeps r s1) :
    Keeps r (contGang s1 a1) := by
  unfold contGang
  extract_lets -merge -underBinder +onlyGivenNames x20 x21 x22
  have h20 : Keeps r x20 := (keeps_bringBack h1)
  have h22 : Keeps r x22 := (keeps_ite (keeps_setPc (keeps_startRccs h20)) h20)
  clear_value x20 x21 x22
  exact (keeps_boundary (keeps_setGangState (keeps_updSeq h22)))

theorem keeps_gangCommand {s1} {a1} {a2} {a3} {a4 : State → State} (h1 : Keeps r s1) (g5 : ∀ y0, Keeps r y0 → Keeps r (a4 y0)) :
    Keeps r (gangCommand s1 a1 a2 a3 a4) := by
  unfold gangCommand
  exact (keeps_guarded h1 (fun _ h20 => (keeps_ite (keeps_denied h20) (keeps_done (g5 _ h20)))))

theorem keeps_goCmd {s1} {a1} {a2} (h1 : Keeps r s1) :
    Keeps r (goCmd s1 a1 a2) := by
  unfold goCmd
  exact (keeps_gangCommand h1 (fun _ h20 => (keeps_goGang h20)))

theorem keeps_armCmd {s1} {a1} {a2} (h1 : Keeps r s1) :
    Keeps r (armCmd s1 a1 a2) := by
  unfold armCmd
  exact (keeps_gangCommand h1 (fun _ h20 => (keeps_updSeq h20)))

theorem keeps_contCmd {s1} {a1} {a2} (h1 : Keeps r s1) :
    Keeps r (contCmd s1 a1 a2) := by
  unfold contCmd
  exact (keeps_gangCommand h1 (fun _ h20 => (keeps_contGang h20)))

theorem keeps_stopCmd {s1} {a1} {a2} {a3} (h1 : Keeps r s1) :
    Keeps r (stopCmd s1 a1 a2 a3) := by
  unfold stopCmd
  exact (keeps_gangCommand h1 (fun _ h20 => (keeps_updSeq h20)))

theorem keeps_yieldCmd {s1} {a1} {a2} (h1 : Keeps r s1) :
    Keeps r (yieldCmd s1 a1 a2) := by
  unfold yieldCmd
  exact (keeps_gangCommand h1 (fun _ h20 => (keeps_updSeq h20)))

theorem keeps_execGo {a0} {a1} {s} (h : Keeps r s) :
    KeepsX r (execGo a0 a1 s) := by
  unfold execGo
  exact (keepsX_next (keeps_goCmd h))

theorem keeps_execArm {a0} {a1} {s} (h : Keeps r s) :
    KeepsX r (execArm a0 a1 s) := by
  unfold execArm
  exact (keepsX_next (keeps_armCmd h))

theorem keeps_execCont {a0} {a1} {s} (h : Keeps r s) :
    KeepsX r (execCont a0 a1 s) := by
  unfold execCont
  exact (keepsX_next (keeps_contCmd h))

theorem keeps_execStop {a0} {a1} {s} (h : Keeps r s) :
    KeepsX r (execStop a0 a1 s) := by
  unfold execStop
  exact (keepsX_next (keeps_stopCmd h))

theorem keeps_execStopSave {a0} {a1} {s} (h : Keeps r s) :
    KeepsX r (execStopSave a0 a1 s) := by
  unfold execStopSave
  exact (keepsX_next (keeps_stopCmd h))

theorem keeps_execYield {a0} {a1} {s} (h : Keeps r s) :
    KeepsX r (execYield a0 a1 s) := by
  unfold execYield
  exact (keepsX_next (keeps_yieldCmd h))

theorem keeps_rowCtlWrite {s1} {a1} {a2} {a3} (h1 : Keeps r s1) :
    Keeps r (rowCtlWrite s1 a1 a2 a3) := by
  unfold rowCtlWrite
  split
  · exact (keeps_goCmd h1)
  · exact (keeps_armCmd h1)
  · exact (keeps_contCmd h1)
  · exact (keeps_stopCmd h1)
  · exact (keeps_yieldCmd h1)
  · exact (keeps_guarded h1 (fun _ h20 => (keeps_denied h20)))

theorem keeps_execContextSwitch {a0} {s} (h : Keeps r s) :
    KeepsX r (execContextSwitch a0 s) := by
  unfold execContextSwitch
  exact (keepsX_next (keeps_contextSwitch h))

theorem keeps_execWatchdogExpiry {a0} {s} (h : Keeps r s) :
    KeepsX r (execWatchdogExpiry a0 s) := by
  unfold execWatchdogExpiry
  exact (keepsX_next (keeps_watchdogExpiry h))

theorem keeps_releaseGang {s1} {a1} {a2} (h1 : Keeps r s1) :
    Keeps r (releaseGang s1 a1 a2) := by
  unfold releaseGang
  extract_lets -merge -underBinder +onlyGivenNames x20
  have h20 : Keeps r x20 := (keeps_ite (keeps_startPace (keeps_setGangState h1)) (keeps_goGang h1))
  clear_value x20
  exact (keeps_updSeq h20)

theorem keeps_execBarrierRelease {a0} {a1} {s} (h : Keeps r s) :
    KeepsX r (execBarrierRelease a0 a1 s) := by
  unfold execBarrierRelease
  refine keepsX_next ?_
  extract_lets -merge -underBinder +onlyGivenNames x20
  clear_value x20
  split
  · exact h
  · extract_lets -merge -underBinder +onlyGivenNames x21 x22
    have h22 : Keeps r x22 := (keeps_foldl h (fun _ _ h23 => (keeps_releaseGang h23)))
    clear_value x21 x22
    exact (keeps_foldl h22 (fun _ _ h24 => (keeps_collFinish h24)))

theorem keeps_imBusy {s1} {a1} {a2} (h1 : Keeps r s1) :
    Keeps r (imBusy s1 a1 a2) := by
  unfold imBusy
  exact (keeps_denied (keeps_bumpF h1))

theorem keeps_execIcsumProgramLoad {a0} {a1} {a2} {s} (h : Keeps r s) :
    KeepsX r (execIcsumProgramLoad a0 a1 a2 s) := by
  unfold execIcsumProgramLoad
  refine keepsX_next ?_
  extract_lets -merge -underBinder +onlyGivenNames x20 x21
  clear_value x20 x21
  refine keeps_ite ?_ ?_
  · exact h
  · split
    · exact (keeps_answer h)
    · extract_lets -merge -underBinder +onlyGivenNames x22
      clear_value x22
      split
      · extract_lets -merge -underBinder +onlyGivenNames x23
        clear_value x23
        refine keeps_ite ?_ ?_
        · exact (keeps_accessError h)
        · refine keeps_ite ?_ ?_
          · exact (keeps_accessError (keeps_bumpF h))
          · extract_lets -merge -underBinder +onlyGivenNames x24 x25
            have h24 : Keeps r x24 := (keeps_mk h)
            have h25 : Keeps r x25 := (keeps_setWords h24)
            clear_value x24 x25
            exact (keeps_done (keeps_putF h25))
      · extract_lets -merge -underBinder +onlyGivenNames x26
        have h26 : Keeps r x26 := (keeps_mk h)
        clear_value x26
        exact (keeps_done (keeps_updCtl h26))

theorem keeps_instrWrite {s1} {a1} {a2} {a3} {a4} {a5} (h1 : Keeps r s1) :
    Keeps r (instrWrite s1 a1 a2 a3 a4 a5) := by
  unfold instrWrite
  extract_lets -merge -underBinder +onlyGivenNames x20
  clear_value x20
  refine keeps_guarded h1 ?_
  · intro y23 h23
    refine keeps_ite ?_ ?_
    · exact (keeps_denied h23)
    · refine keeps_ite ?_ ?_
      · exact (keeps_imBusy h23)
      · extract_lets -merge -underBinder +onlyGivenNames x24 x25
        have h24 : Keeps r x24 := (keeps_setReg h23)
        have h25 : Keeps r x25 := (keeps_mk h24)
        clear_value x24 x25
        exact (keeps_done (keeps_putF h25))

theorem keeps_execInstrStoreWrite {a0} {a1} {a2} {a3} {a4} {s} (h : Keeps r s) :
    KeepsX r (execInstrStoreWrite a0 a1 a2 a3 a4 s) := by
  unfold execInstrStoreWrite
  exact (keepsX_next (keeps_instrWrite h))

theorem keeps_imctlWrite {s1} {a1} {a2} {a3} (h1 : Keeps r s1) :
    Keeps r (imctlWrite s1 a1 a2 a3) := by
  unfold imctlWrite
  refine keeps_guarded h1 ?_
  · intro y22 h22
    extract_lets -merge -underBinder +onlyGivenNames x23 x24 x25
    clear_value x23 x24 x25
    refine keeps_ite ?_ ?_
    · exact (keeps_denied h22)
    · refine keeps_ite ?_ ?_
      · exact (keeps_imBusy h22)
      · extract_lets -merge -underBinder +onlyGivenNames x26 x27 x28 x29
        have h28 : Keeps r x28 := (keeps_setReg h22)
        have h29 : Keeps r x29 := (keeps_putF h28)
        clear_value x26 x27 x28 x29
        refine keeps_done ?_
        · split
          · extract_lets -merge -underBinder +onlyGivenNames x30
            clear_value x30
            exact (keeps_mk h29)
          · exact h29

theorem keeps_execImctlGenWrite {a0} {a1} {a2} {s} (h : Keeps r s) :
    KeepsX r (execImctlGenWrite a0 a1 a2 s) := by
  unfold execImctlGenWrite
  exact (keepsX_next (keeps_imctlWrite h))

theorem keeps_pshadowSet {s1} {a1} {a2} {a3} {a4} (h1 : Keeps r s1) :
    Keeps r (pshadowSet s1 a1 a2 a3 a4) := by
  unfold pshadowSet
  exact (keeps_guarded h1 (fun _ h20 => (keeps_ite (keeps_denied h20) (keeps_ite (keeps_done h20) (keeps_done (keeps_setReg h20))))))

theorem keeps_pactiveSet {s1} {a1} {a2} {a3} {a4} (h1 : Keeps r s1) :
    Keeps r (pactiveSet s1 a1 a2 a3 a4) := by
  unfold pactiveSet
  exact (keeps_guarded h1 (fun _ h20 => (keeps_ite (keeps_denied h20) (keeps_done (keeps_setReg h20)))))

theorem keeps_execPshadowWrite {a0} {a1} {a2} {a3} {s} (h : Keeps r s) :
    KeepsX r (execPshadowWrite a0 a1 a2 a3 s) := by
  unfold execPshadowWrite
  exact (keepsX_next (keeps_pshadowSet h))

theorem keeps_execPactiveWrite {a0} {a1} {a2} {a3} {s} (h : Keeps r s) :
    KeepsX r (execPactiveWrite a0 a1 a2 a3 s) := by
  unfold execPactiveWrite
  exact (keepsX_next (keeps_pactiveSet h))

theorem keeps_remapUnits {s1} {a1} {a2} {a3} (h1 : Keeps r s1) :
    Keeps r (remapUnits s1 a1 a2 a3) := by
  unfold remapUnits
  refine keeps_foldl ?_ ?_
  · exact h1
  · intro y21 y22 h21
    extract_lets -merge -underBinder +onlyGivenNames x23 x24
    clear_value x23 x24
    exact (keeps_ite (keeps_setUnit h21) (keeps_ite (keeps_setUnit h21) h21))

theorem keeps_colmapSet {s1} {a1} {a2} {a3} {a4} (h1 : Keeps r s1) :
    Keeps r (colmapSet s1 a1 a2 a3 a4) := by
  unfold colmapSet
  refine keeps_guarded h1 ?_
  · intro y22 h22
    extract_lets -merge -underBinder +onlyGivenNames x23
    clear_value x23
    refine keeps_ite ?_ ?_
    · exact (keeps_denied h22)
    · extract_lets -merge -underBinder +onlyGivenNames x24 x25
      have h25 : Keeps r x25 := (keeps_setReg h22)
      clear_value x24 x25
      exact (keeps_done (keeps_remapUnits h25))

theorem keeps_execColmapWrite {a0} {a1} {a2} {a3} {s} (h : Keeps r s) :
    KeepsX r (execColmapWrite a0 a1 a2 a3 s) := by
  unfold execColmapWrite
  exact (keepsX_next (keeps_colmapSet h))

theorem keeps_setValid {s1} {a1} {a2} (h1 : Keeps r s1) :
    Keeps r (setValid s1 a1 a2) := by
  unfold setValid
  extract_lets -merge -underBinder +onlyGivenNames x20 x21 x22
  have h22 : Keeps r x22 := (keeps_foldl h1 (fun _ _ h23 => (keeps_ite h23 (keeps_ite (keeps_ite (keeps_freshContext h23) h23) (keeps_ite (keeps_putSaved h23) (keeps_mk h23))))))
  clear_value x20 x21 x22
  exact (keeps_putF h22)

theorem keeps_ctxctlWrite {s1} {a1} {a2} {a3} (h1 : Keeps r s1) :
    Keeps r (ctxctlWrite s1 a1 a2 a3) := by
  unfold ctxctlWrite
  refine keeps_guarded h1 ?_
  · intro y22 h22
    extract_lets -merge -underBinder +onlyGivenNames x23 x24
    clear_value x23 x24
    refine keeps_ite ?_ ?_
    · exact (keeps_denied h22)
    · extract_lets -merge -underBinder +onlyGivenNames x25
      have h25 : Keeps r x25 := (keeps_setValid h22)
      clear_value x25
      exact (keeps_done (keeps_setReg h25))

theorem keeps_execWdogLimitWrite {a0} {a1} {a2} {s} (h : Keeps r s) :
    KeepsX r (execWdogLimitWrite a0 a1 a2 s) := by
  unfold execWdogLimitWrite
  refine keepsX_next ?_
  extract_lets -merge -underBinder +onlyGivenNames x20
  clear_value x20
  exact (keeps_ctxctlWrite h)

theorem keeps_ctxWordWrite {s1} {a1} {a2} {a3} {a4} {a5} (h1 : Keeps r s1) :
    Keeps r (ctxWordWrite s1 a1 a2 a3 a4 a5) := by
  unfold ctxWordWrite
  exact (keeps_guarded h1 (fun _ h20 => (keeps_ite (keeps_denied h20) (keeps_plainWrite h20))))

theorem keeps_paceTake {s1} {a1} {a2} (h1 : Keeps r s1) :
    Keeps r (paceTake s1 a1 a2) := by
  unfold paceTake
  extract_lets -merge -underBinder +onlyGivenNames x20 x21
  have h21 : Keeps r x21 := (keeps_setReg h1)
  clear_value x21
  exact (keeps_ite h21 (keeps_ite (keeps_updSeq h21) (keeps_placePaced h21)))

theorem keeps_paceSet {s1} {a1} {a2} {a3} (h1 : Keeps r s1) :
    Keeps r (paceSet s1 a1 a2 a3) := by
  unfold paceSet
  refine keeps_guarded h1 ?_
  · intro y22 h22
    extract_lets -merge -underBinder +onlyGivenNames x23 x24 x25
    clear_value x23 x24 x25
    refine keeps_ite ?_ ?_
    · refine keeps_ite ?_ ?_
      · exact (keeps_denied h22)
      · split
        · exact (keeps_denied (keeps_putF h22))
        · exact (keeps_ite (keeps_denied h22) (keeps_done (keeps_paceTake h22)))
    · exact (keeps_ite (keeps_denied h22) (keeps_done (keeps_paceTake h22)))

theorem keeps_execPaceWrite {a0} {a1} {a2} {s} (h : Keeps r s) :
    KeepsX r (execPaceWrite a0 a1 a2 s) := by
  unfold execPaceWrite
  exact (keepsX_next (keeps_paceSet h))

theorem keeps_detmodeSet {s1} {a1} {a2} {a3} (h1 : Keeps r s1) :
    Keeps r (detmodeSet s1 a1 a2 a3) := by
  unfold detmodeSet
  refine keeps_guarded h1 ?_
  · intro y22 h22
    extract_lets -merge -underBinder +onlyGivenNames x23
    clear_value x23
    exact (keeps_ite (keeps_denied h22) (keeps_done (keeps_foldl h22 (fun _ _ h24 => (keeps_setReg h24)))))

theorem keeps_execDetmodeWrite {a0} {a1} {a2} {s} (h : Keeps r s) :
    KeepsX r (execDetmodeWrite a0 a1 a2 s) := by
  unfold execDetmodeWrite
  exact (keepsX_next (keeps_detmodeSet h))

end Sys2Proof.Machine
end

