-- ==== Sys2Proof/Laws/KeepsCkpt.lean ====
section
/-! SUPPORT. What each operation of Machine/Ckpt.lean keeps. -/

namespace Sys2Proof.Machine

variable {r : State}

theorem keeps_updCkp {s1} {a1} {a2} (h1 : Keeps r s1) :
    Keeps r (updCkp s1 a1 a2) := by
  unfold updCkp
  exact (keeps_updHalf h1)

theorem keeps_ckpCfgWrite {s1} {a1} {a2} {a3} (h1 : Keeps r s1) :
    Keeps r (ckpCfgWrite s1 a1 a2 a3) := by
  unfold ckpCfgWrite
  refine keeps_guarded h1 ?_
  · intro y22 h22
    refine keeps_ite ?_ ?_
    · exact (keeps_denied h22)
    · refine keeps_ite ?_ ?_
      · exact (keeps_denied (keeps_putF h22))
      · extract_lets -merge -underBinder +onlyGivenNames x23
        have h23 : Keeps r x23 := (keeps_setReg h22)
        clear_value x23
        exact (keeps_done (keeps_ite (keeps_updCkp (keeps_putF h23)) h23))

theorem keeps_execCkpEnable {a0} {a1} {a2} {s} (h : Keeps r s) :
    KeepsX r (execCkpEnable a0 a1 a2 s) := by
  unfold execCkpEnable
  exact (keepsX_next (keeps_ckpCfgWrite h))

theorem keeps_ckpEvent {s1} {a1} {a2} {a3} (h1 : Keeps r s1) :
    Keeps r (ckpEvent s1 a1 a2 a3) := by
  unfold ckpEvent
  exact (keeps_tellNode (keeps_raiseEvent h1))

theorem keeps_resumeHeld {s1} {a1} (h1 : Keeps r s1) :
    Keeps r (resumeHeld s1 a1) := by
  unfold resumeHeld
  extract_lets -merge -underBinder +onlyGivenNames x20 x21
  have h21 : Keeps r x21 := (keeps_ite (keeps_updSeq h1) h1)
  clear_value x20 x21
  exact (keeps_ite (keeps_restartPace (keeps_setGangState h21)) h21)

theorem keeps_resumeAll {s1} {a1} (h1 : Keeps r s1) :
    Keeps r (resumeAll s1 a1) := by
  unfold resumeAll
  exact (keeps_foldl h1 (fun _ _ h20 => (keeps_resumeHeld h20)))

theorem keeps_disarm {s1} {a1} (h1 : Keeps r s1) :
    Keeps r (disarm s1 a1) := by
  unfold disarm
  exact (keeps_releaseHeld (keeps_updCkp h1))

theorem keeps_markEngines {s1} {a1} {a2} (h1 : Keeps r s1) :
    Keeps r (markEngines s1 a1 a2) := by
  unfold markEngines
  exact (keeps_foldl h1 (fun _ _ h20 => (keeps_putF h20)))

theorem keeps_ckpEnd {s1} {a1} {a2} (h1 : Keeps r s1) :
    Keeps r (ckpEnd s1 a1 a2) := by
  unfold ckpEnd
  refine keeps_ite ?_ ?_
  · exact h1
  · extract_lets -merge -underBinder +onlyGivenNames x20 x21 x22
    have h20 : Keeps r x20 := (keeps_putF (keeps_putF h1))
    have h21 : Keeps r x21 := (keeps_disarm (keeps_markEngines (keeps_resumeAll h20)))
    have h22 : Keeps r x22 := (keeps_updCkp h21)
    clear_value x20 x21 x22
    exact (keeps_ckpEvent h22)

theorem keeps_ckpBegin {s1} {a1} {a2} {a3} (h1 : Keeps r s1) :
    Keeps r (ckpBegin s1 a1 a2 a3) := by
  unfold ckpBegin
  extract_lets -merge -underBinder +onlyGivenNames x20 x21
  have h20 : Keeps r x20 := (keeps_putF (keeps_putF h1))
  have h21 : Keeps r x21 := (keeps_setReg (keeps_putF h20))
  clear_value x20 x21
  exact (keeps_updCkp h21)

theorem keeps_ckpTrigger {s1} {a1} {a2} (h1 : Keeps r s1) :
    Keeps r (ckpTrigger s1 a1 a2) := by
  unfold ckpTrigger
  exact (keeps_ite (keeps_ckpBegin h1) (keeps_bumpF h1))

theorem keeps_execCkpTimerTrigger {a0} {s} (h : Keeps r s) :
    KeepsX r (execCkpTimerTrigger a0 s) := by
  unfold execCkpTimerTrigger
  refine keepsX_next ?_
  extract_lets -merge -underBinder +onlyGivenNames x20 x21 x22
  clear_value x20 x21 x22
  exact (keeps_ite h (keeps_ckpTrigger (keeps_updCkp h)))

theorem keeps_ckpCtlWrite {s1} {a1} {a2} {a3} (h1 : Keeps r s1) :
    Keeps r (ckpCtlWrite s1 a1 a2 a3) := by
  unfold ckpCtlWrite
  refine keeps_guarded h1 ?_
  · intro y22 h22
    split
    · exact (keeps_done (keeps_ite (keeps_ckpTrigger h22) h22))
    · exact (keeps_done (keeps_ite (keeps_ckpEnd h22) h22))
    · refine keeps_done ?_
      · refine keeps_ite ?_ ?_
        · extract_lets -merge -underBinder +onlyGivenNames x23
          have h23 : Keeps r x23 := (keeps_updCkp (keeps_resumeAll h22))
          clear_value x23
          exact (keeps_markEngines (keeps_setReg (keeps_putF h23)))
        · exact h22
    · exact (keeps_denied h22)

theorem keeps_execCkpNow {a0} {a1} {s} (h : Keeps r s) :
    KeepsX r (execCkpNow a0 a1 s) := by
  unfold execCkpNow
  exact (keepsX_next (keeps_ckpCtlWrite h))

theorem keeps_execCkpAbort {a0} {a1} {s} (h : Keeps r s) :
    KeepsX r (execCkpAbort a0 a1 s) := by
  unfold execCkpAbort
  exact (keepsX_next (keeps_ckpCtlWrite h))

theorem keeps_execCkpRelease {a0} {a1} {s} (h : Keeps r s) :
    KeepsX r (execCkpRelease a0 a1 s) := by
  unfold execCkpRelease
  exact (keepsX_next (keeps_ckpCtlWrite h))

theorem keeps_ckpHold {s1} {a1} {a2} {a3} (h1 : Keeps r s1) :
    Keeps r (ckpHold s1 a1 a2 a3) := by
  unfold ckpHold
  extract_lets -merge -underBinder +onlyGivenNames x20 x21 x22 x23 x24 x25 x26
  have h24 : Keeps r x24 := (keeps_setReg h1)
  have h25 : Keeps r x25 := (keeps_ite (keeps_putF h24) h24)
  have h26 : Keeps r x26 := (keeps_updCkp h25)
  clear_value x20 x21 x22 x23 x24 x25 x26
  exact (keeps_updSeq h26)

theorem keeps_startBrake {s1} {a1} (h1 : Keeps r s1) :
    Keeps r (startBrake s1 a1) := by
  unfold startBrake
  exact (keeps_updSeq h1)

theorem keeps_ckpAtMark {s1} {a1} (h1 : Keeps r s1) :
    Keeps r (ckpAtMark s1 a1) := by
  unfold ckpAtMark
  extract_lets -merge -underBinder +onlyGivenNames x20 x21
  clear_value x20 x21
  refine keeps_ite ?_ ?_
  · exact h1
  · extract_lets -merge -underBinder +onlyGivenNames x22 x23 x24
    clear_value x22 x23
    refine keeps_ite ?_ ?_
    · exact (keeps_ckpHold (keeps_ite (keeps_bumpF h1) h1))
    · refine keeps_ite ?_ ?_
      · exact (keeps_startBrake h1)
      · refine keeps_ite ?_ ?_
        · refine keeps_ite ?_ ?_
          · extract_lets -merge -underBinder +onlyGivenNames x25
            have h25 : Keeps r x25 := (keeps_setReg (keeps_ckpBegin h1))
            clear_value x25
            exact (keeps_startBrake h25)
          · exact (keeps_bumpF h1)
        · exact h1

theorem keeps_execStepmark {a0} {a1} {s} (h : Keeps r s) :
    KeepsX r (execStepmark a0 a1 s) := by
  unfold execStepmark
  refine keepsX_next ?_
  refine keeps_seqExec h ?_
  · intro y23 h23
    extract_lets -merge -underBinder +onlyGivenNames x24 x25
    have h24 : Keeps r x24 := (keeps_updCtl h23)
    have h25 : Keeps r x25 := (keeps_foldl h24 (fun _ _ h26 => (keeps_setReg h26)))
    clear_value x24 x25
    exact (keeps_ckpAtMark (keeps_retire h25))

theorem keeps_ckpTargetSet {s1} {a1} {a2} {a3} (h1 : Keeps r s1) :
    Keeps r (ckpTargetSet s1 a1 a2 a3) := by
  unfold ckpTargetSet
  refine keeps_guarded h1 ?_
  · intro y22 h22
    refine keeps_ite ?_ ?_
    · exact (keeps_denied h22)
    · extract_lets -merge -underBinder +onlyGivenNames x23 x24
      have h23 : Keeps r x23 := (keeps_putF (keeps_setReg h22))
      have h24 : Keeps r x24 := (keeps_foldl h23 (fun _ _ h25 => (keeps_ite (keeps_startBrake h25) (keeps_resumeHeld h25))))
      clear_value x23 x24
      exact (keeps_done (keeps_updCkp h24))

theorem keeps_execCkpTargetWrite {a0} {a1} {a2} {s} (h : Keeps r s) :
    KeepsX r (execCkpTargetWrite a0 a1 a2 s) := by
  unfold execCkpTargetWrite
  exact (keepsX_next (keeps_ckpTargetSet h))

theorem keeps_execBrake {a0} {s} (h : Keeps r s) :
    KeepsX r (execBrake a0 s) := by
  unfold execBrake
  refine keepsX_next ?_
  extract_lets -merge -underBinder +onlyGivenNames x20 x21
  clear_value x20 x21
  refine keeps_ite ?_ ?_
  · exact h
  · extract_lets -merge -underBinder +onlyGivenNames x22 x23 x24
    have h23 : Keeps r x23 := (keeps_setGangState (keeps_thaw (keeps_updSeq h)))
    clear_value x22 x23 x24
    exact (keeps_updCkp (keeps_smearArea h23))

theorem keeps_execCkpArrived {a0} {s} (h : Keeps r s) :
    KeepsX r (execCkpArrived a0 s) := by
  unfold execCkpArrived
  refine keepsX_next ?_
  extract_lets -merge -underBinder +onlyGivenNames x20
  clear_value x20
  refine keeps_ite ?_ ?_
  · exact (keeps_ckpEnd h)
  · refine keeps_ite ?_ ?_
    · exact h
    · refine keeps_ite ?_ ?_
      · exact (keeps_ckpEnd h)
      · extract_lets -merge -underBinder +onlyGivenNames x21 x22
        have h22 : Keeps r x22 := (keeps_updCkp h)
        clear_value x21 x22
        exact (keeps_ckpEvent (keeps_putF h22))

theorem keeps_execCkpBrakeTimeout {a0} {s} (h : Keeps r s) :
    KeepsX r (execCkpBrakeTimeout a0 s) := by
  unfold execCkpBrakeTimeout
  refine keepsX_next ?_
  extract_lets -merge -underBinder +onlyGivenNames x20 x21
  clear_value x20 x21
  exact (keeps_ite (keeps_ckpEnd h) h)

theorem keeps_writeFab {s1} {a1} {a2} {a3} {a4} (h1 : Keeps r s1) :
    Keeps r (writeFab s1 a1 a2 a3 a4).1 := by
  unfold writeFab
  split
  · exact h1
  · extract_lets -merge -underBinder +onlyGivenNames x20
    clear_value x20
    refine keeps_foldl1 ?_ ?_
    · exact h1
    · intro y22 y23 h22
      split
      · rename_i s24_0 _ e24
        have h24_0 : Keeps r s24_0 := keeps_of_eq1 e24 (keeps_putFab h22)
        exact h24_0

theorem keeps_copyPage {s1} {a1} {a2} (h1 : Keeps r s1) :
    Keeps r (copyPage s1 a1 a2).1 := by
  unfold copyPage
  extract_lets -merge -underBinder +onlyGivenNames x20 x21 x22 x23
  clear_value x20 x21 x22 x23
  refine keeps_ite1 ?_ ?_
  · split
    · exact h1
    · exact (keeps_gatewayRow h1)
  · exact (keeps_writeFab h1)

theorem keeps_pageDone {s1} {a1} {a2} {a3} (h1 : Keeps r s1) :
    Keeps r (pageDone s1 a1 a2 a3) := by
  unfold pageDone
  extract_lets -merge -underBinder +onlyGivenNames x20
  have h20 : Keeps r x20 := (keeps_updCkp h1)
  clear_value x20
  exact (keeps_releaseHeld (keeps_setReg h20))

theorem keeps_execCkpPageCopy {a0} {a1} {s} (h : Keeps r s) :
    KeepsX r (execCkpPageCopy a0 a1 s) := by
  unfold execCkpPageCopy
  refine keepsX_next ?_
  extract_lets -merge -underBinder +onlyGivenNames x20
  clear_value x20
  refine keeps_ite ?_ ?_
  · exact h
  · split
    · exact h
    · extract_lets -merge -underBinder +onlyGivenNames x21
      clear_value x21
      split
      · rename_i s22_0 _ e22
        have h22_0 : Keeps r s22_0 := keeps_of_eq1 e22 (keeps_copyPage h)
        exact (keeps_ite (keeps_ckpEnd h22_0) (keeps_pageDone h22_0))

theorem keeps_signBlock {s1} {a1} {a2} (h1 : Keeps r s1) :
    Keeps r (signBlock s1 a1 a2).2 := by
  unfold signBlock
  split
  · rename_i _ s20_1 e20
    have h20_1 : Keeps r s20_1 := keeps_of_eq2 e20 (keeps_draw h1)
    exact h20_1

theorem keeps_sealCuts {s1} {a1} (h1 : Keeps r s1) :
    Keeps r (sealCuts s1 a1) := by
  unfold sealCuts
  extract_lets -merge -underBinder +onlyGivenNames x20 x21
  clear_value x20 x21
  exact (keeps_updCkp h1)

theorem keeps_execCkpSeal {a0} {s} (h : Keeps r s) :
    KeepsX r (execCkpSeal a0 s) := by
  unfold execCkpSeal
  refine keepsX_next ?_
  extract_lets -merge -underBinder +onlyGivenNames x20
  clear_value x20
  refine keeps_ite ?_ ?_
  · exact h
  · extract_lets -merge -underBinder +onlyGivenNames x21 x22 x23
    have h21 : Keeps r x21 := (keeps_putF h)
    clear_value x21 x22 x23
    split
    · rename_i _ s24_1 e24
      have h24_1 : Keeps r s24_1 := keeps_of_eq2 e24 (keeps_signBlock h21)
      split
      · rename_i s25_0 _ e25
        have h25_0 : Keeps r s25_0 := keeps_of_eq1 e25 (keeps_writeFab h24_1)
        refine keeps_ite ?_ ?_
        · exact (keeps_ckpEnd h25_0)
        · extract_lets -merge -underBinder +onlyGivenNames x26 x27 x28
          have h26 : Keeps r x26 := (keeps_disarm (keeps_markEngines (keeps_sealCuts h25_0)))
          have h27 : Keeps r x27 := (keeps_updCkp h26)
          have h28 : Keeps r x28 := (keeps_putF (keeps_putF h27))
          clear_value x26 x27 x28
          exact (keeps_ckpEvent h28)

theorem keeps_setRestore {s1} {a1} {a2} {a3} {a4} (h1 : Keeps r s1) :
    Keeps r (setRestore s1 a1 a2 a3 a4) := by
  unfold setRestore
  exact (keeps_putF (keeps_putF (keeps_putF h1)))

theorem keeps_restoreReport {s1} {a1} {a2} (h1 : Keeps r s1) :
    Keeps r (restoreReport s1 a1 a2) := by
  unfold restoreReport
  extract_lets -merge -underBinder +onlyGivenNames x20
  clear_value x20
  exact (keeps_writeRegion h1)

theorem keeps_execRestoreVerifyDone {a0} {a1} {a2} {a3} {s} (h : Keeps r s) :
    KeepsX r (execRestoreVerifyDone a0 a1 a2 a3 s) := by
  unfold execRestoreVerifyDone
  refine keepsX_next ?_
  extract_lets -merge -underBinder +onlyGivenNames x20
  clear_value x20
  refine keeps_ite ?_ ?_
  · exact h
  · refine keeps_ite ?_ ?_
    · exact (keeps_setRestore h)
    · extract_lets -merge -underBinder +onlyGivenNames x21 x22 x23 x24 x25 x26 x27
      have h24 : Keeps r x24 := (keeps_restoreReport h)
      have h27 : Keeps r x27 := (keeps_updCkp h24)
      clear_value x21 x22 x23 x24 x25 x26 x27
      refine keeps_ite ?_ ?_
      · exact (keeps_setRestore h27)
      · extract_lets -merge -underBinder +onlyGivenNames x28
        clear_value x28
        exact (keeps_setRestore h27)

theorem keeps_ckpRctlWrite {s1} {a1} {a2} {a3} (h1 : Keeps r s1) :
    Keeps r (ckpRctlWrite s1 a1 a2 a3) := by
  unfold ckpRctlWrite
  refine keeps_guarded h1 ?_
  · intro y22 h22
    extract_lets -merge -underBinder +onlyGivenNames x23 x24 x25
    clear_value x23
    have h25 : ∀ y26, Keeps r (x25 y26) := fun y26  => (keeps_ite (keeps_putF h22) (keeps_setRestore h22))
    clear_value x25
    split
    · exact (keeps_ite (keeps_denied h22) (keeps_done (keeps_updCkp (keeps_setRestore h22))))
    · exact (keeps_done (keeps_ite (h25 _) (keeps_ite (h25 _) (keeps_ite (h25 _) (keeps_ite (h25 _) (keeps_setRestore h22))))))
    · exact (keeps_done (keeps_updCkp (keeps_setRestore h22)))
    · exact (keeps_denied h22)

theorem keeps_execRestoreVerify {a0} {a1} {s} (h : Keeps r s) :
    KeepsX r (execRestoreVerify a0 a1 s) := by
  unfold execRestoreVerify
  exact (keepsX_next (keeps_ckpRctlWrite h))

theorem keeps_execRestoreCommit {a0} {a1} {s} (h : Keeps r s) :
    KeepsX r (execRestoreCommit a0 a1 s) := by
  unfold execRestoreCommit
  exact (keepsX_next (keeps_ckpRctlWrite h))

theorem keeps_execRestoreCancel {a0} {a1} {s} (h : Keeps r s) :
    KeepsX r (execRestoreCancel a0 a1 s) := by
  unfold execRestoreCancel
  exact (keepsX_next (keeps_ckpRctlWrite h))

theorem keeps_loadArea {s1} {a1} {a2} (h1 : Keeps r s1) :
    Keeps r (loadArea s1 a1 a2) := by
  unfold loadArea
  extract_lets -merge -underBinder +onlyGivenNames x20 x21 x22 x23 x24 x25 x26 x27
  have h24 : Keeps r x24 := (keeps_ite h1 (keeps_saveAs h1))
  have h25 : Keeps r x25 := (keeps_loadSaved h24)
  have h26 : Keeps r x26 := (keeps_mk h25)
  have h27 : Keeps r x27 := (keeps_putF h26)
  clear_value x20 x21 x22 x23 x24 x25 x26 x27
  exact (keeps_setGangState (keeps_updSeq h27))

theorem keeps_execRestoreCommitDone {a0} {a1} {s} (h : Keeps r s) :
    KeepsX r (execRestoreCommitDone a0 a1 s) := by
  unfold execRestoreCommitDone
  refine keepsX_next ?_
  extract_lets -merge -underBinder +onlyGivenNames x20
  clear_value x20
  refine keeps_ite ?_ ?_
  · exact h
  · extract_lets -merge -underBinder +onlyGivenNames x21 x22
    clear_value x21 x22
    split
    · extract_lets -merge -underBinder +onlyGivenNames x23
      have h23 : Keeps r x23 := (keeps_foldl h (fun _ _ h24 => (keeps_smear h24)))
      clear_value x23
      exact (keeps_setRestore h23)
    · extract_lets -merge -underBinder +onlyGivenNames x25 x27
      have h25 : Keeps r x25 := (keeps_foldl h (fun _ _ h26 => (keeps_writeRegion h26)))
      have h27 : Keeps r x27 := (keeps_foldl h25 (fun _ _ h28 => (keeps_loadArea h28)))
      clear_value x25 x27
      exact (keeps_updCkp (keeps_setRestore h27))

end Sys2Proof.Machine
end

