-- ==== Sys2Proof/Laws/KeepsStop.lean ====
section
/-! SUPPORT. What each operation of Machine/Stop.lean keeps. -/

namespace Sys2Proof.Machine

variable {r : State}

theorem keeps_haltLeft {s1} {a1} (h1 : Keeps r s1) :
    Keeps r (haltLeft s1 a1) := by
  unfold haltLeft
  extract_lets -merge -underBinder +onlyGivenNames x20
  have h20 : Keeps r x20 := (keeps_setGangState (keeps_haltGang h1))
  clear_value x20
  exact (keeps_foldl h20 (fun _ _ h21 => (keeps_putF (keeps_putF h21))))

theorem keeps_haltSpanning {s} (h : Keeps r s) :
    Keeps r (haltSpanning s) := by
  unfold haltSpanning
  exact (keeps_foldl h (fun _ _ h20 => (keeps_ite (keeps_haltLeft h20) (keeps_updSeq h20))))

theorem keeps_loseMember {s1} {a1} {a2} (h1 : Keeps r s1) :
    Keeps r (loseMember s1 a1 a2) := by
  unfold loseMember
  refine keeps_foldl ?_ ?_
  · exact h1
  · intro y21 y22 h21
    split
    · exact h21
    · exact (keeps_ite h21 (keeps_raiseNotice keeps_deliver4' h21))

theorem keeps_engWrite {s1} {a1} {a2} (h1 : Keeps r s1) :
    Keeps r (engWrite s1 a1 a2) := by
  unfold engWrite
  exact (keeps_hbmStore (keeps_stashFor (keeps_stashFor h1)))

theorem keeps_endSolver {s1} {a1} {a2} (h1 : Keeps r s1) :
    Keeps r (endSolver s1 a1 a2) := by
  unfold endSolver
  split
  · refine keeps_ite ?_ ?_
    · exact h1
    · extract_lets -merge -underBinder +onlyGivenNames x20 x21
      have h20 : Keeps r x20 := (keeps_returnGangs h1)
      have h21 : Keeps r x21 := (keeps_ite h20 (keeps_engWrite h20))
      clear_value x20 x21
      exact (keeps_updHalf h21)
  · exact h1

theorem keeps_stopSolver {s1} {a1} (h1 : Keeps r s1) :
    Keeps r (stopSolver s1 a1) := by
  unfold stopSolver
  exact (keeps_endSolver h1)

theorem keeps_leaveRunning {s1} {a1} (h1 : Keeps r s1) :
    Keeps r (leaveRunning s1 a1) := by
  unfold leaveRunning
  extract_lets -merge -underBinder +onlyGivenNames x20 x21 x22 x23 x24 x25 x26 x27
  have h22 : Keeps r x22 := (keeps_haltSpanning h1)
  have h23 : Keeps r x23 := (keeps_stopSolver h22)
  have h24 : Keeps r x24 := (keeps_ite (keeps_stopSolver h23) h23)
  have h25 : Keeps r x25 := (keeps_putF h24)
  have h26 : Keeps r x26 := (keeps_ckpEnd h25)
  have h27 : Keeps r x27 := (keeps_ite (keeps_ckpEnd h26) h26)
  clear_value x20 x21 x22 x23 x24 x25 x26 x27
  exact (keeps_loseMember (keeps_loseMember h27))

theorem keeps_dropWaiting {s1} {a1} (h1 : Keeps r s1) :
    Keeps r (dropWaiting s1 a1) := by
  unfold dropWaiting
  extract_lets -merge -underBinder +onlyGivenNames x20
  have h20 : Keeps r x20 := (keeps_updHalf (keeps_mk h1))
  clear_value x20
  exact (keeps_updHalf h20)

theorem keeps_loseAccesses {s1} {a1} (h1 : Keeps r s1) :
    Keeps r (loseAccesses s1 a1) := by
  unfold loseAccesses
  extract_lets -merge -underBinder +onlyGivenNames x20
  clear_value x20
  exact (keeps_answerAll (keeps_dropWaiting h1))

theorem keeps_clearHalf {s1} {a1} {a2} (h1 : Keeps r s1) :
    Keeps r (clearHalf s1 a1 a2) := by
  unfold clearHalf
  exact (keeps_mkAll h1 (fun w => (mwf_mdrop w)) (fun w => (rising_mdrop w)) (fun w => (mwf_mdrop w)) (fun w => (mwf_mdrop w)) (fun w => (mwf_mdrop w)))

theorem keeps_eraseHalf {s1} {a1} (h1 : Keeps r s1) :
    Keeps r (eraseHalf s1 a1) := by
  unfold eraseHalf
  extract_lets -merge -underBinder +onlyGivenNames x20 x21 x22 x23
  have h21 : Keeps r x21 := (keeps_clearHalf h1)
  have h23 : Keeps r x23 := (keeps_mkAll h21 (fun w => (mwf_mdrop w)) id id id id)
  clear_value x20 x21 x22 x23
  exact (keeps_setHalf h23)

theorem keeps_domainsOff {s1} {a1} (h1 : Keeps r s1) :
    Keeps r (domainsOff s1 a1) := by
  unfold domainsOff
  exact (keeps_foldl h1 (fun _ _ h20 => (keeps_setDomain h20)))

theorem keeps_domainsOn {s1} {a1} (h1 : Keeps r s1) :
    Keeps r (domainsOn s1 a1) := by
  unfold domainsOn
  exact (keeps_foldl h1 (fun _ _ h20 => (keeps_setDomain h20)))

theorem keeps_clearBridge {s1} {a1} (h1 : Keeps r s1) :
    Keeps r (clearBridge s1 a1) := by
  unfold clearBridge
  extract_lets -merge -underBinder +onlyGivenNames x20 x21
  have h21 : Keeps r x21 := (keeps_mkAll h1 (fun w => (mwf_mdrop w)) id id id (fun w => (mwf_mdrop w)))
  clear_value x20 x21
  exact (keeps_setUnit h21)

theorem keeps_feedBridges {s} (h : Keeps r s) :
    Keeps r (feedBridges s) := by
  unfold feedBridges
  refine keeps_ite ?_ ?_
  · exact h
  · extract_lets -merge -underBinder +onlyGivenNames x20
    have h20 : Keeps r x20 := (keeps_clearBridge (keeps_clearBridge (keeps_domainsOff h)))
    clear_value x20
    exact (keeps_mk h20)

theorem keeps_bootSetOn {s1} {a1} (h1 : Keeps r s1) :
    Keeps r (bootSetOn s1 a1) := by
  unfold bootSetOn
  exact (keeps_domainsOn h1)

theorem keeps_dropBlock {s1} {a1} {a2} {a3} (h1 : Keeps r s1) :
    Keeps r (dropBlock s1 a1 a2 a3) := by
  unfold dropBlock
  exact (keeps_mkAll h1 (fun w => (mwf_mdrop w)) id id id id)

theorem keeps_clearRow {s1} {a1} (h1 : Keeps r s1) :
    Keeps r (clearRow s1 a1) := by
  unfold clearRow
  extract_lets -merge -underBinder +onlyGivenNames x20 x21 x22 x23 x24
  have h21 : Keeps r x21 := keeps_foldl h1 fun _ _ h =>
    keeps_mkAll (keeps_dropBlock h) id id (fun w => mwf_mdrop w) id id
  have h23 : Keeps r x23 := keeps_dropBlock h21
  have h24 : Keeps r x24 := keeps_setReg h23
  exact keeps_mkAll h24 id id id (fun w => mwf_mdrop w) id

theorem keeps_domainLose {s1} {a1} (h1 : Keeps r s1) :
    Keeps r (domainLose s1 a1) := by
  unfold domainLose
  refine keeps_ite ?_ ?_
  · exact (keeps_ite (keeps_clearRow h1) (keeps_ite (keeps_dropBlock h1) h1))
  · refine keeps_ite ?_ ?_
    · extract_lets -merge -underBinder +onlyGivenNames x20
      clear_value x20
      exact (keeps_mkAll h1 id id (fun w => (mwf_mdrop w)) id id)
    · refine keeps_ite ?_ ?_
      · extract_lets -merge -underBinder +onlyGivenNames x21 x22 x23 x24
        have h23 : Keeps r x23 := (keeps_mkAll h1 id (fun w => (rising_mdrop w)) id id id)
        have h24 : Keeps r x24 := (keeps_updHalf h23)
        clear_value x21 x22 x23 x24
        exact (keeps_foldl h24 (fun _ _ h25 => (keeps_putF (keeps_dropBlock h25))))
      · refine keeps_ite ?_ ?_
        · extract_lets -merge -underBinder +onlyGivenNames x26
          clear_value x26
          exact (keeps_foldl h1 (fun _ _ h27 => (keeps_setReg h27)))
        · refine keeps_ite ?_ ?_
          · extract_lets -merge -underBinder +onlyGivenNames x28 x29
            clear_value x28 x29
            refine keeps_ite ?_ ?_
            · extract_lets -merge -underBinder +onlyGivenNames x30
              clear_value x30
              exact (keeps_mkAll h1 id id id (fun w => (mwf_mdrop w)) id)
            · refine keeps_ite ?_ ?_
              · extract_lets -merge -underBinder +onlyGivenNames x31
                have h31 : Keeps r x31 := (keeps_dropBlock h1)
                clear_value x31
                exact (keeps_updHalf h31)
              · exact h1
          · refine keeps_ite ?_ ?_
            · extract_lets -merge -underBinder +onlyGivenNames x32
              clear_value x32
              refine keeps_ite ?_ ?_
              · extract_lets -merge -underBinder +onlyGivenNames x33
                have h33 : Keeps r x33 := (keeps_dropBlock h1)
                clear_value x33
                exact (keeps_updHalf h33)
              · exact h1
            · exact (keeps_ite (keeps_clearBridge h1) h1)

theorem keeps_switchOff {s1} {a1} (h1 : Keeps r s1) :
    Keeps r (switchOff s1 a1) := by
  unfold switchOff
  exact (keeps_ite (keeps_setDomain (keeps_domainLose h1)) (keeps_mk h1))

theorem keeps_placeRow {s1} {a1} (h1 : Keeps r s1) :
    Keeps r (placeRow s1 a1) := by
  unfold placeRow
  exact (keeps_ite (keeps_placePaced h1) (keeps_putF h1))

theorem keeps_execDomainRampDone {a0} {s} (h : Keeps r s) :
    KeepsX r (execDomainRampDone a0 s) := by
  unfold execDomainRampDone
  refine keepsX_next ?_
  extract_lets -merge -underBinder +onlyGivenNames x20 x21
  clear_value x20 x21
  refine keeps_ite ?_ ?_
  · exact h
  · extract_lets -merge -underBinder +onlyGivenNames x22
    have h22 : Keeps r x22 := (keeps_setDomain (keeps_mk h))
    clear_value x22
    exact (keeps_ite (keeps_foldl h22 (fun _ _ h23 => (keeps_putF h23))) (keeps_ite (keeps_placeRow h22) h22))

theorem keeps_startBoot {s1} {a1} (h1 : Keeps r s1) :
    Keeps r (startBoot s1 a1) := by
  unfold startBoot
  extract_lets -merge -underBinder +onlyGivenNames x20
  have h20 : Keeps r x20 := (keeps_putF h1)
  clear_value x20
  exact (keeps_putF (keeps_putF h20))

theorem keeps_stopHalf {s1} {a1} (h1 : Keeps r s1) :
    Keeps r (stopHalf s1 a1) := by
  unfold stopHalf
  extract_lets -merge -underBinder +onlyGivenNames x20 x21
  have h20 : Keeps r x20 := (keeps_leaveRunning (keeps_loseAccesses h1))
  have h21 : Keeps r x21 := (keeps_eraseHalf h20)
  clear_value x20 x21
  exact (keeps_putF (keeps_putF h21))

theorem keeps_holdReset {s1} {a1} (h1 : Keeps r s1) :
    Keeps r (holdReset s1 a1) := by
  unfold holdReset
  extract_lets -merge -underBinder +onlyGivenNames x20
  have h20 : Keeps r x20 := (keeps_stopHalf h1)
  clear_value x20
  exact (keeps_domainsOff h20)

theorem keeps_leaveReset {s1} {a1} (h1 : Keeps r s1) :
    Keeps r (leaveReset s1 a1) := by
  unfold leaveReset
  exact (keeps_ite (keeps_startBoot (keeps_bootSetOn h1)) h1)

theorem keeps_execPowerUp {s} (h : Keeps r s) :
    KeepsX r (execPowerUp s) := by
  unfold execPowerUp
  refine keepsX_next ?_
  refine keeps_ite ?_ ?_
  · exact h
  · extract_lets -merge -underBinder +onlyGivenNames x20 x21 x22
    have h21 : Keeps r x21 := (keeps_mk h)
    have h22 : Keeps r x22 := (keeps_bootSetOn (keeps_bootSetOn h21))
    clear_value x20 x21 x22
    exact (keeps_leaveReset (keeps_leaveReset h22))

theorem keeps_execInputRemoval {s} (h : Keeps r s) :
    KeepsX r (execInputRemoval s) := by
  unfold execInputRemoval
  exact keepsX_next (keeps_ite h (keeps_mkAll h (fun _ => mwf_nil) (fun _ => rising_nil) (fun _ => mwf_nil)
    (fun _ => mwf_nil) (fun _ => mwf_nil)))

theorem keeps_execRstNAssert {s} (h : Keeps r s) :
    KeepsX r (execRstNAssert s) := by
  unfold execRstNAssert
  refine keepsX_next ?_
  extract_lets -merge -underBinder +onlyGivenNames x20 x21
  have h21 : Keeps r x21 := (keeps_mk h)
  clear_value x20 x21
  refine keeps_ite ?_ ?_
  · exact h21
  · extract_lets -merge -underBinder +onlyGivenNames x22 x23
    have h22 : Keeps r x22 := (keeps_holdReset (keeps_holdReset h21))
    have h23 : Keeps r x23 := (keeps_clearBridge (keeps_clearBridge h22))
    clear_value x22 x23
    exact (keeps_mk h23)

theorem keeps_execRstNRelease {s} (h : Keeps r s) :
    KeepsX r (execRstNRelease s) := by
  unfold execRstNRelease
  exact (keepsX_next (keeps_ite h (keeps_leaveReset (keeps_leaveReset (keeps_mk h)))))

theorem keeps_execHalfResetAssert {a0} {s} (h : Keeps r s) :
    KeepsX r (execHalfResetAssert a0 s) := by
  unfold execHalfResetAssert
  refine keepsX_next ?_
  extract_lets -merge -underBinder +onlyGivenNames x20 x21
  have h21 : Keeps r x21 := (keeps_updHalf h)
  clear_value x20 x21
  exact (keeps_ite (keeps_holdReset h21) h21)

theorem keeps_execHalfResetRelease {a0} {s} (h : Keeps r s) :
    KeepsX r (execHalfResetRelease a0 s) := by
  unfold execHalfResetRelease
  refine keepsX_next ?_
  extract_lets -merge -underBinder +onlyGivenNames x20
  clear_value x20
  exact (keeps_ite h (keeps_leaveReset (keeps_updHalf h)))

theorem keeps_halfCommand {s1} {a1} {a2} {a3} {a4 : State → State} (h1 : Keeps r s1) (g5 : ∀ y0, Keeps r y0 → Keeps r (a4 y0)) :
    Keeps r (halfCommand s1 a1 a2 a3 a4) := by
  unfold halfCommand
  exact (keeps_guarded h1 (fun _ h20 => (keeps_ite (keeps_done (g5 _ h20)) (keeps_denied h20))))

theorem keeps_halfDrainCmd {s1} {a1} {a2} (h1 : Keeps r s1) :
    Keeps r (halfDrainCmd s1 a1 a2) := by
  unfold halfDrainCmd
  exact (keeps_halfCommand h1 (fun _ h20 => (keeps_leaveRunning (keeps_setHalfState h20))))

theorem keeps_halfResetCmd {s1} {a1} {a2} (h1 : Keeps r s1) :
    Keeps r (halfResetCmd s1 a1 a2) := by
  unfold halfResetCmd
  exact (keeps_halfCommand h1 (fun _ h20 => (keeps_feedBridges (keeps_leaveReset (keeps_holdReset h20)))))

theorem keeps_halfPowerOffCmd {s1} {a1} {a2} (h1 : Keeps r s1) :
    Keeps r (halfPowerOffCmd s1 a1 a2) := by
  unfold halfPowerOffCmd
  exact (keeps_halfCommand h1 (fun _ h20 => (keeps_feedBridges (keeps_domainsOff (keeps_stopHalf h20)))))

theorem keeps_execHalfDrain {a0} {a1} {s} (h : Keeps r s) :
    KeepsX r (execHalfDrain a0 a1 s) := by
  unfold execHalfDrain
  exact (keepsX_next (keeps_halfDrainCmd h))

theorem keeps_execHalfReset {a0} {a1} {s} (h : Keeps r s) :
    KeepsX r (execHalfReset a0 a1 s) := by
  unfold execHalfReset
  exact (keepsX_next (keeps_halfResetCmd h))

theorem keeps_execHalfPowerOff {a0} {a1} {s} (h : Keeps r s) :
    KeepsX r (execHalfPowerOff a0 a1 s) := by
  unfold execHalfPowerOff
  exact (keepsX_next (keeps_halfPowerOffCmd h))

theorem keeps_devHalfWrite {s1} {a1} {a2} {a3} (h1 : Keeps r s1) :
    Keeps r (devHalfWrite s1 a1 a2 a3) := by
  unfold devHalfWrite
  split
  · exact (keeps_halfDrainCmd h1)
  · exact (keeps_halfResetCmd h1)
  · exact (keeps_halfPowerOffCmd h1)
  · exact (keeps_guarded h1 (fun _ h20 => (keeps_denied h20)))

theorem keeps_execHalfDrainComplete {a0} {s} (h : Keeps r s) :
    KeepsX r (execHalfDrainComplete a0 s) := by
  unfold execHalfDrainComplete
  refine keepsX_next ?_
  extract_lets -merge -underBinder +onlyGivenNames x20
  clear_value x20
  exact (keeps_ite h (keeps_setHalfState h))

theorem keeps_fatalStop {s1} {a1} {a2} (h1 : Keeps r s1) :
    Keeps r (fatalStop s1 a1 a2) := by
  unfold fatalStop
  have h20 := keeps_leaveRunning (a1 := a1) (keeps_loseAccesses (a1 := a1) h1)
  generalize leaveRunning (loseAccesses s1 a1) a1 = t at h20
  have h21 := keeps_clearHalf (a1 := a1) (a2 := keptByFatal a1) h20
  refine keeps_ite h1 (keeps_plainRecord (keeps_setHalfState (keeps_putF (keeps_mk (keeps_setHalf ?_)))))
  generalize clearHalf t a1 (keptByFatal a1) = u at h21
  dsimp only
  refine ⟨h21.1, fun w => ⟨(h21.2 w).mg, (h21.2 w).hbm, (h21.2 w).cores, (h21.2 w).ctl, ?_⟩⟩
  have l := mwf_mdrop (p := fun k => linkHalf k == a1 && k != lomKey a1) (h20.2 w).links
  exact l

theorem keeps_fatalRecord {s1} {a1} {a2} {a3} {a4} {a5} (h1 : Keeps r s1) :
    Keeps r (fatalRecord s1 a1 a2 a3 a4 a5) := by
  unfold fatalRecord
  extract_lets -merge -underBinder +onlyGivenNames x20
  clear_value x20
  exact (keeps_fatalStop (keeps_plainRecord h1))

theorem keeps_execThermalTrip {a0} {a1} {a2} {s} (h : Keeps r s) :
    KeepsX r (execThermalTrip a0 a1 a2 s) := by
  unfold execThermalTrip
  refine keepsX_next ?_
  extract_lets -merge -underBinder +onlyGivenNames x20
  clear_value x20
  refine keeps_ite ?_ ?_
  · exact h
  · extract_lets -merge -underBinder +onlyGivenNames x21 x22 x23
    have h21 : Keeps r x21 := (keeps_fatalStop (keeps_plainRecord h))
    clear_value x21 x22 x23
    exact (keeps_feedBridges (keeps_domainsOff (keeps_mk h21)))

theorem keeps_execRegulatorFault {a0} {s} (h : Keeps r s) :
    KeepsX r (execRegulatorFault a0 s) := by
  unfold execRegulatorFault
  refine keepsX_next ?_
  extract_lets -merge -underBinder +onlyGivenNames x20
  clear_value x20
  refine keeps_ite ?_ ?_
  · exact h
  · extract_lets -merge -underBinder +onlyGivenNames x21 x22
    have h21 : Keeps r x21 := (keeps_fatalRecord h)
    have h22 : Keeps r x22 := (keeps_domainsOff (keeps_mk h21))
    clear_value x21 x22
    exact (keeps_ite (keeps_feedBridges h22) h22)

theorem keeps_execCalibrationStart {a0} {s} (h : Keeps r s) :
    KeepsX r (execCalibrationStart a0 s) := by
  unfold execCalibrationStart
  refine keepsX_next ?_
  extract_lets -merge -underBinder +onlyGivenNames x20
  clear_value x20
  refine keeps_ite ?_ ?_
  · exact h
  · extract_lets -merge -underBinder +onlyGivenNames x21
    have h21 : Keeps r x21 := (keeps_putF h)
    clear_value x21
    exact (keeps_foldl h21 (fun _ _ h22 => (keeps_putF h22)))

theorem keeps_calFail {s1} {a1} {a2} {a3} {a4} (h1 : Keeps r s1) :
    Keeps r (calFail s1 a1 a2 a3 a4) := by
  unfold calFail
  extract_lets -merge -underBinder +onlyGivenNames x20
  have h20 : Keeps r x20 := (keeps_plainRecord h1)
  clear_value x20
  exact (keeps_updUnit h20)

theorem keeps_zeroTiles {s1} {a1} (h1 : Keeps r s1) :
    Keeps r (zeroTiles s1 a1) := by
  unfold zeroTiles
  exact (keeps_foldl h1 (fun _ _ h20 => (keeps_setCore h20)))

theorem keeps_execCalibrationDone {a0} {a1} {s} (h : Keeps r s) :
    KeepsX r (execCalibrationDone a0 a1 s) := by
  unfold execCalibrationDone
  refine keepsX_next ?_
  extract_lets -merge -underBinder +onlyGivenNames x20
  clear_value x20
  refine keeps_ite ?_ ?_
  · exact h
  · extract_lets -merge -underBinder +onlyGivenNames x21 x22 x23 x24 x25 x26 x27 x28 x29 x31 x33 x35 x37 x39 x41 x43 x45 x47 x48 x49 x50
    have h29 : Keeps r x29 := (keeps_foldl h (fun _ _ h30 => (keeps_putF h30)))
    have h31 : Keeps r x31 := (keeps_foldl h29 (fun _ _ h32 => (keeps_ite (keeps_putF h32) h32)))
    have h33 : Keeps r x33 := (keeps_zeroTiles (keeps_foldl h31 (fun _ _ h34 => (keeps_loadKey h34))))
    have h35 : Keeps r x35 := (keeps_foldl h33 (fun _ _ h36 => (keeps_calFail h36)))
    have h37 : Keeps r x37 := (keeps_foldl h35 (fun _ _ h38 => (keeps_calFail h38)))
    have h39 : Keeps r x39 := (keeps_foldl h37 (fun _ _ h40 => (keeps_calFail h40)))
    have h41 : Keeps r x41 := (keeps_foldl h39 (fun _ _ h42 => (keeps_calFail h42)))
    have h43 : Keeps r x43 := (keeps_foldl h41 (fun _ _ h44 => (keeps_calFail h44)))
    have h45 : Keeps r x45 := (keeps_foldl h43 (fun _ _ h46 => (keeps_calFail h46)))
    have h47 : Keeps r x47 := (keeps_measureRates h45)
    have h48 : Keeps r x48 := (keeps_putF (keeps_putF h47))
    have h49 : Keeps r x49 := (keeps_putF h48)
    have h50 : Keeps r x50 := (keeps_putF (keeps_putF h49))
    clear_value x21 x22 x23 x24 x25 x26 x27 x28 x29 x31 x33 x35 x37 x39 x41 x43 x45 x47 x48 x49 x50
    exact (keeps_putF (keeps_putF h50))

end Sys2Proof.Machine
end

