-- ==== Sys2Proof/Laws/KeepsLom.lean ====
section
/-! SUPPORT. What each operation of Machine/Lom.lean keeps. -/

namespace Sys2Proof.Machine

variable {r : State}

theorem keeps_updLom {s1} {a1} {a2} (h1 : Keeps r s1) :
    Keeps r (updLom s1 a1 a2) := by
  unfold updLom
  exact (keeps_updHalf h1)

theorem keeps_forwardCheck {s1} {a1} (h1 : Keeps r s1) :
    Keeps r (forwardCheck s1 a1) := by
  unfold forwardCheck
  extract_lets -merge -underBinder +onlyGivenNames x20 x21
  have h20 : ∀ y22 y23, Keeps r y22 → Keeps r (x20 y22 y23) := fun y22 y23 h22 => (keeps_updLom h22)
  clear_value x20 x21
  exact (keeps_ite (keeps_ite (h20 _ _ (keeps_raiseEvent h1)) (keeps_ite (h20 _ _ h1) h1)) (keeps_ite (keeps_raiseEvent (h20 _ _ h1)) h1))

theorem keeps_forwardBoth {s} (h : Keeps r s) :
    Keeps r (forwardBoth s) := by
  unfold forwardBoth
  exact (keeps_forwardCheck (keeps_forwardCheck h))

theorem keeps_queueState {s1} {a1} {a2} (h1 : Keeps r s1) :
    Keeps r (queueState s1 a1 a2) := by
  unfold queueState
  extract_lets -merge -underBinder +onlyGivenNames x20
  clear_value x20
  exact (keeps_putF h1)

theorem keeps_dcpl {s1} {a1} {a2} {a3} {a4} {a5} (h1 : Keeps r s1) :
    Keeps r (dcpl s1 a1 a2 a3 a4 a5) := by
  unfold dcpl
  exact (keeps_lomSend h1)

theorem keeps_dmaLeave {s1} {a1} {a2} {a3} (h1 : Keeps r s1) :
    Keeps r (dmaLeave s1 a1 a2 a3) := by
  unfold dmaLeave
  extract_lets -merge -underBinder +onlyGivenNames x20 x21 x22
  have h20 : Keeps r x20 := (keeps_updLom h1)
  have h21 : Keeps r x21 := (keeps_bumpF h20)
  have h22 : Keeps r x22 := (keeps_ite h21 (keeps_putF h21))
  clear_value x20 x21 x22
  exact (keeps_queueState (keeps_dcpl h22))

theorem keeps_queueOff {s1} {a1} {a2} (h1 : Keeps r s1) :
    Keeps r (queueOff s1 a1 a2) := by
  unfold queueOff
  extract_lets -merge -underBinder +onlyGivenNames x20
  clear_value x20
  refine keeps_ite ?_ ?_
  · exact h1
  · extract_lets -merge -underBinder +onlyGivenNames x21 x23
    have h21 : Keeps r x21 := (keeps_foldl h1 (fun _ _ h22 => (keeps_dmaLeave h22)))
    have h23 : Keeps r x23 := (keeps_updLom h21)
    clear_value x21 x23
    exact (keeps_queueState (keeps_putF h23))

theorem keeps_loseStarted {s1} {a1} (h1 : Keeps r s1) :
    Keeps r (loseStarted s1 a1) := by
  unfold loseStarted
  extract_lets -merge -underBinder +onlyGivenNames x20
  have h20 : Keeps r x20 := (keeps_foldl h1 (fun _ _ h21 => (keeps_dmaLeave h21)))
  clear_value x20
  exact (keeps_foldl h20 (fun _ _ h22 => (keeps_queueOff h22)))

theorem keeps_dropHostReqs {s1} {a1} (h1 : Keeps r s1) :
    Keeps r (dropHostReqs s1 a1) := by
  unfold dropHostReqs
  exact (keeps_updLink h1)

theorem keeps_resendEvents {s1} {a1} (h1 : Keeps r s1) :
    Keeps r (resendEvents s1 a1) := by
  unfold resendEvents
  exact (keeps_updLom h1)

theorem keeps_endSession {s1} {a1} (h1 : Keeps r s1) :
    Keeps r (endSession s1 a1) := by
  unfold endSession
  extract_lets -merge -underBinder +onlyGivenNames x20 x21 x22 x23 x24 x25
  have h23 : Keeps r x23 := (keeps_setLink h1)
  have h24 : Keeps r x24 := (keeps_updLom h23)
  have h25 : Keeps r x25 := (keeps_putF (keeps_putF (keeps_putF h24)))
  clear_value x20 x21 x22 x23 x24 x25
  exact (keeps_resendEvents h25)

theorem keeps_loseTraffic {s1} {a1} (h1 : Keeps r s1) :
    Keeps r (loseTraffic s1 a1) := by
  unfold loseTraffic
  exact (keeps_dropHostReqs (keeps_loseStarted h1))

theorem keeps_activeDown {s1} {a1} (h1 : Keeps r s1) :
    Keeps r (activeDown s1 a1) := by
  unfold activeDown
  extract_lets -merge -underBinder +onlyGivenNames x20 x21
  have h21 : Keeps r x21 := (keeps_putF h1)
  clear_value x20 x21
  refine keeps_ite ?_ ?_
  · extract_lets -merge -underBinder +onlyGivenNames x22 x23 x24
    have h22 : Keeps r x22 := (keeps_putF h21)
    have h23 : Keeps r x23 := (keeps_putF h22)
    have h24 : Keeps r x24 := (keeps_resendEvents (keeps_loseTraffic (keeps_bumpF h23)))
    clear_value x22 x23 x24
    exact (keeps_raiseEvent h24)
  · exact (keeps_forwardBoth (keeps_endSession (keeps_loseTraffic h21)))

theorem keeps_portGone {s1} {a1} {a2} (h1 : Keeps r s1) :
    Keeps r (portGone s1 a1 a2) := by
  unfold portGone
  exact (keeps_ite h1 (keeps_ite (keeps_activeDown h1) (keeps_putF h1)))

theorem keeps_portLost {s1} {a1} {a2} (h1 : Keeps r s1) :
    Keeps r (portLost s1 a1 a2) := by
  unfold portLost
  exact (keeps_ite h1 (keeps_detectUncorrected (keeps_portGone h1)))

theorem keeps_execLomlyPortDown {a0} {a1} {s} (h : Keeps r s) :
    KeepsX r (execLomlyPortDown a0 a1 s) := by
  unfold execLomlyPortDown
  exact (keepsX_next (keeps_portLost h))

theorem keeps_lomBadWord {s1} {a1} (h1 : Keeps r s1) :
    Keeps r (lomBadWord s1 a1) := by
  unfold lomBadWord
  extract_lets -merge -underBinder +onlyGivenNames x20 x21
  clear_value x20 x21
  exact (keeps_ite (keeps_portLost (keeps_updLom h1)) (keeps_updLom h1))

theorem keeps_execLomlyPortUp {a0} {a1} {a2} {s} (h : Keeps r s) :
    KeepsX r (execLomlyPortUp a0 a1 a2 s) := by
  unfold execLomlyPortUp
  refine keepsX_next ?_
  extract_lets -merge -underBinder +onlyGivenNames x20 x21 x22
  clear_value x20 x21 x22
  refine keeps_ite ?_ ?_
  · exact h
  · refine keeps_ite ?_ ?_
    · extract_lets -merge -underBinder +onlyGivenNames x23
      have h23 : Keeps r x23 := (keeps_putF h)
      clear_value x23
      exact (keeps_ite (keeps_plainRecord h23) h23)
    · extract_lets -merge -underBinder +onlyGivenNames x24 x25 x26
      have h25 : Keeps r x25 := (keeps_putF h)
      have h26 : Keeps r x26 := (keeps_updLom h25)
      clear_value x24 x25 x26
      exact (keeps_ite (keeps_forwardBoth (keeps_putF (keeps_putF h26))) h26)

theorem keeps_execEventSend {a0} {s} (h : Keeps r s) :
    KeepsX r (execEventSend a0 s) := by
  unfold execEventSend
  refine keepsX_next ?_
  extract_lets -merge -underBinder +onlyGivenNames x20 x21
  clear_value x20 x21
  refine keeps_ite ?_ ?_
  · exact h
  · split
    · exact h
    · extract_lets -merge -underBinder +onlyGivenNames x22
      have h22 : Keeps r x22 := (keeps_updLom h)
      clear_value x22
      exact (keeps_lomSend h22)

theorem keeps_evackApply {s1} {a1} {a2} (h1 : Keeps r s1) :
    Keeps r (evackApply s1 a1 a2) := by
  unfold evackApply
  extract_lets -merge -underBinder +onlyGivenNames x20 x21
  have h20 : Keeps r x20 := (keeps_updLom h1)
  clear_value x20 x21
  refine keeps_ite ?_ ?_
  · exact h20
  · extract_lets -merge -underBinder +onlyGivenNames x22
    clear_value x22
    exact (keeps_updLom h20)

theorem keeps_execEvack {a0} {a1} {s} (h : Keeps r s) :
    KeepsX r (execEvack a0 a1 s) := by
  unfold execEvack
  exact (keepsX_next (keeps_ite (keeps_evackApply h) h))

theorem keeps_hdbWrite {s1} {a1} {a2} {a3} {a4} (h1 : Keeps r s1) :
    Keeps r (hdbWrite s1 a1 a2 a3 a4) := by
  unfold hdbWrite
  refine keeps_guarded h1 ?_
  · intro y22 h22
    split
    · exact (keeps_done (keeps_tellNode (keeps_setReg h22)))
    · exact (keeps_done h22)

theorem keeps_execHostDoorbellWrite {a0} {a1} {a2} {s} (h : Keeps r s) :
    KeepsX r (execHostDoorbellWrite a0 a1 a2 s) := by
  unfold execHostDoorbellWrite
  exact (keepsX_next (keeps_hdbWrite h))

theorem keeps_evpostWrite {s1} {a1} {a2} {a3} (h1 : Keeps r s1) :
    Keeps r (evpostWrite s1 a1 a2 a3) := by
  unfold evpostWrite
  exact (keeps_guarded h1 (fun _ h20 => (keeps_done (keeps_raiseEvent h20))))

theorem keeps_execNodePostEvent {a0} {a1} {s} (h : Keeps r s) :
    KeepsX r (execNodePostEvent a0 a1 s) := by
  unfold execNodePostEvent
  exact (keepsX_next (keeps_evpostWrite h))

theorem keeps_hostReq {s1} {a1} {a2} {a3} {a4} {a5} {a6} {a7} (h1 : Keeps r s1) :
    Keeps r (hostReq s1 a1 a2 a3 a4 a5 a6 a7) := by
  unfold hostReq
  extract_lets -merge -underBinder +onlyGivenNames x20 x21 x22
  have h21 : Keeps r x21 := (keeps_updLom h1)
  clear_value x20 x21 x22
  exact (keeps_lomSend h21)

theorem keeps_sendLines {s1} {a1} {a2} {a3} {a4} {a5} (h1 : Keeps r s1) :
    Keeps r (sendLines s1 a1 a2 a3 a4 a5) := by
  unfold sendLines
  extract_lets -merge -underBinder +onlyGivenNames x20
  clear_value x20
  exact (keeps_ite (keeps_hostReq h1) (keeps_foldl h1 (fun _ _ h21 => (keeps_ite (keeps_hostReq h21) (keeps_dmaAnswer h21)))))

theorem keeps_issueUnit {s1} {a1} {a2} (h1 : Keeps r s1) :
    Keeps r (issueUnit s1 a1 a2) := by
  unfold issueUnit
  extract_lets -merge -underBinder +onlyGivenNames x20 x21 x22 x23
  have h23 : Keeps r x23 := (keeps_updLom h1)
  clear_value x20 x21 x22 x23
  exact (keeps_ite (keeps_foldl h23 (fun _ _ h24 => (keeps_sendLines h24))) (keeps_hostReq h23))

theorem keeps_refill {a0} {s2} {a2} (h2 : Keeps r s2) :
    Keeps r (refill a0 s2 a2) := by
  induction a0 generalizing s2 with
  | zero => exact h2
  | succ n ih =>
    unfold refill
    refine keeps_ite h2 ?_
    split
    · exact h2
    · split
      · exact h2
      · exact keeps_ite h2 (ih (keeps_issueUnit (keeps_updLom h2)))

theorem keeps_refillAll {s1} {a1} (h1 : Keeps r s1) :
    Keeps r (refillAll s1 a1) := by
  unfold refillAll
  exact (keeps_ite (keeps_refill h1) h1)

theorem keeps_descApply {s1} {a1} {a2} {a3} (h1 : Keeps r s1) :
    Keeps r (descApply s1 a1 a2 a3) := by
  unfold descApply
  extract_lets -merge -underBinder +onlyGivenNames x20
  clear_value x20
  exact (keeps_ite (keeps_dcpl h1) (keeps_ite (keeps_dcpl h1) (keeps_ite h1 (keeps_queueState (keeps_updLom h1)))))

theorem keeps_execDesc {a0} {a1} {a2} {s} (h : Keeps r s) :
    KeepsX r (execDesc a0 a1 a2 s) := by
  unfold execDesc
  exact (keepsX_next (keeps_ite (keeps_descApply h) h))

theorem keeps_execDmaDescriptorStart {a0} {a1} {s} (h : Keeps r s) :
    KeepsX r (execDmaDescriptorStart a0 a1 s) := by
  unfold execDmaDescriptorStart
  refine keepsX_next ?_
  extract_lets -merge -underBinder +onlyGivenNames x20 x21 x22
  clear_value x20 x21 x22
  split
  · exact (keeps_refillAll h)
  · extract_lets -merge -underBinder +onlyGivenNames x23
    clear_value x23
    exact (keeps_ite (keeps_refillAll h) (keeps_ite (keeps_dmaLeave h) (keeps_ite (keeps_dmaLeave h) (keeps_ite (keeps_dmaLeave h) (keeps_refillAll (keeps_updLom h))))))

theorem keeps_hrspApply {s1} {a1} {a2} {a3} (h1 : Keeps r s1) :
    Keeps r (hrspApply s1 a1 a2 a3) := by
  unfold hrspApply
  split
  · exact h1
  · extract_lets -merge -underBinder +onlyGivenNames x20 x21 x22 x23
    have h22 : Keeps r x22 := (keeps_updLom h1)
    have h23 : Keeps r x23 := (keeps_foldl h22 (fun _ _ h24 => (keeps_finishW (keeps_memWrite h24))))
    clear_value x20 x21 x22 x23
    exact (keeps_refillAll h23)

theorem keeps_execHrsp {a0} {a1} {a2} {s} (h : Keeps r s) :
    KeepsX r (execHrsp a0 a1 a2 s) := by
  unfold execHrsp
  exact (keepsX_next (keeps_ite (keeps_hrspApply h) h))

theorem keeps_hostReqEnd {s1} {a1} {a2} {a3} (h1 : Keeps r s1) :
    Keeps r (hostReqEnd s1 a1 a2 a3) := by
  unfold hostReqEnd
  extract_lets -merge -underBinder +onlyGivenNames x20
  have h20 : Keeps r x20 := (keeps_updLom h1)
  clear_value x20
  exact (keeps_refillAll (keeps_foldl h20 (fun _ _ h21 => (keeps_dmaAnswer h21))))

theorem keeps_hwackApply {s1} {a1} {a2} (h1 : Keeps r s1) :
    Keeps r (hwackApply s1 a1 a2) := by
  unfold hwackApply
  split
  · exact h1
  · exact (keeps_hostReqEnd h1)

theorem keeps_execHwack {a0} {a1} {s} (h : Keeps r s) :
    KeepsX r (execHwack a0 a1 s) := by
  unfold execHwack
  exact (keepsX_next (keeps_ite (keeps_hwackApply h) h))

theorem keeps_execLomlyDmaTimeout {a0} {a1} {s} (h : Keeps r s) :
    KeepsX r (execLomlyDmaTimeout a0 a1 s) := by
  unfold execLomlyDmaTimeout
  refine keepsX_next ?_
  split
  · exact h
  · exact (keeps_hostReqEnd h)

theorem keeps_qctlWrite {s1} {a1} {a2} {a3} {a4} (h1 : Keeps r s1) :
    Keeps r (qctlWrite s1 a1 a2 a3 a4) := by
  unfold qctlWrite
  refine keeps_guarded h1 ?_
  · intro y22 h22
    refine keeps_ite ?_ ?_
    · exact (keeps_denied h22)
    · extract_lets -merge -underBinder +onlyGivenNames x23 x24
      have h24 : Keeps r x24 := (keeps_setReg h22)
      clear_value x23 x24
      refine keeps_ite ?_ ?_
      · exact (keeps_done (keeps_queueState (keeps_updLom h24)))
      · refine keeps_ite ?_ ?_
        · exact (keeps_done h24)
        · extract_lets -merge -underBinder +onlyGivenNames x25
          have h25 : Keeps r x25 := (keeps_putF h24)
          clear_value x25
          exact (keeps_done (keeps_queueOff (keeps_updLom h25)))

theorem keeps_execLomQueueDisable {a0} {a1} {a2} {a3} {s} (h : Keeps r s) :
    KeepsX r (execLomQueueDisable a0 a1 a2 a3 s) := by
  unfold execLomQueueDisable
  exact (keepsX_next (keeps_qctlWrite h))

theorem keeps_lomCfgWrite {s1} {a1} {a2} {a3} (h1 : Keeps r s1) :
    Keeps r (lomCfgWrite s1 a1 a2 a3) := by
  unfold lomCfgWrite
  exact (keeps_guarded h1 (fun _ h20 => (keeps_ite (keeps_done (keeps_forwardCheck (keeps_setReg h20))) (keeps_denied h20))))

end Sys2Proof.Machine
end

