-- ==== Sys2Proof/Laws/KeepsMsl.lean ====
section
/-! SUPPORT. What each operation of Machine/Msl.lean keeps. -/

namespace Sys2Proof.Machine

variable {r : State}

theorem keeps_execMsl {a0} {s} (h : Keeps r s) :
    KeepsX r (execMsl a0 s) := by
  unfold execMsl
  extract_lets -merge -underBinder +onlyGivenNames x20 x21
  clear_value x20 x21
  refine keepsX_next ?_
  refine keeps_mIssue h ?_
  · intro y25 y26 h25
    extract_lets -merge -underBinder +onlyGivenNames x27 x28 x29 x31
    clear_value x27 x28
    have h29 : Keeps r x29 := by
      unfold x29
      refine keeps_foldl ?_ ?_
      · exact h25
      · intro y33 y34 h33
        extract_lets -merge -underBinder +onlyGivenNames x35 x36
        clear_value x35 x36
        exact (keeps_addFlags (keeps_setCore h33))
    have h31 : Keeps r x31 := (keeps_setArr (keeps_addUses h29))
    clear_value x29 x31
    exact (keeps_launch h31)

end Sys2Proof.Machine
end

