-- ==== Sys2Proof/Laws/KeepsSolvMath.lean ====
section
/-! SUPPORT. What each operation of Machine/SolvMath.lean keeps. -/

namespace Sys2Proof.Machine

variable {r : State}

theorem keeps_engWord {s1} {a1} {a2} (h1 : Keeps r s1) :
    Keeps r (engWord s1 a1 a2) := by
  unfold engWord
  exact (keeps_engWrite h1)

theorem keeps_putA {s1} {a1} {a2} {a3} {a4} (h1 : Keeps r s1) :
    Keeps r (putA s1 a1 a2 a3 a4).1 := by
  unfold putA
  split
  · refine keeps_ite1 ?_ ?_
    · extract_lets -merge -underBinder +onlyGivenNames x20
      clear_value x20
      exact (keeps_engWrite h1)
    · exact (keeps_engWord h1)
  · exact h1

theorem keeps_storePanel {s1} {a1} {a2} {a3} {a4} (h1 : Keeps r s1) :
    Keeps r (storePanel s1 a1 a2 a3 a4).1 := by
  unfold storePanel
  refine keeps_foldl1 ?_ ?_
  · exact h1
  · intro y22 y23 h22
    refine keeps_foldl1 ?_ ?_
    · exact h22
    · intro y25 y26 h25
      refine keeps_ite1 ?_ ?_
      · exact h25
      · extract_lets -merge -underBinder +onlyGivenNames x27
        have h27 : Keeps r x27.1 := (keeps_putA h25)
        clear_value x27
        exact h27

theorem keeps_exchangeRows {s1} {a1} {a2} {a3} {a4} (h1 : Keeps r s1) :
    Keeps r (exchangeRows s1 a1 a2 a3 a4) := by
  unfold exchangeRows
  refine keeps_foldl ?_ ?_
  · exact h1
  · intro y21 y22 h21
    extract_lets -merge -underBinder +onlyGivenNames x23 x24 x25
    have h25 : Keeps r x25 := (keeps_engWrite h21)
    clear_value x23 x24 x25
    refine keeps_ite ?_ ?_
    · exact h25
    · refine keeps_foldl ?_ ?_
      · exact h25
      · intro y28 y29 h28
        extract_lets -merge -underBinder +onlyGivenNames x30 x31
        clear_value x30 x31
        exact (keeps_putA (keeps_putA h28))

theorem keeps_upperBlock {s1} {a1} {a2} (h1 : Keeps r s1) :
    Keeps r (upperBlock s1 a1 a2).1 := by
  unfold upperBlock
  extract_lets -merge -underBinder +onlyGivenNames x20 x21
  clear_value x20 x21
  refine keeps_foldl1 ?_ ?_
  · exact h1
  · intro y23 y24 h23
    extract_lets -merge -underBinder +onlyGivenNames x25
    clear_value x25
    refine keeps_foldl1 ?_ ?_
    · exact h23
    · intro y27 y28 h27
      extract_lets -merge -underBinder +onlyGivenNames x29
      have h29 : Keeps r x29.1 := (keeps_putA h27)
      clear_value x29
      exact h29

theorem keeps_tileSidecar {s1} {a1} {a2} {a3} (h1 : Keeps r s1) :
    Keeps r (tileSidecar s1 a1 a2 a3) := by
  unfold tileSidecar
  refine keeps_ite ?_ ?_
  · exact h1
  · extract_lets -merge -underBinder +onlyGivenNames x20 x21
    clear_value x20 x21
    exact (keeps_engWord h1)

theorem keeps_trailing {s1} {a1} {a2} (h1 : Keeps r s1) :
    Keeps r (trailing s1 a1 a2).1 := by
  unfold trailing
  extract_lets -merge -underBinder +onlyGivenNames x20 x21 x22 x23 x24 x25 x26
  clear_value x20 x21 x22 x23 x24 x25 x26
  refine keeps_foldl1 ?_ ?_
  · exact (keeps_foldl h1 (fun _ _ h29 => (keeps_tileSidecar h29)))
  · intro y30 y31 h30
    extract_lets -merge -underBinder +onlyGivenNames x32 x33 x34 x35
    have h35 : Keeps r x35.1 := (keeps_putA h30)
    clear_value x32 x33 x34 x35
    exact h35

theorem keeps_convertMatrix {s1} {a1} (h1 : Keeps r s1) :
    Keeps r (convertMatrix s1 a1) := by
  unfold convertMatrix
  exact (keeps_foldl h1 (fun _ _ h20 => (keeps_putA h20)))

theorem keeps_writeVec {s1} {a1} {a2} (h1 : Keeps r s1) :
    Keeps r (writeVec s1 a1 a2) := by
  unfold writeVec
  exact (keeps_foldl h1 (fun _ _ h20 => (keeps_engWord h20)))

end Sys2Proof.Machine
end

