-- ==== Sys2Proof/Laws/KeepsSolver.lean ====
section
/-! SUPPORT. What each operation of Machine/Solver.lean keeps. -/

namespace Sys2Proof.Machine

variable {r : State}

theorem keeps_solvDbWrite {s1} {a1} {a2} {a3} (h1 : Keeps r s1) :
    Keeps r (solvDbWrite s1 a1 a2 a3) := by
  unfold solvDbWrite
  refine keeps_guarded h1 ?_
  · intro y22 h22
    extract_lets -merge -underBinder +onlyGivenNames x23 x24
    clear_value x23 x24
    refine keeps_ite ?_ ?_
    · exact (keeps_denied h22)
    · extract_lets -merge -underBinder +onlyGivenNames x25 x26
      have h25 : Keeps r x25 := (keeps_putF (keeps_putF h22))
      have h26 : Keeps r x26 := (keeps_ite (keeps_putF h25) h25)
      clear_value x25 x26
      exact (keeps_done (keeps_ite (keeps_updHalf h26) h26))

theorem keeps_execSolvDoorbell {a0} {a1} {a2} {s} (h : Keeps r s) :
    KeepsX r (execSolvDoorbell a0 a1 a2 s) := by
  unfold execSolvDoorbell
  exact (keepsX_next (keeps_solvDbWrite h))

theorem keeps_execSolvCqRelease {a0} {a1} {a2} {s} (h : Keeps r s) :
    KeepsX r (execSolvCqRelease a0 a1 a2 s) := by
  unfold execSolvCqRelease
  exact (keepsX_next (keeps_solvDbWrite h))

theorem keeps_execSolvCancel {a0} {a1} {s} (h : Keeps r s) :
    KeepsX r (execSolvCancel a0 a1 s) := by
  unfold execSolvCancel
  refine keepsX_next ?_
  extract_lets -merge -underBinder +onlyGivenNames x20
  clear_value x20
  exact (keeps_solvDbWrite h)

theorem keeps_solvRingWrite {s1} {a1} {a2} {a3} {a4} (h1 : Keeps r s1) :
    Keeps r (solvRingWrite s1 a1 a2 a3 a4) := by
  unfold solvRingWrite
  refine keeps_guarded h1 ?_
  · intro y22 h22
    extract_lets -merge -underBinder +onlyGivenNames x23
    clear_value x23
    exact (keeps_ite (keeps_denied h22) (keeps_plainWrite h22))

theorem keeps_writeBlock {s1} {a1} {a2} {a3} (h1 : Keeps r s1) :
    Keeps r (writeBlock s1 a1 a2 a3) := by
  unfold writeBlock
  extract_lets -merge -underBinder +onlyGivenNames x20 x21
  have h21 : Keeps r x21 := (keeps_foldl h1 (fun _ _ h22 => (keeps_engWord h22)))
  clear_value x20 x21
  exact (keeps_foldl h21 (fun _ _ h23 => (keeps_engWrite h23)))

theorem keeps_setSolv {s1} {a1} {a2} (h1 : Keeps r s1) :
    Keeps r (setSolv s1 a1 a2) := by
  unfold setSolv
  exact (keeps_putF (keeps_updHalf h1))

theorem keeps_endSolv {s1} {a1} {a2} {a3} {a4} {a5} (h1 : Keeps r s1) :
    Keeps r (endSolv s1 a1 a2 a3 a4 a5) := by
  unfold endSolv
  exact (keeps_setSolv (keeps_returnGangs h1))

theorem keeps_stopFactor {s1} {a1} {a2} {a3} (h1 : Keeps r s1) :
    Keeps r (stopFactor s1 a1 a2 a3) := by
  unfold stopFactor
  exact (keeps_endSolv (keeps_writeBlock h1))

theorem keeps_failFactor {s1} {a1} {a2} {a3} {a4} {a5} (h1 : Keeps r s1) :
    Keeps r (failFactor s1 a1 a2 a3 a4 a5) := by
  unfold failFactor
  exact (keeps_endSolv (keeps_writeBlock h1))

theorem keeps_joinBrake {s1} {a1} (h1 : Keeps r s1) :
    Keeps r (joinBrake s1 a1) := by
  unfold joinBrake
  exact (keeps_updCkp h1)

theorem keeps_startSolve {s1} {a1} {a2} (h1 : Keeps r s1) :
    Keeps r (startSolve s1 a1 a2) := by
  unfold startSolve
  extract_lets -merge -underBinder +onlyGivenNames x20
  clear_value x20
  refine keeps_ite ?_ ?_
  · exact (keeps_endSolv h1)
  · refine keeps_ite ?_ ?_
    · extract_lets -merge -underBinder +onlyGivenNames x21
      clear_value x21
      exact (keeps_endSolv (keeps_writeVec h1))
    · exact (keeps_setSolv h1)

theorem keeps_solvScan {s1} {a1} {a2} (h1 : Keeps r s1) :
    Keeps r (solvScan s1 a1 a2) := by
  unfold solvScan
  extract_lets -merge -underBinder +onlyGivenNames x20 x21
  clear_value x20 x21
  split
  · exact (keeps_stopFactor h1)
  · extract_lets -merge -underBinder +onlyGivenNames x22 x23
    clear_value x22 x23
    refine keeps_ite ?_ ?_
    · exact (keeps_failFactor h1)
    · extract_lets -merge -underBinder +onlyGivenNames x24 x25
      have h24 : Keeps r x24 := (keeps_ite (keeps_convertMatrix h1) h1)
      clear_value x24 x25
      exact (keeps_setSolv (keeps_writeBlock h24))

theorem keeps_solvBegin {s1} {a1} {a2} {a3} (h1 : Keeps r s1) :
    Keeps r (solvBegin s1 a1 a2 a3) := by
  unfold solvBegin
  extract_lets -merge -underBinder +onlyGivenNames x20
  have h20 : Keeps r x20 := (keeps_takeGangs h1)
  split
  · extract_lets -merge -underBinder +onlyGivenNames x21 x22
    split
    · exact (keeps_endSolv h20)
    · exact (keeps_startSolve h20)
  · extract_lets -merge -underBinder +onlyGivenNames x23 x24 x25
    have h25 : Keeps r x25 := (keeps_writeBlock h20)
    exact (keeps_ite (keeps_solvScan h25) (keeps_setSolv h25))
  · extract_lets -merge -underBinder +onlyGivenNames x26
    have h26 : Keeps r x26 := (keeps_smear (keeps_engWrite h20))
    exact (keeps_solvScan h26)

theorem keeps_solverStart {s1} {a1} {a2} (h1 : Keeps r s1) :
    Keeps r (solverStart s1 a1 a2) := by
  unfold solverStart
  extract_lets -merge -underBinder +onlyGivenNames x20 x21 x22 x23 x24
  clear_value x20 x21 x22 x23 x24
  refine keeps_ite ?_ ?_
  · exact h1
  · extract_lets -merge -underBinder +onlyGivenNames x25 x26 x27 x28 x29 x30
    have h25 : Keeps r x25 := (keeps_putF (keeps_putF h1))
    have h26 : Keeps r x26 := (keeps_updHalf h25)
    clear_value x25 x26 x27 x28 x29 x30
    split
    · extract_lets -merge -underBinder +onlyGivenNames x31
      clear_value x31
      exact (keeps_setSolv (keeps_ite (keeps_writeBlock h26) h26))
    · exact (keeps_solvBegin h26)

theorem keeps_execSolverLu {a0} {s} (h : Keeps r s) :
    KeepsX r (execSolverLu a0 s) := by
  unfold execSolverLu
  exact (keepsX_next (keeps_solverStart h))

theorem keeps_execSolverChol {a0} {s} (h : Keeps r s) :
    KeepsX r (execSolverChol a0 s) := by
  unfold execSolverChol
  exact (keepsX_next (keeps_solverStart h))

theorem keeps_execSolverSolve {a0} {s} (h : Keeps r s) :
    KeepsX r (execSolverSolve a0 s) := by
  unfold execSolverSolve
  exact (keepsX_next (keeps_solverStart h))

theorem keeps_execSolverResume {a0} {s} (h : Keeps r s) :
    KeepsX r (execSolverResume a0 s) := by
  unfold execSolverResume
  exact (keepsX_next (keeps_solverStart h))

theorem keeps_smearStep {s1} {a1} {a2} (h1 : Keeps r s1) :
    Keeps r (smearStep s1 a1 a2) := by
  unfold smearStep
  extract_lets -merge -underBinder +onlyGivenNames x20
  clear_value x20
  refine keeps_foldl ?_ ?_
  · exact h1
  · intro y23 y24 h23
    refine keeps_foldl ?_ ?_
    · exact h23
    · intro y26 y27 h26
      split
      · exact (keeps_smear h26)
      · exact h26

theorem keeps_panelStep {s1} {a1} {a2} (h1 : Keeps r s1) :
    Keeps r (panelStep s1 a1 a2) := by
  unfold panelStep
  extract_lets -merge -underBinder +onlyGivenNames x20 x21 x22 x23 x24 x25
  clear_value x20 x21 x22 x23 x24 x25
  refine keeps_ite ?_ ?_
  · exact (keeps_failFactor (keeps_smearStep h1))
  · split
    · rename_i s26_0 _ e26
      have h26_0 : Keeps r s26_0 := keeps_of_eq1 e26 (keeps_storePanel h1)
      extract_lets -merge -underBinder +onlyGivenNames x27
      have h27 : Keeps r x27 := (keeps_ite h26_0 (keeps_exchangeRows h26_0))
      clear_value x27
      split
      · rename_i s28_0 _ e28
        have h28_0 : Keeps r s28_0 := keeps_of_eq1 e28 (keeps_ite1 h27 (keeps_upperBlock h27))
        split
        · rename_i s29_0 _ _ e29
          have h29_0 : Keeps r s29_0 := keeps_of_eq1 e29 (keeps_trailing h28_0)
          refine keeps_ite ?_ ?_
          · exact (keeps_failFactor (keeps_smearStep h29_0))
          · extract_lets -merge -underBinder +onlyGivenNames x30
            clear_value x30
            exact (keeps_ite (keeps_startSolve (keeps_writeBlock h29_0)) (keeps_setSolv (keeps_writeBlock h29_0)))

theorem keeps_execSolverPanelStep {a0} {s} (h : Keeps r s) :
    KeepsX r (execSolverPanelStep a0 s) := by
  unfold execSolverPanelStep
  refine keepsX_next ?_
  extract_lets -merge -underBinder +onlyGivenNames x20
  clear_value x20
  split
  · exact h
  · extract_lets -merge -underBinder +onlyGivenNames x21
    clear_value x21
    refine keeps_ite ?_ ?_
    · exact h
    · extract_lets -merge -underBinder +onlyGivenNames x22
      clear_value x22
      split
      · exact (keeps_stopFactor h)
      · refine keeps_ite ?_ ?_
        · exact (keeps_joinBrake (keeps_setSolv (keeps_writeBlock h)))
        · split
          · exact (keeps_failFactor (keeps_smearStep h))
          · extract_lets -merge -underBinder +onlyGivenNames x23
            have h23 : Keeps r x23 := (keeps_writeBlock h)
            clear_value x23
            split
            · exact (keeps_failFactor h23)
            · exact (keeps_ite (keeps_failFactor h23) (keeps_panelStep h23))

theorem keeps_stopRefine {s1} {a1} {a2} {a3} (h1 : Keeps r s1) :
    Keeps r (stopRefine s1 a1 a2 a3) := by
  unfold stopRefine
  exact (keeps_endSolv (keeps_writeVec h1))

theorem keeps_correct {s1} {a1} {a2} {a3} (h1 : Keeps r s1) :
    Keeps r (correct s1 a1 a2 a3) := by
  unfold correct
  extract_lets -merge -underBinder +onlyGivenNames x20
  clear_value x20
  exact (keeps_setSolv h1)

theorem keeps_gmInner {s1} {a1} {a2} {a3} {a4} (h1 : Keeps r s1) :
    Keeps r (gmInner s1 a1 a2 a3 a4) := by
  unfold gmInner
  extract_lets -merge -underBinder +onlyGivenNames x20 x21 x22
  clear_value x20 x21 x22
  exact (keeps_ite (keeps_stopRefine h1) (keeps_ite (keeps_setSolv h1) (keeps_setSolv h1)))

theorem keeps_execSolverCorrection {a0} {s} (h : Keeps r s) :
    KeepsX r (execSolverCorrection a0 s) := by
  unfold execSolverCorrection
  refine keepsX_next ?_
  extract_lets -merge -underBinder +onlyGivenNames x20
  clear_value x20
  split
  · exact h
  · extract_lets -merge -underBinder +onlyGivenNames x21
    clear_value x21
    refine keeps_ite ?_ ?_
    · exact h
    · split
      · exact (keeps_endSolv h)
      · split
        · exact (keeps_gmInner h)
        · refine keeps_ite ?_ ?_
          · exact (keeps_correct h)
          · extract_lets -merge -underBinder +onlyGivenNames x22 x23
            clear_value x22 x23
            split
            · exact (keeps_ite (keeps_endSolv h) (keeps_stopRefine h))
            · exact (keeps_ite (keeps_joinBrake (keeps_setSolv (keeps_writeVec h))) (keeps_correct h))

theorem keeps_execSolverCompletion {a0} {s} (h : Keeps r s) :
    KeepsX r (execSolverCompletion a0 s) := by
  unfold execSolverCompletion
  refine keepsX_next ?_
  extract_lets -merge -underBinder +onlyGivenNames x20
  clear_value x20
  split
  · exact h
  · split
    · exact h
    · extract_lets -merge -underBinder +onlyGivenNames x21 x22
      clear_value x21 x22
      refine keeps_ite ?_ ?_
      · exact (keeps_ite (keeps_putF h) h)
      · extract_lets -merge -underBinder +onlyGivenNames x23 x24 x25 x26 x27 x28
        have h25 : Keeps r x25 := (keeps_engWrite h)
        have h26 : Keeps r x26 := (keeps_putF (keeps_putF h25))
        have h27 : Keeps r x27 := (keeps_putF h26)
        have h28 : Keeps r x28 := (keeps_updHalf h27)
        clear_value x23 x24 x25 x26 x27 x28
        exact (keeps_ite (keeps_raiseEvent h28) (keeps_tellNode h28))

end Sys2Proof.Machine
end

