-- ==== Sys2Proof/Laws/KeepsRel.lean ====
section
/-! SUPPORT. What each operation of Machine/Rel.lean keeps. -/

namespace Sys2Proof.Machine

variable {r : State}

theorem keeps_engineDown {s1} {a1} (h1 : Keeps r s1) :
    Keeps r (engineDown s1 a1) := by
  unfold engineDown
  extract_lets -merge -underBinder +onlyGivenNames x20 x21 x22 x23 x25
  have h23 : Keeps r x23 := (keeps_foldl h1 (fun _ _ h24 => (keeps_ite (keeps_putF h24) h24)))
  have h25 : Keeps r x25 := (keeps_foldl h23 (fun _ _ h26 => (keeps_ite h26 (keeps_linkDown h26))))
  clear_value x20 x21 x22 x23 x25
  exact (keeps_foldl h25 (fun _ _ h27 => (keeps_portGone h27)))

theorem keeps_loseAtomics {s1} {a1} (h1 : Keeps r s1) :
    Keeps r (loseAtomics s1 a1) := by
  unfold loseAtomics
  refine keeps_foldl ?_ ?_
  · exact h1
  · intro y21 y22 h21
    extract_lets -merge -underBinder +onlyGivenNames x23 x24 x25 x26 x27 x28 x29
    have h29 : Keeps r x29 := (keeps_updHalf h21)
    clear_value x23 x24 x25 x26 x27 x28 x29
    exact (keeps_answerAll h29)

theorem keeps_retireBridge {s1} {a1} (h1 : Keeps r s1) :
    Keeps r (retireBridge s1 a1) := by
  unfold retireBridge
  refine keeps_ite ?_ ?_
  · exact h1
  · extract_lets -merge -underBinder +onlyGivenNames x20
    have h20 : Keeps r x20 := (keeps_putF (keeps_loseAtomics h1))
    clear_value x20
    refine keeps_ite ?_ ?_
    · exact (keeps_mk h20)
    · extract_lets -merge -underBinder +onlyGivenNames x21
      clear_value x21
      exact (keeps_haltSpanning (keeps_answerAll (keeps_mk h20)))

theorem keeps_unitGone {s1} {a1} {a2} (h1 : Keeps r s1) :
    Keeps r (unitGone s1 a1 a2) := by
  unfold unitGone
  split
  · exact (keeps_ite (keeps_putF h1) h1)
  · exact (keeps_engineDown h1)
  · exact (keeps_retireBridge h1)
  · exact (keeps_updCtl h1)
  · exact (keeps_ite (keeps_endSolver h1) h1)
  · exact h1

theorem keeps_quarantine {s1} {a1} {a2} (h1 : Keeps r s1) :
    Keeps r (quarantine s1 a1 a2) := by
  unfold quarantine
  refine keeps_ite ?_ ?_
  · exact h1
  · extract_lets -merge -underBinder +onlyGivenNames x20
    have h20 : Keeps r x20 := (keeps_updUnit h1)
    clear_value x20
    exact (keeps_unitGone h20)

theorem keeps_retireUnit {s1} {a1} {a2} (h1 : Keeps r s1) :
    Keeps r (retireUnit s1 a1 a2) := by
  unfold retireUnit
  extract_lets -merge -underBinder +onlyGivenNames x20 x21
  have h21 : Keeps r x21 := (keeps_quarantine h1)
  clear_value x21
  exact (keeps_ite (keeps_quarantine h21) h21)

theorem keeps_execTargetedTestStart {a0} {a1} {a2} {s} (h : Keeps r s) :
    KeepsX r (execTargetedTestStart a0 a1 a2 s) := by
  unfold execTargetedTestStart
  refine keepsX_next ?_
  extract_lets -merge -underBinder +onlyGivenNames x20 x21 x22
  clear_value x20 x21 x22
  exact (keeps_ite h (keeps_setUnit h))

theorem keeps_transientRecord {s1} {a1} {a2} {a3} (h1 : Keeps r s1) :
    Keeps r (transientRecord s1 a1 a2 a3).1 := by
  unfold transientRecord
  extract_lets -merge -underBinder +onlyGivenNames x20 x21 x22 x23
  clear_value x20 x21 x22 x23
  exact (keeps_writeRecord h1)

theorem keeps_lastingRecords {s1} {a1} {a2} {a3} (h1 : Keeps r s1) :
    Keeps r (lastingRecords s1 a1 a2 a3) := by
  unfold lastingRecords
  extract_lets -merge -underBinder +onlyGivenNames x20 x21
  clear_value x20 x21
  exact (keeps_foldl h1 (fun _ _ h22 => (keeps_writeRecord h22)))

theorem keeps_testEnd {s1} {a1} {a2} {a3} (h1 : Keeps r s1) :
    Keeps r (testEnd s1 a1 a2 a3) := by
  unfold testEnd
  extract_lets -merge -underBinder +onlyGivenNames x20 x21
  have h21 : Keeps r x21 := (keeps_setUnit h1)
  clear_value x20 x21
  refine keeps_ite ?_ ?_
  · exact (keeps_retireUnit (keeps_lastingRecords h21))
  · refine keeps_ite ?_ ?_
    · exact (keeps_updUnit h21)
    · split
      · rename_i s22_0 _ e22
        have h22_0 : Keeps r s22_0 := by
          refine keeps_of_eq1 e22 ?_
          refine keeps_foldl1 ?_ ?_
          · exact h21
          · intro y25 y26 h25
            split
            · rename_i s27_0 _
              have h27_0 : Keeps r s27_0 := h25
              split
              · rename_i s28_0 _ e28
                have h28_0 : Keeps r s28_0 := keeps_of_eq1 e28 (keeps_transientRecord h27_0)
                exact h28_0
        exact (keeps_ite (keeps_retireUnit h22_0) h22_0)

theorem keeps_execTargetedTestComplete {a0} {a1} {a2} {a3} {s} (h : Keeps r s) :
    KeepsX r (execTargetedTestComplete a0 a1 a2 a3 s) := by
  unfold execTargetedTestComplete
  refine keepsX_next ?_
  extract_lets -merge -underBinder +onlyGivenNames x20 x21
  clear_value x20 x21
  exact (keeps_ite h (keeps_testEnd h))

theorem keeps_execPeriodicTestSlice {a0} {a1} {s} (h : Keeps r s) :
    KeepsX r (execPeriodicTestSlice a0 a1 s) := by
  unfold execPeriodicTestSlice
  refine keepsX_next ?_
  extract_lets -merge -underBinder +onlyGivenNames x20 x21 x22
  clear_value x20 x21 x22
  refine keeps_ite ?_ ?_
  · exact h
  · split
    · exact h
    · extract_lets -merge -underBinder +onlyGivenNames x23
      clear_value x23
      exact (keeps_ite h (keeps_detectUncorrected h))

theorem keeps_execSpareSlotTestPass {a0} {a1} {s} (h : Keeps r s) :
    KeepsX r (execSpareSlotTestPass a0 a1 s) := by
  unfold execSpareSlotTestPass
  refine keepsX_next ?_
  extract_lets -merge -underBinder +onlyGivenNames x20
  clear_value x20
  exact (keeps_ite h (keeps_detectUncorrected h))

theorem keeps_execOpticalMarginScan {a0} {a1} {a2} {s} (h : Keeps r s) :
    KeepsX r (execOpticalMarginScan a0 a1 a2 s) := by
  unfold execOpticalMarginScan
  refine keepsX_next ?_
  extract_lets -merge -underBinder +onlyGivenNames x20
  clear_value x20
  exact (keeps_ite h (keeps_foldl h (fun _ _ h21 => (keeps_detectUncorrected h21))))

theorem keeps_execHandshakeStall {a0} {a1} {a2} {s} (h : Keeps r s) :
    KeepsX r (execHandshakeStall a0 a1 a2 s) := by
  unfold execHandshakeStall
  refine keepsX_next ?_
  extract_lets -merge -underBinder +onlyGivenNames x20 x21
  clear_value x20 x21
  exact (keeps_ite h (keeps_detectUncorrected h))

theorem keeps_unitCommand {s1} {a1} {a2} {a3} {a4 : State → ℕ → ℕ → State} (h1 : Keeps r s1) (g5 : ∀ y0 y1 y2, Keeps r y0 → Keeps r (a4 y0 y1 y2)) :
    Keeps r (unitCommand s1 a1 a2 a3 a4) := by
  unfold unitCommand
  refine keeps_guarded h1 ?_
  · intro y22 h22
    split
    · exact (keeps_ite (keeps_done (g5 _ _ _ h22)) (keeps_denied h22))

theorem keeps_unitRetireCmd {s1} {a1} {a2} (h1 : Keeps r s1) :
    Keeps r (unitRetireCmd s1 a1 a2) := by
  unfold unitRetireCmd
  exact (keeps_unitCommand h1 (fun _ _ _ h20 => (keeps_retireUnit h20)))

theorem keeps_unitAdmitCmd {s1} {a1} {a2} (h1 : Keeps r s1) :
    Keeps r (unitAdmitCmd s1 a1 a2) := by
  unfold unitAdmitCmd
  exact (keeps_unitCommand h1 (fun _ _ _ h20 => (keeps_updUnit h20)))

theorem keeps_unitTestCmd {s1} {a1} {a2} (h1 : Keeps r s1) :
    Keeps r (unitTestCmd s1 a1 a2) := by
  unfold unitTestCmd
  exact (keeps_unitCommand h1 (fun _ _ _ h20 => (keeps_updUnit h20)))

theorem keeps_execUnitRetireCmd {a0} {a1} {s} (h : Keeps r s) :
    KeepsX r (execUnitRetireCmd a0 a1 s) := by
  unfold execUnitRetireCmd
  exact (keepsX_next (keeps_unitRetireCmd h))

theorem keeps_execUnitAdmit {a0} {a1} {a2} {s} (h : Keeps r s) :
    KeepsX r (execUnitAdmit a0 a1 a2 s) := by
  unfold execUnitAdmit
  exact (keepsX_next (keeps_unitCommand h (fun _ _ _ h20 => (keeps_testEnd (keeps_updUnit h20)))))

theorem keeps_execUnitTest {a0} {a1} {s} (h : Keeps r s) :
    KeepsX r (execUnitTest a0 a1 s) := by
  unfold execUnitTest
  exact (keepsX_next (keeps_unitTestCmd h))

theorem keeps_devUcmdWrite {s1} {a1} {a2} {a3} (h1 : Keeps r s1) :
    Keeps r (devUcmdWrite s1 a1 a2 a3) := by
  unfold devUcmdWrite
  split
  · exact (keeps_unitTestCmd h1)
  · exact (keeps_unitAdmitCmd h1)
  · exact (keeps_unitRetireCmd h1)
  · exact (keeps_guarded h1 (fun _ h20 => (keeps_denied h20)))

theorem keeps_ustatClear {s1} {a1} (h1 : Keeps r s1) :
    Keeps r (ustatClear s1 a1) := by
  unfold ustatClear
  split
  · exact (keeps_ite h1 (keeps_updUnit h1))

end Sys2Proof.Machine
end

