-- ==== Sys2Proof/Laws/KeepsSec.lean ====
section
/-! SUPPORT. What each operation of Machine/Sec.lean keeps. -/

namespace Sys2Proof.Machine

variable {r : State}

theorem keeps_updSec {s1} {a1} {a2} (h1 : Keeps r s1) :
    Keeps r (updSec s1 a1 a2) := by
  unfold updSec
  exact (keeps_updHalf h1)

theorem keeps_setStage {s1} {a1} {a2} {a3} (h1 : Keeps r s1) :
    Keeps r (setStage s1 a1 a2 a3) := by
  unfold setStage
  exact (keeps_putF (keeps_putF h1))

theorem keeps_extendMr {s1} {a1} {a2} {a3} (h1 : Keeps r s1) :
    Keeps r (extendMr s1 a1 a2 a3) := by
  unfold extendMr
  extract_lets -merge -underBinder +onlyGivenNames x20
  have h20 : Keeps r x20 := (keeps_setWords h1)
  clear_value x20
  exact (keeps_updSec h20)

theorem keeps_execTrustDieBoot {a0} {a1} {a2} {s} (h : Keeps r s) :
    KeepsX r (execTrustDieBoot a0 a1 a2 s) := by
  unfold execTrustDieBoot
  refine keepsX_next ?_
  extract_lets -merge -underBinder +onlyGivenNames x20 x21
  clear_value x20 x21
  refine keeps_ite ?_ ?_
  · exact h
  · refine keeps_ite ?_ ?_
    · exact (keeps_setStage h)
    · extract_lets -merge -underBinder +onlyGivenNames x22 x23 x24
      have h22 : Keeps r x22 := (keeps_putF h)
      have h23 : Keeps r x23 := (keeps_putF h22)
      have h24 : Keeps r x24 := (keeps_extendMr h23)
      clear_value x22 x23 x24
      refine keeps_ite ?_ ?_
      · exact (keeps_setStage h24)
      · extract_lets -merge -underBinder +onlyGivenNames x25
        have h25 : Keeps r x25 := (keeps_ite h24 (keeps_updSec (keeps_setWords h24)))
        clear_value x25
        split
        · rename_i _ s26_1 e26
          have h26_1 : Keeps r s26_1 := keeps_of_eq2 e26 (keeps_draw h25)
          split
          · rename_i _ s27_1 e27
            have h27_1 : Keeps r s27_1 := keeps_of_eq2 e27 (keeps_draw h26_1)
            extract_lets -merge -underBinder +onlyGivenNames x28 x29
            have h28 : Keeps r x28 := (keeps_updSec h27_1)
            have h29 : Keeps r x29 := (keeps_setReg h28)
            clear_value x28 x29
            exact (keeps_setStage h29)

theorem keeps_imgApply {s1} {a1} {a2} {a3} (h1 : Keeps r s1) :
    Keeps r (imgApply s1 a1 a2 a3) := by
  unfold imgApply
  refine keeps_ite ?_ ?_
  · exact h1
  · extract_lets -merge -underBinder +onlyGivenNames x20 x21 x22 x23
    have h22 : Keeps r x22 := (keeps_updSec h1)
    clear_value x20 x21 x22 x23
    exact (keeps_putF (keeps_putF h22))

theorem keeps_execImg {a0} {a1} {a2} {a3} {s} (h : Keeps r s) :
    KeepsX r (execImg a0 a1 a2 a3 s) := by
  unfold execImg
  refine keepsX_next ?_
  extract_lets -merge -underBinder +onlyGivenNames x20
  clear_value x20
  exact (keeps_ite h (keeps_imgApply h))

theorem keeps_launchImage {s1} {a1} (h1 : Keeps r s1) :
    Keeps r (launchImage s1 a1) := by
  unfold launchImage
  extract_lets -merge -underBinder +onlyGivenNames x20 x21 x22 x23 x24 x25
  have h21 : Keeps r x21 := (keeps_extendMr h1)
  have h22 : Keeps r x22 := (keeps_putF (keeps_setStage h21))
  have h23 : Keeps r x23 := (keeps_updSec h22)
  have h24 : Keeps r x24 := (keeps_mk h23)
  have h25 : Keeps r x25 := (keeps_ite (keeps_putF h24) h24)
  clear_value x20 x21 x22 x23 x24 x25
  exact (keeps_raiseEvent (keeps_setHalfState h25))

theorem keeps_bootCommand {s1} {a1} {a2} {a3 : State → State} (h1 : Keeps r s1) (g4 : ∀ y0, Keeps r y0 → Keeps r (a3 y0)) :
    Keeps r (bootCommand s1 a1 a2 a3) := by
  unfold bootCommand
  exact (keeps_guarded h1 (fun _ h20 => (keeps_ite (keeps_done (g4 _ h20)) (keeps_denied h20))))

theorem keeps_imageLaunch {s1} {a1} {a2} (h1 : Keeps r s1) :
    Keeps r (imageLaunch s1 a1 a2) := by
  unfold imageLaunch
  refine keeps_bootCommand h1 ?_
  · intro y22 h22
    extract_lets -merge -underBinder +onlyGivenNames x23
    clear_value x23
    exact (keeps_ite (keeps_launchImage h22) (keeps_setStage h22))

theorem keeps_imageClear {s1} {a1} {a2} (h1 : Keeps r s1) :
    Keeps r (imageClear s1 a1 a2) := by
  unfold imageClear
  exact (keeps_bootCommand h1 (fun _ h20 => (keeps_putF (keeps_putF (keeps_updSec h20)))))

theorem keeps_execImageLaunch {a0} {a1} {s} (h : Keeps r s) :
    KeepsX r (execImageLaunch a0 a1 s) := by
  unfold execImageLaunch
  exact (keepsX_next (keeps_imageLaunch h))

theorem keeps_execImageClear {a0} {a1} {s} (h : Keeps r s) :
    KeepsX r (execImageClear a0 a1 s) := by
  unfold execImageClear
  exact (keepsX_next (keeps_imageClear h))

theorem keeps_secBctlWrite {s1} {a1} {a2} {a3} (h1 : Keeps r s1) :
    Keeps r (secBctlWrite s1 a1 a2 a3) := by
  unfold secBctlWrite
  split
  · exact (keeps_imageLaunch h1)
  · exact (keeps_imageClear h1)
  · exact (keeps_guarded h1 (fun _ h20 => (keeps_denied h20)))

theorem keeps_signQuote {s1} {a1} {a2} (h1 : Keeps r s1) :
    Keeps r (signQuote s1 a1 a2).2 := by
  unfold signQuote
  extract_lets -merge -underBinder +onlyGivenNames x20
  clear_value x20
  refine keeps_ite2 ?_ ?_
  · exact h1
  · split
    · rename_i _ s21_1 e21
      have h21_1 : Keeps r s21_1 := keeps_of_eq2 e21 (keeps_signBlock h1)
      exact h21_1

theorem keeps_captureQuote {s1} {a1} (h1 : Keeps r s1) :
    Keeps r (captureQuote s1 a1) := by
  unfold captureQuote
  exact (keeps_updSec h1)

theorem keeps_quoteCmd {s1} {a1} {a2} (h1 : Keeps r s1) :
    Keeps r (quoteCmd s1 a1 a2) := by
  unfold quoteCmd
  refine keeps_guarded h1 ?_
  · intro y22 h22
    refine keeps_ite ?_ ?_
    · exact (keeps_denied h22)
    · extract_lets -merge -underBinder +onlyGivenNames x23
      have h23 : Keeps r x23 := (keeps_putF h22)
      clear_value x23
      exact (keeps_done (keeps_ite h23 (keeps_captureQuote h23)))

theorem keeps_extendCmd {s1} {a1} {a2} (h1 : Keeps r s1) :
    Keeps r (extendCmd s1 a1 a2) := by
  unfold extendCmd
  refine keeps_guarded h1 ?_
  · intro y22 h22
    extract_lets -merge -underBinder +onlyGivenNames x23
    clear_value x23
    exact (keeps_done (keeps_ite (keeps_updSec h22) (keeps_extendMr h22)))

theorem keeps_execQuote {a0} {a1} {s} (h : Keeps r s) :
    KeepsX r (execQuote a0 a1 s) := by
  unfold execQuote
  exact (keepsX_next (keeps_quoteCmd h))

theorem keeps_execExtend {a0} {a1} {s} (h : Keeps r s) :
    KeepsX r (execExtend a0 a1 s) := by
  unfold execExtend
  exact (keepsX_next (keeps_extendCmd h))

theorem keeps_execQuoteComplete {a0} {s} (h : Keeps r s) :
    KeepsX r (execQuoteComplete a0 s) := by
  unfold execQuoteComplete
  refine keepsX_next ?_
  extract_lets -merge -underBinder +onlyGivenNames x20
  clear_value x20
  split
  · exact h
  · split
    · rename_i _ s21_1 e21
      have h21_1 : Keeps r s21_1 := keeps_of_eq2 e21 (keeps_signQuote h)
      extract_lets -merge -underBinder +onlyGivenNames x22 x23 x24
      have h22 : Keeps r x22 := (keeps_setWords h21_1)
      have h23 : Keeps r x23 := (keeps_putF (keeps_putF h22))
      clear_value x22 x23 x24
      exact (keeps_foldl (keeps_updSec h23) (fun _ _ h25 => (keeps_extendMr h25)))

theorem keeps_secQctlWrite {s1} {a1} {a2} {a3} (h1 : Keeps r s1) :
    Keeps r (secQctlWrite s1 a1 a2 a3) := by
  unfold secQctlWrite
  split
  · exact (keeps_quoteCmd h1)
  · exact (keeps_extendCmd h1)
  · exact (keeps_guarded h1 (fun _ h20 => (keeps_done (keeps_putF h20))))
  · exact (keeps_guarded h1 (fun _ h21 => (keeps_denied h21)))

theorem keeps_setDstate {s1} {a1} {a2} (h1 : Keeps r s1) :
    Keeps r (setDstate s1 a1 a2) := by
  unfold setDstate
  exact (keeps_ite h1 (keeps_putF h1))

theorem keeps_newChallenge {s1} {a1} (h1 : Keeps r s1) :
    Keeps r (newChallenge s1 a1) := by
  unfold newChallenge
  split
  · rename_i _ s20_1 e20
    have h20_1 : Keeps r s20_1 := keeps_of_eq2 e20 (keeps_draw h1)
    extract_lets -merge -underBinder +onlyGivenNames x21
    clear_value x21
    exact (keeps_setDstate (keeps_updSec (keeps_setWords h20_1)))

theorem keeps_challengeCmd {s1} {a1} {a2} (h1 : Keeps r s1) :
    Keeps r (challengeCmd s1 a1 a2) := by
  unfold challengeCmd
  exact (keeps_guarded h1 (fun _ h20 => (keeps_ite (keeps_done (keeps_newChallenge h20)) (keeps_denied h20))))

theorem keeps_unlockPart {s} (h : Keeps r s) :
    Keeps r (unlockPart s) := by
  unfold unlockPart
  extract_lets -merge -underBinder +onlyGivenNames x20 x21 x22 x23
  have h20 : Keeps r x20 := (keeps_holdReset (keeps_holdReset h))
  have h21 : Keeps r x21 := (keeps_clearBridge (keeps_clearBridge h20))
  have h23 : Keeps r x23 := (keeps_mk h21)
  clear_value x20 x21 x22 x23
  exact (keeps_leaveReset (keeps_leaveReset h23))

theorem keeps_dropChallenge {s1} {a1} (h1 : Keeps r s1) :
    Keeps r (dropChallenge s1 a1) := by
  unfold dropChallenge
  exact (keeps_setDstate (keeps_updSec h1))

theorem keeps_failSubmit {s1} {a1} (h1 : Keeps r s1) :
    Keeps r (failSubmit s1 a1) := by
  unfold failSubmit
  extract_lets -merge -underBinder +onlyGivenNames x20
  have h20 : Keeps r x20 := (keeps_bumpF (keeps_dropChallenge h1))
  clear_value x20
  exact (keeps_updSec h20)

theorem keeps_submitDebug {s1} {a1} (h1 : Keeps r s1) :
    Keeps r (submitDebug s1 a1) := by
  unfold submitDebug
  exact (keeps_ite (keeps_unlockPart h1) (keeps_failSubmit h1))

theorem keeps_submitCmd {s1} {a1} {a2} (h1 : Keeps r s1) :
    Keeps r (submitCmd s1 a1 a2) := by
  unfold submitCmd
  exact (keeps_guarded h1 (fun _ h20 => (keeps_ite (keeps_done (keeps_submitDebug h20)) (keeps_denied h20))))

theorem keeps_execDebugChallenge {a0} {a1} {s} (h : Keeps r s) :
    KeepsX r (execDebugChallenge a0 a1 s) := by
  unfold execDebugChallenge
  exact (keepsX_next (keeps_challengeCmd h))

theorem keeps_execDebugSubmit {a0} {a1} {s} (h : Keeps r s) :
    KeepsX r (execDebugSubmit a0 a1 s) := by
  unfold execDebugSubmit
  exact (keepsX_next (keeps_submitCmd h))

theorem keeps_secDbgctlWrite {s1} {a1} {a2} {a3} (h1 : Keeps r s1) :
    Keeps r (secDbgctlWrite s1 a1 a2 a3) := by
  unfold secDbgctlWrite
  split
  · exact (keeps_challengeCmd h1)
  · exact (keeps_submitCmd h1)
  · exact (keeps_guarded h1 (fun _ h20 => (keeps_denied h20)))

theorem keeps_execDebugChallengeExpiry {a0} {s} (h : Keeps r s) :
    KeepsX r (execDebugChallengeExpiry a0 s) := by
  unfold execDebugChallengeExpiry
  exact (keepsX_next (keeps_ite (keeps_dropChallenge h) h))

theorem keeps_execDebugLockoutExpiry {a0} {s} (h : Keeps r s) :
    KeepsX r (execDebugLockoutExpiry a0 s) := by
  unfold execDebugLockoutExpiry
  exact (keepsX_next (keeps_updSec h))

theorem keeps_execDrbgReseed {a0} {s} (h : Keeps r s) :
    KeepsX r (execDrbgReseed a0 s) := by
  unfold execDrbgReseed
  exact (keepsX_next (keeps_ite h (keeps_updSec h)))

theorem keeps_abortHandshake {s1} {a1} (h1 : Keeps r s1) :
    Keeps r (abortHandshake s1 a1) := by
  unfold abortHandshake
  extract_lets -merge -underBinder +onlyGivenNames x20 x21 x22 x23 x24
  have h24 : Keeps r x24 := (keeps_updLom h1)
  clear_value x20 x21 x22 x23 x24
  exact (keeps_answer (keeps_putF h24))

theorem keeps_acceptHello {s1} {a1} {a2} {a3} {a4} {a5} {a6} (h1 : Keeps r s1) :
    Keeps r (acceptHello s1 a1 a2 a3 a4 a5 a6) := by
  unfold acceptHello
  refine keeps_ite ?_ ?_
  · exact (keeps_abortHandshake h1)
  · split
    · rename_i _ s20_1 e20
      have h20_1 : Keeps r s20_1 := keeps_of_eq2 e20 (keeps_draw h1)
      split
      · rename_i _ s21_1 e21
        have h21_1 : Keeps r s21_1 := keeps_of_eq2 e21 (keeps_draw h20_1)
        extract_lets -merge -underBinder +onlyGivenNames x22 x23 x24 x25
        clear_value x22 x23 x24 x25
        split
        · rename_i _ s26_1 e26
          have h26_1 : Keeps r s26_1 := keeps_of_eq2 e26 (keeps_signQuote h21_1)
          extract_lets -merge -underBinder +onlyGivenNames x27 x28 x29
          have h29 : Keeps r x29 := (keeps_putF (keeps_updLom h26_1))
          clear_value x27 x28 x29
          exact (keeps_answer h29)

theorem keeps_execHello {a0} {a1} {a2} {a3} {a4} {s} (h : Keeps r s) :
    KeepsX r (execHello a0 a1 a2 a3 a4 s) := by
  unfold execHello
  refine keepsX_next ?_
  extract_lets -merge -underBinder +onlyGivenNames x20
  clear_value x20
  refine keeps_ite ?_ ?_
  · split
    · rename_i _ s21_1 e21
      have h21_1 : Keeps r s21_1 := keeps_of_eq2 e21 (keeps_fresh h)
      extract_lets -merge -underBinder +onlyGivenNames x22
      have h22 : Keeps r x22 := (keeps_acceptHello h21_1)
      clear_value x22
      exact (keeps_putF (keeps_updLom h22))
  · refine keeps_ite ?_ ?_
    · exact (keeps_answer h)
    · extract_lets -merge -underBinder +onlyGivenNames x23
      have h23 : Keeps r x23 := (keeps_ite (keeps_endSession (keeps_loseTraffic h)) h)
      clear_value x23
      split
      · rename_i _ s24_1 e24
        have h24_1 : Keeps r s24_1 := keeps_of_eq2 e24 (keeps_fresh h23)
        exact (keeps_acceptHello h24_1)

theorem keeps_execProof {a0} {a1} {a2} {s} (h : Keeps r s) :
    KeepsX r (execProof a0 a1 a2 s) := by
  unfold execProof
  refine keepsX_next ?_
  extract_lets -merge -underBinder +onlyGivenNames x20
  clear_value x20
  split
  · exact h
  · exact (keeps_ite h (keeps_ite (keeps_answer (keeps_updLom h)) (keeps_abortHandshake h)))

theorem keeps_execFinish {a0} {a1} {s} (h : Keeps r s) :
    KeepsX r (execFinish a0 a1 s) := by
  unfold execFinish
  refine keepsX_next ?_
  extract_lets -merge -underBinder +onlyGivenNames x20
  clear_value x20
  split
  · exact h
  · refine keeps_ite ?_ ?_
    · exact (keeps_abortHandshake h)
    · extract_lets -merge -underBinder +onlyGivenNames x21 x22 x23 x24 x25 x26
      have h23 : Keeps r x23 := (keeps_ite (keeps_updLink h) (keeps_updLink h))
      have h24 : Keeps r x24 := (keeps_updLom h23)
      have h25 : Keeps r x25 := (keeps_putF (keeps_putF (keeps_putF h24)))
      have h26 : Keeps r x26 := (keeps_ite (keeps_raiseEvent h25) h25)
      clear_value x21 x22 x23 x24 x25 x26
      exact (keeps_answer h26)

theorem keeps_execHelloLockoutExpiry {a0} {s} (h : Keeps r s) :
    KeepsX r (execHelloLockoutExpiry a0 s) := by
  unfold execHelloLockoutExpiry
  exact (keepsX_next (keeps_updLom h))

theorem keeps_execRekey {a0} {a1} {a2} {s} (h : Keeps r s) :
    KeepsX r (execRekey a0 a1 a2 s) := by
  unfold execRekey
  refine keepsX_next ?_
  extract_lets -merge -underBinder +onlyGivenNames x20
  clear_value x20
  refine keeps_ite ?_ ?_
  · exact h
  · extract_lets -merge -underBinder +onlyGivenNames x21
    clear_value x21
    exact (keeps_acceptHello h)

theorem keeps_execRekeyStart {a0} {s} (h : Keeps r s) :
    KeepsX r (execRekeyStart a0 s) := by
  unfold execRekeyStart
  refine keepsX_next ?_
  extract_lets -merge -underBinder +onlyGivenNames x20
  clear_value x20
  exact (keeps_ite h (keeps_lomSend (keeps_putF h)))

theorem keeps_dropOldKeys {s1} {a1} (h1 : Keeps r s1) :
    Keeps r (dropOldKeys s1 a1) := by
  unfold dropOldKeys
  extract_lets -merge -underBinder +onlyGivenNames x20
  clear_value x20
  exact (keeps_ite h1 (keeps_updLom h1))

end Sys2Proof.Machine
end

