-- ==== Sys2Proof/Laws/KeepsStream.lean ====
section
/-! SUPPORT. What each operation of Machine/Stream.lean keeps. -/

namespace Sys2Proof.Machine

variable {r : State}

theorem keeps_planOwners {s1} {a1} (h1 : Keeps r s1) :
    Keeps r (planOwners s1 a1) := by
  unfold planOwners
  exact (keeps_foldl h1 (fun _ _ h20 => (keeps_setOwner h20)))

theorem keeps_planPower {s1} {a1} (h1 : Keeps r s1) :
    Keeps r (planPower s1 a1) := by
  unfold planPower
  refine keeps_foldl ?_ ?_
  · exact h1
  · intro y21 y22 h21
    extract_lets -merge -underBinder +onlyGivenNames x23
    clear_value x23
    split
    · exact (keeps_setReg h21)
    · exact (keeps_updHalf h21)
    · exact (keeps_putF (keeps_putF h21))
    · exact (keeps_foldl h21 (fun _ _ h24 => (keeps_setDomain h24)))

theorem keeps_mapAfterStream {s1} {a1} (h1 : Keeps r s1) :
    Keeps r (mapAfterStream s1 a1) := by
  unfold mapAfterStream
  extract_lets -merge -underBinder +onlyGivenNames x20
  have h20 : Keeps r x20 := (keeps_foldl h1 (fun _ _ h21 => (keeps_setReg h21)))
  clear_value x20
  refine keeps_foldl ?_ ?_
  · exact h20
  · intro y24 y25 h24
    refine keeps_foldl ?_ ?_
    · exact h24
    · intro y27 y28 h27
      extract_lets -merge -underBinder +onlyGivenNames x29
      clear_value x29
      exact (keeps_putF h27)

theorem keeps_setFstState {s1} {a1} {a2} (h1 : Keeps r s1) :
    Keeps r (setFstState s1 a1 a2) := by
  unfold setFstState
  exact (keeps_putF h1)

theorem keeps_setFstErr {s1} {a1} {a2} {a3} (h1 : Keeps r s1) :
    Keeps r (setFstErr s1 a1 a2 a3) := by
  unfold setFstErr
  exact (keeps_setReg h1)

theorem keeps_refuseStream {s1} {a1} {a2} (h1 : Keeps r s1) :
    Keeps r (refuseStream s1 a1 a2) := by
  unfold refuseStream
  refine keeps_foldl ?_ ?_
  · exact h1
  · intro y21 y22 h21
    extract_lets -merge -underBinder +onlyGivenNames x23
    have h23 : Keeps r x23 := (keeps_setFstState (keeps_setFstErr h21))
    clear_value x23
    exact (keeps_updHalf h23)

theorem keeps_copyWindow {s1} {a1} (h1 : Keeps r s1) :
    Keeps r (copyWindow s1 a1) := by
  unfold copyWindow
  extract_lets -merge -underBinder +onlyGivenNames x20
  clear_value x20
  exact (keeps_mkAll h1 (fun w => (mwf_mreplaceD w)) id id id id)

theorem keeps_holdStream {s1} {a1} {a2} (h1 : Keeps r s1) :
    Keeps r (holdStream s1 a1 a2) := by
  unfold holdStream
  extract_lets -merge -underBinder +onlyGivenNames x20 x21 x22
  have h22 : Keeps r x22 := (keeps_ite (keeps_copyWindow h1) h1)
  clear_value x20 x21 x22
  exact (keeps_foldl h22 (fun _ _ h23 => (keeps_updHalf (keeps_setFstState (keeps_setFstErr h23)))))

theorem keeps_applyCmd {s1} {a1} {a2} (h1 : Keeps r s1) :
    Keeps r (applyCmd s1 a1 a2) := by
  unfold applyCmd
  refine keeps_guarded h1 ?_
  · intro y22 h22
    refine keeps_ite ?_ ?_
    · exact (keeps_denied h22)
    · extract_lets -merge -underBinder +onlyGivenNames x23 x24
      have h24 : Keeps r x24 := (keeps_updHalf h22)
      clear_value x23 x24
      refine keeps_done ?_
      · split
        · exact (keeps_refuseStream h24)
        · exact (keeps_holdStream h24)

theorem keeps_discardCmd {s1} {a1} {a2} (h1 : Keeps r s1) :
    Keeps r (discardCmd s1 a1 a2) := by
  unfold discardCmd
  refine keeps_guarded h1 ?_
  · intro y22 h22
    refine keeps_ite ?_ ?_
    · exact (keeps_denied h22)
    · extract_lets -merge -underBinder +onlyGivenNames x23 x24
      have h24 : Keeps r x24 := (keeps_updHalf h22)
      clear_value x23 x24
      exact (keeps_done (keeps_setFstState (keeps_mkAll h24 (fun w => (mwf_mdrop w)) id id id id)))

theorem keeps_execFstApply {a0} {a1} {s} (h : Keeps r s) :
    KeepsX r (execFstApply a0 a1 s) := by
  unfold execFstApply
  exact (keepsX_next (keeps_applyCmd h))

theorem keeps_execFstDiscard {a0} {a1} {s} (h : Keeps r s) :
    KeepsX r (execFstDiscard a0 a1 s) := by
  unfold execFstDiscard
  exact (keepsX_next (keeps_discardCmd h))

theorem keeps_fstCtlWrite {s1} {a1} {a2} {a3} (h1 : Keeps r s1) :
    Keeps r (fstCtlWrite s1 a1 a2 a3) := by
  unfold fstCtlWrite
  split
  · exact (keeps_applyCmd h1)
  · exact (keeps_discardCmd h1)
  · exact (keeps_guarded h1 (fun _ h20 => (keeps_denied h20)))

theorem keeps_fstWindowWrite {s1} {a1} {a2} {a3} {a4} (h1 : Keeps r s1) :
    Keeps r (fstWindowWrite s1 a1 a2 a3 a4) := by
  unfold fstWindowWrite
  refine keeps_guarded h1 ?_
  · intro y22 h22
    refine keeps_ite ?_ ?_
    · exact (keeps_denied h22)
    · extract_lets -merge -underBinder +onlyGivenNames x23
      have h23 : Keeps r x23 := (keeps_updHalf h22)
      clear_value x23
      exact (keeps_done (keeps_setReg h23))

theorem keeps_updCfg {s1} {a1} {a2} (h1 : Keeps r s1) :
    Keeps r (updCfg s1 a1 a2) := by
  unfold updCfg
  exact (keeps_updHalf h1)

theorem keeps_commitPolicy {s1} {a1} (h1 : Keeps r s1) :
    Keeps r (commitPolicy s1 a1) := by
  unfold commitPolicy
  extract_lets -merge -underBinder +onlyGivenNames x20 x21
  clear_value x20 x21
  split
  · exact (keeps_updCfg h1)
  · extract_lets -merge -underBinder +onlyGivenNames x22 x23
    clear_value x22 x23
    exact (keeps_putF (keeps_updCfg h1))
  · extract_lets -merge -underBinder +onlyGivenNames x24
    have h24 : Keeps r x24 := (keeps_putF (keeps_putF h1))
    clear_value x24
    exact (keeps_forwardCheck (keeps_updCfg h24))
  · exact (keeps_updCfg h1)
  · exact (keeps_updCfg h1)
  · extract_lets -merge -underBinder +onlyGivenNames x25
    have h25 : Keeps r x25 := (keeps_updCfg h1)
    clear_value x25
    exact (keeps_ite (keeps_dropChallenge h25) h25)

theorem keeps_commitPower {s1} {a1} (h1 : Keeps r s1) :
    Keeps r (commitPower s1 a1) := by
  unfold commitPower
  extract_lets -merge -underBinder +onlyGivenNames x20
  clear_value x20
  split
  · extract_lets -merge -underBinder +onlyGivenNames x21
    have h21 : Keeps r x21 := (keeps_setReg h1)
    clear_value x21
    exact (keeps_ite (keeps_setBucket h21) h21)
  · exact (keeps_updCfg h1)
  · extract_lets -merge -underBinder +onlyGivenNames x22
    clear_value x22
    exact (keeps_paceTake h1)
  · extract_lets -merge -underBinder +onlyGivenNames x23
    have h23 : Keeps r x23 := (keeps_foldl h1 (fun _ _ h24 => (keeps_ite h24 (keeps_switchOff h24))))
    clear_value x23
    exact (keeps_mk h23)

theorem keeps_commitOesub {s1} {a1} {a2} (h1 : Keeps r s1) :
    Keeps r (commitOesub s1 a1 a2) := by
  unfold commitOesub
  extract_lets -merge -underBinder +onlyGivenNames x20
  clear_value x20
  refine keeps_ite ?_ ?_
  · exact h1
  · extract_lets -merge -underBinder +onlyGivenNames x21 x22 x23
    have h21 : Keeps r x21 := (keeps_ite h1 (keeps_engineDown h1))
    have h22 : Keeps r x22 := (keeps_updCfg h21)
    clear_value x21 x22 x23
    exact (keeps_foldl h22 (fun _ _ h24 => (keeps_foldl h24 (fun _ _ h25 => (keeps_ite h25 (keeps_putF (keeps_putF h25)))))))

theorem keeps_commitSpare {s1} {a1} (h1 : Keeps r s1) :
    Keeps r (commitSpare s1 a1) := by
  unfold commitSpare
  refine keeps_ite ?_ ?_
  · extract_lets -merge -underBinder +onlyGivenNames x20 x21
    clear_value x20 x21
    exact (keeps_remapUnits (keeps_setWords h1))
  · exact (keeps_commitOesub h1)

theorem keeps_setWinlens {s1} {a1} (h1 : Keeps r s1) :
    Keeps r (setWinlens s1 a1) := by
  unfold setWinlens
  extract_lets -merge -underBinder +onlyGivenNames x20 x21
  clear_value x20
  exact (keeps_foldl h1 (fun _ _ h22 => (keeps_putF h22)))

theorem keeps_commitMemory {s1} {a1} {a2} (h1 : Keeps r s1) :
    Keeps r (commitMemory s1 a1 a2) := by
  unfold commitMemory
  extract_lets -merge -underBinder +onlyGivenNames x20 x21 x22 x23 x25
  have h20 : Keeps r x20 := (keeps_mapAfterStream h1)
  have h23 : Keeps r x23 := (keeps_foldl h20 (fun _ _ h24 => (keeps_updCfg h24)))
  have h25 : Keeps r x25 := (keeps_setWinlens (keeps_mkAll h23 id (fun w => (rising_mdrop w)) id id id))
  clear_value x20 x21 x22 x23 x25
  exact (keeps_updHalf h25)

theorem keeps_commitGangs {s1} {a1} (h1 : Keeps r s1) :
    Keeps r (commitGangs s1 a1) := by
  unfold commitGangs
  extract_lets -merge -underBinder +onlyGivenNames x20 x21 x22 x23 x24 x25 x27 x30 x31
  clear_value x20 x21 x22 x23 x24
  have h25 : Keeps r x25 := by
    unfold x25
    refine keeps_foldl ?_ ?_
    · exact h1
    · intro y34 y35 h34
      extract_lets -merge -underBinder +onlyGivenNames x36 x37 x38 x39
      have h38 : Keeps r x38 := (keeps_setReg (keeps_setReg h34))
      have h39 : Keeps r x39 := (keeps_putF (keeps_setGangState h38))
      clear_value x36 x37 x38 x39
      exact (keeps_mk h39)
  have h27 : Keeps r x27 := (keeps_foldl h25 (fun _ _ h28 => (keeps_foldl h28 (fun _ _ h29 => (keeps_setReg h29)))))
  have h31 : Keeps r x31 := (keeps_foldl h27 (fun _ _ h32 => (keeps_setReg h32)))
  clear_value x25 x27 x30 x31
  exact (keeps_foldl h31 (fun _ _ h40 => (keeps_freshContext h40)))

theorem keeps_commitLink {s1} {a1} (h1 : Keeps r s1) :
    Keeps r (commitLink s1 a1) := by
  unfold commitLink
  extract_lets -merge -underBinder +onlyGivenNames x20 x21 x22 x23 x24 x25 x27 x28
  have h25 : Keeps r x25 := (keeps_foldl h1 (fun _ _ h26 => (keeps_putF h26)))
  have h27 : Keeps r x27 := (keeps_ite h1 (keeps_ite (keeps_linkDown h25) h25))
  have h28 : Keeps r x28 := (keeps_setReg h27)
  clear_value x20 x21 x22 x24 x25 x27 x28
  exact (keeps_foldl h28 (fun _ _ h29 => (keeps_ite h29 (keeps_putF (keeps_putF h29)))))

theorem keeps_commitTime {s1} {a1} {a2} (h1 : Keeps r s1) :
    Keeps r (commitTime s1 a1 a2) := by
  unfold commitTime
  extract_lets -merge -underBinder +onlyGivenNames x20 x21 x22
  have h20 : Keeps r x20 := (keeps_setReg h1)
  have h21 : Keeps r x21 := (keeps_updHalf h20)
  have h22 : Keeps r x22 := (keeps_ite (keeps_setTimeState h21) h21)
  clear_value x20 x21 x22
  exact (keeps_ite (keeps_setTimeState h22) h22)

theorem keeps_commitRoute {s1} {a1} (h1 : Keeps r s1) :
    Keeps r (commitRoute s1 a1) := by
  unfold commitRoute
  split
  · exact (keeps_commitLink h1)
  · exact (keeps_setReg h1)
  · exact (keeps_setReg h1)
  · exact (keeps_commitTime h1)

theorem keeps_commitRegion {s1} {a1} (h1 : Keeps r s1) :
    Keeps r (commitRegion s1 a1) := by
  unfold commitRegion
  extract_lets -merge -underBinder +onlyGivenNames x20
  clear_value x20
  split
  · exact (keeps_setReg h1)
  · extract_lets -merge -underBinder +onlyGivenNames x21
    have h21 : Keeps r x21 := (keeps_setReg h1)
    clear_value x21
    exact (keeps_ite h21 (keeps_putF h21))
  · exact (keeps_setReg h1)
  · exact (keeps_setReg h1)
  · exact (keeps_setWords h1)
  · exact (keeps_putRegion h1)

theorem keeps_commitTest {s1} {a1} (h1 : Keeps r s1) :
    Keeps r (commitTest s1 a1) := by
  unfold commitTest
  extract_lets -merge -underBinder +onlyGivenNames x20
  clear_value x20
  split
  · exact (keeps_updCfg h1)
  · exact (keeps_updCfg h1)
  · exact (keeps_updCfg h1)

theorem keeps_commitItems {s1} {a1} {a2} (h1 : Keeps r s1) :
    Keeps r (commitItems s1 a1 a2) := by
  unfold commitItems
  extract_lets -merge -underBinder +onlyGivenNames is run s3 s4 s5 s6 s7 s8
  have hrun : ∀ ty f s, (∀ t i, Keeps r t → Keeps r (f t i)) → Keeps r s → Keeps r (run ty f s) :=
    fun ty f s g h => keeps_foldl h g
  have h3 : Keeps r s3 := hrun _ _ _ (fun _ _ => keeps_commitPolicy) h1
  have h4 : Keeps r s4 := hrun _ _ _ (fun _ _ h => keeps_setOwner h) h3
  have h5 : Keeps r s5 := hrun _ _ _ (fun _ _ => keeps_commitPower) h4
  have h6 : Keeps r s6 := hrun _ _ _ (fun _ _ => keeps_commitSpare) h5
  have h7 : Keeps r s7 := keeps_foldl h6 fun _ _ h => keeps_ite h (keeps_commitMemory h)
  have h8 : Keeps r s8 := keeps_ite (keeps_commitGangs h7) h7
  exact hrun _ _ _ (fun _ _ => keeps_commitTest) (hrun _ _ _ (fun _ _ => keeps_commitRegion)
    (hrun _ _ _ (fun _ _ => keeps_commitRoute) h8))

theorem keeps_measureStream {s1} {a1} {a2} {a3} (h1 : Keeps r s1) :
    Keeps r (measureStream s1 a1 a2 a3) := by
  unfold measureStream
  exact (keeps_foldl h1 (fun _ _ h20 => (keeps_extendMr h20)))

theorem keeps_enterRunning {s1} {a1} (h1 : Keeps r s1) :
    Keeps r (enterRunning s1 a1) := by
  unfold enterRunning
  extract_lets -merge -underBinder +onlyGivenNames x20
  have h20 : Keeps r x20 := (keeps_putF (keeps_setHalfState h1))
  clear_value x20
  exact (keeps_fillBucket (keeps_updHalf h20))

theorem keeps_quoteAfter {s1} {a1} (h1 : Keeps r s1) :
    Keeps r (quoteAfter s1 a1) := by
  unfold quoteAfter
  exact (keeps_ite (keeps_captureQuote h1) h1)

theorem keeps_commitStream {s1} {a1} {a2} {a3} (h1 : Keeps r s1) :
    Keeps r (commitStream s1 a1 a2 a3) := by
  unfold commitStream
  extract_lets -merge -underBinder +onlyGivenNames x20 x21 x22 x24 x26
  have h21 : Keeps r x21 := (keeps_commitItems h1)
  have h22 : Keeps r x22 := (keeps_foldl h21 (fun _ _ h23 => (keeps_measureStream h23)))
  have h24 : Keeps r x24 := (keeps_foldl h22 (fun _ _ h25 => (keeps_putF h25)))
  have h26 : Keeps r x26 := (keeps_foldl h24 (fun _ _ h27 => (keeps_ite h27 (keeps_enterRunning h27))))
  clear_value x20 x21 x22 x24 x26
  exact (keeps_foldl h26 (fun _ _ h28 => (keeps_quoteAfter (keeps_updHalf (keeps_setFstState h28)))))

theorem keeps_execStreamCommit {a0} {s} (h : Keeps r s) :
    KeepsX r (execStreamCommit a0 s) := by
  unfold execStreamCommit
  refine keepsX_next ?_
  extract_lets -merge -underBinder +onlyGivenNames x20 x21
  clear_value x20 x21
  refine keeps_ite ?_ ?_
  · exact h
  · split
    · exact (keeps_refuseStream h)
    · extract_lets -merge -underBinder +onlyGivenNames x22
      clear_value x22
      split
      · exact (keeps_refuseStream h)
      · exact (keeps_commitStream h)

end Sys2Proof.Machine
end

