-- ==== Sys2Proof/Laws/KeepsMgmt.lean ====
section
/-! SUPPORT. What each operation of Machine/Mgmt.lean keeps. -/

namespace Sys2Proof.Machine

variable {r : State}

theorem keeps_arithWrite {s1} {a1} {a2} {a3} (h1 : Keeps r s1) :
    Keeps r (arithWrite s1 a1 a2 a3) := by
  unfold arithWrite
  refine keeps_guarded h1 ?_
  · intro y22 h22
    extract_lets -merge -underBinder +onlyGivenNames x23
    clear_value x23
    exact (keeps_done (keeps_setReg h22))

theorem keeps_vexcWrite {s1} {a1} {a2} {a3} (h1 : Keeps r s1) :
    Keeps r (vexcWrite s1 a1 a2 a3) := by
  unfold vexcWrite
  refine keeps_guarded h1 ?_
  · intro y22 h22
    extract_lets -merge -underBinder +onlyGivenNames x23
    clear_value x23
    split
    · exact (keeps_done (keeps_vAction h22))
    · exact (keeps_done h22)

theorem keeps_sramWrite {s1} {a1} {a2} {a3} {a4} (h1 : Keeps r s1) :
    Keeps r (sramWrite s1 a1 a2 a3 a4) := by
  unfold sramWrite
  exact (keeps_guarded h1 (fun _ h20 => (keeps_ite (keeps_denied h20) (keeps_done (keeps_setReg h20)))))

theorem keeps_collRingWrite {s1} {a1} {a2} {a3} {a4} (h1 : Keeps r s1) :
    Keeps r (collRingWrite s1 a1 a2 a3 a4) := by
  unfold collRingWrite
  refine keeps_guarded h1 ?_
  · intro y22 h22
    extract_lets -merge -underBinder +onlyGivenNames x23
    clear_value x23
    exact (keeps_ite (keeps_denied h22) (keeps_plainWrite h22))

theorem keeps_collGroupWrite {s1} {a1} {a2} {a3} {a4} {a5} (h1 : Keeps r s1) :
    Keeps r (collGroupWrite s1 a1 a2 a3 a4 a5) := by
  unfold collGroupWrite
  exact (keeps_guarded h1 (fun _ h20 => (keeps_ite (keeps_denied h20) (keeps_plainWrite h20))))

theorem keeps_ckpAlignedWrite {s1} {a1} {a2} {a3} {a4} {a5} (h1 : Keeps r s1) :
    Keeps r (ckpAlignedWrite s1 a1 a2 a3 a4 a5) := by
  unfold ckpAlignedWrite
  refine keeps_guarded h1 ?_
  · intro y22 h22
    extract_lets -merge -underBinder +onlyGivenNames x23
    clear_value x23
    exact (keeps_ite (keeps_denied h22) (keeps_plainWrite h22))

theorem keeps_ckpRrepWrite {s1} {a1} {a2} {a3} (h1 : Keeps r s1) :
    Keeps r (ckpRrepWrite s1 a1 a2 a3) := by
  unfold ckpRrepWrite
  exact (keeps_guarded h1 (fun _ h20 => (keeps_ite (keeps_denied h20) (keeps_plainWrite h20))))

theorem keeps_windowWrite {s1} {a1} {a2} {a3} {a4} {a5} (h1 : Keeps r s1) :
    Keeps r (windowWrite s1 a1 a2 a3 a4 a5) := by
  unfold windowWrite
  exact (keeps_guarded h1 (fun _ h20 => (keeps_done (keeps_setReg h20))))

theorem keeps_writeTo {s1} {a1} {a2} {a3} {a4} {a5} (h1 : Keeps r s1) :
    Keeps r (writeTo s1 a1 a2 a3 a4 a5) := by
  unfold writeTo
  split
  · exact (keeps_devHalfWrite h1)
  · exact (keeps_devUcmdWrite h1)
  · exact (keeps_arithWrite h1)
  · exact (keeps_vexcWrite h1)
  · exact (keeps_rowCtlWrite h1)
  · exact (keeps_imctlWrite h1)
  · exact (keeps_colmapSet h1)
  · exact (keeps_ctxctlWrite h1)
  · exact (keeps_ctxWordWrite h1)
  · exact (keeps_ctxWordWrite h1)
  · exact (keeps_paceSet h1)
  · exact (keeps_detmodeSet h1)
  · exact (keeps_pshadowSet h1)
  · exact (keeps_pactiveSet h1)
  · exact (keeps_instrWrite h1)
  · exact (keeps_instrWrite h1)
  · exact (keeps_sramWrite h1)
  · exact (keeps_epochWrite h1)
  · exact (keeps_tgWrite h1)
  · exact (keeps_jobWrite h1)
  · exact (keeps_rcommitWrite h1)
  · exact (keeps_collRingWrite h1)
  · exact (keeps_collRingWrite h1)
  · exact (keeps_collDbWrite h1)
  · exact (keeps_collGroupWrite h1)
  · exact (keeps_collGroupWrite h1)
  · exact (keeps_ppsOutWrite h1)
  · exact (keeps_hallsetWrite h1)
  · exact (keeps_ckpCfgWrite h1)
  · exact (keeps_ckpCtlWrite h1)
  · exact (keeps_ckpTargetSet h1)
  · exact (keeps_ckpRctlWrite h1)
  · exact (keeps_ckpAlignedWrite h1)
  · exact (keeps_ckpAlignedWrite h1)
  · exact (keeps_ckpAlignedWrite h1)
  · exact (keeps_ckpRrepWrite h1)
  · exact (keeps_lomCfgWrite h1)
  · exact (keeps_evpostWrite h1)
  · exact (keeps_qctlWrite h1)
  · exact (keeps_hdbWrite h1)
  · exact (keeps_secBctlWrite h1)
  · exact (keeps_secQctlWrite h1)
  · exact (keeps_secDbgctlWrite h1)
  · exact (keeps_windowWrite h1)
  · exact (keeps_windowWrite h1)
  · exact (keeps_fstCtlWrite h1)
  · exact (keeps_fstWindowWrite h1)
  · exact (keeps_solvRingWrite h1)
  · exact (keeps_solvRingWrite h1)
  · exact (keeps_solvDbWrite h1)
  · exact (keeps_guarded h1 (fun _ h20 => (keeps_plainWrite h20)))

theorem keeps_writeReg {s1} {a1} {a2} {a3} {a4} (h1 : Keeps r s1) :
    Keeps r (writeReg s1 a1 a2 a3 a4) := by
  unfold writeReg
  refine keeps_ite ?_ ?_
  · exact (keeps_denied h1)
  · split
    · exact (keeps_writeTo h1)
    · split
      · exact (keeps_refuseAcc h1)
      · exact (keeps_denied h1)

theorem keeps_setDuring {s1} {a1} {a2} (h1 : Keeps r s1) :
    Keeps r (setDuring s1 a1 a2) := by
  unfold setDuring
  split
  · exact (keeps_ite (keeps_setReg h1) h1)
  · exact h1

theorem keeps_execRegisterWrite {a0} {a1} {a2} {a3} {s} (h : Keeps r s) :
    KeepsX r (execRegisterWrite a0 a1 a2 a3 s) := by
  unfold execRegisterWrite
  exact (keepsX_next (keeps_setDuring (keeps_writeReg h)))

theorem keeps_afterRead {s1} {a1} {a2} {a3} {a4} (h1 : Keeps r s1) :
    Keeps r (afterRead s1 a1 a2 a3 a4) := by
  unfold afterRead
  refine keeps_ite ?_ ?_
  · exact h1
  · split
    · exact (keeps_ustatClear h1)
    · extract_lets -merge -underBinder +onlyGivenNames x20 x21
      clear_value x20 x21
      exact (keeps_updHalf h1)
    · split
      · exact h1
      · exact (keeps_setReg h1)
    · exact (keeps_setReg h1)

theorem keeps_setAfter {s1} {a1} {a2} {a3} {a4} (h1 : Keeps r s1) :
    Keeps r (setAfter s1 a1 a2 a3 a4) := by
  unfold setAfter
  refine keeps_ite ?_ ?_
  · split
    · exact (keeps_ite h1 (keeps_updUnit h1))
  · exact (keeps_setReg h1)

theorem keeps_readReg {s1} {a1} {a2} {a3} (h1 : Keeps r s1) :
    Keeps r (readReg s1 a1 a2 a3) := by
  unfold readReg
  refine keeps_ite ?_ ?_
  · exact (keeps_denied h1)
  · split
    · exact (keeps_refuseAcc h1)
    · exact (keeps_denied h1)
    · exact (keeps_answer (keeps_afterRead h1))

theorem keeps_execReadToClear {a0} {a1} {a2} {s} (h : Keeps r s) :
    KeepsX r (execReadToClear a0 a1 a2 s) := by
  unfold execReadToClear
  refine keepsX_next ?_
  extract_lets -merge -underBinder +onlyGivenNames x20
  have h20 : Keeps r x20 := (keeps_readReg h)
  clear_value x20
  split
  · exact (keeps_ite (keeps_setAfter h20) h20)
  · exact h20

theorem keeps_loadFrom {s1} {a1} {a2} (h1 : Keeps r s1) :
    Keeps r (loadFrom s1 a1 a2).1 := by
  unfold loadFrom
  split
  · exact h1
  · exact h1
  · extract_lets -merge -underBinder +onlyGivenNames x20
    have h20 : Keeps r x20 := (keeps_readReg h1)
    clear_value x20
    split
    · exact h20
    · exact h20
  · split
    · exact (keeps_ite1 h1 (keeps_answer h1))

theorem keeps_storeTo {s1} {a1} {a2} {a3} (h1 : Keeps r s1) :
    Keeps r (storeTo s1 a1 a2 a3).1 := by
  unfold storeTo
  split
  · exact h1
  · exact (keeps_setReg h1)
  · extract_lets -merge -underBinder +onlyGivenNames x20
    have h20 : Keeps r x20 := (keeps_writeReg h1)
    clear_value x20
    exact h20
  · split
    · rename_i s21_0 _ e21
      have h21_0 : Keeps r s21_0 := keeps_of_eq1 e21 (keeps_memWrite h1)
      exact (keeps_ite1 h21_0 (keeps_answer h21_0))
    · rename_i s22_0 e22
      have h22_0 : Keeps r s22_0 := keeps_of_eq1 e22 (keeps_memWrite h1)
      exact h22_0

theorem keeps_accessRefused {s1} {a1} {a2} (h1 : Keeps r s1) :
    Keeps r (accessRefused s1 a1 a2) := by
  unfold accessRefused
  split
  · exact (keeps_refuseNext h1)
  · exact h1
  · exact (keeps_refuseNext h1)

theorem keeps_execSld {a0} {a1} {s} (h : Keeps r s) :
    KeepsX r (execSld a0 a1 s) := by
  unfold execSld
  refine keepsX_next ?_
  refine keeps_controlOnly h ?_
  · intro y23 h23
    extract_lets -merge -underBinder +onlyGivenNames x24
    clear_value x24
    refine keeps_ite ?_ ?_
    · exact h23
    · refine keeps_ite ?_ ?_
      · exact (keeps_refuseNext h23)
      · split
        · rename_i s25_0 _ e25
          have h25_0 : Keeps r s25_0 := keeps_of_eq1 e25 (keeps_loadFrom h23)
          exact (keeps_retire (keeps_updCtl h25_0))
        · rename_i s26_0 e26
          have h26_0 : Keeps r s26_0 := keeps_of_eq1 e26 (keeps_loadFrom h23)
          exact (keeps_accessRefused h26_0)

theorem keeps_execSst {a0} {a1} {s} (h : Keeps r s) :
    KeepsX r (execSst a0 a1 s) := by
  unfold execSst
  refine keepsX_next ?_
  refine keeps_controlOnly h ?_
  · intro y23 h23
    refine keeps_ite ?_ ?_
    · exact h23
    · refine keeps_ite ?_ ?_
      · exact (keeps_refuseNext h23)
      · extract_lets -merge -underBinder +onlyGivenNames x24 x25
        clear_value x24 x25
        split
        · rename_i s26_0 e26
          have h26_0 : Keeps r s26_0 := keeps_of_eq1 e26 (keeps_storeTo h23)
          exact (keeps_retire h26_0)
        · rename_i s27_0 e27
          have h27_0 : Keeps r s27_0 := keeps_of_eq1 e27 (keeps_storeTo h23)
          exact (keeps_accessRefused h27_0)

end Sys2Proof.Machine
end

