-- ==== Sys2Proof/Laws/KeepsLinkCmd.lean ====
section
/-! SUPPORT. What each operation of Machine/LinkCmd.lean keeps. -/

namespace Sys2Proof.Machine

variable {r : State}

theorem keeps_mrsp {s1} {a1} {a2} (h1 : Keeps r s1) :
    Keeps r (mrsp s1 a1 a2) := by
  unfold mrsp
  split
  · exact (keeps_lomSend h1)

theorem keeps_mrdApply {s1} {a1} {a2} {a3} (h1 : Keeps r s1) :
    Keeps r (mrdApply s1 a1 a2 a3) := by
  unfold mrdApply
  exact (keeps_mrsp (keeps_readReg h1))

theorem keeps_mwrApply {s1} {a1} {a2} {a3} {a4} (h1 : Keeps r s1) :
    Keeps r (mwrApply s1 a1 a2 a3 a4) := by
  unfold mwrApply
  exact (keeps_mrsp (keeps_writeReg h1))

theorem keeps_execMrd {a0} {a1} {a2} {s} (h : Keeps r s) :
    KeepsX r (execMrd a0 a1 a2 s) := by
  unfold execMrd
  exact (keepsX_next (keeps_ite (keeps_mrdApply h) h))

theorem keeps_execMwr {a0} {a1} {a2} {a3} {s} (h : Keeps r s) :
    KeepsX r (execMwr a0 a1 a2 a3 s) := by
  unfold execMwr
  exact (keepsX_next (keeps_ite (keeps_mwrApply h) h))

theorem keeps_afterWrite {s1} {a1} {a2} (h1 : Keeps r s1) :
    Keeps r (afterWrite s1 a1 a2).1 := by
  unfold afterWrite
  refine keeps_ite1 ?_ ?_
  · extract_lets -merge -underBinder +onlyGivenNames x20
    have h20 : Keeps r x20 := (keeps_writeReg h1)
    clear_value x20
    split
    · exact h20
    · exact h20
    · exact h20
  · exact h1

theorem keeps_execDmaDescriptorComplete {a0} {a1} {s} (h : Keeps r s) :
    KeepsX r (execDmaDescriptorComplete a0 a1 s) := by
  unfold execDmaDescriptorComplete
  refine keepsX_next ?_
  extract_lets -merge -underBinder +onlyGivenNames x20
  clear_value x20
  split
  · exact h
  · split
    · rename_i s21_0 _ e21
      have h21_0 : Keeps r s21_0 := keeps_of_eq1 e21 (keeps_afterWrite h)
      exact (keeps_refillAll (keeps_queueOff (keeps_dmaLeave h21_0)))

theorem keeps_countRetry {s1} {a1} {a2} (h1 : Keeps r s1) :
    Keeps r (countRetry s1 a1 a2) := by
  unfold countRetry
  split
  · split
    · exact (keeps_bumpF h1)
    · exact h1
  · exact (keeps_bumpF h1)
  · exact (keeps_bumpF h1)

theorem keeps_countUncorr {s1} {a1} {a2} (h1 : Keeps r s1) :
    Keeps r (countUncorr s1 a1 a2) := by
  unfold countUncorr
  split
  · split
    · exact (keeps_bumpF h1)
    · exact h1
  · exact (keeps_bumpF h1)
  · exact h1

theorem keeps_afterBadWord {s1} {a1} (h1 : Keeps r s1) :
    Keeps r (afterBadWord s1 a1) := by
  unfold afterBadWord
  split
  · exact (keeps_lomBadWord h1)
  · exact h1

theorem keeps_sendNak {s1} {a1} {a2} (h1 : Keeps r s1) :
    Keeps r (sendNak s1 a1 a2) := by
  unfold sendNak
  exact (keeps_countRetry (keeps_updLink h1))

theorem keeps_sessionFails {s1} {a1} (h1 : Keeps r s1) :
    Keeps r (sessionFails s1 a1) := by
  unfold sessionFails
  split
  · exact (keeps_updLink (keeps_linkDown h1))
  · exact (keeps_endSession (keeps_portGone h1))
  · exact h1

theorem keeps_tagFailure {s1} {a1} {a2} (h1 : Keeps r s1) :
    Keeps r (tagFailure s1 a1 a2) := by
  unfold tagFailure
  extract_lets -merge -underBinder +onlyGivenNames x20 x21
  have h20 : Keeps r x20 := by
    unfold x20
    split
    · exact (keeps_bumpF h1)
    · exact h1
  clear_value x20 x21
  exact (keeps_ite (keeps_sessionFails h20) (keeps_sendNak (keeps_updLink h20)))

theorem keeps_deliverP {s1} {a1} {a2} (h1 : Keeps r s1) :
    Keeps r (deliverP s1 a1 a2) := by
  unfold deliverP
  split
  · exact (keeps_arriveReq h1)
  · exact (keeps_arriveReq h1)
  · exact (keeps_arriveReq h1)
  · exact (keeps_arriveResp h1)
  · exact (keeps_arriveResp h1)
  · exact (keeps_arriveBulk h1)
  · exact (keeps_arriveTime h1)
  · exact (keeps_collArrive keeps_deliver4' h1)

theorem keeps_deliverL {s1} {a1} {a2} (h1 : Keeps r s1) :
    Keeps r (deliverL s1 a1 a2) := by
  unfold deliverL
  extract_lets -merge -underBinder +onlyGivenNames x20
  clear_value x20
  split
  · exact (keeps_mrdApply h1)
  · exact (keeps_mwrApply h1)
  · exact (keeps_descApply h1)
  · exact (keeps_hrspApply h1)
  · exact (keeps_hwackApply h1)
  · exact (keeps_evackApply h1)
  · exact (keeps_imgApply h1)
  · exact h1

theorem keeps_deliverFlit {s1} {a1} {a2} (h1 : Keeps r s1) :
    Keeps r (deliverFlit s1 a1 a2) := by
  unfold deliverFlit
  split
  · exact (keeps_foldl h1 (fun _ _ h20 => (keeps_deliverP h20)))
  · exact (keeps_foldl h1 (fun _ _ h21 => (keeps_deliverL h21)))
  · exact h1

theorem keeps_takeHeader {s1} {a1} {a2} (h1 : Keeps r s1) :
    Keeps r (takeHeader s1 a1 a2) := by
  unfold takeHeader
  extract_lets -merge -underBinder +onlyGivenNames x20 x21
  have h21 : Keeps r x21 := (keeps_updLink (keeps_takeAck h1))
  clear_value x20 x21
  split
  · exact (keeps_dropOldKeys h21)
  · exact (keeps_updLink h21)

theorem keeps_execLinkFlitReceive {a0} {a1} {s} (h : Keeps r s) :
    KeepsX r (execLinkFlitReceive a0 a1 s) := by
  unfold execLinkFlitReceive
  refine keepsX_next ?_
  extract_lets -merge -underBinder +onlyGivenNames x20 x21 x22
  clear_value x20 x21 x22
  refine keeps_ite ?_ ?_
  · exact h
  · refine keeps_ite ?_ ?_
    · exact (keeps_afterBadWord (keeps_sendNak (keeps_countUncorr h)))
    · refine keeps_ite ?_ ?_
      · exact (keeps_tagFailure h)
      · extract_lets -merge -underBinder +onlyGivenNames x23 x24 x25
        have h23 : Keeps r x23 := (keeps_takeHeader h)
        have h24 : Keeps r x24 := (keeps_ite (keeps_countRetry h23) h23)
        clear_value x23 x24 x25
        refine keeps_ite ?_ ?_
        · extract_lets -merge -underBinder +onlyGivenNames x26
          have h26 : Keeps r x26 := (keeps_updLink h24)
          clear_value x26
          exact (keeps_pump (keeps_ite (keeps_deliverFlit h26) h26))
        · exact (keeps_ite (keeps_pump h24) (keeps_pump (keeps_sendNak h24)))

theorem keeps_execLinkNak {a0} {a1} {s} (h : Keeps r s) :
    KeepsX r (execLinkNak a0 a1 s) := by
  unfold execLinkNak
  refine keepsX_next ?_
  refine keeps_ite ?_ ?_
  · extract_lets -merge -underBinder +onlyGivenNames x20 x21
    have h20 : Keeps r x20 := (keeps_takeAck h)
    clear_value x20
    have h21 : Keeps r x21 := by
      unfold x21
      split
      · exact (keeps_dropOldKeys h20)
      · exact h20
    clear_value x21
    exact (keeps_pump (keeps_countRetry h21))
  · exact h

end Sys2Proof.Machine
end

