-- ==== Sys2Proof/Laws/KeepsPins.lean ====
section
/-! SUPPORT. What each operation of Machine/Pins.lean keeps. -/

namespace Sys2Proof.Machine

variable {r : State}

theorem keeps_updPins {s1} {a1} (h1 : Keeps r s1) :
    Keeps r (updPins s1 a1) := by
  unfold updPins
  exact (keeps_mk h1)

theorem keeps_execI3cIndexWrite {a0} {s} (h : Keeps r s) :
    KeepsX r (execI3cIndexWrite a0 s) := by
  unfold execI3cIndexWrite
  refine keepsX_next ?_
  refine keeps_ite ?_ ?_
  · exact h
  · split
    · exact (keeps_done (keeps_updPins h))
    · exact (keeps_accessError h)

theorem keeps_execI3cPrivateRead {s} (h : Keeps r s) :
    KeepsX r (execI3cPrivateRead s) := by
  unfold execI3cPrivateRead
  refine keepsX_next ?_
  refine keeps_ite ?_ ?_
  · exact h
  · extract_lets -merge -underBinder +onlyGivenNames x20
    clear_value x20
    exact (keeps_answer (keeps_updPins h))

theorem keeps_execI3cSetdasa {a0} {s} (h : Keeps r s) :
    KeepsX r (execI3cSetdasa a0 s) := by
  unfold execI3cSetdasa
  exact (keepsX_next (keeps_ite h (keeps_done (keeps_updPins h))))

theorem keeps_execI3cEntdaa {a0} {s} (h : Keeps r s) :
    KeepsX r (execI3cEntdaa a0 s) := by
  unfold execI3cEntdaa
  exact (keepsX_next (keeps_ite h (keeps_answer (keeps_updPins h))))

theorem keeps_execI3cSnapshot {s} (h : Keeps r s) :
    KeepsX r (execI3cSnapshot s) := by
  unfold execI3cSnapshot
  exact (keepsX_next (keeps_ite (keeps_updPins h) h))

theorem keeps_tapCapture {s1} {a1} {a2} (h1 : Keeps r s1) :
    Keeps r (tapCapture s1 a1 a2) := by
  unfold tapCapture
  exact (keeps_answer (keeps_updPins h1))

theorem keeps_tapBoundary {s1} {a1} (h1 : Keeps r s1) :
    Keeps r (tapBoundary s1 a1) := by
  unfold tapBoundary
  exact (keeps_tapCapture (keeps_mk h1))

theorem keeps_execTapExtest {s} (h : Keeps r s) :
    KeepsX r (execTapExtest s) := by
  unfold execTapExtest
  exact (keepsX_next (keeps_ite h (keeps_ite (keeps_tapBoundary h) (keeps_tapCapture h))))

theorem keeps_execTapIdcode {s} (h : Keeps r s) :
    KeepsX r (execTapIdcode s) := by
  unfold execTapIdcode
  exact (keepsX_next (keeps_ite (keeps_tapCapture h) h))

theorem keeps_execTapSamplePreload {s} (h : Keeps r s) :
    KeepsX r (execTapSamplePreload s) := by
  unfold execTapSamplePreload
  exact (keepsX_next (keeps_ite (keeps_tapBoundary h) h))

theorem keeps_execTapDbgChallenge {a0} {s} (h : Keeps r s) :
    KeepsX r (execTapDbgChallenge a0 s) := by
  unfold execTapDbgChallenge
  refine keepsX_next ?_
  refine keeps_ite ?_ ?_
  · exact h
  · extract_lets -merge -underBinder +onlyGivenNames x20 x21
    have h21 : Keeps r x21 := (keeps_ite (keeps_newChallenge h) h)
    clear_value x20 x21
    exact (keeps_tapCapture h21)

theorem keeps_execTapDbgResponse {a0} {a1} {s} (h : Keeps r s) :
    KeepsX r (execTapDbgResponse a0 a1 s) := by
  unfold execTapDbgResponse
  refine keepsX_next ?_
  refine keeps_ite ?_ ?_
  · exact h
  · extract_lets -merge -underBinder +onlyGivenNames x20 x21
    have h21 : Keeps r x21 := (keeps_tapCapture h)
    clear_value x20 x21
    refine keeps_ite ?_ ?_
    · exact h21
    · extract_lets -merge -underBinder +onlyGivenNames x22
      have h22 : Keeps r x22 := (keeps_setWords h21)
      clear_value x22
      exact (keeps_ite (keeps_submitDebug h22) h22)

theorem keeps_execTapBypass {a0} {s} (h : Keeps r s) :
    KeepsX r (execTapBypass a0 s) := by
  unfold execTapBypass
  exact (keepsX_next (keeps_ite h (keeps_tapCapture h)))

theorem keeps_execTapReset {a0} {s} (h : Keeps r s) :
    KeepsX r (execTapReset a0 s) := by
  unfold execTapReset
  exact (keepsX_next (keeps_updPins h))

end Sys2Proof.Machine
end

