-- ==== Sys2Proof/Laws/KeepsTick.lean ====
section
/-! SUPPORT. What each operation of Machine/Tick.lean keeps. -/

namespace Sys2Proof.Machine

variable {r : State}

theorem keeps_countNs {s1} {a1} {a2} (h1 : Keeps r s1) :
    Keeps r (countNs s1 a1 a2) := by
  unfold countNs
  extract_lets -merge -underBinder +onlyGivenNames x20 x21 x22
  have h22 : Keeps r x22 := (keeps_foldl h1 (fun _ _ h23 => (keeps_bumpF h23)))
  clear_value x20 x21 x22
  exact (keeps_foldl h22 (fun _ _ h24 => (keeps_bumpF h24)))

theorem keeps_countFrom {s1} {a1} {a2} (h1 : Keeps r s1) :
    Keeps r (countFrom s1 a1 a2) := by
  unfold countFrom
  exact (keeps_countNs h1)

theorem keeps_tickAll {s} (h : Keeps r s) :
    Keeps r (tickAll s) := by
  unfold tickAll
  extract_lets -merge -underBinder +onlyGivenNames x20 x21
  have h21 : Keeps r x21 := (keeps_tickTime h)
  clear_value x20 x21
  exact (keeps_drainHoists (keeps_drainHoists (keeps_countFrom (keeps_countFrom h21))))

end Sys2Proof.Machine
end

