-- ==== Sys2Proof/Laws/Regs.lean ====
section
/-! SUPPORT. Bit fields, named fields of registers, and the step counter. -/

namespace Sys2Proof.Machine

/-! Bit fields. -/

theorem bits_lt (w hi lo : Nat) : bits w hi lo < 2 ^ (hi - lo + 1) := Nat.mod_lt _ (by positivity)

theorem setBits_toNat {w : W64} {hi lo v : Nat} (h : hi < 64) (l : lo ≤ hi) :
    (setBits w hi lo v).toNat =
      w.toNat / 2 ^ (hi + 1) * 2 ^ (hi + 1) + v % 2 ^ (hi - lo + 1) * 2 ^ lo + w.toNat % 2 ^ lo := by
  obtain ⟨n, rfl⟩ : ∃ n, hi = lo + n := ⟨hi - lo, by omega⟩
  have e : lo + n - lo + 1 = n + 1 := by omega
  simp only [setBits, bits, e, BitVec.toNat_ofNat]
  set W := w.toNat with hW
  have hw : W < 2 ^ 64 := w.isLt
  have d1 : W = W / 2 ^ lo * 2 ^ lo + W % 2 ^ lo := by
    have := Nat.div_add_mod W (2 ^ lo); rw [Nat.mul_comm] at this; omega
  have d2 : W / 2 ^ lo = W / 2 ^ lo / 2 ^ (n + 1) * 2 ^ (n + 1) + W / 2 ^ lo % 2 ^ (n + 1) := by
    have := Nat.div_add_mod (W / 2 ^ lo) (2 ^ (n + 1)); rw [Nat.mul_comm] at this; omega
  have d3 : W / 2 ^ lo / 2 ^ (n + 1) = W / 2 ^ (lo + n + 1) := by
    rw [Nat.div_div_eq_div_mul, ← pow_add]; rfl
  set A := W / 2 ^ (lo + n + 1)
  set B := W / 2 ^ lo % 2 ^ (n + 1)
  set C := W % 2 ^ lo
  have p : 2 ^ (lo + n + 1) = 2 ^ (n + 1) * 2 ^ lo := by rw [← pow_add]; congr 1; omega
  have d4 : W = A * 2 ^ (lo + n + 1) + B * 2 ^ lo + C := by
    rw [d1, d2, d3, p]; ring
  have hC : C < 2 ^ lo := Nat.mod_lt _ (by positivity)
  have hv : v % 2 ^ (n + 1) < 2 ^ (n + 1) := Nat.mod_lt _ (by positivity)
  have hA : A < 2 ^ (64 - (lo + n + 1)) := by
    apply Nat.div_lt_of_lt_mul
    rw [← pow_add]
    rwa [show lo + n + 1 + (64 - (lo + n + 1)) = 64 by omega]
  have lt : A * 2 ^ (lo + n + 1) + v % 2 ^ (n + 1) * 2 ^ lo + C < 2 ^ 64 := by
    have h1 : v % 2 ^ (n + 1) * 2 ^ lo + C < 2 ^ (lo + n + 1) := by rw [p]; nlinarith
    have h2 : 2 ^ 64 = 2 ^ (64 - (lo + n + 1)) * 2 ^ (lo + n + 1) := by rw [← pow_add]; congr 1; omega
    have h3 : (0 : Nat) < 2 ^ (lo + n + 1) := by positivity
    rw [h2]; nlinarith
  rw [Nat.mod_eq_of_lt]
  · omega
  · omega

/-- The field just set holds the low bits of the value. -/
theorem bits_setBits_self {w : W64} {hi lo v : Nat} (h : hi < 64) (l : lo ≤ hi) :
    bits (setBits w hi lo v).toNat hi lo = v % 2 ^ (hi - lo + 1) := by
  rw [setBits_toNat h l]
  unfold bits
  obtain ⟨n, rfl⟩ : ∃ n, hi = lo + n := ⟨hi - lo, by omega⟩
  have e : lo + n - lo + 1 = n + 1 := by omega
  rw [e]
  have p : 2 ^ (lo + n + 1) = 2 ^ (n + 1) * 2 ^ lo := by rw [← pow_add]; congr 1; omega
  have hC : w.toNat % 2 ^ lo < 2 ^ lo := Nat.mod_lt _ (by positivity)
  rw [p, show w.toNat / (2 ^ (n + 1) * 2 ^ lo) * (2 ^ (n + 1) * 2 ^ lo) + v % 2 ^ (n + 1) * 2 ^ lo + w.toNat % 2 ^ lo =
    w.toNat % 2 ^ lo + (w.toNat / (2 ^ (n + 1) * 2 ^ lo) * 2 ^ (n + 1) + v % 2 ^ (n + 1)) * 2 ^ lo by ring,
    Nat.add_mul_div_right _ _ (by positivity), Nat.div_eq_of_lt hC]
  simp [Nat.add_mod]

/-- A field that shares no bit keeps its value. -/
theorem bits_setBits_ne {w : W64} {hi lo v hi' lo' : Nat} (h : hi < 64) (l : lo ≤ hi) (l' : lo' ≤ hi')
    (n : hi < lo' ∨ hi' < lo) : bits (setBits w hi lo v).toNat hi' lo' = bits w.toNat hi' lo' := by
  rw [setBits_toNat h l]
  unfold bits
  set A := w.toNat / 2 ^ (hi + 1)
  set V := v % 2 ^ (hi - lo + 1)
  have hV : V < 2 ^ (hi - lo + 1) := Nat.mod_lt _ (by positivity)
  have hC : w.toNat % 2 ^ lo < 2 ^ lo := Nat.mod_lt _ (by positivity)
  rcases n with n | n
  · obtain ⟨m, rfl⟩ : ∃ m, lo' = hi + 1 + m := ⟨lo' - (hi + 1), by omega⟩
    have lt : V * 2 ^ lo + w.toNat % 2 ^ lo < 2 ^ (hi + 1) := by
      have : 2 ^ (hi + 1) = 2 ^ (hi - lo + 1) * 2 ^ lo := by rw [← pow_add]; congr 1; omega
      rw [this]
      have : (V + 1) * 2 ^ lo ≤ 2 ^ (hi - lo + 1) * 2 ^ lo := Nat.mul_le_mul_right _ hV
      rw [Nat.add_mul] at this
      omega
    have : (A * 2 ^ (hi + 1) + V * 2 ^ lo + w.toNat % 2 ^ lo) / 2 ^ (hi + 1) = A := by
      rw [show A * 2 ^ (hi + 1) + V * 2 ^ lo + w.toNat % 2 ^ lo = (V * 2 ^ lo + w.toNat % 2 ^ lo) + A * 2 ^ (hi + 1) by ring,
        Nat.add_mul_div_right _ _ (by positivity), Nat.div_eq_of_lt lt]; simp
    rw [pow_add _ (hi + 1) m, ← Nat.div_div_eq_div_mul, ← Nat.div_div_eq_div_mul, this]
  · obtain ⟨m, rfl⟩ : ∃ m, lo = hi' + 1 + m := ⟨lo - (hi' + 1), by omega⟩
    have hd : ∀ x : Nat, x / 2 ^ lo' % 2 ^ (hi' - lo' + 1) = x % 2 ^ (hi' + 1) / 2 ^ lo' := by
      intro x
      rw [show 2 ^ (hi' + 1) = 2 ^ lo' * 2 ^ (hi' - lo' + 1) by rw [← pow_add]; congr 1; omega,
        Nat.mod_mul_right_div_self]
    rw [hd, hd]
    congr 1
    have e1 : 2 ^ (hi + 1) = 2 ^ (hi - hi') * 2 ^ (hi' + 1) := by rw [← pow_add]; congr 1; omega
    have e2 : 2 ^ (hi' + 1 + m) = 2 ^ m * 2 ^ (hi' + 1) := by rw [← pow_add]; congr 1; omega
    rw [e1, e2]
    rw [show A * (2 ^ (hi - hi') * 2 ^ (hi' + 1)) + V * (2 ^ m * 2 ^ (hi' + 1)) + w.toNat % (2 ^ m * 2 ^ (hi' + 1)) =
      w.toNat % (2 ^ m * 2 ^ (hi' + 1)) + (A * 2 ^ (hi - hi') + V * 2 ^ m) * 2 ^ (hi' + 1) by ring,
      Nat.add_mul_mod_self_right, Nat.mod_mul_left_mod]

theorem setBits_bits {w : W64} {hi lo : Nat} (h : hi < 64) (l : lo ≤ hi) :
    setBits w hi lo (bits w.toNat hi lo) = w := by
  apply BitVec.eq_of_toNat_eq
  rw [setBits_toNat h l, Nat.mod_eq_of_lt (bits_lt ..)]
  unfold bits
  obtain ⟨n, rfl⟩ : ∃ n, hi = lo + n := ⟨hi - lo, by omega⟩
  have e : lo + n - lo + 1 = n + 1 := by omega
  rw [e]
  have d1 := Nat.div_add_mod w.toNat (2 ^ lo)
  have d2 := Nat.div_add_mod (w.toNat / 2 ^ lo) (2 ^ (n + 1))
  rw [Nat.div_div_eq_div_mul, ← pow_add, show lo + (n + 1) = lo + n + 1 by omega] at d2
  have p : 2 ^ (lo + n + 1) = 2 ^ (n + 1) * 2 ^ lo := by rw [← pow_add]; congr 1; omega
  conv_rhs => rw [← d1, ← d2]
  rw [p]; ring

/-! Named fields. -/

theorem getF_putF_self {s : State} (w : Rising s.mg) (f : Fld) (i v k) (h : f.hi < 64) (l : f.lo ≤ f.hi) :
    getF (putF s f i v k) f i k = v % 2 ^ (f.hi - f.lo + 1) := by
  simp [getF, putF, reg_setReg_self w, bits_setBits_self h l]

theorem getF_putF_ne {s : State} (w : Rising s.mg) (f : Fld) (i v k) {g : Fld} {j m}
    (n : regAddr g.reg j m ≠ regAddr f.reg i k) : getF (putF s f i v k) g j m = getF s g j m := by
  simp [getF, putF, reg_setReg_ne w n]

theorem getF_putF_other {s : State} (w : Rising s.mg) (f : Fld) (i v k) {g : Fld} (e : g.reg = f.reg) (h : f.hi < 64)
    (l : f.lo ≤ f.hi) (l' : g.lo ≤ g.hi) (n : f.hi < g.lo ∨ g.hi < f.lo) :
    getF (putF s f i v k) g i k = getF s g i k := by
  simp [getF, putF, e, reg_setReg_self w, bits_setBits_ne h l l' n]

theorem reg_putF_ne {s : State} (w : Rising s.mg) (f : Fld) (i v k) {r j m} (n : regAddr r j m ≠ regAddr f.reg i k) :
    reg (putF s f i v k) r j m = reg s r j m := reg_setReg_ne w n

theorem getF_setReg_ne {s : State} (w : Rising s.mg) (r i k v) {g : Fld} {j m}
    (n : regAddr g.reg j m ≠ regAddr r i k) : getF (setReg s r i k v) g j m = getF s g j m := by
  simp [getF, reg_setReg_ne w n]

/-! Steps (R29-R31). -/

theorem rowStep_addr {r q : Nat} (hr : r < 64) (hq : q < 64) (n : q ≠ r) : regAddr .rowStep q 0 ≠ regAddr .rowStep r 0 := by
  change blockBase .row q + 0x100 + 0 * 0 ≠ blockBase .row r + 0x100 + 0 * 0
  simp only [blockBase, halfBase]
  omega

theorem foldl_setReg_frame {β : Type} {l : List β} {g : State → β → W64} {a : β → Reg × Nat × Nat} {x : Nat} {s : State}
    (w : Rising s.mg) (n : ∀ b ∈ l, x ≠ regAddr (a b).1 (a b).2.1 (a b).2.2) :
    Rising (l.foldl (fun s b => setReg s (a b).1 (a b).2.1 (a b).2.2 (g s b)) s).mg ∧
    mget mgDefault x (l.foldl (fun s b => setReg s (a b).1 (a b).2.1 (a b).2.2 (g s b)) s).mg = mget mgDefault x s.mg := by
  induction l generalizing s with
  | nil => exact ⟨w, rfl⟩
  | cons b l ih =>
    have := ih (rising_setReg w (a b).1 (a b).2.1 (a b).2.2 (g s b)) fun b hb => n b (by simp [hb])
    exact ⟨this.1, this.2.trans (word_setReg_ne w _ _ _ _ (n b (by simp)))⟩

/-- The counts of a step. -/
def countRows (s : State) (ls : List Nat) : State :=
  ls.foldl (fun s r => setReg s .rowStep r 0 (reg s .rowStep r 0 + 1)) s

theorem countRows_word {s : State} (w : Rising s.mg) (ls : List Nat) {a : Nat} (n : ∀ r ∈ ls, a ≠ regAddr .rowStep r 0) :
    mget mgDefault a (countRows s ls).mg = mget mgDefault a s.mg :=
  (foldl_setReg_frame (a := fun r => (.rowStep, r, 0)) (g := fun s r => reg s .rowStep r 0 + 1) w n).2

theorem countRows_mg_only (s : State) (ls : List Nat) : countRows s ls = { s with mg := (countRows s ls).mg } := by
  unfold countRows
  induction ls generalizing s with
  | nil => rfl
  | cons r ls ih =>
    simp only [List.foldl_cons]
    rw [ih]
    rfl

theorem countRows_rowStep {s : State} (w : Rising s.mg) {ls : List Nat} (nd : ls.Nodup) (lt : ∀ q ∈ ls, q < 64) {r : Nat}
    (h : r ∈ ls) : reg (countRows s ls) .rowStep r 0 = reg s .rowStep r 0 + 1 := by
  unfold countRows
  induction ls generalizing s with
  | nil => simp at h
  | cons q ls ih =>
    have nd' := List.nodup_cons.1 nd
    simp only [List.foldl_cons]
    by_cases e : r = q
    · subst e
      have := (foldl_setReg_frame (l := ls) (a := fun r => (.rowStep, r, 0)) (g := fun s r => reg s .rowStep r 0 + 1)
        (x := regAddr .rowStep r 0) (rising_setReg w .rowStep r 0 (reg s .rowStep r 0 + 1))
        fun q hq => rowStep_addr (lt q (by simp [hq])) (lt r (by simp)) (fun e => nd'.1 (e ▸ hq))).2
      exact this.trans (reg_setReg_self w ..)
    · have hm : r ∈ ls := by simpa [e] using h
      rw [ih (rising_setReg w ..) nd'.2 (fun q hq => lt q (by simp [hq])) hm,
        reg_setReg_ne w (rowStep_addr (lt q (by simp)) (lt r h) e)]

/-- In a plain step the gang's rows count, and nothing else happens. -/
theorem tick_plain {s : State} {l : Nat} (h : PlainStep s l) : tick s l = countRows s (gangRows s l) := by
  have e : seqCtl (countRows s (gangRows s l)) l = seqCtl s l := by
    rw [countRows_mg_only]; rfl
  have c : countLoadWait (paceAnchor s l) l = s := by rw [h.pace]; simp [countLoadWait, h.load]
  unfold tick
  rw [c]
  change stepEvents (countRows s (gangRows s l)) l = _
  simp [stepEvents, landPatches, takeLateHalt, e, h.patches, h.halt]

/-- What a plain step changes: ROW_STEP of the gang's rows. -/
theorem tick_word {s : State} (w : Rising s.mg) {l : Nat} (p : PlainStep s l) {a : Nat}
    (n : ∀ r ∈ gangRows s l, a ≠ regAddr .rowStep r 0) :
    mget mgDefault a (tick s l).mg = mget mgDefault a s.mg := by
  rw [tick_plain p]; exact countRows_word w _ n

theorem tick_rowStep {s : State} (w : Rising s.mg) {l : Nat} (p : PlainStep s l) {r : Nat} (h : r ∈ gangRows s l) :
    reg (tick s l) .rowStep r 0 = reg s .rowStep r 0 + 1 := by
  rw [tick_plain p]
  exact countRows_rowStep w (List.nodup_range.filter _) (fun q hq => by simpa using (List.mem_filter.1 hq).1) h

theorem tick_mg_only {s : State} {l : Nat} (p : PlainStep s l) : tick s l = { s with mg := (tick s l).mg } := by
  rw [tick_plain p]; exact countRows_mg_only _ _

end Sys2Proof.Machine
end

