-- ==== Sys2Proof/Laws/Scalar.lean ====
section
/-! SUPPORT. What the shared operations of the instruction streams answer. -/

namespace Sys2Proof.Machine

variable {s : State}

theorem controlOnly_of_ne {u : Proc} (hu : ∀ l, u ≠ .seq l) (f : State → State) : controlOnly s u f = f s := by
  cases u with
  | seq l => exact absurd rfl (hu l)
  | rcc r => rfl
  | node a b => rfl

theorem satAdd_zero (x : W64) : satAdd 16 (bits x.toNat 47 32) 0 = bits x.toNat 47 32 := by
  have := bits_lt x.toNat 47 32
  simp only [satAdd]; norm_num at *; omega

/-- No flags and no saturations leave the arithmetic flags of a stream as they are. -/
theorem arith_flNone (x : W64) :
    setBits (x ||| BitVec.ofNat 64 flNone.bits.toNat) 47 32 (satAdd 16 (bits x.toNat 47 32) flNone.sat) = x := by
  have h : flNone.bits.toNat = 0 := by decide
  have h2 : flNone.sat = 0 := rfl
  rw [h, h2, satAdd_zero]
  simpa using setBits_bits (w := x) (hi := 47) (lo := 32) (by norm_num) (by norm_num)

theorem retire_eq (u : Proc) (n : Nat) : retire s u n = spend (setCtl s u { getCtl s u with pc := (getCtl s u).pc + 1 }) u n :=
  rfl

/-- A legal scalar instruction that can execute: sD, flags, pc and time. -/
theorem scalarExec_eq (w : Rising s.ctl) {u : Proc} {x : BitVec 56} {legal : Bool} {n : Nat} {v : State → Ctl → W64 × Fl}
    (h : canExec s u = true) (hg : staleWord s u = false) (hl : legal = true) :
    scalarExec s u x legal n v =
      spend (setCtl s u { setSreg (getCtl s u) (fSD x) (v s (getCtl s u)).1 with
        pc := (getCtl s u).pc + 1,
        arith := setBits ((getCtl s u).arith ||| BitVec.ofNat 64 (v s (getCtl s u)).2.bits.toNat) 47 32
          (satAdd 16 (bits (getCtl s u).arith.toNat 47 32) (v s (getCtl s u)).2.sat) }) u n := by
  simp only [scalarExec, fetched, h, hg, hl, if_true, Bool.false_eq_true, if_false, retire]
  rw [updCtl_updCtl w]
  rfl

theorem procNum_seq_rcc (l r : BitVec 6) : procNum (.seq l) ≠ procNum (.rcc r) := by
  have := l.isLt
  simp only [procNum]; omega

/-- A row control core's own update does not touch the steps its gang counts. -/
theorem stepNow_setCtl_rcc (w : Rising s.ctl) (r : BitVec 6) (c : Ctl) (q : Nat) :
    stepNow (setCtl s (.rcc r) c) q = stepNow s q := by
  simp only [stepNow, rowSteps, seqCtl, rowLeader, reg_setCtl, getF_setCtl, seqOf]
  rw [getCtl_setCtl_ne w (procNum_seq_rcc _ _)]

theorem spend_rcc (w : Rising s.ctl) (r : BitVec 6) (c : Ctl) (n : Nat) :
    spend (setCtl s (.rcc r) c) (.rcc r) n = setCtl s (.rcc r) { c with busy := stepNow s r.toNat + n } := by
  simp only [spend, updCtl, getCtl_setCtl_self w, setCtl_setCtl w, stepNow_setCtl_rcc w]

theorem rising_setCtl (w : Rising s.ctl) (u c) : Rising (setCtl s u c).ctl := rising_mset w

end Sys2Proof.Machine
end

