-- ==== Sys2Proof/Laws/Track.lean ====
section
/-! SUPPORT. What a range that becomes undefined leaves alone. -/

namespace Sys2Proof.Machine

theorem mfind_mdrop_keep {α : Type} {p : Nat → Bool} {k : Nat} {m : Map α} (w : Rising m) (n : p k = false) :
    mfind k (mdrop p m) = mfind k m := by
  induction m with
  | nil => rfl
  | cons b r ih =>
    have hr := rising_cons.1 w
    have ih' := ih hr.2
    by_cases hp : p b.1 = true
    · have hk : k ≠ b.1 := fun e => by rw [e, hp] at n; cases n
      have : mdrop p (b :: r) = mdrop p r := by simp [mdrop, hp]
      rw [this, ih']
      simp only [mfind, hk, if_false]
      split
      · rename_i h
        exact mfind_lt fun e he => h.trans (hr.1 e he)
      · rfl
    · have : mdrop p (b :: r) = b :: mdrop p r := by simp [mdrop, hp]
      rw [this]
      simp only [mfind, ih']

variable (s : State)

@[simp] theorem stashFor_hbm (a) : (stashFor s a).hbm = s.hbm := by
  unfold stashFor; split <;> [skip; rfl]
  simp only [stashSlice, updHalf_hbm]; split <;> simp

@[simp] theorem stashFor_smears (a) : (stashFor s a).smears = s.smears := by
  unfold stashFor; split <;> [skip; rfl]
  simp only [stashSlice, updHalf_smears]; split <;> simp

@[simp] theorem stashFor_boots (a) : (stashFor s a).boots = s.boots := by
  unfold stashFor; split <;> [skip; rfl]
  simp only [stashSlice, updHalf_boots]; split <;> simp

theorem foldl_stashFor (ls : List Nat) (f : Nat → Nat) :
    let t := ls.foldl (fun s l => stashFor s (f l)) s
    t.hbm = s.hbm ∧ t.smears = s.smears ∧ t.boots = s.boots := by
  induction ls generalizing s with
  | nil => simp
  | cons l r ih =>
    obtain ⟨h1, h2, h3⟩ := ih (stashFor s (f l))
    exact ⟨by simpa using h1, by simpa using h2, by simpa using h3⟩

/-- Bytes outside a range that becomes undefined read as before. -/
theorem hbmByte_smear_ne {a n x} (w : Rising s.hbm) (o : x < a ∨ a + n ≤ x) : hbmByte (smear s a n) x = hbmByte s x := by
  have key : ∀ t : State, t.hbm = s.hbm → t.smears = s.smears → t.boots = s.boots →
      hbmByte { t with
        hbm := mdrop (fun k => decide (a ≤ k) && decide (k < a + n)) t.hbm
        smears := (a, n, t.free) :: t.smears.filter fun x => !(decide (a ≤ x.1) && decide (x.1 + x.2.1 ≤ a + n))
        free := t.free + 1 } x = hbmByte s x := by
    intro t h1 h2 h3
    have hd : mfind x (mdrop (fun k => decide (a ≤ k) && decide (k < a + n)) s.hbm) = mfind x s.hbm :=
      mfind_mdrop_keep w (by simp; omega)
    have hf : (s.smears.filter fun e => !(decide (a ≤ e.1) && decide (e.1 + e.2.1 ≤ a + n))).find?
        (fun e => decide (e.1 ≤ x) && decide (x < e.1 + e.2.1)) =
        s.smears.find? fun e => decide (e.1 ≤ x) && decide (x < e.1 + e.2.1) := by
      rw [List.find?_filter]
      congr 1; funext e
      by_cases h : e.1 ≤ x ∧ x < e.1 + e.2.1
      · have : ¬ (a ≤ e.1 ∧ e.1 + e.2.1 ≤ a + n) := by omega
        simp [h]; omega
      · simp; intro _ h4; omega
    have hn : (decide (a ≤ x) && decide (x < a + n)) = false := by simp; omega
    simp only [hbmByte, unlistedByte, h1, h2, h3, hd, List.find?_cons, hn, hf]
  unfold smear
  split
  · obtain ⟨h1, h2, h3⟩ := foldl_stashFor s (linesOf a n) (64 * ·)
    exact key _ h1 h2 h3
  · exact key s rfl rfl rfl

end Sys2Proof.Machine
end

