-- ==== Sys2Proof/Machine/Xts.lean ====
section
/-! DEFINITION. What the DRAM dies hold: AES-256-XTS over each 64-byte line (R250, R251; FIPS 197, NIST SP 800-38E, R443),
and the DRAM resources of an offset (R249). -/

namespace Sys2Proof.Machine

/-! The field of AES and its S-box (FIPS 197). -/

/-- Twice a byte in GF(2⁸). -/
def gfDouble (x : Nat) : Nat := if 128 ≤ x then Nat.xor (2 * x) 0x11B else 2 * x

/-- The product of two bytes, over the bits of b. -/
def gfMulBits : Nat → Nat → Nat → Nat
  | 0, _, _ => 0
  | n + 1, a, b => Nat.xor (if b % 2 = 1 then a else 0) (gfMulBits n (gfDouble a) (b / 2))

def gfMul (a b : Nat) : Nat := gfMulBits 8 a b

/-- x²⁵⁴: the inverse, 0 for 0. -/
def gfInv (x : Nat) : Nat :=
  ((List.range 7).foldl (fun (p : Nat × Nat) _ => let q := gfMul p.1 p.1; (q, gfMul p.2 q)) (x, 1)).2

def rotl8 (x n : Nat) : Nat := x * 2 ^ n % 256 + x / 2 ^ (8 - n)

/-- The rotations of a byte by each amount, added up in GF(2⁸). -/
def rotSum (x : Nat) (ns : List Nat) : Nat := ns.foldl (fun a n => Nat.xor a (rotl8 x n)) 0

def sbox (x : Nat) : Nat := Nat.xor (rotSum (gfInv x) [0, 1, 2, 3, 4]) 0x63
def sboxInv (y : Nat) : Nat := gfInv (Nat.xor (rotSum y [1, 3, 6]) 0x05)

/-! The cipher on blocks of 16 bytes. -/

abbrev Cipher16 := List Nat

def xorBlock (a b : Cipher16) : Cipher16 := List.zipWith Nat.xor a b

/-- Byte r of column c moves to the place that row r's rotation by k·r gives it. -/
def shiftRows (k : Nat) (b : Cipher16) : Cipher16 := (List.range 16).map fun i => b.getD ((i + 4 * k * (i % 4)) % 16) 0

/-- Each column times the circulant matrix with first row m. -/
def mixColumns (m : List Nat) (b : Cipher16) : Cipher16 :=
  (List.range 16).map fun i =>
    (List.range 4).foldl (fun a k => Nat.xor a (gfMul (m.getD ((k + 4 - i % 4) % 4) 0) (b.getD (i / 4 * 4 + k) 0))) 0

/-- One more word of the key schedule. -/
def nextKeyWord (ws : List Cipher16) : Cipher16 :=
  let i := ws.length
  let last := ws.getD (i - 1) []
  let t := if i % 8 = 0 then
      xorBlock ((last.drop 1 ++ last.take 1).map sbox) [(List.range (i / 8 - 1)).foldl (fun r _ => gfDouble r) 1, 0, 0, 0]
    else if i % 8 = 4 then last.map sbox else last
  xorBlock (ws.getD (i - 8) []) t

/-- The 15 round keys of a 32-byte key. -/
def roundKeys (key : List Nat) : List Cipher16 :=
  let w0 := (List.range 8).map fun i => (key.drop (4 * i)).take 4
  let ws := (List.range 52).foldl (fun ws _ => ws ++ [nextKeyWord ws]) w0
  (List.range 15).map fun r => ((ws.drop (4 * r)).take 4).flatten

def mixRow : List Nat := [2, 3, 1, 1]
def mixRowInv : List Nat := [14, 11, 13, 9]

def aesEncrypt (key : List Nat) (b : Cipher16) : Cipher16 :=
  let ks := roundKeys key
  let k (i : Nat) : Cipher16 := ks.getD i []
  let b := (List.range 13).foldl (fun b r => xorBlock (mixColumns mixRow (shiftRows 1 (b.map sbox))) (k (r + 1)))
    (xorBlock b (k 0))
  xorBlock (shiftRows 1 (b.map sbox)) (k 14)

def aesDecrypt (key : List Nat) (b : Cipher16) : Cipher16 :=
  let ks := roundKeys key
  let k (i : Nat) : Cipher16 := ks.getD i []
  let undo (b : Cipher16) : Cipher16 := (shiftRows 3 b).map sboxInv
  let b := (List.range 13).foldl (fun b r => mixColumns mixRowInv (xorBlock (undo b) (k (13 - r)))) (xorBlock b (k 14))
  xorBlock (undo b) (k 0)

/-! XTS over a line (R250). -/

/-- Little-endian bytes. -/
def leBytes (n v : Nat) : Cipher16 := (List.range n).map fun i => v / 256 ^ i % 256

def leNat (b : Cipher16) : Nat := b.foldr (fun x a => x + 256 * a) 0

/-- The tweak of the next block of a line. -/
def timesAlpha (t : Nat) : Nat := if 2 ^ 127 ≤ t then Nat.xor (2 * t - 2 ^ 128) 0x87 else 2 * t

/-- The four blocks of a line under key set k, with the cipher of one direction; the tweak is the line's address [47:6]. -/
def xtsLine (cipher : List Nat → Cipher16 → Cipher16) (k : KeySet) (addr : Nat) (line : List Byte) : List Byte :=
  let t0 := leNat (aesEncrypt (leBytes 32 k.tweak.toNat) (leBytes 16 (addr / 64 % 2 ^ 42)))
  (List.range 4).flatMap fun j =>
    let t := leBytes 16 ((List.range j).foldl (fun t _ => timesAlpha t) t0)
    let b := ((line.drop (16 * j)).take 16).map BitVec.toNat
    (xorBlock (cipher (leBytes 32 k.data.toNat) (xorBlock b t)) t).map (BitVec.ofNat 8)

def encryptLine : KeySet → Nat → List Byte → List Byte := xtsLine aesEncrypt
def decryptLine : KeySet → Nat → List Byte → List Byte := xtsLine aesDecrypt

/-- The base die that holds an address. -/
def baseOf (s : State) (a : Nat) : Option Nat := (hbmWhere s a).map fun p => p.1 / 32

/-- The line of address a as its DRAM die holds it: State.hbm, which the base die's adders, checker and tracker work on,
under the keys of the die that holds the line, whichever half wrote it (R251). (Log 159, PRESUMED). -/
def dramLine (s : State) (a : Nat) : Option (List Byte) :=
  (baseOf s a).bind fun b => ((half s (b / 16)).baseKeys.find? fun e => e.1 == b).map fun e =>
    encryptLine e.2 a (hbmBytes s (a / 64 * 64) 64)

/-! DRAM resources (R249). -/

/-- Row, bank group, bank and byte of the page that an offset of a pseudo-channel selects. -/
structure DramPlace where
  row : Nat
  group : Nat
  bank : Nat
  byte : Nat
deriving DecidableEq, Repr

def dramPlace (o : Nat) : DramPlace :=
  ⟨bits o 30 14, Nat.xor (bits o 11 10) (bits o 19 18), Nat.xor (bits o 13 12) (bits o 21 20), bits o 9 0⟩

/-- Channel, pseudo-channel and DRAM resources of an address. -/
def dramOf (s : State) (a : Nat) : Option (Nat × Nat × DramPlace) :=
  (hbmWhere s a).map fun p => (p.1, p.2.1, dramPlace p.2.2)

/-- Does an offset of a pseudo-channel of half h lie in its reserve, which no address maps to? -/
def inReserve (s : State) (h o : Nat) : Bool := decide (pcBytes s h ≤ o) && decide (o < 2 ^ 31)

end Sys2Proof.Machine
end

