-- ==== Sys2Proof/Tests/Slice0.lean ====
section
/-! SUPPORT. Tests: ill-formed commands, single commands against the manual's own figures, and for every statement with
hypotheses a state and operands that meet them. -/

namespace Sys2Proof.Tests

open Sys2Proof.Machine

set_option Elab.async false

/-! Ill-formed commands: one for each check of `Instr.wf`. -/

def leatP : Packet :=
  { daddr := 0, key := 0, epoch := 0, inc := 0, ptype := 0, srcNode := 0, srcHalf := 0, lines := 1,
    aop := 0, fc := 0, sunit := 0, tag := 0, status := 0, repoch := 0, close := false, repro := false, ret := false,
    edge := false, sindex := 0, first := 0, last := 63, data := List.replicate 8 0 }
def shortP : Packet := { leatP with data := [] }
def flit0 : Flit :=
  { seq := 0, ack := 0, kind := 0, vc := 0, cr0 := 0, cr1 := 0, cr2 := 0, session := 1, fecOk := true,
    tagOk := true, pkts := [], lpkts := [] }

theorem test_wf_packet : Instr.wf (.leatReadReq 0 leatP) = true ∧ Instr.wf (.leatReadReq 0 shortP) = false ∧
    Instr.wf (.leatWrite 0 shortP) = false ∧ Instr.wf (.leatAtomic 0 shortP) = false ∧
    Instr.wf (.leatReadResp 0 shortP) = false ∧ Instr.wf (.leatCompletion 0 shortP) = false ∧
    Instr.wf (.leatBulk 0 shortP) = false ∧ Instr.wf (.leatTime 0 shortP) = false ∧ Instr.wf (.leatColl 0 shortP) = false := by
  decide
theorem test_wf_flit : Instr.wf (.linkFlitReceive (.leat 0 0) flit0) = true ∧
    Instr.wf (.linkFlitReceive (.leat 0 0) { flit0 with pkts := [shortP] }) = false := by decide
theorem test_wf_core : Instr.wf (.sli (.node 0 23) 0) = true ∧ Instr.wf (.sli (.node 0 24) 0) = false := by decide
theorem test_wf_size : Instr.wf (.registerWrite (.node 0) 0 9 ⟨0, 0⟩) = false ∧ Instr.wf (.readToClear (.node 0) 0 ⟨9, 0⟩) = false := by decide
theorem test_wf_line : Instr.wf (.memoryWrite 0 0 (List.replicate 64 0)) = true ∧
    Instr.wf (.memoryWrite 0 0 (List.replicate 65 0)) = false ∧ Instr.wf (.memoryWrite 0 0 []) = false ∧
    Instr.wf (.memoryRead 0 63 2 .ok) = false ∧ Instr.wf (.memoryRead 0 0 0 .ok) = false := by decide
theorem test_wf_lomly : Instr.wf (.desc 0 0 []) = false ∧ Instr.wf (.hrsp 0 0 [0]) = false ∧
    Instr.wf (.img 0 0 0 [0]) = false ∧ Instr.wf (.hello 0 0 [] [] 0) = false ∧ Instr.wf (.rekey 0 [] []) = false := by decide
theorem test_wf_numbers : Instr.wf (.leatPortRemove 0 ⟨72, 8⟩) = false ∧ Instr.wf (.domainRampDone 192) = false ∧
    Instr.wf (.spareSlotTestPass 4352 true) = false ∧ Instr.wf (.opticalMarginScan 0 9 []) = false := by decide
theorem test_wf_scan : Instr.wf (.tapBypass 0x01) = false ∧ Instr.wf (.tapDbgResponse 0 []) = false ∧
    Instr.wf (.tileApertureAccess 0 true 4 []) = false ∧ Instr.wf (.tileApertureAccess 0 false 4 [0]) = false := by decide

/-! States the witnesses use. -/

/-- `State.Canon` as a Bool. -/
def canonB (s : State) : Bool :=
  mwf mgDefault s.mg && Memory.wf s.hbm && mwf (fun _ => coreZero) s.cores && mwf (fun _ => ctlZero) s.ctl &&
    mwf (fun _ => linkZero) s.links

theorem canon_of {s : State} (h : canonB s = true) : s.Canon := by
  simp only [canonB, Bool.and_eq_true] at h
  exact ⟨h.1.1.1.1, h.1.1.1.2, h.1.1.2, h.1.2, h.2⟩

/-- Both halves in state `st`, every domain on, input power present. -/
def powered (st : Nat) : State :=
  let s := { State.reset with pins := { pinsZero with input := true, pwrGood := true, tapReset := false } }
  let s := setReg (setReg (setReg s .pwrDomstat 0 0 (-1)) .pwrDomstat 0 1 (-1)) .pwrDomstat 0 2 0xFFFFFFFFFFFFF
  putF (putF s F.DEV_HALF_STATE 0 st 0) F.DEV_HALF_STATE 0 st 1

def live : State := powered hsRunning
def n0 : Requester := .node 0

/-- The gang of row 0 runs the given program. -/
def runs (ws : List W64) : State :=
  { setGangState live 0 gsRunning with progs := [(0, ⟨0, 0, 0, ws, some 0, [], [], []⟩), (192, ⟨1, 0, 0, ws, some 0, [], [], []⟩)] }

theorem canon_live : canonB live = true := by decide +kernel
theorem canon_runs : canonB (runs [0]) = true := by decide +kernel

/-! Witnesses: streams. -/

/-- One entry at the head of a queue of row 0's leader. -/
def queued (q : Nat) (op : BitVec 8) (w : BitVec 56) (ps : List W64) : State :=
  updSeq (runs [0]) 0 fun c => pushEntry c q ⟨0, op, w, 0, 0, ps, 0, 0⟩

def head0 (_ : Nat) (op : BitVec 8) (w : BitVec 56) (ps : List W64) : QEntry := ⟨0, op, w, 0, 0, ps, 0, 0⟩

theorem wit_ScalarIntegerResults : (runs [0]).Canon ∧ (canExec (runs [0]) (.seq 0) = true ∧ staleWord (runs [0]) (.seq 0) = false ∧ staleWord live (.node 1 23) = false ∧
    canExec (runs [0]) (.rcc 0) = true ∧ canExec live (.node 1 23) = true ∧ strayBits 0 (mSD + mIMM32) = false ∧
    strayBits 0 (mSD + 0x3F * 2 ^ 40) = false ∧ aluLegal 0 = true ∧ aluLegal 0x100FFFFFFFF = true) :=
  ⟨canon_of canon_runs, by decide +kernel⟩

theorem wit_ScalarFloatResults : (∀ l, Proc.rcc 0 ≠ .seq l) ∧ strayBits 0 (mSD + mSA + mSB + 7) = false ∧ bits (5 : BitVec 56).toNat 2 0 ≤ 5 ∧
    strayBits 5 (mSD + mSA + mSB + 7) = false ∧ strayBits 8 (mSD + mSA + 0x1F) = false ∧
    bits (bits (8 : BitVec 56).toNat 3 0) 3 2 ≤ 2 ∧ bit (bits (8 : BitVec 56).toNat 3 0) 0 = false := ⟨fun _ => nofun, by decide⟩

/-- A control core whose branch at address 1 of three words stays inside. -/
theorem wit_ControlStreamJumps : ((progOf (runs [0, 0, 0]) (.rcc 0)).words.length = 3) ∧
    brTaken 0 (sreg (getCtl (runs [0, 0, 0]) (.rcc 0)) 0) (sreg (getCtl (runs [0, 0, 0]) (.rcc 0)) 0) = true ∧
    brTaken 1 0 0 = false ∧ strayBits 2 (mSD + mSA + mSB + mIMM32) = false ∧ fSD 2 ≤ 5 ∧ sIMM32 2 = 2 := by
  decide +kernel

theorem wit_ScalarLoadsAndStores : loadTarget (.rcc 0) (blockBase .row 0 + 0x7FFF8) = .sram 0 0x3FFF8 ∧
    loadTarget (.rcc 0) (regAddr .rowMark 0 0) = .reg (regAddr .rowMark 0 0) ∧ loadTarget (.node 0 0) 64 = .mem 0 64 ∧
    (readReg live n0 (regAddr .rowMark 0 0) 8).resp = .value 0 ∧
    (writeReg live n0 (regAddr .coreVtrap 0 0) 8 7).resp = .ok := by decide +kernel

theorem wit_RowControlCommands :
    let s := updCtl (runs [0]) (.rcc 0) fun c => { c with full := 0x8000 }
    s.Canon ∧ (canExec s (.rcc 0) = true ∧ strayBits 15 (mSD + 0xF) = false ∧
      bit (getCtl s (.rcc 0)).full.toNat 15 = true ∧ rowLeader s 0 < 64) :=
  ⟨canon_of (by decide +kernel), by decide +kernel⟩

theorem wit_SequencerControl : strayBits 0xFF 0xFF = false ∧ strayBits 0xFFFFFFFF mIMM32 = false ∧
    drained (seqCtl (runs [0]) 0) = true ∧ drained (seqCtl (queued 1 0x20 0 []) 0) = false ∧
    seqLive (runs [0]) 0 = true ∧ frozen (seqCtl (runs [0]) 0) = false ∧ staleWord (runs [0]) (.seq 0) = false := by
  decide +kernel
theorem wit_SequencerControl_bubbles :
    let s := updSeq (runs [0]) 0 fun c => { c with waiting := true }
    let t := updSeq (setReg (queued 1 0x21 0 []) .rowStep 0 0 1) 0 fun c => { c with arr := { c.arr with mlw := some 0 } }
    bubbleWaits (runs [0]) 0 .token = false ∧ bubbleWaits s 0 .token = true ∧
      frozen (seqCtl (updSeq s 0 fun c => { c with draining := some .brake }) 0) = true ∧ bubbleWaits t 0 .loadRule = true := by decide +kernel

theorem wit_LoopsBreaksAndDecisions :
    let p : List W64 := [0x0200000000000000, 0, 0x0400000000000000]
    let s := runs p
    let t := updSeq s 0 fun c => setSreg { c with loops := [⟨1, 2, 1, true⟩] } 0 3
    matchEndl p 0 = some 2 ∧ (seqCtl s 0).loops.length < 4 ∧ bits (sreg (seqCtl s 0) 0).toNat 31 0 = 0 ∧
      bits (sreg (seqCtl t 0) 0).toNat 31 0 = 3 ∧ canExec t (.seq 0) = true ∧ (seqCtl t 0).loops = [⟨1, 2, 1, true⟩] := by
  decide +kernel

theorem wit_LoopsBreaksAndDecisions_posting :
    let s := updCtl (updSeq (runs [0, 0, 0]) 0 fun c => { c with loops := [⟨1, 2, 0, false⟩] }) (.rcc 0) fun c =>
      { c with posted := 1, dec := [(0, 7)] }
    canExec s (.seq 0) = true ∧ posting s 0 0 = some 7 ∧ posting (runs [0]) 0 0 = none ∧
      strayBits 0 (0x7F * 2 ^ 49) = false ∧ decideTargetOk (progOf (runs [0, 0, 0]) (.seq 0)).words 0 2 = true := by
  decide +kernel

theorem wit_TokensAndDispatch : queueOf 0x93 = 3 ∧ queueFull (seqCtl (runs [0]) 0) 3 = false ∧
    strayBits 0x10000000000000 (0x1F * 2 ^ 51 + 0xFF * 2 ^ 21 + 2 ^ 20) = false ∧
    namedQueues (bits (0x10000000000000 : BitVec 56).toNat 55 51) = [1] ∧
    bit (bits (0x10000000000000 : BitVec 56).toNat 55 51) 0 = false ∧
    groupAllowed (targetOf (.seq 0)) (opGroup 0x93) = true ∧ insertedWait (runs [0]) (.seq 0) = none ∧
    strayBits 0xC000000000000 (0x7FF * 2 ^ 45 + 0xFF * 2 ^ 21) = false ∧
    bits (0xC000000000000 : BitVec 56).toNat 55 51 = 1 ∧ bit (0xC000000000000 : BitVec 56).toNat 50 = true ∧
    (getTok (seqCtl (runs [0]) 0) 255).count = 0 ∧ mwf (fun _ => tokZero) (seqCtl (runs [0]) 0).tok = true := by decide +kernel

theorem wit_CompletionsAndSummaries :
    let f : Flight := ⟨0, 1, 0x20, some 3, 0, 0, [], false, 0, 0⟩
    let s := updSeq (runs [0]) 0 fun c => { c with flights := [f] }
    let t := updSeq (runs [0]) 0 fun c => { c with flights := [{ f with reported := true }] }
    ((seqCtl s 0).flights.find? (fun f => f.id == 0 && !f.reported && f.op != 0x09) = some f) ∧
      f.due ≤ procStep s (.seq 0) ∧ (seqCtl s 0).vexc = none ∧
      ((seqCtl t 0).flights.find? (fun f => f.id == 0 && f.reported) = some { f with reported := true }) := by decide +kernel

theorem wit_WeightPlanesLoadAndSwap :
    let s := queued 1 0x20 0 [0, 0, 0, 0, 0, 0]
    let t := queued 1 0x21 0 [0, 0, 0, 0, 0, 0]
    let e := head0 1 0x20 0 [0, 0, 0, 0, 0, 0]
    issueLive s (.seq 0) = true ∧ headOf s (.seq 0) 1 opMlw = .ready e ∧ awaitsTable (seqCtl s 0) 0 0 = false ∧
      mWordCheck opMlw 0 = none ∧ mlwCheck 0 [0, 0, 0, 0, 0, 0] = none ∧ (wDesc [0, 0, 0, 0, 0, 0]).cmp = false ∧
      ((seqCtl s 0).arr.mlw.all fun t => decide (t + 128 ≤ stepNow s 0)) = true ∧
      (seqCtl s 0).arr.msw = none ∧ headOf t (.seq 0) 1 opMsw = .ready (head0 1 0x21 0 [0, 0, 0, 0, 0, 0]) ∧
      mWordCheck opMsw 0 = none ∧ (seqCtl t 0).arr.slot ≤ stepNow t 0 := by decide +kernel

theorem wit_ArrayStreams :
    ∀ x ∈ [(opMma, (0 : Nat)), (opMga, 9), (opMdistL1, 7), (opMdistL2, 8), (opMminplus, 5), (opMmaxplus, 7), (opMcmp, 0)],
      let w := BitVec.ofNat 56 (x.2 * 2 ^ 52)
      let ps : List W64 := [BitVec.ofNat 64 (8192 * 2 ^ 50), 0, 0, 0]
      let s := queued 1 (BitVec.ofNat 8 x.1) w ps
      headOf s (.seq 0) 1 x.1 = .ready (head0 1 (BitVec.ofNat 8 x.1) w ps) ∧ mWordCheck x.1 w = none ∧
        mmaCheck x.1 w ps (gangPlane s 0) (trInForce (seqCtl s 0) 0) = none ∧ (seqCtl s 0).arr.slot ≤ stepNow s 0 ∧
        (seqCtl s 0).arr.rows ≤ 255 ∧ awaitsTable (seqCtl s 0) 0 0 = false := by decide +kernel

theorem wit_AccumulatorAndMslSequences :
    let ps : List W64 := [BitVec.ofNat 64 (6 * 2 ^ 60), BitVec.ofNat 64 (2 ^ 22),
      BitVec.ofNat 64 (2 * 2 ^ 50 + 3 * 2 ^ 36 + 4 * 2 ^ 22 + 5 * 2 ^ 8), BitVec.ofNat 64 (6 * 2 ^ 50)]
    let s := queued 1 (BitVec.ofNat 8 opMgd) 0 ps
    let t := queued 1 (BitVec.ofNat 8 opMsl) 0 ps
    headOf s (.seq 0) 1 opMgd = .ready (head0 1 (BitVec.ofNat 8 opMgd) 0 ps) ∧ mWordCheck opMgd 0 = none ∧
      trPassCheck (trInForce (seqCtl s 0) 0) 128 128 [] = none ∧
      headOf t (.seq 0) 1 opMsl = .ready (head0 1 (BitVec.ofNat 8 opMsl) 0 ps) ∧ mWordCheck opMsl 0 = none ∧
      mslCheck ps = none ∧ (seqCtl t 0).arr.slot ≤ stepNow t 0 ∧ (seqCtl t 0).arr.rows ≤ stepNow t 0 := by decide +kernel

theorem wit_TailraceConfiguration :
    let s := queued 4 0x80 0 [0, 0, 0, 0]
    headOf s (.seq 0) 4 0x80 = .ready (head0 4 0x80 0 [0, 0, 0, 0]) ∧ trCheck 0 [0, 0, 0, 0] = none ∧
      trTload [0, 0, 0, 0] = false ∧ issueLive s (.seq 0) = true := by decide +kernel

def vw (fc fc2 ctl n vd va vb vc men : Nat) : BitVec 56 :=
  BitVec.ofNat 56 (fc * 2 ^ 52 + fc2 * 2 ^ 48 + ctl * 2 ^ 44 + (n - 1) * 2 ^ 31 + vd * 2 ^ 26 + va * 2 ^ 21 + vb * 2 ^ 16 +
    vc * 2 ^ 11 + men * 2 ^ 7)

theorem wit_VectorInstructionsIssue :
    ∀ x ∈ [(opVadd, vw 10 0 0 1 1 2 3 0 0), (opVmul, vw 10 0 0 1 1 2 3 0 0), (opVfma, vw 10 0 0 1 1 2 3 4 0),
      (opVwmul, vw 10 0 0 4 1 2 3 0 0), (opVdot4, vw 10 0 0 4 1 2 3 4 0), (opVmax, vw 10 0 0 1 1 2 3 0 0),
      (opVmin, vw 13 0 0 1 1 2 3 0 0), (opVcmp, vw 10 0 5 1 7 2 3 0 0), (opVsel, vw 10 0 0 1 1 2 3 0 1),
      (opVsum, vw 10 0 0 1 1 2 0 0 0), (opVperm, vw 10 0 0 4 1 2 0 4 0), (opVcvt, vw 10 0 0 1 1 2 0 0 0),
      (opVld, vw 10 0 0 1 1 2 0 0 0), (opVst, vw 10 0 0 1 1 2 0 0 0), (opVexp, vw 10 0 0 1 1 2 0 0 0),
      (opVlog2, vw 10 0 0 1 1 2 0 0 0), (opVrcp, vw 10 0 0 1 1 2 0 0 0), (opVrsq, vw 10 0 0 1 1 2 0 0 0),
      (opVtanh, vw 10 0 0 1 1 2 0 0 0), (opVsig, vw 10 0 0 1 1 2 0 0 0), (opSumq, vw 12 0 5 1 15 2 0 0 0),
      (opSumq, vw 12 0 0 1 15 2 0 0 0)],
      let op := BitVec.ofNat 8 x.1
      let s := queued 2 op x.2 []
      headOf s (.seq 0) 2 x.1 = .ready (head0 2 op x.2 []) ∧ vCheck x.1 (vFields x.2) = none ∧
        vMayIssue (seqCtl s 0).vfl (vFlight (arrUses (seqCtl s 0).arr) 0 op (vFields x.2) 0) = true ∧ sumqBlocked s 0 15 = false := by decide +kernel

theorem wit_VectorExceptions :
    let v : Vexc := ⟨head0 2 0x40 (vw 10 0 0 1 1 2 3 0 0) [], [((0, 63), none)], [], [], []⟩
    let s := updSeq (runs [0]) 0 fun c => { c with vexc := some v }
    rowLeader s 0 = 0 ∧ (seqCtl s 0).vexc = some v ∧ (v.faulting.any fun y => y.1 == (0, 63) && y.2.isNone) = true ∧
      (∀ h ∈ vShares (runs [0]) 0 (head0 2 0x40 (vw 10 0 0 1 1 2 3 0 0) []) [(0, 0)] [], h.exc = none) := by decide +kernel

theorem wit_HoistInstructionsIssue :
    ∀ x ∈ [(opHget, (0 : BitVec 56)), (opHput, 0), (opHcp, 0), (opHatom, 0x50000000000000)],
      let op := BitVec.ofNat 8 x.1
      let s := queued 3 op x.2 [0, 0, 0, 0, 0, 0]
      headOf s (.seq 0) 3 x.1 = .ready (head0 3 op x.2 [0, 0, 0, 0, 0, 0]) ∧
        hoistCheck (.seq 0) x.1 x.2 (hoistDesc [0, 0, 0, 0, 0, 0]) = none := by decide +kernel
theorem wit_HoistInstructionsIssue_refused : hoistCheck (.seq 0) opHatom 0 (hoistDesc [0, 0, 0, 0, 0, 0]) = some rcBadFormat := by
  decide +kernel

/-! Witnesses: rows, memory, registers. -/

theorem wit_GangCommands : live.Canon ∧ (gate live n0 true (regAddr .rowCtl 0 0) = none ∧ rowLeader live 0 = 0 ∧
    lent live 0 = false ∧ gangFit live 0 = true ∧ residentHalted live 0 = false ∧ gangState live 0 = gsStopped ∧
    gangState (setGangState live 0 gsHalted) 0 = gsHalted ∧ gangState (runs [0]) 0 = gsRunning ∧ lent (runs [0]) 0 = false ∧
    (∀ p ∈ (seqCtl (bringBack live 0) 0).patches, p.reg < 64) ∧ gate live (.node 1) true (regAddr .rowCtl 63 0) = none) :=
  ⟨canon_of canon_live, by decide +kernel⟩

theorem wit_RowRegisterWrites : gate live n0 true (regAddr .rowPshadow 0 63) = none ∧
    mget zNat 63 (seqCtl live 0).landed ≠ stepNow live 0 + 1 ∧ gate live n0 true (regAddr .rowPactive 0 63) = none ∧ gate live n0 true (regAddr .rowBank1 0 8191) = none ∧
    gate live n0 true (regAddr .rowBank0 0 0) = none ∧ activeBank live 0 = 0 ∧ gate live n0 true (regAddr .rowImctl 0 0) = none ∧
    getF live F.ROW_IMCTL_GEN0 0 = 0 ∧ bits ((1 : W64) <<< (48 : Nat)).toNat 63 48 = 1 ∧
    gate live n0 true (regAddr .rowColmap 0 7) = none := by decide +kernel
theorem wit_RowRegisterWrites_landed :
    let s := updSeq live 0 fun c => { c with landed := mset zNat 63 (stepNow live 0 + 1) c.landed }
    mget zNat 63 (seqCtl s 0).landed = stepNow s 0 + 1 ∧ gate s n0 true (regAddr .rowPshadow 0 63) = none := by decide +kernel
theorem wit_RowRegisterWrites_map : (∀ k ∈ mapAfter live 0 0 (reg live .rowColmap 0 0), k ≤ 67) ∧
    (mapAfter live 0 0 (reg live .rowColmap 0 0)).Nodup ∧ ¬ (mapAfter live 0 0 0).Nodup ∧
    (∃ k ∈ mapAfter live 0 0 68, 67 < k) := by decide +kernel
theorem wit_RowRegisterWrites_pace :
    let s := setOwner live 2 0 2
    gate s n0 true (regAddr .rowPace 0 0) = none ∧ gangRows s (rowLeader s 0) = [0] ∧ reserveFits s 0 none = true ∧
      ownerOf s 2 0 = 2 ∧ ownerOf live 2 0 ≠ 2 ∧ pacePoint 1179 ≠ none ∧ pacePoint 1180 = none ∧
      gate live n0 true (regAddr .rowDetmode 0 0) = none := by decide +kernel
theorem wit_RowRegisterWrites_reserve :
    let s := setOwner live 2 0 2
    ∃ op, pacePoint 100 = some op ∧ (opLimits s 0).1 ≤ op ∧ op ≤ (opLimits s 0).2 ∧ reserveFits s 0 (some op) = true :=
  ⟨1, by decide +kernel⟩

theorem wit_ContextsAndPrograms :
    let s := setGangState (putF live F.ROW_CTXCTL_CVALID 0 3) 0 gsSwitching
    rowLeader s 0 = 0 ∧ gangState s 0 = gsSwitching ∧ drained (seqCtl s 0) = true ∧ nextCtx s 0 = some 1 := by decide +kernel
/-- A one-word image for a row control core, and one for a node core that runs off its end. -/
theorem wit_ContextsAndPrograms_image :
    let im : List W64 := [0x4943534D00010100, 1, 0, 0, 0x1000000000000000]
    headerOk im = true ∧ (programOf im).target.toNat = targetOf (.rcc 0) ∧ loadRefusal (.rcc 0) im = none ∧ targetOf (.rcc 0) ≠ 0 ∧
      loadRefusal (.rcc 0) [] = some (rcBadHeader, none) ∧ nodeLive live 0 = true ∧ activeBank live 0 = 0 := by decide +kernel

theorem wit_WatchdogLimits :
    let s := setReg (putF (runs [0]) F.ROW_CTXCTL_WDOG_LIMIT 0 5) .rowStep 0 0 5
    rowLeader s 0 = 0 ∧ lent s 0 = false ∧ gangState s 0 = gsRunning ∧ getF s F.ROW_CTXCTL_WDOG_LIMIT 0 = 5 ∧
      rowSteps s 0 - (seqCtl s 0).boundary = 5 ∧ rowSteps (setReg s .rowStep 0 0 4) 0 = 4 ∧
      gate live n0 true (regAddr .rowCtxctl 0 0) = none ∧ ownerOf (setOwner live 2 0 1) 2 0 = 1 ∧ ownerOf live 2 0 ≠ 1 := by
  decide +kernel

theorem wit_ReleasesAtPodTime :
    let s := updSeq (putF (runs [0]) F.ROW_PACE_PACE_ACTIVE 0 1) 0 fun c => { c with paceTgt := 1000 }
    let c := seqCtl s 0
    rowLeader s 0 = 0 ∧ gangState s 0 = gsRunning ∧ getF s F.ROW_PACE_PACE_ACTIVE 0 ≠ 0 ∧ c.paceTgt ≠ 0 ∧
      c.paceN + c.paceRel ≤ rowSteps s 0 ∧ c.paceT0.toNat + ceilDiv (c.paceRel * 1000) c.paceTgt ≤ (podTime s 0).toNat ∧
      (podTime s 0).toNat < (seqCtl (updSeq s 0 fun c => { c with paceT0 := 1 }) 0).paceT0.toNat := by decide +kernel
theorem wit_ReleasesAtPodTime_barrier :
    let r : CollRun := ⟨0, [BitVec.ofNat 64 (opStartBarrier * 2 ^ 56)], 0, 0, [], [], [0], some 0, false, none⟩
    ∃ s, releasing s 0 0 = [r] :=
  ⟨updHalf (putF (putF live F.LEAT_JOB_VALID 0 1 0) F.COLL_GROUP_W0_VALID 0 1 0) 0 fun x =>
    { x with colls := [⟨0, [BitVec.ofNat 64 (opStartBarrier * 2 ^ 56)], 0, 0, [], [], [0], some 0, false, none⟩] }, by decide +kernel⟩

theorem wit_BurstBucketAndClamp : live.Canon ∧ (fantailLive live 0 = true ∧ burstW live 0 < 65535 ∧ 0 ≤ burstW live 0 ∧
    (half (updHalf live 0 fun x => { x with bucketOn := true }) 0).bucketOn = true) :=
  ⟨canon_of canon_live, by decide +kernel⟩

/-! Witnesses: memory, the Lomly link, the leat. -/

/-- Half 0 with a window of four mapped channels of stack 0 and its length set. -/
def mapped : State :=
  let s := [0, 1, 2, 3].foldl (fun s c => putF s F.HBM_CHST_STATE c 0) live
  putF (putF s F.HBM_MAPCFG_MODE 0 0) F.HBM_WINLEN_LENGTH 0 (4 * 2 ^ 31) 0

theorem canon_mapped : canonB mapped = true := by decide +kernel

theorem wit_MemoryAndApertureAccesses : memStatus mapped 0 0 = 0 ∧ memStatus mapped 0 (2 ^ 39) ≠ 0 ∧
    seamHeld mapped 0 0 = false ∧ inAperture 0 = false ∧ trackerHolds mapped 0 = false := by decide +kernel
theorem wit_MemoryAndApertureAccesses_held :
    let s := { mapped with seamPause := true }
    let t := updHalf mapped 0 fun x => { x with ckp := { x.ckp with armed := true, spans := [(0, 2 ^ 30)] } }
    memStatus s 1 0 = 0 ∧ seamHeld s 1 0 = true ∧ memStatus t 0 0 = 0 ∧ seamHeld t 0 0 = false ∧ trackerHolds t 0 = true ∧
      memStatus (powered hsLoaded) 1 0 = stHalfDown := by decide +kernel
theorem wit_MemoryAndApertureAccesses_tile :
    let a := apBase + 2 ^ 20 - 1
    inAperture a = true ∧ slotServes live (apSlot a) = true ∧ a % 2 ^ 20 + 1 ≤ 2 ^ 20 ∧ 2 ^ 20 < a % 2 ^ 20 + 2 := by
  decide +kernel

theorem wit_AtomicsReadModifyWrite : memStatus mapped 0 8 = 0 ∧ (8 : Nat) % (fcWidth 13 / 8) = 0 ∧ 8 < hbmEnd ∧
    mfind 8 (half mapped (addrHalf 8)).accs = none ∧ [0x5, 0xA, 0xB, 0xC, 0xD].contains 13 = true ∧
    4 % (fcWidth 13 / 8) ≠ 0 := by decide +kernel

theorem wit_ReproducibleSumsIgnoreOrder : [f32Num 0x3F800000, f32Num 0x3F000000].Perm [f32Num 0x3F000000, f32Num 0x3F800000] :=
  List.Perm.swap ..

theorem wit_EpochsAndOrderedAdds :
    let s := putF (putF live F.HBM_REPOCH_OPEN 0 1 15) F.HBM_REPOCH_TIMEOUT 0 1 15
    live.Canon ∧ (gate live n0 true (regAddr .hbmRepoch 0 15) = none ∧ getF live F.HBM_REPOCH_OPEN 0 15 = 0 ∧
      gate s n0 true (regAddr .hbmRepoch 0 15) = none ∧ getF s F.HBM_REPOCH_OPEN 0 15 = 1 ∧
      getF s F.HBM_REPOCH_TIMEOUT 0 15 ≠ 0 ∧ hallTime s 0 < (getEpoch s 0 15).opened + 10000 * getF s F.HBM_REPOCH_TIMEOUT 0 15) := ⟨canon_of canon_live, by decide +kernel⟩
theorem wit_EpochsAndOrderedAdds_ready :
    let a : Add64 := ⟨0, 0, 0, 1, .nobody, false, none, none, false⟩
    let s := updHalf (putF live F.HBM_REPOCH_OPEN 0 1 0) 0 fun x => { x with adds := [a] }
    (half s 0).adds.find? (fun a : Add64 => a.epoch == 0 && addReady (getEpoch s 0 0) (half s 0).adds a) = some a ∧
      channelOff s a.addr = false ∧ channelOff (putF mapped F.HBM_CHST_STATE 0 1) a.addr = true := by
  decide +kernel

theorem wit_ChannelServices :
    let s := setOwner live 3 1023 2
    let v : W64 := BitVec.ofNat 64 (2 ^ 63 + 2 * 2 ^ 60 + 5 * 2 ^ 56)
    gate s (.node 1) true (regAddr .hbmTgCtl 1023 0) = none ∧ bits v.toNat 61 60 = 2 ∧ ownerOf s 3 1023 = 2 ∧
      bits v.toNat 59 56 ≤ 5 ∧ bit v.toNat 62 = false ∧ getF s F.HBM_CHST_STATE 1023 = 2 ∧
      getF s F.HBM_TG_STAT_BUSY 1023 = 0 ∧ getF (putF s F.HBM_TG_STAT_BUSY 1023 1) F.HBM_TG_STAT_BUSY 1023 = 1 ∧
      domainOn s (domStack (1023 / 32)) = true := by decide +kernel
theorem wit_ChannelServices_scrub :
    let s := setReg (putF (setOwner live 3 0 1) F.HBM_CHST_STATE 0 0) .hbmTgCtl 0 0 0x1000000000000000
    let t := updHalf s 0 fun x => { x with cfg := { x.cfg with chantest := [(0, 0x8000000000000000)] } }
    scrubOn t 0 = true ∨ scrubOn s 0 = true := by decide +kernel

theorem wit_RegisterAccesses : regAt (regAddr .secQnonce 0 7) = some (.secQnonce, 0, 7) ∧
    gate live n0 true (regAddr .secQnonce 0 7) = none ∧ inRange .secQnonce 0 = true ∧
    regAt (regAddr .leatCfg 0 0) = some (.leatCfg, 0, 0) ∧ inRange .leatCfg 0 = false ∧
    gate live n0 true (regAddr .leatCfg 0 0) = none ∧ gate live n0 false (regAddr .lomCnt 0 0) = none ∧
    regAt (regAddr .lomCnt 0 0) = some (.lomCnt, 0, 0) ∧ blockOn live .lom 0 = true ∧
    blockOn (setDomain live (domRow 0) false) .row 0 = false ∧
    gate (setDomain live (domRow 0) false) n0 false (regAddr .rowQstat 0 0) = none := by decide +kernel

theorem wit_DoorbellsAccumulate : live.Canon ∧ (gate live (.host 0) true (regAddr .lomHdb 0 63) = none ∧
    gate live n0 false (regAddr .lomHdb 0 63) = none ∧ blockOn live .lom 0 = true) :=
  ⟨canon_of canon_live, by decide +kernel⟩

theorem wit_QueuesDisable :
    let d : Dma := ⟨0, 15, List.replicate 8 0, true, 0, 0, 0, 0⟩
    let s := updLom (putF live F.LOM_QCTL_EN 0 1 15) 0 fun l => { l with dmas := [d], stopping := [15] }
    let t := updLom (putF live F.LOM_QCTL_EN 0 1 15) 0 fun l => { l with dmas := [{ d with started := false }] }
    s.Canon ∧ (gate s n0 true (regAddr .lomQctl 0 15) = none ∧ getF s F.LOM_QCTL_EN 0 15 = 1 ∧
      ((getLom s 0).dmas.filter fun d => d.q == 15).any (fun d => d.started) = true ∧ dmaAfter d = false ∧
      ((getLom s 0).dmas.filter fun d => d.q == 15).filter (fun d => d.started) = [d] ∧
      ((getLom t 0).dmas.filter fun d => d.q == 15).any (fun d => d.started) = false ∧
      inRange .lomQctl (setBits 0x0100000000000000 63 63 0) = true) := ⟨canon_of (by decide +kernel), by decide +kernel⟩

/-- Half 0's Lomly link is up on port 0, a session standing. -/
def linked : State :=
  putF (putF (putF live F.LOM_STAT_P0_STATE 0 2) F.LOM_STAT_SSTATE 0 2) F.LOM_STAT_SESSION 0 1

theorem wit_LomlyPortsAndFlits : live.Canon ∧ linked.Canon ∧ (halfState live 0 ≠ hsOff ∧ lomPort live 0 0 < 2 ∧
    domainOn live (domOptic (lomEngine live 0 0)) = true ∧ (getUnit live utOptic (lomEngine live 0 0)).st ≠ 3 ∧
    lomUp live 0 = false ∧ lomPort linked 0 0 = 2 ∧ lomActive linked 0 = 0 ∧ lomPort linked 0 1 ≠ 2 ∧
    lomPort (putF linked F.LOM_STAT_P1_STATE 0 2) 0 1 = 2) :=
  ⟨canon_of canon_live, canon_of (by decide +kernel), by decide +kernel⟩
theorem wit_LomlyPortsAndFlits_flit :
    let s := updLink linked (lomKey 0) fun x => { x with session := 1 }
    linkLive s (.lomly 0 0) = true ∧ sessionKnown s (.lomly 0 0) flit0 = true ∧ typesLegal (.lomly 0 0) flit0 = true ∧
      (let rx := (getLink (takeHeader s (.lomly 0 0) flit0) (linkKey (.lomly 0 0))).rx;
        flit0.seq.toNat = rx % 65536 ∧ 65535 ≠ rx % 65536 ∧ (rx + 65535 + 65536 - 65535) % 65536 < 32768 ∧
          2 ≠ rx % 65536 ∧ 32768 ≤ (rx + 65535 + 65536 - 2) % 65536) ∧
      linkLive (updLink (setReg (putF live F.LEAT_PORT_STATE 0 2 71) .leatLink 0 63 0x8FF0000000000000) (leatKey 0 63) fun x =>
        { x with session := 1 }) (.leat 0 63) = true := by decide +kernel

theorem wit_LomlyPacketsAndDma :
    let r : HostReq := ⟨5, 0, false, 0, 0, 1⟩
    let d : Dma := ⟨0, 0, [0, 0, 0, 64, 0, 0, 0, 0], false, 0, 0, 0, 0⟩
    let s := updLink (updLom linked 0 fun l => { l with hreqs := [r], dmas := [d], events := [⟨1, 1, 0, 0, 0, [], false⟩] })
      (lomKey 0) fun x => { x with cr := [1, 1, 1] }
    lomLive s 0 = true ∧ (getLom s 0).hreqs.find? (fun r => r.tag == 5 && !r.read) = some r ∧ halfState s 0 ≠ hsBoot ∧
      0 < (getLink s (lomKey 0)).cr.getD 2 0 ∧ (getLom s 0).events.find? (fun e => !e.sent) = some ⟨1, 1, 0, 0, 0, [], false⟩ ∧
      gate s n0 true (regAddr .lomEvpost 0 0) = none ∧
      (getLom s 0).dmas.find? (fun d => d.q == 0 && !d.started) = some d ∧ (running (getLom s 0)).length < 8 ∧
      dmaFence d = false := by decide +kernel

/-- Region 0 of half 0: valid, readable and writable, 64 bytes from address 0, any time, source set 0 with source 0. -/
def regioned : State :=
  let s := setReg mapped .leatSrcinc 0 0 1
  setReg (setWords s .leatRegion 0 0 [0xF000000000000000, 0, 64, 0, -1]) .leatSset 0 0 1
def leatP1 : Packet := { leatP with inc := 1 }

theorem wit_LeatRequestsAndAnswers :
    let s := setReg mapped .leatSrcinc 0 0 1
    bits leatP1.daddr.toNat 63 56 = myNode s 0 ∧ fenced s 0 leatP1 = false ∧ bits (regionWord s 0 0 1) 31 16 = leatP1.epoch.toNat ∧
      bit (regionWord s 0 0 0) 63 = false ∧ fenced s 0 { leatP1 with inc := 2 } = true ∧
      bits (regionWord s 0 0 1) 31 16 ≠ ({ leatP1 with epoch := 1 } : Packet).epoch.toNat := by decide +kernel
theorem wit_LeatRequestsAndAnswers_accept :
    (verdict regioned 0 { leatP1 with ptype := 0 } (reach leatP1)).2 = .accept 0 true ∧
      (verdict regioned 0 { leatP1 with ptype := 1 } (reach leatP1)).2 = .accept 0 true ∧
      (verdict regioned 0 { leatP1 with ptype := 2 } (reach leatP1)).2 = .accept 0 true ∧
      (verdict regioned 0 { leatP1 with daddr := 1 } 64).2 = .refuse ltBounds ∧
      (verdict regioned 0 { leatP1 with key := 1 } 64).2 = .refuse ltKey ∧
      atomLegal 0 13 = true := by decide +kernel
/-- Each check of R311 in its turn, at region 0 of half 0. -/
theorem wit_LeatRequestsAndAnswers_checks :
    let w (s : State) (n : Nat) : Nat := regionWord s 0 0 n
    let listed (s : State) : Bool := bit (reg s .leatSset 0 (8 * bits (w s 0) 59 54 + srcOf leatP1 / 64)).toNat (srcOf leatP1 % 64)
    let set (n : Nat) (v : W64) : State := setReg regioned .leatRegion 0 n v
    bit (w regioned 0) 63 = true ∧ bits (w regioned 1) 63 32 = leatP1.key.toNat ∧ listed regioned = true ∧
      bits (w (set 1 0x100000000) 1) 63 32 ≠ leatP1.key.toNat ∧ listed (setReg regioned .leatSset 0 0 0) = false ∧
      ¬ w (set 3 1000) 3 ≤ hallTime (set 3 1000) 0 ∧ within 40 (hallTime (set 3 1000) 0) 1000 = false ∧
      w regioned 3 ≤ hallTime regioned 0 ∧ w regioned 4 = 2 ^ 64 - 1 ∧ bit (w (set 0 0xC000000000000000) 0) 61 = false ∧
      bits (w regioned 2) 43 0 < firstLine { leatP1 with ptype := 1 } 64 + reach { leatP1 with ptype := 1 } ∧
      firstLine { leatP1 with ptype := 1 } 0 + reach { leatP1 with ptype := 1 } ≤ bits (w regioned 2) 43 0 ∧
      halfRunning regioned 0 = true ∧ halfRunning (putF regioned F.DEV_HALF_STATE 0 hsService 0) 0 = false := by decide +kernel
theorem wit_LeatRequestsAndAnswers_answer :
    let r : LeatReq := ⟨0, 0, leatP, [], 0, true, .nobody⟩
    let s := updHalf live 0 fun x => { x with reqs := [r] }
    (half s 0).reqs.find? (fun r => r.tag == leatP.tag.toNat && ((3 : BitVec 4) == 3) == (r.pkt.ptype == 0)) = some r ∧
      (half s 0).reqs.find? (fun r => r.tag == (0 : BitVec 16).toNat) = some r ∧ fenced (setReg s .leatSrcinc 0 0 1) 0 leatP1 = false ∧
      bits leatP1.daddr.toNat 63 56 = myNode s 0 ∧ leatP.status = 0 ∧ leatP.lines ≠ 0 := by decide +kernel
theorem wit_LeatRequestsAndAnswers_message :
    let m : GwMsg := ⟨3, 0, 0, 0, true, .pkg 0, 0, 0, 0, 0, 64, 1, .nobody⟩
    (half (updHalf live 0 fun x => { x with msgs := [m] }) 0).msgs.find? (fun m => m.id == 3) = some m := by decide +kernel

theorem wit_LeatJobsAndLinks :
    let v : W64 := BitVec.ofNat 64 (2 ^ 63 + 2047)
    let s := setReg live .leatStage 0 2 65536
    live.Canon ∧ (gate live n0 true (regAddr .leatRcommit 0 0) = none ∧ bit v.toNat 63 = true ∧
      regionLegal 0 (fun n => (reg s .leatStage 0 n).toNat) = true ∧
      reuseLegal (regionWord s 0 2047) (fun n => (reg s .leatStage 0 n).toNat) = true ∧
      regionLegal 0 (fun n => (reg (setReg s .leatStage 0 0 (-1)) .leatStage 0 n).toNat) = false ∧
      gate live n0 true (regAddr .leatJob 0 15) = none ∧ slotBusy live 0 15 = false ∧
      portState (putF live F.LEAT_PORT_STATE 0 2 71) 0 71 = 2) := ⟨canon_of canon_live, by decide +kernel⟩
theorem wit_LeatJobsAndLinks_train :
    let s := putF (putF live F.LEAT_PORT_STATE 0 1 71) F.LEAT_PORT_LINK 0 63 71
    let s := setReg s .leatLink 0 63 (-1)
    (portsOf s 0 63).filter (fun p => portState s 0 p == 1) ≠ [] ∧ bit (reg s .leatLink 0 63).toNat 51 = true ∧
      linkUp (putF s F.LEAT_PORT_STATE 0 2 71) 0 63 = true := by decide +kernel

/-! Witnesses: time, collectives, checkpoints. -/

theorem wit_TimeExchangesAndSources :
    let s := putF (putF live F.TB_CFG_POD_ROLE 0 1) F.TB_CFG_HALL_ROLE 0 1
    let b := putF (putF live F.TB_CFG_POD_ROLE 0 3) F.TB_CFG_HALL_ROLE 0 3
    let p := putF live F.TB_CFG_PPS_IN_EN 0 1
    live.Canon ∧ (canExchange s 0 = true ∧ getF s F.TB_CFG_POD_ROLE 0 = 1 ∧ getF s F.TB_CFG_HALL_ROLE 0 = 1 ∧
      getF s F.TB_CFG_PPS_IN_EN 0 = 0 ∧ getF b F.TB_CFG_POD_ROLE 0 = 3 ∧ getF b F.TB_CFG_HALL_ROLE 0 = 3 ∧
      domainOn p (domTime 0) = true ∧ (half p 0).rst = false ∧ getF p F.TB_CFG_PPS_IN_EN 0 = 1 ∧
      getF (putF p F.TB_STAT_HALL_STATE 0 tsLocked) F.TB_STAT_HALL_STATE 0 = tsLocked ∧
      gate live n0 true (regAddr .tbHallset 0 0) = none ∧ getF live F.TB_CFG_HALL_ROLE 0 ≠ 2 ∧
      getF (putF live F.TB_CFG_HALL_ROLE 0 2) F.TB_CFG_HALL_ROLE 0 = 2 ∧ (half live 0).tb.pod.took = false ∧
      (half live 0).tb.hall.took = false ∧ (half (updClk live 0 podCounter fun x => { x with took := true }) 0).tb.pod.took = true ∧
      (half (updClk live 0 hallCounter fun x => { x with took := true }) 0).tb.hall.took = true) := ⟨canon_of canon_live, by decide +kernel⟩

theorem wit_TimeExchangesAndSources_offsets :
    let s := putF live F.TB_CFG_POD_ROLE 0 2
    let q (kind : W64) : Packet := { leatP with data := [5, kind, 0, 0, 0, 0, 0, 0] }
    offsetOf s 0 podCounter 5000 ≤ -40960000 ∧ getF (putF s F.TB_STAT_POD_STATE 0 tsAcquiring) F.TB_STAT_POD_STATE 0 = tsAcquiring ∧
      getF s F.TB_CFG_POD_ROLE 0 = 2 ∧ canExchange { s with pins := { s.pins with refLost := true } } 0 = false ∧
      getF s F.TB_CFG_HALL_ROLE 0 = 0 ∧ bits leatP.daddr.toNat 63 56 = myNode s 0 ∧ fenced s 0 (q 0) = true ∧
      fenced (setReg s .leatSrcinc 0 0 1) 0 { q 2 with inc := 1 } = false ∧
      bit (((q 2).data.getD 1 0).toNat) 1 = true ∧ bit (((q 0).data.getD 1 0).toNat) 1 = false := by decide +kernel
/-- Pod time 1.1 s: an edge that old is overdue, a backup master of either counter has waited long enough. -/
theorem wit_TimeExchangesAndSources_overdue :
    let s := putF (putF (setReg live .tbPod 0 0 1100000000) F.TB_CFG_POD_ROLE 0 3) F.TB_CFG_HALL_ROLE 0 3
    podSince live 0 (half live 0).tb.edge < 1100000000 ∧ 1100000000 ≤ podSince s 0 (half s 0).tb.edge ∧
      getF s F.TB_CFG_POD_ROLE 0 = 3 ∧ 10000 ≤ podSince s 0 (half s 0).tb.pod.heard ∧ getF s F.TB_CFG_HALL_ROLE 0 = 3 ∧
      1000000 ≤ podSince s 0 (half s 0).tb.hall.heard := by decide +kernel

theorem wit_PpsOutputNeedsItsBall :
    let s := setOwner live 1 0 1
    gate s n0 true (regAddr .tbCfg 0 0) = none ∧ ownerOf s 1 0 = 1 ∧ ownerOf live 1 0 ≠ 1 ∧
      bit (0x100000000000 : W64).toNat 44 = true ∧ getF (putF s F.TB_CFG_PPS_OUT_EN 0 1) F.TB_CFG_PPS_OUT_EN 0 = 1 ∧
      ppsHigh (putF s F.TB_CFG_PPS_OUT_EN 0 1) 0 = true := by
  decide +kernel

/-- Rings of 32 slots at 4 KiB and 8 KiB of half 0's HBM; the host may write the doorbell of neither. -/
def ringed : State := putF (putF live F.COLL_SQ_SQ_LOG2 0 5) F.COLL_CQ_CQ_LOG2 0 5

theorem wit_CollectivesStart :
    let legal (v : W64) := doorbellLegal (getF ringed F.COLL_SQ_SQ_LOG2 0) (getF ringed F.COLL_CQ_CQ_LOG2 0)
      (getF ringed F.COLL_DB_SQ_TAIL 0) (half ringed 0).collHead (half ringed 0).collTail (getF ringed F.COLL_DB_CQ_HEAD 0)
      (bits v.toNat 15 0) (bits v.toNat 31 16)
    ringed.Canon ∧ (gate ringed n0 true (regAddr .collDb 0 0) = none ∧ legal 32 = true ∧ legal 33 = false) :=
  ⟨canon_of (by decide +kernel), by decide +kernel⟩

/-- A descriptor of an operation of group 63 stands at the head of the ring. -/
def posted (op : Nat) : State :=
  hbmStore (putF ringed F.COLL_DB_SQ_TAIL 0 1) 0 (toBytes 8 (op * 2 ^ 60 + 63 * 2 ^ 46) ++ List.replicate 56 0)

theorem wit_CollectivesStart_ready :
    ∀ op ∈ [opAllReduce, opReduceScatter, opAllGather, opBroadcast, opAllToAll, opBarrier, opStartBarrier],
      halfRunning (posted op) 0 = true ∧ collPosted (posted op) 0 ≠ 0 ∧ cdGroup (collHeadWords (posted op) 0) = 63 ∧
        cdOp (collHeadWords (posted op) 0) = op ∧ (runOf (posted op) 0 63).isNone = true ∧
        ((getRuns (posted op) 0).filter launched).length < collEngines (posted op) 0 := by decide +kernel

theorem wit_CollectivesSettle :
    let r : CollRun := ⟨63, [BitVec.ofNat 64 (opBarrier * 2 ^ 60 + 63 * 2 ^ 46)], 0, 0, [], [], [], none, false, none⟩
    let q : CollRun := { r with words := [BitVec.ofNat 64 (opStartBarrier * 2 ^ 60 + 63 * 2 ^ 46)] }
    let n : Notice := ⟨3, 0, 0, 0, false⟩
    let s := updHalf live 0 fun x => { x with colls := [r] }
    let t := updHalf live 0 fun x => { x with colls := [q] }
    runOf s 0 63 = some r ∧ r.done = none ∧ lacking s 0 r ≠ [] ∧ runOf t 0 63 = some q ∧ cdOp q.words = opStartBarrier ∧
      collRank t 0 63 = 0 ∧ getF t F.LEAT_JOB_DRAINED 0 (collSlot t 0 63) = 1 ∧ q.arrived.contains 0 = false ∧
      pickNotice [n] = some n ∧ hallTime (putF s F.COLL_CFG_TMO_MS 0 1) 0 < r.launch + collTmo (putF s F.COLL_CFG_TMO_MS 0 1) 0 r ∧
      (let u := setReg (putF s F.COLL_CFG_TMO_MS 0 1) .tbHall 0 0 1000000; r.launch + collTmo u 0 r ≤ hallTime u 0) ∧
      1 < collP (putF t F.COLL_GROUP_W0_PM1 0 1 63) 0 63 := by decide +kernel
theorem wit_CollectivesSettle_packet :
    let r : CollRun := ⟨63, [BitVec.ofNat 64 (opBarrier * 2 ^ 60 + 63 * 2 ^ 46)], 1, 0, [], [], [], none, false, none⟩
    let s := updHalf (setReg live .leatSrcinc 0 0 1) 0 fun x => { x with colls := [r] }
    let p : Packet := { leatP1 with data := [0, 0, 0, 0, 63, 0, 0, 0] }
    bits p.daddr.toNat 11 0 = getF s F.LEAT_CFG_POD 0 ∧ bits p.daddr.toNat 63 56 = myNode s 0 ∧ cpGroup p = 63 ∧
      fenced s 0 p = false ∧ fenced live 0 p = true ∧ getF s F.LEAT_JOB_EPOCH 0 (collSlot s 0 63) = p.epoch.toNat ∧
      getF s F.LEAT_JOB_KEY 0 (collSlot s 0 63) = p.key.toNat ∧
      getF s F.LEAT_JOB_KEY 0 (collSlot s 0 63) ≠ ({ p with key := 1 } : Packet).key.toNat ∧
      getF s F.LEAT_JOB_EPOCH 0 (collSlot s 0 63) ≠ ({ p with epoch := 1 } : Packet).epoch.toNat ∧ runOf s 0 63 = some r ∧
      cpKind p ≠ 4 ∧ cpKind { p with data := [0, 0, 0, 0, 63, 0, 4, 0] } = 4 ∧ halfRunning s 0 = true ∧
      halfRunning (putF s F.DEV_HALF_STATE 0 hsBoot) 0 = false ∧ 32768 ≤ (p.tag.toNat + 65536 - r.seq) % 65536 ∧ r.seq = ({ p with tag := 1 } : Packet).tag.toNat := by decide +kernel

theorem wit_CheckpointsTakeACut :
    let e := putF live F.CKP_CFG_EN 0 1
    let at' (st : Nat) := putF e F.CKP_STAT_STATE 0 st
    live.Canon ∧ (gate live n0 true (regAddr .ckpCfg 0 0) = none ∧ ckState live 0 = ckIdle ∧
      inRange .ckpCfg (setBits (reg live .ckpCfg 0 0) 63 63 1) = true ∧ ckpConfigBad live 0 0 = false ∧
      getF e F.CKP_CFG_EN 0 = 1 ∧ halfRunning e 0 = true ∧ gate e n0 true (regAddr .ckpCtl 0 0) = none ∧
      gate e n0 true (regAddr .ckpTarget 0 0) = none ∧ ckState (at' ckHolding) 0 = ckHolding ∧
      ckState (at' ckArrived) 0 = ckArrived ∧ braking (at' ckBraking) 0 = true ∧ jobHalted (at' ckBraking) 0 = false ∧
      getF (putF e F.CKP_CFG_TRIG 0 1) F.CKP_CFG_TRIG 0 = 1 ∧ (reg (setReg e .ckpPeriod 0 0 1) .ckpPeriod 0 0).toNat ≠ 0 ∧
      (let d := setReg e .tbPod 0 0 (2 ^ 40); (half d 0).ckp.since + 1000000 * getF d F.CKP_CFG_TMO_MS 0 ≤ (podTime d 0).toNat) ∧
      (podTime (putF e F.CKP_CFG_TMO_MS 0 1) 0).toNat < (half e 0).ckp.since + 1000000 * getF (putF e F.CKP_CFG_TMO_MS 0 1) F.CKP_CFG_TMO_MS 0) :=
  ⟨canon_of canon_live, by decide +kernel⟩
theorem wit_CheckpointsTakeACut_bad :
    let s := putF (putF (putF live F.CKP_REGION_W0_VALID 0 1 15) F.CKP_REGION_W0_BASE 0 (2 ^ 41) 15) F.CKP_REGION_W1_SIZE 0 65536 15
    ckpConfigBad s 0 0 = true := by decide +kernel
theorem wit_CheckpointsTakeACut_brake :
    let s := updSeq (runs [0]) 0 fun c => { c with draining := some .brake }
    rowLeader s 0 = 0 ∧ gangState s 0 = gsRunning ∧ (seqCtl s 0).draining = some .brake ∧ drained (seqCtl s 0) = true := by
  decide +kernel
theorem wit_CheckpointsTakeACut_copy :
    let s := updCkp (putF live F.CKP_STAT_STATE 0 ckCopying) 0 fun c => { c with spans := [(65536, 65536)] }
    ckState s 0 = ckCopying ∧ nextPage (half s 0).ckp = some 1 ∧ (copyPage s 0 1).2 ≠ 0 := by decide +kernel
theorem wit_CheckpointsTakeACut_cut :
    let s := putF live F.CKP_STAT_STATE 0 ckBraking
    ckState s 0 = ckBraking ∧ jobHalted s 0 = false ∧
      ((jobContexts s 0).all fun c => (half s 0).ckp.braked.contains c) = true ∧ engineJoined s 0 = true ∧
      epochOpen s 0 = false ∧ epochOpen (putF s F.HBM_REPOCH_OPEN 0 1 15) 0 = true ∧
      nextPage (half s 0).ckp = none ∧ ckState (putF s F.CKP_STAT_STATE 0 ckCopying) 0 = ckCopying ∧
      nextPage { (half s 0).ckp with spans := [(65536, 65536)] } = some 1 := by decide +kernel

theorem wit_RestoresVerifyThenCommit :
    let v := updCkp (putF live F.CKP_RSTAT_RSTATE 0 rsVerified) 0 fun c => { c with verified := true }
    live.Canon ∧ (gate live n0 true (regAddr .ckpRctl 0 0) = none ∧ rsState live 0 ≠ rsVerifying ∧
      rsState live 0 ≠ rsCommitting ∧ rsState v 0 = rsVerified ∧ (half v 0).ckp.verified = true ∧
      (half v 0).ckp.shards.all (layoutOk v 0) = true ∧ headWord (half v 0).ckp.header 2 = (reg v .ckpRstep 0 0).toNat ∧
      headWord (half v 0).ckp.header 1 = (reg v .ckpRjob 0 0).toNat ∧
      (reg v .devId 0 0).toNat ≠ headWord (half v 0).ckp.header 6 ∧
      rsState (putF live F.CKP_RSTAT_RSTATE 0 rsVerifying) 0 = rsVerifying ∧
      rsState (putF live F.CKP_RSTAT_RSTATE 0 rsCommitting) 0 = rsCommitting ∧ ([] : List Byte).length < 256 ∧
      256 ≤ (List.replicate 256 (0 : Byte)).length) := ⟨canon_of canon_live, by decide +kernel⟩

/-! Witnesses: trust dies, units, streams, power, pins, solver, seam. What depends on a primitive that the model leaves free
(a signature, a point on the curve) has that as a premise. -/

def booting : State := powered hsBoot
theorem canon_booting : canonB booting = true := by decide +kernel

theorem wit_TrustDiesBootAndLaunch :
    let a := putF booting F.SEC_BSTAT_STAGE 0 sgAwait
    let l := putF (putF a F.LOM_STAT_P0_STATE 0 2) F.LOM_STAT_SSTATE 0 2
    booting.Canon ∧ (halfState booting 0 = hsBoot ∧ secStage booting 0 = 0 ∧ getF booting F.SEC_BSTAT_CODE 0 = 0 ∧
      domainOn booting (domTrust 0) = true ∧ booting.pins.debugOnly = false ∧ lomLive l 0 = true ∧ halfState l 0 = hsBoot ∧
      secStage l 0 = sgAwait ∧ gate l (.host 0) true (regAddr .secBctl 0 0) = none ∧ imageCheck l 0 = 2 ∧
      (getSec booting 0).requests < 2 ^ 20 ∧
      2 ^ 20 ≤ (getSec (updSec booting 0 fun x => { x with requests := 2 ^ 20 }) 0).requests) :=
  ⟨canon_of canon_booting, by decide +kernel⟩

theorem wit_QuotesCoverMeasurements :
    let s := putF live F.SEC_QCTL_BUSY 0 1
    live.Canon ∧ (gate live n0 true (regAddr .secQctl 0 0) = none ∧ getF live F.SEC_QCTL_BUSY 0 ≠ 1 ∧
      getF s F.SEC_QCTL_BUSY 0 = 1 ∧ committing live 0 = false ∧ committing (putF live F.FST_STAT_STATE 0 2) 0 = true ∧
      (getSec live 0).quote = none ∧ (getSec (updSec live 0 fun x => { x with quote := some [] }) 0).quote = some []) :=
  ⟨canon_of canon_live, by decide +kernel⟩

theorem wit_DebugUnlocksByChallenge :
    let c := updSec live 0 fun x => { x with challenge := true, fails := 2 }
    let n := updHalf live 0 fun x => { x with cfg := { x.cfg with dbgUnlock := false } }
    live.Canon ∧ (gate live n0 true (regAddr .secDbgctl 0 0) = none ∧ (half live 0).cfg.dbgUnlock = true ∧
      (getSec live 0).lockout = false ∧ (getSec live 0).challenge = false ∧ (half n 0).cfg.dbgUnlock = false ∧
      (getSec c 0).challenge = true ∧ 2 ≤ (getSec c 0).fails ∧ live.pins.debugOnly = false) :=
  ⟨canon_of canon_live, by decide +kernel⟩
theorem wit_DebugUnlocksByChallenge_ok (h : responseOk live 0 = true) :
    responseOk (updSec live 0 fun x => { x with challenge := true }) 0 = true := h

theorem wit_HandshakesMakeSessions :
    let x : Handshake := ⟨1, [], 0, 0, 2, 1, false⟩
    let s := putF (putF live F.LOM_STAT_P0_STATE 0 2) F.SEC_BSTAT_STAGE 0 4
    let t := updLom (putF s F.LOM_STAT_SSTATE 0 2) 0 fun l => { l with hs := some x }
    live.Canon ∧ (handshakes s 0 = true ∧ lomActive s 0 = 0 ∧ (getLom s 0).lockout = false ∧ getF s F.LOM_STAT_SSTATE 0 < 2 ∧
      getF s F.SEC_BSTAT_CODE 0 ≠ 1 ∧ handshakes live 0 = false ∧ (getLom t 0).hs = some x ∧ x.step = 1 ∧
      getF (putF t F.LOM_CFG_HOSTAUTH 0 1) F.LOM_CFG_HOSTAUTH 0 ≠ 0 ∧ getF t F.LOM_CFG_HOSTAUTH 0 ≠ 1 ∧
      lomLive t 0 = true ∧ getF t F.LOM_STAT_SSTATE 0 ≠ 3 ∧ getF (putF t F.LOM_STAT_SSTATE 0 3) F.LOM_STAT_SSTATE 0 = 3) :=
  ⟨canon_of canon_live, by decide +kernel⟩

theorem wit_HandshakesMakeSessions_forwarded :
    let s := putF (putF (putF (putF live F.LOM_STAT_P0_STATE 1 2) F.LOM_STAT_SSTATE 1 2) F.LOM_CFG_XMGMT 1 1) F.SEC_BSTAT_STAGE 0 1
    live.Canon ∧ forwarded live 0 = false ∧ forwarded s 0 = true ∧ (getLom s 0).lockout = false ∧ getF s F.SEC_BSTAT_CODE 0 ≠ 1 :=
  ⟨canon_of canon_live, by decide +kernel⟩

theorem wit_UnitsTestedAndCommanded :
    let s := updUnit live utRow 63 fun u => { u with pending := true }
    let t := updUnit live utRow 63 fun u => { u with st := 2 }
    let a := updUnit live utRow 63 fun u => { u with st := 2, admission := true, back := 3 }
    unitOf 1 utRow 63 = true ∧ hasTest utRow = true ∧ unitOn s utRow 63 = true ∧ (getUnit s utRow 63).pending = true ∧
      (getUnit s utRow 63).st ≠ 2 ∧ unitBusy s utRow 63 = false ∧ unitBusy (setGangState s 63 gsRunning) utRow 63 = true ∧
      (getUnit t utRow 63).st = 2 ∧ (getUnit t utRow 63).pending = false ∧ (getUnit t utRow 63).causes = [] ∧ (getUnit a utRow 63).admission = true := by decide +kernel
theorem wit_UnitsTestedAndCommanded_slice :
    let s := updHalf live 0 fun x => { x with cfg := { x.cfg with rowtest := [(0, 0x8000000000000000)] } }
    let s := putF s F.ROW_CTXCTL_CVALID 0 0
    bit (mget z64 0 (half s 0).cfg.rowtest).toNat 63 = true ∧ halfRunning s 0 = true ∧ domainOn s (domRow 0) = true ∧
      gangState s 0 = gsStopped ∧ lent s 0 = false ∧ bit (getF s F.ROW_CTXCTL_CVALID 0) (curCtx s 0) = false ∧
      slotNamed s (rowSlot0 0 + 63) = true ∧ (getUnit s utSlot 63).st ≠ 3 ∧ (getUnit s utSlot 64).st = 1 ∧
      unitExists utSlot 64 = true ∧ unitOn s utSlot 64 = true := by decide +kernel
theorem wit_UnitsTestedAndCommanded_optic :
    let s := updHalf live 1 fun x => { x with cfg := { x.cfg with opttest := [(17, 0x8000000000000000)] } }
    bit (mget z64 17 (half s 1).cfg.opttest).toNat 63 = true ∧ unitOn s utOptic 17 = true ∧ (getUnit s utOptic 17).st ≠ 3 ∧
      halfRunning s 1 = true ∧ unitOf 1 utOptic 17 = true := by decide +kernel
theorem wit_UnitsTestedAndCommanded_cmd :
    let s := putF (putF live F.DEV_USEL_UTYPE 0 utRow) F.DEV_USEL_UINDEX 0 31
    let q := updUnit s utRow 31 fun u => { u with st := 3 }
    gate s n0 true (regAddr .devUcmd 0 0) = none ∧ unitOf 0 (selected s 0).1 (selected s 0).2 = true ∧
      hasTest (selected s 0).1 = true ∧ unitOn s (selected s 0).1 (selected s 0).2 = true ∧
      unitBusy s (selected s 0).1 (selected s 0).2 = false ∧ admissible 0 q (selected q 0).1 (selected q 0).2 = true ∧
      admissible 0 s (selected s 0).1 (selected s 0).2 = false ∧ hasTest (selected live 0).1 = false := by decide +kernel

theorem wit_HalvesStop :
    let d := setHalfState live 0 hsDraining
    d.Canon ∧ (gate live n0 true (regAddr .devHalf 0 0) = none ∧ halfRunning live 0 = true ∧ fullCommitting live = false ∧
      live.pins.input = true ∧ halfState (powered hsLoaded) 0 = hsLoaded ∧
      gate (powered hsLoaded) (.host 0) true (regAddr .devHalf 0 0) = none ∧ halfState d 0 = hsDraining ∧ waitersAt d 0 = [] ∧
      d.weir.any (weirTouches 0) = false) := ⟨canon_of (by decide +kernel), by decide +kernel⟩

theorem wit_StreamsCommitWhole :
    let s := [0, 1].foldl (fun s h => putF s F.DEV_CAL_DONE 0 1 h) (powered hsLoaded)
    s.Canon ∧ (gate s (.host 0) true (regAddr .fstCtl 0 0) = none ∧ getF s F.FST_STAT_STATE 0 ≠ 1 ∧
      getF s F.FST_STAT_STATE 0 ≠ 2 ∧ ((applyScope s 0).all fun j => getF s F.DEV_CAL_DONE 0 j != 0) = true ∧
      ((applyScope live 0).all fun j => getF live F.DEV_CAL_DONE 0 j != 0) = false ∧
      (∃ e, validate (updHalf s 0 fun x => { x with fstBy := isNode (.host 0) || nodeStaged s 0 }) 0 = .inl e)) :=
  ⟨canon_of (by decide +kernel), by decide +kernel, by decide +kernel, by decide +kernel, by decide +kernel,
    by decide +kernel, ⟨_, rfl⟩⟩
theorem wit_StreamsCommitWhole_commit :
    let s := updHalf (putF (powered hsLoaded) F.FST_STAT_STATE 0 2) 0 fun x => { x with fstKind := some 1 }
    (half s 0).fstKind.isSome = true ∧ committing s 0 = true ∧
      ((committers s 0).all fun j => (getSec s j).quote.isNone) = true := by decide +kernel

theorem wit_PowerResetsAndStops :
    let off := State.reset
    let r := { live with pins := { live.pins with rstLow := true } }
    let hr := updHalf live 0 fun x => { x with rst := true }
    off.Canon ∧ live.Canon ∧ (off.pins.input = false ∧ off.pins.rstLow = false ∧ (half off 1).rst = false ∧
      live.pins.input = true ∧ r.pins.rstLow = true ∧ (half r 0).rst = false ∧ (half hr 0).rst = true ∧
      179 ∈ ({ live with ramp := [179] } : State).ramp.filter (fun m => domHalf m == domHalf 179) ∧
      isFatal live 0 = false ∧ isFatal (putF live F.DEV_HALF_FATAL 0 1) 0 = true) :=
  ⟨canon_of (by decide), canon_of canon_live, by decide +kernel⟩

theorem wit_SensorsTripsAndRegulators : live.Canon ∧ (live.pins.input = true ∧ halfState live 0 ≠ hsOff ∧
    fantailLive live 0 = true ∧ domainOn live (domRow 31) = true) := ⟨canon_of canon_live, by decide +kernel⟩

/-- The domains a trip of die 0 switches off: all of half 0 but the two it keeps. -/
theorem wit_SensorsTripsAndRegulators_trip : halfState State.reset 0 = hsOff ∧ fantailLive State.reset 0 = false ∧
    domCtl 0 0 ∈ halfDomains 0 ∧ domTrust 0 ∈ halfDomains 0 ∧ 0 ∈ halfDomains 0 := by decide +kernel

theorem wit_CalibrationReports :
    let s := powered hsLoaded
    s.Canon ∧ (halfState s 0 = hsLoaded ∧ isFatal s 0 = false ∧ s.ramp.any (fun n => domHalf n == some 0) = false ∧
      getF s F.DEV_CAL_STEP 0 0 = 0 ∧ getF s F.DEV_CAL_DONE 0 0 = 0 ∧
      getF (putF s F.DEV_CAL_STEP 0 1) F.DEV_CAL_STEP 0 0 ≠ 0) := ⟨canon_of (by decide +kernel), by decide +kernel⟩

theorem wit_ManagementAndScanPorts : live.pins.input = true ∧ live.pins.i3cDyn = none ∧ State.reset.pins.input = false ∧
    tapWorks live = true ∧ tapWorks State.reset = false ∧ halfState live 0 = hsRunning ∧ halfState booting 0 = hsBoot ∧
    tapWorks booting = true ∧ mayChallenge live 0 = true ∧ (half live 0).cfg.dbgUnlock = true ∧
    [0x00, 0x01, 0x02, 0x20, 0x21, 0x22, 0x23].contains (0xFF : BitVec 8).toNat = false := by decide +kernel

/-- Rings of 32 slots, one descriptor posted with the given OP; the engine is IDLE. -/
def solvPosted (op : Nat) : State :=
  let s := putF (putF (putF live F.SOLV_SQ_SQ_LOG2 0 5) F.SOLV_CQ_CQ_LOG2 0 5) F.SOLV_STAT_STATE 0 0
  hbmStore (putF s F.SOLV_DB_SQ_TAIL 0 1) 0 (toBytes 8 (op * 2 ^ 60) ++ List.replicate 120 0)

theorem wit_SolverTakesDescriptors :
    ∀ op ∈ [1, 2, 3, 4],
      let s := solvPosted op
      let ws := hbmWords s (getF s F.SOLV_SQ_SQ_BASE 0 * 4096) 16
      halfRunning s 0 = true ∧ getF s F.SOLV_STAT_STATE 0 = 0 ∧ (half s 0).solv.isNone = true ∧
        ringCount (getF s F.SOLV_STAT_CQ_TAIL 0) (getF s F.SOLV_DB_CQ_HEAD 0) < 2 ^ getF s F.SOLV_CQ_CQ_LOG2 0 ∧
        ringCount (getF s F.SOLV_DB_SQ_TAIL 0) (getF s F.SOLV_STAT_SQ_HEAD 0) ≠ 0 ∧ (getUnit s utEngine 0).st = 0 ∧
        fopOf ws = op := by decide +kernel
theorem wit_SolverTakesDescriptors_doorbell :
    let s := solvPosted 1
    s.Canon ∧ (gate s n0 true (regAddr .solvDb 0 0) = none ∧ doorbellLegal 5 5 1 0 0 0 32 0 = true ∧
      doorbellLegal 5 5 1 0 0 0 33 0 = false ∧ doorbellLegal 5 5 1 0 0 0 1 0 = true) :=
  ⟨canon_of (by decide +kernel), by decide +kernel⟩

theorem wit_SolverRunsToItsRecord :
    let r := newRun (BitVec.ofNat 64 (2 ^ 60) :: List.replicate 15 0) 1 0
    let f := { r with phase := 0 }
    let i := { r with phase := 1, x := [0] }
    let e := endRun r svOk
    let at' (r : SolvRun) := setSolv live 0 r
    (half (at' f) 0).solv = some f ∧ f.done = none ∧ f.gm = none ∧ engHeld (at' f) 0 = false ∧ (∀ g ∈ (runDesc f).gangs, gangState (at' f) g ≠ gsHalted) ∧ solvLate (at' f) 0 f = false ∧
      brakeWanted (at' f) 0 = false ∧ (half (at' f) 0).cancel = false ∧ i.phase = 1 ∧ i.tested = false ∧ i.x ≠ [] ∧
      e.done = some (svOk, 0, 0) ∧ halfRunning (at' e) 0 = true ∧
      2 ^ getF (at' e) F.SOLV_CQ_CQ_LOG2 0 ≤ 1 := by decide +kernel

theorem wit_WeirBlocksCross :
    let x : WeirBlk := ⟨1, 1, 3, 0xA, 2, false, [.tile 0 0], [.tile 2176 0], none, .nobody, none⟩
    let s := { live with weir := [x] }
    let t := { live with weir := [{ x with coded := some [] }] }
    s.weir.find? (fun x => x.bridge == 1 && x.dir == 1 && weirBlank x) = some x ∧ bridgeUp s 1 = true ∧ (weirRead s x).1 = 0 ∧
      t.weir.find? (fun x => x.bridge == 1 && x.dir == 1 && !weirBlank x) = some { x with coded := some [] } ∧
      getF live F.SEAM_STATE_STATE 1 ≠ 1 ∧ getF (putF live F.SEAM_STATE_STATE 1 1) F.SEAM_STATE_STATE 1 = 1 := by decide +kernel

/-! Witnesses: steps, and the frame. -/

theorem wit_StepKeepsCanonical : State.reset.Canon ∧ (∃ t, step State.reset = .next t) ∧ live.Canon :=
  ⟨canon_of (by decide), ⟨_, rfl⟩, canon_of canon_live⟩
theorem wit_StepCountsInEveryRow : (runs [0]).Canon ∧ gangRows (runs [0]) 0 = [0] ∧
    (∀ p ∈ (seqCtl (runs [0]) 0).patches, p.reg < 64) ∧ (seqCtl (runs [0]) 0).lateHalt = none ∧ PlainStep (runs [0]) 0 :=
  ⟨canon_of canon_runs, by decide +kernel, by decide +kernel, by decide +kernel, ⟨by decide +kernel, by decide +kernel, by decide +kernel, by decide +kernel⟩⟩
theorem wit_CommandsAnswer : ∃ t, exec .tapIdcode live = .next t := ⟨_, rfl⟩
theorem wit_CommandsThatStoreNothing : ∃ t, exec (.tapReset true) State.reset = .next t := ⟨_, rfl⟩

/-! Figures of the manual. -/

/-- R3: the whole register reads 0x5255_0100_4141_0100, from either half. -/
theorem test_devId : (readReg live n0 (regAddr .devId 0 0) 8).resp = .value 0x5255010041410100 ∧
    (readReg live (.node 1) (regAddr .devId 1 0) 8).resp = .value 0x5255010041410100 := by decide +kernel
/-- R484: IDCODE captures 0x1010_07B3, low byte first. -/
theorem test_idcode : (match exec .tapIdcode live with | .next t => t.pins.tapDr | _ => []) = [0xB3, 0x07, 0x10, 0x10] := by
  decide +kernel
/-- The example after R249: 0x0080_0001_2340 in LOCAL mode, every channel of the die working. -/
def dieMapped : State := (List.range 128).foldl (fun s i => putF s F.HBM_CHST_STATE (128 + i) 0)
  (putF live F.HBM_WINLEN_LENGTH 0 (2 ^ 39) 1)
theorem test_interleave : hbmWhere dieMapped 0x8000012340 = some (32 * 7 + 4, 0, 320) := by decide +kernel
/-- The same with channel 2 of stack 5 mapped out. -/
theorem test_interleave_out : hbmWhere (putF (putF dieMapped F.HBM_CHST_STATE (32 * 5 + 2) 3) F.HBM_WINLEN_LENGTH 0 (508 * 2 ^ 30) 1)
    0x8000012340 = some (32 * 7 + 4, 1, 320) := by decide +kernel

/-- Default NaNs (R61) and the table after R81: +∞ to E4M3 without SAT is 0x7F without a flag; NaN to E2M1 is +0, INVALID. -/
theorem test_nans : [fF64, fF32, fBF16, fF16, fE4M3, fE5M2].map FFmt.defaultNan =
    [0x7FF8000000000000, 0x7FC00000, 0x7FC0, 0x7E00, 0x7F, 0x7E] := by decide
theorem test_e4m3_inf : fE4M3.round .nearest false (f32Num 0x7F800000) = (0x7F, flNone) := by decide +kernel
theorem test_e2m1_nan : fE2M1.round .nearest false (f32Num 0x7FC00000) = (0, flInvalid) := by decide +kernel
/-- IEEE 754: 1.0 + 2^-24 is halfway and goes to even; 0.1 + 0.2; the largest float plus itself overflows. -/
theorem test_f32_even : (f32AddNum 0x3F800000 (f32Num 0x33800000)).1 = 0x3F800000 := by decide +kernel
theorem test_f64_add : ((fF64.round .nearest false ((f64Num 0x3FB999999999999A).add (f64Num 0x3FC999999999999A)).1).1) =
    0x3FD3333333333334 := by decide +kernel
theorem test_f64_overflow : fF64.round .nearest false ((f64Num 0x7FEFFFFFFFFFFFFF).add (f64Num 0x7FEFFFFFFFFFFFFF)).1 =
    (0x7FF0000000000000, flJoin flOverflow flInexact) := by decide +kernel

/-- R158 on a node core: SLI s1 := −1, then SADD s2 := s1 + 2 wraps to 1, and s2 := s1 shifted by 65 shifts by 1. -/
def afterSli : Out := exec (.sli (.node 0 0) (BitVec.ofNat 56 (2 ^ 51 + 0xFFFFFFFF))) live
def sregOf (o : Out) (n : Nat) : Option W64 := match o with | .next t => some (sreg (getCtl t (.node 0 0)) n) | _ => none
def imm2 (v : Nat) : BitVec 56 := BitVec.ofNat 56 (2 * 2 ^ 51 + 2 ^ 46 + 2 ^ 40 + v)
theorem test_sli : sregOf afterSli 1 = some (-1) := by decide +kernel
theorem test_sadd_wraps : sregOf (match afterSli with | .next t => exec (.sadd (.node 0 0) (imm2 2)) t | o => o) 2 = some 1 := by
  decide +kernel
theorem test_sshl_mod : sregOf (match afterSli with | .next t => exec (.sshl (.node 0 0) (imm2 65)) t | o => o) 2 =
    some (-2) := by decide +kernel
/-- Reset: input power absent, both halves OFF, nothing waiting (R460). -/
theorem test_reset : State.reset.pending = [] ∧ State.reset.pins.input = false ∧ halfState State.reset 0 = hsOff ∧
    halfState State.reset 1 = hsOff := by decide +kernel
/-- The example after R346: TA = 240 µs, CLOCK = 1, EARLIEST = 300 µs release at 300 µs; EARLIEST = 0 would at 290 µs. -/
def barrierWords (earliest : W64) : List W64 := [0, 0, 0, 0, 1 <<< (47 : Nat), earliest, 0, 0]
theorem test_release : releaseInstant (barrierWords 300000) 240000 = 300000 ∧
    releaseInstant (barrierWords 0) 240000 = 290000 := by decide
/-- The same example: offset 320 is bank group 0, bank 0, row 0, byte 320. -/
theorem test_dramPlace : dramPlace 320 = ⟨0, 0, 0, 320⟩ := by decide
/-- FIPS 197, C.3: the AES-256 example vector. -/
theorem test_aes256 : aesEncrypt (List.range 32) ((List.range 16).map (17 * ·)) =
    [0x8E, 0xA2, 0xB7, 0xCA, 0x51, 0x67, 0x45, 0xBF, 0xEA, 0xFC, 0x49, 0x90, 0x4B, 0x49, 0x60, 0x89] := by decide +kernel


end Sys2Proof.Tests
end

section
/-! SUPPORT. Rows and queues: the watchdog of a context (R198), and the proof of its obligation. -/

namespace Sys2Proof.Machine

variable {s : State} {b : Requester} {row l : Nat} {v : W64}

/-! WATCHDOG_EXPIRY: the limit counts the steps since the last replay boundary. -/

/-- Once a running gang of its own has run the limit, it halts. -/
theorem watchdogExpiry_due (lead : rowLeader s l = l) (run : gangState s l = gsRunning) (own : lent s l = false)
    (on : getF s F.ROW_CTXCTL_WDOG_LIMIT l ≠ 0)
    (due : getF s F.ROW_CTXCTL_WDOG_LIMIT l ≤ rowSteps s l - (seqCtl s l).boundary) :
    watchdogExpiry s l = haltGang s l rcWatchdog 0 (seqCtl s l).pc 0 :=
  if_pos ⟨lead, run, by simp [own], on, due⟩

/-- Below the limit the event changes nothing. -/
theorem watchdogExpiry_early (early : rowSteps s l - (seqCtl s l).boundary < getF s F.ROW_CTXCTL_WDOG_LIMIT l) :
    watchdogExpiry s l = s :=
  if_neg fun ⟨_, _, _, _, due⟩ => absurd due (Nat.not_le.2 early)

/-! The word WDOG_LIMIT_WRITE hands on to ROW_CTXCTL. -/

/-- A word of ROW_CTXCTL with the given CVALID and the limit of v. -/
def wdogWord (valid : Nat) (v : W64) : W64 := setBits (setBits 0 63 60 valid) 31 0 v.toNat

theorem execWdogLimitWrite_eq (row : BitVec 6) : execWdogLimitWrite b row v s =
    .next (ctxctlWrite s b row.toNat (wdogWord (getF s F.ROW_CTXCTL_CVALID row.toNat) v)) := rfl

theorem bits_wdogWord_valid {valid : Nat} (h : valid < 2 ^ 4) : bits (wdogWord valid v).toNat 63 60 = valid := by
  rw [wdogWord, bits_setBits_ne (by omega) (by omega) (by omega) (by omega), bits_setBits_self (by omega) (by omega)]
  exact Nat.mod_eq_of_lt h

theorem bits_wdogWord_limit (valid : Nat) : bits (wdogWord valid v).toNat 31 0 = bits v.toNat 31 0 := by
  rw [wdogWord, bits_setBits_self (by omega) (by omega)]
  simp [bits]

/-- WDOG_LIMIT is an RW field: a write of ROW_CTXCTL stores the limit it gives. -/
theorem bits_storedWord_limit (old : W64) : bits (storedWord .rowCtxctl old v).toNat 31 0 = bits v.toNat 31 0 := by
  change bits (setBits _ 31 0 (bits v.toNat 31 0)).toNat 31 0 = _
  rw [bits_setBits_self (by omega) (by omega)]
  exact Nat.mod_eq_of_lt (bits_lt ..)

/-- After an accepted write of ROW_CTXCTL the limit reads as in the word stored. -/
theorem getF_limit_done (rising : Rising s.mg) (w : W64) :
    getF (done (setReg s .rowCtxctl row 0 w)) F.ROW_CTXCTL_WDOG_LIMIT row = bits w.toNat 31 0 := by
  rw [done, getF_answer]
  exact congrArg (fun x : W64 => bits x.toNat 31 0) (reg_setReg_self rising ..)

/-! Writes of ROW_CTXCTL. -/

/-- The same CVALID creates and drops no context: only the register is written, with the word it holds. -/
theorem setValid_same : setValid s l (getF s F.ROW_CTXCTL_CVALID l) = setReg s .rowCtxctl l 0 (reg s .rowCtxctl l 0) := by
  simp only [setValid, if_true, List.foldl_fixed, putF, getF]
  rw [setBits_bits (by decide) (by decide)]
  rfl

/-- A limit needs the row's event timer. -/
theorem ctxctlWrite_refused (g : gate s b true (regAddr .rowCtxctl row 0) = none) (lim : bits v.toNat 31 0 ≠ 0)
    (own : ownerOf s 2 row ≠ 1) : ctxctlWrite s b row v = denied s b := by
  rw [ctxctlWrite, guarded_none g]
  exact if_pos (.inr ⟨lim, own⟩)

/-- With CVALID as it stands, and the timer where there is a limit, the write is taken. -/
theorem ctxctlWrite_sameValid (g : gate s b true (regAddr .rowCtxctl row 0) = none)
    (valid : bits v.toNat 63 60 = getF s F.ROW_CTXCTL_CVALID row) (ok : bits v.toNat 31 0 = 0 ∨ ownerOf s 2 row = 1) :
    ctxctlWrite s b row v =
      let t := setReg s .rowCtxctl row 0 (reg s .rowCtxctl row 0)
      done (setReg t .rowCtxctl row 0 (storedWord .rowCtxctl (reg t .rowCtxctl row 0) v)) := by
  rw [ctxctlWrite, guarded_none g]
  simp only [valid, setValid_same]
  exact if_neg (by tauto)

/-! WDOG_LIMIT_WRITE. -/

theorem execWdogLimitWrite_refused {row : BitVec 6} (g : gate s b true (regAddr .rowCtxctl row.toNat 0) = none)
    (lim : bits v.toNat 31 0 ≠ 0) (own : ownerOf s 2 row.toNat ≠ 1) :
    execWdogLimitWrite b row v s = .next (denied s b) := by
  rw [execWdogLimitWrite_eq, ctxctlWrite_refused g (by rwa [bits_wdogWord_limit]) own]

theorem execWdogLimitWrite_taken {row : BitVec 6} (g : gate s b true (regAddr .rowCtxctl row.toNat 0) = none)
    (ok : bits v.toNat 31 0 = 0 ∨ ownerOf s 2 row.toNat = 1) :
    ∃ t, execWdogLimitWrite b row v s = .next t ∧ t.resp = .ok ∧
      (s.Canon → getF t F.ROW_CTXCTL_WDOG_LIMIT row.toNat = bits v.toNat 31 0) := by
  rw [execWdogLimitWrite_eq,
    ctxctlWrite_sameValid g (bits_wdogWord_valid (bits_lt ..)) (by rwa [bits_wdogWord_limit])]
  refine ⟨_, rfl, rfl, fun canon => ?_⟩
  rw [getF_limit_done (rising_setReg (regs_rising canon.mg) ..), bits_storedWord_limit, bits_wdogWord_limit]

/-- Settles O25: the expiry by the limit it counts to, the write by the owner of the row's event timer. -/
theorem watchdogLimits : Obligations.WatchdogLimits := by
  unfold Obligations.WatchdogLimits
  refine ⟨fun l s lead run own on => ⟨fun due => ?_, fun early => ?_⟩, fun b row v s g => ⟨?_, ?_⟩⟩
  · exact congrArg _ (watchdogExpiry_due lead run own on due)
  · exact congrArg _ (watchdogExpiry_early early)
  · exact execWdogLimitWrite_refused g
  · exact execWdogLimitWrite_taken g

end Sys2Proof.Machine
end

section
/-! SUPPORT. Collectives and time: the PPS output (R332, R481), and the proof of its obligation. -/

namespace Sys2Proof.Machine

variable {s : State} {b : Requester} {h : Nat} {v : W64}

theorem ownsMfp_iff : ownsMfp s h = true ↔ ownerOf s 1 0 = h + 1 := beq_iff_eq

/-! The ball: its one owner drives it, so the other half adds nothing to its level. -/

theorem ppsHigh_of_owned (own : ownsMfp s h = true) : ppsHigh s h =
    (domainOn s (domTime h) && getF s F.TB_CFG_PPS_OUT_EN h == 1 && decide (hallTime s h % 1000000000 < 100000)) := by
  simp [ppsHigh, own]

theorem ppsHigh_of_not_owned (own : ¬ ownsMfp s h = true) : ppsHigh s h = false := by
  simp [ppsHigh, own]

/-- At most one half owns MFP0 (R402). -/
theorem ownsMfp_unique {h' : Nat} (own : ownsMfp s h = true) (own' : ownsMfp s h' = true) : h = h' :=
  Nat.succ.inj ((ownsMfp_iff.1 own).symm.trans (ownsMfp_iff.1 own'))

/-- MFP0 shows the output of the half that owns it. -/
theorem drivePps_of_owned (lt : h < 2) (own : ownsMfp s h = true) :
    drivePps s = { s with pins := { s.pins with mfp0 := ppsHigh s h } } := by
  have other (j : Nat) (n : h ≠ j) : ppsHigh s j = false := ppsHigh_of_not_owned fun o => n (ownsMfp_unique own o)
  obtain rfl | rfl : h = 0 ∨ h = 1 := by omega
  · rw [drivePps, other 1 (by decide), Bool.or_false]
  · rw [drivePps, other 0 (by decide), Bool.false_or]

@[simp] theorem getF_drivePps (f : Fld) (i k : Nat) : getF (drivePps s) f i k = getF s f i k := rfl

/-! PPS_OUT_PULSE. -/

theorem execPpsOutPulse_owned {h : BitVec 1} (own : ownsMfp s h.toNat = true) :
    execPpsOutPulse h s = .next { s with pins := { s.pins with mfp0 := ppsHigh s h.toNat } } := by
  rw [execPpsOutPulse, if_pos own, drivePps_of_owned h.isLt own]

theorem execPpsOutPulse_not_owned {h : BitVec 1} (own : ¬ ownsMfp s h.toNat = true) : execPpsOutPulse h s = .next s := by
  rw [execPpsOutPulse, if_neg own]

/-! PPS_OUT_EN_WRITE: a write that sets the field needs the ball. -/

/-- A one-bit field of a set bit is 1. -/
theorem bits_of_bit {w i : Nat} (set : bit w i = true) : bits w i i = 1 := by
  simpa [bit, bits] using set

theorem exec_ppsOutEnWrite (b : Requester) (h : BitVec 1) (v : W64) (s : State) :
    exec (.ppsOutEnWrite b h v) s = .next (ppsOutWrite s b h.toNat v) := rfl

theorem ppsOutWrite_refused (g : gate s b true (regAddr .tbCfg h 0) = none) (set : bit v.toNat 44 = true)
    (own : ¬ ownsMfp s h = true) : ppsOutWrite s b h v = denied s b := by
  rw [ppsOutWrite, guarded_none g]
  exact if_pos ⟨set, by simpa using own⟩

theorem ppsOutWrite_taken (g : gate s b true (regAddr .tbCfg h 0) = none) (own : ownsMfp s h = true) :
    ppsOutWrite s b h v = done (drivePps (putF s F.TB_CFG_PPS_OUT_EN h (bits v.toNat 44 44))) := by
  rw [ppsOutWrite, guarded_none g]
  exact if_neg fun ⟨_, lost⟩ => by simp [own] at lost

/-- A write that sets PPS_OUT_EN leaves it set. -/
theorem getF_ppsOutEn_set (rising : Rising s.mg) (set : bit v.toNat 44 = true) :
    getF (done (drivePps (putF s F.TB_CFG_PPS_OUT_EN h (bits v.toNat 44 44)))) F.TB_CFG_PPS_OUT_EN h = 1 := by
  rw [done, getF_answer, getF_drivePps, getF_putF_self rising _ _ _ _ (by decide) (by decide), bits_of_bit set]
  rfl

/-- Settles O41: the write by the owner of MFP0, the pulse by the one half that drives it. -/
theorem ppsOutputNeedsItsBall : Obligations.PpsOutputNeedsItsBall := by
  unfold Obligations.PpsOutputNeedsItsBall
  intro b h v s canon k owned
  have owns : ownsMfp s k = true ↔ owned := ownsMfp_iff
  refine ⟨fun g set => ⟨fun lost => ?refused, fun own => ?taken⟩, fun own => ?pulse, fun lost => ?still⟩
  case refused =>
    rw [exec_ppsOutEnWrite, ppsOutWrite_refused g set (mt owns.1 lost)]
    cases b <;> rfl
  case taken =>
    rw [exec_ppsOutEnWrite, ppsOutWrite_taken g (owns.2 own)]
    exact ⟨_, rfl, rfl, getF_ppsOutEn_set (regs_rising canon.mg) set⟩
  case pulse =>
    rw [← ppsHigh_of_owned (owns.2 own)]
    exact execPpsOutPulse_owned (owns.2 own)
  case still => exact execPpsOutPulse_not_owned (mt owns.1 lost)

end Sys2Proof.Machine
end

section
/-! SUPPORT. The Lomly link: the host's doorbells (R387), and the proof of their obligation. -/

namespace Sys2Proof.Machine

variable {s : State} {h n m : Nat} {v : W64}

/-! Where the doorbells lie. -/

theorem regAddr_lomHdb : regAddr .lomHdb h n = halfBase h + 0x2730000 + (0x200 + 8 * n) :=
  Nat.add_assoc ..

theorem regAddr_lomHdb_lt (half : h < 2) (word : n < 64) : regAddr .lomHdb h n < 2 ^ 48 := by
  rw [regAddr_lomHdb, halfBase]
  omega

theorem regAddr_lomHdb_aligned : regAddr .lomHdb h n % 8 = 0 := by
  rw [regAddr_lomHdb, halfBase]
  omega

theorem regAddr_lomHdb_ne (other : m ≠ n) : regAddr .lomHdb h m ≠ regAddr .lomHdb h n := by
  rw [regAddr_lomHdb, regAddr_lomHdb]
  omega

/-- The Lomly block of a half spans 4 KiB of its management region. -/
theorem blockOf_lom {o : Nat} (half : h < 2) (inside : o < 0x1000) :
    blockOf (halfBase h + 0x2730000 + o) = some (.lom, h, o) := by
  have base : halfBase h = 0x7F0010000000 + h * 0x10000000 := rfl
  have region : (halfBase h + 0x2730000 + o - 0x7F0010000000) / 0x10000000 = h := by omega
  have offset : (halfBase h + 0x2730000 + o - 0x7F0010000000) % 0x10000000 = 0x2730000 + o := by omega
  have within : halfBlockOf h (0x2730000 + o) = some (.lom, h, o) := by
    unfold halfBlockOf
    simp (disch := omega) only [if_neg, if_pos]
    rw [show (0x2730000 + o) % 0x1000 = o by omega]
  unfold blockOf
  simp (disch := omega) only [if_neg, if_pos]
  rw [region, offset, within]

/-- No word of a register lies past its end. -/
theorem regIndex_past {r : Reg} {o : Nat} (after : (regSpec r).off < o)
    (past : (regSpec r).off + (regSpec r).stride * (regSpec r).count ≤ o) : regIndex r o = none := by
  have outside : ¬ ((o - (regSpec r).off) % (regSpec r).stride = 0 ∧
      (o - (regSpec r).off) / (regSpec r).stride < (regSpec r).count) := fun ⟨word, lt⟩ => by
    have pos : 0 < (regSpec r).stride := Nat.pos_of_ne_zero fun z => by rw [z, Nat.mod_zero] at word; omega
    have inside := (Nat.div_lt_iff_lt_mul pos).1 lt
    rw [Nat.mul_comm] at inside
    omega
  rw [regIndex]
  simp only [if_neg after.not_gt, if_neg outside, if_neg after.ne', ite_self]

/-- Word k of a register of several words. -/
theorem regIndex_word {r : Reg} {k : Nat} (several : 1 < (regSpec r).count) (pos : 0 < (regSpec r).stride)
    (lt : k < (regSpec r).count) : regIndex r ((regSpec r).off + (regSpec r).stride * k) = some k := by
  rw [regIndex]
  simp only [Nat.add_sub_cancel_left, Nat.mul_mod_right, Nat.mul_div_cancel_left k pos,
    if_neg (Nat.le_add_right ..).not_gt, if_neg several.not_ge, true_and, if_pos lt]

theorem regIndex_lomHdb (word : n < 64) : regIndex .lomHdb (0x200 + 8 * n) = some n :=
  regIndex_word (r := .lomHdb) (by decide) (by decide) word

/-- The doorbells are the last register of the block: no other one claims their words. -/
theorem regAt_lomHdb (half : h < 2) (word : n < 64) : regAt (regAddr .lomHdb h n) = some (.lomHdb, h, n) := by
  have ends : ∀ r ∈ [Reg.lomStat, .lomCnt, .lomCfg, .lomEvpost, .lomQctl],
      (regSpec r).off < 0x200 ∧ (regSpec r).off + (regSpec r).stride * (regSpec r).count ≤ 0x200 := by decide
  rw [regAt, regAddr_lomHdb, blockOf_lom half (by omega)]
  refine List.findSome?_eq_some_iff.2
    ⟨[.lomStat, .lomCnt, .lomCfg, .lomEvpost, .lomQctl], .lomHdb, [], rfl, ?_, fun r mem => ?_⟩
  · rw [regIndex_lomHdb word]; rfl
  · obtain ⟨before, upTo⟩ := ends r mem
    rw [regIndex_past (by omega) (by omega)]; rfl

/-! Writes of the host add bits. -/

theorem execHostDoorbellWrite_taken {h : BitVec 1} {n : BitVec 6}
    (g : gate s (.host h) true (regAddr .lomHdb h.toNat n.toNat) = none) :
    execHostDoorbellWrite h n v s = .next (done (tellNode
      (setReg s .lomHdb h.toNat n.toNat (reg s .lomHdb h.toNat n.toNat ||| v)) h.toNat evDoorbell n.toNat [v])) := by
  rw [execHostDoorbellWrite, hdbWrite, guarded_none g]

@[simp] theorem reg_tellNode (src code : Nat) (payload : List W64) (r : Reg) (i k : Nat) :
    reg (tellNode s h src code payload) r i k = reg s r i k := reg_updHalf ..

/-! Reads of node software clear. -/

/-- A field that spans the whole word shows it. -/
theorem setBits_word (w x : W64) : setBits w 63 0 (bits x.toNat 63 0) = x := by
  apply BitVec.eq_of_toNat_eq
  rw [setBits_toNat (by decide) (by decide)]
  simp only [bits]
  omega

theorem readWord_lomHdb (w : W64) : readWord .lomHdb w = w := setBits_word 0 w

/-- The read by node software returns the word and leaves 0. -/
theorem readReg_lomHdb_node {b : BitVec 1} (half : h < 2) (word : n < 64)
    (g : gate s (.node b) false (regAddr .lomHdb h n) = none) (on : blockOn s (regSpec .lomHdb).blk h = true) :
    readReg s (.node b) (regAddr .lomHdb h n) 8 = answer (setReg s .lomHdb h n 0) (.value (reg s .lomHdb h n)) := by
  have shown : shownWord s .lomHdb h n = reg s .lomHdb h n := by
    rw [shownWord, on]
    exact readWord_lomHdb _
  have cleared : afterRead s (.node b) .lomHdb h n = setReg s .lomHdb h n 0 := by
    simp [afterRead, on]
  rw [readReg, if_neg (by simp [regAddr_lomHdb_aligned]), g, regAt_lomHdb half word]
  simp only [shown, cleared]

theorem setReg_setReg (rising : Rising s.mg) (r : Reg) (i k : Nat) (v w : W64) :
    setReg (setReg s r i k v) r i k w = setReg s r i k w :=
  congrArg (fun mg => { s with mg := mg }) (mset_mset rising)

/-- Where nothing is set at the moment of the read, the register keeps what the read left. -/
theorem setAfter_lomHdb_zero (rising : Rising s.mg) (r : Resp) :
    setAfter (answer (setReg s .lomHdb h n v) r) .lomHdb h n 0 = answer (setReg s .lomHdb h n v) r := by
  rw [setAfter, if_neg (by decide), reg_answer, reg_setReg_self rising,
    show v ||| (0 &&& (clearedWord .lomHdb 0 ^^^ 0)) = v by simp]
  exact congrArg (answer · r) (setReg_setReg rising ..)

theorem execReadToClear_lomHdb_node {b h : BitVec 1} {n : BitVec 6} (rising : Rising s.mg)
    (g : gate s (.node b) false (regAddr .lomHdb h.toNat n.toNat) = none) (on : blockOn s .lom h.toNat = true) :
    execReadToClear (.node b) (BitVec.ofNat 48 (regAddr .lomHdb h.toNat n.toNat)) ⟨8, 0⟩ s =
      .next (answer (setReg s .lomHdb h.toNat n.toNat 0) (.value (reg s .lomHdb h.toNat n.toNat))) := by
  have addr : (BitVec.ofNat 48 (regAddr .lomHdb h.toNat n.toNat)).toNat = regAddr .lomHdb h.toNat n.toNat := by
    rw [BitVec.toNat_ofNat, Nat.mod_eq_of_lt (regAddr_lomHdb_lt h.isLt n.isLt)]
  have on' : blockOn s (regSpec .lomHdb).blk h.toNat = true := on
  simp only [execReadToClear, addr, readReg_lomHdb_node h.isLt n.isLt g on', regAt_lomHdb h.isLt n.isLt, answer_resp, on',
    if_true, setAfter_lomHdb_zero rising]

/-- Settles O34: the write ORs its word in, the read takes the word and leaves 0; each writes its own address alone. -/
theorem doorbellsAccumulate : Obligations.DoorbellsAccumulate := by
  unfold Obligations.DoorbellsAccumulate
  intro h n v s canon k a
  have rising : Rising s.mg := regs_rising canon.mg
  have apart {m : BitVec 6} (other : m ≠ n) : regAddr .lomHdb k m.toNat ≠ regAddr .lomHdb k n.toNat :=
    regAddr_lomHdb_ne (BitVec.toNat_ne.1 other)
  refine ⟨fun g => ⟨_, execHostDoorbellWrite_taken g, rfl, ?written, fun m other => ?keptByWrite⟩,
    fun g on => ⟨_, execReadToClear_lomHdb_node rising g on, rfl, ?cleared, fun m other => ?keptByRead⟩⟩
  case written => rw [done, reg_answer, reg_tellNode, reg_setReg_self rising]
  case keptByWrite => rw [done, reg_answer, reg_tellNode, reg_setReg_ne rising (apart other)]
  case cleared => rw [reg_answer, reg_setReg_self rising]
  case keptByRead => rw [reg_answer, reg_setReg_ne rising (apart other)]

end Sys2Proof.Machine
end

section
/-! SUPPORT. The Lomly link: switching a DMA queue off (R392), and the proof of its obligation. -/

namespace Sys2Proof.Machine

variable {s t : State} {h q status : Nat} {d : Dma}

/-! What a half's Lomly state reads after each operation. -/

@[simp] theorem getLom_updLom_self (s : State) (h : Nat) (f : LomSt → LomSt) :
    getLom (updLom s h f) h = f (getLom s h) := by
  rw [getLom, updLom, half_updHalf_self, getLom]

@[simp] theorem getF_updLom (s : State) (h : Nat) (f : LomSt → LomSt) (g : Fld) (i k : Nat) :
    getF (updLom s h f) g i k = getF s g i k := getF_updHalf ..

@[simp] theorem updLom_mg (s : State) (h : Nat) (f : LomSt → LomSt) : (updLom s h f).mg = s.mg := updHalf_mg ..

@[simp] theorem getLom_setReg (s : State) (r : Reg) (i k : Nat) (v : W64) (h : Nat) :
    getLom (setReg s r i k v) h = getLom s h := rfl

@[simp] theorem getLom_putF (s : State) (f : Fld) (i v k h : Nat) : getLom (putF s f i v k) h = getLom s h := rfl

@[simp] theorem getLom_queueState (s : State) (i q h : Nat) : getLom (queueState s i q) h = getLom s h := rfl

/-- A Lomly link keeps no register: what its credits allow moves within the link. -/
theorem pump_lomly (s : State) (h : Nat) : pump s (lomKey h) = { s with links := (pump s (lomKey h)).links } := by
  simp only [pump, if_pos (show 128 ≤ lomKey h from Nat.le_add_right ..)]
  split <;> rfl

theorem lomSend_links_only (s : State) (h vc : Nat) (p : LomPkt) :
    lomSend s h vc p = { s with links := (lomSend s h vc p).links } := by
  rw [lomSend, pump_lomly]
  rfl

@[simp] theorem lomSend_mg (s : State) (h vc : Nat) (p : LomPkt) : (lomSend s h vc p).mg = s.mg := by
  rw [lomSend_links_only]

@[simp] theorem getLom_lomSend (s : State) (i vc : Nat) (p : LomPkt) (h : Nat) :
    getLom (lomSend s i vc p) h = getLom s h := by
  rw [lomSend_links_only]
  rfl

@[simp] theorem getLom_dcpl (s : State) (i q tag status moved h : Nat) :
    getLom (dcpl s i q tag status moved) h = getLom s h := getLom_lomSend ..

/-! Descriptors leave their queue. -/

theorem getLom_dmaLeave (s : State) (h : Nat) (d : Dma) (status : Nat) : getLom (dmaLeave s h d status) h =
    { getLom s h with
      dmas := (getLom s h).dmas.filter fun e => e.id != d.id
      hreqs := (getLom s h).hreqs.filter fun r => r.dma != d.id
      fenced := if status = 0 ∨ (getLom s h).fenced.contains d.q then (getLom s h).fenced
        else (getLom s h).fenced ++ [d.q] } := by
  unfold dmaLeave
  by_cases ok : status = 0 <;> simp [ok, bumpF]

theorem mem_dmas_dmaLeave {e : Dma} : e ∈ (getLom (dmaLeave s h d status) h).dmas ↔
    e ∈ (getLom s h).dmas ∧ e.id ≠ d.id := by
  simp [getLom_dmaLeave]

theorem stopping_dmaLeave : (getLom (dmaLeave s h d status) h).stopping = (getLom s h).stopping := by
  rw [getLom_dmaLeave]

/-- Descriptors that all leave are gone. -/
theorem mem_dmas_leaveAll {e : Dma} {ds : List Dma} :
    e ∈ (getLom (ds.foldl (fun s d => dmaLeave s h d status) s) h).dmas → e ∈ (getLom s h).dmas ∧ e ∉ ds := by
  induction ds generalizing s with
  | nil => simp
  | cons d ds ih =>
    intro mem
    obtain ⟨left, notIn⟩ := ih mem
    obtain ⟨held, other⟩ := mem_dmas_dmaLeave.1 left
    exact ⟨held, List.not_mem_cons_of_ne_of_not_mem (fun same => other (same ▸ rfl)) notIn⟩

/-! The queue goes off once none of its descriptors runs. -/

/-- The descriptors of a queue. -/
def queueDmas (s : State) (h q : Nat) : List Dma := (getLom s h).dmas.filter fun d => d.q == q

theorem queueOff_of_started (run : (queueDmas s h q).any (fun d => d.started) = true) : queueOff s h q = s :=
  if_pos (.inr run)

theorem queueOff_of_unstarted (stop : (getLom s h).stopping.contains q = true)
    (idle : (queueDmas s h q).any (fun d => d.started) = false) : queueOff s h q =
      queueState (putF (updLom ((queueDmas s h q).foldl (fun s d => dmaLeave s h d lomQueueOff.toNat) s) h fun l =>
        { l with stopping := l.stopping.filter (· != q), fenced := l.fenced.filter (· != q) }) F.LOM_QCTL_EN h 0 q) h q := by
  refine if_neg fun off => off.elim (fun notStopping => ?_) fun run => Bool.false_ne_true (idle.symm.trans run)
  rw [stop] at notStopping
  exact Bool.false_ne_true notStopping

/-- STATE of a queue is another field of the word that holds EN. -/
theorem getF_en_queueState (rising : Rising s.mg) :
    getF (queueState s h q) F.LOM_QCTL_EN h q = getF s F.LOM_QCTL_EN h q :=
  getF_putF_other rising F.LOM_QCTL_STATE h _ q rfl (by decide) (by decide) (by decide) (.inl (by decide))

/-- A queue that goes off reads EN = 0. -/
theorem getF_en_queueOff (canon : s.Canon) (stop : (getLom s h).stopping.contains q = true)
    (idle : (queueDmas s h q).any (fun d => d.started) = false) : getF (queueOff s h q) F.LOM_QCTL_EN h q = 0 := by
  have left : Keeps s ((queueDmas s h q).foldl (fun s d => dmaLeave s h d lomQueueOff.toNat) s) :=
    keeps_foldl .refl fun _ _ kept => keeps_dmaLeave kept
  have rising {f : LomSt → LomSt} : Rising (updLom _ h f).mg := regs_rising ((keeps_updLom left).2 canon).mg
  rw [queueOff_of_unstarted stop idle, getF_en_queueState (rising_putF rising ..),
    getF_putF_self rising _ _ _ _ (by decide) (by decide), Nat.zero_mod]

/-- A queue that goes off holds no descriptor any more. -/
theorem queueOff_empties {e : Dma} (stop : (getLom s h).stopping.contains q = true)
    (idle : (queueDmas s h q).any (fun d => d.started) = false) (mem : e ∈ (getLom (queueOff s h q) h).dmas) : e.q ≠ q := by
  rw [queueOff_of_unstarted stop idle, getLom_queueState, getLom_putF, getLom_updLom_self] at mem
  obtain ⟨held, notLeft⟩ := mem_dmas_leaveAll mem
  exact fun same => notLeft (List.mem_filter.2 ⟨held, beq_iff_eq.2 same⟩)

/-- Once the only started descriptor of a queue has left, none of the queue runs. -/
theorem idle_of_last_leaves (last : (queueDmas s h q).filter (fun e => e.started) = [d]) :
    (queueDmas (dmaLeave s h d status) h q).any (fun e => e.started) = false := by
  rw [List.any_eq_false]
  intro e mem started
  obtain ⟨left, ours⟩ := List.mem_filter.1 mem
  obtain ⟨held, other⟩ := mem_dmas_dmaLeave.1 left
  have run : e ∈ (queueDmas s h q).filter fun e => e.started :=
    List.mem_filter.2 ⟨List.mem_filter.2 ⟨held, ours⟩, started⟩
  rw [last, List.mem_singleton] at run
  exact other (congrArg Dma.id run)

/-! Issuing units writes no register and moves no descriptor to another queue. -/

/-- No register differs, and the descriptors of the half stand in the same queues. -/
def SameQueues (h : Nat) (s t : State) : Prop :=
  t.mg = s.mg ∧ (getLom t h).dmas.map Dma.q = (getLom s h).dmas.map Dma.q

theorem SameQueues.refl : SameQueues h s s := ⟨rfl, rfl⟩

theorem SameQueues.trans {u : State} (a : SameQueues h s t) (b : SameQueues h t u) : SameQueues h s u :=
  ⟨b.1.trans a.1, b.2.trans a.2⟩

theorem SameQueues.foldl {β : Type} {f : State → β → State} (step : ∀ s x, SameQueues h s (f s x)) (xs : List β) :
    SameQueues h s (xs.foldl f s) := by
  induction xs generalizing s with
  | nil => exact .refl
  | cons x xs ih => exact (step s x).trans ih

theorem sameQueues_updLom {f : LomSt → LomSt} (queues : (f (getLom s h)).dmas.map Dma.q = (getLom s h).dmas.map Dma.q) :
    SameQueues h s (updLom s h f) :=
  ⟨updLom_mg .., by rw [getLom_updLom_self, queues]⟩

/-- An edit of descriptors that leaves each its queue. -/
theorem sameQueues_mapDmas {f : Dma → Dma} (queue : ∀ d, (f d).q = d.q) :
    SameQueues h s (updLom s h fun l => { l with dmas := l.dmas.map f }) := by
  refine sameQueues_updLom ?_
  rw [List.map_map]
  exact List.map_congr_left fun d _ => queue d

theorem sameQueues_dmaAnswer {id : Nat} {code : BitVec 8} : SameQueues h s (dmaAnswer s h id code) :=
  sameQueues_mapDmas fun d => by split <;> rfl

theorem sameQueues_lomSend {vc : Nat} {p : LomPkt} : SameQueues h s (lomSend s h vc p) :=
  ⟨lomSend_mg .., by rw [getLom_lomSend]⟩

theorem sameQueues_hostReq {read : Bool} {paddr haddr lines : Nat} {body : List W64} :
    SameQueues h s (hostReq s h d read paddr haddr lines body) :=
  .trans (sameQueues_updLom rfl) sameQueues_lomSend

theorem sameQueues_sendLines {paddr haddr n : Nat} : SameQueues h s (sendLines s h d paddr haddr n) := by
  unfold sendLines
  extract_lets ls
  split
  · exact sameQueues_hostReq
  · refine .foldl (fun s l => ?_) _
    split
    · exact sameQueues_hostReq
    · exact sameQueues_dmaAnswer

theorem sameQueues_issueUnit : SameQueues h s (issueUnit s h d) := by
  unfold issueUnit
  extract_lets n haddr paddr u
  have counted : SameQueues h s u := sameQueues_mapDmas fun e => by split <;> rfl
  split
  · exact counted.trans (.foldl (fun _ _ => sameQueues_sendLines) _)
  · exact counted.trans sameQueues_hostReq

theorem sameQueues_refill (fuel : Nat) : SameQueues h s (refill fuel s h) := by
  induction fuel generalizing s with
  | zero => exact .refl
  | succ fuel ih =>
    unfold refill
    split
    · exact .refl
    · split
      · exact .refl
      · split
        · exact .refl
        · split
          · exact .refl
          · exact ((sameQueues_updLom rfl).trans sameQueues_issueUnit).trans ih

theorem sameQueues_refillAll : SameQueues h s (refillAll s h) := by
  unfold refillAll
  split
  · exact sameQueues_refill _
  · exact .refl

theorem SameQueues.getF_eq (same : SameQueues h s t) (f : Fld) (i k : Nat) : getF t f i k = getF s f i k := by
  rw [getF, reg, same.1]
  rfl

theorem SameQueues.empty (same : SameQueues h s t) (none : ∀ e ∈ (getLom s h).dmas, e.q ≠ q) :
    ∀ e ∈ (getLom t h).dmas, e.q ≠ q := by
  intro e mem is
  have listed : q ∈ (getLom t h).dmas.map Dma.q := List.mem_map.2 ⟨e, mem, is⟩
  rw [same.2] at listed
  obtain ⟨e', mem', is'⟩ := List.mem_map.1 listed
  exact none e' mem' is'

/-! DMA_DESCRIPTOR_COMPLETE. -/

theorem execDmaDescriptorComplete_found {h : BitVec 1} {id : Nat} (noAfter : dmaAfter d = false)
    (found : (getLom s h.toNat).dmas.find? (fun e => e.id == id && e.started && e.left == 0) = some d) :
    execDmaDescriptorComplete h id s =
      .next (refillAll (queueOff (dmaLeave s h.toNat d d.err) h.toNat d.q) h.toNat) := by
  have plain : afterWrite s h.toNat d = (s, d.err) := if_neg (by simp [noAfter])
  simp only [execDmaDescriptorComplete, found, plain]

/-- The last started descriptor of a queue whose EN := 0 waits takes the queue off with it. -/
theorem queue_off_after_last (canon : s.Canon) (stop : (getLom s h).stopping.contains q = true)
    (last : (queueDmas s h q).filter (fun e => e.started) = [d]) :
    getF (refillAll (queueOff (dmaLeave s h d status) h q) h) F.LOM_QCTL_EN h q = 0 ∧
      ∀ e ∈ (getLom (refillAll (queueOff (dmaLeave s h d status) h q) h) h).dmas, e.q ≠ q := by
  have idle := idle_of_last_leaves (status := status) last
  rw [← stopping_dmaLeave (d := d) (status := status)] at stop
  refine ⟨?_, sameQueues_refillAll.empty fun e => queueOff_empties stop idle⟩
  rw [sameQueues_refillAll.getF_eq]
  exact getF_en_queueOff ((keeps_dmaLeave .refl).2 canon) stop idle

/-! LOM_QUEUE_DISABLE. -/

/-- The half once a write of EN := 0 is taken: the other fields of the word stand, EN waits at 1. -/
def disabling (s : State) (h q : Nat) (w : W64) : State :=
  updLom (putF (setReg s .lomQctl h q (storedWord .lomQctl (reg s .lomQctl h q) w)) F.LOM_QCTL_EN h 1 q) h fun l =>
    { l with stopping := if l.stopping.contains q then l.stopping else l.stopping ++ [q] }

theorem qctlWrite_disable {b : Requester} {w : W64} (g : gate s b true (regAddr .lomQctl h q) = none)
    (ranged : inRange .lomQctl w = true) (clear : bit w.toNat 63 = false) (on : getF s F.LOM_QCTL_EN h q = 1) :
    qctlWrite s b h q w = done (queueOff (disabling s h q w) h q) := by
  rw [qctlWrite, guarded_none g]
  simp [ranged, clear, on, disabling]

theorem dmas_disabling {w : W64} : (getLom (disabling s h q w) h).dmas = (getLom s h).dmas := by
  simp [disabling]

theorem stopping_disabling {w : W64} : (getLom (disabling s h q w) h).stopping.contains q = true := by
  simp only [disabling, getLom_updLom_self]
  split
  · assumption
  · simp

theorem getF_en_disabling {w : W64} (rising : Rising s.mg) : getF (disabling s h q w) F.LOM_QCTL_EN h q = 1 := by
  rw [disabling, getF_updLom, getF_putF_self (rising_setReg rising ..) _ _ _ _ (by decide) (by decide)]
  rfl

/-- The word LOM_QUEUE_DISABLE writes has EN = 0. -/
theorem bit_en_cleared (v : W64) : bit (setBits v 63 63 0).toNat 63 = false := by
  refine Bool.eq_false_iff.2 fun set => ?_
  have zero : bits (setBits v 63 63 0).toNat 63 63 = 0 := bits_setBits_self (by decide) (by decide)
  exact absurd ((bits_of_bit set).symm.trans zero) (by decide)

theorem queueDmas_disabling {w : W64} : queueDmas (disabling s h q w) h q = queueDmas s h q := by
  rw [queueDmas, dmas_disabling, queueDmas]

/-- Settles O35: while a descriptor of the queue runs EN waits at 1; with none running the held ones leave with
LOM_QUEUE_OFF and EN goes to 0, at the write or when the last one completes. -/
theorem queuesDisable : Obligations.QueuesDisable := by
  unfold Obligations.QueuesDisable
  intro b h q v s canon k j mine
  refine ⟨fun g ranged on => ?_, fun d stop last _ noAfter found => ?complete⟩
  case complete =>
    have ours : d.q = j := by
      have mem : d ∈ mine := (List.mem_filter.1 (last ▸ List.mem_singleton_self d)).1
      exact beq_iff_eq.1 (List.mem_filter.1 mem).2
    refine ⟨_, execDmaDescriptorComplete_found noAfter found, ?_⟩
    rw [ours]
    exact queue_off_after_last canon stop last
  have written : exec (.lomQueueDisable b h q v) s = .next (done (queueOff (disabling s k j (setBits v 63 63 0)) k j)) :=
    congrArg _ (qctlWrite_disable g ranged (bit_en_cleared v) on)
  refine ⟨fun run => ?waits, fun idle => ?off⟩
  case waits =>
    rw [queueOff_of_started (by rwa [queueDmas_disabling])] at written
    exact ⟨_, written, rfl, getF_en_disabling (regs_rising canon.mg), dmas_disabling, stopping_disabling⟩
  case off =>
    rw [queueOff_of_unstarted stopping_disabling (by rwa [queueDmas_disabling]), queueDmas_disabling] at written
    exact ⟨_, _, rfl, dmas_disabling, written⟩

end Sys2Proof.Machine
end

section
/-! SUPPORT. Every command and every step: a next state, the queue, the canonical stores. -/

namespace Sys2Proof.Machine

/-- Whatever command runs, the queue stays and the stores stay canonical. -/
theorem keeps_exec (c : Instr) (s : State) : KeepsX s (exec c s) := by
  cases c with
  | registerWrite => exact keeps_execRegisterWrite .refl
  | readToClear => exact keeps_execReadToClear .refl
  | queueDispatch => exact keeps_execQueueDispatch .refl
  | bubble => exact keeps_execBubble .refl
  | nop => exact keeps_execNop .refl
  | halt => exact keeps_execHalt .refl
  | loop => exact keeps_execLoop .refl
  | loopR => exact keeps_execLoopR .refl
  | endl => exact keeps_execEndl .refl
  | brk => exact keeps_execBrk .refl
  | decide => exact keeps_execDecide .refl
  | stepmark => exact keeps_execStepmark .refl
  | waitT => exact keeps_execWaitT .refl
  | sigT => exact keeps_execSigT .refl
  | sli => exact keeps_execSli .refl
  | sadd => exact keeps_execSadd .refl
  | ssub => exact keeps_execSsub .refl
  | smul => exact keeps_execSmul .refl
  | sand => exact keeps_execSand .refl
  | sor => exact keeps_execSor .refl
  | sxor => exact keeps_execSxor .refl
  | sshl => exact keeps_execSshl .refl
  | sshr => exact keeps_execSshr .refl
  | smovp => exact keeps_execSmovp .refl
  | sld => exact keeps_execSld .refl
  | sst => exact keeps_execSst .refl
  | br => exact keeps_execBr .refl
  | jal => exact keeps_execJal .refl
  | jr => exact keeps_execJr .refl
  | fadd => exact keeps_execFadd .refl
  | fsub => exact keeps_execFsub .refl
  | fmul => exact keeps_execFmul .refl
  | ffma => exact keeps_execFfma .refl
  | fdiv => exact keeps_execFdiv .refl
  | fsqrt => exact keeps_execFsqrt .refl
  | fcmp => exact keeps_execFcmp .refl
  | fcvt => exact keeps_execFcvt .refl
  | sumrd => exact keeps_execSumrd .refl
  | post => exact keeps_execPost .refl
  | patch => exact keeps_execPatch .refl
  | mlw => exact keeps_execMlw .refl
  | msw => exact keeps_execMsw .refl
  | mma => exact keeps_execMma .refl
  | mga => exact keeps_execMga .refl
  | mgd => exact keeps_execMgd .refl
  | mdistL1 => exact keeps_execMdistL1 .refl
  | mdistL2 => exact keeps_execMdistL2 .refl
  | mminplus => exact keeps_execMminplus .refl
  | mmaxplus => exact keeps_execMmaxplus .refl
  | mcmp => exact keeps_execMcmp .refl
  | msl => exact keeps_execMsl .refl
  | vadd => exact keeps_execVadd .refl
  | vmul => exact keeps_execVmul .refl
  | vfma => exact keeps_execVfma .refl
  | vwmul => exact keeps_execVwmul .refl
  | vdot4 => exact keeps_execVdot4 .refl
  | vmax => exact keeps_execVmax .refl
  | vmin => exact keeps_execVmin .refl
  | vcmp => exact keeps_execVcmp .refl
  | vsel => exact keeps_execVsel .refl
  | vsum => exact keeps_execVsum .refl
  | vperm => exact keeps_execVperm .refl
  | vcvt => exact keeps_execVcvt .refl
  | vld => exact keeps_execVld .refl
  | vst => exact keeps_execVst .refl
  | vexp => exact keeps_execVexp .refl
  | vlog2 => exact keeps_execVlog2 .refl
  | vrcp => exact keeps_execVrcp .refl
  | vrsq => exact keeps_execVrsq .refl
  | vtanh => exact keeps_execVtanh .refl
  | vsig => exact keeps_execVsig .refl
  | sumq => exact keeps_execSumq .refl
  | summarySlotFill => exact keeps_execSummarySlotFill .refl
  | trcfg => exact keeps_execTrcfg .refl
  | trcfgTableLoad => exact keeps_execTrcfgTableLoad .refl
  | hget => exact keeps_execHget .refl
  | hput => exact keeps_execHput .refl
  | hcp => exact keeps_execHcp .refl
  | hatom => exact keeps_execHatom .refl
  | instructionComplete => exact keeps_execInstructionComplete .refl
  | tokenDecrement => exact keeps_execTokenDecrement .refl
  | vexcRestart => exact keeps_execVexcRestart .refl
  | vexcRestartNotrap => exact keeps_execVexcRestartNotrap .refl
  | vexcSkip => exact keeps_execVexcSkip .refl
  | vexcHalt => exact keeps_execVexcHalt .refl
  | contextSwitch => exact keeps_execContextSwitch .refl
  | watchdogExpiry => exact keeps_execWatchdogExpiry .refl
  | icsumProgramLoad => exact keeps_execIcsumProgramLoad .refl
  | go => exact keeps_execGo .refl
  | arm => exact keeps_execArm .refl
  | cont => exact keeps_execCont .refl
  | stop => exact keeps_execStop .refl
  | stopSave => exact keeps_execStopSave .refl
  | yield => exact keeps_execYield .refl
  | colmapWrite => exact keeps_execColmapWrite .refl
  | imctlGenWrite => exact keeps_execImctlGenWrite .refl
  | instrStoreWrite => exact keeps_execInstrStoreWrite .refl
  | pshadowWrite => exact keeps_execPshadowWrite .refl
  | pactiveWrite => exact keeps_execPactiveWrite .refl
  | wdogLimitWrite => exact keeps_execWdogLimitWrite .refl
  | paceWrite => exact keeps_execPaceWrite .refl
  | detmodeWrite => exact keeps_execDetmodeWrite .refl
  | fantailEvaluation => exact keeps_execFantailEvaluation .refl
  | pacingRelease => exact keeps_execPacingRelease .refl
  | sensorRead => exact keeps_execSensorRead .refl
  | thermalTrip => exact keeps_execThermalTrip .refl
  | powerSample => exact keeps_execPowerSample .refl
  | barrierRelease => exact keeps_execBarrierRelease .refl
  | solvDoorbell => exact keeps_execSolvDoorbell .refl
  | solvCqRelease => exact keeps_execSolvCqRelease .refl
  | solvCancel => exact keeps_execSolvCancel .refl
  | solverLu => exact keeps_execSolverLu .refl
  | solverChol => exact keeps_execSolverChol .refl
  | solverSolve => exact keeps_execSolverSolve .refl
  | solverResume => exact keeps_execSolverResume .refl
  | solverPanelStep => exact keeps_execSolverPanelStep .refl
  | solverCorrection => exact keeps_execSolverCorrection .refl
  | solverCompletion => exact keeps_execSolverCompletion .refl
  | memoryRead => exact keeps_execMemoryRead .refl
  | memoryWrite => exact keeps_execMemoryWrite .refl
  | memoryAtomic => exact keeps_execMemoryAtomic .refl
  | reproFp64AddApply => exact keeps_execReproFp64AddApply .refl
  | epochOpen => exact keeps_execEpochOpen .refl
  | epochAbort => exact keeps_execEpochAbort .refl
  | epochTimeout => exact keeps_execEpochTimeout .refl
  | tgStart => exact keeps_execTgStart .refl
  | tgStop => exact keeps_execTgStop .refl
  | tgModeSelect => exact keeps_execTgModeSelect .refl
  | tgRunEnd => exact keeps_execTgRunEnd .refl
  | scrubRead => exact keeps_execScrubRead .refl
  | dramRefresh => exact keeps_execDramRefresh .refl
  | trackerHoldRelease => exact keeps_execTrackerHoldRelease .refl
  | bridgeAdmissionResume => exact keeps_execBridgeAdmissionResume .refl
  | weirBlockEncode => exact keeps_execWeirBlockEncode .refl
  | weirBlockDecode => exact keeps_execWeirBlockDecode .refl
  | linkFlitReceive => exact keeps_execLinkFlitReceive .refl
  | linkNak => exact keeps_execLinkNak .refl
  | leatPortRemove => exact keeps_execLeatPortRemove .refl
  | leatLinkTrained => exact keeps_execLeatLinkTrained .refl
  | leatSessionHandshake => exact keeps_execLeatSessionHandshake .refl
  | leatReadReq => exact keeps_execLeatReadReq .refl
  | leatWrite => exact keeps_execLeatWrite .refl
  | leatAtomic => exact keeps_execLeatAtomic .refl
  | leatReadResp => exact keeps_execLeatReadResp .refl
  | leatCompletion => exact keeps_execLeatCompletion .refl
  | leatBulk => exact keeps_execLeatBulk .refl
  | leatTime => exact keeps_execLeatTime .refl
  | leatColl => exact keeps_execLeatColl .refl
  | leatTimeout => exact keeps_execLeatTimeout .refl
  | leatRcommit => exact keeps_execLeatRcommit .refl
  | leatJobEpochWrite => exact keeps_execLeatJobEpochWrite .refl
  | leatSlotDrained => exact keeps_execLeatSlotDrained .refl
  | gwMessageComplete => exact keeps_execGwMessageComplete .refl
  | gwTimeout => exact keeps_execGwTimeout .refl
  | podTimeExchange => exact keeps_execPodTimeExchange .refl
  | hallTimeExchange => exact keeps_execHallTimeExchange .refl
  | ppsEdge => exact keeps_execPpsEdge .refl
  | ppsTimeout => exact keeps_execPpsTimeout .refl
  | ppsOutPulse => exact keeps_execPpsOutPulse .refl
  | ppsOutEnWrite => exact keeps_execPpsOutEnWrite .refl
  | tbHallsetWrite => exact keeps_execTbHallsetWrite .refl
  | refClkLost => exact keeps_execRefClkLost .refl
  | refClkReturn => exact keeps_execRefClkReturn .refl
  | masterTakeover => exact keeps_execMasterTakeover .refl
  | collDoorbell => exact keeps_execCollDoorbell .refl
  | collCqRelease => exact keeps_execCollCqRelease .refl
  | collAbort => exact keeps_execCollAbort .refl
  | allReduce => exact keeps_execAllReduce .refl
  | reduceScatter => exact keeps_execReduceScatter .refl
  | allGather => exact keeps_execAllGather .refl
  | broadcast => exact keeps_execBroadcast .refl
  | allToAll => exact keeps_execAllToAll .refl
  | barrier => exact keeps_execBarrier .refl
  | startBarrier => exact keeps_execStartBarrier .refl
  | startBarrierArrival => exact keeps_execStartBarrierArrival .refl
  | collTimeout => exact keeps_execCollTimeout .refl
  | collSettle => exact keeps_execCollSettle .refl
  | ckpEnable => exact keeps_execCkpEnable .refl
  | ckpNow => exact keeps_execCkpNow .refl
  | ckpAbort => exact keeps_execCkpAbort .refl
  | ckpRelease => exact keeps_execCkpRelease .refl
  | ckpTimerTrigger => exact keeps_execCkpTimerTrigger .refl
  | ckpTargetWrite => exact keeps_execCkpTargetWrite .refl
  | brake => exact keeps_execBrake .refl
  | ckpArrived => exact keeps_execCkpArrived .refl
  | ckpBrakeTimeout => exact keeps_execCkpBrakeTimeout .refl
  | ckpPageCopy => exact keeps_execCkpPageCopy .refl
  | ckpSeal => exact keeps_execCkpSeal .refl
  | restoreVerify => exact keeps_execRestoreVerify .refl
  | restoreVerifyDone => exact keeps_execRestoreVerifyDone .refl
  | restoreCommit => exact keeps_execRestoreCommit .refl
  | restoreCommitDone => exact keeps_execRestoreCommitDone .refl
  | restoreCancel => exact keeps_execRestoreCancel .refl
  | lomlyPortDown => exact keeps_execLomlyPortDown .refl
  | lomlyPortUp => exact keeps_execLomlyPortUp .refl
  | hello => exact keeps_execHello .refl
  | proof => exact keeps_execProof .refl
  | finish => exact keeps_execFinish .refl
  | helloLockoutExpiry => exact keeps_execHelloLockoutExpiry .refl
  | rekey => exact keeps_execRekey .refl
  | rekeyStart => exact keeps_execRekeyStart .refl
  | mrd => exact keeps_execMrd .refl
  | mwr => exact keeps_execMwr .refl
  | desc => exact keeps_execDesc .refl
  | hrsp => exact keeps_execHrsp .refl
  | hwack => exact keeps_execHwack .refl
  | evack => exact keeps_execEvack .refl
  | img => exact keeps_execImg .refl
  | eventSend => exact keeps_execEventSend .refl
  | dmaDescriptorStart => exact keeps_execDmaDescriptorStart .refl
  | dmaDescriptorComplete => exact keeps_execDmaDescriptorComplete .refl
  | lomlyDmaTimeout => exact keeps_execLomlyDmaTimeout .refl
  | lomQueueDisable => exact keeps_execLomQueueDisable .refl
  | hostDoorbellWrite => exact keeps_execHostDoorbellWrite .refl
  | nodePostEvent => exact keeps_execNodePostEvent .refl
  | fstApply => exact keeps_execFstApply .refl
  | fstDiscard => exact keeps_execFstDiscard .refl
  | streamCommit => exact keeps_execStreamCommit .refl
  | targetedTestStart => exact keeps_execTargetedTestStart .refl
  | targetedTestComplete => exact keeps_execTargetedTestComplete .refl
  | periodicTestSlice => exact keeps_execPeriodicTestSlice .refl
  | handshakeStall => exact keeps_execHandshakeStall .refl
  | unitRetireCmd => exact keeps_execUnitRetireCmd .refl
  | unitAdmit => exact keeps_execUnitAdmit .refl
  | unitTest => exact keeps_execUnitTest .refl
  | halfDrain => exact keeps_execHalfDrain .refl
  | halfDrainComplete => exact keeps_execHalfDrainComplete .refl
  | halfReset => exact keeps_execHalfReset .refl
  | halfPowerOff => exact keeps_execHalfPowerOff .refl
  | trustDieBoot => exact keeps_execTrustDieBoot .refl
  | imageLaunch => exact keeps_execImageLaunch .refl
  | imageClear => exact keeps_execImageClear .refl
  | quote => exact keeps_execQuote .refl
  | quoteComplete => exact keeps_execQuoteComplete .refl
  | extend => exact keeps_execExtend .refl
  | debugChallenge => exact keeps_execDebugChallenge .refl
  | debugSubmit => exact keeps_execDebugSubmit .refl
  | debugChallengeExpiry => exact keeps_execDebugChallengeExpiry .refl
  | debugLockoutExpiry => exact keeps_execDebugLockoutExpiry .refl
  | drbgReseed => exact keeps_execDrbgReseed .refl
  | powerUp => exact keeps_execPowerUp .refl
  | inputRemoval => exact keeps_execInputRemoval .refl
  | regulatorFault => exact keeps_execRegulatorFault .refl
  | domainRampDone => exact keeps_execDomainRampDone .refl
  | calibrationStart => exact keeps_execCalibrationStart .refl
  | calibrationDone => exact keeps_execCalibrationDone .refl
  | rstNAssert => exact keeps_execRstNAssert .refl
  | rstNRelease => exact keeps_execRstNRelease .refl
  | halfResetAssert => exact keeps_execHalfResetAssert .refl
  | halfResetRelease => exact keeps_execHalfResetRelease .refl
  | i3cIndexWrite => exact keeps_execI3cIndexWrite .refl
  | i3cPrivateRead => exact keeps_execI3cPrivateRead .refl
  | i3cSetdasa => exact keeps_execI3cSetdasa .refl
  | i3cEntdaa => exact keeps_execI3cEntdaa .refl
  | i3cSnapshot => exact keeps_execI3cSnapshot .refl
  | tapExtest => exact keeps_execTapExtest .refl
  | tapIdcode => exact keeps_execTapIdcode .refl
  | tapSamplePreload => exact keeps_execTapSamplePreload .refl
  | tapDbgChallenge => exact keeps_execTapDbgChallenge .refl
  | tapDbgResponse => exact keeps_execTapDbgResponse .refl
  | tapBypass => exact keeps_execTapBypass .refl
  | tapReset => exact keeps_execTapReset .refl
  | tileApertureAccess => exact keeps_execTileApertureAccess .refl
  | spareSlotTestPass => exact keeps_execSpareSlotTestPass .refl
  | opticalMarginScan => exact keeps_execOpticalMarginScan .refl
  | channelTrainingDone => exact keeps_execChannelTrainingDone .refl

/-- A step without a command waiting lets time pass. -/
theorem step_of_idle {s : State} (idle : s.pending = []) : step s = .next (tickAll s) := by
  rw [step, idle]

/-- The front command runs with the rest of the queue. -/
theorem step_of_front {s : State} {c : Instr} {r : List Instr} (front : s.pending = c :: r) :
    step s = exec c { s with pending := r } := by
  rw [step, front]

/-- The canonical form says nothing of the queue. -/
theorem canon_setPending {s : State} (canon : s.Canon) (r : List Instr) : State.Canon { s with pending := r } :=
  ⟨canon.mg, canon.hbm, canon.cores, canon.ctl, canon.links⟩

/-- Settles O4: time passing and every command keep the stores canonical. -/
theorem stepKeepsCanonical : Obligations.StepKeepsCanonical := by
  unfold Obligations.StepKeepsCanonical
  intro s t canon stepped
  cases queue : s.pending with
  | nil =>
    rw [step_of_idle queue] at stepped
    exact keepsX_next (keeps_tickAll .refl) t stepped |>.2 canon
  | cons c r =>
    rw [step_of_front queue] at stepped
    exact (keeps_exec c _ t stepped).2 (canon_setPending canon r)

/-- Settles O2: each arm of `exec` ends in a next state, and what it is built from keeps the queue. -/
theorem commandsAnswerAndLeaveTheQueue : Obligations.CommandsAnswerAndLeaveTheQueue := by
  unfold Obligations.CommandsAnswerAndLeaveTheQueue
  refine ⟨fun c s => ?answers, fun c s t run => (keeps_exec c s t run).1⟩
  case answers => cases c <;> exact ⟨_, rfl⟩

/-- Settles O1, by the rule for a queue with a front command. -/
theorem stepRunsFront : Obligations.StepRunsFront := by
  unfold Obligations.StepRunsFront
  intro c s r
  exact step_of_front rfl

/-- Settles O3: at reset the five stores are empty. -/
theorem resetCanonical : Obligations.ResetCanonical := by
  unfold Obligations.ResetCanonical
  exact ⟨mwf_nil, memory_wf_iff.2 rising_nil, mwf_nil, mwf_nil, mwf_nil⟩

end Sys2Proof.Machine
end

section
/-! SUPPORT. Where registers lie (R492, R495, R498, R499): blocks and their copies stand apart, and so do the words of
one copy. -/

namespace Sys2Proof.Machine

/-- Instances of a block (R498). -/
def blockCount : Block → Nat
  | .dev | .pwr => 1
  | .core => 4352
  | .row => 64
  | .die => 8
  | .ch => 1024
  | _ => 2

/-- Bytes a copy of a block spans (R498). -/
def blockSize : Block → Nat
  | .dev | .leat => 0x100000
  | .row => 0x80000
  | .sec => 0x2000
  | .fst => 0x2000000
  | .solv => 0x20
  | _ => 0x1000

/-- Offset of word k of a register in its block copy. -/
def wordOff (r : Reg) (k : Nat) : Nat := (regSpec r).off + (regSpec r).stride * k

theorem regAddr_eq (r : Reg) (i k : Nat) : regAddr r i k = blockBase (regSpec r).blk i + wordOff r k := Nat.add_assoc ..

/-- The words of a register lie inside its block. -/
theorem wordOff_lt_blockSize {r : Reg} {k : Nat} (word : k < (regSpec r).count) :
    wordOff r k < blockSize (regSpec r).blk := by
  have last : (regSpec r).off + (regSpec r).stride * ((regSpec r).count - 1) < blockSize (regSpec r).blk := by
    cases r <;> decide
  have : (regSpec r).stride * k ≤ (regSpec r).stride * ((regSpec r).count - 1) := Nat.mul_le_mul_left _ (by omega)
  rw [wordOff]
  omega

/-- Every register has a first word. -/
theorem count_pos (r : Reg) : 0 < (regSpec r).count := by cases r <;> decide

/-- An offset in a half region, under the half and its base (R495). -/
theorem blockOf_half {h o : Nat} (half : h < 2) (inside : o < 0x10000000) : blockOf (halfBase h + o) = halfBlockOf h o := by
  have base : halfBase h = 0x7F0010000000 + h * 0x10000000 := rfl
  have region : (halfBase h + o - 0x7F0010000000) / 0x10000000 = h := by omega
  have offset : (halfBase h + o - 0x7F0010000000) % 0x10000000 = o := by omega
  unfold blockOf
  simp (disch := omega) only [if_neg, if_pos]
  rw [region, offset]

/-- The address of an offset in a block copy determines both. -/
theorem blockOf_blockBase {b : Block} {i o : Nat} (inst : i < blockCount b) (inside : o < blockSize b) :
    blockOf (blockBase b i + o) = some (b, i, o) := by
  cases b
  case dev | pwr | seam | solv =>
    simp only [blockCount, blockSize] at inst inside
    unfold blockOf blockBase
    simp (disch := omega) only [if_neg, if_pos, Option.some.injEq, Prod.mk.injEq, true_and]
    omega
  all_goals
    simp only [blockCount, blockSize] at inst inside
    simp only [blockBase, Nat.add_assoc]
    rw [blockOf_half (by omega) (by omega)]
    unfold halfBlockOf
    simp (disch := omega) only [if_neg, if_pos, Option.some.injEq, Prod.mk.injEq, true_and]
    omega

/-- Words of different blocks, of different copies of one, or at different offsets have different addresses. -/
theorem regAddr_ne {r r' : Reg} {i i' k k' : Nat} (inst : i < blockCount (regSpec r).blk) (word : k < (regSpec r).count)
    (inst' : i' < blockCount (regSpec r').blk) (word' : k' < (regSpec r').count)
    (apart : (regSpec r).blk ≠ (regSpec r').blk ∨ i ≠ i' ∨ wordOff r k ≠ wordOff r' k') :
    regAddr r i k ≠ regAddr r' i' k' := by
  intro same
  rw [regAddr_eq, regAddr_eq] at same
  have found := congrArg blockOf same
  rw [blockOf_blockBase inst (wordOff_lt_blockSize word), blockOf_blockBase inst' (wordOff_lt_blockSize word')] at found
  simp only [Option.some.injEq, Prod.mk.injEq] at found
  tauto

/-- Words of one block copy. -/
theorem regAddr_ne_word {r r' : Reg} {i k k' : Nat} (apart : (regSpec r).blk = (regSpec r').blk ∧ wordOff r k ≠ wordOff r' k') :
    regAddr r i k ≠ regAddr r' i k' := by
  rw [regAddr_eq, regAddr_eq, apart.1]
  omega

/-- Words of one register in one copy. -/
theorem regAddr_ne_index {r : Reg} {i k k' : Nat} (other : k ≠ k') (several : 0 < (regSpec r).stride) :
    regAddr r i k ≠ regAddr r i k' := by
  refine regAddr_ne_word ⟨rfl, fun same => other ?_⟩
  exact Nat.eq_of_mul_eq_mul_left several (Nat.add_left_cancel same)

end Sys2Proof.Machine
end

section
/-! SUPPORT. A step of a gang (R29-R31): what it counts, and what it leaves alone. -/

namespace Sys2Proof.Machine

variable {s t : State} {l : Nat}

/-! States that differ in registers and streams alone. -/

/-- Nothing but registers and streams differs. -/
def RegsCtl (s t : State) : Prop := t = { s with mg := t.mg, ctl := t.ctl }

theorem RegsCtl.refl : RegsCtl s s := rfl

theorem RegsCtl.trans {u : State} (a : RegsCtl s t) (b : RegsCtl t u) : RegsCtl s u := by
  unfold RegsCtl at *
  rw [b, a]

theorem RegsCtl.foldl {β : Type} {f : State → β → State} (step : ∀ s x, RegsCtl s (f s x)) (xs : List β) :
    RegsCtl s (xs.foldl f s) := by
  induction xs generalizing s with
  | nil => exact .refl
  | cons x xs ih => exact (step s x).trans ih

theorem regsCtl_setReg {r : Reg} {i k : Nat} {v : W64} : RegsCtl s (setReg s r i k v) := rfl
theorem regsCtl_bumpF {f : Fld} {i n k : Nat} : RegsCtl s (bumpF s f i n k) := rfl
theorem regsCtl_updSeq {f : Ctl → Ctl} : RegsCtl s (updSeq s l f) := rfl

theorem regsCtl_paceAnchor : RegsCtl s (paceAnchor s l) := by
  unfold paceAnchor
  extract_lets c now
  split
  · exact regsCtl_updSeq
  · exact .refl

theorem regsCtl_countLoadWait : RegsCtl s (countLoadWait s l) := by
  unfold countLoadWait
  split
  · exact .foldl (fun _ _ => regsCtl_bumpF) _
  · exact .refl

theorem regsCtl_countRows (rows : List Nat) : RegsCtl s (countRows s rows) := .foldl (fun _ _ => regsCtl_setReg) _

theorem regsCtl_landPatches {n : Nat} : RegsCtl s (landPatches s l n) := by
  unfold landPatches
  extract_lets due
  split
  · exact .refl
  · exact (RegsCtl.foldl (fun _ _ => regsCtl_setReg) _).trans regsCtl_updSeq

/-! Streams of leaders: an update of one leaves what it does not mention. -/

theorem seqCtl_updSeq_keeps {α : Type} (w : Rising s.ctl) {f : Ctl → Ctl} (π : Ctl → α) (keep : ∀ c, π (f c) = π c) (m : Nat) :
    π (seqCtl (updSeq s l f) m) = π (seqCtl s m) := by
  by_cases same : procNum (seqOf m) = procNum (seqOf l)
  · have self : ∀ t : State, seqCtl t m = seqCtl t l := fun t => by rw [seqCtl, seqCtl, getCtl, getCtl, same]
    rw [self, self, updSeq, setSeq, seqCtl, getCtl_setCtl_self w]
    exact keep _
  · rw [updSeq, setSeq, seqCtl, getCtl_setCtl_ne w same, seqCtl]

/-! The counts of the rows and who leads them. -/

/-- The same step counts and leaders in every row. -/
structure SameCounts (s t : State) : Prop where
  rowStep : ∀ r, r < 64 → reg t .rowStep r 0 = reg s .rowStep r 0
  rowGang : ∀ r, r < 64 → reg t .rowGang r 0 = reg s .rowGang r 0

theorem SameCounts.refl : SameCounts s s := ⟨fun _ _ => rfl, fun _ _ => rfl⟩

theorem SameCounts.trans {u : State} (a : SameCounts s t) (b : SameCounts t u) : SameCounts s u :=
  ⟨fun r lt => (b.rowStep r lt).trans (a.rowStep r lt), fun r lt => (b.rowGang r lt).trans (a.rowGang r lt)⟩

theorem SameCounts.rowLeader (same : SameCounts s t) {r : Nat} (lt : r < 64) : rowLeader t r = rowLeader s r :=
  congrArg (fun x : W64 => bits x.toNat _ _) (same.rowGang r lt)

/-- Writes that each keep the counts keep them together. -/
theorem sameCounts_foldl {β : Type} {f : State → β → State} {xs : List β} (w : Rising s.mg)
    (step : ∀ s, ∀ x ∈ xs, Rising s.mg → Rising (f s x).mg ∧ SameCounts s (f s x)) :
    Rising (xs.foldl f s).mg ∧ SameCounts s (xs.foldl f s) := by
  induction xs generalizing s with
  | nil => exact ⟨w, .refl⟩
  | cons x xs ih =>
    obtain ⟨rising, same⟩ := step s x (by simp) w
    obtain ⟨rising', same'⟩ := ih rising fun s y mem => step s y (by simp [mem])
    exact ⟨rising', same.trans same'⟩

/-- A write that meets neither register. -/
theorem sameCounts_setReg {q : Reg} {i k : Nat} {v : W64} (w : Rising s.mg)
    (step : ∀ r, r < 64 → regAddr .rowStep r 0 ≠ regAddr q i k) (gang : ∀ r, r < 64 → regAddr .rowGang r 0 ≠ regAddr q i k) :
    SameCounts s (setReg s q i k v) :=
  ⟨fun r lt => reg_setReg_ne w (step r lt), fun r lt => reg_setReg_ne w (gang r lt)⟩

/-- No register of a core, whatever the slot, is one of a row. -/
theorem regAddr_row_ne_core {q c : Reg} {r p k : Nat} (row : (regSpec q).blk = .row) (core : (regSpec c).blk = .core)
    (_ : r < 64) (word : k < (regSpec q).count) : regAddr q r k ≠ regAddr c p 0 := by
  have inRow := wordOff_lt_blockSize word
  have inCore := wordOff_lt_blockSize (count_pos c)
  simp only [row, core, blockSize] at inRow inCore
  rw [regAddr_eq, regAddr_eq, row, core]
  simp only [blockBase, halfBase]
  omega

theorem sameCounts_countLoadWait (w : Rising s.mg) :
    Rising (countLoadWait s l).mg ∧ SameCounts s (countLoadWait s l) := by
  unfold countLoadWait
  split
  · exact sameCounts_foldl w fun s p _ w => ⟨rising_bumpF w .., sameCounts_setReg w
      (fun r lt => regAddr_row_ne_core rfl rfl lt (count_pos _)) fun r lt => regAddr_row_ne_core rfl rfl lt (count_pos _)⟩
  · exact ⟨w, .refl⟩

/-- The shadow set of a row lies past its first registers. -/
theorem regAddr_ne_rowPshadow {q : Reg} {r n : Nat} (row : (regSpec q).blk = .row) (first : wordOff q 0 < 0x200)
    (lt : r < 64) (lt' : l < 64) (word : n < 64) : regAddr q r 0 ≠ regAddr .rowPshadow l n := by
  refine regAddr_ne (by rwa [row]) (count_pos _) lt' word (.inr (.inr ?_))
  change wordOff q 0 ≠ 0x200 + 8 * n
  omega

theorem sameCounts_landPatches {n : Nat} (w : Rising s.mg) (lt : l < 64) (inside : ∀ p ∈ (seqCtl s l).patches, p.reg < 64) :
    SameCounts s (landPatches s l n) := by
  unfold landPatches
  extract_lets due landed
  split
  · exact .refl
  · refine .trans (t := landed) (sameCounts_foldl w fun s p mem w => ⟨rising_setReg w .., ?_⟩).2 ⟨fun _ _ => rfl, fun _ _ => rfl⟩
    have word : p.reg < 64 := inside p (List.mem_of_mem_filter mem)
    exact sameCounts_setReg w (fun r lt' => regAddr_ne_rowPshadow rfl (by decide) lt' lt word)
      fun r lt' => regAddr_ne_rowPshadow rfl (by decide) lt' lt word

/-! One step, up to a halt that another row ordered. -/

/-- The gang with its load waits counted and its pacing anchored: its rows have not stepped yet. -/
def beforeCount (s : State) (l : Nat) : State := countLoadWait (paceAnchor s l) l

theorem tick_eq (s : State) (l : Nat) : tick s l = stepEvents (countRows (beforeCount s l) (gangRows s l)) l := rfl

theorem seqCtl_eq_of_ctl (same : t.ctl = s.ctl) (m : Nat) : seqCtl t m = seqCtl s m := by
  rw [seqCtl, getCtl, same]
  rfl

theorem ctl_countRows (rows : List Nat) : (countRows s rows).ctl = s.ctl := by
  rw [countRows_mg_only]

theorem ctl_countLoadWait : (countLoadWait s l).ctl = s.ctl := by
  unfold countLoadWait
  split
  · exact List.foldlRecOn (motive := fun t : State => t.ctl = s.ctl) _ _ rfl fun _ same _ _ => same
  · rfl

theorem mg_paceAnchor : (paceAnchor s l).mg = s.mg := by
  unfold paceAnchor
  extract_lets c now
  split <;> rfl

/-- What anchoring the pacing leaves of a stream. -/
theorem seqCtl_paceAnchor_keeps {α : Type} (w : Rising s.ctl) (π : Ctl → α)
    (keep : ∀ c t n, π { c with paceT0 := t, paceN := n, paceRel := 1 } = π c) (m : Nat) :
    π (seqCtl (paceAnchor s l) m) = π (seqCtl s m) := by
  unfold paceAnchor
  extract_lets c now
  split
  · exact seqCtl_updSeq_keeps w π (fun c => keep c _ _) m
  · rfl

/-- Of the streams, counting changes only what anchoring changes. -/
theorem seqCtl_counted (m : Nat) :
    seqCtl (countRows (beforeCount s l) (gangRows s l)) m = seqCtl (paceAnchor s l) m :=
  seqCtl_eq_of_ctl ((ctl_countRows _).trans ctl_countLoadWait) m

theorem sameCounts_beforeCount (w : Rising s.mg) : Rising (beforeCount s l).mg ∧ SameCounts s (beforeCount s l) := by
  have e : (paceAnchor s l).mg = s.mg := mg_paceAnchor
  have same : SameCounts s (paceAnchor s l) := ⟨fun r _ => by rw [reg, e, reg], fun r _ => by rw [reg, e, reg]⟩
  obtain ⟨rising, same'⟩ := sameCounts_countLoadWait (l := l) (e.symm ▸ w)
  exact ⟨rising, same.trans same'⟩

theorem gangRows_lt {r : Nat} (mem : r ∈ gangRows s l) : r < 64 := List.mem_range.1 (List.mem_of_mem_filter mem)

theorem gangRows_nodup : (gangRows s l).Nodup := List.nodup_range.filter _

theorem rising_countRows (w : Rising s.mg) (rows : List Nat) : Rising (countRows s rows).mg :=
  List.foldlRecOn (motive := fun t : State => Rising t.mg) _ _ w fun _ w _ _ => rising_setReg w ..

/-- Each row of the gang counts one. -/
theorem rowStep_counted (w : Rising s.mg) {r : Nat} (mem : r ∈ gangRows s l) :
    reg (countRows (beforeCount s l) (gangRows s l)) .rowStep r 0 = reg s .rowStep r 0 + 1 := by
  obtain ⟨rising, same⟩ := sameCounts_beforeCount (l := l) w
  rw [countRows_rowStep rising gangRows_nodup (fun _ => gangRows_lt) mem, same.rowStep r (gangRows_lt mem)]

/-- Counting moves no row to another gang. -/
theorem rowLeader_counted (w : Rising s.mg) (lt : l < 64) :
    rowLeader (countRows (beforeCount s l) (gangRows s l)) l = rowLeader s l := by
  obtain ⟨rising, same⟩ := sameCounts_beforeCount (l := l) w
  rw [← same.rowLeader lt]
  refine congrArg (fun x : W64 => bits x.toNat _ _) (countRows_word rising _ fun r mem => ?_)
  exact regAddr_ne lt (count_pos _) (gangRows_lt mem) (count_pos _) (.inr (.inr (by decide)))

/-- The leader's engines count at most one step more. -/
theorem stepNow_counted_le (canon : s.Canon) (lt : l < 64) :
    stepNow (countRows (beforeCount s l) (gangRows s l)) l ≤ stepNow s l + 1 := by
  have w : Rising s.mg := regs_rising canon.mg
  have lag : (seqCtl (countRows (beforeCount s l) (gangRows s l)) (rowLeader s l)).lag = (seqCtl s (rowLeader s l)).lag := by
    rw [seqCtl_counted]
    exact seqCtl_paceAnchor_keeps (mwf_iff.1 canon.ctl).1 Ctl.lag (fun _ _ _ => rfl) _
  have steps : rowSteps (countRows (beforeCount s l) (gangRows s l)) l ≤ rowSteps s l + 1 := by
    by_cases mem : l ∈ gangRows s l
    · rw [rowSteps, rowStep_counted w mem, rowSteps, BitVec.toNat_add]
      exact Nat.mod_le ..
    · obtain ⟨rising, same⟩ := sameCounts_beforeCount (l := l) w
      have still : reg (countRows (beforeCount s l) (gangRows s l)) .rowStep l 0 = reg s .rowStep l 0 :=
        (countRows_word rising _ fun r mem' => rowStep_addr (gangRows_lt mem') lt
          fun e : l = r => mem (by rwa [← e] at mem')).trans (same.rowStep l lt)
      rw [rowSteps, still, rowSteps]
      exact Nat.le_succ _
  rw [stepNow, rowLeader_counted w lt, lag, stepNow]
  omega

/-- A halt whose step has not come does not take effect. -/
theorem takeLateHalt_early (early : ∀ x, (seqCtl s l).lateHalt = some x → stepNow s l < x.at') : takeLateHalt s l = s := by
  unfold takeLateHalt
  split
  case h_1 x due => exact if_neg (early x due).not_ge
  case h_2 => rfl

theorem seqCtl_landPatches_keeps {α : Type} {n : Nat} (w : Rising s.ctl) (π : Ctl → α)
    (keep : ∀ c p d, π { c with patches := p, landed := d } = π c) (m : Nat) :
    π (seqCtl (landPatches s l n) m) = π (seqCtl s m) := by
  unfold landPatches
  extract_lets due landed
  have ctl : landed.ctl = s.ctl :=
    List.foldlRecOn (motive := fun t : State => t.ctl = s.ctl) _ _ rfl fun _ same _ _ => same
  split
  · rfl
  · rw [seqCtl_updSeq_keeps (ctl ▸ w) π fun c => keep c _ _, seqCtl_eq_of_ctl ctl]

/-- Where no ordered halt takes effect, a step is the counts of the rows and the patches that land. -/
theorem tick_unhalted (canon : s.Canon) (lt : l < 64) (inside : ∀ p ∈ (seqCtl s l).patches, p.reg < 64)
    (early : ∀ x, (seqCtl s l).lateHalt = some x → stepNow s l + 1 < x.at') :
    tick s l = landPatches (countRows (beforeCount s l) (gangRows s l)) l
      (stepNow (countRows (beforeCount s l) (gangRows s l)) l) := by
  have ctlW : Rising s.ctl := (mwf_iff.1 canon.ctl).1
  have counts := stepNow_counted_le canon lt
  have canon' : (countRows (beforeCount s l) (gangRows s l)).Canon :=
    (keeps_foldl (keeps_countLoadWait (keeps_paceAnchor .refl)) fun _ _ k => keeps_setReg k).2 canon
  have halt := seqCtl_paceAnchor_keeps (l := l) ctlW Ctl.lateHalt (fun _ _ _ => rfl) l
  have patches := seqCtl_paceAnchor_keeps (l := l) ctlW Ctl.patches (fun _ _ _ => rfl) l
  rw [← seqCtl_counted] at halt patches
  rw [tick_eq]
  generalize countRows (beforeCount s l) (gangRows s l) = u at canon' counts halt patches ⊢
  have ctlU : Rising u.ctl := (mwf_iff.1 canon'.ctl).1
  have same : SameCounts u (landPatches u l (stepNow u l)) :=
    sameCounts_landPatches (regs_rising canon'.mg) lt (patches ▸ inside)
  have steps : stepNow (landPatches u l (stepNow u l)) l = stepNow u l := by
    rw [stepNow, rowSteps, same.rowStep l lt, same.rowLeader lt,
      seqCtl_landPatches_keeps ctlU Ctl.lag (fun _ _ _ => rfl), stepNow, rowSteps]
  refine takeLateHalt_early fun x due => ?_
  rw [seqCtl_landPatches_keeps ctlU Ctl.lateHalt (fun _ _ _ => rfl), halt] at due
  have := early x due
  omega

/-- Settles O5: up to an ordered halt a step counts in the gang's rows and lands patches, registers of other places; a plain
step does nothing but count. -/
theorem stepCountsInEveryRow : Obligations.StepCountsInEveryRow := by
  unfold Obligations.StepCountsInEveryRow
  intro s l canon lt
  have w : Rising s.mg := regs_rising canon.mg
  refine ⟨fun inside early => ?unhalted, fun plain => ⟨fun a other => tick_word w plain other, tick_mg_only plain⟩⟩
  case unhalted =>
    rw [tick_unhalted canon lt inside early]
    refine ⟨fun r mem => ?counted, ?frame⟩
    case counted =>
      have patches := seqCtl_paceAnchor_keeps (l := l) (mwf_iff.1 canon.ctl).1 Ctl.patches (fun _ _ _ => rfl) l
      rw [← seqCtl_counted] at patches
      rw [(sameCounts_landPatches (rising_countRows (sameCounts_beforeCount w).1 _) lt (patches ▸ inside)).rowStep r
        (gangRows_lt mem), rowStep_counted w mem]
    case frame =>
      exact (regsCtl_paceAnchor.trans regsCtl_countLoadWait).trans (regsCtl_countRows _) |>.trans regsCtl_landPatches

end Sys2Proof.Machine
end

section
/-! SUPPORT. Scalar instructions and jumps (R158, R166, R180): what an accepted word does, and the proofs of their
obligations. -/

namespace Sys2Proof.Machine

variable {s : State} {u : Proc} {w : BitVec 56} {n : Nat}

/-! Words that decode. -/

theorem fetched_of_fresh (fresh : staleWord s u = false) (f : State → State) : fetched s u f = f s := by
  rw [fetched, if_neg (by simp [fresh])]

/-- Only a core stream's words carry a generation. -/
theorem staleWord_of_ne (control : ∀ l, u ≠ .seq l) : staleWord s u = false := by
  cases u with
  | seq l => exact absurd rfl (control l)
  | rcc r => rfl
  | node h c => rfl

/-- The control subset is refused on a core stream (R147). -/
theorem controlOnly_seq {l : BitVec 6} (go : canExec s (.seq l) = true) (fresh : staleWord s (.seq l) = false)
    (f : State → State) : controlOnly s (.seq l) f = refuseNext s (.seq l) rcQueueClass := by
  rw [controlOnly, if_pos go, fetched_of_fresh fresh]

/-! Results without flags. -/

/-- A legal scalar instruction whose value raises no flag: sD, pc and time. -/
theorem scalarExec_noFlags (canon : s.Canon) (go : canExec s u = true) (fresh : staleWord s u = false) {legal : Bool}
    (ok : legal = true) (v : State → Ctl → W64) :
    scalarExec s u w legal n (fun s c => (v s c, flNone)) =
      spend (setCtl s u { setSreg (getCtl s u) (fSD w) (v s (getCtl s u)) with pc := (getCtl s u).pc + 1 }) u n := by
  rw [scalarExec_eq (mwf_iff.1 canon.ctl).1 go fresh ok]
  simp only [arith_flNone]
  rfl

theorem aluExec_legal (canon : s.Canon) (go : canExec s u = true) (fresh : staleWord s u = false)
    (ok : aluLegal w = true) (f : W64 → W64 → W64) :
    aluExec s u w f = spend (setCtl s u { setSreg (getCtl s u) (fSD w) (f (sreg (getCtl s u) (fSA w))
      (operand2 (getCtl s u) w)) with pc := (getCtl s u).pc + 1 }) u 1 :=
  scalarExec_noFlags canon go fresh ok fun _ c => f (sreg c (fSA w)) (operand2 c w)

/-- Settles O6: each instruction is `scalarExec` with a value that raises no flag. -/
theorem scalarIntegerResults : Obligations.ScalarIntegerResults := by
  unfold Obligations.ScalarIntegerResults
  intro u w s canon go fresh c a b put
  refine ⟨fun clear => ?sli, fun clear => ?smovp, fun ok => ?alu⟩
  case sli => exact congrArg _ (scalarExec_noFlags canon go fresh (by rw [clear]; rfl) fun _ _ => w64 (sIMM32 w))
  case smovp => exact congrArg _ (scalarExec_noFlags canon go fresh (by rw [clear]; rfl) fun s _ => preg s u (bits w.toNat 45 40))
  case alu =>
    have result (f : W64 → W64 → W64) : Host.Outcome.next (aluExec s u w f) = (.next (put (f a b)) : Out) :=
      congrArg _ (aluExec_legal canon go fresh ok f)
    exact ⟨result _, result _, result _, result _, result _, result _, result fun a b => a <<< (b.toNat % 64),
      result fun a b => a >>> (b.toNat % 64)⟩

/-! Results with flags. -/

/-- sD, flags, pc and time of a scalar instruction with a flagged value (R81, R180). -/
def putFlagged (s : State) (u : Proc) (w : BitVec 56) (n : Nat) (r : W64 × Fl) : State :=
  spend (setCtl s u { setSreg (getCtl s u) (fSD w) r.1 with
    pc := (getCtl s u).pc + 1,
    arith := setBits ((getCtl s u).arith ||| BitVec.ofNat 64 r.2.bits.toNat) 47 32
      (satAdd 16 (bits (getCtl s u).arith.toNat 47 32) r.2.sat) }) u n

section
variable (control : ∀ l, u ≠ .seq l)
include control

theorem scalarExec_control (canon : s.Canon) (go : canExec s u = true) {legal : Bool} (ok : legal = true)
    (v : State → Ctl → W64 × Fl) : scalarExec s u w legal n v = putFlagged s u w n (v s (getCtl s u)) :=
  scalarExec_eq (mwf_iff.1 canon.ctl).1 go (staleWord_of_ne control) ok

theorem fpExec_control (canon : s.Canon) (go : canExec s u = true) {mask : Nat} (clear : strayBits w mask = false)
    (f : Num → Num → Num → Num × Fl) : fpExec s u w mask n f = putFlagged s u w n (f64Op (f (f64Num (sreg (getCtl s u) (fSA w)))
      (f64Num (sreg (getCtl s u) (fSB w))) (f64Num (sreg (getCtl s u) (fSD w))))) := by
  rw [fpExec, controlOnly_of_ne control, scalarExec_control control canon go (by simp [clear])]

/-- Only a core stream's time is more than its own. -/
theorem putFlagged_free (r : W64 × Fl) : (putFlagged s u w n r).free = s.free := by
  cases u with
  | seq l => exact absurd rfl (control l)
  | rcc r => rfl
  | node h c => rfl

end

/-- Settles O7: a core stream is refused before anything else; a control stream runs `scalarExec`. -/
theorem scalarFloatResults : Obligations.ScalarFloatResults := by
  unfold Obligations.ScalarFloatResults
  refine ⟨fun l w s go fresh => ?core, ?control⟩
  case core =>
    have refused (f : State → State) := congrArg (Host.Outcome.next (φ := Fault) (ρ := Refusal))
      (controlOnly_seq go fresh f)
    exact ⟨refused _, refused _, refused _, refused _, refused _, refused _, refused _, refused _⟩
  case control =>
    intro u w s canon go control c a b d put
    refine ⟨fun clear => ?three, fun clear => ?sqrt, fun clear pred => ?fcmp, fun clear rnd noFlag => ?fcvt⟩
    case three =>
      have result (n : Nat) (f : Num → Num → Num → Num × Fl) : Host.Outcome.next (fpExec s u w (mSD + mSA + mSB) n f) =
          (.next (put n (f64Op (f a b d))) : Out) := congrArg _ (fpExec_control control canon go clear f)
      exact ⟨result 4 fun a b _ => a.add b, result 4 fun a b _ => a.add b.neg, result 4 fun a b _ => a.mul b,
        result 4 fun a b d => a.fma b d, result 24 fun a b _ => a.div b⟩
    case sqrt => exact congrArg _ (fpExec_control control canon go clear fun a _ _ => a.sqrt)
    case fcmp =>
      refine congrArg _ ((controlOnly_of_ne control _).trans ?_)
      exact scalarExec_control control canon go (by simp [clear, pred]) _
    case fcvt =>
      intro r x t
      refine congrArg _ ((controlOnly_of_ne control _).trans ?_)
      rw [scalarExec_control control canon go ?legal]
      case legal => simp [clear, rnd, noFlag]
      have free : t.free = s.free := putFlagged_free control _
      rw [← free]
      exact if_congr (and_iff_right go) rfl rfl

/-! Jumps. -/

theorem jumpTo_inside {t : Int} (inside : 0 ≤ t ∧ t < (progOf s u).words.length) (f : Ctl → Ctl) :
    jumpTo s u t n f = spend (setCtl s u { f (getCtl s u) with pc := t.toNat }) u n :=
  if_neg (by omega)

/-- Settles O8: a core stream is refused; a control stream's accepted word jumps inside its program, or goes on. -/
theorem controlStreamJumps : Obligations.ControlStreamJumps := by
  unfold Obligations.ControlStreamJumps
  refine ⟨fun l w s go fresh => ?core, ?control⟩
  case core =>
    have refused (f : State → State) := congrArg (Host.Outcome.next (φ := Fault) (ρ := Refusal))
      (controlOnly_seq go fresh f)
    exact ⟨refused _, refused _, refused _⟩
  case control =>
    intro u w s canon go control c inside t
    refine ⟨fun clear cond => ⟨fun taken target => ?taken, fun untaken => ?untaken⟩, fun clear target => ?jal,
      fun clear target => ?jr⟩
    case taken =>
      refine congrArg _ ((controlOnly_of_ne control _).trans ?_)
      rw [if_neg (by simp [go]), if_neg (by simp [clear, cond]), if_pos taken]
      exact jumpTo_inside target id
    case untaken =>
      refine congrArg _ ((controlOnly_of_ne control _).trans ?_)
      rw [if_neg (by simp [go]), if_neg (by simp [clear, cond]), if_neg (Bool.eq_false_iff.1 untaken)]
      exact retire_eq u 2
    case jal =>
      refine congrArg _ ((controlOnly_of_ne control _).trans ?_)
      rw [if_neg (by simp [go]), if_neg (by simp [clear])]
      exact jumpTo_inside target _
    case jr =>
      refine congrArg _ ((controlOnly_of_ne control _).trans ?_)
      rw [if_neg (by simp [go]), if_neg (by simp [clear])]
      exact jumpTo_inside target id

end Sys2Proof.Machine
end

section
/-! SUPPORT. Control streams: loads and stores (R159), the row control core's own commands (R166, R181-R186), and the proofs of
their obligations. -/

namespace Sys2Proof.Machine

variable {s t : State} {u : Proc} {w : BitVec 56} {n : Nat} {v : W64}

/-! SLD and SST. -/

section
variable (control : ∀ l, u ≠ .seq l)
include control

/-- A load that does not wait and is served. -/
theorem execSld_served (go : canExec s u = true) (clear : strayBits w (mSD + mSA + mIMM32) = false)
    (free : targetHeld s (loadTarget u (loadAddr (getCtl s u) w)) = false)
    (served : loadFrom s u (loadTarget u (loadAddr (getCtl s u) w)) = (t, some v)) :
    execSld u w s = .next (retire (updCtl t u fun c => setSreg c (fSD w) v) u 2) := by
  refine congrArg _ ((controlOnly_of_ne control _).trans ?_)
  extract_lets target
  rw [if_neg (by simp [go, target, free]), if_neg (by simp [clear]), served]

/-- A load across a seam that admits nothing waits. -/
theorem execSld_held (held : targetHeld s (loadTarget u (loadAddr (getCtl s u) w)) = true) : execSld u w s = .next s := by
  refine congrArg _ ((controlOnly_of_ne control _).trans ?_)
  extract_lets target
  rw [if_pos (.inr held)]

/-- A store that is served or posted. -/
theorem execSst_served (go : canExec s u = true) (clear : strayBits w (mSA + mSB + mIMM32) = false)
    (served : storeTo s u (loadTarget u (loadAddr (getCtl s u) w)) (sreg (getCtl s u) (fSB w)) = (t, true)) :
    execSst u w s = .next (retire t u 2) := by
  refine congrArg _ ((controlOnly_of_ne control _).trans ?_)
  extract_lets c target
  rw [if_neg (by simp [go]), if_neg (by simp [clear]), served]

end

/-- Settles O9: by the place the address names. -/
theorem scalarLoadsAndStores : Obligations.ScalarLoadsAndStores := by
  unfold Obligations.ScalarLoadsAndStores
  refine ⟨?loads, ?stores⟩
  case loads =>
    intro u w s go control clear put
    refine ⟨fun r o at' => ?_, fun a v at' got => ?_, fun h a at' => ⟨fun held => ?_, fun free ok => ?_⟩⟩
    · exact execSld_served control go clear (by rw [at']; rfl) (by rw [at']; rfl)
    · exact execSld_served control go clear (by rw [at']; rfl) (by rw [at']; simp only [loadFrom, got])
    · exact execSld_held control (by rw [at']; exact held)
    · exact execSld_served control go clear (by rw [at']; exact free) (by rw [at']; simp only [loadFrom, ok, if_true])
  case stores =>
    intro u w s go control clear v
    refine ⟨fun r o at' => ?_, fun a at' ok => ?_, fun h a at' t c wrote done => ?_⟩
    · exact execSst_served control go clear (by rw [at']; rfl)
    · exact execSst_served control go clear (by rw [at']; simp [storeTo, v, ok])
    · refine execSst_served control go clear (t := t) ?_
      rw [at', storeTo, wrote]
      obtain rfl | rfl := done <;> rfl

/-! The row control core's time is its own. -/

theorem seqOf_toNat (l : BitVec 6) : seqOf l.toNat = .seq l := congrArg Proc.seq (BitVec.ofNat_toNat ..)

theorem updSeq_toNat (s : State) (l : BitVec 6) (f : Ctl → Ctl) : updSeq s l.toNat f = updCtl s (.seq l) f := by
  rw [updSeq, setSeq, seqCtl, seqOf_toNat, updCtl]

theorem rising_updSeq (rising : Rising s.ctl) (l : Nat) (f : Ctl → Ctl) : Rising (updSeq s l f).ctl := rising_mset rising

theorem getCtl_updSeq_rcc (rising : Rising s.ctl) (l : Nat) (r : BitVec 6) (f : Ctl → Ctl) :
    getCtl (updSeq s l f) (.rcc r) = getCtl s (.rcc r) :=
  getCtl_setCtl_ne rising fun same => procNum_seq_rcc (BitVec.ofNat 6 l) r same.symm

/-- An update that leaves the steps out of account as they are. -/
theorem stepNow_updSeq (rising : Rising s.ctl) {f : Ctl → Ctl} (keep : ∀ c, (f c).lag = c.lag) (l r : Nat) :
    stepNow (updSeq s l f) r = stepNow s r := by
  rw [stepNow, show rowLeader (updSeq s l f) r = rowLeader s r from rfl, seqCtl_updSeq_keeps rising Ctl.lag keep]
  rfl

/-- The core is done with an instruction and holds it n steps. -/
theorem retire_rcc (rising : Rising s.ctl) (r : BitVec 6) (f : Ctl → Ctl) :
    retire (updCtl s (.rcc r) f) (.rcc r) n = setCtl s (.rcc r) { f (getCtl s (.rcc r)) with
      pc := (f (getCtl s (.rcc r))).pc + 1, busy := stepNow s r.toNat + n } := by
  rw [retire_eq, updCtl, getCtl_setCtl_self rising, setCtl_setCtl rising, spend_rcc rising]

theorem execSumrd_full {r : BitVec 6} (canon : s.Canon) (go : canExec s (.rcc r) = true)
    (clear : strayBits w (mSD + 0xF) = false) (full : bit (getCtl s (.rcc r)).full.toNat (bits w.toNat 3 0) = true) :
    execSumrd r w s = .next (setCtl s (.rcc r) { setSreg (getCtl s (.rcc r)) (fSD w) (reg s .rowSummary r.toNat
      (bits w.toNat 3 0)) with
      pc := (getCtl s (.rcc r)).pc + 1, busy := stepNow s r.toNat + 1,
      full := (getCtl s (.rcc r)).full &&& ~~~(BitVec.ofNat 16 (2 ^ bits w.toNat 3 0)) }) := by
  have rising : Rising s.ctl := (mwf_iff.1 canon.ctl).1
  unfold execSumrd
  extract_lets u q ready s'
  have read : s' = setCtl s u { setSreg (getCtl s u) (fSD w) (reg s .rowSummary r.toNat q) with
      pc := (getCtl s u).pc + 1, busy := stepNow s r.toNat + 1 } := by
    refine (scalarExec_noFlags canon go rfl ?_ fun s _ => reg s .rowSummary r.toNat q).trans (spend_rcc rising ..)
    rw [clear]
    rfl
  rw [if_neg (by simp [u, q, full]), if_pos (by simp [ready, u, go, clear]), read, updCtl, getCtl_setCtl_self rising,
    setCtl_setCtl rising]
  rfl

theorem execPost_legal {r : BitVec 6} (canon : s.Canon) (go : canExec s (.rcc r) = true)
    (clear : strayBits w (mSA + 0xF) = false) :
    execPost r w s = .next (setCtl s (.rcc r) { getCtl s (.rcc r) with
      dec := mset z64 (bits w.toNat 3 0) (sreg (getCtl s (.rcc r)) (fSA w)) (getCtl s (.rcc r)).dec,
      posted := (getCtl s (.rcc r)).posted ||| BitVec.ofNat 16 (2 ^ bits w.toNat 3 0),
      postAt := mset zNat (bits w.toNat 3 0) (stepNow s r.toNat + 1) (getCtl s (.rcc r)).postAt,
      pc := (getCtl s (.rcc r)).pc + 1, busy := stepNow s r.toNat + 1 }) := by
  rw [execPost, if_neg (by simp [go]), if_neg (by simp [clear])]
  exact congrArg _ (retire_rcc (mwf_iff.1 canon.ctl).1 r _)

theorem execPatch_legal {r : BitVec 6} (canon : s.Canon) (go : canExec s (.rcc r) = true)
    (clear : strayBits w (mSA + 0x3F) = false) :
    execPatch r w s = .next (setCtl
      (updSeq s (rowLeader s r.toNat) fun x => { x with patches := addPatch x.patches {
        at' := stepNow s r.toNat + (if isLarge s (rowLeader s r.toNat) && r.toNat != rowLeader s r.toNat then 64 else 1),
        row := getF s F.ROW_GANG_INDEX r.toNat, reg := bits w.toNat 5 0, val := sreg (getCtl s (.rcc r)) (fSA w) } })
      (.rcc r) { getCtl s (.rcc r) with pc := (getCtl s (.rcc r)).pc + 1, busy := stepNow s r.toNat + 1 }) := by
  have rising : Rising s.ctl := (mwf_iff.1 canon.ctl).1
  rw [execPatch, if_neg (by simp [go]), if_neg (by simp [clear])]
  rw [retire_eq, getCtl_updSeq_rcc rising, spend_rcc (rising_updSeq rising ..), stepNow_updSeq rising ?keep]
  case keep => exact fun _ => rfl

/-- A lone patch that is due lands in its register. -/
theorem reg_landPatches_lone {l : Nat} {p : Patch} (rising : Rising s.mg) (lone : (seqCtl s l).patches = [p])
    (due : p.at' ≤ n) : reg (landPatches s l n) .rowPshadow l p.reg = p.val := by
  have one : (seqCtl s l).patches.filter (fun p => decide (p.at' ≤ n)) = [p] := by simp [lone, due]
  simp only [landPatches, one]
  exact reg_setReg_self rising ..

/-- Settles O10: a row control core's command changes its own stream, a patch the leader's patches. -/
theorem rowControlCommands : Obligations.RowControlCommands := by
  unfold Obligations.RowControlCommands
  intro r w s canon go u c q l
  exact ⟨execSumrd_full canon go, execPost_legal canon go, execPatch_legal canon go,
    fun p n => reg_landPatches_lone (regs_rising canon.mg)⟩

end Sys2Proof.Machine
end

section
/-! SUPPORT. Core streams: sequencer control (R157), loops, breaks and decisions (R164-R166), and the proofs of their
obligations. -/

namespace Sys2Proof.Machine

variable {s : State} {l : BitVec 6} {w : BitVec 56} {mask : Nat}

/-! An accepted word of a sequencer. -/

theorem seqExec_accepted (go : canExec s (.seq l) = true) (fresh : staleWord s (.seq l) = false)
    (clear : strayBits w mask = false) (f : State → State) : seqExec s l w mask f = f s := by
  rw [seqExec, if_pos go, fetched_of_fresh fresh, if_neg (by simp [clear])]

/-! The end of a drain. -/

theorem finishDrain_waits {n : Nat} (waits : drained (seqCtl s n) = false) : finishDrain s n = s := by
  unfold finishDrain
  extract_lets c
  split <;> simp [c, waits]

theorem finishDrain_halt {n pos q : Nat} {code arg : BitVec 8} (done : drained (seqCtl s n) = true)
    (due : (seqCtl s n).draining = some (.halt code arg pos q)) :
    finishDrain s n = haltGang (updSeq s n fun c => { c with draining := none }) n code arg pos q := by
  simp [finishDrain, due, done]

/-! STEPMARK. -/

/-- Marks of rows are registers: they do not meet the streams. -/
theorem foldl_marks_setCtl (rows : List Nat) (u : Proc) (c : Ctl) :
    rows.foldl (fun s r => setReg s .rowMark r 0 (reg s .rowMark r 0 + 1)) (setCtl s u c) =
      setCtl (rows.foldl (fun s r => setReg s .rowMark r 0 (reg s .rowMark r 0 + 1)) s) u c := by
  induction rows generalizing s with
  | nil => rfl
  | cons r rows ih => exact ih (s := setReg s .rowMark r 0 (reg s .rowMark r 0 + 1))

theorem foldl_marks_ctl (rows : List Nat) :
    (rows.foldl (fun s r => setReg s .rowMark r 0 (reg s .rowMark r 0 + 1)) s).ctl = s.ctl :=
  List.foldlRecOn (motive := fun t : State => t.ctl = s.ctl) _ _ rfl fun _ same _ _ => same

theorem execStepmark_accepted (canon : s.Canon) (go : canExec s (.seq l) = true) (fresh : staleWord s (.seq l) = false)
    (clear : strayBits w mIMM32 = false) : execStepmark l w s = .next (ckpAtMark (tick (setCtl
      ((gangRows s l.toNat).foldl (fun s r => setReg s .rowMark r 0 (reg s .rowMark r 0 + 1)) s) (.seq l)
      { getCtl s (.seq l) with tag := BitVec.ofNat 32 (fIMM32 w), pc := (getCtl s (.seq l)).pc + 1 }) l.toNat) l.toNat) := by
  rw [execStepmark, seqExec_accepted go fresh clear]
  extract_lets tagged marked
  have rising (rows : List Nat) :
      Rising (rows.foldl (fun s r => setReg s .rowMark r 0 (reg s .rowMark r 0 + 1)) s).ctl :=
    (foldl_marks_ctl rows).symm ▸ (mwf_iff.1 canon.ctl).1
  simp only [marked, tagged, updCtl, foldl_marks_setCtl, retire_eq, getCtl_setCtl_self (rising _),
    setCtl_setCtl (rising _)]
  rfl

/-- A bubble that has its reason. -/
theorem execBubble_waits {y : BubbleWhy} (live : seqLive s l.toNat = true) (waits : bubbleWaits s l.toNat y = true) :
    execBubble l y s = .next (bubbleStep s l.toNat y) := by
  rw [execBubble, if_pos (by simp [live, waits])]

/-- Settles O11: accepted words by what each does; a bubble by its reason and whether the step counter stands still. -/
theorem sequencerControl : Obligations.SequencerControl := by
  unfold Obligations.SequencerControl
  refine ⟨?words, fun l y s live => ⟨fun idle => ?issues, fun waits still => ?frozen, fun waits moves => ?counted⟩⟩
  case words =>
    intro l w s canon go fresh u c
    refine ⟨fun clear => ?nop, ?halt, execStepmark_accepted canon go fresh⟩
    case nop => exact congrArg _ (seqExec_accepted go fresh clear _)
    case halt =>
      intro clear code t
      exact ⟨congrArg _ (seqExec_accepted go fresh clear _), finishDrain_waits, finishDrain_halt⟩
  case issues =>
    change execBubble l y s = _
    rw [execBubble, if_neg (by simp [idle])]
  case frozen =>
    change execBubble l y s = _
    rw [execBubble_waits live waits, bubbleStep.eq_def, if_pos still, stepOn, if_pos still]
  case counted =>
    change execBubble l y s = _
    rw [execBubble_waits live waits, bubbleStep.eq_def, if_neg (by simp [moves])]
    cases y <;> rfl

/-! LOOP and LOOP.R. -/

/-- The word that counts a loop's iterations (R164). -/
def loopSource (s : State) (u : Proc) (w : BitVec 56) : W64 :=
  if bit w.toNat 55 then preg s u (bits w.toNat 54 49) else sreg (getCtl s u) (bits w.toNat 54 49)

/-- The stream inside the loop. -/
def loopEntered (s : State) (u : Proc) (w : BitVec 56) (replay : Bool) (e : Nat) : Ctl :=
  { getCtl s u with
    loops := ⟨(getCtl s u).pc + 1, e, bits (loopSource s u w).toNat 31 0 - 1, replay⟩ :: (getCtl s u).loops,
    pc := (getCtl s u).pc + 1 }

/-- A loop that the rules of R164 and R165 allow. -/
structure LoopFits (s : State) (l : BitVec 6) (w : BitVec 56) (replay : Bool) (e : Nat) : Prop where
  clear : strayBits w (0x7F * 2 ^ 49) = false
  source : bit w.toNat 55 = true ∨ bits w.toNat 54 49 < 32
  depth : (getCtl s (.seq l)).loops.length < 4
  nest : replay = true → (getCtl s (.seq l)).loops = []
  count : bits (loopSource s (.seq l) w).toNat 63 32 = 0
  endl : matchEndl (progOf s (.seq l)).words (getCtl s (.seq l)).pc = some e

section
variable {replay : Bool} {e : Nat}

/-- Past the checks: the body is skipped or entered. -/
theorem LoopFits.loopEnter_eq (fits : LoopFits s l w replay e) : loopEnter s l w replay =
    if bits (loopSource s (.seq l) w).toNat 31 0 = 0 then tick (setPc s (.seq l) (e + 1)) l.toNat
    else
      let t := tick (setCtl s (.seq l) (loopEntered s (.seq l) w replay e)) l.toNat
      if replay && gangState t l.toNat == gsRunning then finishDrain (loopBoundary t l.toNat) l.toNat else t := by
  obtain ⟨clear, source, depth, nest, count, endl⟩ := fits
  have field : (strayBits w (0x7F * 2 ^ 49) || (!bit w.toNat 55 && decide (32 ≤ bits w.toNat 54 49))) = false := by
    obtain src | lt := source
    · rw [clear, src]
      rfl
    · rw [clear, Bool.false_or, decide_eq_false lt.not_ge, Bool.and_false]
  have flat : ¬ (replay && !(getCtl s (.seq l)).loops.isEmpty) = true := by
    cases replay with
    | false => simp
    | true => simp [nest rfl]
  unfold loopEnter
  extract_lets u c n src v
  rw [if_neg (by rw [field]; decide), if_neg flat, if_neg depth.not_ge, if_neg (show ¬ bits v.toNat 63 32 ≠ 0 from not_not.2 count),
    endl]
  rfl

theorem LoopFits.loopEnter_zero (fits : LoopFits s l w replay e) (zero : bits (loopSource s (.seq l) w).toNat 31 0 = 0) :
    loopEnter s l w replay = tick (setPc s (.seq l) (e + 1)) l.toNat := by
  rw [fits.loopEnter_eq, if_pos zero]

theorem LoopFits.loopEnter_some (fits : LoopFits s l w replay e) (some : bits (loopSource s (.seq l) w).toNat 31 0 ≠ 0) :
    loopEnter s l w replay =
      let t := tick (setCtl s (.seq l) (loopEntered s (.seq l) w replay e)) l.toNat
      if replay && gangState t l.toNat == gsRunning then finishDrain (loopBoundary t l.toNat) l.toNat else t := by
  rw [fits.loopEnter_eq, if_neg some]

end

theorem execLoop_fetched (go : canExec s (.seq l) = true) (fresh : staleWord s (.seq l) = false) :
    execLoop l w s = .next (loopEnter s l w false) ∧ execLoopR l w s = .next (loopEnter s l w true) := by
  rw [execLoop, execLoopR, if_pos go, if_pos go, fetched_of_fresh fresh, fetched_of_fresh fresh]
  exact ⟨rfl, rfl⟩

/-! ENDL. -/

theorem execEndl_eq {f : LoopFrame} {r : List LoopFrame} (go : canExec s (.seq l) = true) (fresh : staleWord s (.seq l) = false)
    (clear : strayBits w 0 = false) (inner : (getCtl s (.seq l)).loops = f :: r) : execEndl l w s = .next (
      if f.left = 0 then updCtl s (.seq l) fun c => { c with loops := r, pc := c.pc + 1 }
      else
        let t := updCtl s (.seq l) fun c => { c with loops := { f with left := f.left - 1 } :: r, pc := f.body }
        if f.replay then finishDrain (loopBoundary t l.toNat) l.toNat else t) := by
  rw [execEndl, seqExec_accepted go fresh clear]
  simp only [inner]

/-! BRK and DECIDE. -/

theorem execBrk_eq (go : canExec s (.seq l) = true) (fresh : staleWord s (.seq l) = false)
    (clear : strayBits w (0x7F * 2 ^ 49) = false) (inside : bits w.toNat 55 54 < (getCtl s (.seq l)).loops.length) :
    execBrk l w s = .next (
      if bit w.toNat 53 then
        match posting s l.toNat (bits w.toNat 52 49) with
        | none => bubbleStep s l.toNat .decision
        | some v => tick (updCtl (takePosting s l.toNat (bits w.toNat 52 49)) (.seq l) fun c =>
          if v ≠ 0 then leaveLoops c (bits w.toNat 55 54) else { c with pc := c.pc + 1 }) l.toNat
      else tick (updCtl s (.seq l) fun c => leaveLoops c (bits w.toNat 55 54)) l.toNat) := by
  rw [execBrk, seqExec_accepted go fresh clear]
  exact congrArg _ (if_neg inside.not_ge)

theorem execDecide_eq (go : canExec s (.seq l) = true) (fresh : staleWord s (.seq l) = false)
    (clear : strayBits w (0xF * 2 ^ 49 + 0xFFFF * 2 ^ 32) = false) {t : Int}
    (at' : t = ((getCtl s (.seq l)).pc : Int) + sext 16 (bits w.toNat 47 32)) (up : 0 ≤ t)
    (target : decideTargetOk (progOf s (.seq l)).words (getCtl s (.seq l)).pc t.toNat = true) :
    execDecide l w s = .next (match posting s l.toNat (bits w.toNat 52 49) with
      | none => bubbleStep s l.toNat .decision
      | some v => tick (setPc (takePosting s l.toNat (bits w.toNat 52 49)) (.seq l)
        (if v ≠ 0 then t.toNat else (getCtl s (.seq l)).pc + 1)) l.toNat) := by
  subst at'
  rw [execDecide, seqExec_accepted go fresh clear]
  exact congrArg _ (if_neg (by simp [up.not_gt, target]))

/-- Settles O12: the loops by their count, ENDL by the iterations left, BRK and DECIDE by the posting. -/
theorem loopsBreaksAndDecisions : Obligations.LoopsBreaksAndDecisions := by
  unfold Obligations.LoopsBreaksAndDecisions
  refine ⟨?loops, ?postings⟩
  case loops =>
    intro l w s canon go fresh u c n v stepped enter
    obtain ⟨loop, loopR⟩ := execLoop_fetched (w := w) go fresh
    refine ⟨fun e clear source depth count endl => ?loop, fun f r clear inner => ?endl⟩
    case loop =>
      have fits {replay : Bool} (nest : replay = true → c.loops = []) : LoopFits s l w replay e :=
        ⟨clear, source, depth, nest, count, endl⟩
      refine ⟨fun zero => ?_, fun some => ?_, fun zero flat => ?_, fun some flat => ?_⟩
      · exact loop.trans (congrArg _ ((fits (replay := false) nofun).loopEnter_zero zero))
      · exact loop.trans (congrArg _ ((fits (replay := false) nofun).loopEnter_some some))
      · exact loopR.trans (congrArg _ ((fits fun _ => flat).loopEnter_zero zero))
      · refine loopR.trans (congrArg _ (((fits fun _ => flat).loopEnter_some some).trans ?_))
        exact if_congr (by simp [stepped, enter, loopEntered, c, u, v, n, loopSource]) rfl rfl
    case endl =>
      have run := execEndl_eq go fresh clear inner
      refine ⟨fun last => ?_, fun more plain => ?_, fun more replay => ?_⟩
      · exact run.trans (congrArg _ (if_pos last))
      · exact run.trans (congrArg _ ((if_neg more).trans (if_neg (by simp [plain]))))
      · exact run.trans (congrArg _ ((if_neg more).trans (if_pos replay)))
  case postings =>
    intro l w s go fresh u lv d taken
    refine ⟨fun clear inside => ?brk, fun clear => ?decide⟩
    case brk =>
      have run := execBrk_eq go fresh clear inside
      refine ⟨fun plain => ?_, fun v cond posted => ?_, fun cond unposted => ?_⟩
      · exact run.trans (congrArg _ (if_neg (Bool.eq_false_iff.1 plain)))
      · rw [if_pos cond, posted] at run
        exact run
      · rw [if_pos cond, unposted] at run
        exact run
    case decide =>
      intro p t up target
      have run := execDecide_eq go fresh clear rfl up target
      refine ⟨fun v posted => ?_, fun unposted => ?_⟩
      · rw [posted] at run
        exact run
      · rw [unposted] at run
        exact run

end Sys2Proof.Machine
end

section
/-! SUPPORT. Dispatch, tokens, completions and summary values (R160-R162, R178-R182), and the proofs of their obligations. -/

namespace Sys2Proof.Machine

variable {s : State} {u : Proc} {w : BitVec 56} {op : BitVec 8}

/-! QUEUE_DISPATCH. -/

/-- No target may use an opcode that R150 does not list. -/
theorem group_listed {target g : Nat} (allowed : groupAllowed target g = true) : g ≠ 0 := by
  rintro rfl
  unfold groupAllowed at allowed
  split at allowed <;> exact absurd allowed (by decide)

theorem execQueueDispatch_placed (go : canExec s u = true) (fresh : staleWord s u = false)
    (queued : queueOf op.toNat ≠ 0) (allowed : groupAllowed (targetOf u) (opGroup op.toNat) = true)
    (passed : insertedWait s u = none) (room : queueFull (getCtl s u) (queueOf op.toNat) = false) :
    execQueueDispatch u op w s = .next (placeEntry s u (queueOf op.toNat) op
      (if queueOf op.toNat = 3 then assignToken s u w else w)) := by
  unfold execQueueDispatch
  extract_lets q g
  rw [if_neg (by simp [go]), if_neg (by simp [fresh]), if_neg (group_listed allowed), if_neg (by simp [g, allowed]),
    if_neg queued, passed]
  exact congrArg _ (if_neg (by simp [q, room]))

theorem bit_eq_testBit (n i : Nat) : bit n i = n.testBit i := by
  rw [Nat.testBit_eq_decide_div_mod_eq]
  rfl

/-- The assigned token makes the word a signalling one. -/
theorem bit_assigned (w : BitVec 56) (t : Nat) :
    bit (w ||| BitVec.ofNat 56 (2 ^ 20 + t % 256 * 2 ^ 12)).toNat 20 = true := by
  have low : t % 256 * 2 ^ 12 < 2 ^ 20 := by omega
  have clear : (t % 256 * 2 ^ 12).testBit 20 = false := Nat.testBit_lt_two_pow low
  have small : (2 ^ 20 + t % 256 * 2 ^ 12) % 2 ^ 56 = 2 ^ 20 + t % 256 * 2 ^ 12 := Nat.mod_eq_of_lt (by omega)
  rw [bit_eq_testBit, BitVec.toNat_or, Nat.testBit_or, BitVec.toNat_ofNat, small, Nat.testBit_two_pow_add_eq, clear]
  exact Bool.or_true _

/-- A word that has its token keeps it. -/
theorem assignToken_assignToken (s : State) (u : Proc) (w : BitVec 56) :
    assignToken s u (assignToken s u w) = assignToken s u w := by
  unfold assignToken
  cases mfind (getCtl s u).pc (progOf s u).toks with
  | none => rfl
  | some t =>
    by_cases signals : bit w.toNat 20 = true
    · simp only [if_pos signals]
    · simp only [if_neg signals, if_pos (bit_assigned w t)]

/-! SIG.T and WAIT.T. -/

theorem execSigT_placed {q : Nat} (go : canExec s u = true) (fresh : staleWord s u = false)
    (clear : strayBits w (0x1F * 2 ^ 51 + 0xFF * 2 ^ 21 + 2 ^ 20) = false) (named : namedQueues (bits w.toNat 55 51) = [q])
    (own : bit (bits w.toNat 55 51) 0 = false) (room : queueFull (getCtl s u) q = false) :
    execSigT u w s =
      let c := getCtl s u
      let t := bits w.toNat 28 21
      let k : Token := { getTok c t with count := (getTok c t).count + 1 }
      .next (advance (retire (setCtl s u (setTok (pushEntry c q (tokenEntry c 0x09 w)) t
        (if bit w.toNat 20 then { k with err := false, code := 0 } else k))) u 1) u) := by
  unfold execSigT
  extract_lets qm t q' c k k' k'' c' c''
  have first : q' = q := by simp [q', qm, named]
  have legal : (strayBits w (0x1F * 2 ^ 51 + 0xFF * 2 ^ 21 + 2 ^ 20) || (namedQueues qm).length != 1 || bit qm 0) = false := by
    rw [clear, named, own]
    rfl
  rw [if_neg (by simp [go]), if_neg (by simp [fresh]), if_neg (Bool.eq_false_iff.1 legal), first,
    if_neg (Bool.eq_false_iff.1 room)]
  simp only [c', first]
  rfl

/-- A stream that can execute can wait. -/
theorem canWait_of_canExec (go : canExec s u = true) : canWait s u = true := by
  cases u with
  | seq l => exact (Bool.and_eq_true_iff.1 go).1
  | rcc r => exact go
  | node h c => exact go

/-- A legal wait of the sequencer alone, past the checks. -/
theorem execWaitT_own (go : canExec s u = true) (fresh : staleWord s u = false)
    (clear : strayBits w (0x7FF * 2 ^ 45 + 0xFF * 2 ^ 21) = false) (alone : bits w.toNat 55 51 = 1)
    (taken : bits w.toNat 49 45 = 0 ∨ bit w.toNat 50 = true) :
    execWaitT u w s = .next (
      let c := getCtl s u
      let t := bits w.toNat 28 21
      let k := getTok c t
      if k.count ≠ 0 then
        match u with
        | .seq l => bubbleStep (setCtl s u { c with waiting := true }) l.toNat .token
        | _ => setCtl s u { c with waiting := true }
      else if k.err ∧ !bit w.toNat 50 then tokenFault (setCtl s u c) u t c.pc 0
      else advance (retire (setCtl s u (if bit w.toNat 50 then
        setTok (setSreg { c with waiting := false } (bits w.toNat 49 45) (if k.err then k.code.setWidth 64 else 0)) t
          { k with err := false, code := 0 } else { c with waiting := false })) u 1) u) := by
  have legal : (strayBits w (0x7FF * 2 ^ 45 + 0xFF * 2 ^ 21) || bits w.toNat 55 51 == 0 ||
      (bits w.toNat 49 45 != 0 && !(bit w.toNat 50 && true))) = false := by
    rw [clear, alone]
    obtain zero | tol := taken
    · rw [zero]; rfl
    · rw [tol, Bool.and_true, Bool.not_true, Bool.and_false]; rfl
  have none : namedQueues (bits w.toNat 55 51) = [] := by rw [alone]; rfl
  have own : bit (bits w.toNat 55 51) 0 = true := by rw [alone]; rfl
  simp only [execWaitT, canWait_of_canExec go, fresh, legal, none, own, List.foldl_nil, List.any_nil, ite_self, Bool.not_true,
    Bool.and_false, Bool.false_eq_true, if_false, if_true] <;> rfl

/-! One decrement of a token (R161, R162). -/

section
variable {c : Ctl} {t err : BitVec 8} (rising : Rising c.tok)
include rising

theorem getTok_setTok_self (t : Nat) (k : Token) : getTok (setTok c t k) t = k := mget_mset_self rising

theorem getTok_setTok_ne {t x : Nat} (other : x ≠ t) (k : Token) : getTok (setTok c t k) x = getTok c x :=
  mget_mset_ne rising other

/-- The first error code stands. -/
theorem getTok_tokDec_self : getTok (tokDec c t err) t.toNat =
    if err = 0 ∨ (getTok c t.toNat).err then { getTok c t.toNat with count := (getTok c t.toNat).count - 1 }
    else ⟨(getTok c t.toNat).count - 1, true, err⟩ := by
  rw [tokDec, getTok_setTok_self rising]
  by_cases none : err = 0
  · simp [none]
  · by_cases earlier : (getTok c t.toNat).err <;> simp [earlier]

end

/-- Settles O13: an accepted dispatch, signal and wait past their checks; a decrement by the token's earlier error. -/
theorem tokensAndDispatch : Obligations.TokensAndDispatch := by
  unfold Obligations.TokensAndDispatch
  refine ⟨?streams, ?decrement⟩
  case streams =>
    intro u op w s go fresh c advanced t q
    refine ⟨fun queued allowed passed room => ?dispatch, fun q clear named own room => ?sig, fun clear alone tol zero => ?wait,
      fun clear alone taken counts => ?held⟩
    case dispatch =>
      intro w' e c'
      have kept : (if q = 3 then assignToken s u w' else w') = w' := by
        by_cases hoist : q = 3
        · simp only [w', if_pos hoist, assignToken_assignToken]
        · exact if_neg hoist
      refine (execQueueDispatch_placed go fresh queued allowed passed room).trans (congrArg _ ?_)
      change placeEntry s u q op (if q = 3 then assignToken s u w' else w') = _
      rw [kept]
      unfold placeEntry
      cases u <;> cases toutOf op.toNat w' <;> rfl
    case sig => exact execSigT_placed go fresh clear named own room
    case wait =>
      intro k
      refine (execWaitT_own go fresh clear alone (.inr tol)).trans (congrArg _ ?_)
      rw [if_neg (not_not.2 zero), if_neg (by simp [tol]), if_pos tol]
    case held =>
      refine (execWaitT_own go fresh clear alone taken).trans (congrArg _ ?_)
      exact if_pos counts
  case decrement =>
    intro c t err canon k k'
    have rising : Rising c.tok := (mwf_iff.1 canon).1
    have self : k' = _ := getTok_tokDec_self rising
    refine ⟨?_, fun earlier => ?_, fun clean bad => ?_, fun clean fine => ?_, fun x other => getTok_setTok_ne rising other _⟩
    · rw [self]
      split <;> rfl
    · rw [self, if_pos (.inr earlier)]
      exact ⟨earlier, rfl⟩
    · rw [self, if_neg (not_or.2 ⟨bad, Bool.eq_false_iff.1 clean⟩)]
      exact ⟨rfl, rfl⟩
    · rw [self, if_pos (.inl fine)]
      exact clean

/-! Completions. -/

theorem execInstructionComplete_last {id : Nat} {f : Flight} {err : BitVec 8}
    (found : (getCtl s u).flights.find? (fun f => f.id == id && !f.reported && f.op != 0x09) = some f)
    (due : issueLive s u = true → f.due ≤ procStep s u) (answered : f.waitOn = 0)
    (calm : ∀ v, (getCtl s u).vexc = some v → v.entry.id ≠ id) :
    execInstructionComplete u id none err s = .next (advance (reportSigs (countDone (setCtl s u { getCtl s u with
      flights := if f.tok.isNone then (getCtl s u).flights.filter fun g => g.id != id
        else (getCtl s u).flights.map fun g => if g.id = id then { f with
          err := if f.err = 0 then err else f.err, reported := true, decAt := procStep s u + decDelay s u } else g })
      u f.q) u) u) := by
  have open' : ((getCtl s u).vexc.any fun v => v.entry.id == id) = false := by
    cases e : (getCtl s u).vexc with
    | none => rfl
    | some v => simp [calm v e]
  have early : (issueLive s u && decide (procStep s u < f.due)) = false := by
    cases live : issueLive s u with
    | false => rfl
    | true => simp [due live]
  have ready : ((issueLive s u && decide (procStep s u < f.due)) || f.waitOn != 0 ||
      (getCtl s u).vexc.any fun v => v.entry.id == id) = false := by
    rw [early, answered, open']
    rfl
  simp only [execInstructionComplete, found]
  exact congrArg _ (if_neg (Bool.eq_false_iff.1 ready))

theorem execTokenDecrement_due {id : Nat} {f : Flight}
    (found : (getCtl s u).flights.find? (fun f => f.id == id && f.reported) = some f)
    (due : issueLive s u = true → f.decAt ≤ procStep s u) :
    execTokenDecrement u id s = .next (
      let c := { getCtl s u with flights := (getCtl s u).flights.filter fun g => g.id != id }
      advance (setCtl s u (match f.tok with
        | some t => tokDec c t f.err
        | none => c)) u) := by
  have past : ¬ (issueLive s u = true ∧ procStep s u < f.decAt) := fun ⟨live, early⟩ => absurd (due live) early.not_ge
  simp only [execTokenDecrement, found]
  exact congrArg _ (if_neg past)

/-- Settles O14: a report and a decrement that are due; the fill is the row's values that are due. -/
theorem completionsAndSummaries : Obligations.CompletionsAndSummaries := by
  unfold Obligations.CompletionsAndSummaries
  refine ⟨?completions, fun r s => rfl⟩
  intro u id s c
  refine ⟨fun f err found due answered calm => ?_, fun f found due => ?_⟩
  · exact execInstructionComplete_last found due answered calm
  · exact execTokenDecrement_due found due

end Sys2Proof.Machine
end

section
/-! SUPPORT. Issue of the heads of the matrix, vector and tailrace queues (R94-R149), and the proofs of their obligations. -/

namespace Sys2Proof.Machine

variable {s : State} {l : BitVec 6} {e : QEntry} {op : Nat}

/-! A ready head that may go is issued. -/

theorem issueHead_ready {u : Proc} {q : Nat} (live : issueLive s u = true) (ready : headOf s u q op = .ready e)
    (f : State → QEntry → State) :
    issueHead s u q op f = advance (f (updCtl s u fun c => popEntry c q) e) u := by
  unfold issueHead
  rw [if_pos live, ready]

theorem mIssue_ready {check : State → QEntry → Option (BitVec 8)} {may : Ctl → QEntry → Bool} {f : State → QEntry → State}
    (live : issueLive s (.seq l) = true) (ready : headOf s (.seq l) 1 op = .ready e)
    (table : awaitsTable (getCtl s (.seq l)) e.id (stepNow s l.toNat) = false) (word : mWordCheck op e.w = none)
    (ok : check s e = none) (go : may (getCtl s (.seq l)) e = true) :
    mIssue s l op check may f = advance (f (updCtl s (.seq l) fun c => popEntry c 1) e) (.seq l) := by
  simp only [mIssue, ready, table, word, ok, go, Option.orElse_none, Bool.false_eq_true, if_false, if_true]
  exact issueHead_ready live ready f

theorem trIssue_ready {tl : Bool} {f : State → QEntry → State} (live : issueLive s (.seq l) = true)
    (ready : headOf s (.seq l) 4 0x80 = .ready e) (ok : trCheck e.w e.ps = none) (tload : trTload e.ps = tl) :
    trIssue s l tl f = advance (f (updCtl s (.seq l) fun c => popEntry c 4) e) (.seq l) := by
  simp only [trIssue, ready, tload, beq_self_eq_true, if_true]
  rw [issueHead_ready live ready, ok]

/-- Settles O18: the check has passed, and the load waits for nothing. -/
theorem tailraceConfiguration : Obligations.TailraceConfiguration := by
  unfold Obligations.TailraceConfiguration
  intro l s e live ready ok u ln now popped
  refine ⟨fun plain => ?plain, fun load free => ?load⟩
  case plain => exact congrArg _ (trIssue_ready live ready ok plain)
  case load =>
    have busy : ((trCheck e.w e.ps).isNone && tailBusy (getCtl s u) (trTsel e.ps) e.id now) = false := by
      rw [free, Bool.and_false]
    change execTrcfgTableLoad l s = _
    simp only [execTrcfgTableLoad, ready]
    exact congrArg _ ((if_neg (Bool.eq_false_iff.1 busy)).trans (trIssue_ready live ready ok load))

/-- Settles O15: an issued load and swap; a swap twice over is no swap. -/
theorem weightPlanesLoadAndSwap : Obligations.WeightPlanesLoadAndSwap := by
  unfold Obligations.WeightPlanesLoadAndSwap
  refine ⟨?issue, ?twice⟩
  case issue =>
    intro l s e live u ln now popped table loaded
    refine ⟨fun ready word ok fits swapped => ?load, fun ready word slot => ?swap⟩
    case load =>
      have compressed : ((wDesc e.ps).cmp && !((gangCores s ln).all fun p =>
          cmpFits (getCore s (slotOf s p.1 p.2)) (wDesc e.ps))) = false := by
        cases cmp : (wDesc e.ps).cmp with
        | false => rfl
        | true => simpa using fun a b mem => fits cmp (a, b) mem
      refine congrArg _ (mIssue_ready live ready table word ?_ ?_)
      · rw [ok]
        exact if_neg (Bool.eq_false_iff.1 compressed)
      · exact Bool.and_eq_true_iff.2 ⟨swapped, loaded⟩
    case swap =>
      exact congrArg _ (mIssue_ready live ready table word rfl (Bool.and_eq_true_iff.2 ⟨loaded, decide_eq_true slot⟩))
  case twice =>
    intro s r c canon swap p
    have rising := (mwf_iff.1 canon.cores).1
    have once : getCore (swap s) p = { getCore s p with active := (getCore s p).shadow, shadow := (getCore s p).active } :=
      mget_mset_self rising
    have twice : getCore (swap (swap s)) p =
        { getCore (swap s) p with active := (getCore (swap s) p).shadow, shadow := (getCore (swap s) p).active } :=
      mget_mset_self (rising_mset rising)
    refine ⟨?_, ?_, ?_⟩
    · rw [once]
    · rw [once]
    · rw [twice, once]

/-- Settles O16: every streaming instruction issues by `stream`. -/
theorem arrayStreams : Obligations.ArrayStreams := by
  unfold Obligations.ArrayStreams
  intro l s e live table x mem u ln op now popped plane cls tr ready word ok slot rows
  have issues : ∀ x ∈ [(Instr.mma l, opMma), (.mga l, opMga), (.mdistL1 l, opMdistL1), (.mdistL2 l, opMdistL2),
      (.mminplus l, opMminplus), (.mmaxplus l, opMmaxplus), (.mcmp l, opMcmp)], exec x.1 s = .next (stream s l x.2) := by
    simp only [List.forall_mem_cons]
    exact ⟨rfl, rfl, rfl, rfl, rfl, rfl, rfl, fun _ none => absurd none List.not_mem_nil⟩
  rw [issues x mem]
  intro d c run edges steps last
  refine congrArg _ ?_
  unfold stream
  refine (mIssue_ready live ready table word ?_ ?_).trans ?_
  · exact ok
  · exact Bool.and_eq_true_iff.2 ⟨decide_eq_true slot, decide_eq_true rows⟩
  · rfl

/-- Settles O17: an issued drain and an issued MSL sequence. -/
theorem accumulatorAndMslSequences : Obligations.AccumulatorAndMslSequences := by
  unfold Obligations.AccumulatorAndMslSequences
  intro l s e live u ln now c popped table
  refine ⟨fun ready word ok => ?drain, fun ready word ok slot rows loaded => ?msl⟩
  case drain => exact congrArg _ (mIssue_ready live ready table word ok rfl)
  case msl =>
    refine congrArg _ (mIssue_ready live ready table word ok ?_)
    exact Bool.and_eq_true_iff.2 ⟨Bool.and_eq_true_iff.2 ⟨decide_eq_true slot, decide_eq_true rows⟩, loaded⟩

/-! The vector queue. -/

theorem vIssue_ready {fl : VFlight} (live : issueLive s (.seq l) = true) (ready : headOf s (.seq l) 2 op = .ready e)
    (ok : vCheck op (vFields e.w) = none)
    (flight : fl = vFlight (arrUses (seqCtl s l.toNat).arr) e.id e.op (vFields e.w) (stepNow s l.toNat))
    (may : vMayIssue (seqCtl s l.toNat).vfl fl = true)
    (room : op = opSumq → (vFields e.w).ctl = 5 ∨ sumqBlocked s l.toNat (vFields e.w).vd = false) :
    vIssue s l op =
      let ln := l.toNat
      let now := stepNow s ln
      let s := launch (updCtl (updCtl s (.seq l) fun c => popEntry c 2) (.seq l) fun c =>
        { c with vfl := (c.vfl.filter fun p => decide (now < max (vDone p) (p.start + p.g))) ++ [fl] }) (.seq l) e 2 (vDone fl) 0 0
      advance (if op = opSumq then
        sumqFlags (updCtl s (.seq l) fun c => { c with fills := c.fills ++ sumqFills s ln (vFields e.w) now }) ln (vFields e.w)
        else vRun s ln e (gangCores s ln) [] []) (.seq l) := by
  subst flight
  have issue : (!vMayIssue (seqCtl s l.toNat).vfl
      (vFlight (arrUses (seqCtl s l.toNat).arr) e.id e.op (vFields e.w) (stepNow s l.toNat)) ||
      (op == opSumq && (vFields e.w).ctl != 5 && sumqBlocked s l.toNat (vFields e.w).vd)) = false := by
    rw [may]
    by_cases sums : op = opSumq
    · obtain all | free := room sums
      · simp [all]
      · simp [free]
    · simp [sums]
  simp only [vIssue, ready, ok]
  exact (if_neg (Bool.eq_false_iff.1 issue)).trans (issueHead_ready live ready _)

/-- Settles O19: past the checks and the issue rules the head is launched, then SUMQ sums or the cores run. -/
theorem vectorInstructionsIssue : Obligations.VectorInstructionsIssue := by
  unfold Obligations.VectorInstructionsIssue
  intro l s e live u ln now f fl launched may
  refine ⟨fun x mem ready ok => ?vector, fun ready ok room => ?sumq⟩
  case vector =>
    have issues : ∀ x ∈ [(Instr.vadd l, opVadd), (.vmul l, opVmul), (.vfma l, opVfma), (.vwmul l, opVwmul),
        (.vdot4 l, opVdot4), (.vmax l, opVmax), (.vmin l, opVmin), (.vcmp l, opVcmp), (.vsel l, opVsel), (.vsum l, opVsum),
        (.vperm l, opVperm), (.vcvt l, opVcvt), (.vld l, opVld), (.vst l, opVst), (.vexp l, opVexp), (.vlog2 l, opVlog2),
        (.vrcp l, opVrcp), (.vrsq l, opVrsq), (.vtanh l, opVtanh), (.vsig l, opVsig)],
        exec x.1 s = .next (vIssue s l x.2) ∧ x.2 ≠ opSumq := by
      simp only [List.forall_mem_cons]
      refine ⟨?_, ?_, ?_, ?_, ?_, ?_, ?_, ?_, ?_, ?_, ?_, ?_, ?_, ?_, ?_, ?_, ?_, ?_, ?_, ?_, fun _ none => absurd none List.not_mem_nil⟩ <;>
        exact ⟨rfl, by decide⟩
    obtain ⟨run, other⟩ := issues x mem
    rw [run]
    refine congrArg _ ((vIssue_ready live ready ok rfl may fun sums => absurd sums other).trans ?_)
    exact congrArg (advance · u) (if_neg other)
  case sumq => exact congrArg _ (vIssue_ready live ready ok rfl may fun _ => room)

/-- Settles O20: with no exception no group holds the run back; a core's action is the model's own. -/
theorem vectorExceptions : Obligations.VectorExceptions := by
  unfold Obligations.VectorExceptions
  refine ⟨?whole, ?actions⟩
  case whole =>
    intro s l e places noTrap skipped none
    have clean : (vShares s l e places noTrap).filterMap (fun h => h.exc.map fun x => vGroup e x.1) = [] :=
      List.filterMap_eq_nil_iff.2 fun h mem => by rw [none h mem]; rfl
    simp only [vRun, clean]
    rfl
  case actions =>
    intro r col s v l p pending faulty next
    have answered (a : BitVec 2) : vAction s r col a = next a := by
      simp only [vAction]
      rw [show (seqCtl s (rowLeader s r.toNat)).vexc = some v from pending]
      exact if_pos faulty
    exact ⟨congrArg _ (answered 0), congrArg _ (answered 1), congrArg _ (answered 2), congrArg _ (answered 3)⟩

end Sys2Proof.Machine
end

section
/-! SUPPORT. Frames: one word of the register store, and one property of a stream, through a chain of writes. -/

namespace Sys2Proof.Machine

/-! One word. -/

/-- The word at address a reads in t as in s, and the store keeps its order. -/
def WordKept (a : Nat) (s t : State) : Prop :=
  Rising s.mg → Rising t.mg ∧ mget mgDefault a t.mg = mget mgDefault a s.mg

variable {a l : Nat} {s t u : State}

theorem WordKept.refl : WordKept a s s := fun w => ⟨w, rfl⟩

theorem WordKept.trans (h : WordKept a s t) (g : WordKept a t u) : WordKept a s u := fun w => by
  obtain ⟨wt, ht⟩ := h w
  obtain ⟨wu, gt⟩ := g wt
  exact ⟨wu, gt.trans ht⟩

theorem WordKept.of_mg (same : t.mg = s.mg) : WordKept a s t := fun w => by
  rw [same]
  exact ⟨w, rfl⟩

/-- A stream's update comes after. -/
theorem WordKept.thenUpd (h : WordKept a s t) {f : Ctl → Ctl} : WordKept a s (updSeq t l f) := h.trans (.of_mg rfl)

theorem WordKept.setReg {r : Reg} {i k : Nat} {v : W64} (ne : a ≠ regAddr r i k) : WordKept a s (setReg s r i k v) :=
  fun w => ⟨rising_setReg w .., mget_mset_ne w ne⟩

theorem WordKept.putF {f : Fld} {i v k : Nat} (ne : a ≠ regAddr f.reg i k) : WordKept a s (putF s f i v k) := .setReg ne

theorem WordKept.bumpF {f : Fld} {i n k : Nat} (ne : a ≠ regAddr f.reg i k) : WordKept a s (bumpF s f i n k) := .setReg ne

theorem WordKept.ite {c : Prop} [Decidable c] (yes : c → WordKept a s t) (no : ¬ c → WordKept a s u) :
    WordKept a s (if c then t else u) := by
  split
  · exact yes ‹_›
  · exact no ‹_›

theorem WordKept.foldl {β : Type} {f : State → β → State} {xs : List β} (step : ∀ s, ∀ x ∈ xs, WordKept a s (f s x)) :
    WordKept a s (xs.foldl f s) := by
  induction xs generalizing s with
  | nil => exact .refl
  | cons x xs ih => exact (step s x List.mem_cons_self).trans (ih fun s y mem => step s y (List.mem_cons_of_mem x mem))

theorem WordKept.reg {r : Reg} {i k : Nat} (h : WordKept (regAddr r i k) s t) (w : Rising s.mg) : reg t r i k = reg s r i k :=
  (h w).2

theorem WordKept.getF {f : Fld} {i k : Nat} (h : WordKept (regAddr f.reg i k) s t) (w : Rising s.mg) :
    getF t f i k = getF s f i k := congrArg (fun x : W64 => bits x.toNat f.hi f.lo) (h.reg w)

/-- Words of different blocks. -/
theorem regAddr_ne_block {r r' : Reg} {i i' k k' : Nat} (apart : (regSpec r).blk ≠ (regSpec r').blk)
    (inst : i < blockCount (regSpec r).blk) (word : k < (regSpec r).count)
    (inst' : i' < blockCount (regSpec r').blk) (word' : k' < (regSpec r').count) : regAddr r i k ≠ regAddr r' i' k' :=
  regAddr_ne inst word inst' word' (.inl apart)

/-! Keys a store drops or replaces in a range. -/

theorem mget_mdrop_keep {α : Type} {d : Nat → α} {p : Nat → Bool} {k : Nat} {m : Map α} (w : Rising m) (n : p k = false) :
    mget d k (mdrop p m) = mget d k m := by
  induction m with
  | nil => rfl
  | cons b r ih =>
    obtain ⟨above, rest⟩ := rising_cons.1 w
    by_cases drop : p b.1 = true
    · have other : k ≠ b.1 := fun e => by rw [e, drop] at n; exact absurd n (by decide)
      rw [show mdrop p (b :: r) = mdrop p r from List.filter_cons_of_neg (by simp [drop]), ih rest]
      simp only [mget, if_neg other]
      split
      · exact mget_lt fun e mem => lt_trans ‹_› (above e mem)
      · rfl
    · rw [show mdrop p (b :: r) = b :: mdrop p r from List.filter_cons_of_pos (by simp [drop])]
      simp only [mget, ih rest]

theorem mget_mreplaceD_outside {α : Type} [DecidableEq α] {d : Nat → α} {lo hi k : Nat} {b m : Map α} (w : Rising m)
    (inside : ∀ e ∈ b, e.1 < hi - lo) (n : k < lo ∨ hi ≤ k) : mget d k (mreplaceD d lo hi b m) = mget d k m := by
  have dropped : mget d k (mdrop (fun k => decide (lo ≤ k) && decide (k < hi)) m) = mget d k m :=
    mget_mdrop_keep w (by simp only [Bool.and_eq_false_iff, decide_eq_false_iff_not]; omega)
  unfold mreplaceD
  generalize moved : mdrop (fun k => decide (lo ≤ k) && decide (k < hi)) m = g at dropped ⊢
  have wg : Rising g := moved ▸ rising_mdrop w
  clear moved
  induction b generalizing g with
  | nil => exact dropped
  | cons e b ih =>
    have range := inside e List.mem_cons_self
    refine ih (fun x mem => inside x (List.mem_cons_of_mem e mem)) _ ?_ (rising_mset wg)
    rw [mget_mset_ne wg (by omega), dropped]

theorem rising_mreplaceD {α : Type} [DecidableEq α] {d : Nat → α} {lo hi : Nat} {b m : Map α} (w : Rising m) :
    Rising (mreplaceD d lo hi b m) :=
  List.foldlRecOn (motive := fun m : Map α => Rising m) _ _ (rising_mdrop w) fun _ w _ _ => rising_mset w

theorem mslice_lt {α : Type} {lo hi : Nat} {m : Map α} {e : Nat × α} (mem : e ∈ mslice lo hi m) : e.1 < hi - lo := by
  obtain ⟨x, inside, rfl⟩ := List.mem_map.1 mem
  have := (List.mem_filter.1 inside).2
  simp only [Bool.and_eq_true, decide_eq_true_eq] at this
  change x.1 - lo < hi - lo
  omega

/-! One property of a stream. -/

/-- Stream l has property P in t if it has it in s, and the streams keep their order. -/
def SeqKept (P : Ctl → Prop) (l : Nat) (s t : State) : Prop :=
  Rising s.ctl → Rising t.ctl ∧ (P (seqCtl s l) → P (seqCtl t l))

variable {P : Ctl → Prop}

theorem SeqKept.refl : SeqKept P l s s := fun w => ⟨w, id⟩

theorem SeqKept.trans (h : SeqKept P l s t) (g : SeqKept P l t u) : SeqKept P l s u := fun w => by
  obtain ⟨wt, ht⟩ := h w
  obtain ⟨wu, gt⟩ := g wt
  exact ⟨wu, gt ∘ ht⟩

theorem SeqKept.of_ctl (same : t.ctl = s.ctl) : SeqKept P l s t := fun w => by
  refine ⟨same ▸ w, fun p => ?_⟩
  rwa [seqCtl_eq_of_ctl same]

theorem SeqKept.updSeq {f : Ctl → Ctl} (keep : ∀ c, P c → P (f c)) : SeqKept P l s (updSeq s l f) := fun w => by
  refine ⟨rising_updSeq w .., fun p => ?_⟩
  rw [Machine.updSeq, setSeq, seqCtl, getCtl_setCtl_self w]
  exact keep _ p

theorem SeqKept.thenUpd {f : Ctl → Ctl} (h : SeqKept P l s t) (keep : ∀ c, P c → P (f c)) : SeqKept P l s (Machine.updSeq t l f) :=
  h.trans (.updSeq keep)

/-- What leaves the streams alone comes after. -/
theorem SeqKept.thenCtl (h : SeqKept P l s t) (same : u.ctl = t.ctl) : SeqKept P l s u := h.trans (.of_ctl same)

theorem SeqKept.updRcc {r : Nat} {f : Ctl → Ctl} : SeqKept P l s (updCtl s (rccOf r) f) := fun w => by
  refine ⟨rising_setCtl w .., fun p => ?_⟩
  have same : getCtl (updCtl s (rccOf r) f) (seqOf l) = getCtl s (seqOf l) :=
    getCtl_setCtl_ne w (procNum_seq_rcc (BitVec.ofNat 6 l) (BitVec.ofNat 6 r))
  rw [seqCtl, same]
  exact p

theorem SeqKept.ite {c : Prop} [Decidable c] (yes : SeqKept P l s t) (no : SeqKept P l s u) :
    SeqKept P l s (if c then t else u) := by
  split
  · exact yes
  · exact no

theorem SeqKept.foldl {β : Type} {f : State → β → State} {xs : List β} (step : ∀ s x, SeqKept P l s (f s x)) :
    SeqKept P l s (xs.foldl f s) := by
  induction xs generalizing s with
  | nil => exact .refl
  | cons x xs ih => exact (step s x).trans ih

end Sys2Proof.Machine
end

section
/-! SUPPORT. Hoists issue (R257-R263); commands to a gang (R189); and the proofs of their obligations. -/

namespace Sys2Proof.Machine

variable {s : State} {l : Nat}

/-- Settles O21: the issued head is checked; its requests are queued or it is refused. -/
theorem hoistInstructionsIssue : Obligations.HoistInstructionsIssue := by
  unfold Obligations.HoistInstructionsIssue
  intro u ecc s e live x mem ready popped d fc aop
  have issues : ∀ x ∈ [(Instr.hget ⟨u, ecc⟩, opHget), (.hput ⟨u, ecc⟩, opHput), (.hcp ⟨u, ecc⟩, opHcp), (.hatom ⟨u, ecc⟩, opHatom)],
      exec x.1 s = .next (hoistIssue s u x.2 ecc) := by
    simp only [List.forall_mem_cons]
    exact ⟨rfl, rfl, rfl, rfl, fun _ none => absurd none List.not_mem_nil⟩
  rw [issues x mem]
  unfold hoistIssue
  rw [issueHead_ready live ready]
  refine ⟨fun legal => ?legal, fun c refused => ?refused⟩
  case legal =>
    simp only [show hoistCheck u x.2 e.w (hoistDesc e.ps) = none from legal] <;> rfl
  case refused =>
    simp only [show hoistCheck u x.2 e.w (hoistDesc e.ps) = some c from refused] <;> rfl

/-! Commands to a gang. -/

section
variable {b : Requester} {row : Nat} {ok : State → Bool} {f : State → State}
  (open' : gate s b true (regAddr .rowCtl row 0) = none)
include open'

theorem gangCommand_accepted (leads : rowLeader s row = row) (own : lent s row = false) (fits : ok s = true) :
    gangCommand s b row ok f = done (f s) := by
  unfold gangCommand
  rw [guarded_none open']
  exact if_neg (by simp [leads, own, fits])

theorem gangCommand_refused (not : rowLeader s row ≠ row ∨ lent s row = true ∨ ok s = false) :
    gangCommand s b row ok f = denied s b := by
  unfold gangCommand
  rw [guarded_none open']
  exact if_pos (not.imp_right (Or.imp_right fun n => by simp [n]))

end

theorem startable_of_fit {states : List Nat} (state : gangState s l ∈ states)
    (fit : gangFit s l = true ∧ residentHalted s l = false) : startable l states s = true := by
  simp [startable, state, fit.1, fit.2]

theorem startable_other {states : List Nat} (state : gangState s l ∉ states) : startable l states s = false := by
  simp [startable, state]

/-! What GO leaves. -/

/-- Nothing is queued, no loop is open, and no context is away or restored. -/
def Cleared (c : Ctl) : Prop :=
  c.loops = [] ∧ c.qM = [] ∧ c.qV = [] ∧ c.qH = [] ∧ c.qT = [] ∧ c.away = false ∧ c.restored = false

theorem seqKept_landPatches (n : Nat) : SeqKept Cleared l s (landPatches s l n) := by
  unfold landPatches
  extract_lets due landed
  refine .ite .refl (.thenUpd ?_ fun _ cleared => cleared)
  exact .foldl fun s p => .of_ctl rfl

theorem seqKept_exchangeBank : SeqKept Cleared l s (exchangeBank s l) := by
  unfold exchangeBank
  extract_lets a b p
  refine .ite (.thenUpd (.of_ctl rfl) fun c cleared => ?_) .refl
  obtain ⟨-, rest⟩ := cleared
  exact ⟨rfl, rest⟩

theorem ctl_placePaced {r : Nat} : (placePaced s r).ctl = s.ctl := by
  unfold placePaced
  split <;> rfl

theorem seqKept_startPace : SeqKept Cleared l s (startPace s l) := by
  unfold startPace restartPace
  extract_lets on placed
  refine .thenUpd (.thenUpd ?_ fun _ cleared => cleared) fun _ cleared => cleared
  exact .foldl fun s r => .of_ctl (ctl_placePaced (s := s))

theorem seqKept_boundary : SeqKept Cleared l s (boundary s l true) := by
  unfold boundary
  extract_lets exchanged paced
  refine .thenUpd (.trans (t := exchanged) ?_ seqKept_startPace) fun _ cleared => cleared
  exact (seqKept_landPatches _).trans (SeqKept.trans (t := copyParams (landPatches s l (stepNow s l)) l) (.of_ctl rfl)
    seqKept_exchangeBank)

theorem seqKept_startRccs : SeqKept Cleared l s (startRccs s l) := .foldl fun _ _ => .updRcc

/-- What GO gives the stream before it runs. -/
def goCtl (c : Ctl) : Ctl := { discardQueues c with loops := [], away := false, restored := false }

theorem cleared_goCtl (c : Ctl) : Cleared (goCtl c) := ⟨rfl, rfl, rfl, rfl, rfl, rfl, rfl⟩

theorem seqCtl_updSeq_self (w : Rising s.ctl) (f : Ctl → Ctl) : seqCtl (updSeq s l f) l = f (seqCtl s l) :=
  getCtl_setCtl_self w ..

/-- The gang as GO sets it running. -/
def goRuns (s : State) (l : Nat) : State := setGangState (startRccs (updSeq (bringBack s l) l goCtl) l) l gsRunning

theorem goGang_eq (s : State) (l : Nat) :
    goGang s l = setPc (boundary (goRuns s l) l true) (seqOf l) (progOf (boundary (goRuns s l) l true) (seqOf l)).entry := rfl

theorem seqKept_setPc (p : Nat) : SeqKept Cleared l s (setPc s (seqOf l) p) :=
  .updSeq (f := fun c => { c with pc := p }) fun _ cleared => cleared

/-- GO leaves the stream cleared. -/
theorem cleared_goGang (canon : s.Canon) : Cleared (seqCtl (goGang s l) l) := by
  have back : (bringBack s l).Canon := (keeps_bringBack (s1 := s) (a1 := l) .refl).2 canon
  have w : Rising (bringBack s l).ctl := (mwf_iff.1 back.ctl).1
  have fresh : Cleared (seqCtl (updSeq (bringBack s l) l goCtl) l) := by
    rw [seqCtl_updSeq_self w]
    exact cleared_goCtl _
  have started : SeqKept Cleared l (updSeq (bringBack s l) l goCtl) (goRuns s l) := .thenCtl seqKept_startRccs rfl
  have ran : SeqKept Cleared l (updSeq (bringBack s l) l goCtl) (goGang s l) := by
    rw [goGang_eq]
    exact (started.trans seqKept_boundary).trans (seqKept_setPc _)
  exact (ran (rising_updSeq w ..)).2 fresh

/-! The acts of a boundary leave the state of the row alone. -/

section
variable (lt : l < 64)
include lt

theorem statusKept_landPatches {n : Nat} (inside : ∀ p ∈ (seqCtl s l).patches, p.reg < 64) :
    WordKept (regAddr .rowStatus l 0) s (landPatches s l n) := by
  unfold landPatches
  extract_lets due landed
  refine .ite (fun _ => .refl) fun _ => .trans (t := landed) ?_ (.of_mg rfl)
  exact .foldl fun s p mem => .setReg (regAddr_ne_rowPshadow rfl (by decide) lt lt (inside p (List.mem_of_mem_filter mem)))

omit lt in
theorem statusKept_copyParams : WordKept (regAddr .rowStatus l 0) s (copyParams s l) := fun w => by
  have before : regAddr .rowStatus l 0 < blockBase .row l + 0x400 := by
    rw [regAddr_eq, show (regSpec .rowStatus).blk = .row from rfl]
    have small : wordOff .rowStatus 0 < 0x400 := by decide
    omega
  unfold copyParams
  generalize blockBase .row l = b at before ⊢
  have moved : ∀ e ∈ mslice (b + 0x200) (b + 0x400) s.mg, e.1 < b + 0x600 - (b + 0x400) := fun e mem => by
    simpa [Nat.add_sub_add_left] using mslice_lt mem
  exact ⟨rising_mreplaceD w, mget_mreplaceD_outside w moved (.inl before)⟩

theorem statusKept_row {f : Fld} {r v : Nat} (row : (regSpec f.reg).blk = .row) (other : wordOff .rowStatus 0 ≠ wordOff f.reg 0)
    (inside : r < 64) : WordKept (regAddr .rowStatus l 0) s (putF s f r v) :=
  .putF (regAddr_ne lt (by decide) (by rwa [row]) (count_pos _) (.inr (.inr other)))

theorem statusKept_banks {v : Nat} : WordKept (regAddr .rowStatus l 0) s
    (putF (putF (putF s F.ROW_IMCTL_ACTIVE l v) F.ROW_IMCTL_ARMED l 0) F.ROW_IMCTL_SWITCHED l 1) :=
  (statusKept_row lt rfl (by decide) lt).trans ((statusKept_row lt rfl (by decide) lt).trans
    (statusKept_row lt rfl (by decide) lt))

theorem statusKept_exchangeBank : WordKept (regAddr .rowStatus l 0) s (exchangeBank s l) := by
  unfold exchangeBank
  refine .ite (fun _ => ?_) fun _ => .refl
  exact (statusKept_banks lt).thenUpd

theorem statusKept_placePaced {r : Nat} (inside : r < 64) : WordKept (regAddr .rowStatus l 0) s (placePaced s r) := by
  unfold placePaced
  extract_lets op
  exact .ite (fun _ => statusKept_row lt rfl (by decide) inside) fun _ =>
    (statusKept_row lt rfl (by decide) inside).trans (statusKept_row lt rfl (by decide) inside)

theorem statusKept_startPace : WordKept (regAddr .rowStatus l 0) s (startPace s l) := by
  unfold startPace
  extract_lets on placed
  refine .trans (t := placed) ?_ (.of_mg rfl)
  exact .foldl fun s r mem => (statusKept_placePaced lt (gangRows_lt mem)).trans
    (statusKept_row lt rfl (by decide) (gangRows_lt mem))

theorem statusKept_boundary (inside : ∀ p ∈ (seqCtl s l).patches, p.reg < 64) :
    WordKept (regAddr .rowStatus l 0) s (boundary s l true) := by
  unfold boundary
  extract_lets exchanged paced
  refine .trans (t := exchanged) ?_ (.trans (t := paced) (statusKept_startPace lt) (.of_mg rfl))
  exact (statusKept_landPatches lt inside).trans (statusKept_copyParams.trans (statusKept_exchangeBank lt))

end

/-- The patches that GO finds are those of the context it brings back. -/
theorem patches_goRuns (w : Rising (bringBack s l).ctl) :
    (seqCtl (goRuns s l) l).patches = (seqCtl (bringBack s l) l).patches := by
  have dropped (es : List QEntry) (c : Ctl) : (es.foldl dropEntry c).patches = c.patches :=
    List.foldlRecOn (motive := fun c' : Ctl => c'.patches = c.patches) _ _ rfl fun c' same e _ => by
      unfold dropEntry
      split
      · exact same
      · cases toutOf e.op.toNat e.w <;> exact same
  have cleared : (seqCtl (updSeq (bringBack s l) l goCtl) l).patches = (seqCtl (bringBack s l) l).patches := by
    rw [seqCtl_updSeq_self w]
    exact dropped _ _
  have started : SeqKept (fun c => c.patches = (seqCtl (bringBack s l) l).patches) l (updSeq (bringBack s l) l goCtl) (goRuns s l) :=
    .thenCtl (.foldl fun _ _ => .updRcc) rfl
  exact (started (rising_updSeq w ..)).2 cleared

theorem gangState_goGang (canon : s.Canon) (lt : l < 64) (inside : ∀ p ∈ (seqCtl (bringBack s l) l).patches, p.reg < 64) :
    gangState (goGang s l) l = gsRunning := by
  have back : (bringBack s l).Canon := (keeps_bringBack (s1 := s) (a1 := l) .refl).2 canon
  have started : (startRccs (updSeq (bringBack s l) l goCtl) l).Canon :=
    (keeps_startRccs (keeps_updSeq .refl)).2 back
  have w : Rising (startRccs (updSeq (bringBack s l) l goCtl) l).mg := regs_rising started.mg
  have runs : gangState (goRuns s l) l = gsRunning := getF_putF_self w _ _ _ _ (by decide) (by decide)
  rw [goGang_eq, ← runs]
  refine WordKept.getF (f := F.ROW_STATUS_STATE) (statusKept_boundary lt ?_) (rising_putF w ..)
  rw [patches_goRuns (mwf_iff.1 back.ctl).1]
  exact inside

/-- Settles O22: each command at its leader, at others, and what GO leaves. -/
theorem gangCommands : Obligations.GangCommands := by
  unfold Obligations.GangCommands
  refine ⟨?commands, ?go⟩
  case commands =>
    intro b row s open' r st fit
    have isRunning (state : st = gsRunning) : (fun s => gangState s r == gsRunning) s = true := beq_iff_eq.2 state
    have notRunning (state : st ≠ gsRunning) : (fun s => gangState s r == gsRunning) s = false := beq_false_of_ne state
    refine ⟨fun leads own => ⟨fun state fits => ?_, fun state fits => ?_, fun state fits => ?_, fun state => ?_, fun state => ?_,
      fun state => ?_⟩, fun not => ?_, fun not => ⟨?_, ?_⟩, fun not => ⟨?_, ?_, ?_⟩⟩
    · exact congrArg _ (gangCommand_accepted open' leads own (startable_of_fit (by simpa using state) fits))
    · exact congrArg _ (gangCommand_accepted open' leads own (startable_of_fit (List.mem_singleton.2 state) fits))
    · exact congrArg _ (gangCommand_accepted open' leads own (startable_of_fit (List.mem_singleton.2 state) fits))
    · exact congrArg _ (gangCommand_accepted open' leads own (isRunning state))
    · exact congrArg _ (gangCommand_accepted open' leads own (isRunning state))
    · exact congrArg _ (gangCommand_accepted open' leads own (isRunning state))
    · refine congrArg _ (gangCommand_refused open' (not.imp_right (.imp_right fun ⟨n, n'⟩ => startable_other fun mem => ?_)))
      exact absurd (List.mem_pair.1 mem) (not_or.2 ⟨n, n'⟩)
    · exact congrArg _ (gangCommand_refused open' (not.imp_right (.imp_right fun n => startable_other (mt List.mem_singleton.1 n))))
    · exact congrArg _ (gangCommand_refused open' (not.imp_right (.imp_right fun n => startable_other (mt List.mem_singleton.1 n))))
    · exact congrArg _ (gangCommand_refused open' (not.imp_right (.imp_right notRunning)))
    · exact congrArg _ (gangCommand_refused open' (not.imp_right (.imp_right notRunning)))
    · exact congrArg _ (gangCommand_refused open' (not.imp_right (.imp_right notRunning)))
  case go =>
    intro b row s canon open' r leads own fit resident state inside
    have accepted : exec (.go b row) s = .next (done (goGang s r)) :=
      congrArg _ (gangCommand_accepted open' leads own (startable_of_fit (by simpa using state) ⟨fit, resident⟩))
    exact ⟨_, accepted, gangState_goGang canon row.isLt inside, rfl, cleared_goGang canon⟩

end Sys2Proof.Machine
end

section
/-! SUPPORT. Releases at pod time (R40, R345); the fantail's evaluation and samples (R39, R463, R464); and the proofs of their
obligations. -/

namespace Sys2Proof.Machine

/-- A START_BARRIER whose TR is an instant of hall time. -/
def hallRun : CollRun :=
  ⟨0, [BitVec.ofNat 64 (opStartBarrier * 2 ^ 56), 0, 0, 0, BitVec.ofNat 64 (2 ^ 47)], 0, 0, [], [], [0], some 0, false, none⟩

/-- Two armed gangs, the first with a PATCH of a parameter register that lies at the address of TB_POD. -/
def patchedRelease : State :=
  let s := updHalf (putF (putF State.reset F.LEAT_JOB_VALID 0 1 0) F.COLL_GROUP_W0_VALID 0 1 0) 0 fun x => { x with colls := [hallRun] }
  let s := updSeq s 0 fun c =>
    { c with armed := true, patches := [⟨0, 0, (regAddr .tbPod 0 0 - regAddr .rowPshadow 0 0) / 8, 5⟩] }
  updSeq s 1 fun c => { c with armed := true, restored := true }

/-- The schedule of the second gang begins at the instant of the release. -/
theorem paceT0_released :
    (match exec (.barrierRelease 0 0) patchedRelease with
      | .next t => (seqCtl t 1).paceT0
      | _ => 1) = 0 := by decide +kernel

/-- Had the instant been read again after the first gang's release, its PATCH would show in it. -/
theorem paceT0_read_again :
    (seqCtl ([hallRun].foldl (fun s r => collFinish s 0 r 0 (hallTime s 0))
      ((armedFor patchedRelease 0 0).foldl (fun s l => releaseGang s l (releaseT0 s 0 hallRun)) patchedRelease)) 1).paceT0 = 5 := by
  decide +kernel

/-- Refutes O26: the statement reads the instant of a release anew for every gang, and the first gang's PATCHes land before the
second is released; one that names TB_POD's address changes the pod time in between. -/
theorem not_releasesAtPodTime : ¬ Obligations.ReleasesAtPodTime := by
  unfold Obligations.ReleasesAtPodTime
  intro holds
  obtain ⟨-, release, -⟩ := holds patchedRelease
  have released := release 0 0 hallRun [] (by decide +kernel)
  have now := paceT0_released
  rw [released] at now
  exact absurd (now.symm.trans paceT0_read_again) (by decide)

end Sys2Proof.Machine
end

section
/-! SUPPORT. The fantail's evaluation and samples (R39, R463, R464), and the proof of their obligation. -/

namespace Sys2Proof.Machine

variable {s t u : State} {k : Nat}

/-- The power registers, the evaluations counted and the bucket are as before. -/
structure FanKept (k : Nat) (s t : State) : Prop where
  word : ∀ r i, (regSpec r).blk = .pwr → i < (regSpec r).count → WordKept (regAddr r 0 i) s t
  evals : (half t k).evals = (half s k).evals
  bucket : (half t k).bucket = (half s k).bucket

theorem FanKept.refl : FanKept k s s := ⟨fun _ _ _ _ => .refl, rfl, rfl⟩

theorem FanKept.trans (h : FanKept k s t) (g : FanKept k t u) : FanKept k s u :=
  ⟨fun r i blk word => (h.word r i blk word).trans (g.word r i blk word), g.evals.trans h.evals, g.bucket.trans h.bucket⟩

theorem FanKept.foldl {β : Type} {f : State → β → State} {xs : List β} (step : ∀ s, ∀ x ∈ xs, FanKept k s (f s x)) :
    FanKept k s (xs.foldl f s) := by
  induction xs generalizing s with
  | nil => exact .refl
  | cons x xs ih => exact (step s x List.mem_cons_self).trans (ih fun s y mem => step s y (List.mem_cons_of_mem x mem))

/-- A field of a row. -/
theorem FanKept.row {f : Fld} {r v : Nat} (row : (regSpec f.reg).blk = .row) (lt : r < 64) : FanKept k s (putF s f r v) where
  word q i blk word := .putF (regAddr_ne_block (by rw [blk, row]; decide) (by rw [blk]; decide) word (by rwa [row]) (count_pos _))
  evals := rfl
  bucket := rfl

theorem fanKept_fresh : FanKept k s (fresh s).2 := ⟨fun _ _ _ _ => .of_mg rfl, rfl, rfl⟩

theorem halfRows_lt {h r : Nat} (half : h < 2) (mem : r ∈ halfRows h) : r < 64 := by
  obtain ⟨i, inside, rfl⟩ := List.mem_map.1 mem
  have := List.mem_range.1 inside
  omega

theorem fanKept_placeGang (l op : Nat) : FanKept k s (placeGang s l op) := by
  refine .foldl fun s r mem => ?_
  split
  · exact .row rfl (gangRows_lt mem)
  · exact .refl

theorem fanKept_freeToMin (h : Nat) : FanKept k s (freeToMin s h) := .foldl fun _ _ _ => fanKept_placeGang _ _

theorem fanKept_raiseGang (h n budget op l : Nat) : FanKept k s (raiseGang h n budget op s l) := by
  induction op with
  | zero => exact fanKept_placeGang _ _
  | succ op ih =>
    unfold raiseGang
    extract_lets t
    split
    · exact fanKept_placeGang _ _
    · exact ih

theorem fanKept_updHalf {f : Half → Half} (evals : ∀ x, (f x).evals = x.evals) (bucket : ∀ x, (f x).bucket = x.bucket) :
    FanKept k s (updHalf s k f) :=
  ⟨fun _ _ _ _ => .of_mg (updHalf_mg ..), by rw [half_updHalf_self, evals], by rw [half_updHalf_self, bucket]⟩

theorem fanKept_chooseFree (n budget : Nat) : FanKept k s (chooseFree s k n budget) := by
  unfold chooseFree
  extract_lets hot t
  have raised : FanKept k s t := (fanKept_freeToMin k).trans (.foldl fun _ _ _ => fanKept_raiseGang ..)
  refine raised.trans (.foldl fun s l _ => ?_)
  split
  · exact .refl
  · exact fanKept_updHalf (fun _ => rfl) fun _ => rfl

theorem fanKept_measureRates (half : k < 2) : FanKept k s (measureRates s k) :=
  .foldl fun _ _ mem => fanKept_fresh.trans (.row rfl (halfRows_lt half mem))

theorem fanKept_holdPaced (half : k < 2) : FanKept k s (holdPaced s k) := by
  unfold holdPaced
  split
  · exact .refl
  · refine .foldl fun s r mem => ?_
    split
    · exact .row rfl (halfRows_lt half mem)
    · exact .refl

/-- One more evaluation. -/
def countEval (s : State) (k : Nat) : State := updHalf s k fun x => { x with evals := x.evals + 1 }

/-- The level to which mean power p moves the bucket, Bmax at most. -/
def movedBucket (s : State) (k p : Nat) : Int :=
  min (bucketMax s k * 100 : Nat) ((half s k).bucket - ((p : Int) - sustainW s k))

def moveBucket (s : State) (k p : Nat) : State :=
  if (half s k).bucketOn then setBucket s k (movedBucket s k p).toNat else s

/-- The mean power and a free input voltage. -/
def showPower (s : State) (k p : Nat) : State :=
  let s := putF s F.PWR_MEAS_P_AVG 0 p k
  putF (fresh s).2 F.PWR_MEAS_VIN 0 (fresh s).1.toNat k

/-- A mean power below SUSTAIN ends the clamp. -/
def endClamp (s : State) (k p : Nat) : State := if p < sustainW s k then putF s F.PWR_STAT_CLAMP 0 0 k else s

/-- What it then does with the clamp and the points. -/
def fanServed (s : State) (k n p : Nat) : State :=
  let s := holdPaced (endClamp (measureRates s k) k p) k
  if getF s F.PWR_STAT_CLAMP 0 k = 1 then s
  else chooseFree s k n (if (half s k).bucket = 0 then sustainW s k else burstW s k)

theorem execFantailEvaluation_live {h : BitVec 1} {watts : BitVec 16} (live : fantailLive s h.toNat = true) :
    execFantailEvaluation h watts s =
      .next (fanServed (showPower (moveBucket (countEval s h.toNat) h.toNat watts.toNat) h.toNat watts.toNat) h.toNat (2 * (half s h.toNat).evals + h.toNat) watts.toNat) :=
  congrArg _ (if_neg (by simp [live]))

/-! What stands after the first part. -/

theorem half_countEval : half (countEval s k) k = { half s k with evals := (half s k).evals + 1 } := half_updHalf_self ..

theorem mg_countEval : (countEval s k).mg = s.mg := updHalf_mg ..

theorem half_setBucket (b : Nat) : half (setBucket s k b) k = { half s k with bucket := b } := half_updHalf_self ..

theorem evals_moveBucket (p : Nat) : (half (moveBucket s k p) k).evals = (half s k).evals := by
  unfold moveBucket
  split
  · rw [half_setBucket]
  · rfl

theorem bucket_moveBucket_on (p : Nat) (on : (half s k).bucketOn = true) :
    ((half (moveBucket s k p) k).bucket : Int) =
      max 0 (min (bucketMax s k * 100 : Nat) ((half s k).bucket + sustainW s k - p)) := by
  rw [moveBucket, if_pos on, half_setBucket]
  change ((movedBucket s k p).toNat : Int) = _
  rw [movedBucket]
  omega

theorem bucket_moveBucket_off (p : Nat) (off : (half s k).bucketOn = false) :
    (half (moveBucket s k p) k).bucket = (half s k).bucket := by
  rw [moveBucket, if_neg (Bool.eq_false_iff.1 off)]

theorem rising_moveBucket (w : Rising s.mg) (p : Nat) : Rising (moveBucket s k p).mg := by
  unfold moveBucket
  split
  · exact rising_putF (rising_putF (by rwa [updHalf_mg]) ..) ..
  · exact w

/-- Words of half k in two power registers. -/
theorem regAddr_ne_half {r r' : Reg} (inside : k < 2)
    (apart : ∀ k < 2, (regSpec r).blk = (regSpec r').blk ∧ wordOff r k ≠ wordOff r' k) : regAddr r 0 k ≠ regAddr r' 0 k :=
  regAddr_ne_word (apart k inside)

theorem budgetKept_moveBucket (inside : k < 2) (p : Nat) : WordKept (regAddr .pwrBudget 0 k) s (moveBucket s k p) := by
  unfold moveBucket
  refine .ite (fun _ => ?_) fun _ => .refl
  exact .trans (.trans (.of_mg (updHalf_mg ..)) (.putF (f := F.PWR_MEAS_BUCKET) (regAddr_ne_half inside (by decide))))
    (.putF (f := F.PWR_STAT_HELD) (regAddr_ne_half inside (by decide)))

theorem budgetKept_showPower (inside : k < 2) (p : Nat) : WordKept (regAddr .pwrBudget 0 k) s (showPower s k p) :=
  .trans (t := putF s F.PWR_MEAS_P_AVG 0 p k) (.putF (regAddr_ne_half inside (by decide)))
    (.trans (t := (fresh (putF s F.PWR_MEAS_P_AVG 0 p k)).2) (.of_mg rfl)
      (.putF (f := F.PWR_MEAS_VIN) (regAddr_ne_half inside (by decide))))

/-- A field beside the one written. -/
theorem mean_vin (w : Rising s.mg) (v : Nat) : getF (putF s F.PWR_MEAS_VIN 0 v k) F.PWR_MEAS_P_AVG 0 k = getF s F.PWR_MEAS_P_AVG 0 k :=
  getF_putF_other w _ _ _ _ rfl (by decide) (by decide) (by decide) (by decide)

theorem mean_showPower (w : Rising s.mg) (p : Nat) : getF (showPower s k p) F.PWR_MEAS_P_AVG 0 k = p % 2 ^ 16 := by
  have written : getF (putF s F.PWR_MEAS_P_AVG 0 p k) F.PWR_MEAS_P_AVG 0 k = p % 2 ^ 16 :=
    getF_putF_self w _ _ _ _ (by decide) (by decide)
  exact (mean_vin (s := (fresh (putF s F.PWR_MEAS_P_AVG 0 p k)).2) (rising_putF w ..) _).trans written

theorem rising_showPower (w : Rising s.mg) (p : Nat) : Rising (showPower s k p).mg :=
  rising_putF (s := (fresh (putF s F.PWR_MEAS_P_AVG 0 p k)).2) (rising_putF w ..) ..

theorem half_showPower (p h : Nat) : half (showPower s k p) h = half s h := rfl

theorem sustainW_of_kept (kept : WordKept (regAddr .pwrBudget 0 k) s t) (w : Rising s.mg) : sustainW t k = sustainW s k :=
  congrArg (· * 10) (WordKept.getF (f := F.PWR_BUDGET_SUSTAIN) kept w)

/-! The second part. -/

theorem rising_endClamp (w : Rising s.mg) (p : Nat) : Rising (endClamp s k p).mg := by
  unfold endClamp
  split
  · exact rising_putF w ..
  · exact w

theorem half_endClamp (p h : Nat) : half (endClamp s k p) h = half s h := by
  unfold endClamp
  split
  · exact half_putF ..
  · rfl

theorem meanKept_endClamp (inside : k < 2) (p : Nat) : WordKept (regAddr .pwrMeas 0 k) s (endClamp s k p) :=
  .ite (fun _ => .putF (f := F.PWR_STAT_CLAMP) (regAddr_ne_half inside (by decide))) fun _ => .refl

theorem clamp_endClamp (w : Rising s.mg) (p : Nat) (low : p < sustainW s k) : getF (endClamp s k p) F.PWR_STAT_CLAMP 0 k = 0 := by
  rw [endClamp, if_pos low]
  exact getF_putF_self w _ _ _ _ (by decide) (by decide)

theorem fanKept_served (inside : k < 2) (n p : Nat) : FanKept k (endClamp (measureRates s k) k p) (fanServed s k n p) := by
  unfold fanServed
  extract_lets held
  have holds : FanKept k (endClamp (measureRates s k) k p) held := fanKept_holdPaced inside
  split
  · exact holds
  · exact holds.trans (fanKept_chooseFree _ _)

section
variable (w : Rising s.mg) (inside : k < 2) (n p : Nat)
include inside

theorem half_fanServed : (half (fanServed s k n p) k).evals = (half s k).evals ∧
    (half (fanServed s k n p) k).bucket = (half s k).bucket := by
  have measured : FanKept k s (measureRates s k) := fanKept_measureRates inside
  have served : FanKept k (endClamp (measureRates s k) k p) (fanServed s k n p) := fanKept_served inside n p
  rw [served.evals, served.bucket, half_endClamp, measured.evals, measured.bucket]
  exact ⟨rfl, rfl⟩

include w

theorem mean_fanServed : getF (fanServed s k n p) F.PWR_MEAS_P_AVG 0 k = getF s F.PWR_MEAS_P_AVG 0 k := by
  have measured := (fanKept_measureRates (s := s) inside).word .pwrMeas k rfl inside
  have served := (fanKept_served (s := s) inside n p).word .pwrMeas k rfl inside
  exact WordKept.getF (f := F.PWR_MEAS_P_AVG) ((measured.trans (meanKept_endClamp inside p)).trans served) w

theorem clamp_fanServed (low : p < sustainW s k) : getF (fanServed s k n p) F.PWR_STAT_CLAMP 0 k = 0 := by
  have measured := (fanKept_measureRates (s := s) inside).word .pwrBudget k rfl inside
  have served := (fanKept_served (s := s) inside n p).word .pwrStat k rfl inside
  have wm := (measured w).1
  rw [WordKept.getF (f := F.PWR_STAT_CLAMP) served (rising_endClamp wm p)]
  exact clamp_endClamp wm p (by rwa [sustainW_of_kept measured w])

end

/-- Settles O27: the evaluation shows and counts, then serves; a sample acts above BURST alone. -/
theorem burstBucketAndClamp : Obligations.BurstBucketAndClamp := by
  unfold Obligations.BurstBucketAndClamp
  intro h watts s canon k live
  have inside : k < 2 := h.isLt
  have wc : Rising (countEval s k).mg := by
    rw [mg_countEval]
    exact regs_rising canon.mg
  have wb : Rising (moveBucket (countEval s k) k watts.toNat).mg := rising_moveBucket wc _
  have wp := rising_showPower (k := k) wb watts.toNat
  obtain ⟨evals, bucket⟩ := half_fanServed (s := showPower (moveBucket (countEval s k) k watts.toNat) k watts.toNat) inside
    (2 * (half s k).evals + k) watts.toNat
  have budget (f : State → Nat → Nat) (same : f = bucketMax ∨ f = sustainW) : f (countEval s k) k = f s k := by
    obtain rfl | rfl := same <;> simp only [bucketMax, burstW, sustainW, getF, reg, mg_countEval]
  refine ⟨⟨_, execFantailEvaluation_live live, ?_, fun on => ?_, fun off => ?_, ?_, fun low => clamp_fanServed wp inside _ _ ?_⟩, fun within => ?_, fun above => ?_⟩
  · rw [evals, half_showPower, evals_moveBucket, half_countEval]
  · rw [bucket, half_showPower, bucket_moveBucket_on _ (by rwa [half_countEval]), budget _ (.inl rfl), budget _ (.inr rfl),
      half_countEval]
  · rw [bucket, half_showPower, bucket_moveBucket_off _ (by rwa [half_countEval]), half_countEval]
  · rw [mean_fanServed wp inside, mean_showPower wb]
    exact Nat.mod_eq_of_lt watts.isLt
  · rwa [sustainW_of_kept ((budgetKept_moveBucket inside _).trans (budgetKept_showPower inside _)) wc, budget _ (.inr rfl)]
  · exact congrArg _ (if_pos (.inr within))
  · exact congrArg _ (if_neg (not_or.2 ⟨by simpa using live, above.not_ge⟩))

end Sys2Proof.Machine
end

section
/-! SUPPORT. Writes of a row's registers (R177, R186-R188), pace and result mode, and the proof of their obligation. -/

namespace Sys2Proof.Machine

variable {s : State} {b : Requester} {r : Nat} {v : W64}

/-! The parameter registers. -/

section
variable {i : Nat} (leads : rowLeader s r = r) (own : lent s r = false)
include leads own

theorem pshadowSet_accepted (open' : gate s b true (regAddr .rowPshadow r i) = none)
    (free : mget zNat i (seqCtl s r).landed ≠ stepNow s r + 1) : pshadowSet s b r i v = done (setReg s .rowPshadow r i v) := by
  unfold pshadowSet
  rw [guarded_none open', if_neg (by simp [leads, own]), if_neg free]

theorem pshadowSet_patched (open' : gate s b true (regAddr .rowPshadow r i) = none)
    (landed : mget zNat i (seqCtl s r).landed = stepNow s r + 1) : pshadowSet s b r i v = done s := by
  unfold pshadowSet
  rw [guarded_none open', if_neg (by simp [leads, own]), if_pos landed]

theorem pactiveSet_accepted (open' : gate s b true (regAddr .rowPactive r i) = none)
    (idle : gangState s r = gsStopped ∨ gangState s r = gsHalted) :
    pactiveSet s b r i v = done (setReg s .rowPactive r i v) := by
  unfold pactiveSet
  rw [guarded_none open', if_neg (by simp [leads, own, idle])]

end

theorem pactiveSet_busy {i : Nat} (open' : gate s b true (regAddr .rowPactive r i) = none) (notStopped : gangState s r ≠ gsStopped)
    (notHalted : gangState s r ≠ gsHalted) : pactiveSet s b r i v = denied s b := by
  unfold pactiveSet
  rw [guarded_none open', if_pos (.inr (.inr (by simp [notStopped, notHalted])))]

/-! The instruction store. -/

section
variable {bank j : Nat} (open' : gate s b true (regAddr (if bank = 0 then .rowBank0 else .rowBank1) r j) = none)
  (own : lent s r = false)
include open' own

theorem instrWrite_active (active : activeBank s r = bank) :
    instrWrite s b r bank j v = denied (bumpF s F.ROW_IMCTL_BUSY_CNT r) b := by
  unfold instrWrite
  rw [guarded_none open', if_neg (by simp [own]), if_pos active, imBusy]

theorem instrWrite_idle (idle : activeBank s r ≠ bank) : instrWrite s b r bank j v =
    done (putF { setReg s (if bank = 0 then .rowBank0 else .rowBank1) r j v with
      progs := mdrop (· == 2 * r + bank) (setReg s (if bank = 0 then .rowBank0 else .rowBank1) r j v).progs }
      F.ROW_IMCTL_ARMED r 0) := by
  unfold instrWrite
  rw [guarded_none open', if_neg (by simp [own]), if_neg idle]

end

/-- The words of a bank lie apart from ROW_IMCTL. -/
theorem bank_ne_rowImctl {k : Reg} {j : Nat} (bank : k = .rowBank0 ∨ k = .rowBank1) : regAddr k r j ≠ regAddr .rowImctl r 0 := by
  have far : (regSpec k).blk = (regSpec .rowImctl).blk ∧ wordOff .rowImctl 0 < (regSpec k).off := by
    obtain rfl | rfl := bank <;> decide
  have first : (regSpec k).off ≤ wordOff k j := Nat.le_add_right ..
  exact regAddr_ne_word ⟨far.1, (far.2.trans_le first).ne'⟩

/-- A change of one program, where there is one. -/
theorem withGen (t : State) (k : Nat) (f : Program → Program) :
    (match mfind k t.progs with
      | some p => { t with progs := mput k (f p) t.progs }
      | none => t) = { t with progs := match mfind k t.progs with
      | some p => mput k (f p) t.progs
      | none => t.progs } := by
  cases mfind k t.progs <;> rfl

theorem imctlWrite_bank0 (open' : gate s b true (regAddr .rowImctl r 0) = none) (own : lent s r = false)
    (active : activeBank s r = 0) (same : bits v.toNat 47 32 = getF s F.ROW_IMCTL_GEN0 r) :
    imctlWrite s b r v =
      let ahead := (bits v.toNat 63 48 + 65536 - getF s F.ROW_IMCTL_GEN0 r) % 65536
      let s' := putF (setReg s .rowImctl r 0 (storedWord .rowImctl (reg s .rowImctl r 0) v)) F.ROW_IMCTL_ARMED r
        (if 1 ≤ ahead ∧ ahead ≤ 32767 then 1 else 0)
      done { s' with progs := match mfind (2 * r + 1) s'.progs with
        | some p => mput (2 * r + 1) { p with gen := some (p.gen.getD (BitVec.ofNat 16 (bits v.toNat 63 48))) } s'.progs
        | none => s'.progs } := by
  unfold imctlWrite
  rw [guarded_none open']
  simp only [active, own, same, Bool.false_eq_true, if_false, if_true, ne_eq, not_true_eq_false, Nat.sub_zero, one_ne_zero]
  exact congrArg done (withGen _ _ _)

/-! The column map. -/

/-- A map names 64 slots. -/
theorem dedup_mapAfter (s : State) (r n : Nat) (v : W64) : (mapAfter s r n v).dedup.length = 64 ↔ (mapAfter s r n v).Nodup := by
  have all : (mapAfter s r n v).length = 64 := by rw [mapAfter, List.length_map, List.length_range]
  rw [← List.dedup_eq_self, ← all]
  exact ⟨(List.dedup_sublist _).eq_of_length, congrArg _⟩

section
variable {n : Nat} (open' : gate s b true (regAddr .rowColmap r n) = none)
include open'

theorem colmapSet_refused (not : (gangState s (rowLeader s r) = gsRunning ∨ gangState s (rowLeader s r) = gsSwitching) ∨
    (∃ k ∈ mapAfter s r n v, 67 < k) ∨ ¬ (mapAfter s r n v).Nodup) : colmapSet s b r n v = denied s b := by
  unfold colmapSet
  rw [guarded_none open']
  refine if_pos ?_
  rw [Ne, dedup_mapAfter]
  simpa using not

theorem colmapSet_accepted (idle : ¬ (gangState s (rowLeader s r) = gsRunning ∨ gangState s (rowLeader s r) = gsSwitching))
    (small : ∀ k ∈ mapAfter s r n v, k ≤ 67) (different : (mapAfter s r n v).Nodup) :
    colmapSet s b r n v = done (remapUnits (setReg s .rowColmap r n (storedWord .rowColmap (reg s .rowColmap r n) v)) r
      (mapAfter s r n (reg s .rowColmap r n)) (mapAfter s r n v)) := by
  unfold colmapSet
  rw [guarded_none open']
  refine if_neg ?_
  rw [Ne, dedup_mapAfter]
  simp only [not_or] at idle ⊢
  exact ⟨by simpa using idle, by simpa using small, not_not.2 different⟩

end

/-! Pace and result mode. -/

section
variable (open' : gate s b true (regAddr .rowPace r 0) = none) (lone : gangRows s (rowLeader s r) = [r])
include open'

theorem paceSet_unowned (on : bit v.toNat 63 = true) (not : bits v.toNat 47 32 = 0 ∨ ownerOf s 2 r ≠ 2) :
    paceSet s b r v = denied s b := by
  unfold paceSet
  rw [guarded_none open']
  simp only [on, if_true]
  rw [if_pos not.symm]

section
variable (on : bit v.toNat 63 = true) (target : bits v.toNat 47 32 ≠ 0) (owned : ownerOf s 2 r = 2)
include on target owned

theorem paceSet_tooFast (fast : pacePoint (bits v.toNat 47 32) = none) :
    paceSet s b r v = denied (putF s F.ROW_PACE_PACE_TOO_FAST r 1) b := by
  unfold paceSet
  rw [guarded_none open']
  simp only [on, if_true, fast]
  rw [if_neg (by simp [target, owned])]

include lone

theorem paceSet_paced {op : Nat} (point : pacePoint (bits v.toNat 47 32) = some op) :
    paceSet s b r v = if op < (opLimits s r).1 ∨ (opLimits s r).2 < op ∨ reserveFits s r (some op) = false then denied s b
      else done (paceTake s r v) := by
  unfold paceSet
  rw [guarded_none open']
  simp only [on, if_true, point, lone, List.any_cons, List.any_nil, bne_self_eq_false, Bool.false_and, Bool.or_false,
    Bool.false_eq_true, false_or, Bool.not_eq_true']
  rw [if_neg (by simp [target, owned])]

end

include lone

theorem paceSet_free (free : bit v.toNat 63 = false) (low : bits v.toNat 47 32 ≤ 1179) (fits : reserveFits s r none = true) :
    paceSet s b r v = done (paceTake s r v) := by
  unfold paceSet
  rw [guarded_none open']
  simp only [free, Bool.false_eq_true, if_false, lone, List.any_cons, List.any_nil, bne_self_eq_false, Bool.false_and,
    Bool.or_false, false_or, fits, Bool.not_true, or_false]
  rw [if_neg low.not_gt]

end

/-- Settles O23: each write past its gate, accepted and refused. -/
theorem rowRegisterWrites : Obligations.RowRegisterWrites := by
  unfold Obligations.RowRegisterWrites
  refine ⟨?stores, ?modes⟩
  case stores =>
    intro b row i bank j n v s r
    refine ⟨fun open' leads own => ⟨fun free => ?_, fun landed => ?_⟩, fun open' leads own => ⟨fun idle => ?_, fun ns nh => ?_⟩,
      ?bank, ?imctl, ?colmap⟩
    · exact congrArg _ (pshadowSet_accepted leads own open' free)
    · exact congrArg _ (pshadowSet_patched leads own open' landed)
    · exact congrArg _ (pactiveSet_accepted leads own open' idle)
    · exact congrArg _ (pactiveSet_busy open' ns nh)
    case bank =>
      intro k open' own
      have named : k = if bank.toNat = 0 then .rowBank0 else .rowBank1 := by
        have zero : bank = 0 ↔ bank.toNat = 0 := BitVec.toNat_inj.symm
        simp only [k, zero]
      rw [named] at open' ⊢
      refine ⟨fun active => congrArg _ (instrWrite_active open' own active), fun idle => ⟨_, congrArg Host.Outcome.next (instrWrite_idle (v := v) open' own idle), ?_⟩⟩
      intro canon
      have w := regs_rising canon.mg
      have apart : regAddr (if bank.toNat = 0 then Reg.rowBank0 else .rowBank1) r j.toNat ≠ regAddr .rowImctl r 0 :=
        bank_ne_rowImctl (by split <;> simp)
      have written : reg (setReg s (if bank.toNat = 0 then .rowBank0 else .rowBank1) r j.toNat v) _ r j.toNat = v :=
        reg_setReg_self w ..
      exact ⟨(reg_putF_ne (s := { setReg s _ r j.toNat v with progs := _ }) (rising_setReg w ..) _ _ _ _ apart).trans written, rfl⟩
    case imctl =>
      intro open' own active now new s' same
      exact congrArg _ (imctlWrite_bank0 open' own active same)
    case colmap =>
      intro open' new busy
      exact ⟨fun not => congrArg _ (colmapSet_refused open' not),
        fun idle small different => congrArg _ (colmapSet_accepted open' idle small different)⟩
  case modes =>
    intro b row v s r l tgt
    refine ⟨fun open' lone => ⟨fun free low fits => ?_, fun on target owned => ⟨fun fast => ?_, fun op point => ⟨fun lo hi fits => ?_,
      fun not => ?_⟩⟩, fun on not => ?_⟩, fun open' => ?_⟩
    · exact congrArg _ (paceSet_free open' lone free low fits)
    · exact congrArg _ (paceSet_tooFast open' on target owned fast)
    · refine congrArg _ ((paceSet_paced open' lone on target owned point).trans (if_neg ?_))
      simp [fits, lo, hi]
    · exact congrArg _ ((paceSet_paced open' lone on target owned point).trans (if_pos not))
    · exact congrArg _ (paceSet_unowned open' on not)
    · intro idle
      have eq : exec (.detmodeWrite b row v) s = .next (if ¬ [gsStopped, gsHalted].contains (gangState s l) then denied s b
          else done ((gangRows s l).foldl (fun s r =>
            setReg s .rowDetmode r 0 (storedWord .rowDetmode (reg s .rowDetmode r 0) v)) s)) := by
        change Host.Outcome.next (detmodeSet s b r v) = _
        rw [detmodeSet, guarded_none open']
      have listed : [gsStopped, gsHalted].contains (gangState s l) ↔ idle := by simp [idle]
      rw [eq]
      exact ⟨fun not => congrArg _ (if_pos (mt listed.1 not)), fun is => congrArg _ (if_neg (not_not.2 (listed.2 is)))⟩

end Sys2Proof.Machine
end

section
/-! SUPPORT. Context switches (R196) and program loads (R147, R171, R187), and the proof of their obligation. -/

namespace Sys2Proof.Machine

variable {s : State} {u : Proc} {bank : BitVec 1} {image : List W64}

theorem contextSwitch_next {l k : Nat} (leads : rowLeader s l = l) (switching : gangState s l = gsSwitching)
    (idle : drained (seqCtl s l) = true) (next : nextCtx s l = some k) :
    contextSwitch s l =
      let f := fetchSaved (saveResident s l) l k
      let t := loadSaved f.1 l k f.2
      let t := { t with saves := mdrop (· == 4 * l + k) t.saves }
      let c := seqCtl t l
      boundary (setGangState (if c.boundary = 0 ∧ c.nextId = 0 ∧ c.loops = [] ∧ rowSteps t l = 0 then
        setPc t (seqOf l) (progOf t (seqOf l)).entry else t) l gsRunning) l true := by
  unfold contextSwitch
  rw [if_pos ⟨leads, switching, idle⟩, next]

/-! Program loads. -/

/-- The half whose firmware loads a stream's program. -/
def loadHalf : Proc → Nat
  | .seq l => rowHalf l.toNat
  | .rcc r => rowHalf r.toNat
  | .node h _ => h.toNat

section
variable (live : nodeLive s (loadHalf u) = true) (mine : headerOk image = true → (programOf image).target.toNat = targetOf u)
include live mine

theorem load_served : ¬ ((!nodeLive s (loadHalf u)) = true ∨
    headerOk image = true ∧ (programOf image).target.toNat ≠ targetOf u) := by
  rintro (off | ⟨header, other⟩)
  · rw [live] at off
    exact absurd off (by decide)
  · exact other (mine header)

theorem load_refusedAt {c : BitVec 8} {q : Nat} (refused : loadRefusal u image = some (c, some q)) :
    execIcsumProgramLoad u bank image s = .next (answer s (.codeAt c q)) := by
  unfold execIcsumProgramLoad
  refine congrArg _ ((if_neg (load_served live mine)).trans ?_)
  simp only [refused]

theorem load_refused {c : BitVec 8} (refused : loadRefusal u image = some (c, none)) :
    execIcsumProgramLoad u bank image s = .next (answer s (.code c)) := by
  unfold execIcsumProgramLoad
  refine congrArg _ ((if_neg (load_served live mine)).trans ?_)
  simp only [refused]

/-- A stream other than a sequencer starts its program at ENTRY. -/
theorem load_started (accepted : loadRefusal u image = none) (other : targetOf u ≠ 0) :
    execIcsumProgramLoad u bank image s = .next (done (updCtl { s with
      progs := mput (progKey u 0) (translated s u (programOf image)) s.progs } u
        fun c => { c with pc := (translated s u (programOf image)).entry, halted := false })) := by
  unfold execIcsumProgramLoad
  refine congrArg _ ((if_neg (load_served live mine)).trans ?_)
  simp only [accepted]
  cases u with
  | seq l => exact absurd rfl other
  | rcc r => rfl
  | node h c => rfl

end

section
variable {l : BitVec 6} (live : nodeLive s (rowHalf l.toNat) = true)
  (mine : headerOk image = true → (programOf image).target.toNat = targetOf (.seq l))
  (accepted : loadRefusal (.seq l) image = none) (own : lent s l.toNat = false) (on : domainOn s (domRow l.toNat) = true)
include live mine accepted own on

theorem load_activeBank (active : activeBank s l.toNat = bank.toNat) :
    execIcsumProgramLoad (.seq l) bank image s = .next (accessError (bumpF s F.ROW_IMCTL_BUSY_CNT l.toNat)) := by
  unfold execIcsumProgramLoad
  refine congrArg _ ((if_neg (load_served (u := .seq l) live mine)).trans ?_)
  simp only [accepted, own, on, active, Bool.false_eq_true, Bool.not_true, or_self, if_false, if_true]

/-- The words of a program placed in the idle bank. -/
def loadedBank (s : State) (l : BitVec 6) (bank : BitVec 1) (p : Program) : State :=
  setWords { s with progs := mput (progKey (.seq l) bank.toNat) p s.progs } (if bank.toNat = 0 then .rowBank0 else .rowBank1)
    l.toNat 0 ((Config.nativeWords p.words p.entry (gangRows s l.toNat).length).take 8192)

theorem load_idleBank (idle : activeBank s l.toNat ≠ bank.toNat) : execIcsumProgramLoad (.seq l) bank image s =
    .next (done (putF (loadedBank s l bank (translated s (.seq l) (programOf image))) F.ROW_IMCTL_ARMED l.toNat 0)) := by
  unfold execIcsumProgramLoad
  refine congrArg _ ((if_neg (load_served (u := .seq l) live mine)).trans ?_)
  simp only [accepted, own, on, idle, Bool.false_eq_true, Bool.not_true, or_self, if_false]
  rfl

end

theorem setWords_progs (s : State) (r : Reg) (i k : Nat) (ws : List W64) : (setWords s r i k ws).progs = s.progs :=
  List.foldlRecOn (motive := fun t : State => t.progs = s.progs) _ _ rfl fun _ same _ _ => same

theorem prog_loadedBank (l : BitVec 6) (p : Program) :
    mfind (progKey (.seq l) bank.toNat) (loadedBank s l bank p).progs = some p := by
  rw [loadedBank, setWords_progs]
  exact mfind_mput_self

theorem rising_loadedBank (w : Rising s.mg) (l : BitVec 6) (p : Program) : Rising (loadedBank s l bank p).mg :=
  List.foldlRecOn (motive := fun t : State => Rising t.mg) _ _ w fun _ w _ _ => rising_setReg w ..

theorem progs_done_putF (t : State) (f : Fld) (i v : Nat) : (done (putF t f i v)).progs = t.progs := rfl

theorem resp_done (t : State) : (done t).resp = .ok := rfl

theorem getF_done (t : State) (f : Fld) (i k : Nat) : getF (done t) f i k = getF t f i k := rfl

/-- Settles O24: a switch that is due, and an image refused or placed. -/
theorem contextsAndPrograms : Obligations.ContextsAndPrograms := by
  unfold Obligations.ContextsAndPrograms
  refine ⟨?switch, ?load⟩
  case switch =>
    intro l s ln leads k switching idle next
    exact congrArg _ (contextSwitch_next leads switching idle next)
  case load =>
    intro image bank s p mine
    refine ⟨fun l c a live mine refused => ?_, fun l live mine accepted own on => ⟨fun active => ?_, fun idle => ?_⟩,
      fun u other live mine accepted => ?_⟩
    · cases a with
      | none => exact load_refused (u := .seq l) live mine refused
      | some q => exact load_refusedAt (u := .seq l) live mine refused
    · exact load_activeBank live mine accepted own on active
    · refine ⟨_, load_idleBank live mine accepted own on idle, resp_done _, ?_, fun canon => ?_⟩
      · rw [progs_done_putF]
        exact prog_loadedBank l _
      · rw [getF_done]
        exact getF_putF_self (rising_loadedBank (regs_rising canon.mg) ..) _ _ _ _ (by decide) (by decide)
    · refine load_started (u := u) ?_ mine accepted other
      cases u <;> exact live

end Sys2Proof.Machine
end

section
/-! SUPPORT. Memory and aperture accesses (R248-R279, R494) and plain atomics (R263, R264), and the proofs of their
obligations. -/

namespace Sys2Proof.Machine

variable {s : State} {h : BitVec 1} {addr : BitVec 48} {len : BitVec 7} {bs : List Byte}

/-- The state in which an operation asked for now may be answered later. -/
def asking (s : State) : State := { s with asked := s.asked + 1 }

/-- An answer at once gives the number back. -/
theorem answerNow_unchanged (s : State) (c : BitVec 8) (v : Resp) :
    answerNow s (asking s, some c) v = answer s (if c = 0 then v else .code c) := rfl

/-! Asking changes nothing that an access goes by. -/

theorem pickEntry_asking (s : State) (first ns n j k : Nat) : pickEntry (asking s) first ns n j k = pickEntry s first ns n j k := by
  induction n generalizing j k with
  | zero => rfl
  | succ n ih =>
    unfold pickEntry
    rw [ih, ih]
    rfl

theorem hbmWhere_asking (s : State) (a : Nat) : hbmWhere (asking s) a = hbmWhere s a := by
  unfold hbmWhere
  simp only [pickEntry_asking]
  rfl

theorem memStatus_asking (s : State) (src a : Nat) : memStatus (asking s) src a = memStatus s src a := by
  unfold memStatus
  rw [hbmWhere_asking]
  rfl

theorem trackerHolds_asking (s : State) (a : Nat) : trackerHolds (asking s) a = trackerHolds s a := by
  unfold trackerHolds sliceOf
  rw [hbmWhere_asking]
  rfl

/-! Reads of HBM. -/

section
variable (hbm : inAperture addr.toNat = false)
include hbm

theorem memRead_refused (refused : memStatus s h.toNat addr.toNat ≠ 0) :
    memRead s h.toNat addr.toNat len.toNat .nobody = (memStatus s h.toNat addr.toNat, []) := by
  unfold memRead
  rw [if_neg (by simp [hbm])]
  exact if_pos refused

theorem memRead_served (served : memStatus s h.toNat addr.toNat = 0) :
    memRead s h.toNat addr.toNat len.toNat .nobody = (0, hbmBytes s addr.toNat len.toNat) := by
  unfold memRead
  rw [if_neg (by simp [hbm])]
  exact if_neg (not_not.2 served)

theorem eccAt_ok : eccAt s addr.toNat .ok = s := by
  unfold eccAt
  rw [if_neg (by simp [hbm])]
  split <;> rfl

theorem execMemoryRead_refused (refused : memStatus s h.toNat addr.toNat ≠ 0) :
    execMemoryRead h addr len .ok s = .next (answer s (.code (memStatus s h.toNat addr.toNat))) := by
  simp only [execMemoryRead, memRead_refused hbm refused]
  exact congrArg _ (if_pos refused)

theorem execMemoryRead_served (served : memStatus s h.toNat addr.toNat = 0) (crosses : seamHeld s h.toNat addr.toNat = false) :
    execMemoryRead h addr len .ok s = .next (answer s (.bytes (hbmBytes s addr.toNat len.toNat))) := by
  simp only [execMemoryRead, memRead_served hbm served, crosses, eccAt_ok hbm]
  rfl

theorem execMemoryRead_held (served : memStatus s h.toNat addr.toNat = 0) (held : seamHeld s h.toNat addr.toNat = true) :
    execMemoryRead h addr len .ok s = .next (answer (holdOp (asking s) addr.toNat (.read addr.toNat len.toNat h.toNat)
      (.memory h.toNat s.asked)) (.later s.asked)) := by
  simp only [execMemoryRead, memRead_served hbm served, held]
  rfl

/-! Writes of HBM. -/

theorem writeStatus_hbm (s : State) : writeStatus s h.toNat addr.toNat = memStatus s h.toNat addr.toNat := by
  rw [writeStatus, if_neg (by simp [hbm])]

theorem memWrite_refused {who : Waiter} (refused : memStatus s h.toNat addr.toNat ≠ 0) :
    memWrite s h.toNat addr.toNat bs who = (s, some (memStatus s h.toNat addr.toNat)) := by
  have off : writeStatus s h.toNat addr.toNat ≠ 0 := by rwa [writeStatus_hbm hbm]
  have none : [(addr.toNat, bs)].filter (fun l => writeStatus s h.toNat l.1 == 0) = [] :=
    List.filter_cons_of_neg (by simpa using off)
  have first : [memStatus s h.toNat addr.toNat].find? (· != 0) = some (memStatus s h.toNat addr.toNat) :=
    List.find?_cons_of_pos (by simpa using refused)
  simp only [memWrite, memWriteLines, none, List.map_cons, List.map_nil, writeStatus_hbm hbm, first, List.find?_nil,
    List.foldl_nil, Option.getD_some]

theorem memWrite_served {who : Waiter} (served : memStatus s h.toNat addr.toNat = 0) (crosses : seamHeld s h.toNat addr.toNat = false)
    (stashed : trackerHolds s addr.toNat = false) (own : sourceOf who = none) :
    memWrite s h.toNat addr.toNat bs who = (hbmStore s addr.toNat bs, some 0) := by
  simp [memWrite, memWriteLines, writeStatus_hbm hbm, served, crosses, stashed, behind, own, storeLine, hbm]

theorem memWrite_held {who : Waiter} (served : memStatus s h.toNat addr.toNat = 0)
    (held : seamHeld s h.toNat addr.toNat = true ∨ trackerHolds s addr.toNat = true) :
    memWrite s h.toNat addr.toNat bs who =
      (holdOp s addr.toNat (.write [(addr.toNat, bs)] 0 h.toNat) who, none) := by
  obtain held | held := held <;> simp [memWrite, memWriteLines, writeStatus_hbm hbm, served, held, hbm]

end

/-! A plain store. -/

/-- Accumulators apart, a store writes its bytes. -/
theorem hbmStore_bytes (s : State) (a : Nat) (bs : List Byte) :
    ∃ x y, hbmStore s a bs = { setHbmBytes s a bs with h0 := x, h1 := y } := by
  unfold hbmStore resync
  extract_lets half f
  split
  · exact ⟨s.h0, s.h1, rfl⟩
  · unfold updHalf setHalf
    split
    · exact ⟨_, s.h1, rfl⟩
    · exact ⟨s.h0, _, rfl⟩

theorem resync_asked (s : State) (a k n : Nat) : resync { s with asked := n } a k = { resync s a k with asked := n } := by
  unfold resync
  by_cases none : (half s (addrHalf a)).accs.isEmpty = true
  · exact (if_pos none).trans (congrArg (fun t : State => { t with asked := n }) (if_pos none).symm)
  · refine (if_neg none).trans (Eq.trans ?_ (congrArg (fun t : State => { t with asked := n }) (if_neg none).symm))
    unfold updHalf setHalf
    by_cases first : addrHalf a = 0
    · rw [if_pos first, if_pos first]
      rfl
    · rw [if_neg first, if_neg first]
      rfl

/-- A store does not depend on the count of asked operations. -/
theorem hbmStore_asked (s : State) (a n : Nat) (bs : List Byte) :
    hbmStore { s with asked := n } a bs = { hbmStore s a bs with asked := n } := resync_asked (setHbmBytes s a bs) ..

theorem asked_hbmStore (s : State) (a : Nat) (bs : List Byte) : (hbmStore s a bs).asked = s.asked := by
  obtain ⟨x, y, e⟩ := hbmStore_bytes s a bs
  rw [e]
  rfl

/-- The registers that count holds. -/
theorem holdCount_mg (s : State) (a h : Nat) : ∃ m, (if !trackerHolds s a then s
    else if stashFull (bumpF s F.CKP_TRK_HOLDS h) a then bumpF (bumpF s F.CKP_TRK_HOLDS h) F.CKP_TRK_HOLD_FULL h
    else bumpF s F.CKP_TRK_HOLDS h) = { s with mg := m } := by
  split
  · exact ⟨s.mg, rfl⟩
  · split <;> exact ⟨_, rfl⟩

/-- A held operation counts, and joins those of its half. -/
theorem holdOp_keeps (s : State) (a : Nat) (op : HeldOp) (w : Waiter) :
    ∃ m x y, holdOp s a op w = { s with mg := m, h0 := x, h1 := y } := by
  obtain ⟨m, e⟩ := holdCount_mg s a (addrHalf a)
  simp only [holdOp, e]
  unfold updHalf setHalf
  split
  · exact ⟨m, _, s.h1, rfl⟩
  · exact ⟨m, s.h0, _, rfl⟩

section
variable (hbm : inAperture addr.toNat = false)
include hbm

theorem execMemoryWrite_refused (refused : memStatus s h.toNat addr.toNat ≠ 0) :
    execMemoryWrite h addr bs s = .next (answer s (.code (memStatus s h.toNat addr.toNat))) := by
  have off : memWrite (asking s) h.toNat addr.toNat bs (.memory h.toNat s.asked) =
      (asking s, some (memStatus s h.toNat addr.toNat)) := by
    rw [memWrite_refused hbm (by rwa [memStatus_asking]), memStatus_asking]
  change Host.Outcome.next (answerNow s (memWrite (asking s) h.toNat addr.toNat bs (.memory h.toNat s.asked)) .ok) = _
  rw [off, answerNow_unchanged, if_neg refused]

theorem execMemoryWrite_served (served : memStatus s h.toNat addr.toNat = 0) (crosses : seamHeld s h.toNat addr.toNat = false)
    (stashed : trackerHolds s addr.toNat = false) :
    execMemoryWrite h addr bs s = .next (answer (hbmStore s addr.toNat bs) .ok) := by
  have stored : memWrite (asking s) h.toNat addr.toNat bs (.memory h.toNat s.asked) =
      (hbmStore (asking s) addr.toNat bs, some 0) :=
    memWrite_served hbm (by rwa [memStatus_asking]) crosses (by rwa [trackerHolds_asking]) rfl
  change Host.Outcome.next (answerNow s (memWrite (asking s) h.toNat addr.toNat bs (.memory h.toNat s.asked)) .ok) = _
  rw [stored, asking, hbmStore_asked]
  refine congrArg _ ?_
  conv_rhs => rw [show hbmStore s addr.toNat bs = { hbmStore s addr.toNat bs with asked := s.asked } by
    rw [← asked_hbmStore s addr.toNat bs]]
  rfl

theorem execMemoryWrite_held (served : memStatus s h.toNat addr.toNat = 0)
    (held : seamHeld s h.toNat addr.toNat = true ∨ trackerHolds s addr.toNat = true) :
    execMemoryWrite h addr bs s = .next (answer (holdOp (asking s) addr.toNat (.write [(addr.toNat, bs)] 0 h.toNat)
      (.memory h.toNat s.asked)) (.later s.asked)) := by
  have waits : memWrite (asking s) h.toNat addr.toNat bs (.memory h.toNat s.asked) =
      (holdOp (asking s) addr.toNat (.write [(addr.toNat, bs)] 0 h.toNat) (.memory h.toNat s.asked), none) :=
    memWrite_held hbm (by rwa [memStatus_asking]) (by rwa [trackerHolds_asking])
  change Host.Outcome.next (answerNow s (memWrite (asking s) h.toNat addr.toNat bs (.memory h.toNat s.asked)) .ok) = _
  rw [waits]
  rfl

end

/-! The tile memory aperture. -/

theorem execTileApertureAccess_refused {n : Nat} (not : slotServes s (apSlot addr.toNat) = false ∨ 2 ^ 20 < addr.toNat % 2 ^ 20 + n)
    (w : Bool) : execTileApertureAccess addr w n bs s = .next (answer s (.code stNoMemory)) :=
  congrArg _ (if_pos (.inr (not.imp_left fun off => by simp [off])))

theorem execTileApertureAccess_served {n : Nat} (aperture : inAperture addr.toNat = true) (serves : slotServes s (apSlot addr.toNat) = true) (fits : addr.toNat % 2 ^ 20 + n ≤ 2 ^ 20)
    (w : Bool) : execTileApertureAccess addr w n bs s = .next (if w then
        answer (tileStore s (apSlot addr.toNat) (addr.toNat % 2 ^ 20) bs) .ok
      else answer s (.bytes (rdBytes (getCore s (apSlot addr.toNat)).tile (addr.toNat % 2 ^ 20) n))) :=
  congrArg _ (if_neg (by rw [aperture, serves]; simpa using fits))

/-- Settles O28: refused, served and held reads and writes, and the aperture. -/
theorem memoryAndApertureAccesses : Obligations.MemoryAndApertureAccesses := by
  unfold Obligations.MemoryAndApertureAccesses
  refine ⟨?hbm, ?aperture⟩
  case hbm =>
    intro h addr len bs s a c hbm
    refine ⟨fun refused => ⟨execMemoryRead_refused hbm refused, execMemoryWrite_refused hbm refused⟩,
      execMemoryRead_served hbm, execMemoryRead_held hbm, fun served crosses stashed => ?_, fun served held => ?_⟩
    · obtain ⟨x, y, stored⟩ := hbmStore_bytes s a bs
      refine ⟨_, execMemoryWrite_served hbm served crosses stashed, rfl, fun i inside => ?_, fun b outside => ?_, ?_⟩
      · rw [stored]
        exact hbmByte_setHbmBytes s inside
      · rw [stored]
        exact hbmByte_setHbmBytes_ne s outside
      · rw [stored]
        exact ⟨rfl, rfl, rfl, rfl⟩
    · obtain ⟨m, x, y, waits⟩ := holdOp_keeps (asking s) a (.write [(a, bs)] 0 h.toNat) (.memory h.toNat s.asked)
      refine ⟨_, execMemoryWrite_held hbm served held, rfl, ?_⟩
      rw [waits]
      exact ⟨rfl, rfl, rfl⟩
  case aperture =>
    intro addr len bs s canon a p o aperture
    have w : Rising s.cores := (mwf_iff.1 canon.cores).1
    refine ⟨fun serves fits => ⟨execTileApertureAccess_served aperture serves fits false, _,
      execTileApertureAccess_served aperture serves fits true, rfl, ?_, fun q other => getCore_setCore_ne w other, rfl⟩,
      execTileApertureAccess_refused⟩
    exact congrArg CoreSt.tile (getCore_setCore_self w p { getCore s p with tile := wrBytes (getCore s p).tile o bs })

end Sys2Proof.Machine
end

section
/-! SUPPORT. Plain atomics (R263, R264), and the proof of their obligation. -/

namespace Sys2Proof.Machine

variable {s : State} {h : BitVec 1} {r : AtomReq}

/-- The formats and operations an atomic may name. -/
def AtomLegal (r : AtomReq) : Prop :=
  r.aop.toNat < 5 ∧ [0x5, 0xA, 0xB, 0xC, 0xD].contains r.fc.toNat = true ∧ ¬ (3 ≤ r.aop.toNat ∧ r.fc = 0x5)

theorem atomLegal_iff : ¬ AtomLegal r ↔ 5 ≤ r.aop.toNat ∨ !([0x5, 0xA, 0xB, 0xC, 0xD].contains r.fc.toNat) ∨
    (3 ≤ r.aop.toNat ∧ r.fc = 0x5) := by
  rw [AtomLegal, not_and_or, not_and_or, not_not, not_lt, Bool.not_eq_true, ← Bool.not_eq_true']

/-- The word of a legal format has bytes. -/
theorem width_pos (legal : AtomLegal r) : fcWidth r.fc.toNat / 8 ≠ 0 := by
  obtain ⟨-, listed, -⟩ := legal
  have wide : ∀ fc ∈ [0x5, 0xA, 0xB, 0xC, 0xD], fcWidth fc / 8 ≠ 0 := by decide
  exact wide _ (by simpa using listed)

theorem execMemoryAtomic_illegal (illegal : ¬ AtomLegal r) : execMemoryAtomic h r s = .next (answer s (.code rcBadFormat)) :=
  congrArg _ (if_pos (atomLegal_iff.1 illegal))

theorem execMemoryAtomic_legal (legal : AtomLegal r) : execMemoryAtomic h r s =
    .next (answerNow s (memAtomic (asking s) h.toNat r none none (.memory h.toNat s.asked))
      (.value (BitVec.ofNat 64 (hbmNat s r.addr.toNat (fcWidth r.fc.toNat / 8))))) :=
  congrArg _ (if_neg fun bad => atomLegal_iff.2 bad legal)

/-! The base die's answer. -/

section
variable {src : Nat} {who : Waiter}

theorem memAtomic_outside (far : hbmEnd ≤ r.addr.toNat) : memAtomic s src r none none who = (s, some stAtomTarget) := if_pos far

theorem memAtomic_halfDown (near : r.addr.toNat < hbmEnd) (down : memStatus s src r.addr.toNat = stHalfDown) :
    memAtomic s src r none none who = (s, some stHalfDown) :=
  (if_neg near.not_ge).trans ((if_pos down).trans (by rw [down]))

theorem memAtomic_misaligned (near : r.addr.toNat < hbmEnd) (up : memStatus s src r.addr.toNat ≠ stHalfDown)
    (off : r.addr.toNat % (fcWidth r.fc.toNat / 8) ≠ 0) (open' : r.close = false) :
    memAtomic s src r none none who = (s, some stAtomTarget) := by
  refine (if_neg near.not_ge).trans ((if_neg up).trans ((if_pos (.inr off)).trans ?_))
  unfold refusedAtom
  rw [if_neg (by simp [open'])]

theorem memAtomic_applied (near : r.addr.toNat < hbmEnd) (width : fcWidth r.fc.toNat / 8 ≠ 0)
    (aligned : r.addr.toNat % (fcWidth r.fc.toNat / 8) = 0) (served : memStatus s src r.addr.toNat = 0)
    (crosses : seamHeld s src r.addr.toNat = false) (stashed : trackerHolds s r.addr.toNat = false) (own : sourceOf who = none) :
    memAtomic s src r none none who = applyAtomic s r none none who := by
  have up : memStatus s src r.addr.toNat ≠ stHalfDown := by rw [served]; decide
  have free : (trackerHolds s r.addr.toNat || seamHeld s src r.addr.toNat ||
      behind (half s (addrHalf r.addr.toNat)).ckp.ops [r.addr.toNat / 64] who) = false := by
    rw [stashed, crosses, behind, own]
    rfl
  exact (if_neg near.not_ge).trans ((if_neg up).trans ((if_neg (not_or.2 ⟨width, not_not.2 aligned⟩)).trans
    ((if_neg (not_not.2 served)).trans (if_neg (Bool.eq_false_iff.1 free)))))

theorem applyAtomic_plain (plain : r.repro = false) (open' : r.close = false)
    (free : mfind r.addr.toNat (half s (addrHalf r.addr.toNat)).accs = none) :
    applyAtomic s r none none who = (atomPlain s r, some 0) := by
  simp only [applyAtomic, plain, open', free, giveOld, Bool.false_eq_true, false_and, if_false]

end

theorem atomPlain_eq (s : State) (r : AtomReq) : atomPlain s r = if (atomResult s r).2 then
    hbmStore s r.addr.toNat (toBytes (fcWidth r.fc.toNat / 8) (atomResult s r).1) else s := rfl

/-- What a plain update leaves does not depend on the count of asked operations. -/
theorem atomPlain_asking (s : State) (r : AtomReq) : { atomPlain (asking s) r with asked := s.asked } = atomPlain s r := by
  have same : atomResult (asking s) r = atomResult s r := rfl
  rw [atomPlain_eq, atomPlain_eq, same]
  by_cases writes : (atomResult s r).2 = true
  · rw [if_pos writes, if_pos writes, asking, hbmStore_asked, ← asked_hbmStore s r.addr.toNat]
  · rw [if_neg writes, if_neg writes]
    rfl

/-- Settles O29: an illegal atomic, and the base die's answers to a legal one. -/
theorem atomicsReadModifyWrite : Obligations.AtomicsReadModifyWrite := by
  unfold Obligations.AtomicsReadModifyWrite
  intro h r s a w c legal
  refine ⟨fun ok near aligned served crosses stashed plain open' free => ?_, fun ok near down => ?_, fun ok not => ?_,
    fun bad => execMemoryAtomic_illegal bad⟩
  · have applied := (memAtomic_applied (who := .memory h.toNat s.asked) near (width_pos ok) aligned
      ((memStatus_asking s _ _).trans served) crosses ((trackerHolds_asking s _).trans stashed) rfl).trans
      (applyAtomic_plain plain open' free)
    refine (execMemoryAtomic_legal ok).trans (congrArg _ ?_)
    rw [applied]
    exact congrArg (fun t => answer t _) ((atomPlain_asking s r).trans (atomPlain_eq s r))
  · refine (execMemoryAtomic_legal ok).trans (congrArg _ ?_)
    rw [memAtomic_halfDown near ((memStatus_asking s _ _).trans down)]
    exact answerNow_unchanged ..
  · have refused : memAtomic (asking s) h.toNat r none none (.memory h.toNat s.asked) = (asking s, some stAtomTarget) := by
      obtain far | ⟨off, up, open'⟩ := not
      · exact memAtomic_outside far
      · obtain far | near := le_or_gt hbmEnd a
        · exact memAtomic_outside far
        · exact memAtomic_misaligned near (by rwa [memStatus_asking]) off open'
    refine (execMemoryAtomic_legal ok).trans (congrArg _ ?_)
    rw [refused]
    exact answerNow_unchanged ..

end Sys2Proof.Machine
end

section
/-! SUPPORT. What a half holds, through a chain of writes; words of bytes; events. -/

namespace Sys2Proof.Machine

/-- Projection p of half k is in t as in s. -/
def HalfKept {α : Type} (p : Half → α) (k : Nat) (s t : State) : Prop := p (half t k) = p (half s k)

variable {α : Type} {p : Half → α} {k a : Nat} {s t u : State}

theorem HalfKept.refl : HalfKept p k s s := rfl

theorem HalfKept.trans (h : HalfKept p k s t) (g : HalfKept p k t u) : HalfKept p k s u := Eq.trans g h

theorem HalfKept.of_half (same : half t k = half s k) : HalfKept p k s t := congrArg p same

theorem HalfKept.updHalf {h : Nat} {f : Half → Half} (keep : ∀ x, p (f x) = p x) : HalfKept p k s (updHalf s h f) := by
  by_cases n : (h = 0) = (k = 0)
  · have same (s : State) : half s k = half s h := by simp only [half, n]
    rw [HalfKept, same, same, half_updHalf_self, keep]
  · exact .of_half (half_updHalf_ne s n)

theorem HalfKept.ite {c : Prop} [Decidable c] (yes : HalfKept p k s t) (no : HalfKept p k s u) :
    HalfKept p k s (if c then t else u) := by
  split
  · exact yes
  · exact no

theorem HalfKept.foldl {β : Type} {f : State → β → State} {xs : List β} (step : ∀ s x, HalfKept p k s (f s x)) :
    HalfKept p k s (xs.foldl f s) := by
  induction xs generalizing s with
  | nil => exact .refl
  | cons x xs ih => exact (step s x).trans ih

/-! Registers. -/

theorem WordKept.updHalf {h : Nat} {f : Half → Half} : WordKept a s (updHalf s h f) := .of_mg (updHalf_mg ..)

/-- A second update of a half. -/
theorem WordKept.thenHalf {h : Nat} {f : Half → Half} (kept : WordKept a s t) : WordKept a s (Machine.updHalf t h f) :=
  kept.trans .updHalf

theorem rising_updHalf {h : Nat} {f : Half → Half} (w : Rising s.mg) : Rising (updHalf s h f).mg := by rwa [updHalf_mg]

/-- A field of a register that keeps its word. -/
theorem getF_of_kept {f : Fld} {i j : Nat} (kept : WordKept (regAddr f.reg i j) s t) (w : Rising s.mg) :
    getF t f i j = getF s f i j := kept.getF w

/-- The field just set, and one that shares no bit with it. -/
theorem getF_putF_same (w : Rising s.mg) (f : Fld) (fits : f.hi < 64 ∧ f.lo ≤ f.hi) {i v j : Nat} :
    getF (putF s f i v j) f i j = v % 2 ^ (f.hi - f.lo + 1) := getF_putF_self w _ _ _ _ fits.1 fits.2

theorem getF_putF_beside (w : Rising s.mg) (f g : Fld)
    (apart : g.reg = f.reg ∧ f.hi < 64 ∧ f.lo ≤ f.hi ∧ g.lo ≤ g.hi ∧ (f.hi < g.lo ∨ g.hi < f.lo)) {i v j : Nat} :
    getF (putF s f i v j) g i j = getF s g i j := by
  obtain ⟨same, fits, order, order', bits⟩ := apart
  exact getF_putF_other w _ _ _ _ same fits order order' bits

/-! Events. -/

theorem raiseEvent_mg (s : State) (h src code : Nat) (payload : List W64) : (raiseEvent s h src code payload).mg = s.mg := by
  unfold raiseEvent
  split
  · exact updHalf_mg ..
  · rfl

theorem WordKept.raiseEvent {h src code : Nat} {payload : List W64} : WordKept a s (raiseEvent s h src code payload) :=
  .of_mg (raiseEvent_mg ..)

/-- An event changes the events of a link alone. -/
theorem HalfKept.raiseEvent {h src code : Nat} {payload : List W64}
    (keep : ∀ (x : Half) q n e, p { x with lom := { x.lom with evSeq := q, evLost := n, events := e } } = p x) :
    HalfKept p k s (raiseEvent s h src code payload) := by
  unfold Machine.raiseEvent
  split
  · refine .updHalf fun x => ?_
    dsimp only
    split <;> exact keep ..
  · exact .refl

/-! Words of bytes (R7, R62). -/

theorem length_toBytes (n v : Nat) : (toBytes n v).length = n := by
  induction n generalizing v with
  | zero => rfl
  | succ n ih => exact congrArg Nat.succ (ih _)

theorem toBytes_ofBytes (bs : List Byte) : toBytes bs.length (ofBytes bs) = bs := by
  induction bs with
  | nil => rfl
  | cons b bs ih =>
    have low : BitVec.ofNat 8 (b.toNat + 256 * ofBytes bs) = b :=
      BitVec.eq_of_toNat_eq (by rw [BitVec.toNat_ofNat]; have := b.isLt; omega)
    have high : (b.toNat + 256 * ofBytes bs) / 256 = ofBytes bs := by have := b.isLt; omega
    rw [List.length_cons, ofBytes, toBytes, low, high, ih]

theorem ofBytes_lt (bs : List Byte) : ofBytes bs < 256 ^ bs.length := by
  induction bs with
  | nil => exact Nat.one_pos
  | cons b bs ih =>
    have := b.isLt
    rw [ofBytes, List.length_cons, Nat.pow_succ]
    omega

/-- The first 8 n bytes, in chunks of 8. -/
theorem flatMap_chunks (bs : List Byte) (n : Nat) :
    (List.range n).flatMap (fun i => (bs.drop (8 * i)).take 8) = bs.take (8 * n) := by
  induction n with
  | zero => simp
  | succ n ih => simp [List.range_succ, ih, Nat.mul_succ, List.take_add]

theorem wordBytes_wordsOf {bs : List Byte} {n : Nat} (whole : bs.length = 8 * n) : wordBytes (wordsOf bs) = bs := by
  have words : ceilDiv bs.length 8 = n := by rw [ceilDiv]; omega
  have chunk : ∀ i ∈ List.range n, toBytes 8 (BitVec.ofNat 64 (ofBytes ((bs.drop (8 * i)).take 8))).toNat = (bs.drop (8 * i)).take 8 := by
    intro i mem
    have eight : ((bs.drop (8 * i)).take 8).length = 8 := by
      have := List.mem_range.1 mem
      simp only [List.length_take, List.length_drop]
      omega
    generalize (bs.drop (8 * i)).take 8 = c at eight ⊢
    have small : ofBytes c < 2 ^ 64 := by
      have := ofBytes_lt c
      rw [eight] at this
      omega
    rw [BitVec.toNat_ofNat, Nat.mod_eq_of_lt small, ← eight, toBytes_ofBytes]
  rw [wordBytes, wordsOf, words, List.flatMap_map, List.flatMap_congr chunk, flatMap_chunks, ← whole, List.take_length]

theorem length_digestBytes (d : BitVec 512) : (digestBytes d).length = 8 * 8 := by simp [digestBytes]

theorem length_wordsOf (bs : List Byte) : (wordsOf bs).length = ceilDiv bs.length 8 := by simp [wordsOf]

theorem length_fixLen (n : Nat) (bs : List Byte) : (fixLen n bs).length = n := by simp [fixLen]

/-! Consecutive words of a register. -/

theorem rising_setWords {r : Reg} {i k : Nat} {ws : List W64} (w : Rising s.mg) : Rising (setWords s r i k ws).mg :=
  List.foldlRecOn (motive := fun s : State => Rising s.mg) _ _ w fun _ w _ _ => rising_mset w

theorem setWords_cons (r : Reg) (i k : Nat) (w : W64) (ws : List W64) :
    setWords s r i k (w :: ws) = setWords (setReg s r i k w) r i (k + 1) ws := rfl

theorem half_setWords (r : Reg) (i j : Nat) (ws : List W64) (h : Nat) : half (setWords s r i j ws) h = half s h := by
  induction ws generalizing s j with
  | nil => rfl
  | cons w ws ih => exact ih ..

theorem WordKept.setWords {r : Reg} {i j : Nat} {ws : List W64} (ne : ∀ x, j ≤ x → x < j + ws.length → a ≠ regAddr r i x) :
    WordKept a s (setWords s r i j ws) := by
  induction ws generalizing s j with
  | nil => exact .refl
  | cons w ws ih =>
    rw [List.length_cons] at ne
    exact (WordKept.setReg (ne j (by omega) (by omega))).trans (ih fun x low high => ne x (by omega) (by omega))

/-- The words just set. -/
theorem reg_setWords {r : Reg} {i j x : Nat} {ws : List W64} (w : Rising s.mg) (several : 0 < (regSpec r).stride)
    (lt : x < ws.length) : reg (setWords s r i j ws) r i (j + x) = ws[x] := by
  induction ws generalizing s j x with
  | nil => exact absurd lt (Nat.not_lt_zero _)
  | cons v ws ih =>
    cases x with
    | zero =>
      have kept : WordKept (regAddr r i j) (setReg s r i j v) (setWords (setReg s r i j v) r i (j + 1) ws) :=
        .setWords fun x low _ => regAddr_ne_index (by omega) several
      exact (kept.reg (rising_setReg w ..)).trans (reg_setReg_self w ..)
    | succ x =>
      rw [setWords_cons, show j + (x + 1) = j + 1 + x by omega]
      exact ih (rising_setReg w ..) (Nat.lt_of_succ_lt_succ lt)

theorem regBytes_setWords {r : Reg} {i j : Nat} {ws : List W64} (w : Rising s.mg) (several : 0 < (regSpec r).stride) :
    regBytes (setWords s r i j ws) r i j ws.length = wordBytes ws := by
  refine congrArg wordBytes (List.ext_getElem (by simp [rangeFrom]) fun x _ lt => ?_)
  simp only [rangeFrom, List.map_map, List.getElem_map, List.getElem_range, Function.comp_apply]
  exact reg_setWords w several lt

/-- Words that are kept spell the same bytes. -/
theorem regBytes_of_kept {r : Reg} {i j n : Nat} (w : Rising s.mg) (kept : ∀ x < n, WordKept (regAddr r i (j + x)) s t) :
    regBytes t r i j n = regBytes s r i j n := by
  refine congrArg wordBytes (List.map_congr_left fun x mem => ?_)
  obtain ⟨y, lt, rfl⟩ := List.mem_map.1 mem
  exact (kept y (List.mem_range.1 lt)).reg w

end Sys2Proof.Machine
end

section
/-! SUPPORT. The trust dies' commands (spec/18), and the proofs of their obligations. -/

namespace Sys2Proof.Machine

variable {s t : State} {k a : Nat} {α : Type} {p : Half → α}

/-- Words of a trust die. -/
theorem regAddr_ne_sec {r r' : Reg} {j j' : Nat} (apart : (regSpec r).blk = (regSpec r').blk ∧ wordOff r j ≠ wordOff r' j') :
    regAddr r k j ≠ regAddr r' k j' := regAddr_ne_word apart

theorem getSec_updSec (f : SecSt → SecSt) : getSec (updSec s k f) k = f (getSec s k) := by
  rw [updSec, getSec, half_updHalf_self, getSec]

theorem updSec_mg (f : SecSt → SecSt) : (updSec s k f).mg = s.mg := updHalf_mg ..

theorem rising_updSec (w : Rising s.mg) {f : SecSt → SecSt} : Rising (updSec s k f).mg := rising_updHalf w

/-! Stages (SEC_BSTAT). -/

theorem rising_setStage (w : Rising s.mg) (g c : Nat) : Rising (setStage s k g c).mg := rising_putF (rising_putF w ..) ..

theorem code_setStage (w : Rising s.mg) (g c : Nat) : getF (setStage s k g c) F.SEC_BSTAT_CODE k = c % 2 ^ 8 :=
  getF_putF_same (rising_putF w ..) _ (by decide)

theorem stage_setStage (w : Rising s.mg) (g c : Nat) : secStage (setStage s k g c) k = g % 2 ^ 4 := by
  rw [secStage, setStage, getF_putF_beside (rising_putF w ..) F.SEC_BSTAT_CODE F.SEC_BSTAT_STAGE (by decide)]
  exact getF_putF_same w F.SEC_BSTAT_STAGE (by decide)

theorem debug_setStage (w : Rising s.mg) (g c : Nat) :
    getF (setStage s k g c) F.SEC_BSTAT_DEBUG k = getF s F.SEC_BSTAT_DEBUG k := by
  rw [setStage, getF_putF_beside (rising_putF w ..) F.SEC_BSTAT_CODE F.SEC_BSTAT_DEBUG (by decide)]
  exact getF_putF_beside w F.SEC_BSTAT_STAGE F.SEC_BSTAT_DEBUG (by decide)

theorem wordKept_setStage (g c : Nat) (ne : a ≠ regAddr .secBstat k 0) : WordKept a s (setStage s k g c) :=
  .trans (t := putF s F.SEC_BSTAT_STAGE k g) (.putF ne) (.putF ne)

theorem getSec_setStage (g c : Nat) : getSec (setStage s k g c) k = getSec s k := rfl

/-! Measurements (R437). -/

theorem length_measured (b : List Byte) : (wordsOf (sha b)).length = 8 := by
  rw [length_wordsOf, sha, length_digestBytes]
  decide

theorem rising_extendMr (w : Rising s.mg) (i : Nat) (v : List Byte) : Rising (extendMr s k i v).mg :=
  rising_updSec (rising_setWords w)

theorem wordKept_extendMr (i : Nat) (v : List Byte) (ne : ∀ x, 8 * i ≤ x → x < 8 * i + 8 → a ≠ regAddr .secMr k x) :
    WordKept a s (extendMr s k i v) := by
  refine WordKept.thenHalf (.setWords fun x low high => ne x low ?_)
  rwa [length_measured] at high

theorem sec_extendMr (i : Nat) (v : List Byte) : getSec (extendMr s k i v) k =
    { getSec s k with counts := (getSec s k).counts.set i (((getSec s k).counts.getD i 0 + 1) % 65536) } := by
  unfold extendMr
  rw [getSec_updSec, getSec, half_setWords, getSec]

theorem measured_extendMr (w : Rising s.mg) (i : Nat) (v : List Byte) :
    regBytes (extendMr s k i v) .secMr k (8 * i) 8 = sha (regBytes s .secMr k (8 * i) 8 ++ v) := by
  unfold extendMr
  extract_lets u
  have words := regBytes_setWords (i := k) (j := 8 * i) (ws := wordsOf (sha (regBytes s .secMr k (8 * i) 8 ++ v))) w
    (show 0 < (regSpec .secMr).stride by decide)
  rw [length_measured, wordBytes_wordsOf (bs := sha _) (length_digestBytes _)] at words
  exact (regBytes_of_kept (s := u) (rising_setWords w) fun _ _ => .updHalf).trans words

/-! Draws (R443). -/

theorem sec_draw : getSec (draw s k).2 k =
    { getSec s k with draws := (getSec s k).draws + 1, requests := (getSec s k).requests + 1 } := by
  rw [draw, getSec, half_updHalf_self, getSec]

theorem rising_draw (w : Rising s.mg) : Rising (draw s k).2.mg := rising_updHalf w

theorem WordKept.draw : WordKept a s (draw s k).2 := .updHalf

/-! The boot of a trust die (R430, R433). -/

/-- ROM, identity and debug state, measured. -/
def romMeasured (s : State) (k : Nat) (dbg : Bool) : State :=
  let s := putF s F.SEC_BSTAT_DEBUG k dbg.toNat
  let s := putF s F.SEC_DBGSTAT_DSTATE k (if dbg then 2 else 0)
  extendMr s k 0 (sha (Config.romContents ++ devIdBytes s ++ [if dbg then 1 else 0]))

/-- The identity key. -/
def identityShown (s : State) (k : Nat) : State :=
  updSec (setWords s .secIdpub k 0 (wordsOf (fixLen 133 (idPub k)))) k fun x => { x with idKey := true }

/-- The memory key and the nonce. -/
def keysDrawn (s : State) (k : Nat) : State :=
  let (e, s) := draw s k
  let (n, s) := draw s k
  let s := updSec s k fun x => { x with hbmKey := some ⟨e.extractLsb' 256 256, e.extractLsb' 0 256⟩ }
  setReg s .fstNonce k 0 (BitVec.ofNat 64 (n.toNat % (2 ^ 64 - 1) + 1))

theorem keysDrawn_eq : ∃ (key : KeySet) (n : Nat), keysDrawn s k =
    setReg (updSec (draw (draw s k).2 k).2 k fun x => { x with hbmKey := some key })
      .fstNonce k 0 (BitVec.ofNat 64 (n % (2 ^ 64 - 1) + 1)) := ⟨_, _, rfl⟩

theorem sec_keysDrawn : (getSec (keysDrawn s k) k).idKey = (getSec s k).idKey ∧ (getSec (keysDrawn s k) k).hbmKey.isSome = true := by
  obtain ⟨key, n, eq⟩ := keysDrawn_eq (s := s) (k := k)
  have sec : getSec (keysDrawn s k) k = { getSec (draw (draw s k).2 k).2 k with hbmKey := some key } := by
    rw [eq, getSec, half_setReg]
    exact getSec_updSec _
  rw [sec, sec_draw, sec_draw]
  exact ⟨rfl, rfl⟩

theorem wordKept_keysDrawn (ne : a ≠ regAddr .fstNonce k 0) : WordKept a s (keysDrawn s k) := by
  obtain ⟨key, n, eq⟩ := keysDrawn_eq (s := s) (k := k)
  rw [eq]
  exact ((WordKept.draw.trans .draw).thenHalf).trans (.setReg ne)

theorem nonce_keysDrawn (w : Rising s.mg) : Rising (keysDrawn s k).mg ∧ reg (keysDrawn s k) .fstNonce k 0 ≠ 0 := by
  obtain ⟨key, n, eq⟩ := keysDrawn_eq (s := s) (k := k)
  have before : Rising (updSec (draw (draw s k).2 k).2 k fun x => { x with hbmKey := some key }).mg :=
    rising_updSec (rising_draw (rising_draw w))
  rw [eq, reg_setReg_self before]
  refine ⟨rising_setReg before .., fun zero => ?_⟩
  have := congrArg BitVec.toNat zero
  rw [BitVec.toNat_ofNat] at this
  change _ = 0 at this
  omega

/-- A trust die that may boot. -/
def bootFresh (s : State) (k : Nat) : Prop :=
  halfState s k = hsBoot ∧ secStage s k = 0 ∧ getF s F.SEC_BSTAT_CODE k = 0 ∧ domainOn s (domTrust k) = true

theorem execTrustDieBoot_fresh {h : BitVec 1} {kat ok : Bool} (fresh : bootFresh s h.toNat) :
    execTrustDieBoot h kat ok s = .next (if !kat then setStage s h.toNat 0 0x07
      else if !s.pins.debugOnly ∧ !ok then setStage (romMeasured s h.toNat s.pins.debugOnly) h.toNat sgKeys 0x01
      else setStage (keysDrawn (if s.pins.debugOnly then romMeasured s h.toNat s.pins.debugOnly
        else identityShown (romMeasured s h.toNat s.pins.debugOnly) h.toNat) h.toNat) h.toNat sgAwait 0) := by
  obtain ⟨boot, stage, code, on⟩ := fresh
  exact congrArg _ (if_neg (by simp [boot, stage, code, on]))

theorem execTrustDieBoot_selfTest {h : BitVec 1} {ok : Bool} (fresh : bootFresh s h.toNat) :
    execTrustDieBoot h false ok s = .next (setStage s h.toNat 0 0x07) :=
  execTrustDieBoot_fresh fresh

theorem execTrustDieBoot_real {h : BitVec 1} (fresh : bootFresh s h.toNat) (real : s.pins.debugOnly = false) :
    execTrustDieBoot h true true s =
      .next (setStage (keysDrawn (identityShown (romMeasured s h.toNat false) h.toNat) h.toNat) h.toNat sgAwait 0) := by
  rw [execTrustDieBoot_fresh fresh, real]
  rfl

theorem execTrustDieBoot_debug {h : BitVec 1} {ok : Bool} (fresh : bootFresh s h.toNat) (debug : s.pins.debugOnly = true) :
    execTrustDieBoot h true ok s = .next (setStage (keysDrawn (romMeasured s h.toNat true) h.toNat) h.toNat sgAwait 0) := by
  rw [execTrustDieBoot_fresh fresh, debug]
  rfl

theorem rising_romMeasured (w : Rising s.mg) (d : Bool) : Rising (romMeasured s k d).mg :=
  rising_extendMr (rising_putF (rising_putF w ..) ..) _ _

theorem sec_romMeasured (d : Bool) : (getSec (romMeasured s k d) k).idKey = (getSec s k).idKey := by
  unfold romMeasured
  rw [sec_extendMr]
  rfl

theorem debug_romMeasured (w : Rising s.mg) (d : Bool) : getF (romMeasured s k d) F.SEC_BSTAT_DEBUG k = d.toNat := by
  have shown : getF (putF s F.SEC_BSTAT_DEBUG k d.toNat) F.SEC_BSTAT_DEBUG k = d.toNat % 2 ^ 1 :=
    getF_putF_same w F.SEC_BSTAT_DEBUG (by decide)
  have state : WordKept (regAddr .secBstat k 0) (putF s F.SEC_BSTAT_DEBUG k d.toNat)
      (putF (putF s F.SEC_BSTAT_DEBUG k d.toNat) F.SEC_DBGSTAT_DSTATE k (if d then 2 else 0)) :=
    .putF (regAddr_ne_sec (by decide))
  have word := state.trans (wordKept_extendMr (k := k) 0
    (sha (Config.romContents ++ devIdBytes (putF (putF s F.SEC_BSTAT_DEBUG k d.toNat) F.SEC_DBGSTAT_DSTATE k (if d then 2 else 0)) ++
      [if d then 1 else 0])) fun x _ _ => regAddr_ne_sec ⟨rfl, by simp only [wordOff, regSpec]; omega⟩)
  refine (WordKept.getF (f := F.SEC_BSTAT_DEBUG) word (rising_putF w ..)).trans (shown.trans ?_)
  cases d <;> rfl

theorem rising_identityShown (w : Rising s.mg) : Rising (identityShown s k).mg := rising_updSec (rising_setWords w)

theorem sec_identityShown : (getSec (identityShown s k) k).idKey = true := by
  rw [identityShown, getSec_updSec]

/-! Images (R433-R435). -/

theorem getSec_putF {f : Fld} {i v j : Nat} : getSec (putF s f i v j) k = getSec s k := rfl

/-- The boot register after a stage and a count of bytes. -/
theorem stage_bytes (w : Rising s.mg) (g n : Nat) :
    secStage (putF (putF s F.SEC_BSTAT_STAGE k g) F.SEC_BSTAT_BYTES k n) k = g % 2 ^ 4 ∧
      getF (putF (putF s F.SEC_BSTAT_STAGE k g) F.SEC_BSTAT_BYTES k n) F.SEC_BSTAT_BYTES k = n % 2 ^ 32 := by
  rw [secStage, getF_putF_beside (rising_putF w ..) F.SEC_BSTAT_BYTES F.SEC_BSTAT_STAGE (by decide)]
  exact ⟨getF_putF_same w F.SEC_BSTAT_STAGE (by decide), getF_putF_same (rising_putF w ..) F.SEC_BSTAT_BYTES (by decide)⟩

/-- The lines that fit, by their number. -/
def fittingLines (off : Nat) (lines : List W64) : List Nat :=
  (List.range (lines.length / 8)).filter fun j => decide (off + 64 * j + 64 ≤ 2 ^ 25)

/-- The staged image with the lines that fit. -/
def stagedLines (off : Nat) (lines : List W64) (m : Map Byte) : Map Byte :=
  ((fittingLines off lines).flatMap fun j => (wordBytes ((lines.drop (8 * j)).take 8)).zipIdx (off + 64 * j)).foldl
    (fun m e => mset zByte e.2 e.1 m) m

theorem imgApply_awaiting {off : Nat} {lines : List W64} (boot : halfState s k = hsBoot)
    (await : [sgAwait, sgFailed].contains (secStage s k) = true) : ∃ top, imgApply s k off lines =
      putF (putF (updSec s k fun x => { x with image := stagedLines off lines x.image }) F.SEC_BSTAT_STAGE k sgAwait)
        F.SEC_BSTAT_BYTES k top :=
  ⟨_, if_neg (not_or.2 ⟨not_not.2 boot, not_not.2 await⟩)⟩

/-- The stages in which an image is awaited. -/
theorem awaiting_iff : [sgAwait, sgFailed].contains (secStage s k) = true ↔ secStage s k = sgAwait ∨ secStage s k = sgFailed := by
  simp

theorem bootCommand_awaiting {b : Requester} {f : State → State} (pass : gate s b true (regAddr .secBctl k 0) = none)
    (await : secStage s k = sgAwait ∨ secStage s k = sgFailed) : bootCommand s b k f = done (f s) :=
  (guarded_none pass).trans (if_pos (awaiting_iff.2 await))

theorem bootCommand_refused {b : Requester} {f : State → State} (pass : gate s b true (regAddr .secBctl k 0) = none)
    (not : ¬ (secStage s k = sgAwait ∨ secStage s k = sgFailed)) : bootCommand s b k f = denied s b :=
  (guarded_none pass).trans (if_neg (not ∘ awaiting_iff.1))

theorem imageCheck_lt : imageCheck s k < 2 ^ 8 := by
  unfold imageCheck
  extract_lets
  repeat' split
  all_goals decide

theorem secStage_done : secStage (done s) k = secStage s k := getF_answer ..

theorem getSec_done : getSec (done s) k = getSec s k := rfl

/-- The staged image is cleared. -/
def clearedImage (s : State) (k : Nat) : State :=
  putF (putF (updSec s k fun x => { x with image := [] }) F.SEC_BSTAT_STAGE k sgAwait) F.SEC_BSTAT_BYTES k 0

theorem clearedImage_shows (w : Rising s.mg) : (getSec (clearedImage s k) k).image = [] ∧ secStage (clearedImage s k) k = sgAwait ∧
    getF (clearedImage s k) F.SEC_BSTAT_BYTES k = 0 := by
  refine ⟨?_, stage_bytes (rising_updSec w) _ _⟩
  rw [clearedImage, getSec_putF, getSec_putF, getSec_updSec]

section
variable {b : Requester} (pass : gate s b true (regAddr .secBctl k 0) = none)
include pass

theorem boot_refused (not : ¬ (secStage s k = sgAwait ∨ secStage s k = sgFailed)) :
    imageLaunch s b k = denied s b ∧ imageClear s b k = denied s b :=
  ⟨bootCommand_refused pass not, bootCommand_refused pass not⟩

variable (await : secStage s k = sgAwait ∨ secStage s k = sgFailed)
include await

theorem imageClear_done : imageClear s b k = done (clearedImage s k) := bootCommand_awaiting pass await

theorem imageLaunch_failed (bad : imageCheck s k ≠ 0) : imageLaunch s b k = done (setStage s k sgFailed (imageCheck s k)) :=
  (bootCommand_awaiting pass await).trans (congrArg done (if_neg bad))

theorem imageLaunch_runs (good : imageCheck s k = 0) : imageLaunch s b k = done (launchImage s k) :=
  (bootCommand_awaiting pass await).trans (congrArg done (if_pos good))

end

/-- Settles O46: the boot, the lines and the commands, each from the equation of its command. -/
theorem trustDiesBootAndLaunch : Obligations.TrustDiesBootAndLaunch := by
  unfold Obligations.TrustDiesBootAndLaunch
  intro h s canon k fresh
  have w := regs_rising canon.mg
  refine ⟨fun start ok => ?kat, fun start real => ?keys, fun start debug ok => ?debug, fun off lines live boot await => ?lines,
    ?commands, fun few => congrArg Host.Outcome.next (if_pos few), fun many => ?reseed⟩
  case kat =>
    exact ⟨_, execTrustDieBoot_selfTest start, stage_setStage w .., code_setStage w ..⟩
  case keys =>
    have wi := rising_identityShown (k := k) (rising_romMeasured (k := k) w false)
    obtain ⟨wk, nonce⟩ := nonce_keysDrawn (k := k) wi
    obtain ⟨idKey, hbmKey⟩ := sec_keysDrawn (s := identityShown (romMeasured s k false) k) (k := k)
    refine ⟨_, execTrustDieBoot_real start real, stage_setStage wk .., code_setStage wk .., ?_⟩
    rw [getSec_setStage, idKey, sec_identityShown]
    refine ⟨rfl, hbmKey, ?_⟩
    rwa [(wordKept_setStage _ _ (regAddr_ne_block (by decide) h.isLt (by decide) h.isLt (by decide))).reg wk]
  case debug =>
    have wr := rising_romMeasured (k := k) w true
    obtain ⟨wk, _⟩ := nonce_keysDrawn (k := k) wr
    refine ⟨_, execTrustDieBoot_debug start debug, stage_setStage wk .., ?_⟩
    rw [debug_setStage wk, getSec_setStage, sec_keysDrawn.1, sec_romMeasured]
    refine ⟨?_, rfl⟩
    refine (WordKept.getF (f := F.SEC_BSTAT_DEBUG) (wordKept_keysDrawn ?_) wr).trans (debug_romMeasured w true)
    exact regAddr_ne_block (by decide) h.isLt (by decide) h.isLt (by decide)
  case lines =>
    obtain ⟨top, taken⟩ := imgApply_awaiting (off := off.toNat) (lines := lines) boot (awaiting_iff.2 await)
    have run : exec (.img h h off lines) s = .next (imgApply s k off.toNat lines) :=
      congrArg Host.Outcome.next (if_neg (by simp [k, live]))
    refine ⟨_, run, ?_⟩
    rw [taken, getSec_putF, getSec_putF, getSec_updSec]
    exact ⟨(stage_bytes (rising_updSec w) _ _).1, rfl⟩
  case commands =>
    intro b pass awaiting
    refine ⟨fun not => ?_, fun await => ⟨?_, fun bad => ?_, fun good => ?_⟩⟩
    · obtain ⟨launch, clear⟩ := boot_refused pass not
      exact ⟨congrArg Host.Outcome.next launch, congrArg Host.Outcome.next clear⟩
    · refine ⟨_, congrArg Host.Outcome.next (imageClear_done pass await), rfl, ?_⟩
      rw [getSec_done, secStage_done, getF_done]
      exact clearedImage_shows w
    · refine ⟨_, congrArg Host.Outcome.next (imageLaunch_failed pass await bad), rfl, ?_⟩
      rw [secStage_done, getF_done, stage_setStage w, code_setStage w, Nat.mod_eq_of_lt imageCheck_lt]
      exact ⟨rfl, rfl⟩
    · exact congrArg Host.Outcome.next (imageLaunch_runs pass await good)
  case reseed =>
    exact ⟨_, congrArg Host.Outcome.next (if_neg many.not_gt), getSec_updSec _⟩

end Sys2Proof.Machine
end

section
/-! SUPPORT. Quotes, extensions and debug access (R437-R439, R445, R446), and the proofs of their obligations. -/

namespace Sys2Proof.Machine

variable {s t : State} {k : Nat} {b : Requester}

theorem count_secMr : (regSpec .secMr).count = 32 := rfl

theorem count_secIdpub : (regSpec .secIdpub).count = 17 := rfl

/-! A quote begins (R439). -/

/-- BUSY set. -/
def quoteBusy (s : State) (k : Nat) : State := putF s F.SEC_QCTL_BUSY k 1

/-- Every register but SEC_QCTL is as before. -/
theorem reg_quoteBusy (w : Rising s.mg) (inside : k < 2) {r : Reg} {i j : Nat} (other : r ≠ .secQctl)
    (inst : i < blockCount (regSpec r).blk) (word : j < (regSpec r).count) : reg (quoteBusy s k) r i j = reg s r i j := by
  refine reg_putF_ne w _ _ _ _ ?_
  by_cases trust : (regSpec r).blk = .sec
  · by_cases same : i = k
    · subst same
      refine regAddr_ne_word ⟨trust, ?_⟩
      cases r <;> simp only [regSpec, wordOff, reduceCtorEq, ne_eq, not_true_eq_false, F.SEC_QCTL_BUSY] at trust other ⊢ <;> omega
    · exact regAddr_ne inst word (by exact inside) (count_pos _) (.inr (.inl same))
  · exact regAddr_ne inst word (by exact inside) (count_pos _) (.inl trust)

theorem regBytes_quoteBusy (w : Rising s.mg) (inside : k < 2) {r : Reg} {n : Nat} (other : r ≠ .secQctl)
    (trust : (regSpec r).blk = .sec) (word : n ≤ (regSpec r).count) : regBytes (quoteBusy s k) r k 0 n = regBytes s r k 0 n := by
  refine congrArg wordBytes (List.map_congr_left fun x mem => reg_quoteBusy w inside other (by rwa [trust]) ?_)
  obtain ⟨y, lt, rfl⟩ := List.mem_map.1 mem
  have := List.mem_range.1 lt
  omega

theorem quoteBody_quoteBusy (w : Rising s.mg) (inside : k < 2) (nonce : List Byte) :
    quoteBody (quoteBusy s k) k nonce = quoteBody s k nonce := by
  have dev := reg_quoteBusy w inside (r := .devId) (i := 0) (j := 0) (by decide) (by decide) (by decide)
  have lom := reg_quoteBusy w inside (r := .lomStat) (i := k) (j := 0) (by decide) inside (by decide)
  have stream := reg_quoteBusy w inside (r := .fstStat) (i := k) (j := 0) (by decide) inside (by decide)
  have fst := reg_quoteBusy w inside (r := .fstNonce) (i := k) (j := 0) (by decide) inside (by decide)
  have mr := regBytes_quoteBusy w inside (r := .secMr) (n := 32) (by decide) rfl (by decide)
  have pub := regBytes_quoteBusy w inside (r := .secIdpub) (n := 17) (by decide) rfl (by decide)
  have profile : getF (quoteBusy s k) F.LOM_STAT_PROFILE k = getF s F.LOM_STAT_PROFILE k :=
    congrArg (fun v : W64 => bits v.toNat 58 57) lom
  have gen : getF (quoteBusy s k) F.FST_STAT_GEN k = getF s F.FST_STAT_GEN k :=
    congrArg (fun v : W64 => bits v.toNat 31 0) stream
  have sec : getSec (quoteBusy s k) k = getSec s k := rfl
  have pins : (quoteBusy s k).pins = s.pins := rfl
  simp only [quoteBody, dev, fst, mr, pub, profile, gen, sec, pins]

theorem committing_quoteBusy (w : Rising s.mg) (inside : k < 2) : committing (quoteBusy s k) k = committing s k := by
  have stream := reg_quoteBusy w inside (r := .fstStat) (i := k) (j := 0) (by decide) inside (by decide)
  exact congrArg (fun v : W64 => bits v.toNat 63 61 == 2) stream

section
variable (pass : gate s b true (regAddr .secQctl k 0) = none)
include pass

theorem quoteCmd_refused (busy : getF s F.SEC_QCTL_BUSY k = 1) : quoteCmd s b k = denied s b :=
  (guarded_none pass).trans (if_pos busy)

theorem quoteCmd_begins (free : getF s F.SEC_QCTL_BUSY k ≠ 1) :
    quoteCmd s b k = done (if committing (quoteBusy s k) k then quoteBusy s k else captureQuote (quoteBusy s k) k) :=
  (guarded_none pass).trans (if_neg free)

theorem extendCmd_now (free : getF s F.SEC_QCTL_BUSY k ≠ 1) : extendCmd s b k = done (extendMr s k 3 (regBytes s .secMext k 0 8)) :=
  (guarded_none pass).trans (congrArg done (if_neg free))

theorem extendCmd_waits (busy : getF s F.SEC_QCTL_BUSY k = 1) : extendCmd s b k =
    done (updSec s k fun x => { x with extendWait := x.extendWait ++ [regBytes s .secMext k 0 8] }) :=
  (guarded_none pass).trans (congrArg done (if_pos busy))

end

/-- What the quote begun leaves. -/
theorem quoteBegun (w : Rising s.mg) (inside : k < 2) :
    let t := if committing (quoteBusy s k) k then quoteBusy s k else captureQuote (quoteBusy s k) k
    getF t F.SEC_QCTL_BUSY k = 1 ∧ (committing s k = true → getSec t k = getSec s k) ∧
      (committing s k = false →
        getSec t k = { getSec s k with quote := some (quoteBody s k (regBytes s .secQnonce k 0 8)) }) := by
  intro t
  have busy : getF (quoteBusy s k) F.SEC_QCTL_BUSY k = 1 := getF_putF_same w F.SEC_QCTL_BUSY (by decide)
  have nonce := regBytes_quoteBusy w inside (r := .secQnonce) (n := 8) (by decide) rfl (by decide)
  have sec : getSec (quoteBusy s k) k = getSec s k := rfl
  by_cases now : committing s k = true
  · have at' : t = quoteBusy s k := if_pos (by rwa [committing_quoteBusy w inside])
    rw [at']
    exact ⟨busy, fun _ => sec, fun no => absurd now (by rw [no]; decide)⟩
  · have at' : t = captureQuote (quoteBusy s k) k := if_neg (by rwa [committing_quoteBusy w inside])
    rw [at', captureQuote, nonce, quoteBody_quoteBusy w inside, getSec_updSec, sec]
    refine ⟨?_, fun yes => absurd yes now, fun _ => rfl⟩
    exact (getF_updHalf ..).trans busy

theorem execQuoteComplete_idle {h : BitVec 1} (none' : (getSec s h.toNat).quote = none) : execQuoteComplete h s = .next s := by
  simp only [execQuoteComplete, none']

theorem execQuoteComplete_signs {h : BitVec 1} {body : List Byte} (due : (getSec s h.toNat).quote = some body) :
    execQuoteComplete h s =
      let q := signQuote s h.toNat body
      let t := putF (putF (setWords q.2 .secQuote h.toNat 0 (wordsOf q.1)) F.SEC_QCTL_BUSY h.toNat 0) F.SEC_QCTL_DONE h.toNat 1
      .next ((getSec t h.toNat).extendWait.foldl (fun s v => extendMr s h.toNat 3 v)
        (updSec t h.toNat fun x => { x with quote := none, extendWait := [] })) := by
  simp only [execQuoteComplete, due]

/-- Settles O47: the commands by their equations, an extension by the words of its register. -/
theorem quotesCoverMeasurements : Obligations.QuotesCoverMeasurements := by
  unfold Obligations.QuotesCoverMeasurements
  refine ⟨?commands, ?extension⟩
  case commands =>
    intro b h s canon pass k busy
    have w := regs_rising canon.mg
    refine ⟨fun yes => congrArg Host.Outcome.next (quoteCmd_refused pass yes), fun no => ?_,
      fun no => congrArg Host.Outcome.next (extendCmd_now pass no), fun yes => ?_, fun body due => execQuoteComplete_signs due,
      fun idle => execQuoteComplete_idle idle⟩
    · refine ⟨_, congrArg Host.Outcome.next (quoteCmd_begins pass no), resp_done _, ?_⟩
      rw [getF_done, getSec_done]
      exact quoteBegun w h.isLt
    · refine ⟨_, congrArg Host.Outcome.next (extendCmd_waits pass yes), resp_done _, updSec_mg _, ?_⟩
      rw [getSec_done, getSec_updSec]
  case extension =>
    intro s h i v canon k t
    have w := regs_rising canon.mg
    refine ⟨measured_extendMr w i v, fun j other => ?_, congrArg SecSt.counts (sec_extendMr i v)⟩
    refine regBytes_of_kept w fun x lt => wordKept_extendMr i v fun y low high => regAddr_ne_index ?_ (by decide)
    have := Fin.val_ne_of_ne other
    omega

/-! Debug access (R445, R446). -/

theorem mayChallenge_iff : mayChallenge s k = true ↔ (half s k).cfg.dbgUnlock = true ∧ (getSec s k).lockout = false := by
  simp [mayChallenge]

theorem rising_setDstate (w : Rising s.mg) (v : Nat) : Rising (setDstate s k v).mg := by
  unfold setDstate
  split
  · exact w
  · exact rising_putF w ..

theorem getSec_setDstate (v : Nat) : getSec (setDstate s k v) k = getSec s k := by
  unfold setDstate
  split <;> rfl

theorem fails_setDstate (w : Rising s.mg) (v : Nat) :
    getF (setDstate s k v) F.SEC_DBGSTAT_FAILS k = getF s F.SEC_DBGSTAT_FAILS k := by
  unfold setDstate
  split
  · rfl
  · exact getF_putF_beside w F.SEC_DBGSTAT_DSTATE F.SEC_DBGSTAT_FAILS (by decide)

/-- The challenge stands in its register. -/
def challengeShown (s : State) (k : Nat) : State :=
  let (d, s) := draw s k
  setWords s .secDbgchal k 0 (wordsOf ((digestBytes d).take 32 ++ devIdBytes s ++ [BitVec.ofNat 8 k] ++ List.replicate 23 0))

theorem newChallenge_eq : newChallenge s k = setDstate (updSec (challengeShown s k) k fun x => { x with challenge := true }) k 1 :=
  rfl

theorem rising_challengeShown (w : Rising s.mg) : Rising (challengeShown s k).mg := rising_setWords (rising_draw w)

theorem pins_setWords (r : Reg) (i j : Nat) (ws : List W64) : (setWords s r i j ws).pins = s.pins := by
  induction ws generalizing s j with
  | nil => rfl
  | cons v ws ih => exact ih ..

theorem pins_challengeShown : (challengeShown s k).pins = s.pins := by
  unfold challengeShown
  exact (pins_setWords ..).trans (updHalf_pins ..)

theorem challenge_newChallenge : (getSec (newChallenge s k) k).challenge = true := by
  rw [newChallenge_eq, getSec_setDstate, getSec_updSec]

theorem dstate_newChallenge (w : Rising s.mg) (real : s.pins.debugOnly = false) :
    getF (newChallenge s k) F.SEC_DBGSTAT_DSTATE k = 1 := by
  have off : ¬ (updSec (challengeShown s k) k fun x => { x with challenge := true }).pins.debugOnly = true := by
    rw [updSec, updHalf_pins, pins_challengeShown, real]
    decide
  rw [newChallenge_eq, setDstate, if_neg off]
  exact getF_putF_same (rising_updSec (rising_challengeShown w)) F.SEC_DBGSTAT_DSTATE (by decide)

theorem getSec_dropChallenge : getSec (dropChallenge s k) k = { getSec s k with challenge := false } := by
  rw [dropChallenge, getSec_setDstate, getSec_updSec]

theorem rising_dropChallenge (w : Rising s.mg) : Rising (dropChallenge s k).mg := rising_setDstate (rising_updSec w) _

theorem fails_dropChallenge (w : Rising s.mg) :
    getF (dropChallenge s k) F.SEC_DBGSTAT_FAILS k = getF s F.SEC_DBGSTAT_FAILS k := by
  rw [dropChallenge, fails_setDstate (rising_updSec w)]
  exact getF_updHalf ..

/-- The third failure starts the lockout. -/
def afterFailure (x : SecSt) : SecSt :=
  if 2 ≤ x.fails then { x with fails := 0, lockout := true } else { x with fails := x.fails + 1 }

theorem failSubmit_eq : failSubmit s k = updSec (bumpF (dropChallenge s k) F.SEC_DBGSTAT_FAILS k) k afterFailure := rfl

theorem getSec_failSubmit : getSec (failSubmit s k) k = afterFailure { getSec s k with challenge := false } := by
  rw [failSubmit_eq, getSec_updSec, bumpF, getSec_putF, getSec_dropChallenge]

theorem challenge_afterFailure (x : SecSt) : (afterFailure x).challenge = x.challenge := by
  unfold afterFailure
  split <;> rfl

theorem fails_failSubmit (w : Rising s.mg) :
    getF (failSubmit s k) F.SEC_DBGSTAT_FAILS k = min 255 (getF s F.SEC_DBGSTAT_FAILS k + 1) := by
  have counted : getF (bumpF (dropChallenge s k) F.SEC_DBGSTAT_FAILS k) F.SEC_DBGSTAT_FAILS k =
      satAdd 8 (getF (dropChallenge s k) F.SEC_DBGSTAT_FAILS k) 1 % 2 ^ 8 :=
    getF_putF_same (rising_dropChallenge w) F.SEC_DBGSTAT_FAILS (by decide)
  rw [failSubmit_eq, updSec, getF_updHalf, counted, fails_dropChallenge w, satAdd]
  omega

section
variable (pass : gate s b true (regAddr .secDbgctl k 0) = none)
include pass

theorem challengeCmd_refused (may : ¬ mayChallenge s k = true) : challengeCmd s b k = denied s b :=
  (guarded_none pass).trans (if_neg may)

theorem challengeCmd_done (may : mayChallenge s k = true) : challengeCmd s b k = done (newChallenge s k) :=
  (guarded_none pass).trans (if_pos may)

theorem submitCmd_refused (locked : (half s k).cfg.dbgUnlock = false) : submitCmd s b k = denied s b :=
  (guarded_none pass).trans (if_neg (by simp [locked]))

variable (may : (half s k).cfg.dbgUnlock = true)
include may

theorem submitCmd_unlocks (good : (getSec s k).challenge = true ∧ responseOk s k = true) : submitCmd s b k = done (unlockPart s) :=
  (guarded_none pass).trans ((if_pos may).trans (congrArg done (if_pos good)))

theorem submitCmd_fails (bad : ¬ ((getSec s k).challenge = true ∧ responseOk s k = true)) : submitCmd s b k = done (failSubmit s k) :=
  (guarded_none pass).trans ((if_pos may).trans (congrArg done (if_neg bad)))

end

/-- Settles O48: each command by its equation. -/
theorem debugUnlocksByChallenge : Obligations.DebugUnlocksByChallenge := by
  unfold Obligations.DebugUnlocksByChallenge
  intro b h s canon k
  have w := regs_rising canon.mg
  refine ⟨fun pass => ⟨fun locked => ?challengeRefused, fun locked => congrArg Host.Outcome.next (submitCmd_refused pass locked),
    fun may open' => ?challenge, fun may stands good => congrArg Host.Outcome.next (submitCmd_unlocks pass may ⟨stands, good⟩),
    fun may bad => ?fail⟩, ?expiry, ?lockout⟩
  case challengeRefused =>
    refine congrArg Host.Outcome.next (challengeCmd_refused pass ?_)
    rw [mayChallenge_iff]
    rintro ⟨may, open'⟩
    rw [may, open'] at locked
    exact absurd locked (by decide)
  case challenge =>
    refine ⟨_, congrArg Host.Outcome.next (challengeCmd_done pass (mayChallenge_iff.2 ⟨may, open'⟩)), resp_done _, ?_⟩
    rw [getSec_done, getF_done]
    exact ⟨challenge_newChallenge, fun real => dstate_newChallenge w real⟩
  case fail =>
    have bad' : ¬ ((getSec s k).challenge = true ∧ responseOk s k = true) := by
      rintro ⟨stands, good⟩
      rw [stands, good] at bad
      exact absurd bad (by decide)
    refine ⟨_, congrArg Host.Outcome.next (submitCmd_fails pass may bad'), resp_done _, ?_⟩
    rw [getSec_done, getF_done, getSec_failSubmit, challenge_afterFailure, fails_failSubmit w]
    refine ⟨rfl, rfl, fun third => ?_, fun early => ?_⟩
    · rw [afterFailure, if_pos third]
      exact ⟨rfl, rfl⟩
    · rw [afterFailure, if_neg early.not_ge]
      exact ⟨rfl, rfl⟩
  case expiry =>
    by_cases stands : (getSec s k).challenge = true
    · refine ⟨_, congrArg Host.Outcome.next (if_pos stands), ?_⟩
      rw [getSec_dropChallenge]
    · exact ⟨_, congrArg Host.Outcome.next (if_neg stands), Bool.eq_false_iff.2 stands⟩
  case lockout =>
    exact ⟨_, rfl, updSec_mg _, getSec_updSec _⟩

end Sys2Proof.Machine
end

section
/-! SUPPORT. Handshakes (R374-R378, R391, R393), and the proof of their obligation. -/

namespace Sys2Proof.Machine

variable {s t : State} {k : Nat}

theorem getLom_answer (a : Resp) : getLom (answer s a) k = getLom s k := rfl

theorem rising_updLom (w : Rising s.mg) (f : LomSt → LomSt) : Rising (updLom s k f).mg := by rwa [updLom_mg]

/-! Registers and links are as before. -/

/-- The registers and what half k holds of its link. -/
structure LomKept (k : Nat) (s t : State) : Prop where
  mg : t.mg = s.mg
  lom : getLom t k = getLom s k

theorem LomKept.refl : LomKept k s s := ⟨rfl, rfl⟩

theorem LomKept.trans {u : State} (h : LomKept k s t) (g : LomKept k t u) : LomKept k s u :=
  ⟨g.mg.trans h.mg, g.lom.trans h.lom⟩

theorem lomKept_draw : LomKept k s (draw s k).2 :=
  ⟨updHalf_mg .., (HalfKept.updHalf (p := Half.lom) fun _ => rfl : HalfKept Half.lom k s (draw s k).2)⟩

theorem lomKept_fresh : LomKept k s (fresh s).2 := ⟨rfl, rfl⟩

theorem lomKept_signQuote (body : List Byte) : LomKept k s (signQuote s k body).2 := by
  unfold signQuote
  extract_lets signed
  split
  · exact .refl
  · exact lomKept_draw

theorem LomKept.getF (h : LomKept k s t) (f : Fld) (i j : Nat) : getF t f i j = getF s f i j := by
  simp only [Machine.getF, reg, h.mg]

/-! Messages 1 and 2. -/

/-- The state after ACCEPT. -/
def accepted (s : State) (k : Nat) (x : Handshake) (m : List Byte) : State :=
  answer (putF (updLom s k fun l => { l with hs := some x }) F.LOM_STAT_SSTATE k (if x.rekey then 3 else 1)) (.bytes m)

theorem acceptHello_good {nonce pub : List Byte} {profile : BitVec 2} {session : Nat} {rekey : Bool}
    (curve : Config.onCurve pub = true) (key : getF s F.SEC_BSTAT_CODE k ≠ 1) :
    ∃ u x m, acceptHello s k nonce pub profile session rekey = accepted u k x m ∧ LomKept k s u ∧ x.step = 1 ∧
      x.rekey = rekey ∧ x.session = session ∧ x.text = nonce ++ pub ++ [profile.setWidth 8] ++ m := by
  unfold acceptHello
  rw [if_neg (by simp [curve, key])]
  extract_lets
  exact ⟨_, _, _, rfl, (lomKept_draw.trans lomKept_draw).trans (lomKept_signQuote _), rfl, rfl, rfl, List.append_assoc _ _ _⟩

theorem acceptHello_bad {nonce pub : List Byte} {profile : BitVec 2} {session : Nat} {rekey : Bool}
    (curve : Config.onCurve pub = false) : acceptHello s k nonce pub profile session rekey = abortHandshake s k := by
  unfold acceptHello
  exact if_pos (by simp [curve])

section
variable {x : Handshake} {m : List Byte}

theorem getLom_accepted : getLom (accepted s k x m) k = { getLom s k with hs := some x } := by
  rw [accepted, getLom_answer, getLom_putF, getLom_updLom_self]

theorem sstate_accepted (w : Rising s.mg) : getF (accepted s k x m) F.LOM_STAT_SSTATE k = if x.rekey then 3 else 1 := by
  rw [accepted, getF_answer, getF_putF_same (rising_updLom w _) F.LOM_STAT_SSTATE (by decide)]
  split <;> rfl

theorem rising_accepted (w : Rising s.mg) : Rising (accepted s k x m).mg := rising_putF (rising_updLom w _) ..

end

/-! A handshake that ends. -/

/-- The hall times of the failures of the last second, with this one. -/
def recentFailures (s : State) (k : Nat) : List Nat :=
  ((getLom s k).failAt.filter fun t => decide (hallTime s k < t + 10 ^ 9)) ++ [hallTime s k]

theorem getLom_abortHandshake : getLom (abortHandshake s k) k = if 3 ≤ (recentFailures s k).length
    then { getLom s k with hs := none, failAt := [], lockout := true }
    else { getLom s k with hs := none, failAt := recentFailures s k } := by
  unfold abortHandshake
  rw [getLom_answer, getLom_putF, getLom_updLom_self]
  rfl

theorem lockout_abortHandshake (third : 3 ≤ (recentFailures s k).length) : (getLom (abortHandshake s k) k).lockout = true := by
  rw [getLom_abortHandshake, if_pos third]

theorem lockout_abortHandshake_early (early : ¬ 3 ≤ (recentFailures s k).length) :
    (getLom (abortHandshake s k) k).lockout = (getLom s k).lockout := by
  rw [getLom_abortHandshake, if_neg early]

theorem length_recentFailures : (recentFailures s k).length =
    ((getLom s k).failAt.filter fun t => decide (hallTime s k < t + 10 ^ 9)).length + 1 := List.length_append

/-! HELLO. -/

theorem execHello_forwards {h port : BitVec 1} {nonce pub : List Byte} {p : BitVec 2}
    (fwd : forwarded s h.toNat = true) (open' : (getLom s h.toNat).lockout = false) : execHello h port nonce pub p s =
      .next (putF (updLom (acceptHello (fresh s).2 h.toNat nonce pub p ((fresh s).1.toNat % (2 ^ 32 - 1) + 1) false) h.toNat
        fun l => { l with hs := none }) F.LOM_STAT_SSTATE h.toNat 0) :=
  congrArg Host.Outcome.next (if_pos (by simp [fwd, open']))

theorem execHello_ignored {h port : BitVec 1} {nonce pub : List Byte} {p : BitVec 2}
    (here : forwarded s h.toNat = false ∨ (getLom s h.toNat).lockout = true)
    (away : handshakes s h.toNat = false ∨ port.toNat ≠ lomActive s h.toNat ∨ (getLom s h.toNat).lockout = true) :
    execHello h port nonce pub p s = .next (answer s .none) := by
  refine congrArg Host.Outcome.next ((if_neg ?_).trans (if_pos ?_))
  · rintro ⟨fwd, open'⟩
    rw [fwd] at here
    simp_all
  · simpa using away

/-- The state in which a HELLO for this link is answered. -/
def helloState (s : State) (k : Nat) : State :=
  if 2 ≤ getF s F.LOM_STAT_SSTATE k then endSession (loseTraffic s k) k else s

theorem not_forwarded_of_handshakes (serve : handshakes s k = true) : forwarded s k = false := by
  simp only [handshakes, Bool.and_eq_true] at serve
  obtain ⟨⟨up, -⟩, -⟩ := serve
  simp [forwarded, up]

theorem execHello_served {h port : BitVec 1} {nonce pub : List Byte} {p : BitVec 2}
    (serve : handshakes s h.toNat = true) (active : port.toNat = lomActive s h.toNat)
    (open' : (getLom s h.toNat).lockout = false) : execHello h port nonce pub p s =
      .next (acceptHello (fresh (helloState s h.toNat)).2 h.toNat nonce pub p
        ((fresh (helloState s h.toNat)).1.toNat % (2 ^ 32 - 1) + 1) false) := by
  refine congrArg Host.Outcome.next ((if_neg ?_).trans (if_neg ?_))
  · rw [not_forwarded_of_handshakes serve]
    simp
  · simp [serve, active, open']

/-! PROOF and FINISH. -/

/-- The signature of the policy's key over messages 1 and 2 (R376). -/
def proofGood (s : State) (k : Nat) (pub sig : List Byte) (x : Handshake) : Prop :=
  sha pub = hostKeyBytes s k ∧ Config.onCurve pub = true ∧ Config.ecdsaVerify pub (Config.sha512 x.text) sig = true

theorem execProof_good {h : BitVec 1} {pub sig : List Byte} {x : Handshake} (run : (getLom s h.toNat).hs = some x)
    (first : x.step = 1) (auth : getF s F.LOM_CFG_HOSTAUTH h.toNat ≠ 0) (good : proofGood s h.toNat pub sig x) :
    execProof h pub sig s = .next (answer (updLom s h.toNat fun l =>
      { l with hs := some { x with step := 2, text := x.text ++ pub ++ sig } }) .ok) := by
  simp only [execProof, run]
  exact congrArg Host.Outcome.next ((if_neg (by simp [first, auth])).trans (if_pos good))

theorem execProof_bad {h : BitVec 1} {pub sig : List Byte} {x : Handshake} (run : (getLom s h.toNat).hs = some x)
    (first : x.step = 1) (auth : getF s F.LOM_CFG_HOSTAUTH h.toNat ≠ 0) (bad : ¬ proofGood s h.toNat pub sig x) :
    execProof h pub sig s = .next (abortHandshake s h.toNat) := by
  simp only [execProof, run]
  exact congrArg Host.Outcome.next ((if_neg (by simp [first, auth])).trans (if_neg bad))

/-- The link under its new session. -/
def sessionLink (s : State) (k : Nat) (x : Handshake) : State :=
  if x.rekey then updLink s (lomKey k) fun y => { y with session := x.session }
  else updLink s (lomKey k) fun y => { linkZero with session := x.session, waitL := y.waitL }

/-- The keys of the new session; a rekey keeps the old ones. -/
def sessionKeys (s : State) (k : Nat) (x : Handshake) : State :=
  updLom (sessionLink s k x) k fun l => { l with
    hs := none, keys := some (x.h2p, x.p2h), oldKeys := if x.rekey then (getLom s k).keys else none }

/-- The session stands. -/
def sessionStands (s : State) (k : Nat) (x : Handshake) : State :=
  putF (putF (putF (sessionKeys s k x) F.LOM_STAT_SSTATE k 2) F.LOM_STAT_SESSION k x.session) F.LOM_STAT_PROFILE k x.profile

theorem execFinish_fails {h : BitVec 1} {ok : Bool} {x : Handshake} (run : (getLom s h.toNat).hs = some x)
    (fails : ok = false ∨ x.step = 1 ∧ getF s F.LOM_CFG_HOSTAUTH h.toNat = 1) :
    execFinish h ok s = .next (abortHandshake s h.toNat) := by
  simp only [execFinish, run]
  exact congrArg Host.Outcome.next (if_pos (by simpa using fails))

theorem execFinish_stands {h : BitVec 1} {x : Handshake} (run : (getLom s h.toNat).hs = some x)
    (proved : x.step ≠ 1 ∨ getF s F.LOM_CFG_HOSTAUTH h.toNat ≠ 1) : execFinish h true s = .next (answer
      (if x.rekey then raiseEvent (sessionStands s h.toNat x) h.toNat evLink 3 [] else sessionStands s h.toNat x)
      (.bytes (sha x.text))) := by
  simp only [execFinish, run]
  exact congrArg Host.Outcome.next (if_neg (by simp only [Bool.not_true, Bool.false_eq_true, false_or]; tauto))

theorem mg_sessionLink (x : Handshake) : (sessionLink s k x).mg = s.mg := by
  unfold sessionLink
  split <;> rfl

theorem getLom_sessionStands (x : Handshake) : ∃ l : LomSt, getLom (sessionStands s k x) k =
    { l with hs := none, keys := some (x.h2p, x.p2h), oldKeys := if x.rekey then (getLom s k).keys else none } := by
  refine ⟨getLom (sessionLink s k x) k, ?_⟩
  rw [sessionStands, getLom_putF, getLom_putF, getLom_putF, sessionKeys, getLom_updLom_self]

theorem fields_sessionStands (w : Rising s.mg) (x : Handshake) : getF (sessionStands s k x) F.LOM_STAT_SSTATE k = 2 ∧
    getF (sessionStands s k x) F.LOM_STAT_SESSION k = x.session % 2 ^ 32 := by
  have w1 : Rising (sessionKeys s k x).mg := rising_updLom (by rwa [mg_sessionLink]) _
  have w2 := rising_putF w1 F.LOM_STAT_SSTATE k 2 0
  have w3 := rising_putF w2 F.LOM_STAT_SESSION k x.session 0
  rw [sessionStands, getF_putF_beside w3 F.LOM_STAT_PROFILE F.LOM_STAT_SSTATE (by decide),
    getF_putF_beside w3 F.LOM_STAT_PROFILE F.LOM_STAT_SESSION (by decide),
    getF_putF_beside w2 F.LOM_STAT_SESSION F.LOM_STAT_SSTATE (by decide),
    getF_putF_same w1 F.LOM_STAT_SSTATE (by decide), getF_putF_same w2 F.LOM_STAT_SESSION (by decide)]
  exact ⟨rfl, rfl⟩

/-! Rekeys (R378). -/

theorem execRekey_live {h : BitVec 1} {nonce pub : List Byte} (live : lomLive s h.toNat = true) : execRekey h nonce pub s =
    .next (acceptHello s h.toNat nonce pub (BitVec.ofNat 2 (getF s F.LOM_STAT_PROFILE h.toNat))
      (getF s F.LOM_STAT_SESSION h.toNat % (2 ^ 32 - 1) + 1) true) :=
  congrArg Host.Outcome.next (if_neg (by simp [live]))

/-- Settles O49: each message by the equation of its command. -/
theorem handshakesMakeSessions : Obligations.HandshakesMakeSessions := by
  unfold Obligations.HandshakesMakeSessions
  intro h s canon k
  have w := regs_rising canon.mg
  refine ⟨fun port nonce pub p => ⟨fun here away => execHello_ignored here away, fun fwd open' curve key => ?forwarded, ?served⟩,
    ?proof, fun x run => ⟨fun first auth => execFinish_fails run (.inr ⟨first, auth⟩), execFinish_fails run (.inl rfl),
      fun proved => ?finish⟩,
    ⟨fun two => ?third, fun few => ?early⟩, ⟨_, rfl, updLom_mg .., getLom_updLom_self ..⟩,
    fun live => ⟨fun nonce pub curve key => ?rekey, fun already => ?started, fun not => ?start⟩⟩
  case forwarded =>
    obtain ⟨u, x, m, eq, kept, -⟩ := acceptHello_good (s := (fresh s).2) (nonce := nonce) (pub := pub) (profile := p)
      (session := (fresh s).1.toNat % (2 ^ 32 - 1) + 1) (rekey := false) curve key
    have run := execHello_forwards (port := port) (nonce := nonce) (pub := pub) (p := p) fwd open'
    rw [eq] at run
    have wu : Rising u.mg := by rw [kept.mg]; exact w
    refine ⟨_, m, run, updHalf_resp .., ?_, ?_⟩
    · exact getF_putF_same (rising_updLom (rising_accepted wu) _) F.LOM_STAT_SSTATE (by decide)
    · rw [getLom_putF, getLom_updLom_self, getLom_accepted, kept.lom, lomKept_fresh.lom]
      exact ⟨rfl, rfl⟩
  case served =>
    intro serve active open' u
    refine ⟨fun bad => (execHello_served serve active open').trans (congrArg Host.Outcome.next (acceptHello_bad bad)),
      fun curve key canonU => ?_⟩
    obtain ⟨v, x, m, eq, kept, step, rekey, -, text⟩ := acceptHello_good (s := (fresh u).2) (nonce := nonce) (pub := pub)
      (profile := p) (session := (fresh u).1.toNat % (2 ^ 32 - 1) + 1) (rekey := false) curve key
    have wv : Rising v.mg := by rw [kept.mg]; exact regs_rising canonU.mg
    refine ⟨_, m, (execHello_served serve active open').trans (congrArg Host.Outcome.next eq), rfl, ?_, x, ?_, step, rekey, text⟩
    · rw [sstate_accepted wv, rekey]
      rfl
    · rw [getLom_accepted]
  case proof =>
    intro pub sig x run first auth good
    refine ⟨fun yes => ⟨_, execProof_good run first auth yes, rfl, ?_⟩, fun no => execProof_bad run first auth no⟩
    rw [getLom_answer, getLom_updLom_self]
  case finish =>
    obtain ⟨l, lom⟩ := getLom_sessionStands (s := s) (k := k) x
    refine ⟨_, execFinish_stands run proved, rfl, ?_⟩
    obtain ⟨state, session⟩ := fields_sessionStands w x
    rw [getLom_answer]
    by_cases again : x.rekey = true
    · have kept : HalfKept (fun y => (y.lom.hs, y.lom.keys, y.lom.oldKeys)) k (sessionStands s k x)
          (raiseEvent (sessionStands s k x) k evLink 3 []) := .raiseEvent fun _ _ _ _ => rfl
      simp only [HalfKept, Prod.mk.injEq] at kept
      obtain ⟨hs, keys, oldKeys⟩ := kept
      rw [if_pos again]
      refine ⟨hs.trans ?_, keys.trans ?_, fun _ => oldKeys.trans ?_, fun no => absurd again (by rw [no]; decide)⟩
      all_goals rw [← getLom, lom]
      rw [if_pos again]
    · rw [if_neg again, getF_answer, getF_answer]
      rw [lom, if_neg again]
      exact ⟨rfl, rfl, fun yes => absurd yes again, fun _ => ⟨state, session, rfl⟩⟩
  case third => exact lockout_abortHandshake (length_recentFailures ▸ Nat.succ_le_succ two)
  case early => exact lockout_abortHandshake_early (length_recentFailures ▸ (Nat.succ_lt_succ few).not_ge)
  case rekey =>
    obtain ⟨v, x, m, eq, kept, step, rekey, session, text⟩ := acceptHello_good (s := s) (nonce := nonce) (pub := pub)
      (profile := BitVec.ofNat 2 (getF s F.LOM_STAT_PROFILE k)) (session := getF s F.LOM_STAT_SESSION k % (2 ^ 32 - 1) + 1)
      (rekey := true) curve key
    have wv : Rising v.mg := by rw [kept.mg]; exact w
    refine ⟨_, x, (execRekey_live live).trans (congrArg Host.Outcome.next eq), ?_, rekey, session, ?_⟩
    · rw [getLom_accepted]
    · rw [getLom_accepted, sstate_accepted wv, kept.lom, rekey]
      exact ⟨rfl, rfl⟩
  case started => exact congrArg Host.Outcome.next (if_pos (.inr already))
  case start => exact congrArg Host.Outcome.next (if_neg (by simp [k, live, not]))

end Sys2Proof.Machine
end

section
/-! SUPPORT. Domains (R455, R459), records (R411, R423), resets and stops (R24, R416, R478), and the proof of their
obligation. -/

namespace Sys2Proof.Machine

variable {s t u : State} {k n m : Nat} {b on : Bool}

/-! One bit of a word. -/

theorem bit_eq_bits (x i : Nat) : bit x i = (bits x i i == 1) := by simp [bit, bits]

theorem bit_setBits_same {w : W64} {i v : Nat} (lt : i < 64) : bit (setBits w i i v).toNat i = (v % 2 == 1) := by
  rw [bit_eq_bits, bits_setBits_self lt le_rfl, Nat.sub_self]
  rfl

theorem bit_setBits_other {w : W64} {i j v : Nat} (lt : i < 64) (ne : j ≠ i) :
    bit (setBits w i i v).toNat j = bit w.toNat j := by
  rw [bit_eq_bits, bits_setBits_ne lt le_rfl le_rfl (by omega), ← bit_eq_bits]

/-! Domains. -/

/-- Only the register store differs. -/
def OnlyRegs (s t : State) : Prop := t = { s with mg := t.mg }

theorem OnlyRegs.refl : OnlyRegs s s := rfl

theorem OnlyRegs.trans (h : OnlyRegs s t) (g : OnlyRegs t u) : OnlyRegs s u := by
  rw [OnlyRegs] at *
  rw [g, h]

theorem OnlyRegs.foldl {β : Type} {f : State → β → State} {xs : List β} (step : ∀ s x, OnlyRegs s (f s x)) :
    OnlyRegs s (xs.foldl f s) := by
  induction xs generalizing s with
  | nil => exact .refl
  | cons x xs ih => exact (step s x).trans ih

theorem OnlyRegs.half (h : OnlyRegs s t) : half t k = half s k := by rw [h]; rfl

theorem OnlyRegs.pins (h : OnlyRegs s t) : t.pins = s.pins := by rw [h]

theorem onlyRegs_setDomain : OnlyRegs s (setDomain s n on) := rfl

theorem onlyRegs_domainsOn (ns : List Nat) : OnlyRegs s (domainsOn s ns) := .foldl fun _ _ => onlyRegs_setDomain

theorem onlyRegs_domainsOff (ns : List Nat) : OnlyRegs s (domainsOff s ns) := .foldl fun _ _ => onlyRegs_setDomain

theorem domainOn_setDomain_self (w : Rising s.mg) : domainOn (setDomain s n on) n = on := by
  rw [domainOn, setDomain, reg_setReg_self w, bit_setBits_same (Nat.mod_lt _ (by decide))]
  cases on <;> rfl

theorem domainOn_setDomain_other (w : Rising s.mg) (ne : m ≠ n) : domainOn (setDomain s n on) m = domainOn s m := by
  rw [domainOn, setDomain, domainOn]
  by_cases same : m / 64 = n / 64
  · rw [same, reg_setReg_self w, bit_setBits_other (Nat.mod_lt _ (by decide)) (by omega)]
  · rw [reg_setReg_ne w (regAddr_ne_index same (by decide))]

theorem rising_setDomain (w : Rising s.mg) : Rising (setDomain s n on).mg := rising_setReg w ..

/-- A domain that is on stays on while others come on. -/
theorem domainOn_domainsOn (w : Rising s.mg) (ns : List Nat) :
    Rising (domainsOn s ns).mg ∧ (domainOn s m = true ∨ m ∈ ns → domainOn (domainsOn s ns) m = true) := by
  induction ns generalizing s with
  | nil => exact ⟨w, by simp [domainsOn]⟩
  | cons n ns ih =>
    obtain ⟨rising, stays⟩ := ih (s := setDomain s n true) (rising_setDomain w)
    refine ⟨rising, fun given => stays ?_⟩
    by_cases same : m = n
    · rw [same, domainOn_setDomain_self w]
      exact .inl rfl
    · rw [domainOn_setDomain_other w same]
      simpa [same] using given

/-- Switching domains changes PWR_DOMSTAT alone. -/
theorem wordKept_domains {a : Nat} {ns : List Nat} (ne : ∀ n ∈ ns, a ≠ regAddr .pwrDomstat 0 (n / 64)) :
    WordKept a s (domainsOn s ns) ∧ WordKept a s (domainsOff s ns) :=
  ⟨.foldl fun _ n mem => .setReg (ne n mem), .foldl fun _ n mem => .setReg (ne n mem)⟩

/-- Domain numbers end at 180, and PWR_DOMSTAT has three words. -/
theorem domstat_word (lt : n < 180) : n / 64 < (regSpec .pwrDomstat).count := by
  change n / 64 < 3
  omega

/-- A register of another block. -/
theorem regAddr_ne_domstat {r : Reg} {i j : Nat} (blk : (regSpec r).blk ≠ .pwr) (inst : i < blockCount (regSpec r).blk)
    (word : j < (regSpec r).count) (lt : n < 180) : regAddr r i j ≠ regAddr .pwrDomstat 0 (n / 64) :=
  regAddr_ne_block blk inst word (by decide) (domstat_word lt)

theorem halfDomains_lt {h : Nat} (mem : n ∈ halfDomains h) : n < 180 := List.mem_range.1 (List.mem_filter.1 mem).1

theorem bootSet_lt {h : Nat} (inside : h < 2) (mem : n ∈ bootSet h ++ [domSeam 0, domSeam 1]) : n < 180 := by
  obtain rfl | rfl : h = 0 ∨ h = 1 := by omega
  all_goals
    revert mem
    revert n
    decide

/-! Half states. -/

/-- DEV_HALF of half k. -/
theorem regAddr_ne_devHalf {h : Nat} (ne : h ≠ k) : regAddr .devHalf 0 k ≠ regAddr .devHalf 0 h :=
  regAddr_ne_index ne.symm (by decide)

theorem halfState_of_kept (kept : WordKept (regAddr .devHalf 0 k) s t) (w : Rising s.mg) :
    halfState t k = halfState s k ∧ isFatal t k = isFatal s k :=
  ⟨WordKept.getF (f := F.DEV_HALF_STATE) kept w, congrArg (· == 1) (WordKept.getF (f := F.DEV_HALF_FATAL) kept w)⟩

/-- A state written after FATAL is cleared. -/
theorem halfState_written (w : Rising s.mg) (v : Nat) :
    let t := putF (putF s F.DEV_HALF_FATAL 0 0 k) F.DEV_HALF_STATE 0 v k
    halfState t k = v % 2 ^ 3 ∧ isFatal t k = false := by
  intro t
  have fatal : getF t F.DEV_HALF_FATAL 0 k = 0 := by
    rw [getF_putF_beside (rising_putF w ..) F.DEV_HALF_STATE F.DEV_HALF_FATAL (by decide)]
    exact getF_putF_same w F.DEV_HALF_FATAL (by decide)
  exact ⟨getF_putF_same (rising_putF w ..) F.DEV_HALF_STATE (by decide), by rw [isFatal, fatal]; rfl⟩

/-! Resets (R478). -/

theorem onlyRegs_startBoot : OnlyRegs s (startBoot s k) := rfl

theorem onlyRegs_leaveReset : OnlyRegs s (leaveReset s k) := by
  unfold leaveReset
  split
  · exact (onlyRegs_domainsOn _).trans onlyRegs_startBoot
  · exact .refl

/-- A half that nothing holds in reset. -/
def released (s : State) (k : Nat) : Prop := s.pins.input = true ∧ s.pins.rstLow = false ∧ (half s k).rst = false

theorem leaveReset_released (free : released s k) : leaveReset s k = startBoot (bootSetOn s k) k := by
  obtain ⟨input, high, rst⟩ := free
  exact if_pos (by simp [input, high, rst])

theorem leaveReset_held (held : s.pins.rstLow = true) : leaveReset s k = s := if_neg (by simp [held])

theorem rising_startBoot (w : Rising s.mg) : Rising (startBoot s k).mg := rising_putF (rising_putF (rising_putF w ..) ..) ..

theorem rising_bootSetOn (w : Rising s.mg) : Rising (bootSetOn s k).mg := (domainOn_domainsOn (m := 0) w _).1

theorem halfState_startBoot (w : Rising s.mg) : halfState (startBoot s k) k = hsBoot :=
  (halfState_written (rising_putF w ..) _).1

theorem domainOn_startBoot (w : Rising s.mg) (inside : k < 2) (lt : n < 180) : domainOn (startBoot s k) n = domainOn s n := by
  have word := domstat_word lt
  have state : regAddr .pwrDomstat 0 (n / 64) ≠ regAddr .devHalf 0 k := regAddr_ne_block (by decide) (by decide) word (by decide) inside
  have time : regAddr .pwrDomstat 0 (n / 64) ≠ regAddr .tbStat k 0 :=
    regAddr_ne_block (by decide) (by decide) word inside (by decide)
  have kept : WordKept (regAddr .pwrDomstat 0 (n / 64)) s (startBoot s k) :=
    (WordKept.putF (f := F.TB_STAT_REF_LOST) time).trans
      (.trans (.putF (f := F.DEV_HALF_FATAL) state) (.putF (f := F.DEV_HALF_STATE) state))
  exact congrArg (fun v : W64 => bit v.toNat (n % 64)) (kept.reg w)

/-- What leaves reset stands booting, its boot set on. -/
theorem leaveReset_boots (w : Rising s.mg) (inside : k < 2) (free : released s k) :
    halfState (leaveReset s k) k = hsBoot ∧ domainOn (leaveReset s k) (domTrust k) = true := by
  rw [leaveReset_released free]
  refine ⟨halfState_startBoot (rising_bootSetOn w), ?_⟩
  rw [domainOn_startBoot (rising_bootSetOn w) inside (by rw [domTrust]; omega)]
  exact (domainOn_domainsOn w _).2 (.inr (by simp [bootSet]))

/-- The other half's release changes neither this half's state nor a domain that is on. -/
theorem leaveReset_other {h : Nat} (w : Rising s.mg) (inside : k < 2) (inside' : h < 2) (ne : h ≠ k) :
    Rising (leaveReset s h).mg ∧ halfState (leaveReset s h) k = halfState s k ∧
      (n < 180 → domainOn s n = true → domainOn (leaveReset s h) n = true) := by
  unfold leaveReset
  split
  · have wb : Rising (bootSetOn s h).mg := rising_bootSetOn w
    have domains : WordKept (regAddr .devHalf 0 k) s (bootSetOn s h) :=
      (wordKept_domains fun n mem => regAddr_ne_domstat (by decide) (by decide) inside (bootSet_lt inside' mem)).1
    have boot : WordKept (regAddr .devHalf 0 k) (bootSetOn s h) (startBoot (bootSetOn s h) h) :=
      (WordKept.putF (f := F.TB_STAT_REF_LOST) (regAddr_ne_block (by decide) (by decide) inside inside' (by decide))).trans
        (.trans (.putF (f := F.DEV_HALF_FATAL) (regAddr_ne_devHalf ne)) (.putF (f := F.DEV_HALF_STATE) (regAddr_ne_devHalf ne)))
    refine ⟨rising_startBoot wb, (halfState_of_kept (domains.trans boot) w).1, fun lt yes => ?_⟩
    rw [domainOn_startBoot wb inside' lt]
    exact (domainOn_domainsOn w _).2 (.inl yes)
  · exact ⟨w, rfl, fun _ yes => yes⟩

/-- Both halves leave reset. -/
theorem bothLeaveReset (w : Rising s.mg) (inside : k < 2) (free : released s k) :
    halfState (leaveReset (leaveReset s 0) 1) k = hsBoot ∧ domainOn (leaveReset (leaveReset s 0) 1) (domTrust k) = true := by
  obtain rfl | rfl : k = 0 ∨ k = 1 := by omega
  · obtain ⟨boot, on⟩ := leaveReset_boots w inside free
    have wr : Rising (leaveReset s 0).mg := by
      rw [leaveReset_released free]
      exact rising_startBoot (rising_bootSetOn w)
    obtain ⟨-, state, stays⟩ := leaveReset_other (n := domTrust 0) wr inside (show 1 < 2 by decide) (by decide)
    exact ⟨state.trans boot, stays (by decide) on⟩
  · obtain ⟨wr, -, -⟩ := leaveReset_other (n := 0) w inside (show 0 < 2 by decide) (by decide)
    refine leaveReset_boots wr inside ?_
    rw [released, onlyRegs_leaveReset.pins, onlyRegs_leaveReset.half]
    exact free

/-! Records (R411, R423). -/

/-- A word that no record writes. -/
structure LogApart (a : Nat) : Prop where
  log : ∀ j < 32768, a ≠ regAddr .devElog 0 j
  total : ∀ h < 2, a ≠ regAddr .devElogStat 0 h

theorem logApart_of_block {r : Reg} {i j : Nat} (blk : (regSpec r).blk ≠ .dev) (inst : i < blockCount (regSpec r).blk)
    (word : j < (regSpec r).count) : LogApart (regAddr r i j) :=
  ⟨fun _ lt => regAddr_ne_block blk inst word (by decide) lt, fun _ lt => regAddr_ne_block blk inst word (by decide) lt⟩

theorem logApart_devHalf (inside : k < 2) : LogApart (regAddr .devHalf 0 k) := by
  refine ⟨fun j _ => regAddr_ne_word ⟨rfl, ?_⟩, fun h _ => regAddr_ne_word ⟨rfl, ?_⟩⟩
  all_goals
    simp only [wordOff, regSpec]
    omega

theorem pins_raiseEvent (h src code : Nat) (payload : List W64) : (raiseEvent s h src code payload).pins = s.pins := by
  unfold raiseEvent
  split
  · exact updHalf_pins ..
  · rfl

theorem updUnit_mg (ut ui : Nat) (f : UnitSt → UnitSt) : (updUnit s ut ui f).mg = s.mg := updHalf_mg ..

theorem pins_updUnit (ut ui : Nat) (f : UnitSt → UnitSt) : (updUnit s ut ui f).pins = s.pins := updHalf_pins ..

/-- The words of an entry of half h's log. -/
def logEntry (s : State) (h seq : Nat) (ws : List W64) : State :=
  (ws.zipIdx).foldl (fun s e => setReg s .devElog 0 (16384 * h + 4 * (seq % 4096) + e.2) e.1) s

theorem wordKept_logEntry {a h seq : Nat} {ws : List W64} (apart : LogApart a) (inside : h < 2) (four : ws.length = 4) :
    WordKept a s (logEntry s h seq ws) := by
  refine .foldl fun s e mem => .setReg (apart.log _ ?_)
  have := List.snd_lt_of_mem_zipIdx mem
  omega

theorem pins_logEntry {h seq : Nat} {ws : List W64} : (logEntry s h seq ws).pins = s.pins :=
  List.foldlRecOn (motive := fun t : State => t.pins = s.pins) _ _ rfl fun _ same _ _ => same

/-- What a record does before its event: the count of lost entries, the entry, the total, the unit's counts. -/
theorem writeRecord_eq (s : State) (h ut ui cls : Nat) (pending promoted near : Bool) (x : Cause) :
    ∃ (t : State) (seq : Nat) (ws : List W64) (f : Half → Half) (g : UnitSt → UnitSt), ws.length = 4 ∧
      (t = s ∨ t = bumpF s F.DEV_ELOG_STAT_LOST 0 1 h) ∧
      writeRecord s h ut ui cls pending promoted near x = raiseEvent
        (if !hasTest ut then updHalf (putF (logEntry t h seq ws) F.DEV_ELOG_STAT_TOTAL 0 seq h) h f
          else updUnit (updHalf (putF (logEntry t h seq ws) F.DEV_ELOG_STAT_TOTAL 0 seq h) h f) ut ui g) h evError x.code ws := by
  unfold writeRecord
  extract_lets seq j w0 ws t l u v
  refine ⟨t, seq, ws, _, _, rfl, ?_, rfl⟩
  change (if _ then _ else _) = s ∨ (if _ then _ else _) = _
  split
  · exact .inr rfl
  · exact .inl rfl

theorem wordKept_writeRecord {a h ut ui cls : Nat} {pending promoted near : Bool} {x : Cause} (apart : LogApart a)
    (inside : h < 2) : WordKept a s (writeRecord s h ut ui cls pending promoted near x) := by
  obtain ⟨t, seq, ws, f, g, four, before, eq⟩ := writeRecord_eq s h ut ui cls pending promoted near x
  have lost : WordKept a s t := by
    obtain rfl | rfl := before
    · exact .refl
    · exact .bumpF (apart.total h inside)
  have counted : WordKept a s (updHalf (putF (logEntry t h seq ws) F.DEV_ELOG_STAT_TOTAL 0 seq h) h f) :=
    (lost.trans ((wordKept_logEntry apart inside four).trans (.putF (apart.total h inside)))).thenHalf
  rw [eq]
  exact (counted.trans (.ite (fun _ => .refl) fun _ => .of_mg (updUnit_mg ..))).trans .raiseEvent

theorem pins_writeRecord {h ut ui cls : Nat} {pending promoted near : Bool} {x : Cause} :
    (writeRecord s h ut ui cls pending promoted near x).pins = s.pins := by
  obtain ⟨t, seq, ws, f, g, -, before, eq⟩ := writeRecord_eq s h ut ui cls pending promoted near x
  have lost : t.pins = s.pins := by
    obtain rfl | rfl := before <;> rfl
  have counted : (updHalf (putF (logEntry t h seq ws) F.DEV_ELOG_STAT_TOTAL 0 seq h) h f).pins = s.pins := by
    rw [updHalf_pins, putF_pins, pins_logEntry, lost]
  rw [eq, pins_raiseEvent]
  split
  · exact counted
  · rw [pins_updUnit, counted]

theorem wordKept_plainRecord {a h ut ui cls code detail : Nat} {addr : W64} (apart : LogApart a) (inside : h < 2) :
    WordKept a s (plainRecord s h ut ui cls code addr detail) := wordKept_writeRecord apart inside

/-! FATAL stops (R416, R420). -/

theorem fatalStop_fatal (fatal : isFatal s k = true) (c : Nat) : fatalStop s k c = s := if_pos fatal

/-- A stop ends with FATAL set, the state SERVICE and a record. -/
theorem fatalStop_stops (canon : s.Canon) (not : isFatal s k = false) (c : Nat) : ∃ u : State, u.Canon ∧ u.pins.faultLow.contains k = true ∧
    fatalStop s k c = plainRecord (setHalfState (putF u F.DEV_HALF_FATAL 0 1 k) k hsService) k utHalf k clFatal 0x0012 0 c := by
  unfold fatalStop
  rw [if_neg (by simp [not])]
  extract_lets left src cleared x zero lom holder p first marked
  have hleft : Keeps s left := keeps_leaveRunning (keeps_loseAccesses .refl)
  have hclear : Keeps s src := keeps_clearHalf hleft
  have canonCleared : cleared.Canon := by
    obtain ⟨mg, hbm, cores, ctl, -⟩ := hclear.2 canon
    exact ⟨mg, hbm, cores, ctl, mwf_mdrop (p := fun j => linkHalf j == k && j != lomKey k) (hleft.2 canon).links⟩
  have hholder : Keeps cleared holder := keeps_setHalf .refl
  have canonMarked : marked.Canon := (keeps_mk hholder).2 canonCleared
  refine ⟨marked, canonMarked, ?_, rfl⟩
  change (if p.faultLow.contains k then p.faultLow else p.faultLow ++ [k]).contains k = true
  split
  · assumption
  · simp

theorem fatalStop_shows (canon : s.Canon) (inside : k < 2) (not : isFatal s k = false) (c : Nat) :
    isFatal (fatalStop s k c) k = true ∧ halfState (fatalStop s k c) k = hsService ∧
      (fatalStop s k c).pins.faultLow.contains k = true := by
  obtain ⟨u, canonU, fault, eq⟩ := fatalStop_stops canon not c
  have w := regs_rising canonU.mg
  have wf : Rising (putF u F.DEV_HALF_FATAL 0 1 k).mg := rising_putF w ..
  have ws : Rising (setHalfState (putF u F.DEV_HALF_FATAL 0 1 k) k hsService).mg := by
    rw [setHalfState, raiseEvent_mg]
    exact rising_putF wf ..
  obtain ⟨state, fatal⟩ := halfState_of_kept (wordKept_plainRecord (s := setHalfState (putF u F.DEV_HALF_FATAL 0 1 k) k hsService)
    (ut := utHalf) (ui := k) (cls := clFatal) (code := 0x0012) (addr := 0) (detail := c) (logApart_devHalf inside) inside) ws
  have event : WordKept (regAddr .devHalf 0 k) (putF (putF u F.DEV_HALF_FATAL 0 1 k) F.DEV_HALF_STATE 0 hsService k)
      (setHalfState (putF u F.DEV_HALF_FATAL 0 1 k) k hsService) := .raiseEvent
  obtain ⟨state', fatal'⟩ := halfState_of_kept event (rising_putF wf ..)
  rw [eq, state, fatal, state', fatal']
  refine ⟨?_, getF_putF_same wf F.DEV_HALF_STATE (by decide), ?_⟩
  · rw [isFatal, getF_putF_beside wf F.DEV_HALF_STATE F.DEV_HALF_FATAL (by decide), getF_putF_same w F.DEV_HALF_FATAL (by decide)]
    rfl
  · rw [plainRecord, pins_writeRecord, setHalfState, pins_raiseEvent]
    exact fault

/-- A half held in reset is OFF. -/
theorem holdReset_shows (canon : s.Canon) (inside : k < 2) :
    halfState (holdReset s k) k = hsOff ∧ isFatal (holdReset s k) k = false := by
  have erased : (eraseHalf (leaveRunning (loseAccesses s k) k) k).Canon :=
    (keeps_eraseHalf (keeps_leaveRunning (keeps_loseAccesses .refl))).2 canon
  have we := regs_rising erased.mg
  obtain ⟨state, fatal⟩ := halfState_written (k := k) we hsOff
  obtain ⟨state', fatal'⟩ := halfState_of_kept (k := k) (t := holdReset s k)
    (wordKept_domains (s := stopHalf s k) fun n mem =>
      regAddr_ne_domstat (by decide) (by decide) inside (halfDomains_lt (List.mem_filter.1 mem).1)).2 (rising_putF (rising_putF we ..) ..)
  exact ⟨state'.trans state, fatal'.trans fatal⟩

/-! Ramps (R458, R460). -/

/-- What a domain that has come on starts with. -/
def rampedOn (s : State) (n : Nat) : State :=
  if 112 ≤ n ∧ n < 144 then (rangeFrom (32 * (n - 112)) 32).foldl (fun s ch => putF s F.HBM_CHST_STATE ch 3) s
  else if n < 104 ∧ n % 13 < 8 then placeRow s (8 * (n / 13) + n % 13)
  else s

/-- A domain on, out of those that ramp up. -/
def rampDone (s : State) (n : Nat) : State := setDomain { s with ramp := s.ramp.filter (· != n) } n true

theorem execDomainRampDone_late {n : BitVec 8} (not : n.toNat ∉ (s.ramp.filter fun m => domHalf m == domHalf n.toNat).take 8) :
    execDomainRampDone n s = .next s :=
  congrArg Host.Outcome.next (if_pos (by simpa using not))

theorem execDomainRampDone_due {n : BitVec 8} (due : n.toNat ∈ (s.ramp.filter fun m => domHalf m == domHalf n.toNat).take 8) :
    execDomainRampDone n s = .next (rampedOn (rampDone s n.toNat) n.toNat) :=
  congrArg Host.Outcome.next (if_neg (by simpa using due))

theorem onlyRegs_putF {f : Fld} {i v j : Nat} : OnlyRegs s (putF s f i v j) := rfl

theorem onlyRegs_placeRow (r : Nat) : OnlyRegs s (placeRow s r) := by
  unfold placeRow placePaced
  split
  · split
    · exact onlyRegs_putF
    · exact onlyRegs_putF.trans onlyRegs_putF
  · exact onlyRegs_putF

theorem onlyRegs_rampedOn : OnlyRegs s (rampedOn s n) := by
  unfold rampedOn
  split
  · exact .foldl fun _ _ => onlyRegs_putF
  · split
    · exact onlyRegs_placeRow _
    · exact .refl

theorem wordKept_placeRow {a r : Nat} (pace : a ≠ regAddr .rowPace r 0) (fantail : a ≠ regAddr .rowFantail r 0) :
    WordKept a s (placeRow s r) := by
  unfold placeRow placePaced
  refine .ite (fun _ => .ite (fun _ => .putF pace) fun _ => ?_) fun _ => .putF fantail
  exact (WordKept.putF (f := F.ROW_PACE_PACE_OP) pace).trans (.putF (f := F.ROW_FANTAIL_CUR_OP) fantail)

theorem wordKept_rampedOn (lt : m < 180) : WordKept (regAddr .pwrDomstat 0 (m / 64)) s (rampedOn s n) := by
  have word := domstat_word lt
  refine .ite (fun stack => .foldl fun s ch mem => .putF ?_) fun _ => .ite (fun row => wordKept_placeRow ?_ ?_) fun _ => .refl
  · obtain ⟨x, range, rfl⟩ := List.mem_map.1 mem
    have := List.mem_range.1 range
    exact regAddr_ne_block (by decide) (by decide) word (show 32 * (n - 112) + x < 1024 by omega) (by decide)
  all_goals exact regAddr_ne_block (by decide) (by decide) word (show 8 * (n / 13) + n % 13 < 64 by omega) (by decide)

end Sys2Proof.Machine
end

section
/-! SUPPORT. Power, resets, sensors and calibration: the proofs of their obligations. -/

namespace Sys2Proof.Machine

variable {s t : State} {k : Nat}

/-! Input power (R452, R461). -/

/-- Input is present. -/
def powered (s : State) : State := { s with pins := { s.pins with input := true, pwrGood := true } }

/-- The boot sets of both halves are on. -/
def bootSetsOn (s : State) : State := bootSetOn (bootSetOn (powered s) 0) 1

theorem execPowerUp_absent (off : s.pins.input = false) : execPowerUp s = .next (leaveReset (leaveReset (bootSetsOn s) 0) 1) :=
  congrArg Host.Outcome.next (if_neg (by simp [off]))

theorem onlyRegs_bootSetsOn : OnlyRegs (powered s) (bootSetsOn s) := (onlyRegs_domainsOn _).trans (onlyRegs_domainsOn _)

theorem rising_bootSetsOn (w : Rising s.mg) : Rising (bootSetsOn s).mg :=
  rising_bootSetOn (rising_bootSetOn (s := powered s) w)

theorem onlyRegs_bothLeave : OnlyRegs s (leaveReset (leaveReset s 0) 1) := onlyRegs_leaveReset.trans onlyRegs_leaveReset

/-- What stays outside the part when input is removed. -/
def unpowered (s : State) : State :=
  let x (y : Half) : Half := { halfZero with rst := y.rst, evals := y.evals }
  { State.reset with
    pending := s.pending, h0 := x s.h0, h1 := x s.h1,
    pins := { pinsZero with rstLow := s.pins.rstLow, refLost := s.pins.refLost, tapReset := s.pins.tapReset }, resp := .none,
    late := s.late, asked := s.asked, free := s.free, boots := s.boots + 1 }

theorem rst_unpowered : (half (unpowered s) k).rst = (half s k).rst := by
  unfold half
  split <;> rfl

/-! RST_N and the resets of the halves (R478). -/

/-- RST_N is high. -/
def rstHigh (s : State) : State := { s with pins := { s.pins with rstLow := false } }

/-- The reset input of half k is high. -/
def rstOf (s : State) (k : Nat) (low : Bool) : State := updHalf s k fun x => { x with rst := low }

theorem execRstNRelease_low (low : s.pins.rstLow = true) :
    execRstNRelease s = .next (leaveReset (leaveReset (rstHigh s) 0) 1) :=
  congrArg Host.Outcome.next (if_neg (by simp [low]))

theorem execHalfResetAssert_eq {h : BitVec 1} : execHalfResetAssert h s =
    .next (if s.pins.input then holdReset (rstOf s h.toNat true) h.toNat else rstOf s h.toNat true) := by
  have pins : (rstOf s h.toNat true).pins = s.pins := updHalf_pins ..
  rw [← pins]
  rfl

theorem execHalfResetRelease_low {h : BitVec 1} (low : (half s h.toNat).rst = true) :
    execHalfResetRelease h s = .next (leaveReset (rstOf s h.toNat false) h.toNat) :=
  congrArg Host.Outcome.next (if_neg (by simp [low]))

theorem rst_rstOf (low : Bool) : (half (rstOf s k low) k).rst = low := by rw [rstOf, half_updHalf_self]

/-- Settles O53: releases boot, asserted inputs stop, and a stop shows its state. -/
theorem powerResetsAndStops : Obligations.PowerResetsAndStops := by
  unfold Obligations.PowerResetsAndStops
  refine ⟨?commands, ?stops⟩
  case stops =>
    intro s h c canon k
    exact ⟨fun fatal => fatalStop_fatal fatal c, fun not => fatalStop_shows canon h.isLt not c, holdReset_shows canon h.isLt⟩
  case commands =>
    intro h s canon k
    have w := regs_rising canon.mg
    have inside : k < 2 := h.isLt
    refine ⟨fun off => ⟨?powerUp, ?noInput⟩, fun on => ⟨?poweredAlready, ?removal, ?assert, ?halfAssert⟩,
      fun off => ⟨⟨_, ?quietAssert, rfl⟩, ?quietHalf⟩, fun low on rst => ?release,
      fun high => congrArg Host.Outcome.next (if_pos (by simp [high])), fun low => ?halfRelease, fun high => ?halfHigh, ?ramp⟩
    case powerUp =>
      have same := (onlyRegs_bootSetsOn (s := s)).trans onlyRegs_bothLeave
      refine ⟨_, execPowerUp_absent off, congrArg Pins.input same.pins, congrArg Pins.pwrGood same.pins, fun high rst => ?_⟩
      refine bothLeaveReset (rising_bootSetsOn w) inside ?_
      rw [released, onlyRegs_bootSetsOn.pins, onlyRegs_bootSetsOn.half]
      exact ⟨rfl, high, rst⟩
    case noInput => exact congrArg Host.Outcome.next (if_pos (by simp [off]))
    case poweredAlready => exact congrArg Host.Outcome.next (if_pos on)
    case removal =>
      have eq : exec .inputRemoval s = .next (unpowered s) := congrArg Host.Outcome.next (if_neg (by simp [on]))
      exact ⟨_, eq, rfl, rfl, rfl, rfl, rfl, rfl, rfl, rst_unpowered, rfl⟩
    case assert => exact congrArg Host.Outcome.next (if_neg (by simp [on]))
    case halfAssert => exact execHalfResetAssert_eq.trans (congrArg Host.Outcome.next (if_pos on))
    case quietAssert => exact congrArg Host.Outcome.next (if_pos (by simp [off]))
    case quietHalf => exact execHalfResetAssert_eq.trans (congrArg Host.Outcome.next (if_neg (by simp [off])))
    case release =>
      refine ⟨_, execRstNRelease_low low, congrArg Pins.rstLow (onlyRegs_bothLeave (s := rstHigh s)).pins, ?_⟩
      exact (bothLeaveReset (s := rstHigh s) w inside ⟨on, rfl, rst⟩).1
    case halfRelease =>
      refine ⟨_, execHalfResetRelease_low low, ?_, fun on high => ?_, fun held => ?_⟩
      · rw [onlyRegs_leaveReset.half]
        exact rst_rstOf _
      · refine (leaveReset_boots (rising_updHalf w) inside ⟨?_, ?_, rst_rstOf _⟩).1
        · exact (congrArg Pins.input (updHalf_pins ..)).trans on
        · exact (congrArg Pins.rstLow (updHalf_pins ..)).trans high
      · rw [leaveReset_held (by rw [rstOf, updHalf_pins]; exact held)]
        exact getF_updHalf ..
    case halfHigh => exact congrArg Host.Outcome.next (if_pos (by simp [k, high]))
    case ramp =>
      intro n mine
      refine ⟨execDomainRampDone_late, fun due lt => ⟨_, execDomainRampDone_due due, ?_, ?_⟩⟩
      · have on : domainOn (rampDone s n.toNat) n.toNat = true := domainOn_setDomain_self (s := { s with ramp := _ }) w
        have kept := (wordKept_rampedOn (s := rampDone s n.toNat) (n := n.toNat) lt).reg (rising_setDomain (s := { s with ramp := _ }) w)
        exact (congrArg (fun v : W64 => bit v.toNat (n.toNat % 64)) kept).trans on
      · rw [onlyRegs_rampedOn]
        rfl

/-! Sensors, trips and regulator faults (R454, R467, R469). -/

/-- Rows and channels of a half are rows and channels of the part. -/
theorem row_lt {r : Nat} (inside : k < 2) (lt : r < 32) : 32 * k + r < blockCount .row := by
  change _ < 64
  omega

/-- The registers of one row. -/
def showRow (s : State) (k : Nat) (e : Nat × Nat) : State :=
  if domainOn s (domRow e.2) ∧ e.2 < 32 * k + 32 then
    putF (putF s F.ROW_FANTAIL_TJ e.2 (min 255 e.1)) F.ROW_FANTAIL_HOT e.2 (if 95 ≤ e.1 then 1 else 0)
  else s

/-- The channels of one stack. -/
def showStack (s : State) (k : Nat) (e : Nat × Nat) : State :=
  if e.2 < 16 * k + 16 then
    (rangeFrom (32 * e.2) 32).foldl (fun s ch => putF s F.HBM_CHST_HOT ch (if 85 < e.1 then 1 else 0)) s
  else s

/-- The hottest readings of the half. -/
def showTops (s : State) (k a b c : Nat) : State :=
  putF (putF (putF s F.PWR_STAT_TJ_HOT 0 a k) F.PWR_STAT_TSTACK_HOT 0 b k) F.PWR_STAT_TOPT_HOT 0 c k

theorem readSensors_eq (x : Temps) : ∃ a b c, readSensors s k x =
    showTops ((x.hbm.zipIdx (16 * k)).foldl (fun s e => showStack s k e)
      ((x.rows.zipIdx (32 * k)).foldl (fun s e => showRow s k e) s)) k a b c := ⟨_, _, _, rfl⟩

section
variable {a : Nat}

theorem wordKept_showRow {e : Nat × Nat} (ne : e.2 < 32 * k + 32 → a ≠ regAddr .rowFantail e.2 0) : WordKept a s (showRow s k e) :=
  .ite (fun here => (WordKept.putF (f := F.ROW_FANTAIL_TJ) (ne here.2)).trans (.putF (f := F.ROW_FANTAIL_HOT) (ne here.2)))
    fun _ => .refl

theorem wordKept_showStack {e : Nat × Nat} (ne : ∀ ch, 512 * k ≤ 32 * e.2 → ch < 512 * k + 512 → a ≠ regAddr .hbmChst ch 0)
    (low : 16 * k ≤ e.2) : WordKept a s (showStack s k e) := by
  refine .ite (fun here => .foldl fun s ch mem => .putF (ne ch (by omega) ?_)) fun _ => .refl
  obtain ⟨x, range, rfl⟩ := List.mem_map.1 mem
  have := List.mem_range.1 range
  omega

theorem wordKept_showTops {x y z : Nat} (ne : a ≠ regAddr .pwrStat 0 k) : WordKept a s (showTops s k x y z) :=
  ((WordKept.putF (f := F.PWR_STAT_TJ_HOT) ne).trans (.putF (f := F.PWR_STAT_TSTACK_HOT) ne)).trans (.putF (f := F.PWR_STAT_TOPT_HOT) ne)

end

/-- What a row shows of a reading. -/
def rowShows (s : State) (r x : Nat) : Prop :=
  getF s F.ROW_FANTAIL_TJ r = min 255 x ∧ (getF s F.ROW_FANTAIL_HOT r = 1 ↔ 95 ≤ x)

theorem rowShows_of_kept {r x : Nat} (kept : WordKept (regAddr .rowFantail r 0) s t) (w : Rising s.mg) (shown : rowShows s r x) :
    rowShows t r x := by
  rw [rowShows, WordKept.getF (f := F.ROW_FANTAIL_TJ) kept w, WordKept.getF (f := F.ROW_FANTAIL_HOT) kept w]
  exact shown

theorem rowShows_showRow {r x : Nat} (w : Rising s.mg) (on : domainOn s (domRow r) = true) (lt : r < 32 * k + 32) :
    rowShows (showRow s k (x, r)) r x := by
  have set : showRow s k (x, r) = putF (putF s F.ROW_FANTAIL_TJ r (min 255 x)) F.ROW_FANTAIL_HOT r (if 95 ≤ x then 1 else 0) :=
    if_pos ⟨on, lt⟩
  have w1 := rising_putF w F.ROW_FANTAIL_TJ r (min 255 x) 0
  rw [set, rowShows, getF_putF_beside w1 F.ROW_FANTAIL_HOT F.ROW_FANTAIL_TJ (by decide),
    getF_putF_same w F.ROW_FANTAIL_TJ (by decide), getF_putF_same w1 F.ROW_FANTAIL_HOT (by decide)]
  refine ⟨Nat.mod_eq_of_lt (show min 255 x < 2 ^ 8 by omega), ?_⟩
  split <;> simp [*]

/-- The readings of the rows from r0: row r0 + j shows reading j. -/
theorem rowShows_foldl {xs : List Nat} {r0 j : Nat} (w : Rising s.mg) (inside : k < 2) (lt : j < xs.length)
    (here : r0 + j < 32 * k + 32) (on : domainOn s (domRow (r0 + j)) = true) :
    rowShows ((xs.zipIdx r0).foldl (fun s e => showRow s k e) s) (r0 + j) (xs.getD j 0) := by
  induction xs generalizing s r0 j with
  | nil => exact absurd lt (Nat.not_lt_zero _)
  | cons x xs ih =>
    have apart (r r' : Nat) (bound : r < 64) (bound' : r' < 64) (ne : r ≠ r') : regAddr .rowFantail r 0 ≠ regAddr .rowFantail r' 0 :=
      regAddr_ne bound (by decide) bound' (by decide) (.inr (.inl ne))
    have first : WordKept (regAddr .pwrDomstat 0 (domRow (r0 + j) / 64)) s (showRow s k (x, r0)) := by
      refine wordKept_showRow fun inside' => regAddr_ne_block (by decide) (by decide) ?_ ?_ (by decide)
      · exact domstat_word (by rw [domRow]; omega)
      · change r0 < 64
        change r0 < 32 * k + 32 at inside'
        omega
    have w1 : Rising (showRow s k (x, r0)).mg := (first w).1
    rw [List.zipIdx_cons, List.foldl_cons]
    cases j with
    | zero =>
      refine rowShows_of_kept (.foldl fun t e mem => wordKept_showRow fun bound => ?_) w1 (rowShows_showRow w on here)
      have := List.le_snd_of_mem_zipIdx mem
      exact apart _ _ (by omega) (by omega) (by omega)
    | succ j =>
      rw [show r0 + (j + 1) = r0 + 1 + j by omega] at here on ⊢
      rw [List.getD_cons_succ]
      refine ih w1 (Nat.lt_of_succ_lt_succ lt) here ?_
      rw [show r0 + (j + 1) = r0 + 1 + j by omega] at first
      exact (congrArg (fun v : W64 => bit v.toNat (domRow (r0 + 1 + j) % 64)) (first.reg w)).trans on

theorem rising_showRow (w : Rising s.mg) {e : Nat × Nat} : Rising (showRow s k e).mg := by
  unfold showRow
  split
  · exact rising_putF (rising_putF w ..) ..
  · exact w

/-- Every row of the half that is on shows its reading. -/
theorem rowShows_readSensors {x : Temps} {r : Nat} (w : Rising s.mg) (inside : k < 2) (row : r < 32) (lt : r < x.rows.length)
    (on : domainOn s (domRow (32 * k + r)) = true) : rowShows (readSensors s k x) (32 * k + r) (x.rows.getD r 0) := by
  obtain ⟨a, b, c, eq⟩ := readSensors_eq (s := s) (k := k) x
  have shown := rowShows_foldl w inside lt (show 32 * k + r < 32 * k + 32 by omega) on
  have w1 : Rising ((x.rows.zipIdx (32 * k)).foldl (fun s e => showRow s k e) s).mg :=
    List.foldlRecOn (motive := fun s : State => Rising s.mg) _ _ w fun _ w _ _ => rising_showRow w
  have channels : WordKept (regAddr .rowFantail (32 * k + r) 0) ((x.rows.zipIdx (32 * k)).foldl (fun s e => showRow s k e) s)
      ((x.hbm.zipIdx (16 * k)).foldl (fun s e => showStack s k e) ((x.rows.zipIdx (32 * k)).foldl (fun s e => showRow s k e) s)) :=
    .foldl fun s e mem => wordKept_showStack (fun ch _ high =>
      regAddr_ne_block (by decide) (row_lt inside row) (by decide) (show ch < 1024 by omega) (by decide)) (List.le_snd_of_mem_zipIdx mem)
  rw [eq]
  refine rowShows_of_kept (channels.trans (wordKept_showTops ?_)) w1 shown
  exact regAddr_ne_block (by decide) (row_lt inside row) (by decide) (by decide) inside

theorem die_iff {ui : BitVec 16} {c : BitVec 16} (inside : k < 2) (small : c.toNat ≤ 128) :
    (ui == c + BitVec.ofNat 16 k) = true ↔ ui.toNat = c.toNat + k := by
  have sum : (c + BitVec.ofNat 16 k).toNat = c.toNat + k := by
    rw [BitVec.toNat_add, BitVec.toNat_ofNat]
    omega
  rw [beq_iff_eq, ← BitVec.toNat_inj, sum]

/-- A trip on the control die or the trust die of half k. -/
def ownTrip (k : Nat) (ut : BitVec 8) (ui : BitVec 16) : Bool :=
  ut.toNat == utDie && ((ui == 64 + BitVec.ofNat 16 k) || (ui == 128 + BitVec.ofNat 16 k))

theorem ownTrip_iff {ut : BitVec 8} {ui : BitVec 16} (inside : k < 2) :
    ownTrip k ut ui = true ↔ ut.toNat = utDie ∧ (ui.toNat = 64 + k ∨ ui.toNat = 128 + k) := by
  rw [ownTrip, Bool.and_eq_true, Bool.or_eq_true, die_iff inside (by decide), die_iff inside (by decide), beq_iff_eq]
  rfl

/-- Domains that a trip leaves on. -/
def tripKeeps (k : Nat) (ut : BitVec 8) (ui : BitVec 16) : List Nat := if ownTrip k ut ui then [] else [domCtl k 0, domTrust k]

theorem mem_tripKeeps {n : Nat} {ut : BitVec 8} {ui : BitVec 16} (inside : k < 2) : n ∈ tripKeeps k ut ui ↔
    ¬ (ut.toNat = utDie ∧ (ui.toNat = 64 + k ∨ ui.toNat = 128 + k)) ∧ (n = domCtl k 0 ∨ n = domTrust k) := by
  rw [tripKeeps, ← ownTrip_iff inside]
  split <;> simp [*]

theorem execThermalTrip_on {h : BitVec 1} {ut : BitVec 8} {ui : BitVec 16} (on : halfState s h.toNat ≠ hsOff) :
    execThermalTrip h ut ui s =
      let u := fatalStop (plainRecord s h.toNat ut.toNat ui.toNat clFatal 0x0011 0 0) h.toNat 0x0011
      .next (feedBridges (domainsOff { u with ramp := u.ramp.filter fun n => domHalf n != some h.toNat }
        ((halfDomains h.toNat).filter fun n => !(tripKeeps h.toNat ut ui).contains n))) :=
  congrArg Host.Outcome.next (if_neg on)

/-- Settles O54: faults and trips by their equations, readings row by row. -/
theorem sensorsTripsAndRegulators : Obligations.SensorsTripsAndRegulators := by
  unfold Obligations.SensorsTripsAndRegulators
  intro h s canon k
  have w := regs_rising canon.mg
  refine ⟨fun die on => congrArg Host.Outcome.next (if_neg (by simp [on])), ?trip,
    fun ut ui off => congrArg Host.Outcome.next (if_pos off), fun x dead => congrArg Host.Outcome.next (if_pos (by simp [k, dead])),
    fun x live => ?hot, fun x live r row lt on => rowShows_readSensors w h.isLt row lt on⟩
  case trip =>
    intro ut ui on own kept u v
    refine ⟨_, execThermalTrip_on on, List.filter_sublist, fun n mem => ?_⟩
    rw [List.mem_filter, Bool.not_eq_true', List.contains_eq_mem, decide_eq_false_iff_not, mem_tripKeeps h.isLt]
    exact and_iff_right mem
  case hot =>
    refine ⟨_, congrArg Host.Outcome.next (if_neg (by simp [k, live])), ?_⟩
    rw [half_updHalf_self]

end Sys2Proof.Machine
end

section
/-! SUPPORT. Calibration (R502-R504, R508), and the proof of its obligation. -/

namespace Sys2Proof.Machine

variable {s t : State} {k a : Nat}

/-! Channel states. -/

theorem regAddr_chst_ne {c d : Nat} (lt : c < 1024) (lt' : d < 1024) (ne : c ≠ d) : regAddr .hbmChst c 0 ≠ regAddr .hbmChst d 0 :=
  regAddr_ne lt (by decide) lt' (by decide) (.inr (.inl ne))

/-- The states of the channels of a list. -/
def setStates (s : State) (xs : List Nat) (v : Nat → Nat) : State := xs.foldl (fun s ch => putF s F.HBM_CHST_STATE ch (v ch)) s

theorem state_setStates {xs : List Nat} {v : Nat → Nat} {c : Nat} (w : Rising s.mg) (chans : ∀ d ∈ xs, d < 1024) (lt : c < 1024)
    (given : c ∈ xs ∨ getF s F.HBM_CHST_STATE c = v c % 2 ^ 2) : getF (setStates s xs v) F.HBM_CHST_STATE c = v c % 2 ^ 2 := by
  induction xs generalizing s with
  | nil => exact given.resolve_left List.not_mem_nil
  | cons d xs ih =>
    refine ih (s := putF s F.HBM_CHST_STATE d (v d)) (rising_putF w ..) (fun e mem => chans e (List.mem_cons_of_mem d mem)) ?_
    by_cases same : c = d
    · subst same
      exact .inr (getF_putF_same w F.HBM_CHST_STATE (by decide))
    · obtain here | done := given
      · exact .inl ((List.mem_cons.1 here).resolve_left same)
      · refine .inr (Eq.trans ?_ done)
        exact getF_putF_ne w _ _ _ _ (regAddr_chst_ne lt (chans d List.mem_cons_self) same)

theorem wordKept_setStates {xs : List Nat} {v : Nat → Nat} (ne : ∀ d ∈ xs, a ≠ regAddr .hbmChst d 0) :
    WordKept a s (setStates s xs v) := .foldl fun _ d mem => .putF (ne d mem)

theorem rising_setStates (w : Rising s.mg) (xs : List Nat) (v : Nat → Nat) : Rising (setStates s xs v).mg :=
  List.foldlRecOn (motive := fun s : State => Rising s.mg) _ _ w fun _ w _ _ => rising_putF w ..

/-- The channels of half k. -/
theorem mem_halfChannels {c : Nat} : c ∈ rangeFrom (512 * k) 512 ↔ 512 * k ≤ c ∧ c < 512 * k + 512 := by
  rw [rangeFrom, List.mem_map]
  constructor
  · rintro ⟨x, range, rfl⟩
    have := List.mem_range.1 range
    omega
  · rintro ⟨low, high⟩
    exact ⟨c - 512 * k, List.mem_range.2 (by omega), by omega⟩

theorem halfChannels_lt {c : Nat} (inside : k < 2) (mem : c ∈ rangeFrom (512 * k) 512) : c < 1024 := by
  have := mem_halfChannels.1 mem
  omega

/-! The start (R502). -/

theorem execCalibrationStart_starts {h : BitVec 1} (loaded : halfState s h.toNat = hsLoaded) (sound : isFatal s h.toNat = false)
    (on : s.ramp.any (fun n => domHalf n == some h.toNat) = false) (idle : getF s F.DEV_CAL_STEP 0 h.toNat = 0)
    (early : getF s F.DEV_CAL_DONE 0 h.toNat = 0) : execCalibrationStart h s =
      .next (setStates (putF s F.DEV_CAL_STEP 0 1 h.toNat) (rangeFrom (512 * h.toNat) 512) fun _ => 3) :=
  congrArg Host.Outcome.next (if_neg (by simp [loaded, sound, on, idle, early]))

/-! The end (R503). -/

/-- Word c of the channel states is none of the failed units' records. -/
theorem wordKept_calFail {ut ui step cause : Nat} (apart : LogApart a) (inside : unitHalf ut ui < 2) (unit : ut ≠ utBridge) :
    WordKept a s (calFail s ut ui step cause) := by
  have log : logHalf s ut ui = unitHalf ut ui := if_neg fun both => unit both.1
  refine .trans (wordKept_plainRecord apart ?_) (.of_mg (updUnit_mg ..))
  rwa [log]

theorem wordKept_calFails {ut step : Nat} {xs : List Nat} (apart : LogApart a) (inside : ∀ i ∈ xs, unitHalf ut i < 2)
    (unit : ut ≠ utBridge) : WordKept a s (xs.foldl (fun s i => calFail s ut i step 0) s) :=
  .foldl fun _ i mem => wordKept_calFail apart (inside i mem) unit

/-- The units of a type that the report names in half k. -/
def reported (k ut : Nat) (l : List Nat) : List Nat := (l.filter fun i => unitExists ut i && unitHalf ut i == k).dedup

/-- The channels it names, and those that failed. -/
def reportedChans (k : Nat) (l : List (Nat × Bool)) : List (Nat × Bool) :=
  l.filter fun c => unitExists utChan c.1 && unitHalf utChan c.1 == k

def failedChans (k : Nat) (l : List (Nat × Bool)) : List Nat := ((reportedChans k l).map Prod.fst).dedup

theorem unitHalf_reported {ut i : Nat} {l : List Nat} (mem : i ∈ reported k ut l) : unitHalf ut i = k := by
  have := List.of_mem_filter (List.mem_dedup.1 mem)
  simp only [Bool.and_eq_true, beq_iff_eq] at this
  exact this.2

theorem reportedChans_half {c : Nat × Bool} {l : List (Nat × Bool)} (mem : c ∈ reportedChans k l) :
    unitExists utChan c.1 = true ∧ unitHalf utChan c.1 = k := by
  have := List.of_mem_filter mem
  simpa using this

/-- Soft repairs of the half's channels. -/
def setReps (s : State) (k : Nat) (l : List (Nat × Nat)) : State :=
  l.foldl (fun s e => if unitHalf utChan e.1 = k ∧ e.1 < 1024 then putF s F.HBM_CHST_SOFTREP e.1 e.2 else s) s

/-- Keys in the base dies, zeros in the tile memories. -/
def loadedKeys (s : State) (k : Nat) (bases : List Nat) : State :=
  zeroTiles (((rangeFrom (16 * k) 16).filter (!bases.contains ·)).foldl loadKey s) k

/-- The records of the failed units. -/
def failedUnits (s : State) (k : Nat) (r : CalReport) : State :=
  let s := (reported k utBase r.keyLoad).foldl (fun s i => calFail s utBase i 1 0) s
  let s := (reported k utRow r.rows).foldl (fun s i => calFail s utRow i 2 0) s
  let s := (reported k utSlot r.slots).foldl (fun s i => calFail s utSlot i 2 0) s
  let s := (reportedChans k r.chans).foldl (fun s c => calFail s utChan c.1 3 (if c.2 then 1 else 0)) s
  let s := (reported k utDlink r.dlinks).foldl (fun s i => calFail s utDlink i 4 0) s
  (reported k utOptic r.optics).foldl (fun s i => calFail s utOptic i 5 0) s

/-- DEV_CAL with its counts, DONE and step 5. -/
def calShown (s : State) (k slots chans oes dlinks rows : Nat) : State :=
  let s := putF (putF s F.DEV_CAL_SLOTS_FAILED 0 slots k) F.DEV_CAL_CH_FAILED 0 chans k
  let s := putF s F.DEV_CAL_OE_FAILED 0 oes k
  let s := putF (putF s F.DEV_CAL_DLINK_FAILED 0 dlinks k) F.DEV_CAL_ROWS_FAILED 0 rows k
  putF (putF s F.DEV_CAL_DONE 0 1 k) F.DEV_CAL_STEP 0 5 k

/-- What calibration leaves before its report. -/
def calibrated (s : State) (k : Nat) (r : CalReport) : State :=
  measureRates (failedUnits (loadedKeys (setReps
    (setStates s (rangeFrom (512 * k) 512) fun ch => if (failedChans k r.chans).contains ch then 1 else 2) k r.softrep) k
    (reported k utBase r.keyLoad)) k r) k

theorem execCalibrationDone_ends {h : BitVec 1} {r : CalReport} (loaded : halfState s h.toNat = hsLoaded)
    (sound : isFatal s h.toNat = false) (run : getF s F.DEV_CAL_STEP 0 h.toNat ≠ 0) (early : getF s F.DEV_CAL_DONE 0 h.toNat = 0) :
    ∃ slots oes dlinks rows, execCalibrationDone h r s =
      .next (calShown (calibrated s h.toNat r) h.toNat slots (failedChans h.toNat r.chans).length oes dlinks rows) :=
  ⟨_, _, _, _, congrArg Host.Outcome.next (if_neg (by simp [loaded, sound, run, early]))⟩

theorem mg_zeroTiles : (zeroTiles s k).mg = s.mg :=
  List.foldlRecOn (motive := fun t : State => t.mg = s.mg) _ _ rfl fun _ same _ _ => same

theorem mg_loadKey (n : Nat) : (loadKey s n).mg = s.mg := by
  unfold loadKey
  split
  · exact updHalf_mg ..
  · rfl

theorem wordKept_loadedKeys {bases : List Nat} : WordKept a s (loadedKeys s k bases) :=
  .trans (.foldl fun _ _ _ => .of_mg (mg_loadKey _)) (.of_mg mg_zeroTiles)

theorem wordKept_failedUnits {r : CalReport} (apart : LogApart a) (inside : k < 2) : WordKept a s (failedUnits s k r) := by
  have mine {ut : Nat} {l : List Nat} : ∀ i ∈ reported k ut l, unitHalf ut i < 2 := fun i mem => by rwa [unitHalf_reported mem]
  unfold failedUnits
  extract_lets base rows slots chans dlinks
  have hbase : WordKept a s base := wordKept_calFails apart mine (by decide)
  have hrows : WordKept a base rows := wordKept_calFails apart mine (by decide)
  have hslots : WordKept a rows slots := wordKept_calFails apart mine (by decide)
  have hchans : WordKept a slots chans :=
    .foldl fun _ c mem => wordKept_calFail apart (by rwa [(reportedChans_half mem).2]) (by decide)
  have hdlinks : WordKept a chans dlinks := wordKept_calFails apart mine (by decide)
  exact hbase.trans (hrows.trans (hslots.trans (hchans.trans (hdlinks.trans (wordKept_calFails apart mine (by decide))))))

/-- A soft repair leaves the states. -/
theorem state_setReps {c : Nat} {l : List (Nat × Nat)} (w : Rising s.mg) (lt : c < 1024) :
    Rising (setReps s k l).mg ∧ getF (setReps s k l) F.HBM_CHST_STATE c = getF s F.HBM_CHST_STATE c := by
  refine List.foldlRecOn (motive := fun t : State => Rising t.mg ∧ getF t F.HBM_CHST_STATE c = getF s F.HBM_CHST_STATE c) _ _
    ⟨w, rfl⟩ ?_
  rintro t ⟨wt, same⟩ e _
  split
  · refine ⟨rising_putF wt .., Eq.trans ?_ same⟩
    by_cases here : c = e.1
    · rw [here]
      exact getF_putF_beside wt F.HBM_CHST_SOFTREP F.HBM_CHST_STATE (by decide)
    · exact getF_putF_ne wt _ _ _ _ (regAddr_chst_ne lt (by tauto) here)
  · exact ⟨wt, same⟩

theorem wordKept_calibrated_tail {r : CalReport} {c : Nat} (inside : k < 2) (lt : c < 1024) (bases : List Nat) :
    WordKept (regAddr .hbmChst c 0) s (measureRates (failedUnits (loadedKeys s k bases) k r) k) := by
  have apart : LogApart (regAddr .hbmChst c 0) := logApart_of_block (by decide) lt (by decide)
  refine (wordKept_loadedKeys.trans (wordKept_failedUnits apart inside)).trans (.foldl fun s x mem => ?_)
  exact .trans (t := (fresh s).2) (.of_mg rfl) (.putF (f := F.ROW_FANTAIL_MEAS_RATE)
    (regAddr_ne_block (by decide) lt (by decide) (halfRows_lt inside mem) (by decide)))

theorem state_calibrated {r : CalReport} {c : Nat} (w : Rising s.mg) (inside : k < 2) (lt : c < 512) :
    Rising (calibrated s k r).mg ∧ getF (calibrated s k r) F.HBM_CHST_STATE (512 * k + c) =
      if (failedChans k r.chans).contains (512 * k + c) then 1 else 2 := by
  have bound : 512 * k + c < 1024 := by omega
  have set := state_setStates (v := fun ch => if (failedChans k r.chans).contains ch then 1 else 2) w
    (fun d mem => halfChannels_lt inside mem) bound (.inl (mem_halfChannels.2 ⟨by omega, by omega⟩))
  obtain ⟨wr, reps⟩ := state_setReps (k := k) (l := r.softrep) (rising_setStates w (rangeFrom (512 * k) 512)
    fun ch => if (failedChans k r.chans).contains ch then 1 else 2) bound
  have tail := wordKept_calibrated_tail (r := r) inside bound (reported k utBase r.keyLoad) (s := setReps (setStates s (rangeFrom (512 * k) 512)
    fun ch => if (failedChans k r.chans).contains ch then 1 else 2) k r.softrep)
  refine ⟨(tail wr).1, (WordKept.getF (f := F.HBM_CHST_STATE) tail wr).trans (reps.trans (set.trans ?_))⟩
  split <;> rfl

/-- No more channels fail than the half has. -/
theorem length_failedChans (l : List (Nat × Bool)) : (failedChans k l).length ≤ 512 := by
  have within : failedChans k l ⊆ rangeFrom (512 * k) 512 := by
    intro c mem
    obtain ⟨e, named, rfl⟩ := List.mem_map.1 (List.mem_dedup.1 mem)
    obtain ⟨-, half⟩ := reportedChans_half named
    change e.1 / 512 = k at half
    exact mem_halfChannels.2 ⟨by omega, by omega⟩
  have := (List.subperm_of_subset (List.nodup_dedup _) within).length_le
  rwa [rangeFrom, List.length_map, List.length_range] at this

section
variable {x y z v u : Nat}

theorem wordKept_calShown (ne : a ≠ regAddr .devCal 0 k) : WordKept a s (calShown s k x y z v u) := by
  unfold calShown
  extract_lets b c d
  have hb : WordKept a s b := (WordKept.putF (f := F.DEV_CAL_SLOTS_FAILED) ne).trans (.putF (f := F.DEV_CAL_CH_FAILED) ne)
  have hc : WordKept a b c := .putF ne
  have hd : WordKept a c d := (WordKept.putF (f := F.DEV_CAL_DLINK_FAILED) ne).trans (.putF (f := F.DEV_CAL_ROWS_FAILED) ne)
  exact hb.trans (hc.trans (hd.trans ((WordKept.putF (f := F.DEV_CAL_DONE) ne).trans (.putF (f := F.DEV_CAL_STEP) ne))))

theorem fields_calShown (w : Rising s.mg) : getF (calShown s k x y z v u) F.DEV_CAL_DONE 0 k = 1 ∧
    getF (calShown s k x y z v u) F.DEV_CAL_STEP 0 k = 5 ∧ getF (calShown s k x y z v u) F.DEV_CAL_CH_FAILED 0 k = y % 2 ^ 10 := by
  unfold calShown
  extract_lets b c d
  have w1 : Rising (putF s F.DEV_CAL_SLOTS_FAILED 0 x k).mg := rising_putF w ..
  have wb : Rising b.mg := rising_putF w1 ..
  have wc : Rising c.mg := rising_putF wb ..
  have w2 : Rising (putF c F.DEV_CAL_DLINK_FAILED 0 v k).mg := rising_putF wc ..
  have wd : Rising d.mg := rising_putF w2 ..
  have w3 : Rising (putF d F.DEV_CAL_DONE 0 1 k).mg := rising_putF wd ..
  have count : getF d F.DEV_CAL_CH_FAILED 0 k = y % 2 ^ 10 := by
    rw [getF_putF_beside w2 F.DEV_CAL_ROWS_FAILED F.DEV_CAL_CH_FAILED (by decide),
      getF_putF_beside wc F.DEV_CAL_DLINK_FAILED F.DEV_CAL_CH_FAILED (by decide),
      getF_putF_beside wb F.DEV_CAL_OE_FAILED F.DEV_CAL_CH_FAILED (by decide)]
    exact getF_putF_same w1 F.DEV_CAL_CH_FAILED (by decide)
  refine ⟨?_, getF_putF_same w3 F.DEV_CAL_STEP (by decide), ?_⟩
  · rw [getF_putF_beside w3 F.DEV_CAL_STEP F.DEV_CAL_DONE (by decide)]
    exact getF_putF_same wd F.DEV_CAL_DONE (by decide)
  · rw [getF_putF_beside w3 F.DEV_CAL_STEP F.DEV_CAL_CH_FAILED (by decide),
      getF_putF_beside wd F.DEV_CAL_DONE F.DEV_CAL_CH_FAILED (by decide), count]

end

/-- Settles O55: the start and the end by their equations, the states of the channels through what follows them. -/
theorem calibrationReports : Obligations.CalibrationReports := by
  unfold Obligations.CalibrationReports
  intro h s canon loaded sound k
  have w := regs_rising canon.mg
  have inside : k < 2 := h.isLt
  have apart (c : Nat) (lt : c < 1024) : regAddr .hbmChst c 0 ≠ regAddr .devCal 0 k :=
    regAddr_ne_block (by decide) lt (by decide) (by decide) inside
  refine ⟨fun on idle early => ⟨_, execCalibrationStart_starts loaded sound on idle early, ?_, fun c lt => ?_⟩, ?_⟩
  · have kept : WordKept (regAddr .devCal 0 k) (putF s F.DEV_CAL_STEP 0 1 k)
        (setStates (putF s F.DEV_CAL_STEP 0 1 k) (rangeFrom (512 * k) 512) fun _ => 3) :=
      wordKept_setStates fun d mem => (apart d (halfChannels_lt inside mem)).symm
    exact (WordKept.getF (f := F.DEV_CAL_STEP) kept (rising_putF w ..)).trans (getF_putF_same w F.DEV_CAL_STEP (by decide))
  · exact state_setStates (rising_putF w ..) (fun d mem => halfChannels_lt inside mem) (show 512 * k + c < 1024 by omega)
      (.inl (mem_halfChannels.2 ⟨by omega, by omega⟩))
  · intro r run early bad
    obtain ⟨slots, oes, dlinks, rows, eq⟩ := execCalibrationDone_ends (r := r) loaded sound run early
    have wc := (state_calibrated (r := r) w inside (show 0 < 512 by decide)).1
    obtain ⟨done, step, count⟩ := fields_calShown (s := calibrated s k r) (k := k) (x := slots) (y := (failedChans k r.chans).length)
      (z := oes) (v := dlinks) (u := rows) wc
    have few := length_failedChans (k := k) r.chans
    refine ⟨_, eq, done, step, count.trans (Nat.mod_eq_of_lt (by omega)), fun c lt => ?_⟩
    have kept := wordKept_calShown (s := calibrated s k r) (x := slots) (y := (failedChans k r.chans).length)
      (z := oes) (v := dlinks) (u := rows) (apart (512 * k + c) (by omega))
    exact (WordKept.getF (f := F.HBM_CHST_STATE) kept wc).trans (state_calibrated w inside lt).2

end Sys2Proof.Machine
end

section
/-! SUPPORT. Lomly ports and flits (R301-R303, R370-R373, R390), and the proof of their obligation. -/

namespace Sys2Proof.Machine

variable {s t u : State} {k a : Nat}

/-! Flits. -/

/-- A flit that passed its codewords and its tag. -/
def receiveGood (s : State) (l : LinkId) (f : Flit) : State :=
  let k := linkKey l
  let seq := f.seq.toNat
  let s := if f.kind = 2 then countRetry (takeHeader s l f) l seq else takeHeader s l f
  let rx := (getLink s k).rx
  if seq = rx % 65536 then
    let s := updLink s k fun x => inOrder x f
    pump (if f.kind = 0 then deliverFlit s l f else s) k
  else if (rx + 65535 + 65536 - seq) % 65536 < 32768 then pump s k
  else pump (sendNak s l seq) k

theorem execLinkFlitReceive_open {l : LinkId} {f : Flit} (live : linkLive s l = true)
    (sealed : f.session ≠ 0 ∨ ∃ b, l = .seam b) : execLinkFlitReceive l f s = .next (
      if !f.fecOk then afterBadWord (sendNak (countUncorr s l f.seq.toNat) l f.seq.toNat) l
      else if !f.tagOk ∨ !sessionKnown s l f ∨ !typesLegal l f then tagFailure s l f.seq.toNat
      else receiveGood s l f) := by
  refine congrArg Host.Outcome.next (if_neg ?_)
  rw [live]
  cases l with
  | seam b => simp
  | leat h l => simpa using fun zero => absurd zero (sealed.resolve_right fun ⟨_, no⟩ => nomatch no)
  | lomly h p => simpa using fun zero => absurd zero (sealed.resolve_right fun ⟨_, no⟩ => nomatch no)

section
variable {l : LinkId} {f : Flit} (live : linkLive s l = true) (sealed : f.session ≠ 0 ∨ ∃ b, l = .seam b)
include live sealed

theorem receive_badWord (bad : f.fecOk = false) : execLinkFlitReceive l f s =
    .next (afterBadWord (sendNak (countUncorr s l f.seq.toNat) l f.seq.toNat) l) :=
  (execLinkFlitReceive_open live sealed).trans (congrArg Host.Outcome.next (if_pos (by simp [bad])))

theorem receive_badTag (word : f.fecOk = true) (bad : f.tagOk = false ∨ sessionKnown s l f = false ∨ typesLegal l f = false) :
    execLinkFlitReceive l f s = .next (tagFailure s l f.seq.toNat) :=
  (execLinkFlitReceive_open live sealed).trans
    (congrArg Host.Outcome.next ((if_neg (by simp [word])).trans (if_pos (by simpa using bad))))

theorem receive_good (word : f.fecOk = true) (tag : f.tagOk = true) (known : sessionKnown s l f = true)
    (legal : typesLegal l f = true) : execLinkFlitReceive l f s = .next (receiveGood s l f) :=
  (execLinkFlitReceive_open live sealed).trans
    (congrArg Host.Outcome.next ((if_neg (by simp [word])).trans (if_neg (by simp [tag, known, legal]))))

end

theorem execLinkNak_live {l : LinkId} {ack : BitVec 16} (live : linkLive s l = true) (other : ∀ h p, l ≠ .lomly h p) :
    execLinkNak l ack s = .next (pump (countRetry (takeAck s (linkKey l) ack) l ack.toNat) (linkKey l)) := by
  refine congrArg Host.Outcome.next ((if_pos live).trans ?_)
  cases l with
  | seam b => rfl
  | leat h l => rfl
  | lomly h p => exact absurd rfl (other h p)

theorem execLinkNak_lomly {h p : BitVec 1} {ack : BitVec 16} (live : linkLive s (.lomly h p) = true) :
    execLinkNak (.lomly h p) ack s = .next (pump (countRetry (dropOldKeys (takeAck s (lomKey h.toNat) ack) h.toNat)
      (.lomly h p) ack.toNat) (lomKey h.toNat)) :=
  congrArg Host.Outcome.next (if_pos live)

/-! Port states (LOM_STAT). -/

theorem portF_fits (j : Nat) : (portF j).hi < 64 ∧ (portF j).lo ≤ (portF j).hi := by
  unfold portF
  split <;> decide

theorem reg_portF (j : Nat) : (portF j).reg = .lomStat := by
  unfold portF
  split <;> rfl

theorem lomPort_putF_self (w : Rising s.mg) (j v : Nat) : lomPort (putF s (portF j) k v) k j = v % 2 ^ 2 := by
  rw [lomPort, getF_putF_same w _ (portF_fits j)]
  unfold portF
  split <;> rfl

/-- Another field of LOM_STAT. -/
theorem lomPort_putF_beside (w : Rising s.mg) (f : Fld) (j v : Nat)
    (apart : ∀ g ∈ [F.LOM_STAT_P0_STATE, F.LOM_STAT_P1_STATE],
      g.reg = f.reg ∧ f.hi < 64 ∧ f.lo ≤ f.hi ∧ g.lo ≤ g.hi ∧ (f.hi < g.lo ∨ g.hi < f.lo)) :
    lomPort (putF s f k v) k j = lomPort s k j := by
  refine getF_putF_beside w f (portF j) (apart _ ?_)
  unfold portF
  split <;> simp

theorem lomPort_putF_other (w : Rising s.mg) {i j : Nat} (ne : i ≠ j) (lt : i < 2) (lt' : j < 2) (v : Nat) :
    lomPort (putF s (portF j) k v) k i = lomPort s k i := by
  refine getF_putF_beside w (portF j) (portF i) ?_
  obtain ⟨rfl, rfl⟩ | ⟨rfl, rfl⟩ : i = 0 ∧ j = 1 ∨ i = 1 ∧ j = 0 := by omega
  · decide
  · decide

theorem field_putF_port (w : Rising s.mg) (g : Fld) (j v : Nat)
    (apart : ∀ f ∈ [F.LOM_STAT_P0_STATE, F.LOM_STAT_P1_STATE],
      g.reg = f.reg ∧ f.hi < 64 ∧ f.lo ≤ f.hi ∧ g.lo ≤ g.hi ∧ (f.hi < g.lo ∨ g.hi < f.lo)) :
    getF (putF s (portF j) k v) g k = getF s g k := by
  refine getF_putF_beside w (portF j) g (apart _ ?_)
  unfold portF
  split <;> simp

/-- LOM_STAT of half k is kept. -/
abbrev StatKept (k : Nat) (s t : State) : Prop := WordKept (regAddr .lomStat k 0) s t

theorem StatKept.port (kept : StatKept k s t) (w : Rising s.mg) (j : Nat) : lomPort t k j = lomPort s k j := by
  have word := kept.reg w
  rw [lomPort, lomPort, Machine.getF, Machine.getF, reg_portF, word]

theorem StatKept.active (kept : StatKept k s t) (w : Rising s.mg) : lomActive t k = lomActive s k :=
  WordKept.getF (f := F.LOM_STAT_ACTIVE) kept w

/-! Links: the session through what a link sends. -/

theorem session_pumpP (room : Nat) (ps : List (Nat × Packet)) (x : LinkSt) : (pumpP room ps x).session = x.session := by
  induction ps generalizing x with
  | nil => rfl
  | cons p ps ih =>
    rw [pumpP]
    split
    · exact ih _
    · exact ih _

theorem session_pumpL (room : Nat) (ps : List (Nat × LomPkt)) (x : LinkSt) : (pumpL room ps x).session = x.session := by
  induction ps generalizing x with
  | nil => rfl
  | cons p ps ih =>
    rw [pumpL]
    split
    · exact ih _
    · exact ih _

theorem session_sendControl (room : Nat) (x : LinkSt) : (sendControl room x).session = x.session := by
  unfold sendControl
  split
  · rfl
  · split
    · rfl
    · split <;> rfl

/-- LOM_STAT of half k and the session of its link are as before. -/
structure PortKept (k : Nat) (s t : State) : Prop where
  stat : StatKept k s t
  sess : Rising s.links → Rising t.links ∧ (getLink t (lomKey k)).session = (getLink s (lomKey k)).session

theorem PortKept.refl : PortKept k s s := ⟨.refl, fun w => ⟨w, rfl⟩⟩

theorem PortKept.trans (h : PortKept k s t) (g : PortKept k t u) : PortKept k s u := by
  refine ⟨h.stat.trans g.stat, fun w => ?_⟩
  obtain ⟨wt, ht⟩ := h.sess w
  obtain ⟨wu, gt⟩ := g.sess wt
  exact ⟨wu, gt.trans ht⟩

theorem PortKept.foldl {β : Type} {f : State → β → State} {xs : List β} (step : ∀ s x, PortKept k s (f s x)) :
    PortKept k s (xs.foldl f s) := by
  induction xs generalizing s with
  | nil => exact .refl
  | cons x xs ih => exact (step s x).trans ih

theorem PortKept.ite {c : Prop} [Decidable c] (yes : PortKept k s t) (no : PortKept k s u) : PortKept k s (if c then t else u) := by
  split
  · exact yes
  · exact no

/-- The links are as before. -/
theorem PortKept.ofLinks (stat : StatKept k s t) (same : t.links = s.links) : PortKept k s t := by
  refine ⟨stat, fun w => ?_⟩
  rw [getLink, getLink, same]
  exact ⟨w, rfl⟩

theorem PortKept.updHalf {h : Nat} {f : Half → Half} : PortKept k s (updHalf s h f) := .ofLinks .updHalf (updHalf_links ..)

/-- A write of half k's link block beside LOM_STAT. -/
theorem PortKept.putF {f : Fld} {v j : Nat} (apart : (regSpec .lomStat).blk = (regSpec f.reg).blk ∧ wordOff .lomStat 0 ≠ wordOff f.reg j) :
    PortKept k s (putF s f k v j) := .ofLinks (.putF (regAddr_ne_word apart)) rfl

theorem getLink_setLink (w : Rising s.links) (n : Nat) (x : LinkSt) : getLink (setLink s n x) n = x := mget_mset_self w

theorem PortKept.setLink {x : LinkSt} (same : x.session = (getLink s (lomKey k)).session) :
    PortKept k s (setLink s (lomKey k) x) := by
  refine ⟨.of_mg rfl, fun w => ⟨rising_mset w, ?_⟩⟩
  rw [getLink_setLink w, same]

theorem portKept_pump : PortKept k s (pump s (lomKey k)) := by
  unfold pump
  extract_lets x room y z me n
  split
  · exact .refl
  · have high : 128 ≤ lomKey k := Nat.le_add_right ..
    rw [if_pos high]
    refine .setLink ?_
    rw [session_sendControl, session_pumpL]
    exact session_pumpP ..

theorem portKept_lomSend (vc : Nat) (p : LomPkt) : PortKept k s (lomSend s k vc p) := by
  refine .trans ?_ portKept_pump
  exact .setLink rfl

/-! What a change of the active port costs (R390). -/

theorem lomQctl_apart (q : Nat) : (regSpec .lomStat).blk = (regSpec .lomQctl).blk ∧ wordOff .lomStat 0 ≠ wordOff .lomQctl q := by
  refine ⟨rfl, ?_⟩
  simp only [wordOff, regSpec]
  omega

theorem portKept_queueState (q : Nat) : PortKept k s (queueState s k q) := .putF (f := F.LOM_QCTL_STATE) (lomQctl_apart q)

theorem portKept_dmaLeave (d : Dma) (status : Nat) : PortKept k s (dmaLeave s k d status) := by
  unfold dmaLeave
  extract_lets a b c
  have ha : PortKept k s a := .updHalf
  have hb : PortKept k a b := .putF (f := F.LOM_QCTL_DONE) (lomQctl_apart d.q)
  have hc : PortKept k b c := .ite .refl (.putF (f := F.LOM_QCTL_ERR) (lomQctl_apart d.q))
  exact ha.trans (hb.trans (hc.trans ((portKept_lomSend _ _).trans (portKept_queueState _))))

theorem portKept_queueOff (q : Nat) : PortKept k s (queueOff s k q) := by
  unfold queueOff
  extract_lets mine a b
  have ha : PortKept k s a := .foldl fun _ d => portKept_dmaLeave d _
  have hb : PortKept k a b := .updHalf
  refine .ite .refl (ha.trans (hb.trans (.trans (.putF (f := F.LOM_QCTL_EN) (lomQctl_apart q)) (portKept_queueState q))))

theorem portKept_loseTraffic : PortKept k s (loseTraffic s k) :=
  .trans (t := loseStarted s k) (.trans (.foldl fun _ d => portKept_dmaLeave d _) (.foldl fun _ q => portKept_queueOff q))
    (.setLink rfl)

theorem portKept_raiseEvent (h src code : Nat) (payload : List W64) : PortKept k s (raiseEvent s h src code payload) := by
  unfold raiseEvent
  exact .ite .updHalf .refl

theorem portKept_detectUncorrected (ut ui code : Nat) (addr : W64) (detail : Nat) :
    PortKept k s (detectUncorrected s ut ui code addr detail) := by
  unfold detectUncorrected updUnit setUnit
  exact .updHalf

theorem portKept_forwardCheck (h : Nat) : PortKept k s (forwardCheck s h) := by
  unfold forwardCheck
  extract_lets fwd on
  refine .ite (.ite (.trans (portKept_raiseEvent ..) .updHalf) (.ite .updHalf .refl)) (.ite ?_ .refl)
  exact .trans .updHalf (portKept_raiseEvent ..)

theorem portKept_forwardBoth : PortKept k s (forwardBoth s) := (portKept_forwardCheck 0).trans (portKept_forwardCheck 1)

/-! Ports (R370, R371, R390). -/

theorem execLomlyPortDown_up {h p : BitVec 1} (up : lomPort s h.toNat p.toNat = 2) : execLomlyPortDown h p s =
    .next (detectUncorrected (portGone s h.toNat p.toNat) utOptic (lomEngine s h.toNat p.toNat) 0x0005 0 (64 + p.toNat)) :=
  congrArg Host.Outcome.next (if_neg (not_not.2 up))

/-- The other port takes over. -/
def portSwitched (s : State) (k j : Nat) : State :=
  let s := putF (putF s (portF j) k 0) F.LOM_STAT_ACTIVE k (1 - j)
  let s := putF s F.LOM_STAT_DELAY k ((getLom s k).delays.getD (1 - j) 0)
  let s := resendEvents (loseTraffic (bumpF s F.LOM_CNT_PORTSW k) k) k
  raiseEvent s k evLink 2 []

/-- The port that went DOWN was the last. -/
def linkLost (s : State) (k j : Nat) : State := forwardBoth (endSession (loseTraffic (putF s (portF j) k 0) k) k)

theorem portGone_switches {j : Nat} (w : Rising s.mg) (lt : j < 2) (up : lomPort s k j = 2) (active : lomActive s k = j)
    (spare : lomPort s k (1 - j) = 2) : portGone s k j = portSwitched s k j := by
  rw [portGone, if_neg (not_not.2 up), if_pos active.symm, activeDown, active]
  exact if_pos ((lomPort_putF_other w (by omega) (by omega) lt 0).trans spare)

theorem portGone_ends {j : Nat} (w : Rising s.mg) (lt : j < 2) (up : lomPort s k j = 2) (active : lomActive s k = j)
    (none' : lomPort s k (1 - j) ≠ 2) : portGone s k j = linkLost s k j := by
  rw [portGone, if_neg (not_not.2 up), if_pos active.symm, activeDown, active]
  refine if_neg fun spare => none' ?_
  rwa [lomPort_putF_other w (by omega) (by omega) lt 0] at spare

theorem portSwitched_shows {j : Nat} (w : Rising s.mg) (wl : Rising s.links) (lt : j < 2) :
    Rising (portSwitched s k j).mg ∧ lomActive (portSwitched s k j) k = 1 - j ∧ lomPort (portSwitched s k j) k j = 0 ∧
      Rising (portSwitched s k j).links ∧ (getLink (portSwitched s k j) (lomKey k)).session = (getLink s (lomKey k)).session := by
  unfold portSwitched
  extract_lets a b c
  have w1 : Rising (putF s (portF j) k 0).mg := rising_putF w ..
  have wa : Rising a.mg := rising_putF w1 ..
  have wb : Rising b.mg := rising_putF wa ..
  have rest : PortKept k b (raiseEvent c k evLink 2 []) :=
    .trans (.trans (.trans (.putF (f := F.LOM_CNT_PORTSW) (by decide)) portKept_loseTraffic) .updHalf) (portKept_raiseEvent ..)
  have active : lomActive b k = 1 - j := by
    rw [lomActive, getF_putF_beside wa F.LOM_STAT_DELAY F.LOM_STAT_ACTIVE (by decide), getF_putF_same w1 F.LOM_STAT_ACTIVE (by decide)]
    exact Nat.mod_eq_of_lt (show 1 - j < 2 ^ 1 by omega)
  have down : lomPort b k j = 0 := by
    rw [lomPort_putF_beside wa F.LOM_STAT_DELAY _ _ (by decide), lomPort_putF_beside w1 F.LOM_STAT_ACTIVE _ _ (by decide),
      lomPort_putF_self w, Nat.zero_mod]
  obtain ⟨links, session⟩ := rest.sess wl
  exact ⟨(rest.stat wb).1, (rest.stat.active wb).trans active, (rest.stat.port wb j).trans down, links, session⟩

theorem endSession_shows (w : Rising s.mg) (wl : Rising s.links) : Rising (endSession s k).mg ∧ Rising (endSession s k).links ∧
    (getLink (endSession s k) (lomKey k)).session = 0 ∧ getF (endSession s k) F.LOM_STAT_SSTATE k = 0 := by
  unfold endSession
  extract_lets x kept blank a b c
  have wa : Rising a.links := rising_mset wl
  have zero : (getLink a (lomKey k)).session = 0 := by rw [getLink_setLink wl]; rfl
  have wb : Rising b.mg := rising_updLom (s := a) w _
  have w1 : Rising (putF b F.LOM_STAT_SSTATE k 0).mg := rising_putF wb ..
  have w2 : Rising (putF (putF b F.LOM_STAT_SSTATE k 0) F.LOM_STAT_SESSION k 0).mg := rising_putF w1 ..
  have wc : Rising c.mg := rising_putF w2 ..
  have state : getF c F.LOM_STAT_SSTATE k = 0 := by
    rw [getF_putF_beside w2 F.LOM_STAT_PROFILE F.LOM_STAT_SSTATE (by decide),
      getF_putF_beside w1 F.LOM_STAT_SESSION F.LOM_STAT_SSTATE (by decide)]
    exact getF_putF_same wb F.LOM_STAT_SSTATE (by decide)
  have links : (resendEvents c k).links = a.links := (updHalf_links ..).trans (updHalf_links ..)
  refine ⟨rising_updLom wc _, by rwa [links], ?_, (getF_updLom ..).trans state⟩
  rw [getLink, links]
  exact zero

theorem linkLost_shows {j : Nat} (w : Rising s.mg) (wl : Rising s.links) : Rising (linkLost s k j).mg ∧ Rising (linkLost s k j).links ∧
    (getLink (linkLost s k j) (lomKey k)).session = 0 ∧ getF (linkLost s k j) F.LOM_STAT_SSTATE k = 0 := by
  have w1 : Rising (putF s (portF j) k 0).mg := rising_putF w ..
  have lost : PortKept k (putF s (portF j) k 0) (loseTraffic (putF s (portF j) k 0) k) := portKept_loseTraffic
  obtain ⟨we, wle, zero, state⟩ := endSession_shows (k := k) (lost.stat w1).1 (lost.sess wl).1
  have forwarded : PortKept k _ (linkLost s k j) := portKept_forwardBoth
  obtain ⟨links, session⟩ := forwarded.sess wle
  exact ⟨(forwarded.stat we).1, links, session.trans zero, (WordKept.getF (f := F.LOM_STAT_SSTATE) forwarded.stat we).trans state⟩

/-- A port that comes up. -/
def portRaised (s : State) (k j ns : Nat) : State :=
  updLom (putF s (portF j) k 2) k fun l => { l with delays := l.delays.set j ns }

theorem execLomlyPortUp_near {h p : BitVec 1} {ns : BitVec 8} (on : halfState s h.toNat ≠ hsOff) (clock : s.pins.refLost = false)
    (down : lomPort s h.toNat p.toNat < 2) (lit : domainOn s (domOptic (lomEngine s h.toNat p.toNat)) = true)
    (unit : (getUnit s utOptic (lomEngine s h.toNat p.toNat)).st ≠ 3) (near : ns.toNat ≤ 100) : execLomlyPortUp h p ns s =
      .next (if !lomUp s h.toNat then forwardBoth (putF (putF (portRaised s h.toNat p.toNat ns.toNat) F.LOM_STAT_ACTIVE h.toNat p.toNat)
        F.LOM_STAT_DELAY h.toNat ns.toNat) else portRaised s h.toNat p.toNat ns.toNat) :=
  congrArg Host.Outcome.next ((if_neg (by simp [on, clock, lit, unit]; omega)).trans (if_neg (by omega)))

theorem execLomlyPortUp_far {h p : BitVec 1} {ns : BitVec 8} (on : halfState s h.toNat ≠ hsOff) (clock : s.pins.refLost = false)
    (down : lomPort s h.toNat p.toNat < 2) (lit : domainOn s (domOptic (lomEngine s h.toNat p.toNat)) = true)
    (unit : (getUnit s utOptic (lomEngine s h.toNat p.toNat)).st ≠ 3) (far : 100 < ns.toNat) : ∃ u, execLomlyPortUp h p ns s = .next u ∧
      (u = putF s (portF p.toNat) h.toNat 0 ∨ u = plainRecord (putF s (portF p.toNat) h.toNat 0) h.toNat utOptic
        (lomEngine s h.toNat p.toNat) clLasting 0x000F 0 (64 + p.toNat)) := by
  refine ⟨_, congrArg Host.Outcome.next ((if_neg (by simp [on, clock, lit, unit]; omega)).trans (if_pos far)), ?_⟩
  dsimp only
  split
  · exact .inr rfl
  · exact .inl rfl

theorem rising_portRaised (w : Rising s.mg) (j ns : Nat) : Rising (portRaised s k j ns).mg := rising_updLom (rising_putF w ..) _

theorem lomPort_portRaised (w : Rising s.mg) (j ns : Nat) : lomPort (portRaised s k j ns) k j = 2 :=
  (getF_updLom ..).trans (lomPort_putF_self w j 2)

/-- The first port up is the active one. -/
theorem firstPort_shows {j ns : Nat} (w : Rising s.mg) (lt : j < 2) :
    let t := forwardBoth (putF (putF (portRaised s k j ns) F.LOM_STAT_ACTIVE k j) F.LOM_STAT_DELAY k ns)
    lomPort t k j = 2 ∧ lomActive t k = j := by
  intro t
  have wr : Rising (portRaised s k j ns).mg := rising_portRaised w j ns
  have wa : Rising (putF (portRaised s k j ns) F.LOM_STAT_ACTIVE k j).mg := rising_putF wr ..
  have wd : Rising (putF (putF (portRaised s k j ns) F.LOM_STAT_ACTIVE k j) F.LOM_STAT_DELAY k ns).mg := rising_putF wa ..
  have kept : PortKept k _ t := portKept_forwardBoth
  refine ⟨(kept.stat.port wd j).trans ?_, (kept.stat.active wd).trans ?_⟩
  · rw [lomPort_putF_beside wa F.LOM_STAT_DELAY _ _ (by decide), lomPort_putF_beside wr F.LOM_STAT_ACTIVE _ _ (by decide),
      lomPort_portRaised w]
  · rw [lomActive, getF_putF_beside wa F.LOM_STAT_DELAY F.LOM_STAT_ACTIVE (by decide), getF_putF_same wr F.LOM_STAT_ACTIVE (by decide)]
    exact Nat.mod_eq_of_lt (show j < 2 ^ 1 by omega)

/-- Settles O36: ports by what LOM_STAT shows, flits by the branches of their command. -/
theorem lomlyPortsAndFlits : Obligations.LomlyPortsAndFlits := by
  unfold Obligations.LomlyPortsAndFlits
  refine ⟨?ports, ?flits⟩
  case flits =>
    intro l f s live sealed k seq good t rx
    refine ⟨fun bad => receive_badWord live sealed bad, fun word bad => receive_badTag live sealed word bad, ?_, ?_, ?_,
      fun ack other => execLinkNak_live live other, fun ack h p lomly => ?_⟩
    · rintro ⟨word, tag, known, legal⟩ due u
      exact (receive_good live sealed word tag known legal).trans (congrArg Host.Outcome.next (if_pos due))
    · rintro ⟨word, tag, known, legal⟩ not again
      exact (receive_good live sealed word tag known legal).trans
        (congrArg Host.Outcome.next ((if_neg not).trans (if_pos again)))
    · rintro ⟨word, tag, known, legal⟩ not gap
      exact (receive_good live sealed word tag known legal).trans
        (congrArg Host.Outcome.next ((if_neg not).trans (if_neg gap.not_gt)))
    · subst lomly
      exact execLinkNak_lomly live
  case ports =>
    intro h p ns s canon k j e
    have w := regs_rising canon.mg
    have wl : Rising s.links := (mwf_iff.1 canon.links).1
    have lt : j < 2 := p.isLt
    refine ⟨fun on clock down lit unit => ⟨fun near => ⟨_, execLomlyPortUp_near on clock down lit unit near, ?near⟩, fun far => ?far⟩,
      fun up => execLomlyPortDown_up up, fun up active spare => ⟨_, execLomlyPortDown_up up, ?switch⟩,
      fun up active none' => ⟨_, execLomlyPortDown_up up, ?lost⟩⟩
    case near =>
      by_cases first : lomUp s k = true
      · have after : (if !lomUp s k then forwardBoth (putF (putF (portRaised s k j ns.toNat) F.LOM_STAT_ACTIVE k j)
            F.LOM_STAT_DELAY k ns.toNat) else portRaised s k j ns.toNat) = portRaised s k j ns.toNat := if_neg (by simp [first])
        rw [after]
        exact ⟨lomPort_portRaised w .., fun no => absurd first (by rw [no]; decide)⟩
      · have after : (if !lomUp s k then forwardBoth (putF (putF (portRaised s k j ns.toNat) F.LOM_STAT_ACTIVE k j)
            F.LOM_STAT_DELAY k ns.toNat) else portRaised s k j ns.toNat) = forwardBoth (putF (putF (portRaised s k j ns.toNat)
            F.LOM_STAT_ACTIVE k j) F.LOM_STAT_DELAY k ns.toNat) := if_pos (by simp [first])
        obtain ⟨port, active⟩ := firstPort_shows (k := k) (ns := ns.toNat) w lt
        rw [after]
        refine ⟨port, fun _ => ⟨active, ?_⟩⟩
        rw [lomUp, active, port]
        rfl
    case far =>
      obtain ⟨u, run, rfl | rfl⟩ := execLomlyPortUp_far on clock down lit unit far
      · exact ⟨_, run, lomPort_putF_self w j 0⟩
      · refine ⟨_, run, ?_⟩
        have kept : StatKept k (putF s (portF j) k 0) (plainRecord (putF s (portF j) k 0) k utOptic e clLasting 0x000F 0 (64 + j)) :=
          wordKept_plainRecord (logApart_of_block (by decide) h.isLt (by decide)) h.isLt
        exact (kept.port (rising_putF w ..) j).trans (lomPort_putF_self w j 0)
    case switch =>
      obtain ⟨ws, active', down, links, session⟩ := portSwitched_shows (k := k) w wl lt
      rw [portGone_switches w lt up active spare]
      have kept : PortKept k (portSwitched s k j) (detectUncorrected (portSwitched s k j) utOptic e 0x0005 0 (64 + j)) :=
        portKept_detectUncorrected ..
      exact ⟨(kept.stat.active ws).trans active', (kept.stat.port ws j).trans down, (kept.sess links).2.trans session⟩
    case lost =>
      obtain ⟨ws, links, zero, state⟩ := linkLost_shows (k := k) (j := j) w wl
      rw [portGone_ends w lt up active none']
      have kept : PortKept k (linkLost s k j) (detectUncorrected (linkLost s k j) utOptic e 0x0005 0 (64 + j)) :=
        portKept_detectUncorrected ..
      exact ⟨(kept.sess links).2.trans zero, (WordKept.getF (f := F.LOM_STAT_SSTATE) kept.stat ws).trans state⟩

end Sys2Proof.Machine
end

section
/-! SUPPORT. Answers (R161, R303, R314, R315): what they leave of the state. -/

namespace Sys2Proof.Machine

variable {s t u : State} {k a : Nat}

/-! Words that no answer counts in. -/

/-- A word beside the sluices of links and gateways and the counts of dropped packets. -/
structure AnswerApart (a : Nat) : Prop where
  low : a < halfBase 2
  leat : ∀ h < 2, ∀ j < 32, a ≠ regAddr .leatSluice h j
  gateway : ∀ h < 2, ∀ j < 4, a ≠ regAddr .gwSluice h j
  drop : ∀ h < 2, a ≠ regAddr .leatDrop h 0

/-- Words inside their blocks, in different blocks or at different offsets of one. -/
theorem regAddr_ne_inside {r r' : Reg} {i i' j j' : Nat} (inst : i < blockCount (regSpec r).blk)
    (inside : wordOff r j < blockSize (regSpec r).blk) (inst' : i' < blockCount (regSpec r').blk)
    (inside' : wordOff r' j' < blockSize (regSpec r').blk)
    (apart : (regSpec r).blk ≠ (regSpec r').blk ∨ i ≠ i' ∨ wordOff r j ≠ wordOff r' j') : regAddr r i j ≠ regAddr r' i' j' := by
  intro same
  rw [regAddr_eq, regAddr_eq] at same
  have found := congrArg blockOf same
  rw [blockOf_blockBase inst inside, blockOf_blockBase inst' inside'] at found
  simp only [Option.some.injEq, Prod.mk.injEq] at found
  tauto

/-- The management space of the halves ends with half 1. -/
theorem regAddr_lt_halfBase {r : Reg} {i j : Nat} (inst : i < blockCount (regSpec r).blk)
    (inside : wordOff r j < blockSize (regSpec r).blk) : regAddr r i j < halfBase 2 := by
  rw [regAddr_eq]
  generalize wordOff r j = o at inside
  cases blk : (regSpec r).blk
  all_goals
    rw [blk] at inst inside
    simp only [blockCount, blockSize, blockBase, halfBase] at inst inside ⊢
    omega

theorem leatSluice_inside {j : Nat} (lt : j < 32) : wordOff .leatSluice j < blockSize .leat := by
  simp only [wordOff, regSpec, blockSize]
  omega

theorem answerApart_of_inside {r : Reg} {i j : Nat} (inst : i < blockCount (regSpec r).blk)
    (inside : wordOff r j < blockSize (regSpec r).blk)
    (leat : (regSpec r).blk ≠ .leat ∨ wordOff r j ≠ wordOff .leatDrop 0 ∧ ∀ n < 32, wordOff r j ≠ wordOff .leatSluice n)
    (gateway : (regSpec r).blk ≠ .gw) : AnswerApart (regAddr r i j) where
  low := regAddr_lt_halfBase inst inside
  leat h half n lt := regAddr_ne_inside inst inside (by exact half) (leatSluice_inside lt)
    (leat.imp id fun off => .inr (off.2 n lt))
  gateway h half n lt := regAddr_ne_inside inst inside (by exact half) (wordOff_lt_blockSize lt) (.inl gateway)
  drop h half := regAddr_ne_inside inst inside (by exact half) (by decide) (leat.imp id fun off => .inr off.1)

theorem answerApart_of_block {r : Reg} {i j : Nat} (leat : (regSpec r).blk ≠ .leat) (gateway : (regSpec r).blk ≠ .gw)
    (inst : i < blockCount (regSpec r).blk) (word : j < (regSpec r).count) : AnswerApart (regAddr r i j) :=
  answerApart_of_inside inst (wordOff_lt_blockSize word) (.inl leat) gateway

theorem AnswerApart.ne_drop (apart : AnswerApart a) (h : Nat) : a ≠ regAddr .leatDrop h 0 := by
  by_cases half : h < 2
  · exact apart.drop h half
  · have low := apart.low
    rw [regAddr_eq]
    simp only [halfBase, blockBase, regSpec] at low ⊢
    omega

/-! What an answer leaves. -/

/-- What no answer changes: memory, tiles, programs, pins, and every part of a half but its requests, messages and
descriptors. -/
structure Answered (s t : State) : Prop where
  word : ∀ a, AnswerApart a → WordKept a s t
  half : ∀ (α : Type) (p : Half → α) (k : Nat), (∀ x r, p { x with reqs := r } = p x) → (∀ x m, p { x with msgs := m } = p x) →
    (∀ x d, p { x with lom := { x.lom with dmas := d } } = p x) → HalfKept p k s t
  hbm : t.hbm = s.hbm
  cores : t.cores = s.cores
  pins : t.pins = s.pins
  progs : t.progs = s.progs
  saves : t.saves = s.saves
  resp : t.resp = s.resp
  smears : t.smears = s.smears

theorem Answered.refl : Answered s s := ⟨fun _ _ => .refl, fun _ _ _ _ _ _ => .refl, rfl, rfl, rfl, rfl, rfl, rfl, rfl⟩

theorem Answered.trans (h : Answered s t) (g : Answered t u) : Answered s u :=
  ⟨fun a apart => (h.word a apart).trans (g.word a apart),
    fun α p k reqs msgs dmas => (h.half α p k reqs msgs dmas).trans (g.half α p k reqs msgs dmas),
    g.hbm.trans h.hbm, g.cores.trans h.cores, g.pins.trans h.pins, g.progs.trans h.progs, g.saves.trans h.saves,
    g.resp.trans h.resp, g.smears.trans h.smears⟩

theorem Answered.foldl {β : Type} {f : State → β → State} {xs : List β} (step : ∀ s x, Answered s (f s x)) :
    Answered s (xs.foldl f s) := by
  induction xs generalizing s with
  | nil => exact .refl
  | cons x xs ih => exact (step s x).trans ih

theorem Answered.ite {c : Prop} [Decidable c] (yes : c → Answered s t) (no : ¬ c → Answered s u) : Answered s (if c then t else u) := by
  split
  · exact yes ‹_›
  · exact no ‹_›

theorem Answered.bumpF {f : Fld} {i n j : Nat} (ne : ∀ a, AnswerApart a → a ≠ regAddr f.reg i j) : Answered s (bumpF s f i n j) :=
  ⟨fun a apart => .bumpF (ne a apart), fun _ _ _ _ _ _ => .of_half rfl, rfl, rfl, rfl, rfl, rfl, rfl, rfl⟩

theorem Answered.updHalf {h : Nat} {f : Half → Half}
    (keep : ∀ (α : Type) (p : Half → α), (∀ x r, p { x with reqs := r } = p x) → (∀ x m, p { x with msgs := m } = p x) →
      (∀ x d, p { x with lom := { x.lom with dmas := d } } = p x) → ∀ x, p (f x) = p x) : Answered s (updHalf s h f) :=
  ⟨fun _ _ => .updHalf, fun α p _ reqs msgs dmas => .updHalf (keep α p reqs msgs dmas), updHalf_hbm .., updHalf_cores .., updHalf_pins ..,
    updHalf_progs .., updHalf_saves .., updHalf_resp .., updHalf_smears ..⟩

/-- Links, streams and late answers are not what it speaks of. -/
theorem answered_setLink (n : Nat) (x : LinkSt) : Answered s (setLink s n x) :=
  ⟨fun _ _ => .of_mg rfl, fun _ _ _ _ _ _ => .of_half rfl, rfl, rfl, rfl, rfl, rfl, rfl, rfl⟩

theorem answered_updCtl (p : Proc) (f : Ctl → Ctl) : Answered s (updCtl s p f) :=
  ⟨fun _ _ => .of_mg rfl, fun _ _ _ _ _ _ => .of_half rfl, rfl, rfl, rfl, rfl, rfl, rfl, rfl⟩

theorem answered_late (m : Map Resp) : Answered s { s with late := m } :=
  ⟨fun _ _ => .of_mg rfl, fun _ _ _ _ _ _ => .of_half rfl, rfl, rfl, rfl, rfl, rfl, rfl, rfl⟩

/-! Links. -/

theorem linkEngine_lt (s : State) (h l : Nat) : linkEngine s h l < 16 := by
  unfold linkEngine
  extract_lets e
  have : e < 2 ^ 4 := bits_lt ..
  split <;> omega

theorem answered_countSat {n old new : Nat} (lt : n < 128) : Answered s (countSat s n old new) := by
  unfold countSat
  extract_lets h entered b c
  have half : h < 2 := by
    change n / 64 < 2
    omega
  have hb : Answered s b := .ite (fun _ => .bumpF fun a apart => apart.leat h half _ ?_) fun _ => .refl
  · have hc : Answered b c := .ite (fun _ => .bumpF fun a apart => apart.gateway h half 0 (by decide)) fun _ => .refl
    exact hb.trans (hc.trans (.ite (fun _ => .bumpF fun a apart => apart.gateway h half 2 (by decide)) fun _ => .refl))
  · have := linkEngine_lt s h (n % 64)
    omega

theorem answered_pump (n : Nat) : Answered s (pump s n) := by
  unfold pump
  extract_lets x room y z me m
  refine .ite (fun _ => .refl) fun _ => .ite (fun _ => answered_setLink ..) fun low => ?_
  exact (answered_setLink ..).trans (answered_countSat (by omega))

theorem answered_enqueue (h l : Nat) (p : Packet) : Answered s (enqueue s h l p) := by
  unfold enqueue
  exact (answered_setLink ..).trans (answered_pump _)

theorem answered_sendTo {h node hf : Nat} {p : Packet} {t : State × Nat} (sent : sendTo s h node hf p = some t) : Answered s t.1 := by
  unfold sendTo at sent
  split at sent
  · nomatch sent
  · rw [← Option.some.inj sent]
    exact answered_enqueue ..

theorem answered_respond (h : Nat) (p : Packet) (ptype : BitVec 4) (status : BitVec 8) (edge : Bool) (data : List W64) :
    Answered s (respond s h p ptype status edge data) := by
  unfold respond
  split
  · exact answered_sendTo ‹_›
  · exact .refl

/-! Waiters. -/

theorem answered_dmaAnswer (h id : Nat) (code : BitVec 8) : Answered s (dmaAnswer s h id code) :=
  .updHalf fun _ _ _ _ dmas _ => dmas ..

theorem answered_answerTo (w : Waiter) (code : BitVec 8) (edge : Bool) (data : List W64) : Answered s (answerTo s w code edge data) := by
  cases w with
  | nobody => exact .refl
  | core p => exact .refl
  | own h tag e => exact .refl
  | hoist p id e => exact answered_updCtl p fun c => flightAnswer c id code
  | packet h p => exact .ite (fun _ => answered_respond ..) fun _ => answered_respond ..
  | dma h id => exact answered_dmaAnswer ..
  | memory h n => exact answered_late _

theorem answered_dropReq (h : Nat) (r : LeatReq) : Answered s (dropReq s h r) := .updHalf fun _ _ reqs _ _ _ => reqs ..

theorem answered_answerW (w : Waiter) (code : BitVec 8) (edge : Bool) (data : List W64) : Answered s (answerW s w code edge data) := by
  cases w with
  | own h tag e =>
    rw [answerW]
    split
    · exact (answered_dropReq ..).trans (answered_answerTo ..)
    · exact .bumpF fun a apart => apart.ne_drop h
  | nobody => exact answered_answerTo .nobody code edge data
  | core p => exact answered_answerTo (.core p) code edge data
  | hoist p id e => exact answered_answerTo (.hoist p id e) code edge data
  | packet h p => exact answered_answerTo (.packet h p) code edge data
  | dma h id => exact answered_answerTo (.dma h id) code edge data
  | memory h n => exact answered_answerTo (.memory h n) code edge data

theorem answered_answerAll (ws : List Waiter) (code : BitVec 8) : Answered s (answerAll s ws code) :=
  .foldl fun _ _ => answered_answerW ..

theorem answered_finishW (p : State × Option (BitVec 8)) (who : Waiter) : Answered p.1 (finishW p who) := by
  unfold finishW
  split
  · exact answered_answerW ..
  · exact .refl

/-! A failed link (R316). -/

theorem answered_dropMsg (h id : Nat) : Answered s (dropMsg s h id) := .updHalf fun _ _ _ msgs _ _ => msgs ..

theorem answered_rerouteReq (h : Nat) (r : LeatReq) : Answered s (rerouteReq s h r) := by
  unfold rerouteReq
  extract_lets gone d
  have ends (s : State) : Answered s (gone s) :=
    .trans (.updHalf fun _ _ reqs _ _ _ => reqs ..) (answered_answerW ..)
  refine .ite (fun _ => ends s) fun _ => ?_
  split
  · exact ends s
  · exact (answered_sendTo ‹_›).trans (.updHalf fun _ _ reqs _ _ _ => reqs ..)

theorem answered_rerouteOther (h : Nat) (p : Packet) : Answered s (rerouteOther s h p) := by
  unfold rerouteOther
  extract_lets d
  split
  · exact answered_sendTo ‹_›
  · exact .refl

theorem answered_rerouteBulk (h : Nat) (p : Packet) : Answered s (rerouteBulk s h p) := by
  unfold rerouteBulk
  split
  · exact .refl
  · split
    · exact answered_enqueue ..
    · exact (answered_dropMsg ..).trans (answered_answerW ..)

end Sys2Proof.Machine
end

section
/-! SUPPORT. Jobs, ports, links and sessions of the leat fabric (spec/12), and the proof of their obligation. -/

namespace Sys2Proof.Machine

variable {s t u : State} {k a : Nat} {b : Requester}

/-! Time states and lost links. -/

theorem tellNode_mg (h src code : Nat) (payload : List W64) : (tellNode s h src code payload).mg = s.mg := updHalf_mg ..

theorem WordKept.setTimeState {h v : Nat} {hall : Bool} (ne : a ≠ regAddr .tbStat h 0) : WordKept a s (setTimeState s h hall v) := by
  unfold Machine.setTimeState
  extract_lets f n w
  have stat : f.reg = .tbStat := by
    change (if hall then F.TB_STAT_HALL_STATE else F.TB_STAT_POD_STATE).reg = .tbStat
    split <;> rfl
  refine .ite (fun _ => .refl) fun _ => ?_
  exact .trans (.trans (.putF (by rwa [stat])) .raiseEvent) (.of_mg (tellNode_mg ..))

theorem WordKept.parentLost {h l : Nat} (ne : a ≠ regAddr .tbStat h 0) : WordKept a s (parentLost s h l) := by
  unfold Machine.parentLost
  extract_lets follows pod hall x
  have hx : WordKept a s x := .ite (fun _ => .setTimeState ne) fun _ => .refl
  exact hx.trans (.ite (fun _ => .setTimeState ne) fun _ => .refl)

/-- The time states are settled before the link's packets move. -/
theorem wordKept_linkDown_rest {h l : Nat} (apart : AnswerApart a)
    (peer : ∀ j, 8 * l ≤ j → j < 8 * l + 8 → a ≠ regAddr .secPeer h j) :
    WordKept a (parentLost (setLink s (leatKey h l) linkZero) h l) (linkDown s h l) := by
  unfold linkDown
  extract_lets key x own mine sent bulk transit waiting lost keys words reqs bulks
  have hkeys : WordKept a lost keys := .updHalf
  have hwords : WordKept a keys words := .setWords fun j low high => peer j low (by rwa [List.length_replicate] at high)
  have hreqs : WordKept a words reqs := (Answered.foldl fun _ r => answered_rerouteReq h r).word a apart
  have hbulks : WordKept a reqs bulks := (Answered.foldl fun _ p => answered_rerouteBulk h p).word a apart
  exact hkeys.trans (hwords.trans (hreqs.trans (hbulks.trans
    ((Answered.foldl fun _ p => answered_rerouteOther h p).word a apart))))

theorem wordKept_linkDown {h l : Nat} (apart : AnswerApart a) (time : a ≠ regAddr .tbStat h 0)
    (peer : ∀ j, 8 * l ≤ j → j < 8 * l + 8 → a ≠ regAddr .secPeer h j) : WordKept a s (linkDown s h l) :=
  .trans (t := setLink s (leatKey h l) linkZero) (.of_mg rfl) (.trans (.parentLost time) (wordKept_linkDown_rest apart peer))

/-! Regions (R308, R321). -/

section
variable {v : W64} (pass : gate s b true (regAddr .leatRcommit k 0) = none) (go : bit v.toNat 63 = true)
include pass go

/-- The staging entry. -/
def stageWord (s : State) (k n : Nat) : Nat := (reg s .leatStage k n).toNat

theorem rcommitWrite_refused (bad : ¬ (regionLegal k (stageWord s k) = true ∧
    reuseLegal (regionWord s k (bits v.toNat 10 0)) (stageWord s k) = true)) : rcommitWrite s b k v = denied s b :=
  (guarded_none pass).trans ((if_neg (by simp [go])).trans (if_neg bad))

theorem rcommitWrite_done (good : regionLegal k (stageWord s k) = true ∧
    reuseLegal (regionWord s k (bits v.toNat 10 0)) (stageWord s k) = true) :
    rcommitWrite s b k v = done (putRegion s k (bits v.toNat 10 0) (stageWord s k)) :=
  (guarded_none pass).trans ((if_neg (by simp [go])).trans (if_pos good))

end

/-- The words of a region entry are consecutive. -/
theorem putRegion_eq (i : Nat) (w : Nat → Nat) :
    putRegion s k i w = setWords s .leatRegion k (8 * i) ((List.range 8).map fun n => BitVec.ofNat 64 (w n)) := rfl

theorem regionWord_putRegion_self {i n : Nat} (w : Rising s.mg) (lt : n < 8) (f : Nat → Nat) :
    regionWord (putRegion s k i f) k i n = f n % 2 ^ 64 := by
  have word := reg_setWords (i := k) (j := 8 * i) (x := n) (ws := (List.range 8).map fun n => BitVec.ofNat 64 (f n)) w
    (show 0 < (regSpec .leatRegion).stride by decide) (by simpa using lt)
  rw [regionWord, putRegion_eq, word]
  simp

theorem regionWord_putRegion_ne {i j n : Nat} (w : Rising s.mg) (ne : j ≠ i) (lt : n < 8) (f : Nat → Nat) :
    regionWord (putRegion s k i f) k j n = regionWord s k j n := by
  refine congrArg BitVec.toNat (WordKept.reg ?_ w)
  rw [putRegion_eq]
  refine .setWords fun x low high => regAddr_ne_index ?_ (by decide)
  rw [List.length_map, List.length_range] at high
  omega

theorem regionWord_done (t : State) (i n : Nat) : regionWord (done t) k i n = regionWord t k i n := rfl

/-! Jobs (R312, R320). -/

/-- The fields a written LEAT_JOB word takes. -/
theorem storedWord_leatJob (old v : W64) :
    bits (storedWord .leatJob old v).toNat 47 32 = bits v.toNat 47 32 ∧ bits (storedWord .leatJob old v).toNat 31 0 = bits v.toNat 31 0 ∧
      bits (storedWord .leatJob old v).toNat 63 63 = bits old.toNat 63 63 := by
  have stored : storedWord .leatJob old v =
      setBits (setBits (setBits old 62 62 (bits v.toNat 62 62)) 47 32 (bits v.toNat 47 32)) 31 0 (bits v.toNat 31 0) := rfl
  rw [stored, bits_setBits_ne (by decide) (by decide) (by decide) (by decide), bits_setBits_self (by decide) (by decide),
    bits_setBits_self (by decide) (by decide), bits_setBits_ne (by decide) (by decide) (by decide) (by decide),
    bits_setBits_ne (by decide) (by decide) (by decide) (by decide), bits_setBits_ne (by decide) (by decide) (by decide) (by decide)]
  exact ⟨Nat.mod_eq_of_lt (bits_lt ..), Nat.mod_eq_of_lt (bits_lt ..), rfl⟩

/-- The slot with its word stored. -/
def jobStored (s : State) (k n : Nat) (v : W64) : State :=
  setReg s .leatJob k n (storedWord .leatJob (reg s .leatJob k n) v)

theorem jobWrite_done {n : Nat} {v : W64} (pass : gate s b true (regAddr .leatJob k n) = none) : jobWrite s b k n v =
    done (if getF s F.LEAT_JOB_EPOCH k n = bits v.toNat 47 32 then jobStored s k n v
      else putF (jobStored s k n v) F.LEAT_JOB_DRAINED k 0 n) := guarded_none pass

theorem fields_jobStored {n : Nat} {v : W64} (w : Rising s.mg) :
    getF (jobStored s k n v) F.LEAT_JOB_EPOCH k n = bits v.toNat 47 32 ∧ getF (jobStored s k n v) F.LEAT_JOB_KEY k n = bits v.toNat 31 0 ∧
      getF (jobStored s k n v) F.LEAT_JOB_DRAINED k n = getF s F.LEAT_JOB_DRAINED k n := by
  have word : reg (jobStored s k n v) .leatJob k n = storedWord .leatJob (reg s .leatJob k n) v := reg_setReg_self w ..
  obtain ⟨epoch, key, drained⟩ := storedWord_leatJob (reg s .leatJob k n) v
  exact ⟨(congrArg (fun x : W64 => bits x.toNat 47 32) word).trans epoch, (congrArg (fun x : W64 => bits x.toNat 31 0) word).trans key,
    (congrArg (fun x : W64 => bits x.toNat 63 63) word).trans drained⟩

theorem fields_jobWrite {n : Nat} {v : W64} (w : Rising s.mg) :
    let t := if getF s F.LEAT_JOB_EPOCH k n = bits v.toNat 47 32 then jobStored s k n v
      else putF (jobStored s k n v) F.LEAT_JOB_DRAINED k 0 n
    getF t F.LEAT_JOB_EPOCH k n = bits v.toNat 47 32 ∧ getF t F.LEAT_JOB_KEY k n = bits v.toNat 31 0 ∧
      getF t F.LEAT_JOB_DRAINED k n = if getF s F.LEAT_JOB_EPOCH k n = bits v.toNat 47 32 then getF s F.LEAT_JOB_DRAINED k n else 0 := by
  intro t
  obtain ⟨epoch, key, drained⟩ := fields_jobStored (k := k) (n := n) (v := v) w
  have wj : Rising (jobStored s k n v).mg := rising_setReg w ..
  by_cases same : getF s F.LEAT_JOB_EPOCH k n = bits v.toNat 47 32
  · have after : t = jobStored s k n v := if_pos same
    rw [after, if_pos same]
    exact ⟨epoch, key, drained⟩
  · have after : t = putF (jobStored s k n v) F.LEAT_JOB_DRAINED k 0 n := if_neg same
    rw [after, if_neg same, getF_putF_beside wj F.LEAT_JOB_DRAINED F.LEAT_JOB_EPOCH (by decide),
      getF_putF_beside wj F.LEAT_JOB_DRAINED F.LEAT_JOB_KEY (by decide), getF_putF_same wj F.LEAT_JOB_DRAINED (by decide)]
    exact ⟨epoch, key, rfl⟩

/-! Ports (R299, R300). -/

/-- Eight ports for each of sixteen engine numbers. -/
theorem leatPort_inside {p : Nat} (lt : p < 128) : wordOff .leatPort p < blockSize .leat := by
  simp only [wordOff, regSpec, blockSize]
  omega

theorem answerApart_leatPort {p : Nat} (half : k < 2) (lt : p < 128) : AnswerApart (regAddr .leatPort k p) := by
  refine answerApart_of_inside half (leatPort_inside lt) (.inr ⟨?_, fun n small => ?_⟩) (by decide)
  all_goals
    simp only [wordOff, regSpec]
    omega

theorem logApart_leatPort {p : Nat} (half : k < 2) (lt : p < 128) : LogApart (regAddr .leatPort k p) :=
  ⟨fun _ word => regAddr_ne_inside half (leatPort_inside lt) (by decide) (wordOff_lt_blockSize word) (.inl (by decide)),
    fun _ word => regAddr_ne_inside half (leatPort_inside lt) (by decide) (wordOff_lt_blockSize word) (.inl (by decide))⟩

theorem wordKept_linkDown_port {p l : Nat} (half : k < 2) (lt : p < 128) (link : l < 64) :
    WordKept (regAddr .leatPort k p) s (linkDown s k l) := by
  refine wordKept_linkDown (answerApart_leatPort half lt) ?_ fun j _ high => ?_
  · exact regAddr_ne_inside half (leatPort_inside lt) half (by decide) (.inl (by decide))
  · exact regAddr_ne_inside half (leatPort_inside lt) half (wordOff_lt_blockSize (show j < 512 by omega)) (.inl (by decide))

/-- An UP port is REMOVED. -/
def portRemoved (s : State) (k p lanes : Nat) : State :=
  bumpF (putF (putF s F.LEAT_PORT_STATE k 3 p) F.LEAT_PORT_LANES k lanes p) F.LEAT_PORT_RETRIES k 1 p

/-- Its loss is detected. -/
def removalSeen (s : State) (k p lanes : Nat) : State :=
  detectUncorrected (portRemoved s k p lanes) utOptic (9 * k + p / 8) 0x0005 0 p

theorem execLeatPortRemove_up {h : BitVec 1} {p : BitVec 7} {lanes : BitVec 8} (up : portState s h.toNat p.toNat = 2) :
    execLeatPortRemove h ⟨p, lanes⟩ s = .next (
      if linkUp (removalSeen s h.toNat p.toNat lanes.toNat) h.toNat (getF s F.LEAT_PORT_LINK h.toNat p.toNat)
      then removalSeen s h.toNat p.toNat lanes.toNat
      else linkDown (removalSeen s h.toNat p.toNat lanes.toNat) h.toNat (getF s F.LEAT_PORT_LINK h.toNat p.toNat)) :=
  congrArg Host.Outcome.next (if_neg (not_not.2 up))

theorem fields_portRemoved {p lanes : Nat} (w : Rising s.mg) : Rising (portRemoved s k p lanes).mg ∧
    portState (portRemoved s k p lanes) k p = 3 ∧ getF (portRemoved s k p lanes) F.LEAT_PORT_LANES k p = lanes % 2 ^ 8 := by
  have w1 : Rising (putF s F.LEAT_PORT_STATE k 3 p).mg := rising_putF w ..
  have w2 : Rising (putF (putF s F.LEAT_PORT_STATE k 3 p) F.LEAT_PORT_LANES k lanes p).mg := rising_putF w1 ..
  refine ⟨rising_bumpF w2 .., ?_, ?_⟩
  · rw [portState, portRemoved, bumpF, getF_putF_beside w2 F.LEAT_PORT_RETRIES F.LEAT_PORT_STATE (by decide),
      getF_putF_beside w1 F.LEAT_PORT_LANES F.LEAT_PORT_STATE (by decide)]
    exact getF_putF_same w F.LEAT_PORT_STATE (by decide)
  · rw [portRemoved, bumpF, getF_putF_beside w2 F.LEAT_PORT_RETRIES F.LEAT_PORT_LANES (by decide)]
    exact getF_putF_same w1 F.LEAT_PORT_LANES (by decide)

theorem mg_detectUncorrected (ut ui code : Nat) (addr : W64) (detail : Nat) : (detectUncorrected s ut ui code addr detail).mg = s.mg := by
  unfold detectUncorrected
  exact updUnit_mg ..

theorem wordKept_portRemove {p lanes : Nat} (half : k < 2) (lt : p < 128) :
    WordKept (regAddr .leatPort k p) (portRemoved s k p lanes) (
      if linkUp (removalSeen s k p lanes) k (getF s F.LEAT_PORT_LINK k p) then removalSeen s k p lanes
      else linkDown (removalSeen s k p lanes) k (getF s F.LEAT_PORT_LINK k p)) := by
  have seen : WordKept (regAddr .leatPort k p) (portRemoved s k p lanes) (removalSeen s k p lanes) :=
    .of_mg (mg_detectUncorrected ..)
  have link : getF s F.LEAT_PORT_LINK k p < 2 ^ 6 := bits_lt ..
  exact seen.trans (.ite (fun _ => .refl) fun _ => wordKept_linkDown_port half lt link)

/-- One port as the link's training leaves it. -/
def portTrained (s : State) (k l lanes delay state : Nat) (p : Nat) : State :=
  let s := putF (putF s F.LEAT_PORT_LINK k l p) F.LEAT_PORT_LANES k lanes p
  putF (putF s F.LEAT_PORT_DELAY k delay p) F.LEAT_PORT_STATE k state p

theorem wordKept_portTrained {l lanes delay state p : Nat} (ne : a ≠ regAddr .leatPort k p) :
    WordKept a s (portTrained s k l lanes delay state p) :=
  ((WordKept.putF (f := F.LEAT_PORT_LINK) ne).trans (.putF (f := F.LEAT_PORT_LANES) ne)).trans
    (.trans (.putF (f := F.LEAT_PORT_DELAY) ne) (.putF (f := F.LEAT_PORT_STATE) ne))

theorem rising_portTrained (w : Rising s.mg) (l lanes delay state p : Nat) : Rising (portTrained s k l lanes delay state p).mg :=
  rising_putF (rising_putF (rising_putF (rising_putF w ..) ..) ..) ..

theorem state_portTrained (w : Rising s.mg) (l lanes delay state p : Nat) :
    portState (portTrained s k l lanes delay state p) k p = state % 2 ^ 2 :=
  getF_putF_same (rising_putF (rising_putF (rising_putF w ..) ..) ..) F.LEAT_PORT_STATE (by decide)

/-- Every port of the list has the state. -/
theorem state_portsTrained {l lanes delay state p : Nat} {ps : List Nat} (w : Rising s.mg)
    (given : p ∈ ps ∨ portState s k p = state % 2 ^ 2) :
    Rising (ps.foldl (portTrained · k l lanes delay state) s).mg ∧
      portState (ps.foldl (portTrained · k l lanes delay state) s) k p = state % 2 ^ 2 := by
  induction ps generalizing s with
  | nil => exact ⟨w, given.resolve_left List.not_mem_nil⟩
  | cons q ps ih =>
    refine ih (rising_portTrained w ..) ?_
    by_cases same : p = q
    · subst same
      exact .inr (state_portTrained w ..)
    · obtain here | before := given
      · exact .inl ((List.mem_cons.1 here).resolve_left same)
      · refine .inr (Eq.trans ?_ before)
        exact WordKept.getF (f := F.LEAT_PORT_STATE) (wordKept_portTrained (regAddr_ne_index same (by decide))) w

theorem portsOf_lt {l p : Nat} (mem : p ∈ portsOf s k l) : p < 128 := by
  obtain ⟨i, range, rfl⟩ := List.mem_map.1 mem
  have := List.mem_range.1 (List.mem_filter.1 range).1
  have := linkEngine_lt s k l
  omega

/-- Is the link short enough and of full width? -/
def linkFits (s : State) (k l ns : Nat) (lanes : BitVec 8) : Bool :=
  decide (ns ≤ if bit (reg s .leatLink k l).toNat 51 then 5000 else 100) && lanes == 0xFF

/-- The ports in TRAINING, as they come out of it. -/
def linkTrained (s : State) (k l ns : Nat) (lanes : BitVec 8) : State :=
  ((portsOf s k l).filter fun p => portState s k p == 1).foldl
    (portTrained · k l lanes.toNat (min 255 (ceilDiv ns 32)) (if linkFits s k l ns lanes then 2 else 0)) s

/-- What follows the training of the link. -/
def trainingEnds (s t : State) (k l ns : Nat) (lanes : BitVec 8) : State :=
  if linkFits s k l ns lanes then pump t (leatKey k l)
  else plainRecord t k utOptic (9 * k + bits (reg s .leatLink k l).toNat 63 60) clLasting 0x000F 0 l

theorem wordKept_trainingEnds {p l ns : Nat} {lanes : BitVec 8} (half : k < 2) (lt : p < 128) :
    WordKept (regAddr .leatPort k p) t (trainingEnds s t k l ns lanes) :=
  .ite (fun _ => (answered_pump _).word _ (answerApart_leatPort half lt)) fun _ => wordKept_plainRecord (logApart_leatPort half lt) half

theorem state_linkTrained {p l ns : Nat} {lanes : BitVec 8} (w : Rising s.mg)
    (mem : p ∈ (portsOf s k l).filter fun p => portState s k p == 1) : Rising (linkTrained s k l ns lanes).mg ∧
      portState (linkTrained s k l ns lanes) k p = if linkFits s k l ns lanes = true then 2 else 0 := by
  obtain ⟨wt, state⟩ := state_portsTrained (k := k) (l := l) (lanes := lanes.toNat) (delay := min 255 (ceilDiv ns 32))
    (state := if linkFits s k l ns lanes then 2 else 0) w (.inl mem)
  refine ⟨wt, state.trans ?_⟩
  split <;> rfl

theorem linkFits_iff {l ns : Nat} {lanes : BitVec 8} : linkFits s k l ns lanes = true ↔
    ns ≤ (if bit (reg s .leatLink k l).toNat 51 then 5000 else 100) ∧ lanes = 0xFF := by
  rw [linkFits, Bool.and_eq_true, decide_eq_true_eq, beq_iff_eq]

theorem execLeatLinkTrained_trains {h : BitVec 1} {link : BitVec 6} {ns : Nat} {lanes : BitVec 8} (clock : s.pins.refLost = false)
    (some' : ((portsOf s h.toNat link.toNat).filter fun p => portState s h.toNat p == 1) ≠ []) :
    execLeatLinkTrained h link ns lanes s =
      .next (trainingEnds s (linkTrained s h.toNat link.toNat ns lanes) h.toNat link.toNat ns lanes) :=
  congrArg Host.Outcome.next (if_neg (by simpa [clock, List.isEmpty_iff] using some'))

/-! Sessions (R374, R375, R441). -/

theorem half_countSat (n old new h : Nat) : half (countSat s n old new) h = half s h := by
  unfold countSat
  dsimp only
  split_ifs <;> rfl

theorem half_pump (n h : Nat) : half (pump s n) h = half s h := by
  unfold pump
  dsimp only
  split_ifs
  · rfl
  · rfl
  · exact half_countSat ..

theorem links_countSat (n old new : Nat) : (countSat s n old new).links = s.links := by
  unfold countSat
  dsimp only
  split_ifs <;> rfl

theorem session_pump (w : Rising s.links) (n : Nat) : (getLink (pump s n) n).session = (getLink s n).session := by
  unfold pump
  extract_lets x room y z me m
  have kept : z.session = x.session := by
    rw [show z = _ from rfl, session_sendControl, session_pumpL]
    exact session_pumpP ..
  split_ifs
  · rfl
  · rw [getLink_setLink w, kept]
  · have same : getLink (countSat (setLink s n { z with sat := m }) n z.sat m) n = getLink (setLink s n { z with sat := m }) n :=
      congrArg (mget (fun _ => linkZero) n) (links_countSat ..)
    rw [same, getLink_setLink w]
    exact kept

/-- Two draws and a free value. -/
def sessionDrawn (s : State) (k : Nat) : State := (fresh (draw (draw s k).2 k).2).2

/-- The keys of the session. -/
def sessionKeyed (s : State) (k l : Nat) (keys : BitVec 256 × BitVec 256) (pub : List Byte) : State :=
  setWords (updHalf s k fun x => { x with sec := { x.sec with linkKeys := mput l keys x.sec.linkKeys } }) .secPeer k (8 * l)
    (wordsOf (sha pub))

/-- A link that rekeys, or starts a session. -/
def sessionNext (v : Nat) (x : LinkSt) : LinkSt :=
  if x.session ≠ 0 then { x with session := x.session % (2 ^ 32 - 1) + 1, old := x.session }
  else { linkZero with session := v % (2 ^ 32 - 1) + 1, waitP := x.waitP }

theorem session_sessionNext (v : Nat) (x : LinkSt) : (sessionNext v x).session ≠ 0 := by
  unfold sessionNext
  split
  · exact Nat.succ_ne_zero _
  · exact Nat.succ_ne_zero _

theorem execLeatSessionHandshake_forms {h : BitVec 1} {link : BitVec 6} {nonce eph pub : List Byte}
    (up : linkUp s h.toNat link.toNat = true) (point : Config.onCurve pub = true) (point' : Config.onCurve eph = true)
    (real : s.pins.debugOnly = false) : ∃ keys v, execLeatSessionHandshake h link ⟨nonce, eph, pub⟩ true false s =
      .next (pump (updLink (sessionKeyed (sessionDrawn s h.toNat) h.toNat link.toNat keys pub) (leatKey h.toNat link.toNat)
        (sessionNext v)) (leatKey h.toNat link.toNat)) := by
  have ports : upPorts s h.toNat link.toNat ≠ 0 := by
    simp only [linkUp, Bool.and_eq_true, bne_iff_ne] at up
    exact up.1
  exact ⟨_, _, congrArg Host.Outcome.next (if_neg (by simp [ports, real, point, point']))⟩

theorem half_sessionKeyed (l : Nat) (keys : BitVec 256 × BitVec 256) (pub : List Byte) : (half (sessionKeyed s k l keys pub) k).sec =
    { (half s k).sec with linkKeys := mput l keys (half s k).sec.linkKeys } := by
  unfold sessionKeyed
  rw [half_setWords, half_updHalf_self]

theorem half_updLink (n : Nat) (f : LinkSt → LinkSt) (h : Nat) : half (updLink s n f) h = half s h := rfl

theorem draws_sessionKeyed (l : Nat) (keys : BitVec 256 × BitVec 256) (pub : List Byte) :
    (half (sessionKeyed s k l keys pub) k).sec.draws = (half s k).sec.draws := by rw [half_sessionKeyed]

theorem linkKey_sessionKeyed (l : Nat) (keys : BitVec 256 × BitVec 256) (pub : List Byte) :
    mfind l (half (sessionKeyed s k l keys pub) k).sec.linkKeys = some keys := by
  rw [half_sessionKeyed]
  exact mfind_mput_self

theorem draws_sessionDrawn : (half (sessionDrawn s k) k).sec.draws = (half s k).sec.draws + 2 := by
  have sec : getSec (draw (draw s k).2 k).2 k = _ := sec_draw
  have first := sec_draw (s := s) (k := k)
  change (getSec (draw (draw s k).2 k).2 k).draws = _
  rw [sec, first]
  rfl

theorem links_setWords (r : Reg) (i j : Nat) (ws : List W64) : (setWords s r i j ws).links = s.links := by
  induction ws generalizing s j with
  | nil => rfl
  | cons v ws ih => exact ih ..

theorem links_sessionKeyed (l : Nat) (keys : BitVec 256 × BitVec 256) (pub : List Byte) :
    (sessionKeyed (sessionDrawn s k) k l keys pub).links = s.links :=
  (links_setWords ..).trans ((updHalf_links ..).trans ((updHalf_links ..).trans (updHalf_links ..)))

/-- Settles O39: each command by its equation, a port's word through what follows it. -/
theorem leatJobsAndLinks : Obligations.LeatJobsAndLinks := by
  unfold Obligations.LeatJobsAndLinks
  intro b h s canon k
  have w := regs_rising canon.mg
  have wl : Rising s.links := (mwf_iff.1 canon.links).1
  have inside : k < 2 := h.isLt
  refine ⟨?regions, fun n v pass => ⟨_, congrArg Host.Outcome.next (jobWrite_done pass), resp_done _, ?job⟩,
    fun n => ⟨fun busy => congrArg Host.Outcome.next (if_pos busy), fun idle => ⟨_, congrArg Host.Outcome.next (if_neg (by simp [k, idle])), ?drained⟩⟩,
    fun p lanes lt up => ⟨_, execLeatPortRemove_up up, ?removed⟩, ?trained, ?session⟩
  case regions =>
    intro v pass go i f ok
    refine ⟨fun bad => congrArg Host.Outcome.next (rcommitWrite_refused pass go bad),
      fun good => ⟨_, congrArg Host.Outcome.next (rcommitWrite_done pass go good), resp_done _, fun n lt => ?_, fun j n _ ne lt => ?_⟩⟩
    · have word : stageWord s k n < 2 ^ 64 := BitVec.isLt _
      rw [regionWord_done, regionWord_putRegion_self w lt (stageWord s k), Nat.mod_eq_of_lt word]
      rfl
    · rw [regionWord_done]
      exact regionWord_putRegion_ne w ne lt (stageWord s k)
  case job =>
    simp only [getF_done]
    exact fields_jobWrite w
  case drained => exact getF_putF_same w F.LEAT_JOB_DRAINED (by decide)
  case removed =>
    obtain ⟨wp, state, width⟩ := fields_portRemoved (k := k) (p := p.toNat) (lanes := lanes.toNat) w
    have kept := wordKept_portRemove (s := s) (p := p.toNat) (lanes := lanes.toNat) inside (by omega)
    exact ⟨(WordKept.getF (f := F.LEAT_PORT_STATE) kept wp).trans state,
      (WordKept.getF (f := F.LEAT_PORT_LANES) kept wp).trans (width.trans (Nat.mod_eq_of_lt lanes.isLt))⟩
  case trained =>
    intro link ns lanes ps far clock some'
    refine ⟨_, execLeatLinkTrained_trains clock some', fun p mem => ?_⟩
    have lt : p < 128 := portsOf_lt (List.mem_filter.1 mem).1
    obtain ⟨wt, state⟩ := state_linkTrained (ns := ns) (lanes := lanes) w mem
    have rest : WordKept (regAddr .leatPort k p) (linkTrained s k link.toNat ns lanes)
        (trainingEnds s (linkTrained s k link.toNat ns lanes) k link.toNat ns lanes) := wordKept_trainingEnds inside lt
    refine (WordKept.getF (f := F.LEAT_PORT_STATE) rest wt).trans (state.trans ?_)
    simp only [linkFits_iff]
    rfl
  case session =>
    intro link nonce eph pub up point point' real
    obtain ⟨keys, v, run⟩ := execLeatSessionHandshake_forms (nonce := nonce) up point point' real
    refine ⟨_, run, ?_, ⟨keys, ?_⟩, ?_⟩
    · have links := links_sessionKeyed (s := s) (k := k) link.toNat keys pub
      rw [session_pump (rising_mset (by rwa [links])), updLink, getLink_setLink (by rwa [links])]
      exact session_sessionNext _ _
    · rw [half_pump, half_updLink, linkKey_sessionKeyed]
    · rw [half_pump, half_updLink, draws_sessionKeyed, draws_sessionDrawn]

end Sys2Proof.Machine
end

section
/-! SUPPORT. Time: exchanges, sources and masters (R325-R331), and the proof of their obligation. -/

namespace Sys2Proof.Machine

variable {s t u : State} {k a : Nat} {b : Requester}

/-! One field. -/

/-- Field f of word j at i reads in t as in s, and the store keeps its order. -/
def FieldKept (f : Fld) (i j : Nat) (s t : State) : Prop :=
  Rising s.mg → Rising t.mg ∧ getF t f i j = getF s f i j

/-- Two fields share no bit of one word. -/
abbrev Beside (f g : Fld) : Prop := g.hi < 64 ∧ g.lo ≤ g.hi ∧ f.lo ≤ f.hi ∧ (g.hi < f.lo ∨ f.hi < g.lo)

theorem FieldKept.refl {f : Fld} {i j : Nat} : FieldKept f i j s s := fun w => ⟨w, rfl⟩

theorem FieldKept.trans {f : Fld} {i j : Nat} (h : FieldKept f i j s t) (g : FieldKept f i j t u) : FieldKept f i j s u := fun w => by
  obtain ⟨wt, ht⟩ := h w
  obtain ⟨wu, gt⟩ := g wt
  exact ⟨wu, gt.trans ht⟩

theorem FieldKept.of_word {f : Fld} {i j : Nat} (h : WordKept (regAddr f.reg i j) s t) : FieldKept f i j s t :=
  fun w => ⟨(h w).1, h.getF w⟩

theorem FieldKept.ite {c : Prop} [Decidable c] {f : Fld} {i j : Nat} (yes : c → FieldKept f i j s t) (no : ¬ c → FieldKept f i j s u) :
    FieldKept f i j s (if c then t else u) := by
  split
  · exact yes ‹_›
  · exact no ‹_›

theorem FieldKept.foldl {β : Type} {f : Fld} {i j : Nat} {g : State → β → State} {xs : List β}
    (step : ∀ s, ∀ x ∈ xs, FieldKept f i j s (g s x)) : FieldKept f i j s (xs.foldl g s) := by
  induction xs generalizing s with
  | nil => exact .refl
  | cons x xs ih => exact (step s x List.mem_cons_self).trans (ih fun s y mem => step s y (List.mem_cons_of_mem x mem))

/-- A field beside it, wherever that is written. -/
theorem FieldKept.putF {f g : Fld} {i j i' j' v : Nat} (beside : Beside f g) : FieldKept f i j s (putF s g i' v j') := by
  obtain ⟨fits, order, order', apart⟩ := beside
  intro w
  refine ⟨rising_putF w .., ?_⟩
  by_cases same : regAddr f.reg i j = regAddr g.reg i' j'
  · have word : mget mgDefault (regAddr f.reg i j) (Machine.putF s g i' v j').mg = setBits (mget mgDefault (regAddr f.reg i j) s.mg) g.hi g.lo v := by
      rw [same]
      exact mget_mset_self w
    exact (congrArg (fun x : W64 => bits x.toNat f.hi f.lo) word).trans (bits_setBits_ne fits order order' apart)
  · exact WordKept.getF (.putF same) w

/-! Time states (R329, R334). -/

theorem FieldKept.setTimeState {f : Fld} {i j h v : Nat} {hall : Bool} (pod : Beside f F.TB_STAT_POD_STATE)
    (other : Beside f F.TB_STAT_HALL_STATE) : FieldKept f i j s (setTimeState s h hall v) := by
  unfold Machine.setTimeState
  extract_lets g n w
  have beside : Beside f g := by
    change Beside f (if hall then F.TB_STAT_HALL_STATE else F.TB_STAT_POD_STATE)
    split
    · exact other
    · exact pod
  exact .ite (fun _ => .refl) fun _ => .trans (.putF beside) (.of_word (.trans .raiseEvent (.of_mg (tellNode_mg ..))))

theorem FieldKept.parentLost {f : Fld} {i j h l : Nat} (pod : Beside f F.TB_STAT_POD_STATE) (other : Beside f F.TB_STAT_HALL_STATE) :
    FieldKept f i j s (parentLost s h l) := by
  unfold Machine.parentLost
  extract_lets follows ofPod ofHall x
  have hx : FieldKept f i j s x := .ite (fun _ => .setTimeState pod other) fun _ => .refl
  exact hx.trans (.ite (fun _ => .setTimeState pod other) fun _ => .refl)

/-- The state of a counter, once set. -/
theorem getF_setTimeState_hall (w : Rising s.mg) {v : Nat} (small : v < 4) :
    getF (setTimeState s k true v) F.TB_STAT_HALL_STATE k = v := by
  unfold setTimeState
  extract_lets g n e
  by_cases already : getF s g k = v
  · rw [if_pos already]
    exact already
  · rw [if_neg already]
    have kept : WordKept (regAddr .tbStat k 0) (putF s g k v) (tellNode (raiseEvent (putF s g k v) k evTime n e) k evTime n e) :=
      .trans .raiseEvent (.of_mg (tellNode_mg ..))
    refine (WordKept.getF (f := F.TB_STAT_HALL_STATE) kept (rising_putF w ..)).trans ?_
    exact (getF_putF_same w F.TB_STAT_HALL_STATE (by decide)).trans (Nat.mod_eq_of_lt small)

theorem halfKept_tellNode {α : Type} {p : Half → α} {h src code : Nat} {payload : List W64}
    (keep : ∀ (x : Half) e, p { x with nodeEvents := e } = p x) : HalfKept p k s (tellNode s h src code payload) :=
  .updHalf fun x => keep x _

theorem pins_setTimeState {h v : Nat} {hall : Bool} : (setTimeState s h hall v).pins = s.pins := by
  unfold setTimeState
  extract_lets g n w
  split
  · rfl
  · exact (updHalf_pins ..).trans (pins_raiseEvent ..)

theorem pins_parentLost {h l : Nat} : (parentLost s h l).pins = s.pins := by
  unfold parentLost
  extract_lets follows pod hall x
  have hx : x.pins = s.pins := by
    change (if pod then setTimeState s h false tsHoldover else s).pins = _
    split
    · exact pins_setTimeState
    · rfl
  split
  · exact pins_setTimeState.trans hx
  · exact hx

/-! Exchanges. -/

/-- What waits for an edge at half k. -/
def waitingSet (x : Half) : Option W64 := x.tb.hallset

theorem waiting_setTimeState {h v : Nat} {hall : Bool} : HalfKept waitingSet k s (setTimeState s h hall v) := by
  unfold setTimeState
  extract_lets g n w
  refine .ite .refl (.trans (.of_half (t := putF s g h v) rfl) ?_)
  exact .trans (.raiseEvent fun _ _ _ _ => rfl) (halfKept_tellNode fun _ _ => rfl)

theorem waiting_updClk {h : Nat} {c : Counter} {f : Clk → Clk} : HalfKept waitingSet k s (updClk s h c f) :=
  .updHalf fun x => by
    cases c with
    | mk r st o ro pa hall => cases hall <;> rfl

/-- A record changes what a half has seen, its units and its events alone. -/
theorem halfKept_writeRecord {α : Type} {p : Half → α} {h ut ui cls : Nat} {pending promoted near : Bool} {x : Cause}
    (seen : ∀ (y : Half) m, p { y with seen := m } = p y) (units : ∀ (y : Half) m, p { y with units := m } = p y)
    (events : ∀ (y : Half) q n e, p { y with lom := { y.lom with evSeq := q, evLost := n, events := e } } = p y) :
    HalfKept p k s (writeRecord s h ut ui cls pending promoted near x) := by
  unfold writeRecord
  extract_lets seq j w0 ws lost entry total counted
  have hlost : HalfKept p k s lost := .ite (.of_half (half_bumpF ..)) .refl
  have hentry : HalfKept p k lost entry := .foldl fun _ _ => .of_half (half_setReg ..)
  have htotal : HalfKept p k entry total := .trans (.of_half (half_putF entry F.DEV_ELOG_STAT_TOTAL 0 seq h k)) (.updHalf fun y => seen y _)
  have hcounted : HalfKept p k total counted := .ite .refl (.updHalf fun y => units y _)
  exact hlost.trans (hentry.trans (htotal.trans (hcounted.trans (.raiseEvent events))))

theorem waiting_plainRecord {h ut ui cls code detail : Nat} {addr : W64} :
    HalfKept waitingSet k s (plainRecord s h ut ui cls code addr detail) :=
  halfKept_writeRecord (fun _ _ => rfl) (fun _ _ => rfl) fun _ _ _ _ => rfl

/-- One of the two counters of a half. -/
structure IsCounter (c : Counter) (reg : Reg) : Prop where
  own : c.reg = reg
  offs : c.offs.reg = .tbStat
  state : c.state.reg = .tbStat
  role : c.role.reg = .tbCfg
  wide : c.role.hi < 64 ∧ c.role.lo < c.role.hi
  blk : (regSpec reg).blk = .tb
  cfg : wordOff reg 0 ≠ wordOff .tbCfg 0
  stat : wordOff reg 0 ≠ wordOff .tbStat 0

/-- The counter after the step an exchange may make. -/
def stepped (s : State) (h : Nat) (c : Counter) (parent : W64) : State :=
  if getF s c.state h = tsFree ∧ offsetOf s h c parent < 0 then setCounter s h c parent else s

theorem WordKept.updClk {h : Nat} {c : Counter} {f : Clk → Clk} : WordKept a s (updClk s h c f) := .updHalf

theorem WordKept.setCounter {h : Nat} {c : Counter} {v : W64} (ne : a ≠ regAddr c.reg h 0) : WordKept a s (setCounter s h c v) :=
  .trans (.setReg ne) .updClk

theorem WordKept.stepped {h : Nat} {c : Counter} {v : W64} (ne : a ≠ regAddr c.reg h 0) : WordKept a s (stepped s h c v) :=
  .ite (fun _ => .setCounter ne) fun _ => .refl

theorem reg_setCounter (w : Rising s.mg) (c : Counter) (v : W64) : reg (setCounter s k c v) c.reg k 0 = v :=
  (WordKept.reg (.updClk (s := setReg s c.reg k 0 v)) (rising_setReg w ..)).trans (reg_setReg_self w ..)

theorem reg_stepped (w : Rising s.mg) (c : Counter) (v : W64) : reg (stepped s k c v) c.reg k 0 =
    if getF s c.state k = tsFree ∧ offsetOf s k c v < 0 then v else reg s c.reg k 0 := by
  unfold stepped
  split
  · exact reg_setCounter w ..
  · rfl

/-- After the offset is taken, an exchange writes time states and records. -/
theorem exchange_eq (s : State) (h : Nat) (c : Counter) (parent : W64) : ∃ (f : Clk → Clk) (v : Nat),
    let x := updClk (putOffset (stepped s h c parent) h c (offsetOf (stepped s h c parent) h c parent)) h c f
    exchange s h c parent = x ∨ exchange s h c parent = setTimeState x h c.hall v ∨
      exchange s h c parent = setTimeState (plainRecord x h utDie h clTransient 0x000D 0 0) h c.hall v := by
  unfold exchange
  extract_lets st step u off taken good x
  have first : u = stepped s h c parent := by
    change (if decide (getF s c.state h = tsFree ∧ offsetOf s h c parent < 0) = true then _ else _) = _
    simp only [decide_eq_true_eq]
    rfl
  rw [← first]
  by_cases locked : st = tsLocked
  · by_cases wide : 10000000 < off.natAbs
    · exact ⟨_, _, .inr (.inr ((if_pos locked).trans (if_pos wide)))⟩
    · exact ⟨_, 0, .inl ((if_pos locked).trans (if_neg wide))⟩
  · exact ⟨_, _, .inr (.inl (if_neg locked))⟩


section
variable {c : Counter} {v : W64}

theorem isCounter_pod : IsCounter podCounter .tbPod := ⟨rfl, rfl, rfl, rfl, by decide, rfl, by decide, by decide⟩

theorem isCounter_hall : IsCounter hallCounter .tbHall := ⟨rfl, rfl, rfl, rfl, by decide, rfl, by decide, by decide⟩

theorem wordKept_exchange_stepped {r : Reg} (is : IsCounter c r) (half : k < 2) (stat : a ≠ regAddr .tbStat k 0) (log : LogApart a) :
    WordKept a (stepped s k c v) (exchange s k c v) := by
  obtain ⟨f, n, eq⟩ := exchange_eq s k c v
  have taken : WordKept a (stepped s k c v)
      (updClk (putOffset (stepped s k c v) k c (offsetOf (stepped s k c v) k c v)) k c f) :=
    .trans (.putF (by rwa [is.offs])) .updClk
  obtain eq | eq | eq := eq
  · exact eq ▸ taken
  · exact eq ▸ taken.trans (.setTimeState stat)
  · exact eq ▸ taken.trans ((wordKept_plainRecord log half).trans (.setTimeState stat))

theorem wordKept_exchange {r : Reg} (is : IsCounter c r) (half : k < 2) (own : a ≠ regAddr r k 0) (stat : a ≠ regAddr .tbStat k 0)
    (log : LogApart a) : WordKept a s (exchange s k c v) :=
  .trans (.stepped (by rwa [is.own])) (wordKept_exchange_stepped is half stat log)

/-- A word of the timebase is no word of a log. -/
theorem logApart_tb {r : Reg} (blk : (regSpec r).blk = .tb) (half : k < 2) : LogApart (regAddr r k 0) :=
  logApart_of_block (by rw [blk]; decide) (by rw [blk]; exact half) (count_pos r)

/-- Words of one timebase at different offsets. -/
theorem regAddr_ne_tb {r r' : Reg} (apart : (regSpec r).blk = (regSpec r').blk ∧ wordOff r 0 ≠ wordOff r' 0) :
    regAddr r k 0 ≠ regAddr r' k 0 := regAddr_ne_word apart

/-- A field of TB_STAT beside the states and the counter's offset. -/
theorem fieldKept_exchange {r : Reg} {f : Fld} (is : IsCounter c r) (half : k < 2) (log : LogApart (regAddr f.reg k 0))
    (own : regAddr f.reg k 0 ≠ regAddr r k 0) (offs : Beside f c.offs) (pod : Beside f F.TB_STAT_POD_STATE)
    (other : Beside f F.TB_STAT_HALL_STATE) : FieldKept f k 0 s (exchange s k c v) := by
  obtain ⟨g, n, eq⟩ := exchange_eq s k c v
  have taken : FieldKept f k 0 s
      (updClk (putOffset (stepped s k c v) k c (offsetOf (stepped s k c v) k c v)) k c g) :=
    .trans (.of_word (.stepped (by rwa [is.own]))) (.trans (.putF offs) (.of_word .updClk))
  obtain eq | eq | eq := eq
  · exact eq ▸ taken
  · exact eq ▸ taken.trans (.setTimeState pod other)
  · exact eq ▸ taken.trans (.trans (.of_word (wordKept_plainRecord log half)) (.setTimeState pod other))

theorem waiting_exchange : HalfKept waitingSet k s (exchange s k c v) := by
  obtain ⟨g, n, eq⟩ := exchange_eq s k c v
  have stepped : HalfKept waitingSet k s (stepped s k c v) :=
    .ite (.trans (.of_half (t := setReg s c.reg k 0 v) rfl) waiting_updClk) .refl
  have taken : HalfKept waitingSet k s
      (updClk (putOffset (Machine.stepped s k c v) k c (offsetOf (Machine.stepped s k c v) k c v)) k c g) :=
    stepped.trans (.trans (.of_half (t := putOffset (Machine.stepped s k c v) k c _) rfl) waiting_updClk)
  obtain eq | eq | eq := eq
  · exact eq ▸ taken
  · exact eq ▸ taken.trans waiting_setTimeState
  · exact eq ▸ taken.trans (waiting_plainRecord.trans waiting_setTimeState)

/-- The offset field of pod time after an exchange that does not step. -/
theorem offs_exchange_acquiring (half : k < 2) (w : Rising s.mg) (acquiring : getF s F.TB_STAT_POD_STATE k = tsAcquiring)
    (far : offsetOf s k podCounter v ≤ -40960000) :
    getF (exchange s k podCounter v) F.TB_STAT_POD_OFFS k = 65536 - 32767 := by
  obtain ⟨g, n, eq⟩ := exchange_eq s k podCounter v
  have still : stepped s k podCounter v = s := if_neg fun free => by
    have : tsAcquiring = tsFree := acquiring.symm.trans free.1
    exact absurd this (by decide)
  rw [still] at eq
  have wo : Rising (putOffset s k podCounter (offsetOf s k podCounter v)).mg := rising_putF w ..
  have value : getF (putOffset s k podCounter (offsetOf s k podCounter v)) F.TB_STAT_POD_OFFS k = 65536 - 32767 := by
    refine (getF_putF_same w F.TB_STAT_POD_OFFS (by decide)).trans ?_
    have low : (offsetOf s k podCounter v).tdiv 1250 ≤ -32767 := by
      have := Int.mul_tdiv_add_tmod (offsetOf s k podCounter v) 1250
      have := Int.lt_tmod_of_pos (offsetOf s k podCounter v) (show (0 : Int) < 1250 by decide)
      omega
    have clamp : clampInt 32767 ((offsetOf s k podCounter v).tdiv 1250) = -32767 := by
      unfold clampInt
      omega
    change (clampInt 32767 ((offsetOf s k podCounter v).tdiv 1250) % 65536).toNat % 2 ^ 16 = _
    rw [clamp]
    rfl
  have taken : FieldKept F.TB_STAT_POD_OFFS k 0 (putOffset s k podCounter (offsetOf s k podCounter v))
      (updClk (putOffset s k podCounter (offsetOf s k podCounter v)) k podCounter g) := .of_word .updClk
  refine Eq.trans ?_ value
  obtain eq | eq | eq := eq
  · exact eq ▸ (taken wo).2
  · exact eq ▸ ((taken.trans (.setTimeState (by decide) (by decide))) wo).2
  · exact eq ▸ ((taken.trans (.trans (.of_word (wordKept_plainRecord (logApart_tb rfl half) half))
      (.setTimeState (by decide) (by decide)))) wo).2

end

/-! The tree (R326, R328). -/

section
variable {c : Counter} {v : W64}

theorem answered_askParent : Answered s (askParent s k c) := by
  unfold askParent
  extract_lets l
  exact .ite (fun _ => answered_enqueue ..) fun _ => .refl

theorem answerApart_tb {r : Reg} (blk : (regSpec r).blk = .tb) (half : k < 2) : AnswerApart (regAddr r k 0) :=
  answerApart_of_block (by rw [blk]; decide) (by rw [blk]; decide) (by rw [blk]; exact half) (count_pos r)

/-- A half's timebase, its power and REF_CLK are as they were. -/
theorem tb_askParent : (half (askParent s k c) k).tb = (half s k).tb :=
  answered_askParent.half _ (·.tb) k (fun _ _ => rfl) (fun _ _ => rfl) fun _ _ => rfl

theorem domTime_word (half : k < 2) : domTime k / 64 < (regSpec .pwrDomstat).count :=
  domstat_word (by rw [domTime]; omega)

theorem domainOn_of_answered (w : Rising s.mg) {n : Nat} (lt : n < 180) (h : Answered s t) : domainOn t n = domainOn s n := by
  have kept := h.word _ (answerApart_of_block (r := .pwrDomstat) (i := 0) (j := n / 64) (by decide) (by decide) (by decide) (domstat_word lt))
  exact congrArg (fun v : W64 => bit v.toNat (n % 64)) (kept.reg w)

theorem field_askParent {f : Fld} (w : Rising s.mg) (half : k < 2) (blk : (regSpec f.reg).blk = .tb) :
    getF (askParent s k c) f k = getF s f k := (answered_askParent.word _ (answerApart_tb blk half)).getF w

variable {r : Reg} (is : IsCounter c r) (half : k < 2)
include is half

theorem inTree_askParent (w : Rising s.mg) : inTree (askParent s k c) k c = inTree s k c := by
  have power : domainOn (askParent s k c) (domTime k) = domainOn s (domTime k) :=
    domainOn_of_answered w (by rw [domTime]; omega) answered_askParent
  have clk : getClk (askParent s k c) k c = getClk s k c := by
    unfold getClk
    rw [tb_askParent]
  unfold inTree canExchange
  rw [power, answered_askParent.pins, clk, field_askParent w half (by rw [is.role]; rfl), field_askParent w half rfl]

/-- The half after it asked its parent and gave way to another master. -/
def entered (s : State) (k : Nat) (c : Counter) : State := hearMaster (askParent s k c) k c

theorem treeExchange_inTree (w : Rising s.mg) (inside : inTree s k c = true) :
    treeExchange (askParent s k c) k c v = exchange (entered s k c) k c v :=
  if_pos ((inTree_askParent is half w).trans inside)

omit half in
theorem wordKept_entered (apart : AnswerApart a) (ne : a ≠ regAddr .tbCfg k 0) : WordKept a s (entered s k c) :=
  .trans (answered_askParent.word a apart) (.ite (fun _ => .putF (by rwa [is.role])) fun _ => .refl)

omit is half in
theorem getClk_entered : getClk (entered s k c) k c = getClk s k c := by
  have same : Machine.half (entered s k c) k = Machine.half (askParent s k c) k := by
    unfold entered hearMaster
    split
    · exact half_putF ..
    · rfl
  unfold getClk
  rw [same, tb_askParent]

theorem own_entered (w : Rising s.mg) : reg (entered s k c) c.reg k 0 = reg s c.reg k 0 := by
  rw [is.own]
  exact (wordKept_entered is (answerApart_tb is.blk half) (regAddr_ne_tb ⟨is.blk, is.cfg⟩)).reg w

theorem offsetOf_entered (w : Rising s.mg) : offsetOf (entered s k c) k c v = offsetOf s k c v := by
  unfold offsetOf
  rw [own_entered is half w, getClk_entered]

theorem stat_entered : WordKept (regAddr .tbStat k 0) s (entered s k c) :=
  wordKept_entered is (answerApart_tb rfl half) (regAddr_ne_tb (by decide))

/-- A master that heard another follows it. -/
theorem role_entered (w : Rising s.mg) (master : getF s c.role k = 2) : getF (entered s k c) c.role k = 1 := by
  have asked : getF (askParent s k c) c.role k = 2 := (field_askParent w half (by rw [is.role]; rfl)).trans master
  have wa : Rising (askParent s k c).mg := (answered_askParent.word _ (answerApart_tb (r := .tbCfg) rfl half) w).1
  have put : entered s k c = putF (askParent s k c) c.role k 1 := if_pos asked
  have wide := is.wide
  rw [put, getF_putF_same wa c.role ⟨wide.1, wide.2.le⟩]
  exact Nat.mod_eq_of_lt (Nat.one_lt_two_pow (by omega))

/-- The counter takes its parent's value once, where it is FREE and behind. -/
theorem own_treeExchange (w : Rising s.mg) (inside : inTree s k c = true) :
    reg (treeExchange (askParent s k c) k c v) r k 0 =
      if getF s c.state k = tsFree ∧ offsetOf s k c v < 0 then v else reg s r k 0 := by
  have we : Rising (entered s k c).mg := (stat_entered is half w).1
  have kept := wordKept_exchange_stepped (s := entered s k c) (v := v) is half
    (regAddr_ne_tb (r := r) (r' := .tbStat) ⟨is.blk, is.stat⟩) (logApart_tb is.blk half)
  have ws : Rising (stepped (entered s k c) k c v).mg :=
    (WordKept.stepped (a := regAddr .tbStat k 0) (by rw [is.own]; exact (regAddr_ne_tb ⟨is.blk, is.stat⟩).symm) we).1
  have step := reg_stepped (k := k) we c v
  have state : getF (entered s k c) c.state k = getF s c.state k :=
    WordKept.getF (by rw [is.state]; exact stat_entered is half) w
  rw [offsetOf_entered is half w, own_entered is half w, state, is.own] at step
  rw [treeExchange_inTree is half w inside, kept.reg ws, step]

/-- The role that an exchange leaves. -/
theorem role_treeExchange (w : Rising s.mg) (inside : inTree s k c = true) (master : getF s c.role k = 2) :
    getF (treeExchange (askParent s k c) k c v) c.role k = 1 := by
  have we : Rising (entered s k c).mg := (stat_entered is half w).1
  have kept : WordKept (regAddr c.role.reg k 0) (entered s k c) (exchange (entered s k c) k c v) := by
    rw [is.role]
    exact wordKept_exchange is half (regAddr_ne_tb ⟨is.blk.symm, is.cfg.symm⟩) (regAddr_ne_tb (by decide)) (logApart_tb rfl half)
  rw [treeExchange_inTree is half w inside, kept.getF we]
  exact role_entered is half w master

/-- The other counter stands. -/
theorem other_treeExchange {r' : Reg} (w : Rising s.mg) (inside : inTree s k c = true) (blk : (regSpec r').blk = .tb)
    (other : wordOff r' 0 ≠ wordOff r 0) (cfg : wordOff r' 0 ≠ wordOff .tbCfg 0) (stat : wordOff r' 0 ≠ wordOff .tbStat 0) :
    reg (treeExchange (askParent s k c) k c v) r' k 0 = reg s r' k 0 := by
  have kept : WordKept (regAddr r' k 0) s (exchange (entered s k c) k c v) :=
    .trans (wordKept_entered is (answerApart_tb blk half) (regAddr_ne_tb ⟨blk, cfg⟩))
      (wordKept_exchange is half (regAddr_ne_tb ⟨blk.trans is.blk.symm, other⟩) (regAddr_ne_tb ⟨blk, stat⟩) (logApart_tb blk half))
  rw [treeExchange_inTree is half w inside]
  exact kept.reg w

end

/-- Half k is in the tree of pod time, or of hall time. -/
theorem inTree_pod : inTree s k podCounter = (canExchange s k && getF s F.TB_CFG_POD_ROLE k != 0 && !(half s k).tb.pod.took) := by
  simp [inTree, podCounter, getClk]

theorem inTree_hall : inTree s k hallCounter =
    (canExchange s k && getF s F.TB_CFG_HALL_ROLE k != 0 && !(getF s F.TB_CFG_PPS_IN_EN k == 1) && !(half s k).tb.hall.took) := by
  simp [inTree, hallCounter, getClk]

/-- What a half outside the tree does with an exchange. -/
theorem exchange_outside {c : Counter} {v : W64} (out : inTree s k c = false) : treeExchange (askParent s k c) k c v = s := by
  have quiet : askParent s k c = s := if_neg (by simp [out])
  rw [quiet]
  exact if_neg (by simp [out])

/-! TIME packets (R326). -/

/-- The counter a TIME packet speaks of. -/
def timeCounter (p : Packet) : Counter := if bit (p.data.getD 1 0).toNat 0 then hallCounter else podCounter

section
variable {p : Packet} (here : bits p.daddr.toNat 63 56 = myNode s k)
include here

theorem arriveTime_fenced (h : fenced s (bits p.daddr.toNat 55 55) p = true) :
    arriveTime s k p = fence s (bits p.daddr.toNat 55 55) p := (if_neg (not_not.2 here)).trans (if_pos h)

theorem arriveTime_asks (h : fenced s (bits p.daddr.toNat 55 55) p = false) (asks : bit (p.data.getD 1 0).toNat 1 = true) :
    arriveTime s k p = answerTime s (bits p.daddr.toNat 55 55) (timeCounter p) p :=
  (if_neg (not_not.2 here)).trans ((if_neg (by simp [h])).trans (if_pos asks))

theorem arriveTime_tells (h : fenced s (bits p.daddr.toNat 55 55) p = false) (tells : bit (p.data.getD 1 0).toNat 1 = false) :
    arriveTime s k p = if fromParent s (bits p.daddr.toNat 55 55) (timeCounter p) p then
      treeExchange s (bits p.daddr.toNat 55 55) (timeCounter p) (p.data.getD 0 0) else s :=
  (if_neg (not_not.2 here)).trans ((if_neg (by simp [h])).trans (if_neg (ne_true_of_eq_false tells)))

end

/-! Edges (R328, R329). -/

/-- Half k has seen an edge now. -/
def edgeSeen (s : State) (k : Nat) : State :=
  updHalf (putF s F.TB_STAT_PPS_SEEN k 1) k fun x => { x with tb := { x.tb with edge := reg (putF s F.TB_STAT_PPS_SEEN k 1) .tbPod k 0 } }

theorem edgeSeen_seen (w : Rising s.mg) : Rising (edgeSeen s k).mg ∧ getF (edgeSeen s k) F.TB_STAT_PPS_SEEN k = 1 := by
  have wp : Rising (putF s F.TB_STAT_PPS_SEEN k 1).mg := rising_putF w ..
  have kept : WordKept (regAddr .tbStat k 0) (putF s F.TB_STAT_PPS_SEEN k 1) (edgeSeen s k) := .updHalf
  exact ⟨(kept wp).1, (WordKept.getF (f := F.TB_STAT_PPS_SEEN) kept wp).trans (getF_putF_same w F.TB_STAT_PPS_SEEN (by decide))⟩

theorem wordKept_edgeSeen (ne : a ≠ regAddr .tbStat k 0) : WordKept a s (edgeSeen s k) := .trans (.putF (f := F.TB_STAT_PPS_SEEN) ne) .updHalf

/-- What waited for the edge comes into force. -/
def setTaken (s : State) (k : Nat) (v : W64) : State :=
  setCounter (updHalf s k fun x => { x with tb := { x.tb with hallset := none } }) k hallCounter v

theorem execPpsEdge_powered {h : BitVec 1} (on : domainOn s (domTime h.toNat) = true) (out : (half s h.toNat).rst = false) :
    execPpsEdge h s = .next (
      if getF (edgeSeen s h.toNat) F.TB_CFG_PPS_IN_EN h.toNat = 0 ∨ (edgeSeen s h.toNat).pins.refLost = true then edgeSeen s h.toNat
      else match (half (edgeSeen s h.toNat) h.toNat).tb.hallset with
        | some v => exchange (setTaken (edgeSeen s h.toNat) h.toNat v) h.toNat hallCounter v
        | none => exchange (edgeSeen s h.toNat) h.toNat hallCounter
            (BitVec.ofNat 64 (nearestSecond (hallTime (edgeSeen s h.toNat) h.toNat)))) :=
  congrArg Host.Outcome.next (if_neg (by simp [on, out]))

/-- PPS_SEEN stands through an exchange of hall time. -/
theorem seen_exchange {v : W64} (half : k < 2) : FieldKept F.TB_STAT_PPS_SEEN k 0 s (exchange s k hallCounter v) :=
  fieldKept_exchange isCounter_hall half (logApart_tb rfl half) (regAddr_ne_tb (by decide)) (by decide) (by decide) (by decide)

/-- The value set is what hall time reads after the edge, stepped or not. -/
theorem hall_exchange_setTaken {v : W64} (half : k < 2) (w : Rising s.mg) :
    reg (exchange (setTaken s k v) k hallCounter v) .tbHall k 0 = v := by
  have wt : Rising (setTaken s k v).mg := rising_updHalf (rising_setReg (rising_updHalf w) ..)
  have set : reg (setTaken s k v) .tbHall k 0 = v := reg_setCounter (rising_updHalf w) hallCounter v
  have ws : Rising (stepped (setTaken s k v) k hallCounter v).mg :=
    (WordKept.stepped (a := regAddr .tbStat k 0) (regAddr_ne_tb (by decide)) wt).1
  have kept := wordKept_exchange_stepped (s := setTaken s k v) (v := v) isCounter_hall half
    (regAddr_ne_tb (r := .tbHall) (by decide)) (logApart_tb rfl half)
  have step : reg (stepped (setTaken s k v) k hallCounter v) .tbHall k 0 =
      if getF (setTaken s k v) F.TB_STAT_HALL_STATE k = tsFree ∧ offsetOf (setTaken s k v) k hallCounter v < 0 then v
      else reg (setTaken s k v) .tbHall k 0 := reg_stepped wt hallCounter v
  rw [set, ite_self] at step
  exact (kept.reg ws).trans step

theorem waiting_setTaken {v : W64} : waitingSet (half (setTaken s k v) k) = none := by
  have cleared : waitingSet (half (updHalf s k fun x => { x with tb := { x.tb with hallset := none } }) k) = none := by
    rw [half_updHalf_self]
    rfl
  have kept : HalfKept waitingSet k (updHalf s k fun x => { x with tb := { x.tb with hallset := none } }) (setTaken s k v) :=
    .trans (.of_half (half_setReg ..)) waiting_updClk
  exact Eq.trans kept cleared

/-! The reference clock (R330). -/

theorem refLost_toHoldover {f : Fld} {i h : Nat} {hall : Bool} (pod : Beside f F.TB_STAT_POD_STATE) (other : Beside f F.TB_STAT_HALL_STATE) :
    FieldKept f i 0 s (toHoldover s h hall) := .ite (fun _ => .refl) fun _ => .setTimeState pod other

theorem pins_toHoldover {h : Nat} {hall : Bool} : (toHoldover s h hall).pins = s.pins := by
  by_cases free : getF s (if hall then F.TB_STAT_HALL_STATE else F.TB_STAT_POD_STATE) h = tsFree
  · rw [toHoldover, if_pos free]
  · rw [toHoldover, if_neg free, pins_setTimeState]

theorem pins_linkDown {h l : Nat} : (linkDown s h l).pins = s.pins := by
  unfold linkDown
  extract_lets key x own mine sent bulk transit waiting lost keys words reqs bulks
  have hlost : lost.pins = s.pins := pins_parentLost
  have hkeys : keys.pins = lost.pins := updHalf_pins ..
  have hwords : words.pins = keys.pins := pins_setWords ..
  have hreqs : reqs.pins = words.pins := (Answered.foldl fun _ r => answered_rerouteReq h r).pins
  have hbulks : bulks.pins = reqs.pins := (Answered.foldl fun _ p => answered_rerouteBulk h p).pins
  exact (Answered.foldl fun _ p => answered_rerouteOther h p).pins.trans (hbulks.trans (hreqs.trans (hwords.trans (hkeys.trans hlost))))

theorem pins_foldl {β : Type} {f : State → β → State} {xs : List β} (step : ∀ s x, (f s x).pins = s.pins) : (xs.foldl f s).pins = s.pins :=
  List.foldlRecOn (motive := fun t : State => t.pins = s.pins) _ _ rfl fun _ same _ _ => (step ..).trans same

theorem pins_dropLeat {h : Nat} : (dropLeat s h).pins = s.pins := by
  unfold dropLeat
  extract_lets up ports
  have hports : ports.pins = s.pins := pins_foldl fun s p => by
    split
    · exact putF_pins ..
    · rfl
  exact (pins_foldl fun s l => pins_linkDown).trans hports

/-- A word of TB_STAT through the loss of the leat links. -/
theorem fieldKept_dropLeat {f : Fld} {h : Nat} (half : k < 2) (half' : h < 2) (reg : f.reg = .tbStat)
    (pod : Beside f F.TB_STAT_POD_STATE) (other : Beside f F.TB_STAT_HALL_STATE) : FieldKept f k 0 s (dropLeat s h) := by
  unfold dropLeat
  extract_lets up ports
  have hports : FieldKept f k 0 s ports := .of_word (.foldl fun s p mem => .ite (fun _ => .putF (f := F.LEAT_PORT_STATE) ?_) fun _ => .refl)
  · refine hports.trans (.foldl fun s l mem => ?_)
    have link : l < 64 := List.mem_range.1 (List.mem_filter.1 mem).1
    have lost : FieldKept f k 0 s (parentLost (setLink s (leatKey h l) linkZero) h l) :=
      .trans (t := setLink s (leatKey h l) linkZero) (.of_word (.of_mg rfl)) (.parentLost pod other)
    refine lost.trans (.of_word (wordKept_linkDown_rest ?_ fun j _ high => ?_))
    · rw [reg]
      exact answerApart_tb rfl half
    · rw [reg]
      exact regAddr_ne_block (by decide) half (by decide) half' (show j < 512 by omega)
  · have port : p < 72 := List.mem_range.1 mem
    rw [reg]
    exact regAddr_ne_inside (by exact half) (by decide) (by exact half') (leatPort_inside (by omega)) (.inl (by decide))

/-- REF_CLK is lost at half h. -/
def clkLostAt (s : State) (h : Nat) : State :=
  dropLeat (toHoldover (toHoldover (putF s F.TB_STAT_REF_LOST h 1) h false) h true) h

/-- REF_CLK is lost at both. -/
def clkLost (s : State) : State := clkLostAt (clkLostAt { s with pins := { s.pins with refLost := true } } 0) 1

theorem execRefClkLost_eq : execRefClkLost s = .next (clkLost s) := rfl

theorem clkLostAt_rest {h : Nat} (half : k < 2) (half' : h < 2) :
    FieldKept F.TB_STAT_REF_LOST k 0 (putF s F.TB_STAT_REF_LOST h 1) (clkLostAt s h) :=
  (refLost_toHoldover (by decide) (by decide)).trans ((refLost_toHoldover (by decide) (by decide)).trans
    (fieldKept_dropLeat half half' rfl (by decide) (by decide)))

theorem clkLostAt_self (half : k < 2) (w : Rising s.mg) : Rising (clkLostAt s k).mg ∧ getF (clkLostAt s k) F.TB_STAT_REF_LOST k = 1 := by
  obtain ⟨wt, same⟩ := clkLostAt_rest half half (rising_putF w F.TB_STAT_REF_LOST k 1 0)
  exact ⟨wt, same.trans (getF_putF_same w F.TB_STAT_REF_LOST (by decide))⟩

theorem regAddr_ne_otherTb {r : Reg} {h : Nat} (blk : (regSpec r).blk = .tb) (half : k < 2) (half' : h < 2) (ne : k ≠ h) :
    regAddr r k 0 ≠ regAddr r h 0 :=
  regAddr_ne (by rw [blk]; exact half) (count_pos r) (by rw [blk]; exact half') (count_pos r) (.inr (.inl ne))

theorem clkLostAt_other {h : Nat} (half : k < 2) (half' : h < 2) (ne : k ≠ h) : FieldKept F.TB_STAT_REF_LOST k 0 s (clkLostAt s h) :=
  .trans (.of_word (.putF (f := F.TB_STAT_REF_LOST) (regAddr_ne_otherTb (r := .tbStat) rfl half half' ne))) (clkLostAt_rest half half')

theorem pins_clkLostAt {h : Nat} : (clkLostAt s h).pins = s.pins :=
  pins_dropLeat.trans (pins_toHoldover.trans (pins_toHoldover.trans (putF_pins ..)))

theorem bothClkLost (w : Rising s.mg) {j : Nat} (half : j < 2) : getF (clkLostAt (clkLostAt s 0) 1) F.TB_STAT_REF_LOST j = 1 := by
  have w0 := (clkLostAt_self (show 0 < 2 by decide) w)
  obtain rfl | rfl : j = 0 ∨ j = 1 := by omega
  · exact ((clkLostAt_other (by decide) (by decide) (by decide)) w0.1).2.trans w0.2
  · exact (clkLostAt_self (by decide) w0.1).2

theorem bothClkBack (w : Rising s.mg) {j : Nat} (half : j < 2) :
    getF (putF (putF s F.TB_STAT_REF_LOST 0 0) F.TB_STAT_REF_LOST 1 0) F.TB_STAT_REF_LOST j = 0 := by
  have w0 : Rising (putF s F.TB_STAT_REF_LOST 0 0).mg := rising_putF w ..
  obtain rfl | rfl : j = 0 ∨ j = 1 := by omega
  · exact (WordKept.getF (f := F.TB_STAT_REF_LOST) (.putF (f := F.TB_STAT_REF_LOST) (regAddr_ne_otherTb (r := .tbStat) rfl (by decide) (by decide) (by decide))) w0).trans
      (getF_putF_same w F.TB_STAT_REF_LOST (by decide))
  · exact getF_putF_same w0 F.TB_STAT_REF_LOST (by decide)

theorem clkLost_shows (w : Rising s.mg) : (clkLost s).pins.refLost = true ∧
    ∀ j, j < 2 → getF (clkLost s) F.TB_STAT_REF_LOST j = 1 := by
  refine ⟨?_, fun _ half => bothClkLost (s := { s with pins := { s.pins with refLost := true } }) w half⟩
  rw [clkLost, pins_clkLostAt, pins_clkLostAt]

/-- REF_CLK has returned. -/
def clkBack (s : State) : State :=
  putF (putF { s with pins := { s.pins with refLost := false } } F.TB_STAT_REF_LOST 0 0) F.TB_STAT_REF_LOST 1 0

theorem execRefClkReturn_eq : execRefClkReturn s = .next (clkBack s) := rfl

theorem clkBack_shows (w : Rising s.mg) : (clkBack s).pins.refLost = false ∧
    ∀ j, j < 2 → getF (clkBack s) F.TB_STAT_REF_LOST j = 0 :=
  ⟨rfl, fun _ half => bothClkBack (s := { s with pins := { s.pins with refLost := false } }) w half⟩

/-! Takeovers (R331). -/

section
variable {c : Counter}

/-- The backup is master. -/
def tookOver (s : State) (k : Nat) (c : Counter) : State :=
  updClk (putF (putF s c.role k 2) F.TB_STAT_MASTER_TAKEN k 1) k c fun x => { x with took := true }

/-- And where its counter was locked it holds over. -/
def takenOver (s : State) (k : Nat) (c : Counter) : State :=
  if getF (tookOver s k c) c.state k = tsLocked then setTimeState (tookOver s k c) k c.hall tsHoldover else tookOver s k c

theorem takenOver_shows {r : Reg} (is : IsCounter c r) (w : Rising s.mg) (two : c.role.hi = c.role.lo + 1) :
    getF (takenOver s k c) c.role k = 2 ∧ getF (takenOver s k c) F.TB_STAT_MASTER_TAKEN k = 1 ∧
      reg (takenOver s k c) r k 0 = reg s r k 0 := by
  have wr : Rising (putF s c.role k 2).mg := rising_putF w ..
  have wt : Rising (putF (putF s c.role k 2) F.TB_STAT_MASTER_TAKEN k 1).mg := rising_putF wr ..
  have field (f : Fld) (pod : Beside f F.TB_STAT_POD_STATE) (other : Beside f F.TB_STAT_HALL_STATE) :
      FieldKept f k 0 (putF (putF s c.role k 2) F.TB_STAT_MASTER_TAKEN k 1) (takenOver s k c) :=
    .trans (.of_word .updClk) (.ite (fun _ => .setTimeState pod other) fun _ => .refl)
  have word (a : Nat) (stat : a ≠ regAddr .tbStat k 0) : WordKept a (putF s c.role k 2) (takenOver s k c) :=
    .trans (.putF (f := F.TB_STAT_MASTER_TAKEN) stat) (.trans .updClk (.ite (fun _ => .setTimeState stat) fun _ => .refl))
  refine ⟨?_, ?_, ?_⟩
  · have kept := word (regAddr c.role.reg k 0) (by rw [is.role]; exact regAddr_ne_tb (by decide))
    rw [kept.getF wr, getF_putF_same w c.role ⟨is.wide.1, is.wide.2.le⟩, two]
    simp
  · rw [((field _ (by decide) (by decide)) wt).2]
    exact getF_putF_same wr F.TB_STAT_MASTER_TAKEN (by decide)
  · rw [(word _ (regAddr_ne_tb ⟨is.blk, is.stat⟩)).reg wr]
    exact WordKept.reg (.putF (by rw [is.role]; exact regAddr_ne_tb ⟨is.blk, is.cfg⟩)) w

end

/-! The exchanges of the two counters. -/

section
variable {v : W64} (half : k < 2) (w : Rising s.mg)
include half w

/-- The half after an exchange of pod time. -/
theorem podExchange_shows (within : inTree s k podCounter = true) {t : State}
    (run : treeExchange (askParent s k podCounter) k podCounter v = t) :
    reg t .tbPod k 0 = (if getF s F.TB_STAT_POD_STATE k = tsFree ∧ offsetOf s k podCounter v < 0 then v else reg s .tbPod k 0) ∧
    (offsetOf s k podCounter v ≤ -40960000 → getF s F.TB_STAT_POD_STATE k = tsAcquiring → getF t F.TB_STAT_POD_OFFS k = 65536 - 32767) ∧
    (getF s F.TB_CFG_POD_ROLE k = 2 → getF t F.TB_CFG_POD_ROLE k = 1) ∧ reg t .tbHall k 0 = reg s .tbHall k 0 := by
  subst run
  refine ⟨own_treeExchange isCounter_pod half w within, fun far acquiring => ?_,
    role_treeExchange (c := podCounter) (v := v) isCounter_pod half w within,
    other_treeExchange isCounter_pod half w within rfl (by decide) (by decide) (by decide)⟩
  have we : WordKept _ s (entered s k podCounter) := stat_entered isCounter_pod half
  rw [treeExchange_inTree isCounter_pod half w within]
  exact offs_exchange_acquiring half (we w).1 ((WordKept.getF (f := F.TB_STAT_POD_STATE) we w).trans acquiring)
    (by rwa [offsetOf_entered isCounter_pod half w])

/-- The half after an exchange of hall time. -/
theorem hallExchange_shows (within : inTree s k hallCounter = true) {t : State}
    (run : treeExchange (askParent s k hallCounter) k hallCounter v = t) :
    reg t .tbHall k 0 = (if getF s F.TB_STAT_HALL_STATE k = tsFree ∧ offsetOf s k hallCounter v < 0 then v else reg s .tbHall k 0) ∧
    (getF s F.TB_CFG_HALL_ROLE k = 2 → getF t F.TB_CFG_HALL_ROLE k = 1) ∧ reg t .tbPod k 0 = reg s .tbPod k 0 := by
  subst run
  exact ⟨own_treeExchange isCounter_hall half w within,
    role_treeExchange (c := hallCounter) (v := v) isCounter_hall half w within,
    other_treeExchange isCounter_hall half w within rfl (by decide) (by decide) (by decide)⟩

end

/-! The sources of time. -/

/-- After the edge PPS_SEEN is set, and a value that waited is in force. -/
theorem ppsEdge_shows {h : BitVec 1} (w : Rising s.mg) (on : domainOn s (domTime h.toNat) = true) (out : (half s h.toNat).rst = false) :
    ∃ t, execPpsEdge h s = .next t ∧ getF t F.TB_STAT_PPS_SEEN h.toNat = 1 ∧
      (∀ x, getF s F.TB_CFG_PPS_IN_EN h.toNat = 1 → s.pins.refLost = false → (half s h.toNat).tb.hallset = some x →
        reg t .tbHall h.toNat 0 = x ∧ (half t h.toNat).tb.hallset = none) := by
  obtain ⟨we, seen⟩ := edgeSeen_seen (k := h.toNat) w
  have inside : h.toNat < 2 := h.isLt
  have enabled : getF (edgeSeen s h.toNat) F.TB_CFG_PPS_IN_EN h.toNat = getF s F.TB_CFG_PPS_IN_EN h.toNat :=
    WordKept.getF (f := F.TB_CFG_PPS_IN_EN) (wordKept_edgeSeen (regAddr_ne_tb (by decide))) w
  have clock : (edgeSeen s h.toNat).pins = s.pins := updHalf_pins ..
  have waits : (half (edgeSeen s h.toNat) h.toNat).tb.hallset = (half s h.toNat).tb.hallset := by
    rw [edgeSeen, half_updHalf_self]
    rfl
  rw [execPpsEdge_powered on out, enabled, clock, waits]
  by_cases ignored : getF s F.TB_CFG_PPS_IN_EN h.toNat = 0 ∨ s.pins.refLost = true
  · refine ⟨_, congrArg Host.Outcome.next (if_pos ignored), seen, fun x pps ref => ?_⟩
    obtain off | lost := ignored
    · exact absurd (off.symm.trans pps) (by decide)
    · exact absurd (lost.symm.trans ref) (by decide)
  · rw [if_neg ignored]
    cases (half s h.toNat).tb.hallset with
    | none => exact ⟨_, rfl, ((seen_exchange inside) we).2.trans seen, fun x _ _ no => nomatch no⟩
    | some v =>
      refine ⟨_, rfl, ?_, fun x _ _ same => ⟨?_, ?_⟩⟩
      · have taken : FieldKept F.TB_STAT_PPS_SEEN h.toNat 0 (edgeSeen s h.toNat) (setTaken (edgeSeen s h.toNat) h.toNat v) :=
          .of_word (.trans .updHalf (.setCounter (regAddr_ne_tb (by decide))))
        exact ((taken.trans (seen_exchange inside)) we).2.trans seen
      · exact (hall_exchange_setTaken inside we).trans (Option.some.inj same)
      · exact Eq.trans (waiting_exchange (c := hallCounter)) waiting_setTaken

theorem ppsTimeout_shows {h : BitVec 1} (w : Rising s.mg) (late : 1100000000 ≤ podSince s h.toNat (half s h.toNat).tb.edge) :
    ∃ t, execPpsTimeout h s = .next t ∧ getF t F.TB_STAT_PPS_SEEN h.toNat = 0 ∧
      (getF s F.TB_CFG_PPS_IN_EN h.toNat = 1 → getF s F.TB_STAT_HALL_STATE h.toNat = tsLocked →
        getF t F.TB_STAT_HALL_STATE h.toNat = tsHoldover) := by
  have wp : Rising (putF s F.TB_STAT_PPS_SEEN h.toNat 0).mg := rising_putF w ..
  have cleared : getF (putF s F.TB_STAT_PPS_SEEN h.toNat 0) F.TB_STAT_PPS_SEEN h.toNat = 0 := getF_putF_same w F.TB_STAT_PPS_SEEN (by decide)
  have enabled : getF (putF s F.TB_STAT_PPS_SEEN h.toNat 0) F.TB_CFG_PPS_IN_EN h.toNat = getF s F.TB_CFG_PPS_IN_EN h.toNat :=
    WordKept.getF (f := F.TB_CFG_PPS_IN_EN) (.putF (f := F.TB_STAT_PPS_SEEN) (regAddr_ne_tb (by decide))) w
  have state : getF (putF s F.TB_STAT_PPS_SEEN h.toNat 0) F.TB_STAT_HALL_STATE h.toNat = getF s F.TB_STAT_HALL_STATE h.toNat :=
    getF_putF_beside w F.TB_STAT_PPS_SEEN F.TB_STAT_HALL_STATE (by decide)
  have run : execPpsTimeout h s = .next (
      if getF (putF s F.TB_STAT_PPS_SEEN h.toNat 0) F.TB_CFG_PPS_IN_EN h.toNat = 1 ∧
        getF (putF s F.TB_STAT_PPS_SEEN h.toNat 0) F.TB_STAT_HALL_STATE h.toNat = tsLocked then
        setTimeState (putF s F.TB_STAT_PPS_SEEN h.toNat 0) h.toNat true tsHoldover
      else putF s F.TB_STAT_PPS_SEEN h.toNat 0) := congrArg Host.Outcome.next (if_neg (by omega))
  rw [run, enabled, state]
  by_cases follows : getF s F.TB_CFG_PPS_IN_EN h.toNat = 1 ∧ getF s F.TB_STAT_HALL_STATE h.toNat = tsLocked
  · refine ⟨_, congrArg Host.Outcome.next (if_pos follows), ?_, fun _ _ => getF_setTimeState_hall wp (by decide)⟩
    exact ((FieldKept.setTimeState (by decide) (by decide)) wp).2.trans cleared
  · exact ⟨_, congrArg Host.Outcome.next (if_neg follows), cleared, fun pps locked => absurd ⟨pps, locked⟩ follows⟩

section
variable {v : W64} (pass : gate s b true (regAddr .tbHallset k 0) = none)
include pass

theorem hallsetWrite_denied (no : getF s F.TB_CFG_HALL_ROLE k ≠ 2 ∨ getF s F.TB_STAT_HALL_STATE k = tsLocked) :
    hallsetWrite s b k v = denied s b := (guarded_none pass).trans (if_pos no)

theorem hallsetWrite_now (master : getF s F.TB_CFG_HALL_ROLE k = 2) (loose : getF s F.TB_STAT_HALL_STATE k ≠ tsLocked)
    (pps : getF s F.TB_CFG_PPS_IN_EN k = 0) : hallsetWrite s b k v = done (setCounter s k hallCounter v) :=
  (guarded_none pass).trans ((if_neg (by simp [master, loose])).trans (if_neg (by simp [pps])))

end

theorem reg_done (t : State) (r : Reg) (i j : Nat) : reg (done t) r i j = reg t r i j := rfl

theorem execMasterTakeover_pod {h : BitVec 1} (backup : getF s F.TB_CFG_POD_ROLE h.toNat = 3)
    (late : 10000 ≤ podSince s h.toNat (half s h.toNat).tb.pod.heard) :
    execMasterTakeover h false s = .next (takenOver s h.toNat podCounter) :=
  congrArg Host.Outcome.next (if_neg (not_or.2 ⟨not_not.2 backup, Nat.not_lt.2 late⟩))

theorem execMasterTakeover_hall {h : BitVec 1} (backup : getF s F.TB_CFG_HALL_ROLE h.toNat = 3)
    (late : 1000000 ≤ podSince s h.toNat (half s h.toNat).tb.hall.heard) :
    execMasterTakeover h true s = .next (takenOver s h.toNat hallCounter) :=
  congrArg Host.Outcome.next (if_neg (not_or.2 ⟨not_not.2 backup, Nat.not_lt.2 late⟩))

/-- Settles O40: each exchange through what the tree leaves of the words it reads, each source by its own equation. -/
theorem timeExchangesAndSources : Obligations.TimeExchangesAndSources := by
  unfold Obligations.TimeExchangesAndSources
  refine ⟨fun h v s canon => ?exchanges, fun b h v s canon => ?sources⟩
  case exchanges =>
    intro k
    have w := regs_rising canon.mg
    have inside : k < 2 := h.isLt
    refine ⟨fun tree role free => ?pod, fun tree role pps free => ?hall, fun out => ?podOut, fun out => ?hallOut, ?packet⟩
    case pod =>
      have within : inTree s k podCounter = true := by rw [inTree_pod]; simp [tree, role, free]
      exact ⟨_, rfl, podExchange_shows inside w within rfl⟩
    case hall =>
      have within : inTree s k hallCounter = true := by rw [inTree_hall]; simp [tree, role, free, pps]
      exact ⟨_, rfl, hallExchange_shows inside w within rfl⟩
    case podOut =>
      refine congrArg Host.Outcome.next (exchange_outside ?_)
      rw [inTree_pod]
      obtain out | out | out := out <;> simp [k, out]
    case hallOut =>
      refine congrArg Host.Outcome.next (exchange_outside ?_)
      rw [inTree_hall]
      obtain out | out | out | out := out <;> simp [k, out]
    case packet =>
      intro p here j q kind c
      exact ⟨fun f => congrArg Host.Outcome.next (arriveTime_fenced (p := q) here f),
        fun f asks => congrArg Host.Outcome.next (arriveTime_asks (p := q) here f asks),
        fun f tells => congrArg Host.Outcome.next (arriveTime_tells (p := q) here f tells)⟩
  case sources =>
    intro k
    have w := regs_rising canon.mg
    refine ⟨fun on out => ppsEdge_shows w on out, fun early => congrArg Host.Outcome.next (if_pos early), fun late => ppsTimeout_shows w late,
      fun pass => ⟨fun no => congrArg Host.Outcome.next (hallsetWrite_denied pass no),
        fun master loose pps => ⟨_, congrArg Host.Outcome.next (hallsetWrite_now pass master loose pps), resp_done _, ?set⟩⟩,
      ⟨_, execRefClkLost_eq, clkLost_shows w⟩, ⟨_, execRefClkReturn_eq, clkBack_shows w⟩,
      fun backup late => ⟨_, execMasterTakeover_pod backup late, takenOver_shows isCounter_pod w rfl⟩,
      fun backup late => ⟨_, execMasterTakeover_hall backup late, takenOver_shows isCounter_hall w rfl⟩⟩
    case set =>
      rw [reg_done]
      exact reg_setCounter w hallCounter v

end Sys2Proof.Machine
end

section
/-! SUPPORT. Commands that store nothing (R262, R482-R484), and the proof of their obligation. -/

namespace Sys2Proof.Machine

variable {s t u : State} {k : Nat} {b : Requester}

/-! The stores. -/

/-- HBM, the cores, the programs and the saved contexts are in t as in s. -/
def StoresKept (s t : State) : Prop := t.hbm = s.hbm ∧ t.cores = s.cores ∧ t.progs = s.progs ∧ t.saves = s.saves

/-- So they are in whatever a command answers. -/
def StoresX (s : State) (o : Out) : Prop := ∀ t, o = .next t → StoresKept s t

theorem StoresKept.next (h : StoresKept s t) : StoresX s (.next t) := fun u same => by
  obtain rfl : t = u := Host.Outcome.next.inj same
  exact h

theorem StoresKept.refl : StoresKept s s := ⟨rfl, rfl, rfl, rfl⟩

theorem StoresKept.trans (h : StoresKept s t) (g : StoresKept t u) : StoresKept s u := by
  obtain ⟨hbm, cores, progs, saves⟩ := h
  obtain ⟨hbm', cores', progs', saves'⟩ := g
  exact ⟨hbm'.trans hbm, cores'.trans cores, progs'.trans progs, saves'.trans saves⟩

theorem StoresKept.ite {c : Prop} [Decidable c] (yes : c → StoresKept s t) (no : ¬ c → StoresKept s u) :
    StoresKept s (if c then t else u) := by
  split
  · exact yes ‹_›
  · exact no ‹_›

theorem StoresKept.foldl {β : Type} {f : State → β → State} {xs : List β} (step : ∀ s x, StoresKept s (f s x)) :
    StoresKept s (xs.foldl f s) := by
  induction xs generalizing s with
  | nil => exact .refl
  | cons x xs ih => exact (step s x).trans ih

theorem storesKept_setReg (r : Reg) (i j : Nat) (v : W64) : StoresKept s (setReg s r i j v) := ⟨rfl, rfl, rfl, rfl⟩

theorem storesKept_putF (f : Fld) (i v j : Nat) : StoresKept s (putF s f i v j) := ⟨rfl, rfl, rfl, rfl⟩

theorem storesKept_updHalf (h : Nat) (f : Half → Half) : StoresKept s (updHalf s h f) :=
  ⟨updHalf_hbm .., updHalf_cores .., updHalf_progs .., updHalf_saves ..⟩

theorem storesKept_updSeq (l : Nat) (f : Ctl → Ctl) : StoresKept s (updSeq s l f) := ⟨rfl, rfl, rfl, rfl⟩

theorem storesKept_updPins (f : Pins → Pins) : StoresKept s (updPins s f) := ⟨rfl, rfl, rfl, rfl⟩

theorem storesKept_answer (r : Resp) : StoresKept s (answer s r) := ⟨rfl, rfl, rfl, rfl⟩

theorem storesKept_done (h : StoresKept s t) : StoresKept s (done t) := h.trans (storesKept_answer _)

theorem storesKept_refuseAcc (c : BitVec 8) : StoresKept s (refuseAcc s b c) := by cases b <;> exact ⟨rfl, rfl, rfl, rfl⟩

/-- A write that its register's gate lets pass. -/
theorem storesKept_guarded {r : Reg} {i j : Nat} {f : State → State} (pass : StoresKept s (f s)) : StoresKept s (guarded s b r i j f) := by
  unfold guarded
  split
  · exact storesKept_refuseAcc _
  · exact pass

theorem storesKept_setWords (r : Reg) (i j : Nat) (ws : List W64) : StoresKept s (setWords s r i j ws) :=
  .foldl fun _ _ => storesKept_setReg ..

/-! The ports (R482-R484). -/

theorem storesKept_tapCapture (op : BitVec 8) (dr : List Byte) : StoresKept s (tapCapture s op dr) :=
  (storesKept_updPins _).trans (storesKept_answer _)

theorem storesKept_tapBoundary (op : BitVec 8) : StoresKept s (tapBoundary s op) :=
  .trans (t := { s with free := s.free + 1 }) ⟨rfl, rfl, rfl, rfl⟩ (storesKept_tapCapture ..)

/-! The trust dies (R430, R433-R439, R445). -/

theorem storesKept_draw (h : Nat) : StoresKept s (draw s h).2 := storesKept_updHalf ..

theorem storesKept_updSec (h : Nat) (f : SecSt → SecSt) : StoresKept s (updSec s h f) := storesKept_updHalf ..

theorem storesKept_setStage (h stage code : Nat) : StoresKept s (setStage s h stage code) :=
  (storesKept_putF ..).trans (storesKept_putF ..)

theorem storesKept_extendMr (h i : Nat) (v : List Byte) : StoresKept s (extendMr s h i v) :=
  (storesKept_setWords ..).trans (storesKept_updSec ..)

theorem storesKept_setDstate (h v : Nat) : StoresKept s (setDstate s h v) := .ite (fun _ => .refl) fun _ => storesKept_putF ..

theorem storesKept_newChallenge (h : Nat) : StoresKept s (newChallenge s h) :=
  (storesKept_draw h).trans ((storesKept_setWords ..).trans ((storesKept_updSec ..).trans (storesKept_setDstate ..)))

theorem storesKept_dropChallenge (h : Nat) : StoresKept s (dropChallenge s h) := (storesKept_updSec ..).trans (storesKept_setDstate ..)

theorem storesKept_signQuote (h : Nat) (body : List Byte) : StoresKept s (signQuote s h body).2 := by
  unfold signQuote
  split
  · exact .refl
  · exact storesKept_draw h

theorem storesKept_romMeasured (h : Nat) (debug : Bool) : StoresKept s (romMeasured s h debug) :=
  .trans (.trans (storesKept_putF ..) (storesKept_putF ..)) (storesKept_extendMr ..)

theorem storesKept_identityShown (h : Nat) : StoresKept s (identityShown s h) := (storesKept_setWords ..).trans (storesKept_updSec ..)

theorem storesKept_keysDrawn (h : Nat) : StoresKept s (keysDrawn s h) :=
  (storesKept_draw h).trans ((storesKept_draw h).trans ((storesKept_updSec ..).trans (storesKept_setReg ..)))

theorem storesKept_imageClear (h : Nat) : StoresKept s (imageClear s b h) := by
  unfold imageClear bootCommand
  refine storesKept_guarded (.ite (fun _ => storesKept_done ?_) fun _ => storesKept_refuseAcc _)
  exact (storesKept_updSec ..).trans ((storesKept_putF ..).trans (storesKept_putF ..))

theorem storesX_trustDieBoot (h : BitVec 1) (kat id : Bool) : StoresX s (execTrustDieBoot h kat id s) := by
  by_cases fresh : bootFresh s h.toNat
  · rw [execTrustDieBoot_fresh fresh]
    have measured := storesKept_romMeasured (s := s) h.toNat s.pins.debugOnly
    refine .next (.ite (fun _ => storesKept_setStage ..) fun _ => .ite (fun _ => measured.trans (storesKept_setStage ..)) fun _ => ?_)
    refine .trans (t := if s.pins.debugOnly then _ else _) ?_ ((storesKept_keysDrawn _).trans (storesKept_setStage ..))
    exact .ite (fun _ => measured) fun _ => measured.trans (storesKept_identityShown _)
  · rw [show execTrustDieBoot h kat id s = .next s from congrArg Host.Outcome.next (if_pos (by simpa [bootFresh, imp_iff_not_or] using fresh))]
    exact .next .refl

theorem storesKept_imgApply (h off : Nat) (lines : List W64) : StoresKept s (imgApply s h off lines) :=
  .ite (fun _ => .refl) fun _ => (storesKept_updSec ..).trans ((storesKept_putF ..).trans (storesKept_putF ..))

/-- A quote in its place, and the extensions that waited for it. -/
theorem storesKept_quoteDone (h : Nat) (q : List Byte) : StoresKept s (
    (getSec (putF (putF (setWords s .secQuote h 0 (wordsOf q)) F.SEC_QCTL_BUSY h 0) F.SEC_QCTL_DONE h 1) h).extendWait.foldl
      (fun s v => extendMr s h 3 v)
      (updSec (putF (putF (setWords s .secQuote h 0 (wordsOf q)) F.SEC_QCTL_BUSY h 0) F.SEC_QCTL_DONE h 1) h
        fun x => { x with quote := none, extendWait := [] })) :=
  (storesKept_setWords ..).trans ((storesKept_putF ..).trans ((storesKept_putF ..).trans
    ((storesKept_updSec ..).trans (.foldl fun _ _ => storesKept_extendMr ..))))

theorem storesX_quoteComplete (h : BitVec 1) : StoresX s (execQuoteComplete h s) := by
  unfold execQuoteComplete
  refine .next ?_
  dsimp only
  split
  · exact .refl
  · exact (storesKept_signQuote ..).trans (storesKept_quoteDone ..)

/-! Rows (R186, R197, R223). -/

theorem storesKept_gangCommand {row : Nat} {ok : State → Bool} {f : State → State} (act : StoresKept s (f s)) :
    StoresKept s (gangCommand s b row ok f) :=
  storesKept_guarded (.ite (fun _ => storesKept_refuseAcc _) fun _ => storesKept_done act)

theorem storesX_wdogLimit (row : BitVec 6) (v : W64) : StoresX s (execWdogLimitWrite b row v s) := by
  refine .next (storesKept_guarded (.ite (fun _ => storesKept_refuseAcc _) fun _ => storesKept_done ?_))
  have valid : bits (setBits (setBits 0 63 60 (getF s F.ROW_CTXCTL_CVALID row.toNat)) 31 0 v.toNat).toNat 63 60 =
      getF s F.ROW_CTXCTL_CVALID row.toNat := by
    rw [bits_setBits_ne (by decide) (by decide) (by decide) (by decide), bits_setBits_self (by decide) (by decide)]
    exact Nat.mod_eq_of_lt (bits_lt ..)
  rw [valid, setValid_same]
  exact (storesKept_setReg ..).trans (storesKept_setReg ..)

/-! Tests, rings and calibration (R214, R414, R503). -/

theorem storesKept_unitCommand {h : Nat} {ok : State → Nat → Nat → Bool} {f : State → Nat → Nat → State}
    (act : ∀ ut ui, StoresKept s (f s ut ui)) : StoresKept s (unitCommand s b h ok f) := by
  unfold unitCommand
  refine storesKept_guarded ?_
  dsimp only
  exact .ite (fun _ => storesKept_done (act ..)) fun _ => storesKept_refuseAcc _

theorem storesKept_solvDbWrite (h : Nat) (v : W64) : StoresKept s (solvDbWrite s b h v) := by
  refine storesKept_guarded (.ite (fun _ => storesKept_refuseAcc _) fun _ => storesKept_done ?_)
  have indices : StoresKept s (putF (putF s F.SOLV_DB_SQ_TAIL h (bits v.toNat 15 0)) F.SOLV_DB_CQ_HEAD h (bits v.toNat 31 16)) :=
    (storesKept_putF ..).trans (storesKept_putF ..)
  exact indices.trans (.trans (.ite (fun _ => storesKept_putF F.SOLV_STAT_STATE h 0 0) fun _ => .refl)
    (.ite (fun _ => storesKept_updHalf ..) fun _ => .refl))

theorem storesKept_calibrationStart (h : Nat) :
    StoresKept s ((rangeFrom (512 * h) 512).foldl (fun s ch => putF s F.HBM_CHST_STATE ch 3) (putF s F.DEV_CAL_STEP 0 1 h)) :=
  (storesKept_putF ..).trans (.foldl fun _ _ => storesKept_putF ..)

/-- Settles O60: each command's state is built by writes of registers, halves, pins and streams. -/
theorem commandsThatStoreNothing : Obligations.CommandsThatStoreNothing := by
  unfold Obligations.CommandsThatStoreNothing
  intro b h l s t bs a op ut ui i v p q off ws c mem run
  suffices all : ∀ c ∈ _, StoresX s (exec c s) from all c mem t run
  simp only [List.forall_mem_cons]
  refine ⟨.next ?i3cIndex, .next ?i3cRead, .next ?setdasa, .next ?entdaa, .next ?snapshot, .next ?idcode, .next ?sample, .next ?extest,
    .next ?bypass, .next (storesKept_updPins _), .next ?tapChallenge, storesX_trustDieBoot h p q, .next ?img, .next ?clear, .next ?quote,
    .next ?extend, storesX_quoteComplete _, .next ?challenge, .next ?expiry, .next (storesKept_updSec ..), .next ?reseed,
    .next (storesKept_updHalf ..), .next ?testStart, .next ?unitTest, .next (storesKept_solvDbWrite ..), .next (storesKept_solvDbWrite ..),
    .next (storesKept_solvDbWrite ..), .next ?shadow, .next ?active, .next (storesKept_gangCommand (storesKept_updSeq ..)),
    .next (storesKept_gangCommand (storesKept_updSeq ..)), .next (storesKept_gangCommand (storesKept_updSeq ..)),
    .next (storesKept_gangCommand (storesKept_updSeq ..)), storesX_wdogLimit l v, .next ?calibration,
    fun _ none => absurd none List.not_mem_nil⟩
  case i3cIndex =>
    refine .ite (fun _ => .refl) fun _ => ?_
    split
    · exact storesKept_done (storesKept_updPins _)
    · exact ⟨rfl, rfl, rfl, rfl⟩
  case i3cRead => exact .ite (fun _ => .refl) fun _ => (storesKept_updPins _).trans (storesKept_answer _)
  case setdasa => exact .ite (fun _ => .refl) fun _ => storesKept_done (storesKept_updPins _)
  case entdaa => exact .ite (fun _ => .refl) fun _ => (storesKept_updPins _).trans (storesKept_answer _)
  case snapshot => exact .ite (fun _ => storesKept_updPins _) fun _ => .refl
  case idcode => exact .ite (fun _ => storesKept_tapCapture ..) fun _ => .refl
  case sample => exact .ite (fun _ => storesKept_tapBoundary _) fun _ => .refl
  case extest => exact .ite (fun _ => .refl) fun _ => .ite (fun _ => storesKept_tapBoundary _) fun _ => storesKept_tapCapture ..
  case bypass => exact .ite (fun _ => .refl) fun _ => storesKept_tapCapture ..
  case tapChallenge =>
    exact .ite (fun _ => .refl) fun _ =>
      .trans (.ite (fun _ => storesKept_newChallenge _) fun _ => .refl) (storesKept_tapCapture ..)
  case img => exact .ite (fun _ => .refl) fun _ => storesKept_imgApply ..
  case clear => exact storesKept_imageClear _
  case quote =>
    refine storesKept_guarded (.ite (fun _ => storesKept_refuseAcc _) fun _ => storesKept_done ?_)
    exact (storesKept_putF ..).trans (.ite (fun _ => .refl) fun _ => storesKept_updSec ..)
  case extend =>
    exact storesKept_guarded (storesKept_done (.ite (fun _ => storesKept_updSec ..) fun _ => storesKept_extendMr ..))
  case challenge =>
    exact storesKept_guarded (.ite (fun _ => storesKept_done (storesKept_newChallenge _)) fun _ => storesKept_refuseAcc _)
  case expiry => exact .ite (fun _ => storesKept_dropChallenge _) fun _ => .refl
  case reseed => exact .ite (fun _ => .refl) fun _ => storesKept_updSec ..
  case testStart => exact .ite (fun _ => .refl) fun _ => storesKept_updHalf ..
  case unitTest => exact storesKept_unitCommand fun _ _ => storesKept_updHalf ..
  case shadow =>
    exact storesKept_guarded (.ite (fun _ => storesKept_refuseAcc _) fun _ =>
      .ite (fun _ => storesKept_done .refl) fun _ => storesKept_done (storesKept_setReg ..))
  case active =>
    exact storesKept_guarded (.ite (fun _ => storesKept_refuseAcc _) fun _ => storesKept_done (storesKept_setReg ..))
  case calibration => exact .ite (fun _ => .refl) fun _ => storesKept_calibrationStart _

end Sys2Proof.Machine
end

section
/-! SUPPORT. Epochs of reproducible sums (R264-R268), and the proof of their obligation. -/

namespace Sys2Proof.Machine

variable {s t : State} {k n : Nat} {b : Requester} {v : W64}

/-! The word of an epoch. -/

theorem answerApart_epoch (half : k < 2) (inside : n < 16) : AnswerApart (regAddr .hbmRepoch k n) :=
  answerApart_of_block (by decide) (by decide) (by exact half) inside

theorem hallTime_of_kept (w : Rising s.mg) (kept : WordKept (regAddr .tbHall k 0) s t) : hallTime t k = hallTime s k :=
  congrArg BitVec.toNat (kept.reg w)

theorem regAddr_ne_epoch (half : k < 2) (inside : n < 16) : regAddr .tbHall k 0 ≠ regAddr .hbmRepoch k n :=
  regAddr_ne_block (by decide) (by exact half) (by decide) (by exact half) inside

/-- What a write of an epoch's word sets before it acts on OPEN, and the fields it gives. -/
def epochTimed (s : State) (k n : Nat) (v : W64) : State := if bit v.toNat 61 then putF s F.HBM_REPOCH_TIMEDOUT k 0 n else s

def epochSized (s : State) (k n : Nat) (v : W64) : State :=
  putF (putF s F.HBM_REPOCH_NSRCM1 k (bits v.toNat 47 32) n) F.HBM_REPOCH_TIMEOUT k (bits v.toNat 15 0) n

/-- The epoch opens, nothing closed. -/
def epochOpened (s : State) (k n : Nat) : State :=
  setEpoch (putF (putF (putF s F.HBM_REPOCH_OPEN k 1 n) F.HBM_REPOCH_DONE k 0 n) F.HBM_REPOCH_NCLOSED k 0 n) k n
    { epochZero with opened := hallTime (putF (putF (putF s F.HBM_REPOCH_OPEN k 1 n) F.HBM_REPOCH_DONE k 0 n) F.HBM_REPOCH_NCLOSED k 0 n) k }

theorem bit_setBits_top (x : Nat) : bit (setBits v 63 63 x).toNat 63 = (x % 2 == 1) := bit_setBits_same (by decide)

section
variable (pass : gate s b true (regAddr .hbmRepoch k n) = none)
include pass

theorem epochWrite_refused (isOpen : getF s F.HBM_REPOCH_OPEN k n = 1) : epochWrite s b k n (setBits v 63 63 1) = denied s b :=
  (guarded_none pass).trans (if_pos ⟨bit_setBits_top 1, isOpen⟩)

theorem epochWrite_opens (closed : getF s F.HBM_REPOCH_OPEN k n ≠ 1) : epochWrite s b k n (setBits v 63 63 1) =
    done (epochOpened (epochSized (epochTimed s k n (setBits v 63 63 1)) k n (setBits v 63 63 1)) k n) := by
  have opening : bit (setBits v 63 63 1).toNat 63 = true := bit_setBits_top 1
  refine (guarded_none pass).trans ((if_neg fun h => closed h.2).trans (congrArg done ((if_pos opening).trans ?_)))
  simp only [opening, Bool.not_true, Bool.false_eq_true, false_and, if_false]
  rfl

theorem epochWrite_aborts (isOpen : getF s F.HBM_REPOCH_OPEN k n = 1) : epochWrite s b k n (setBits v 63 63 0) =
    done (epochSized (abortEpoch (epochTimed s k n (setBits v 63 63 0)) k n false) k n (setBits v 63 63 0)) := by
  have closing : bit (setBits v 63 63 0).toNat 63 = false := bit_setBits_top 0
  refine (guarded_none pass).trans ((if_neg (by simp [closing])).trans (congrArg done ((if_neg (by simp [closing])).trans ?_)))
  simp only [closing, isOpen, Bool.not_false, and_self, if_true]
  rfl

end

theorem fieldKept_epochTimed {f : Fld} {i j : Nat} (beside : Beside f F.HBM_REPOCH_TIMEDOUT) : FieldKept f i j s (epochTimed s k n v) :=
  .ite (fun _ => .putF beside) fun _ => .refl

theorem fieldKept_epochSized {f : Fld} {i j : Nat} (sources : Beside f F.HBM_REPOCH_NSRCM1) (time : Beside f F.HBM_REPOCH_TIMEOUT) :
    FieldKept f i j s (epochSized s k n v) := .trans (.putF sources) (.putF time)

theorem fieldKept_epochOpened {f : Fld} {i j : Nat} (open' : Beside f F.HBM_REPOCH_OPEN) (done : Beside f F.HBM_REPOCH_DONE)
    (closed : Beside f F.HBM_REPOCH_NCLOSED) : FieldKept f i j s (epochOpened s k n) :=
  .trans (.putF open') (.trans (.putF done) (.trans (.putF closed) (.of_word .updHalf)))

theorem half_epochTimed : half (epochTimed s k n v) k = half s k := by
  unfold epochTimed
  split
  · exact half_putF ..
  · rfl

theorem half_epochSized : half (epochSized s k n v) k = half s k := rfl

/-- The fields of an opened epoch. -/
theorem epochOpened_shows (w : Rising s.mg) : getF (epochOpened s k n) F.HBM_REPOCH_OPEN k n = 1 ∧
    getF (epochOpened s k n) F.HBM_REPOCH_DONE k n = 0 ∧ getF (epochOpened s k n) F.HBM_REPOCH_NCLOSED k n = 0 := by
  have wo : Rising (putF s F.HBM_REPOCH_OPEN k 1 n).mg := rising_putF w ..
  have wd : Rising (putF (putF s F.HBM_REPOCH_OPEN k 1 n) F.HBM_REPOCH_DONE k 0 n).mg := rising_putF wo ..
  have wc : Rising (putF (putF (putF s F.HBM_REPOCH_OPEN k 1 n) F.HBM_REPOCH_DONE k 0 n) F.HBM_REPOCH_NCLOSED k 0 n).mg :=
    rising_putF wd ..
  have noted (f : Fld) : FieldKept f k n (putF (putF (putF s F.HBM_REPOCH_OPEN k 1 n) F.HBM_REPOCH_DONE k 0 n) F.HBM_REPOCH_NCLOSED k 0 n)
      (epochOpened s k n) := .of_word .updHalf
  refine ⟨(noted _ wc).2.trans ?_, (noted _ wc).2.trans ?_, (noted _ wc).2.trans ?_⟩
  · rw [getF_putF_beside wd F.HBM_REPOCH_NCLOSED F.HBM_REPOCH_OPEN (by decide),
      getF_putF_beside wo F.HBM_REPOCH_DONE F.HBM_REPOCH_OPEN (by decide)]
    exact getF_putF_same w F.HBM_REPOCH_OPEN (by decide)
  · rw [getF_putF_beside wd F.HBM_REPOCH_NCLOSED F.HBM_REPOCH_DONE (by decide)]
    exact getF_putF_same wo F.HBM_REPOCH_DONE (by decide)
  · exact getF_putF_same wd F.HBM_REPOCH_NCLOSED (by decide)

theorem epochSized_shows (w : Rising s.mg) : getF (epochSized s k n v) F.HBM_REPOCH_NSRCM1 k n = bits v.toNat 47 32 ∧
    getF (epochSized s k n v) F.HBM_REPOCH_TIMEOUT k n = bits v.toNat 15 0 := by
  have ws : Rising (putF s F.HBM_REPOCH_NSRCM1 k (bits v.toNat 47 32) n).mg := rising_putF w ..
  constructor
  · rw [epochSized, getF_putF_beside ws F.HBM_REPOCH_TIMEOUT F.HBM_REPOCH_NSRCM1 (by decide),
      getF_putF_same w F.HBM_REPOCH_NSRCM1 (by decide)]
    exact Nat.mod_eq_of_lt (bits_lt ..)
  · rw [epochSized, getF_putF_same ws F.HBM_REPOCH_TIMEOUT (by decide)]
    exact Nat.mod_eq_of_lt (bits_lt ..)

theorem epochs_epochOpened (half' : k < 2) (inside : n < 16) (w : Rising s.mg) : (half (epochOpened s k n) k).epochs =
    mset (fun _ => epochZero) n { epochZero with opened := hallTime s k } (half s k).epochs := by
  have ne := regAddr_ne_epoch half' inside
  have time : hallTime (putF (putF (putF s F.HBM_REPOCH_OPEN k 1 n) F.HBM_REPOCH_DONE k 0 n) F.HBM_REPOCH_NCLOSED k 0 n) k = hallTime s k :=
    hallTime_of_kept w (.trans (.putF (f := F.HBM_REPOCH_OPEN) ne)
      (.trans (.putF (f := F.HBM_REPOCH_DONE) ne) (.putF (f := F.HBM_REPOCH_NCLOSED) ne)))
  rw [epochOpened, setEpoch, half_updHalf_self, time]
  rfl

/-! Aborts (R267). -/

theorem open_abortEpoch (half' : k < 2) (inside : n < 16) (w : Rising s.mg) (late : Bool) :
    Rising (abortEpoch s k n late).mg ∧ getF (abortEpoch s k n late) F.HBM_REPOCH_OPEN k n = 0 := by
  unfold abortEpoch
  extract_lets e mine closed timed gone freed
  have wc : Rising closed.mg := rising_putF w ..
  have htimed : FieldKept F.HBM_REPOCH_OPEN k n closed timed := .ite (fun _ => .putF (by decide)) fun _ => .refl
  have hgone : FieldKept F.HBM_REPOCH_OPEN k n timed gone := .of_word .updHalf
  have hfreed : FieldKept F.HBM_REPOCH_OPEN k n gone freed :=
    .of_word (.trans (t := releaseAccs gone k n) .updHalf .updHalf)
  have answered (ws : List Waiter) : FieldKept F.HBM_REPOCH_OPEN k n freed (answerAll freed ws stEpochTimeout) :=
    .of_word ((answered_answerAll ..).word _ (answerApart_epoch half' inside))
  obtain ⟨wt, same⟩ := (htimed.trans (hgone.trans (hfreed.trans (answered _)))) wc
  exact ⟨wt, same.trans (getF_putF_same w F.HBM_REPOCH_OPEN (by decide))⟩

theorem adds_abortEpoch (late : Bool) : (half (abortEpoch s k n late) k).adds = (half s k).adds.filter fun a => a.epoch != n := by
  unfold abortEpoch
  extract_lets e mine closed timed gone freed
  have htimed : half timed k = half s k := by
    change half (if late then putF closed F.HBM_REPOCH_TIMEDOUT k 1 n else closed) k = _
    split <;> rfl
  have hgone : (half gone k).adds = (half s k).adds.filter fun a => a.epoch != n := by
    rw [half_updHalf_self, htimed]
  have hfreed : HalfKept Half.adds k gone freed :=
    .trans (t := releaseAccs gone k n) (.updHalf fun _ => rfl) (.updHalf fun _ => rfl)
  have answered (ws : List Waiter) : HalfKept Half.adds k freed (answerAll freed ws stEpochTimeout) :=
    (answered_answerAll ..).half _ _ _ (fun _ _ => rfl) (fun _ _ => rfl) fun _ _ => rfl
  exact Eq.trans (hfreed.trans (answered _)) hgone

/-! Ordered adds (R253, R266). -/

/-- The first add of epoch n whose turn has come. -/
def nextAdd (s : State) (k n : Nat) : Option Add64 :=
  (half s k).adds.find? fun a => a.epoch == n && addReady (getEpoch s k n) (half s k).adds a

theorem execReproFp64AddApply_waits {h : BitVec 1} {n : BitVec 4} (none : nextAdd s h.toNat n.toNat = none) :
    execReproFp64AddApply h n s = .next s := by
  unfold nextAdd at none
  simp only [execReproFp64AddApply, none]

theorem execReproFp64AddApply_next {h : BitVec 1} {n : BitVec 4} {a : Add64} (found : nextAdd s h.toNat n.toNat = some a) :
    execReproFp64AddApply h n s = .next (settleClosing (add64Apply s h.toNat a) h.toNat n.toNat) := by
  unfold nextAdd at found
  simp only [execReproFp64AddApply, found]

/-- The add waits no more. -/
def addTaken (s : State) (k : Nat) (a : Add64) : State := updHalf s k fun x => { x with adds := x.adds.erase a }

theorem add64Apply_off {a : Add64} (off : channelOff (addTaken s k a) a.addr = true) : add64Apply s k a =
    if a.closes then failClose (addTaken s k a) k a.epoch a.who stChannelOff
    else answerW (addTaken s k a) a.who stChannelOff false [] := if_pos off

theorem add64Apply_on {a : Add64} (on : channelOff (addTaken s k a) a.addr = false) : add64Apply s k a =
    let u := giveOld (add64Word (addTaken s k a) a.addr a.x) k a.ret 8 (hbmNat (addTaken s k a) a.addr 8)
    if a.closes then keepOld u k a.epoch a.who [BitVec.ofNat 64 (hbmNat (addTaken s k a) a.addr 8)]
    else answerW u a.who 0 false [BitVec.ofNat 64 (hbmNat (addTaken s k a) a.addr 8)] := if_neg (ne_true_of_eq_false on)

theorem half_done (t : State) (h : Nat) : half (done t) h = half t h := rfl

/-- Settles O31: the fields of the written word one by one, and the ordered add by its own equation. -/
theorem epochsAndOrderedAdds : Obligations.EpochsAndOrderedAdds := by
  unfold Obligations.EpochsAndOrderedAdds
  refine ⟨fun b h n v s canon => ?epochs, fun h n s => ?adds⟩
  case epochs =>
    intro k i isOpen
    have w := regs_rising canon.mg
    have half' : k < 2 := h.isLt
    have inside : i < 16 := n.isLt
    refine ⟨fun pass => ⟨fun yes => congrArg Host.Outcome.next (epochWrite_refused pass yes),
        fun no => ⟨_, congrArg Host.Outcome.next (epochWrite_opens pass no), resp_done _, ?opened⟩,
        fun yes => ⟨_, congrArg Host.Outcome.next (epochWrite_aborts pass yes), resp_done _, ?closed, ?dropped⟩⟩,
      fun yes some' => ?due⟩
    case opened =>
      have wt : Rising (epochTimed s k i (setBits v 63 63 1)).mg :=
        (fieldKept_epochTimed (f := F.HBM_REPOCH_OPEN) (i := k) (j := i) (by decide) w).1
      have ws : Rising (epochSized (epochTimed s k i (setBits v 63 63 1)) k i (setBits v 63 63 1)).mg :=
        rising_putF (rising_putF wt ..) ..
      obtain ⟨opened, done, closed⟩ := epochOpened_shows (k := k) (n := i) ws
      obtain ⟨sources, time⟩ := epochSized_shows (k := k) (n := i) (v := setBits v 63 63 1) wt
      have given : bits (setBits v 63 63 1).toNat 47 32 = bits v.toNat 47 32 ∧ bits (setBits v 63 63 1).toNat 15 0 = bits v.toNat 15 0 :=
        ⟨bits_setBits_ne (by decide) (by decide) (by decide) (by decide), bits_setBits_ne (by decide) (by decide) (by decide) (by decide)⟩
      have epochs := epochs_epochOpened half' inside ws
      have ne := regAddr_ne_epoch half' inside
      have hall : hallTime (epochSized (epochTimed s k i (setBits v 63 63 1)) k i (setBits v 63 63 1)) k = hallTime s k :=
        hallTime_of_kept w (.trans (.ite (fun _ => .putF (f := F.HBM_REPOCH_TIMEDOUT) ne) fun _ => .refl)
          (.trans (.putF (f := F.HBM_REPOCH_NSRCM1) ne) (.putF (f := F.HBM_REPOCH_TIMEOUT) ne)))
      rw [hall, half_epochSized, half_epochTimed] at epochs
      simp only [getF_done, half_done]
      refine ⟨opened, done, closed, ?_, ?_, epochs⟩
      · exact ((fieldKept_epochOpened (by decide) (by decide) (by decide)) ws).2.trans (sources.trans given.1)
      · exact ((fieldKept_epochOpened (by decide) (by decide) (by decide)) ws).2.trans (time.trans given.2)
    case closed =>
      have wt : Rising (epochTimed s k i (setBits v 63 63 0)).mg :=
        (fieldKept_epochTimed (f := F.HBM_REPOCH_OPEN) (i := k) (j := i) (by decide) w).1
      rw [getF_done]
      obtain ⟨wa, closed⟩ := open_abortEpoch half' inside wt false
      exact ((fieldKept_epochSized (by decide) (by decide)) wa).2.trans closed
    case dropped =>
      have adds := adds_abortEpoch (s := epochTimed s k i (setBits v 63 63 0)) (k := k) (n := i) false
      rw [half_epochTimed] at adds
      rwa [half_done, half_epochSized]
    case due =>
      intro due
      exact ⟨fun late => congrArg Host.Outcome.next (if_pos ⟨yes, some', late⟩),
        fun early => congrArg Host.Outcome.next (if_neg fun h => absurd h.2.2 (Nat.not_le.2 early))⟩
  case adds =>
    intro k mine
    refine ⟨fun a found => ?next, fun none => execReproFp64AddApply_waits none⟩
    case next =>
      intro t old
      have run := execReproFp64AddApply_next found
      refine ⟨fun off => ?_, fun on => ?_⟩
      · rw [add64Apply_off off] at run
        exact run
      · rw [add64Apply_on on] at run
        exact run

end Sys2Proof.Machine
end

section
/-! SUPPORT. Services of a channel (R244, R271, R360, R418), and the proof of their obligation. -/

namespace Sys2Proof.Machine

variable {s t : State} {c : Nat} {b : Requester} {v : W64}

/-! Traffic engines (R271). -/

theorem inRange_hbmTgCtl : inRange .hbmTgCtl v = true ↔ bits v.toNat 61 60 ≤ 2 ∧ bits v.toNat 59 56 ≤ 5 := by
  have seed : bits v.toNat 55 32 < 2 ^ 24 := bits_lt ..
  have count : bits v.toNat 31 0 < 2 ^ 32 := bits_lt ..
  have range : inRange .hbmTgCtl v = (decide (bits v.toNat 61 60 ≤ 2) && (decide (bits v.toNat 59 56 ≤ 5) &&
      (decide (bits v.toNat 55 32 ≤ 2 ^ 24 - 1) && decide (bits v.toNat 31 0 ≤ 2 ^ 32 - 1)))) := by
    simp [inRange, regSpec, fieldOf, show (Acc.wo != Acc.rw) = true from rfl]
  rw [range]
  simp only [Bool.and_eq_true, decide_eq_true_eq]
  omega

/-- A write of HBM_TG_CTL that is refused. -/
def tgIllegal (s : State) (c : Nat) (v : W64) : Prop :=
  (!inRange .hbmTgCtl v) = true ∨ (bits v.toNat 61 60 = 1 ∧ bits v.toNat 59 56 ≠ 0 ∧ bits v.toNat 59 56 ≠ 5) ∨
    (bits v.toNat 61 60 = 1 ∧ ownerOf s 3 c ≠ 1) ∨ (bits v.toNat 61 60 = 2 ∧ ownerOf s 3 c ≠ 2) ∨
    (bit v.toNat 63 = true ∧ getF s F.HBM_TG_STAT_BUSY c = 1) ∨
    (bit v.toNat 63 = true ∧ bits v.toNat 61 60 = 2 ∧ getF s F.HBM_CHST_STATE c ≠ 2)

/-- The control word as stored; a seed of 0 reads 1. -/
def tgStored (s : State) (c : Nat) (v : W64) : State :=
  let t := setReg s .hbmTgCtl c 0 (storedWord .hbmTgCtl (reg s .hbmTgCtl c 0) v)
  if getF t F.HBM_TG_CTL_SEED c = 0 then putF t F.HBM_TG_CTL_SEED c 1 else t

/-- A run begins. -/
def tgStarted (s : State) (c : Nat) (v : W64) : State :=
  if bit v.toNat 63 ∧ bits v.toNat 61 60 ≠ 0 then
    updHalf (putF s F.HBM_TG_STAT_BUSY c 1) (c / 512) fun x => { x with tgSeen := x.tgSeen.filter (· != c) }
  else s

/-- A run ends. -/
def tgEnded (s : State) (c : Nat) : State := putF (putF s F.HBM_TG_STAT_BUSY c 0) F.HBM_TG_STAT_DONE c 1

section
variable (pass : gate s b true (regAddr .hbmTgCtl c 0) = none)
include pass

theorem tgWrite_refused (h : tgIllegal s c v) : tgWrite s b c v = denied s b := (guarded_none pass).trans (if_pos h)

theorem tgWrite_accepted (h : ¬ tgIllegal s c v) : tgWrite s b c v = done (
    if bit v.toNat 62 ∧ getF (tgStarted (tgStored s c v) c v) F.HBM_TG_STAT_BUSY c = 1 then tgEnded (tgStarted (tgStored s c v) c v) c
    else tgStarted (tgStored s c v) c v) := (guarded_none pass).trans (if_neg h)

end

theorem storedWord_hbmTgCtl (old v : W64) : bits (storedWord .hbmTgCtl old v).toNat 61 60 = bits v.toNat 61 60 ∧
    bits (storedWord .hbmTgCtl old v).toNat 31 0 = bits v.toNat 31 0 := by
  have stored : storedWord .hbmTgCtl old v = setBits (setBits (setBits (setBits old 61 60 (bits v.toNat 61 60)) 59 56 (bits v.toNat 59 56))
      55 32 (bits v.toNat 55 32)) 31 0 (bits v.toNat 31 0) := rfl
  rw [stored, bits_setBits_ne (by decide) (by decide) (by decide) (by decide), bits_setBits_ne (by decide) (by decide) (by decide) (by decide),
    bits_setBits_ne (by decide) (by decide) (by decide) (by decide), bits_setBits_self (by decide) (by decide),
    bits_setBits_self (by decide) (by decide)]
  exact ⟨Nat.mod_eq_of_lt (bits_lt ..), Nat.mod_eq_of_lt (bits_lt ..)⟩

theorem tgStored_shows (w : Rising s.mg) : Rising (tgStored s c v).mg ∧ getF (tgStored s c v) F.HBM_TG_CTL_MODE c = bits v.toNat 61 60 ∧
    getF (tgStored s c v) F.HBM_TG_CTL_COUNT c = bits v.toNat 31 0 ∧ FieldKept F.HBM_TG_STAT_BUSY c 0 s (tgStored s c v) := by
  have wt : Rising (setReg s .hbmTgCtl c 0 (storedWord .hbmTgCtl (reg s .hbmTgCtl c 0) v)).mg := rising_setReg w ..
  have word : reg (setReg s .hbmTgCtl c 0 (storedWord .hbmTgCtl (reg s .hbmTgCtl c 0) v)) .hbmTgCtl c 0 = _ := reg_setReg_self w ..
  obtain ⟨mode, count⟩ := storedWord_hbmTgCtl (reg s .hbmTgCtl c 0) v
  have seeded (f : Fld) (beside : Beside f F.HBM_TG_CTL_SEED) :
      FieldKept f c 0 (setReg s .hbmTgCtl c 0 (storedWord .hbmTgCtl (reg s .hbmTgCtl c 0) v)) (tgStored s c v) :=
    .ite (fun _ => .putF beside) fun _ => .refl
  have busy : FieldKept F.HBM_TG_STAT_BUSY c 0 s (tgStored s c v) :=
    .trans (.of_word (.setReg (regAddr_ne_word (by decide)))) (seeded _ (by decide))
  refine ⟨(busy w).1, ((seeded F.HBM_TG_CTL_MODE (by decide)) wt).2.trans ?_, ((seeded F.HBM_TG_CTL_COUNT (by decide)) wt).2.trans ?_, busy⟩
  · exact (congrArg (fun x : W64 => bits x.toNat 61 60) word).trans mode
  · exact (congrArg (fun x : W64 => bits x.toNat 31 0) word).trans count

theorem fieldKept_tgStarted {f : Fld} {i j : Nat} (beside : Beside f F.HBM_TG_STAT_BUSY) : FieldKept f i j s (tgStarted s c v) :=
  .ite (fun _ => .trans (.putF beside) (.of_word .updHalf)) fun _ => .refl

theorem busy_tgStarted (w : Rising s.mg) (go : bit v.toNat 63 = true ∧ bits v.toNat 61 60 ≠ 0) :
    getF (tgStarted s c v) F.HBM_TG_STAT_BUSY c = 1 := by
  have run : tgStarted s c v = _ := if_pos go
  have kept : WordKept (regAddr .hbmTgStat c 0) (putF s F.HBM_TG_STAT_BUSY c 1) (tgStarted s c v) := by
    rw [run]
    exact .updHalf
  exact (WordKept.getF (f := F.HBM_TG_STAT_BUSY) kept (rising_putF w ..)).trans (getF_putF_same w F.HBM_TG_STAT_BUSY (by decide))

theorem tgStarted_still (still : bit v.toNat 63 = false) : tgStarted s c v = s := if_neg (by simp [still])

theorem tgEnded_shows (w : Rising s.mg) : getF (tgEnded s c) F.HBM_TG_STAT_BUSY c = 0 ∧ getF (tgEnded s c) F.HBM_TG_STAT_DONE c = 1 := by
  have wb : Rising (putF s F.HBM_TG_STAT_BUSY c 0).mg := rising_putF w ..
  refine ⟨?_, getF_putF_same wb F.HBM_TG_STAT_DONE (by decide)⟩
  rw [tgEnded, getF_putF_beside wb F.HBM_TG_STAT_DONE F.HBM_TG_STAT_BUSY (by decide)]
  exact getF_putF_same w F.HBM_TG_STAT_BUSY (by decide)

theorem fieldKept_tgFail {f : Fld} {n pc off : Nat} (blk : f.reg = .hbmTgStat) (errors : Beside f F.HBM_TG_STAT_ERRORS)
    (fail : Beside f F.HBM_TG_STAT_FAIL) : FieldKept f c 0 s (tgFail s c n pc off) := by
  have ne : regAddr f.reg c 0 ≠ regAddr .hbmTgErraddr c 0 := by
    rw [blk]
    exact regAddr_ne_word (by decide)
  refine .trans (.trans (.putF errors) (.putF fail)) (.ite (fun _ => .refl) fun _ => .of_word ?_)
  exact .trans .updHalf (.trans (.putF (f := F.HBM_TG_ERRADDR_PC) ne) (.putF (f := F.HBM_TG_ERRADDR_OFFSET) ne))

theorem fail_tgFail {n pc off : Nat} (w : Rising s.mg) : getF (tgFail s c n pc off) F.HBM_TG_STAT_FAIL c = 1 := by
  have we : Rising (bumpF s F.HBM_TG_STAT_ERRORS c n).mg := rising_putF w ..
  have ne : regAddr .hbmTgStat c 0 ≠ regAddr .hbmTgErraddr c 0 := regAddr_ne_word (by decide)
  have kept : WordKept (regAddr .hbmTgStat c 0) (putF (bumpF s F.HBM_TG_STAT_ERRORS c n) F.HBM_TG_STAT_FAIL c 1) (tgFail s c n pc off) :=
    .ite (fun _ => .refl) fun _ => .trans .updHalf (.trans (.putF (f := F.HBM_TG_ERRADDR_PC) ne) (.putF (f := F.HBM_TG_ERRADDR_OFFSET) ne))
  exact (WordKept.getF (f := F.HBM_TG_STAT_FAIL) kept (rising_putF we ..)).trans (getF_putF_same we F.HBM_TG_STAT_FAIL (by decide))

/-! Training (R458). -/

theorem loadKey_mg (b : Nat) : (loadKey s b).mg = s.mg := by
  unfold loadKey
  split
  · exact updHalf_mg ..
  · rfl

/-- One channel as its stack's training leaves it. -/
def trainedOne (s : State) (ch : Nat) : State := if getF s F.HBM_CHST_STATE ch = 3 then putF s F.HBM_CHST_STATE ch 2 else s

theorem chst_inside {ch : Nat} (lt : ch < 1024) : ch < blockCount (regSpec .hbmChst).blk := lt

theorem trainedOne_other {d : Nat} (ne : c ≠ d) (lt : c < 1024) (lt' : d < 1024) : FieldKept F.HBM_CHST_STATE c 0 s (trainedOne s d) :=
  .ite (fun _ => .of_word (.putF (regAddr_ne (chst_inside lt) (by decide) (chst_inside lt') (by decide) (.inr (.inl ne))))) fun _ => .refl

theorem trainedOne_self (w : Rising s.mg) : Rising (trainedOne s c).mg ∧ getF (trainedOne s c) F.HBM_CHST_STATE c =
    if getF s F.HBM_CHST_STATE c = 3 then 2 else getF s F.HBM_CHST_STATE c := by
  unfold trainedOne
  split
  · exact ⟨rising_putF w .., getF_putF_same w F.HBM_CHST_STATE (by decide)⟩
  · exact ⟨w, rfl⟩

/-- Every channel of the list that is in TRAINING enters OUT. -/
theorem trainedAll {chs : List Nat} (w : Rising s.mg) (lt : c < 1024) (all : ∀ d ∈ chs, d < 1024) (once : chs.Nodup) :
    getF (chs.foldl trainedOne s) F.HBM_CHST_STATE c =
      if c ∈ chs ∧ getF s F.HBM_CHST_STATE c = 3 then 2 else getF s F.HBM_CHST_STATE c := by
  induction chs generalizing s with
  | nil => simp
  | cons d chs ih =>
    obtain ⟨fresh, rest⟩ := List.nodup_cons.1 once
    have range : d < 1024 := all d List.mem_cons_self
    rw [List.foldl_cons]
    by_cases same : c = d
    · subst same
      obtain ⟨wt, state⟩ := trainedOne_self (c := c) w
      rw [ih wt (fun d mem => all d (List.mem_cons_of_mem _ mem)) rest, state]
      simp [fresh]
    · obtain ⟨wt, state⟩ := (trainedOne_other same lt range) w
      rw [ih wt (fun d mem => all d (List.mem_cons_of_mem _ mem)) rest, state]
      simp [same]

/-- A write that the owner of the engine may make. -/
theorem tgLegal (owned : (bits v.toNat 61 60 = 1 ∧ ownerOf s 3 c = 1 ∧ (bits v.toNat 59 56 = 0 ∨ bits v.toNat 59 56 = 5)) ∨
      (bits v.toNat 61 60 = 2 ∧ ownerOf s 3 c = 2 ∧ bits v.toNat 59 56 ≤ 5))
    (idle : bit v.toNat 63 = true → getF s F.HBM_TG_STAT_BUSY c ≠ 1 ∧ (bits v.toNat 61 60 = 2 → getF s F.HBM_CHST_STATE c = 2)) :
    ¬ tgIllegal s c v := by
  have range : inRange .hbmTgCtl v = true := inRange_hbmTgCtl.2 (by omega)
  rintro (bad | bad | bad | bad | bad | bad)
  · rw [range] at bad
    exact absurd bad (by decide)
  · omega
  · omega
  · omega
  · exact (idle bad.1).1 bad.2
  · exact bad.2.2 ((idle bad.1).2 bad.2.1)

/-- A mode of a party that does not own the engine. -/
theorem tgIllegal_mode (bad : bits v.toNat 61 60 = 1 ∧ ownerOf s 3 c ≠ 1 ∨ bits v.toNat 61 60 = 2 ∧ ownerOf s 3 c ≠ 2 ∨
    bits v.toNat 61 60 = 3) : tgIllegal s c v := by
  obtain one | two | three := bad
  · exact .inr (.inr (.inl one))
  · exact .inr (.inr (.inr (.inl two)))
  · refine .inl ?_
    have out : ¬ inRange .hbmTgCtl v = true := fun h => by
      have := (inRange_hbmTgCtl.1 h).1
      omega
    simp [out]

/-- The words of START, STOP and a bare mode select, from the one written. -/
theorem tgWords (v : W64) : (∀ x, bits (setBits v 63 63 x).toNat 61 60 = bits v.toNat 61 60 ∧
      bits (setBits v 63 63 x).toNat 59 56 = bits v.toNat 59 56 ∧ bits (setBits v 63 63 x).toNat 31 0 = bits v.toNat 31 0) ∧
    ∀ x, bits (setBits v 63 62 x).toNat 61 60 = bits v.toNat 61 60 ∧ bits (setBits v 63 62 x).toNat 59 56 = bits v.toNat 59 56 ∧
      bits (setBits v 63 62 x).toNat 31 0 = bits v.toNat 31 0 := by
  refine ⟨fun x => ⟨?_, ?_, ?_⟩, fun x => ⟨?_, ?_, ?_⟩⟩
  all_goals exact bits_setBits_ne (by decide) (by decide) (by decide) (by decide)

theorem bits_bits_top (v : W64) (x : Nat) : bit (setBits v 63 62 x).toNat 63 = (x / 2 % 2 == 1) ∧
    bit (setBits v 63 62 x).toNat 62 = (x % 2 == 1) := by
  have word : bits (setBits v 63 62 x).toNat 63 62 = x % 4 := bits_setBits_self (by decide) (by decide)
  have high : bits (setBits v 63 62 x).toNat 63 63 = x / 2 % 2 := by
    simp only [bits] at word ⊢
    omega
  have low : bits (setBits v 63 62 x).toNat 62 62 = x % 2 := by
    simp only [bits] at word ⊢
    omega
  rw [bit_eq_bits, bit_eq_bits, high, low]
  exact ⟨rfl, rfl⟩

section
variable (pass : gate s b true (regAddr .hbmTgCtl c 0) = none) (w : Rising s.mg) (legal : ¬ tgIllegal s c v)
include pass w legal

/-- START: the engine is BUSY under the word stored. -/
theorem tgWrite_starts (go : bit v.toNat 63 = true ∧ bits v.toNat 61 60 ≠ 0) (on : bit v.toNat 62 = false) : ∃ t, tgWrite s b c v = t ∧
    t.resp = .ok ∧ getF t F.HBM_TG_STAT_BUSY c = 1 ∧ getF t F.HBM_TG_CTL_MODE c = bits v.toNat 61 60 ∧
    getF t F.HBM_TG_CTL_COUNT c = bits v.toNat 31 0 := by
  obtain ⟨wt, mode, count, -⟩ := tgStored_shows (c := c) (v := v) w
  have run : tgWrite s b c v = done (tgStarted (tgStored s c v) c v) :=
    (tgWrite_accepted pass legal).trans (congrArg done (if_neg (by simp [on])))
  have ne : regAddr .hbmTgCtl c 0 ≠ regAddr .hbmTgStat c 0 := regAddr_ne_word (by decide)
  have control : WordKept (regAddr .hbmTgCtl c 0) (tgStored s c v) (tgStarted (tgStored s c v) c v) :=
    .ite (fun _ => .trans (.putF (f := F.HBM_TG_STAT_BUSY) ne) .updHalf) fun _ => .refl
  refine ⟨_, run, resp_done _, ?_⟩
  simp only [getF_done]
  exact ⟨busy_tgStarted wt go, (WordKept.getF (f := F.HBM_TG_CTL_MODE) control wt).trans mode,
    (WordKept.getF (f := F.HBM_TG_CTL_COUNT) control wt).trans count⟩

/-- A word without START or STOP: the mode alone. -/
theorem tgWrite_selects (still : bit v.toNat 63 = false) (on : bit v.toNat 62 = false) : ∃ t, tgWrite s b c v = t ∧ t.resp = .ok ∧
    getF t F.HBM_TG_CTL_MODE c = bits v.toNat 61 60 ∧ getF t F.HBM_TG_STAT_BUSY c = getF s F.HBM_TG_STAT_BUSY c := by
  obtain ⟨wt, mode, -, busy⟩ := tgStored_shows (c := c) (v := v) w
  have run : tgWrite s b c v = done (tgStored s c v) := by
    rw [tgWrite_accepted pass legal, if_neg (by simp [on]), tgStarted_still still]
  refine ⟨_, run, resp_done _, ?_⟩
  simp only [getF_done]
  exact ⟨mode, (busy w).2⟩

/-- STOP: the run is over. -/
theorem tgWrite_stops (still : bit v.toNat 63 = false) (stop : bit v.toNat 62 = true) (runs : getF s F.HBM_TG_STAT_BUSY c = 1) :
    ∃ t, tgWrite s b c v = t ∧ t.resp = .ok ∧ getF t F.HBM_TG_STAT_BUSY c = 0 ∧ getF t F.HBM_TG_STAT_DONE c = 1 := by
  obtain ⟨wt, -, -, busy⟩ := tgStored_shows (c := c) (v := v) w
  have standing : getF (tgStored s c v) F.HBM_TG_STAT_BUSY c = 1 := (busy w).2.trans runs
  have run : tgWrite s b c v = done (tgEnded (tgStored s c v) c) := by
    have accepted := tgWrite_accepted pass legal
    rw [tgStarted_still still] at accepted
    exact accepted.trans (congrArg done (if_pos ⟨stop, standing⟩))
  obtain ⟨free, finished⟩ := tgEnded_shows (c := c) wt
  exact ⟨_, run, resp_done _, (getF_done ..).trans free, (getF_done ..).trans finished⟩

end

theorem execTgRunEnd_busy {ch : BitVec 10} {errors : BitVec 32} {pc : BitVec 1} {o : BitVec 31}
    (busy : getF s F.HBM_TG_STAT_BUSY ch.toNat = 1) : execTgRunEnd ch errors pc o s = .next (
      if errors = 0 then tgEnded s ch.toNat else tgFail (tgEnded s ch.toNat) ch.toNat errors.toNat pc.toNat o.toNat) :=
  congrArg Host.Outcome.next (if_neg (by omega))

/-- FAIL through the end of a run without errors. -/
theorem fail_tgEnded (w : Rising s.mg) : getF (tgEnded s c) F.HBM_TG_STAT_FAIL c = getF s F.HBM_TG_STAT_FAIL c :=
  ((FieldKept.trans (.putF (by decide)) (.putF (by decide)) : FieldKept F.HBM_TG_STAT_FAIL c 0 s (tgEnded s c)) w).2

theorem execDramRefresh_on {ch : BitVec 10} {n : BitVec 32} (on : domainOn s (domStack (ch.toNat / 32)) = true) :
    execDramRefresh ch n s = .next (bumpF s F.HBM_CHST_REF_K ch.toNat
      (if getF s F.HBM_CHST_HOT ch.toNat = 1 then 2 * n.toNat else n.toNat)) := congrArg Host.Outcome.next (if_neg (by simp [on]))

/-- The stack's key is loaded where a channel comes back. -/
def keyLoaded (s : State) (n : Nat) : State :=
  if ((rangeFrom (32 * n) 32).any fun ch => getF s F.HBM_CHST_STATE ch == 3) && !(half s (n / 16)).baseKeys.any (fun e => e.1 == n)
  then loadKey s n else s

theorem keyLoaded_mg (n : Nat) : (keyLoaded s n).mg = s.mg := by
  unfold keyLoaded
  split
  · exact loadKey_mg _
  · rfl

theorem execChannelTrainingDone_eq (stack : BitVec 5) :
    execChannelTrainingDone stack s = .next ((rangeFrom (32 * stack.toNat) 32).foldl trainedOne (keyLoaded s stack.toNat)) := rfl

theorem mem_rangeFrom {x lo n : Nat} : x ∈ rangeFrom lo n ↔ lo ≤ x ∧ x < lo + n := by
  simp only [rangeFrom, List.mem_map, List.mem_range]
  constructor
  · rintro ⟨y, lt, rfl⟩
    omega
  · intro h
    exact ⟨x - lo, by omega, by omega⟩

theorem nodup_rangeFrom (lo n : Nat) : (rangeFrom lo n).Nodup :=
  List.nodup_range.map fun _ _ h => Nat.add_left_cancel h

theorem state_keyLoaded (n : Nat) : getF (keyLoaded s n) F.HBM_CHST_STATE c = getF s F.HBM_CHST_STATE c := by
  unfold getF reg
  rw [keyLoaded_mg]

theorem execTrackerHoldRelease_oldest {h : BitVec 1} {e : HeldOp × Waiter} {r : List (HeldOp × Waiter)}
    (held : (half s h.toNat).ckp.ops = e :: r) : execTrackerHoldRelease h s = .next (
      if ((heldLines e.1).filter fun a => !inAperture a && trackerHolds s a).any (stashFull s) then s
      else releaseHeld (((((heldLines e.1).filter fun a => !inAperture a && trackerHolds s a).map (sliceOf s)).dedup).foldl
        (fun s k => stashSlice s h.toNat k) s) h.toNat) := by
  simp only [execTrackerHoldRelease, held]

/-- Settles O32: a write of an engine by the bits it holds, the services of a channel by their own equations. -/
theorem channelServices : Obligations.ChannelServices := by
  unfold Obligations.ChannelServices
  refine ⟨fun b ch v s canon => ?engines, fun ch s canon => ?services⟩
  case engines =>
    intro c busy mode owned
    have w := regs_rising canon.mg
    obtain ⟨start, stop⟩ := tgWords v
    refine ⟨fun pass => ⟨fun bad => ⟨?start, ?stop, ?select⟩, fun runs => ?busy, fun idle own on state => ?started, fun own off => ⟨?selected, fun runs => ?stopped⟩⟩,
      fun errors pc o runs => ?ends⟩
    case start =>
      exact congrArg Host.Outcome.next (tgWrite_refused pass (tgIllegal_mode (by rw [(start 1).1]; exact bad)))
    case stop => exact congrArg Host.Outcome.next (tgWrite_refused pass (tgIllegal_mode (by rw [(stop 1).1]; exact bad)))
    case select => exact congrArg Host.Outcome.next (tgWrite_refused pass (tgIllegal_mode (by rw [(stop 0).1]; exact bad)))
    case busy =>
      exact congrArg Host.Outcome.next (tgWrite_refused pass (.inr (.inr (.inr (.inr (.inl ⟨bit_setBits_top 1, runs⟩))))))
    case started =>
      have some' : mode ≠ 0 := by
        change (mode = 1 ∧ _) ∨ (mode = 2 ∧ _) at own
        omega
      have legal : ¬ tgIllegal s c (setBits v 63 63 1) :=
        tgLegal (by rw [(start 1).1, (start 1).2.1]; exact own) fun _ => ⟨idle, by rw [(start 1).1]; exact state⟩
      obtain ⟨t, run, shows⟩ := tgWrite_starts pass w legal ⟨bit_setBits_top 1, by rwa [(start 1).1]⟩
        (by rwa [bit_setBits_other (by decide) (by decide)])
      rw [(start 1).1, (start 1).2.2] at shows
      exact ⟨t, congrArg Host.Outcome.next run, shows⟩
    case selected =>
      obtain ⟨high, low⟩ := bits_bits_top v 0
      have legal : ¬ tgIllegal s c (setBits v 63 62 0) :=
        tgLegal (by rw [(stop 0).1, (stop 0).2.1]; exact own) fun go => absurd (high.symm.trans go) (by decide)
      obtain ⟨t, run, shows⟩ := tgWrite_selects pass w legal high low
      rw [(stop 0).1] at shows
      exact ⟨t, congrArg Host.Outcome.next run, shows⟩
    case stopped =>
      obtain ⟨high, low⟩ := bits_bits_top v 1
      have legal : ¬ tgIllegal s c (setBits v 63 62 1) :=
        tgLegal (by rw [(stop 1).1, (stop 1).2.1]; exact own) fun go => absurd (high.symm.trans go) (by decide)
      obtain ⟨t, run, shows⟩ := tgWrite_stops pass w legal high low runs
      exact ⟨t, congrArg Host.Outcome.next run, shows⟩
    case ends =>
      have we : Rising (tgEnded s c).mg := rising_putF (rising_putF w ..) ..
      obtain ⟨free, done⟩ := tgEnded_shows (c := c) w
      have run := execTgRunEnd_busy (errors := errors) (pc := pc) (o := o) runs
      by_cases clean : errors = 0
      · rw [if_pos clean] at run
        exact ⟨_, run, free, done, fun some' => absurd clean some', fun _ => fail_tgEnded w⟩
      · rw [if_neg clean] at run
        exact ⟨_, run, ((fieldKept_tgFail rfl (by decide) (by decide)) we).2.trans free,
          ((fieldKept_tgFail rfl (by decide) (by decide)) we).2.trans done, fun _ => fail_tgFail we, fun no => absurd no clean⟩
  case services =>
    intro c
    have w := regs_rising canon.mg
    have lt : c < 1024 := ch.isLt
    refine ⟨fun pc o e on => ⟨congrArg Host.Outcome.next (if_pos (.inr rfl)), fun bad => congrArg Host.Outcome.next (if_neg (by simp [c, on, bad]))⟩,
      fun n on => ⟨_, execDramRefresh_on on, ?refresh⟩, fun stack => ⟨_, execChannelTrainingDone_eq stack, ?trained⟩,
      fun h none => by simp only [exec, execTrackerHoldRelease, none], fun h e r held => ?hold⟩
    case refresh =>
      refine (getF_putF_same w F.HBM_CHST_REF_K (by decide)).trans ?_
      change min _ (2 ^ 32 - 1) % 2 ^ 32 = _
      rw [Nat.mod_eq_of_lt (by omega), Nat.min_comm]
    case trained =>
      have wk : Rising (keyLoaded s stack.toNat).mg := by rwa [keyLoaded_mg]
      have := stack.isLt
      rw [trainedAll wk lt (fun d mem => by have := mem_rangeFrom.1 mem; omega) (nodup_rangeFrom ..), state_keyLoaded]
      simp only [mem_rangeFrom, show 32 * stack.toNat ≤ c ∧ c < 32 * stack.toNat + 32 ↔ c / 32 = stack.toNat by omega]
    case hold =>
      intro ls room
      exact (execTrackerHoldRelease_oldest held).trans (congrArg Host.Outcome.next (if_neg (ne_true_of_eq_false room)))

end Sys2Proof.Machine
end

section
/-! SUPPORT. Register accesses (R7-R10, R497), and the proof of their obligation. -/

namespace Sys2Proof.Machine

variable {s t : State} {a : Nat} {b : Requester} {r : Reg} {i k : Nat} {v sets : W64}

/-! Addresses and words. -/

/-- A choice's results, branch by branch. -/
theorem forall_ite_some {α : Type} {c : Prop} [Decidable c] {x y : Option α} {P : α → Prop} (yes : c → ∀ z, x = some z → P z)
    (no : ¬ c → ∀ z, y = some z → P z) : ∀ z, (if c then x else y) = some z → P z := by
  intro z found
  split at found
  · exact yes ‹_› z found
  · exact no ‹_› z found

theorem forall_some {α : Type} {x : α} {P : α → Prop} (h : P x) : ∀ z, some x = some z → P z := fun _ same => Option.some.inj same ▸ h

theorem forall_none {α : Type} {P : α → Prop} : ∀ z, (none : Option α) = some z → P z := fun _ none => nomatch none

/-- Address a is offset z.2.2 of copy z.2.1 of block z.1. -/
def LiesAt (a : Nat) (z : Block × Nat × Nat) : Prop := a = blockBase z.1 z.2.1 + z.2.2

theorem liesAt_of_halfBlockOf (h o : Nat) : ∀ z, halfBlockOf h o = some z → LiesAt (halfBase h + o) z := by
  unfold halfBlockOf
  repeat' refine forall_ite_some (fun _ => ?_) fun _ => ?_
  any_goals exact forall_none
  all_goals
    refine forall_some ?_
    simp only [LiesAt, blockBase, halfBase]
    omega

theorem liesAt_of_blockOf : ∀ z, blockOf a = some z → LiesAt a z := by
  unfold blockOf
  refine forall_ite_some (fun _ => forall_none) fun _ => forall_ite_some (fun _ => forall_ite_some (fun _ => forall_some ?solv) fun _ => forall_none)
    fun _ => forall_ite_some (fun _ => forall_none) fun _ => forall_ite_some (fun _ => forall_some ?dev)
    fun _ => forall_ite_some (fun _ => forall_some ?pwr) fun _ => forall_ite_some (fun _ => forall_none)
    fun _ => forall_ite_some (fun _ => forall_some ?seam) fun _ => forall_ite_some (fun _ => forall_none)
    fun _ => forall_ite_some (fun _ => ?half) fun _ => forall_none
  case half =>
    have region : halfBase ((a - 0x7F0010000000) / 0x10000000) + (a - 0x7F0010000000) % 0x10000000 = a := by
      simp only [halfBase]
      omega
    intro z found
    have lies := liesAt_of_halfBlockOf _ _ z found
    rwa [region] at lies
  all_goals
    simp only [LiesAt, blockBase]
    omega

theorem blockBase_of_blockOf {o : Nat} {blk : Block} (found : blockOf a = some (blk, i, o)) : a = blockBase blk i + o :=
  liesAt_of_blockOf _ found

theorem wordOff_of_regIndex {o : Nat} (found : regIndex r o = some k) : o = wordOff r k := by
  unfold regIndex at found
  dsimp only at found
  unfold wordOff
  split_ifs at found with below single same inside
  · obtain rfl := Option.some.inj found
    omega
  · obtain rfl := Option.some.inj found
    have := Nat.div_add_mod (o - (regSpec r).off) (regSpec r).stride
    omega

/-- Every register's words lie at multiples of 8 bytes. -/
theorem word_aligned (r : Reg) (k : Nat) : wordOff r k % 8 = 0 := by
  have spec : (regSpec r).off % 8 = 0 ∧ (regSpec r).stride % 8 = 0 := by cases r <;> decide
  rw [wordOff, Nat.add_mod, Nat.mul_mod, spec.1, spec.2]
  simp

theorem blockBase_aligned (blk : Block) (i : Nat) : blockBase blk i % 8 = 0 := by
  cases blk <;> simp only [blockBase, halfBase] <;> omega

theorem blk_of_mem_regsOf {blk : Block} : ∀ r ∈ regsOf blk, (regSpec r).blk = blk := by
  cases blk <;> decide

/-- A register is found at its own address. -/
theorem regAddr_of_regAt (found : regAt a = some (r, i, k)) : a % 8 = 0 ∧ a = regAddr r i k := by
  unfold regAt at found
  split at found
  · nomatch found
  next blk inst o block =>
    obtain ⟨r', mem, index⟩ := List.exists_of_findSome?_eq_some found
    obtain ⟨k', word, same⟩ := Option.map_eq_some_iff.1 index
    simp only [Prod.mk.injEq] at same
    obtain ⟨rfl, rfl, rfl⟩ := same
    have base := blockBase_of_blockOf block
    have off := wordOff_of_regIndex word
    have aligned := word_aligned r' k'
    have aligned' := blockBase_aligned blk inst
    refine ⟨by omega, ?_⟩
    rw [regAddr_eq, blk_of_mem_regsOf r' mem, ← off]
    exact base

theorem setBits_zero (hi lo : Nat) : setBits 0 hi lo 0 = 0 := by simp [setBits, bits]

theorem w1cBits_zero (r : Reg) : w1cBits r 0 = 0 := by
  unfold w1cBits
  induction (regSpec r).fields with
  | nil => rfl
  | cons f fs ih =>
    refine Eq.trans (congrArg (List.foldl _ · fs) ?_) ih
    dsimp only
    split
    · have none : bits (0 : W64).toNat f.hi f.lo = 0 := by simp [bits]
      rw [none, setBits_zero]
    · rfl

/-! Writes. -/

theorem setDuring_nothing : setDuring s a 0 = s := by
  unfold setDuring
  split
  · exact if_neg fun h => h.1 (w1cBits_zero _)
  · rfl

theorem setDuring_at (found : regAt a = some (r, i, k)) (on : blockOn s (regSpec r).blk i = true) (some' : w1cBits r sets ≠ 0) :
    setDuring s a sets = setReg s r i k (reg s r i k ||| w1cBits r sets) := by
  unfold setDuring
  rw [found]
  exact if_pos ⟨some', on⟩

theorem execRegisterWrite_quiet {addr : BitVec 48} {size : Nat} :
    execRegisterWrite b addr size ⟨v, 0⟩ s = .next (writeReg s b addr.toNat size v) := congrArg Host.Outcome.next setDuring_nothing

theorem writeReg_malformed {size : Nat} (bad : size ≠ 8 ∨ a % 8 ≠ 0) : writeReg s b a size v = denied s b := if_pos bad

theorem readReg_malformed {size : Nat} (bad : size ≠ 8 ∨ a % 8 ≠ 0) : readReg s b a size = denied s b := if_pos bad

theorem writeReg_found (found : regAt a = some (r, i, k)) : writeReg s b a 8 v = writeTo s b r i k v := by
  have aligned := (regAddr_of_regAt found).1
  unfold writeReg
  rw [if_neg (by omega), found]

/-- A denied access answers, and changes nothing else. -/
theorem denied_answer : denied s b = { s with resp := match b with
    | .host _ => .code lomAccess
    | _ => .accessError } := by cases b <;> rfl

/-- Registers without a rule of their own take their RW fields. -/
theorem writeTo_plain : ∀ r ∈ [Reg.coreVtrap, .leatCfg, .leatBind, .leatSrcinc, .leatStage, .collCfg, .ckpPeriod, .ckpPhase, .ckpJob,
    .ckpRman, .ckpRstep, .ckpRjob, .secQnonce], writeTo s b r i k v = guarded s b r i k fun s => plainWrite s b r i k v := by
  simp only [List.forall_mem_cons]
  exact ⟨rfl, rfl, rfl, rfl, rfl, rfl, rfl, rfl, rfl, rfl, rfl, rfl, rfl, fun _ none => absurd none List.not_mem_nil⟩

theorem execRegisterWrite_plain {addr : BitVec 48} (found : regAt addr.toNat = some (r, i, k)) (pass : gate s b true addr.toNat = none)
    (plain : r ∈ [Reg.coreVtrap, .leatCfg, .leatBind, .leatSrcinc, .leatStage, .collCfg, .ckpPeriod, .ckpPhase, .ckpJob,
      .ckpRman, .ckpRstep, .ckpRjob, .secQnonce]) :
    execRegisterWrite b addr 8 ⟨v, 0⟩ s = .next (plainWrite s b r i k v) := by
  rw [(regAddr_of_regAt found).2] at pass
  rw [execRegisterWrite_quiet, writeReg_found found, writeTo_plain r plain, guarded_none pass]

/-! Reads. -/

section
variable (found : regAt a = some (r, i, k)) (pass : gate s b false a = none)
  (plain : r ∉ [Reg.devUstat, .devElog, .lomHdb, .pwrMeas, .hoistStat, .seamState])
include found pass

theorem readReg_found : readReg s b a 8 = answer (afterRead s b r i k) (.value (shownWord s r i k)) := by
  have aligned := (regAddr_of_regAt found).1
  unfold readReg
  rw [if_neg (by omega), pass, found]

include plain

/-- A plain register shows its word and clears its RC fields. -/
theorem readReg_on (on : blockOn s (regSpec r).blk i = true) :
    readReg s b a 8 = answer (setReg s r i k (clearedWord r (reg s r i k))) (.value (readWord r (reg s r i k))) := by
  rw [readReg_found found pass]
  simp only [List.mem_cons, not_or] at plain
  obtain ⟨ustat, elog, hdb, meas, hoist, -, -⟩ := plain
  have shown : shownWord s r i k = readWord r (reg s r i k) := by
    unfold shownWord
    rw [if_neg (by simp [on])]
    dsimp only
    split
    · exact absurd rfl ustat
    · exact absurd rfl meas
    · exact absurd rfl hoist
    · rfl
  have after : afterRead s b r i k = setReg s r i k (clearedWord r (reg s r i k)) := by
    unfold afterRead
    rw [if_neg (by simp [on])]
    split
    · exact absurd rfl ustat
    · exact absurd rfl elog
    · exact absurd rfl hdb
    · rfl
  rw [shown, after]

theorem readReg_off (off : blockOn s (regSpec r).blk i = false) : readReg s b a 8 = answer s (.value 0) := by
  rw [readReg_found found pass]
  have ne : r ≠ .seamState := fun same => plain (by simp [same])
  have shown : shownWord s r i k = 0 := by
    unfold shownWord
    rw [if_pos (by simp [off]), if_neg ne]
  have after : afterRead s b r i k = s := if_pos (by simp [off])
  rw [shown, after]

end

/-- A read that is refused answers no value. -/
theorem execReadToClear_malformed {addr : BitVec 48} {size : Nat} (bad : size ≠ 8 ∨ addr.toNat % 8 ≠ 0) :
    execReadToClear b addr ⟨size, sets⟩ s = .next (denied s b) := by
  simp only [execReadToClear, readReg_malformed bad]
  cases b <;> rfl

theorem execReadToClear_value {addr : BitVec 48} (found : regAt addr.toNat = some (r, i, k)) {t : State} {x : W64}
    (run : readReg s b addr.toNat 8 = answer t (.value x)) : execReadToClear b addr ⟨8, sets⟩ s = .next (
      if blockOn s (regSpec r).blk i then setAfter (answer t (.value x)) r i k sets else answer t (.value x)) := by
  simp only [execReadToClear, run, found]
  rfl

theorem setAfter_plain (ne : r ≠ .devUstat) :
    setAfter s r i k sets = setReg s r i k (reg s r i k ||| (sets &&& (clearedWord r sets ^^^ sets))) := if_neg ne

/-- Settles O33: an access finds its register at its own address, and a plain one acts on that word alone. -/
theorem registerAccesses : Obligations.RegisterAccesses := by
  unfold Obligations.RegisterAccesses
  refine ⟨fun b addr size v sets s => ?writes, fun b addr sets s r i k canon found aligned pass plain => ?reads⟩
  case writes =>
    intro a
    refine ⟨fun bad => ?write, fun bad => ?read, fun r i k => regAddr_of_regAt, fun r i k found pass plain => ⟨fun range => ?put, fun range => ?refuse⟩,
      fun t run => ⟨?during, fun r i k found on some' => setDuring_at found on some'⟩⟩
    case write => exact execRegisterWrite_quiet.trans (congrArg Host.Outcome.next ((writeReg_malformed bad).trans denied_answer))
    case read => exact (execReadToClear_malformed bad).trans (congrArg Host.Outcome.next denied_answer)
    case put => exact (execRegisterWrite_plain found pass plain).trans (congrArg Host.Outcome.next (if_pos range))
    case refuse =>
      exact (execRegisterWrite_plain found pass plain).trans (congrArg Host.Outcome.next (if_neg (ne_true_of_eq_false range)))
    case during =>
      have same : writeReg s b a size v = t := Host.Outcome.next.inj (execRegisterWrite_quiet.symm.trans run)
      exact congrArg (fun t => Host.Outcome.next (setDuring t a sets)) same
  case reads =>
    have w := regs_rising canon.mg
    refine ⟨fun on => ?on, fun off => ?off⟩
    case on =>
      have wc : Rising (answer (setReg s r i k (clearedWord r (reg s r i k))) (.value (readWord r (reg s r i k)))).mg := rising_setReg w ..
      have ne : r ≠ .devUstat := fun same => plain (by simp [same])
      have run := execReadToClear_value (sets := sets) found (readReg_on found pass plain on)
      rw [if_pos on, setAfter_plain ne] at run
      refine ⟨_, run, rfl, ?_, fun r' i' k' other => ?_⟩
      · rw [reg_setReg_self wc]
        exact congrArg (· ||| _) (reg_setReg_self w ..)
      · rw [reg_setReg_ne wc other]
        exact reg_setReg_ne w other
    case off =>
      exact (execReadToClear_value found (readReg_off found pass plain off)).trans
        (congrArg Host.Outcome.next (if_neg (ne_true_of_eq_false off)))

end Sys2Proof.Machine
end

section
/-! SUPPORT. Lomly packets, events and descriptors (R381-R389), and the proof of their obligation. -/

namespace Sys2Proof.Machine

variable {s : State} {k : Nat} {b : Requester}

/-! Packets of the host. -/

theorem hwackApply_found {tag : Nat} {r : HostReq} (found : ((getLom s k).hreqs.find? fun r => r.tag == tag && !r.read) = some r) :
    hwackApply s k tag = hostReqEnd s k r 0 := by
  unfold hwackApply
  rw [found]

/-! Events (R388, R389). -/

/-- The event goes out. -/
def eventOut (s : State) (k : Nat) (e : Event) : State :=
  lomSend (updLom s k fun l => { l with events := l.events.map fun x => if x.seq = e.seq then { x with sent := true } else x }) k 2
    (lomPkt 9 0 0 0 0 (BitVec.ofNat 64 e.seq) (eventWords e))

theorem execEventSend_found {h : BitVec 1} {e : Event} (live : lomLive s h.toNat = true) (booted : halfState s h.toNat ≠ hsBoot)
    (credit : 0 < (getLink s (lomKey h.toNat)).cr.getD 2 0) (found : ((getLom s h.toNat).events.find? fun e => !e.sent) = some e) :
    execEventSend h s = .next (eventOut s h.toNat e) := by
  have every : (fun e : Event => !e.sent && (halfState s h.toNat != hsBoot || [evHalf, evLink].contains e.src)) = fun e => !e.sent := by
    funext e
    simp [booted]
  refine congrArg Host.Outcome.next ((if_neg (not_or.2 ⟨by simp [live], by omega⟩)).trans ?_)
  · rw [every, found]
    rfl

theorem raiseEvent_masked {src code : Nat} {payload : List W64} (masked : bit (getF s F.LOM_CFG_EVMASK k) src = false) :
    raiseEvent s k src code payload = s := if_neg (ne_true_of_eq_false masked)

/-! Descriptors (R383-R386). -/

/-- The next held descriptor of queue q. -/
def nextHeld (s : State) (k q : Nat) : Option Dma := (getLom s k).dmas.find? fun d => d.q == q && !d.started

/-- Queue q of half k may start descriptor d: the link is live, the queue runs, fewer than eight run, and d waits for none. -/
structure MayStart (s : State) (k q : Nat) (d : Dma) : Prop where
  next : nextHeld s k q = some d
  live : lomLive s k = true
  runs : (getLom s k).stopping.contains q = false
  few : (running (getLom s k)).length < 8
  free : dmaFence d = false

theorem execDmaDescriptorStart_may {h : BitVec 1} {q : BitVec 4} {d : Dma} (may : MayStart s h.toNat q.toNat d) :
    execDmaDescriptorStart h q s = .next (
      if !descLegal fun i => (d.words.getD i 0).toNat then dmaLeave s h.toNat d lomBadDesc.toNat
      else if !regionInHbm s (d.words.getD 2 0).toNat (d.words.getD 3 0).toNat then dmaLeave s h.toNat d lomBadAddr.toNat
      else refillAll (updLom s h.toNat fun l => { l with
        dmas := l.dmas.map fun e => if e.id = d.id then { e with started := true } else e }) h.toNat) := by
  obtain ⟨next, live, runs, few, free⟩ := may
  unfold nextHeld at next
  simp only [execDmaDescriptorStart, next]
  refine congrArg Host.Outcome.next ((if_neg ?_).trans (if_neg ?_))
  · rw [live, runs, free]
    simp
    omega
  · rw [free]
    simp

theorem execDmaDescriptorComplete_answered {h : BitVec 1} {id : Nat} {d : Dma}
    (found : ((getLom s h.toNat).dmas.find? fun d => d.id == id && d.started && d.left == 0) = some d) :
    execDmaDescriptorComplete h id s = .next (refillAll (queueOff (dmaLeave (afterWrite s h.toNat d).1 h.toNat d
      (afterWrite s h.toNat d).2) h.toNat d.q) h.toNat) := by
  simp only [execDmaDescriptorComplete, found]

theorem execLomlyDmaTimeout_found {h : BitVec 1} {tag : BitVec 16} {r : HostReq}
    (found : ((getLom s h.toNat).hreqs.find? fun r => r.tag == tag.toNat) = some r) :
    execLomlyDmaTimeout h tag s = .next (hostReqEnd s h.toNat r lomTimeout) := by
  simp only [execLomlyDmaTimeout, found]

/-- Settles O37: each packet's rule on a live link, and a descriptor's checks in their order. -/
theorem lomlyPacketsAndDma : Obligations.LomlyPacketsAndDma := by
  unfold Obligations.LomlyPacketsAndDma
  refine ⟨fun h s => ?packets, fun h s => ?descriptors⟩
  case packets =>
    intro k
    refine ⟨fun live => ⟨fun addr v tag => ⟨congrArg Host.Outcome.next (if_pos live), congrArg Host.Outcome.next (if_pos live)⟩,
      fun q line => congrArg Host.Outcome.next (if_pos live), fun tag ls => congrArg Host.Outcome.next (if_pos live),
      fun tag r found => congrArg Host.Outcome.next ((if_pos live).trans (hwackApply_found found)),
      fun n => congrArg Host.Outcome.next (if_pos live), fun e booted credit found => execEventSend_found live booted credit found⟩,
      fun v pass => ⟨fun masked => congrArg Host.Outcome.next ((guarded_none pass).trans (congrArg done (raiseEvent_masked masked))),
        congrArg Host.Outcome.next (guarded_none pass)⟩⟩
  case descriptors =>
    intro k l
    refine ⟨fun q d next live runs few free => ?start, fun id d found => ⟨execDmaDescriptorComplete_answered found, fun none => ?after⟩,
      fun tag r found => execLomlyDmaTimeout_found found⟩
    case after => exact if_neg (ne_true_of_eq_false none)
    case start =>
      intro w
      have run := execDmaDescriptorStart_may (q := q) ⟨next, live, runs, few, free⟩
      refine ⟨fun bad => ?_, fun good out => ?_, fun good fits => ?_⟩
      · exact run.trans (congrArg Host.Outcome.next (if_pos (congrArg not bad)))
      · exact run.trans (congrArg Host.Outcome.next ((if_neg (ne_true_of_eq_false (congrArg not good))).trans (if_pos (congrArg not out))))
      · exact run.trans (congrArg Host.Outcome.next ((if_neg (ne_true_of_eq_false (congrArg not good))).trans (if_neg (ne_true_of_eq_false (congrArg not fits)))))

end Sys2Proof.Machine
end

section
/-! SUPPORT. Leat requests at their target and their answers (R311-R319), and the proof of their obligation. -/

namespace Sys2Proof.Machine

variable {s t : State} {k : Nat} {p q : Packet} {len : Nat}

/-! The checks of R311, in their order. -/

/-- Word n of the region entry the packet names. -/
def entryWord (s : State) (k : Nat) (p : Packet) (n : Nat) : Nat := regionWord s k (bits p.daddr.toNat 54 44) n

/-- The packet belongs to this incarnation and to the region's epoch. -/
def Current (s : State) (k : Nat) (p : Packet) : Prop := fenced s k p = false ∧ bits (entryWord s k p 1) 31 16 = p.epoch.toNat

/-- Its sender is in the region's source set. -/
def listedSource (s : State) (k : Nat) (p : Packet) : Bool :=
  bit (reg s .leatSset k (8 * bits (entryWord s k p 0) 59 54 + srcOf p / 64)).toNat (srcOf p % 64)

/-- It arrives within the region's window. -/
def inWindow (s : State) (k : Nat) (p : Packet) : Bool :=
  decide (entryWord s k p 3 ≤ hallTime s k) && (entryWord s k p 4 == 2 ^ 64 - 1 || decide (hallTime s k < entryWord s k p 4))

/-- It arrives within 40 ns of an edge of the window. -/
def nearEdge (s : State) (k : Nat) (p : Packet) : Bool :=
  within 40 (hallTime s k) (entryWord s k p 3) ||
    (entryWord s k p 4 != 2 ^ 64 - 1 && within 40 (hallTime s k) (entryWord s k p 4))

/-- The region permits a request of its kind. -/
def permitted (s : State) (k : Nat) (p : Packet) : Bool :=
  match p.ptype.toNat with
  | 0 => bit (entryWord s k p 0) 62
  | 1 => bit (entryWord s k p 0) 61
  | 2 => bit (entryWord s k p 0) 60 && !bit (entryWord s k p 0) 53
  | _ => false

/-- What is left of the verdict once the packet is current: VALID, KEY, source, window, permission, bounds, the half. -/
def regionChecks (s : State) (k : Nat) (p : Packet) (len : Nat) : State × Verdict :=
  if !bit (entryWord s k p 0) 63 then (s, .refuse ltNoregion)
  else if bits (entryWord s k p 1) 63 32 ≠ p.key.toNat then (s, .refuse ltKey)
  else if !listedSource s k p then (s, .refuse ltSource)
  else if !inWindow s k p then (s, .refuse (if nearEdge s k p then ltWindowEdge else ltWindow))
  else if !permitted s k p then (s, .refuse ltPerm)
  else if bits (entryWord s k p 2) 43 0 < firstLine p (bits p.daddr.toNat 43 0) + len then (s, .refuse ltBounds)
  else if !halfRunning s k then (s, .refuse stHalfDown)
  else (if nearEdge s k p then bumpF s F.LEAT_DROP_EDGE_ACCEPT k else s,
    if bit (entryWord s k p 0) 53 then .gateway (bits p.daddr.toNat 54 44)
    else .accept (bits (entryWord s k p 0) 47 0 + bits p.daddr.toNat 43 0) (nearEdge s k p))

theorem verdict_fenced (h : fenced s k p = true) : verdict s k p len = (fence s k p, .drop) := if_pos h

theorem verdict_stale (h : fenced s k p = false) (stale : bits (entryWord s k p 1) 31 16 ≠ p.epoch.toNat) :
    verdict s k p len = (bumpF s F.LEAT_DROP_STALE_EPOCH k, .drop) := (if_neg (ne_true_of_eq_false h)).trans (if_pos stale)

theorem verdict_current (h : Current s k p) : verdict s k p len = regionChecks s k p len :=
  (if_neg (ne_true_of_eq_false h.1)).trans (if_neg (not_not.2 h.2))

section
variable (valid : bit (entryWord s k p 0) 63 = true)

theorem regionChecks_invalid (no : bit (entryWord s k p 0) 63 = false) : regionChecks s k p len = (s, .refuse ltNoregion) :=
  if_pos (congrArg not no)

include valid

theorem regionChecks_key (no : bits (entryWord s k p 1) 63 32 ≠ p.key.toNat) : regionChecks s k p len = (s, .refuse ltKey) :=
  (if_neg (by simp [valid])).trans (if_pos no)

variable (key : bits (entryWord s k p 1) 63 32 = p.key.toNat)
include key

theorem regionChecks_source (no : listedSource s k p = false) : regionChecks s k p len = (s, .refuse ltSource) :=
  (if_neg (by simp [valid])).trans ((if_neg (not_not.2 key)).trans (if_pos (congrArg not no)))

variable (listed : listedSource s k p = true)
include listed

theorem regionChecks_window (no : inWindow s k p = false) :
    regionChecks s k p len = (s, .refuse (if nearEdge s k p then ltWindowEdge else ltWindow)) := by
  unfold regionChecks
  rw [if_neg (by simp [valid]), if_neg (not_not.2 key), if_neg (by simp [listed])]
  exact if_pos (congrArg not no)

variable (win : inWindow s k p = true)
include win

theorem regionChecks_permission (no : permitted s k p = false) : regionChecks s k p len = (s, .refuse ltPerm) := by
  unfold regionChecks
  rw [if_neg (by simp [valid]), if_neg (not_not.2 key), if_neg (by simp [listed]), if_neg (by simp [win])]
  exact if_pos (congrArg not no)

variable (perm : permitted s k p = true)
include perm

theorem regionChecks_bounds (out : bits (entryWord s k p 2) 43 0 < firstLine p (bits p.daddr.toNat 43 0) + len) :
    regionChecks s k p len = (s, .refuse ltBounds) := by
  unfold regionChecks
  rw [if_neg (by simp [valid]), if_neg (not_not.2 key), if_neg (by simp [listed]), if_neg (by simp [win]), if_neg (by simp [perm]),
    if_pos out]

theorem regionChecks_down (fits : firstLine p (bits p.daddr.toNat 43 0) + len ≤ bits (entryWord s k p 2) 43 0)
    (down : halfRunning s k = false) : regionChecks s k p len = (s, .refuse stHalfDown) := by
  unfold regionChecks
  rw [if_neg (by simp [valid]), if_neg (not_not.2 key), if_neg (by simp [listed]), if_neg (by simp [win]), if_neg (by simp [perm]),
    if_neg (Nat.not_lt.2 fits)]
  exact if_pos (congrArg not down)

end

/-! Requests (R311, R314). -/

/-- The type of the response to a request. -/
def answerType (p : Packet) : BitVec 4 := if p.ptype = 0 then 3 else 4

theorem serveRemote_drop (h : verdict s k p (reach p) = (t, .drop)) : serveRemote s k p = t := by
  unfold serveRemote
  rw [h]

theorem serveRemote_refuse {c : BitVec 8} (h : verdict s k p (reach p) = (s, .refuse c)) :
    serveRemote s k p = respond s k p (answerType p) c false [] := by
  unfold serveRemote
  rw [h]
  rfl

theorem serveRemote_read {a : Nat} {e : Bool} (h : verdict s k p (reach p) = (t, .accept a e)) (read : p.ptype = 0) :
    serveRemote s k p = respond t k p 3 (memReadAny t k (.packet k p) (p.lines.toNat + 2) a (64 * p.lines.toNat)).1 e
      (if (memReadAny t k (.packet k p) (p.lines.toNat + 2) a (64 * p.lines.toNat)).1 = 0 then
        lineWords (memReadAny t k (.packet k p) (p.lines.toNat + 2) a (64 * p.lines.toNat)).2 p.lines.toNat else []) := by
  unfold serveRemote
  rw [h]
  exact if_pos read

/-- A request served at once is answered with its status, else when what holds it ends. -/
def served (u : State) (who : Waiter) (e : Bool) (old : List W64) (c : Option (BitVec 8)) : State :=
  match c with
  | some c => answerW u who c e old
  | none => u

theorem serveRemote_other {a : Nat} {e : Bool} {u : State} {c : Option (BitVec 8)} (h : verdict s k p (reach p) = (t, .accept a e))
    (other : p.ptype ≠ 0) (put : serveWrite t k none p a none (.packet k { p with edge := e }) = (u, c)) :
    serveRemote s k p = served u (.packet k { p with edge := e }) e (oldWord t p a) c := by
  unfold serveRemote
  rw [h]
  refine (if_neg other).trans ?_
  simp only [put]
  rfl

theorem serveWrite_write {a : Nat} {who : Waiter} (write : p.ptype = 1) :
    serveWrite t k none p a none who = memWriteLines t k (writeLines p a) who := if_pos write

theorem serveWrite_atomic {a : Nat} {who : Waiter} (atomic : p.ptype = 2) (some' : p.lines ≠ 0)
    (legal : atomLegal p.aop.toNat p.fc.toNat = true) : serveWrite t k none p a none who = memAtomic t k (atomOf p a) none none who := by
  unfold serveWrite
  rw [if_neg (by rw [atomic]; decide), if_neg some', if_neg (by simp [legal])]

/-! Bulk packets (R319). -/

/-- The leat request a bulk packet asks for. -/
def bulkRequest (p : Packet) : Packet :=
  { p with ptype := if p.aop = 1 then 0 else 1, first := 0, last := if p.aop = 1 then 0 else 63 }

theorem bulkServe_read {h a : Nat} {e : Bool} (here : bits p.daddr.toNat 63 56 = myNode s h) (fetch : p.aop = 1)
    (ok : verdict s (bits p.daddr.toNat 55 55) (bulkRequest p) (reach p) = (t, .accept a e)) :
    bulkServe s h p = answerW t (.packet h p) (memReadAny t (bits p.daddr.toNat 55 55) (.packet h p) (p.lines.toNat + 2) a (64 * p.lines.toNat)).1
      false (if (memReadAny t (bits p.daddr.toNat 55 55) (.packet h p) (p.lines.toNat + 2) a (64 * p.lines.toNat)).1 = 0 then
        lineWords (memReadAny t (bits p.daddr.toNat 55 55) (.packet h p) (p.lines.toNat + 2) a (64 * p.lines.toNat)).2 p.lines.toNat else []) := by
  unfold bulkServe
  extract_lets d q who inst
  rw [if_pos here, show verdict s inst q (reach q) = _ from ok]
  exact if_pos fetch

theorem bulkServe_write {h a : Nat} {e : Bool} {u : State} {c : Option (BitVec 8)} (here : bits p.daddr.toNat 63 56 = myNode s h)
    (store : p.aop ≠ 1) (ok : verdict s (bits p.daddr.toNat 55 55) (bulkRequest p) (reach p) = (t, .accept a e))
    (put : memWriteLines t (bits p.daddr.toNat 55 55) (writeLines { p with first := 0, last := 63 } a) (.packet h p) = (u, c)) :
    bulkServe s h p = served u (.packet h p) false [] c := by
  unfold bulkServe
  extract_lets d q who inst
  rw [if_pos here, show verdict s inst q (reach q) = _ from ok]
  refine (if_neg store).trans ?_
  have write : q.ptype = 1 := if_neg store
  have last : q.last = 63 := if_neg store
  have request : serveWrite t inst none { q with aop := 0 } a none who = (u, c) := by
    refine (serveWrite_write (p := { q with aop := 0 }) write).trans (Eq.trans (congrArg (memWriteLines t inst · who) ?_) put)
    unfold writeLines
    dsimp only
    rw [last]
    rfl
  rw [request]
  cases c <;> rfl

/-! Answers (R313-R315, R317). -/

/-- The request that a response answers. -/
def answered (s : State) (k : Nat) (p : Packet) : Option LeatReq :=
  (half s k).reqs.find? fun r => r.tag == p.tag.toNat && (p.ptype == 3) == (r.pkt.ptype == 0)

section
variable {h : Nat} (here : bits p.daddr.toNat 63 56 = myNode s h)
include here

theorem arriveResp_fenced (f : fenced s (bits p.daddr.toNat 55 55) p = true) : arriveResp s h p = fence s (bits p.daddr.toNat 55 55) p :=
  (if_neg (not_not.2 here)).trans (if_pos f)

variable (known : fenced s (bits p.daddr.toNat 55 55) p = false)
include known

theorem arriveResp_late (none : answered s (bits p.daddr.toNat 55 55) p = none) :
    arriveResp s h p = bumpF s F.LEAT_DROP_LATE_RESP (bits p.daddr.toNat 55 55) := by
  refine (if_neg (not_not.2 here)).trans ((if_neg (ne_true_of_eq_false known)).trans ?_)
  unfold answered at none
  rw [none]

theorem arriveResp_ends {r : LeatReq} (found : answered s (bits p.daddr.toNat 55 55) p = some r) : arriveResp s h p =
    answerW (if p.status = 0 ∧ p.lines ≠ 0 then deliverBytes (dropReq s (bits p.daddr.toNat 55 55) r) (bits p.daddr.toNat 55 55) r.slot
      r.pkt.sunit.toNat (packetBytes p) r.dst r.who else dropReq s (bits p.daddr.toNat 55 55) r) r.who p.status false
      (if bulkWaiter r.who then p.data else []) := by
  refine (if_neg (not_not.2 here)).trans ((if_neg (ne_true_of_eq_false known)).trans ?_)
  unfold answered at found
  rw [found]

theorem arriveResp_fails {r : LeatReq} (found : answered s (bits p.daddr.toNat 55 55) p = some r) (bad : p.status ≠ 0 ∨ p.lines = 0) :
    arriveResp s h p = answerW (dropReq s (bits p.daddr.toNat 55 55) r) r.who p.status false (if bulkWaiter r.who then p.data else []) := by
  rw [arriveResp_ends here known found, if_neg (by tauto)]

theorem arriveResp_delivers {r : LeatReq} (found : answered s (bits p.daddr.toNat 55 55) p = some r) (ok : p.status = 0)
    (some' : p.lines ≠ 0) : arriveResp s h p = answerW (deliverBytes (dropReq s (bits p.daddr.toNat 55 55) r) (bits p.daddr.toNat 55 55)
      r.slot r.pkt.sunit.toNat (packetBytes p) r.dst r.who) r.who 0 false (if bulkWaiter r.who then p.data else []) := by
  rw [arriveResp_ends here known found, if_pos ⟨ok, some'⟩, ok]

end

theorem execLeatTimeout_found {h : BitVec 1} {tag : BitVec 16} {r : LeatReq}
    (found : ((half s h.toNat).reqs.find? fun r => r.tag == tag.toNat) = some r) : execLeatTimeout h tag s =
    .next (answerW (forgetRet (updHalf (dropReq s h.toNat r) h.toNat fun x => { x with
      stray := if (heldPackets (dropReq s h.toNat r) h.toNat).any (carries r) then x.stray ++ [r] else x.stray })
        (.own h.toNat r.tag r.pkt.sunit.toNat)) r.who ltTimeout false []) := by
  simp only [execLeatTimeout, found]

/-- The message of a gateway. -/
def messageOf (s : State) (k id : Nat) : Option GwMsg := (half s k).msgs.find? fun m => m.id == id

theorem id_of_messageOf {id : Nat} {m : GwMsg} (found : messageOf s k id = some m) : m.id = id :=
  beq_iff_eq.1 (List.find?_some (p := fun m : GwMsg => m.id == id) found)

theorem execGwTimeout_found {h : BitVec 1} {id : Nat} {m : GwMsg} (found : messageOf s h.toNat id = some m) :
    execGwTimeout h id s = .next (answerW (dropMsg s h.toNat id) m.who gwTimeoutCode false []) := by
  unfold messageOf at found
  simp only [execGwTimeout, found]

theorem execGwMessageComplete_found {h : BitVec 1} {id : Nat} {m : GwMsg} (found : messageOf s h.toNat id = some m) (c : BitVec 8) :
    execGwMessageComplete h id c s = .next (if c = 0 then answerW (dropMsg s h.toNat id) m.who 0 false []
      else answerW (putF (putF (putF (dropMsg s h.toNat id) F.GW_ERR_CODE h.toNat c.toNat m.gw) F.GW_ERR_RPOD h.toNat m.pod m.gw)
        F.GW_ERR_RNODE h.toNat m.node m.gw) m.who gwRemote false []) := by
  have id := id_of_messageOf found
  unfold messageOf at found
  simp only [execGwMessageComplete, found, endBulk, id]

/-! The obligation. -/

theorem arriveReq_here {h : Nat} (here : bits p.daddr.toNat 63 56 = myNode s h) :
    arriveReq s h p = serveRemote s (bits p.daddr.toNat 55 55) p := if_pos here

/-- What the three requests share: the packet of their type, the response's type, and the region's permission. -/
theorem requests_serve {h : BitVec 1} (here : bits p.daddr.toNat 63 56 = myNode s h.toNat) :
    ∀ x ∈ [(Instr.leatReadReq h p, (0 : BitVec 4), (3 : BitVec 4)), (.leatWrite h p, 1, 4), (.leatAtomic h p, 2, 4)],
      exec x.1 s = .next (serveRemote s (bits p.daddr.toNat 55 55) { p with ptype := x.2.1 }) ∧
      x.2.2 = answerType { p with ptype := x.2.1 } ∧
      permitted s (bits p.daddr.toNat 55 55) { p with ptype := x.2.1 } = match x.2.1.toNat with
        | 0 => bit (entryWord s (bits p.daddr.toNat 55 55) p 0) 62
        | 1 => bit (entryWord s (bits p.daddr.toNat 55 55) p 0) 61
        | _ => bit (entryWord s (bits p.daddr.toNat 55 55) p 0) 60 && !bit (entryWord s (bits p.daddr.toNat 55 55) p 0) 53 := by
  simp only [List.forall_mem_cons]
  refine ⟨⟨?_, rfl, rfl⟩, ⟨?_, rfl, rfl⟩, ⟨?_, rfl, rfl⟩, fun _ none => absurd none List.not_mem_nil⟩
  all_goals exact congrArg Host.Outcome.next (if_pos here)

/-- Settles O38: the checks of R311 one after the other, then what is served and what is answered. -/
theorem leatRequestsAndAnswers : Obligations.LeatRequestsAndAnswers := by
  unfold Obligations.LeatRequestsAndAnswers
  refine ⟨fun h p s here => ?requests, fun h p s => ?answers⟩
  case requests =>
    intro k i w fresh inWin edge listed
    refine ⟨fun x mem => ?checks, fun t a e ok => ?read, fun t a e u c ok => ?write, fun t a e u c some' ok legal => ?atomic,
      fun t a e ask => ?bulk⟩
    case checks =>
      intro q perm refused
      obtain ⟨run, kind, permits⟩ := requests_serve here x mem
      have refuses (c : BitVec 8) (v : verdict s k q (reach q) = (s, .refuse c)) : refused c :=
        run.trans (congrArg Host.Outcome.next ((serveRemote_refuse v).trans (by rw [kind])))
      have window : inWindow s k q = true ↔ inWin := by
        simp only [inWindow, Bool.and_eq_true, Bool.or_eq_true, decide_eq_true_eq, beq_iff_eq]
        rfl
      have now (fr : fresh) : Current s k q := fr
      refine ⟨fun f => run.trans (congrArg Host.Outcome.next (serveRemote_drop (verdict_fenced f))),
        fun f stale => run.trans (congrArg Host.Outcome.next (serveRemote_drop (verdict_stale f stale))),
        fun fr no => refuses _ ((verdict_current (now fr)).trans (regionChecks_invalid no)),
        fun fr valid no => refuses _ ((verdict_current (now fr)).trans (regionChecks_key valid no)),
        fun fr valid key no => refuses _ ((verdict_current (now fr)).trans (regionChecks_source valid key (eq_false_of_ne_true no))),
        fun fr valid key li no => refuses _ ((verdict_current (now fr)).trans (regionChecks_window valid key li ?_)),
        fun fr valid key li win no => refuses _ ((verdict_current (now fr)).trans (regionChecks_permission valid key li (window.2 win) ?_)),
        fun fr valid key li win yes out => refuses _ ((verdict_current (now fr)).trans
          (regionChecks_bounds valid key li (window.2 win) ?_ out)),
        fun fr valid key li win yes fits down => refuses _ ((verdict_current (now fr)).trans
          (regionChecks_down valid key li (window.2 win) ?_ fits down))⟩
      · exact eq_false_of_ne_true fun yes => no (window.1 yes)
      · exact permits.trans no
      · exact permits.trans yes
      · exact permits.trans yes
    case read =>
      intro r
      exact congrArg Host.Outcome.next ((arriveReq_here (p := { p with ptype := 0 }) here).trans (serveRemote_read ok rfl))
    case write =>
      intro who put
      exact congrArg Host.Outcome.next ((arriveReq_here (p := { p with ptype := 1 }) here).trans
        (serveRemote_other (p := { p with ptype := 1 }) ok (show (1 : BitVec 4) ≠ 0 by decide) ((serveWrite_write rfl).trans put)))
    case atomic =>
      intro who put
      have old : oldWord t { p with ptype := 2 } a = [BitVec.ofNat 64 (hbmNat t a (fcWidth p.fc.toNat / 8))] := if_pos ⟨rfl, some'⟩
      have run := serveRemote_other (p := { p with ptype := 2 }) ok (show (2 : BitVec 4) ≠ 0 by decide)
        ((serveWrite_atomic (p := { p with ptype := 2 }) rfl some' legal).trans put)
      rw [old] at run
      exact congrArg Host.Outcome.next ((arriveReq_here (p := { p with ptype := 2 }) here).trans run)
    case bulk =>
      intro who
      have asks : arriveBulk s h.toNat { p with ptype := 5 } = bulkServe s h.toNat { p with ptype := 5 } :=
        if_neg (ne_true_of_eq_false ask)
      refine ⟨fun fetch ok => ?_, fun u c store ok put => ?_⟩
      · have request : bulkRequest { p with ptype := 5 } = { p with ptype := 0, first := 0, last := 0 } := by
          simp only [bulkRequest, if_pos fetch]
        intro r
        exact congrArg Host.Outcome.next (asks.trans (bulkServe_read (p := { p with ptype := 5 }) here fetch (by rw [request]; exact ok)))
      · have request : bulkRequest { p with ptype := 5 } = { p with ptype := 1, first := 0, last := 63 } := by
          simp only [bulkRequest, if_neg store]
        exact congrArg Host.Outcome.next (asks.trans
          (bulkServe_write (p := { p with ptype := 5 }) here store (by rw [request]; exact ok) put))
  case answers =>
    refine ⟨fun here => ?responses, fun tag r found => execLeatTimeout_found found, fun id m found => ?messages⟩
    case responses =>
      intro k x mem mine
      have run : exec x.1 s = .next (arriveResp s h.toNat { p with ptype := x.2 }) := by
        revert x
        simp only [List.forall_mem_cons]
        exact ⟨rfl, rfl, fun _ none => absurd none List.not_mem_nil⟩
      refine ⟨fun f => ?_, fun known late => ?_, fun r known found => ⟨fun over' => ?_, fun ok some' => ?_⟩⟩
      · exact run.trans (congrArg Host.Outcome.next (arriveResp_fenced (p := { p with ptype := x.2 }) here f))
      · exact run.trans (congrArg Host.Outcome.next (arriveResp_late (p := { p with ptype := x.2 }) here known late))
      · exact run.trans (congrArg Host.Outcome.next (arriveResp_fails (p := { p with ptype := x.2 }) here known found over'))
      · exact run.trans (congrArg Host.Outcome.next (arriveResp_delivers (p := { p with ptype := x.2 }) here known found ok some'))
    case messages =>
      intro t
      refine ⟨execGwTimeout_found found, ?_, fun c bad => ?_⟩
      · exact (execGwMessageComplete_found found 0).trans (congrArg Host.Outcome.next (if_pos rfl))
      · exact (execGwMessageComplete_found found c).trans (congrArg Host.Outcome.next (if_neg bad))

end Sys2Proof.Machine
end

section
/-! SUPPORT. Collective doorbells and launches (R335, R336, R341), and the proof of their obligation. -/

namespace Sys2Proof.Machine

variable {s t : State} {k j : Nat} {b : Requester} {v : W64}

/-! The doorbell (R336). -/

/-- Are the indices of the word legal? -/
def collDbLegal (s : State) (k : Nat) (v : W64) : Bool :=
  doorbellLegal (getF s F.COLL_SQ_SQ_LOG2 k) (getF s F.COLL_CQ_CQ_LOG2 k) (getF s F.COLL_DB_SQ_TAIL k)
    (half s k).collHead (half s k).collTail (getF s F.COLL_DB_CQ_HEAD k) (bits v.toNat 15 0) (bits v.toNat 31 16)

/-- The indices taken, and the records that waited for room. -/
def collMoved (s : State) (k : Nat) (v : W64) : State :=
  collFlush (putF (putF s F.COLL_DB_SQ_TAIL k (bits v.toNat 15 0)) F.COLL_DB_CQ_HEAD k (bits v.toNat 31 16)) k

section
variable (pass : gate s b true (regAddr .collDb k 0) = none)
include pass

theorem collDbWrite_refused (bad : collDbLegal s k v = false) : collDbWrite s b k v = denied s b :=
  (guarded_none pass).trans (if_pos (congrArg not bad))

theorem collDbWrite_moves (legal : collDbLegal s k v = true) (plain : bit v.toNat 63 = false) :
    collDbWrite s b k v = done (collMoved s k v) :=
  (guarded_none pass).trans ((if_neg (ne_true_of_eq_false (congrArg not legal))).trans
    (congrArg done (if_neg (ne_true_of_eq_false plain))))

theorem collDbWrite_aborts {r : CollRun} (legal : collDbLegal s k v = true) (abort : bit v.toNat 63 = true)
    (found : runOf (collMoved s k v) k (bits v.toNat 61 56) = some r) (runs : r.done = none) : collDbWrite s b k v =
    done (raiseNotice deliver4 (collMoved s k v) k (bits v.toNat 61 56) r.seq csAbort (collRank (collMoved s k v) k (bits v.toNat 61 56))) := by
  refine (guarded_none pass).trans ((if_neg (ne_true_of_eq_false (congrArg not legal))).trans (congrArg done ((if_pos abort).trans ?_)))
  change (match runOf (collMoved s k v) k (bits v.toNat 61 56) with
    | some r => _
    | none => _) = _
  rw [found]
  exact if_neg (by simp [runs])

end

/-- The word of an abort: ABORT, the group, and the indices as they stand. -/
theorem abortWord {g x y : Nat} (group : g < 64) (head : x < 65536) (tail : y < 65536) :
    bit (BitVec.ofNat 64 (2 ^ 63 + g * 2 ^ 56 + x * 65536 + y)).toNat 63 = true ∧
      bits (BitVec.ofNat 64 (2 ^ 63 + g * 2 ^ 56 + x * 65536 + y)).toNat 61 56 = g := by
  rw [bit_eq_bits, BitVec.toNat_ofNat]
  simp only [bits, beq_iff_eq]
  omega

/-! Launches (R335, R338). -/

/-- Group j's descriptor at the head of the ring, launched. -/
def collTaken (s : State) (k j : Nat) : State :=
  updHalf (putF (updRun (ensureRun s k j (collSeq s k j)) k j (collSeq s k j) fun r => { r with
    words := collHeadWords s k, launch := hallTime (ensureRun s k j (collSeq s k j)) k }) F.COLL_GROUP_W1_SEQ k (collSeq s k j + 1) j) k
    fun x => { x with collHead := (x.collHead + 1) % 65536 }

/-- The head of the ring names operation op and group j, and an engine may take it. -/
def collReady (s : State) (k j op : Nat) : Prop :=
  halfRunning s k = true ∧ collPosted s k ≠ 0 ∧ cdGroup (collHeadWords s k) = j ∧ cdOp (collHeadWords s k) = op ∧
    runOf s k j = none ∧ ((getRuns s k).filter launched).length < collEngines s k

theorem collLaunch_ready {op : Nat} (ready : collReady s k j op) :
    collLaunch s k j op = collStart (collTaken s k j) k j (collSeq s k j) (collHeadWords s k) := by
  obtain ⟨runs, posted, group, names, idle, free⟩ := ready
  refine if_neg ?_
  rintro (bad | bad | bad | bad | bad | bad)
  · rw [runs] at bad
    exact absurd bad (by decide)
  · exact posted bad
  · exact bad group
  · exact bad.1 names
  · rw [idle] at bad
    exact absurd bad (by decide)
  · omega

/-- A group that is at work launches nothing. -/
theorem collLaunch_busy {op : Nat} {r : CollRun} (busy : runOf s k j = some r) : collLaunch s k j op = s :=
  if_pos (.inr (.inr (.inr (.inr (.inl (by rw [busy]; rfl))))))

theorem collWork_busy {op : Nat} {r : CollRun} (busy : runOf s k j = some r) (names : cdOp r.words = op) :
    collWork s k j op = collComplete s k j := by
  unfold collWork
  rw [collLaunch_busy busy]
  exact if_pos (by rw [busy]; simp [names])

/-- A run of a plain operation that nothing has ended. -/
structure PlainRun (s : State) (k j : Nat) (r : CollRun) : Prop where
  found : runOf s k j = some r
  quiet : r.notices = []
  runs : r.done = none
  plain : cdOp r.words < opStartBarrier

theorem collComplete_done {r : CollRun} (run : PlainRun s k j r) (all : lacking s k r = [])
    (put : writeRegion s k ((collResult s k r).length / 64 + 2) (cdDst r.words) (collResult s k r) = (t, 0)) :
    collComplete s k j = collFinish t k r 0 (hallTime t k) := by
  obtain ⟨found, quiet, runs, plain⟩ := run
  simp only [opStartBarrier] at plain
  unfold collComplete
  rw [found]
  refine (if_neg ?_).trans ((if_neg (by simp [all])).trans ?_)
  · simp [quiet, runs, opStartBarrier]
    omega
  · simp only [put]
    exact if_neg (by simp)

theorem collComplete_lost {r : CollRun} {m : Nat} (run : PlainRun s k j r)
    (lost : ((lacking s k r).find? fun m => !memberReach s k j m) = some m) :
    collComplete s k j = raiseNotice deliver4 s k j r.seq csMemberLost m := by
  obtain ⟨found, quiet, runs, plain⟩ := run
  simp only [opStartBarrier] at plain
  have some' : lacking s k r ≠ [] := fun none => by
    rw [none] at lost
    exact nomatch lost
  unfold collComplete
  rw [found]
  refine (if_neg ?_).trans ((if_pos (by simpa using some')).trans ?_)
  · simp [quiet, runs, opStartBarrier]
    omega
  · rw [lost]

/-- Settles O42: the doorbell by its legal indices, the operations by the head of the ring. -/
theorem collectivesStart : Obligations.CollectivesStart := by
  unfold Obligations.CollectivesStart
  refine ⟨fun b h v g s canon => ?doorbell, fun h g s => ?operations⟩
  case doorbell =>
    intro k legal moved pass
    refine ⟨fun i mem => ?_, ?abort⟩
    · have run : exec i s = .next (collDbWrite s b k v) := by
        revert i
        simp only [List.forall_mem_cons]
        exact ⟨rfl, rfl, fun _ none => absurd none List.not_mem_nil⟩
      exact ⟨fun bad => run.trans (congrArg Host.Outcome.next (collDbWrite_refused pass bad)),
        fun good plain => run.trans (congrArg Host.Outcome.next (collDbWrite_moves pass good plain))⟩
    case abort =>
      intro a r good found runs
      have head : getF s F.COLL_DB_CQ_HEAD k < 2 ^ 16 := bits_lt ..
      have tail : getF s F.COLL_DB_SQ_TAIL k < 2 ^ 16 := bits_lt ..
      obtain ⟨aborts, group⟩ := abortWord g.isLt head tail
      have run := collDbWrite_aborts (v := a) (r := r) pass good aborts (by rw [group]; exact found) runs
      rw [group] at run
      exact congrArg Host.Outcome.next run
  case operations =>
    intro k j ws seq ready taken start
    refine ⟨fun x mem => ?_, fun ok => congrArg Host.Outcome.next (collLaunch_ready ok)⟩
    have work : exec x.1 s = .next (collWork s k j x.2) ∧ x.2 < opStartBarrier := by
      revert x
      simp only [List.forall_mem_cons]
      exact ⟨⟨rfl, by decide⟩, ⟨rfl, by decide⟩, ⟨rfl, by decide⟩, ⟨rfl, by decide⟩, ⟨rfl, by decide⟩, ⟨rfl, by decide⟩,
        fun _ none => absurd none List.not_mem_nil⟩
    obtain ⟨run, plain⟩ := work
    refine ⟨fun ok => ?_, fun r t found names quiet runs all put => ?_, fun r m found names quiet runs lost => ?_⟩
    · have launched := collLaunch_ready ok
      rw [collWork, launched] at run
      exact run
    · rw [collWork_busy found names, collComplete_done ⟨found, quiet, runs, by rwa [names]⟩ all put] at run
      exact run
    · rw [collWork_busy found names, collComplete_lost ⟨found, quiet, runs, by rwa [names]⟩ lost] at run
      exact run

end Sys2Proof.Machine
end

section
/-! SUPPORT. Collectives arrive, time out and settle (R336, R341-R345), and the proof of their obligation. -/

namespace Sys2Proof.Machine

variable {s : State} {p : Packet} {r : CollRun}

/-! The run of a group (R341, R345). -/

section
variable {h : BitVec 1} {g : BitVec 6} (found : runOf s h.toNat g.toNat = some r) (runs : r.done = none)
include found runs

/-- An arrival at a START_BARRIER that nothing has ended. -/
theorem execStartBarrierArrival_open (names : cdOp r.words = opStartBarrier) (quiet : r.notices = []) (rank : BitVec 15) :
    execStartBarrierArrival h g rank s = .next (
      if rank.toNat = collRank s h.toNat g.toNat then
        if getF s F.LEAT_JOB_DRAINED h.toNat (collSlot s h.toNat g.toNat) = 0 ∨ r.arrived.contains rank.toNat = true then s
        else arriveRank deliver4 ((otherRanks s h.toNat g.toNat).foldl
          (fun s k => collSendRank deliver4 s h.toNat g.toNat r.seq 2 k []) s) h.toNat g.toNat r.seq rank.toNat
      else if rank.toNat < collP s h.toNat g.toNat then arriveRank deliver4 s h.toNat g.toNat r.seq rank.toNat
      else s) := by
  unfold execStartBarrierArrival
  simp only [found]
  exact congrArg Host.Outcome.next (if_neg (by simp [names, quiet, runs]))

omit runs in
theorem execCollTimeout_early (early : hallTime s h.toNat < r.launch + collTmo s h.toNat r) : execCollTimeout h g s = .next s := by
  unfold execCollTimeout
  simp only [found]
  cases lacking s h.toNat r with
  | nil => rfl
  | cons m ms => exact congrArg Host.Outcome.next (if_pos (.inr (.inr early)))

theorem execCollTimeout_due {m : Nat} {ms : List Nat} (lacks : lacking s h.toNat r = m :: ms) (quiet : r.notices = [])
    (due : r.launch + collTmo s h.toNat r ≤ hallTime s h.toNat) : execCollTimeout h g s = .next (
      raiseNotice deliver4 (updRun s h.toNat g.toNat r.seq fun x => { x with
        edge := within 40 (hallTime s h.toNat) (r.launch + collTmo s h.toNat r) }) h.toNat g.toNat r.seq csTimeout m) := by
  unfold execCollTimeout
  simp only [found, lacks]
  exact congrArg Host.Outcome.next (if_neg (by
    rw [quiet, runs]
    simpa using due))

theorem execCollSettle_picks {n : Notice} (picks : pickNotice r.notices = some n) : execCollSettle h g s = .next (
      if hallTime s h.toNat < r.notices.foldl (fun t n => min t n.stamp) n.stamp + 2000000 then s
      else collFinish (loseDst s h.toNat r) h.toNat r n.status (r.notices.foldl (fun t n => min t n.stamp) n.stamp + 2000000)) := by
  unfold execCollSettle
  simp only [found, picks]
  refine congrArg Host.Outcome.next (if_congr ?_ rfl rfl)
  simp [runs]

end

/-! Packets (R336). -/

section
variable {del : Deliver} {h : Nat} (pod : bits p.daddr.toNat 11 0 = getF s F.LEAT_CFG_POD h)
  (here : bits p.daddr.toNat 63 56 = myNode s h)
include pod here

theorem collArrive_fenced (f : fenced s (bits p.daddr.toNat 55 55) p = true) :
    collArrive del s h p = fence s (bits p.daddr.toNat 55 55) p := by
  unfold collArrive
  rw [if_neg (not_not.2 pod), if_neg (not_not.2 here)]
  exact if_pos f

variable (known : fenced s (bits p.daddr.toNat 55 55) p = false)
include known

theorem collArrive_refusal (kind : cpKind p = 4) : collArrive del s h p = collRefused del s (bits p.daddr.toNat 55 55) p := by
  unfold collArrive
  rw [if_neg (not_not.2 pod), if_neg (not_not.2 here)]
  exact (if_neg (ne_true_of_eq_false known)).trans (if_pos kind)

variable (kind : cpKind p ≠ 4)
include kind

theorem collArrive_stale
    (stale : getF s F.LEAT_JOB_EPOCH (bits p.daddr.toNat 55 55) (collSlot s (bits p.daddr.toNat 55 55) (cpGroup p)) ≠ p.epoch.toNat) :
    collArrive del s h p = bumpF s F.LEAT_DROP_STALE_EPOCH (bits p.daddr.toNat 55 55) := by
  unfold collArrive
  rw [if_neg (not_not.2 pod), if_neg (not_not.2 here)]
  exact (if_neg (ne_true_of_eq_false known)).trans ((if_neg kind).trans (if_pos stale))

variable (epoch : getF s F.LEAT_JOB_EPOCH (bits p.daddr.toNat 55 55) (collSlot s (bits p.daddr.toNat 55 55) (cpGroup p)) = p.epoch.toNat)
include epoch

theorem collArrive_key
    (other : getF s F.LEAT_JOB_KEY (bits p.daddr.toNat 55 55) (collSlot s (bits p.daddr.toNat 55 55) (cpGroup p)) ≠ p.key.toNat) :
    collArrive del s h p = collRefuse del s (bits p.daddr.toNat 55 55) p ltKey := by
  unfold collArrive
  rw [if_neg (not_not.2 pod), if_neg (not_not.2 here)]
  exact (if_neg (ne_true_of_eq_false known)).trans ((if_neg kind).trans ((if_neg (not_not.2 epoch)).trans (if_pos other)))

variable (key : getF s F.LEAT_JOB_KEY (bits p.daddr.toNat 55 55) (collSlot s (bits p.daddr.toNat 55 55) (cpGroup p)) = p.key.toNat)
include key

theorem collArrive_down (down : halfRunning s (bits p.daddr.toNat 55 55) = false) :
    collArrive del s h p = collRefuse del s (bits p.daddr.toNat 55 55) p stHalfDown := by
  unfold collArrive
  rw [if_neg (not_not.2 pod), if_neg (not_not.2 here)]
  exact (if_neg (ne_true_of_eq_false known)).trans ((if_neg kind).trans ((if_neg (not_not.2 epoch)).trans
    ((if_neg (not_not.2 key)).trans (if_pos (congrArg not down)))))

/-- A packet for the group's run, by how far its number is ahead of the run's. -/
theorem collArrive_run (up : halfRunning s (bits p.daddr.toNat 55 55) = true)
    (found : runOf s (bits p.daddr.toNat 55 55) (cpGroup p) = some r) : collArrive del s h p =
      if 32768 ≤ (p.tag.toNat + 65536 - r.seq) % 65536 then bumpF s F.LEAT_DROP_LATE_RESP (bits p.daddr.toNat 55 55)
      else collTake del s (bits p.daddr.toNat 55 55) (cpGroup p)
        (if (p.tag.toNat + 65536 - r.seq) % 65536 = 0 then r.seq else (r.seq + 1) % 65536) p := by
  unfold collArrive
  rw [if_neg (not_not.2 pod), if_neg (not_not.2 here)]
  refine (if_neg (ne_true_of_eq_false known)).trans ((if_neg kind).trans ((if_neg (not_not.2 epoch)).trans
    ((if_neg (not_not.2 key)).trans ((if_neg (ne_true_of_eq_false (congrArg not up))).trans ?_))))
  simp only [found, Option.isNone_some, Bool.false_eq_true, or_false]

end

/-- Settles O43: what a run does by what it lacks and what was noticed, and a packet's checks in their order. -/
theorem collectivesSettle : Obligations.CollectivesSettle := by
  unfold Obligations.CollectivesSettle
  refine ⟨fun h g s r => ?run, fun h p s pod here => ?packet⟩
  case run =>
    intro k j found runs
    refine ⟨fun rank names quiet => ⟨fun own waits => ?_, fun own drained first => ?_, fun other inside => ?_⟩,
      fun early => execCollTimeout_early found early, fun m ms lacks quiet due => execCollTimeout_due found runs lacks quiet due,
      fun n picks => execCollSettle_picks found runs picks⟩
    · exact (execStartBarrierArrival_open found runs names quiet rank).trans
        (congrArg Host.Outcome.next ((if_pos own).trans (if_pos (.inl waits))))
    · refine (execStartBarrierArrival_open found runs names quiet rank).trans
        (congrArg Host.Outcome.next ((if_pos own).trans (if_neg ?_)))
      change ¬ (getF s F.LEAT_JOB_DRAINED k (collSlot s k j) = 0 ∨ _)
      rw [drained, first]
      decide
    · exact (execStartBarrierArrival_open found runs names quiet rank).trans
        (congrArg Host.Outcome.next ((if_neg other).trans (if_pos inside)))
  case packet =>
    intro q d g slot
    refine ⟨fun f => congrArg Host.Outcome.next (collArrive_fenced (p := q) pod here f),
      fun known kind => congrArg Host.Outcome.next (collArrive_refusal (p := q) pod here known kind),
      fun known kind stale => congrArg Host.Outcome.next (collArrive_stale (p := q) pod here known kind stale),
      fun known kind epoch other => congrArg Host.Outcome.next (collArrive_key (p := q) pod here known kind epoch other),
      fun known kind epoch key down => congrArg Host.Outcome.next (collArrive_down (p := q) pod here known kind epoch key down),
      fun r known kind epoch key up found => ⟨fun late => ?_, fun now => ?_⟩⟩
    · exact congrArg Host.Outcome.next ((collArrive_run (p := q) pod here known kind epoch key up found).trans (if_pos late))
    · have level : (p.tag.toNat + 65536 - r.seq) % 65536 = 0 := by omega
      have run := collArrive_run (p := q) (del := deliver4) pod here known kind epoch key up found
      rw [show (q.tag.toNat + 65536 - r.seq) % 65536 = 0 from level, if_neg (by decide), if_pos rfl] at run
      exact congrArg Host.Outcome.next run

end Sys2Proof.Machine
end

section
/-! SUPPORT. A checkpoint takes its cut (R350-R363), and the proof of its obligation. -/

namespace Sys2Proof.Machine

variable {s t : State} {k : Nat} {b : Requester} {v : W64}

/-! Settings (R350). -/

theorem storedWord_ckpCfg (old v : W64) : bits (storedWord .ckpCfg old v).toNat 63 63 = bits v.toNat 63 63 ∧
    bits (storedWord .ckpCfg old v).toNat 59 56 = bits v.toNat 59 56 := by
  have stored : storedWord .ckpCfg old v = setBits (setBits (setBits (setBits (setBits (setBits old 63 63 (bits v.toNat 63 63))
      62 61 (bits v.toNat 62 61)) 60 60 (bits v.toNat 60 60)) 59 56 (bits v.toNat 59 56)) 55 51 (bits v.toNat 55 51))
      50 35 (bits v.toNat 50 35) := rfl
  rw [stored]
  constructor
  · iterate 5 rw [bits_setBits_ne (by decide) (by decide) (by decide) (by decide)]
    rw [bits_setBits_self (by decide) (by decide)]
    exact Nat.mod_eq_of_lt (bits_lt ..)
  · iterate 2 rw [bits_setBits_ne (by decide) (by decide) (by decide) (by decide)]
    rw [bits_setBits_self (by decide) (by decide)]
    exact Nat.mod_eq_of_lt (bits_lt ..)

/-- Checkpoints are on, numbered anew. -/
def ckpEnabled (s : State) (k : Nat) (v : W64) : State :=
  let t := setReg s .ckpCfg k 0 (storedWord .ckpCfg (reg s .ckpCfg k 0) v)
  updCkp (putF t F.CKP_STAT_SEQ k 0) k fun c => { c with ticks := instantsPast t k }

theorem ckpEnabled_shows (w : Rising s.mg) : getF (ckpEnabled s k v) F.CKP_CFG_EN k = bits v.toNat 63 63 ∧
    getF (ckpEnabled s k v) F.CKP_CFG_SLOT k = bits v.toNat 59 56 ∧ getF (ckpEnabled s k v) F.CKP_STAT_SEQ k = 0 := by
  have ws : Rising (setReg s .ckpCfg k 0 (storedWord .ckpCfg (reg s .ckpCfg k 0) v)).mg := rising_setReg w ..
  have word : reg (setReg s .ckpCfg k 0 (storedWord .ckpCfg (reg s .ckpCfg k 0) v)) .ckpCfg k 0 = _ := reg_setReg_self w ..
  obtain ⟨on, slot⟩ := storedWord_ckpCfg (reg s .ckpCfg k 0) v
  have ne : regAddr .ckpCfg k 0 ≠ regAddr .ckpStat k 0 := regAddr_ne_word (by decide)
  have config : WordKept (regAddr .ckpCfg k 0) (setReg s .ckpCfg k 0 (storedWord .ckpCfg (reg s .ckpCfg k 0) v)) (ckpEnabled s k v) :=
    .trans (.putF (f := F.CKP_STAT_SEQ) ne) .updHalf
  have noted : WordKept (regAddr .ckpStat k 0)
      (putF (setReg s .ckpCfg k 0 (storedWord .ckpCfg (reg s .ckpCfg k 0) v)) F.CKP_STAT_SEQ k 0) (ckpEnabled s k v) := .updHalf
  refine ⟨(WordKept.getF (f := F.CKP_CFG_EN) config ws).trans ?_, (WordKept.getF (f := F.CKP_CFG_SLOT) config ws).trans ?_,
    (WordKept.getF (f := F.CKP_STAT_SEQ) noted (rising_putF ws ..)).trans (getF_putF_same ws F.CKP_STAT_SEQ (by decide))⟩
  · exact (congrArg (fun x : W64 => bits x.toNat 63 63) word).trans on
  · exact (congrArg (fun x : W64 => bits x.toNat 59 56) word).trans slot

section
variable (pass : gate s b true (regAddr .ckpCfg k 0) = none) (idle : ckState s k = ckIdle) (range : inRange .ckpCfg v = true)
  (on : bit v.toNat 63 = true)
include pass idle range on

theorem ckpCfgWrite_bad (bad : ckpConfigBad s k (bits v.toNat 59 56) = true) :
    ckpCfgWrite s b k v = denied (putF s F.CKP_STAT_RESULT k ckConfig) b :=
  (guarded_none pass).trans ((if_neg (by simp [idle, range])).trans (if_pos ⟨on, bad⟩))

theorem ckpCfgWrite_on (good : ckpConfigBad s k (bits v.toNat 59 56) = false) : ckpCfgWrite s b k v = done (ckpEnabled s k v) :=
  (guarded_none pass).trans ((if_neg (by simp [idle, range])).trans ((if_neg fun h => ne_true_of_eq_false good h.2).trans
    (congrArg done (if_pos on))))

end

/-! Triggers (R351). -/

theorem ckpTrigger_busy {n : Nat} (busy : ckState s k ≠ ckIdle) : ckpTrigger s k n = bumpF s F.CKP_STAT_SKIPPED k := if_neg busy

theorem ckpTrigger_idle {n : Nat} (w : Rising s.mg) (idle : ckState s k = ckIdle) : ckState (ckpTrigger s k n) k = ckHolding ∧
    getF (ckpTrigger s k n) F.CKP_STAT_SEQ k = (getF s F.CKP_STAT_SEQ k + 1) % 2 ^ 32 := by
  have begins : ckpTrigger s k n = ckpBegin s k ckHolding n := if_pos idle
  rw [begins]
  unfold ckpBegin
  extract_lets held numbered
  have wa : Rising (putF s F.CKP_STAT_STATE k ckHolding).mg := rising_putF w ..
  have wh : Rising held.mg := rising_putF wa ..
  have seq : getF held F.CKP_STAT_SEQ k = getF s F.CKP_STAT_SEQ k :=
    (getF_putF_beside wa F.CKP_STAT_NEAR_EDGE F.CKP_STAT_SEQ (by decide)).trans
      (getF_putF_beside w F.CKP_STAT_STATE F.CKP_STAT_SEQ (by decide))
  have wn : Rising (putF held F.CKP_STAT_SEQ k (getF held F.CKP_STAT_SEQ k + 1)).mg := rising_putF wh ..
  have kept (f : Fld) (reg : f.reg = .ckpStat) (g : CkpSt → CkpSt) :
      FieldKept f k 0 (putF held F.CKP_STAT_SEQ k (getF held F.CKP_STAT_SEQ k + 1)) (updCkp numbered k g) := by
    refine .of_word (.trans (.setReg ?_) .updHalf)
    rw [reg]
    exact regAddr_ne_word (by decide)
  constructor
  · refine ((kept F.CKP_STAT_STATE rfl _) wn).2.trans ((getF_putF_beside wh F.CKP_STAT_SEQ F.CKP_STAT_STATE (by decide)).trans ?_)
    exact (getF_putF_beside wa F.CKP_STAT_NEAR_EDGE F.CKP_STAT_STATE (by decide)).trans (getF_putF_same w F.CKP_STAT_STATE (by decide))
  · refine ((kept F.CKP_STAT_SEQ rfl _) wn).2.trans ((getF_putF_same wh F.CKP_STAT_SEQ (by decide)).trans ?_)
    rw [seq]
    rfl

section
variable (pass : gate s b true (regAddr .ckpCtl k 0) = none)
include pass

theorem ckpCtlWrite_now (on : getF s F.CKP_CFG_EN k = 1) (runs : halfRunning s k = true) :
    ckpCtlWrite s b k 1 = done (ckpTrigger s k (podTime s k).toNat) :=
  (guarded_none pass).trans (congrArg done (if_pos ⟨on, runs⟩))

theorem ckpCtlWrite_abort (due : braking s k = true ∨ ckState s k = ckArrived) : ckpCtlWrite s b k 2 =
    done (ckpEnd s k (if jobHalted s k = true ∧ ckState s k ≠ ckArrived then ckHaltCode else ckAborted)) :=
  (guarded_none pass).trans (congrArg done (if_pos due))

theorem ckpCtlWrite_release (arrived : ckState s k = ckArrived) : ckpCtlWrite s b k 4 =
    done (markEngines (setReg (putF (updCkp (resumeAll s k) k fun c => { c with tcut := reg s .tbHall k 0 }) F.CKP_STAT_STATE k
      ckCopying) .ckpProg k 0 0) k 1) := (guarded_none pass).trans (congrArg done (if_pos arrived))

end

/-! The cut (R352, R355). -/

theorem execBrake_drained {l : BitVec 6} (leads : rowLeader s l.toNat = l.toNat) (runs : gangState s l.toNat = gsRunning)
    (brakes : (seqCtl s l.toNat).draining = some .brake) (empty : drained (seqCtl s l.toNat) = true) :
    execBrake l s = .next (
      let t := setGangState (thaw (updSeq s l.toNat fun c => { c with draining := none }) l.toNat) l.toNat gsBraked
      updCkp (smearArea t l.toNat (curCtx s l.toNat)) (rowHalf l.toNat) fun c =>
        { c with braked := c.braked ++ [(l.toNat, curCtx s l.toNat)], cuts := mput (4 * l.toNat + curCtx s l.toNat) (savedOf t l.toNat true) c.cuts }) :=
  congrArg Host.Outcome.next (if_neg (by simp [leads, runs, brakes, empty]))

/-- The trackers arm for the cut. -/
def cutArmed (s : State) (k : Nat) : State :=
  updCkp s k fun c => { c with armed := true, spans := ckpSpans s k, copied := [], stashed := [], stash := [], hashes := [] }

/-- The cut is taken, and told. -/
def cutTaken (s : State) (k : Nat) : State :=
  ckpEvent (putF (cutArmed s k) F.CKP_STAT_STATE k ckArrived) k evArrived (reg (cutArmed s k) .ckpTarget k 0)

/-- Nothing is missing for the cut. -/
structure CutDue (s : State) (k : Nat) : Prop where
  state : ckState s k = ckBraking
  well : jobHalted s k = false
  stand : ∀ c ∈ jobContexts s k, (half s k).ckp.braked.contains c = true ∨ lent s c.1 = true
  engine : engineJoined s k = true

theorem execCkpArrived_due {h : BitVec 1} (due : CutDue s h.toNat) : execCkpArrived h s =
    .next (if epochOpen s h.toNat then ckpEnd s h.toNat ckEpochOpen else cutTaken s h.toNat) := by
  obtain ⟨state, well, stand, engine⟩ := due
  have all : (jobContexts s h.toNat).all (fun c => (half s h.toNat).ckp.braked.contains c || lent s c.1) = true :=
    List.all_eq_true.2 fun c mem => by simpa using stand c mem
  refine congrArg Host.Outcome.next ((if_neg fun h => ne_true_of_eq_false well h.2).trans (if_neg ?_))
  rw [state, all, engine]
  simp

theorem ckpEvent_mg (h code : Nat) (w : W64) : (ckpEvent s h code w).mg = s.mg := (tellNode_mg ..).trans (raiseEvent_mg ..)

/-- An event leaves the unit as it stands. -/
theorem ckp_ckpEvent (h code : Nat) (w : W64) : (half (ckpEvent s h code w) k).ckp = (half s k).ckp :=
  HalfKept.trans (p := Half.ckp) (.raiseEvent fun _ _ _ _ => rfl) (halfKept_tellNode fun _ _ => rfl)

theorem ckp_cutTaken : (half (cutTaken s k) k).ckp =
    { (half s k).ckp with armed := true, spans := ckpSpans s k, copied := [], stashed := [], stash := [], hashes := [] } := by
  rw [cutTaken, ckp_ckpEvent, half_putF, cutArmed, updCkp, half_updHalf_self]

theorem ckState_cutTaken (w : Rising s.mg) : ckState (cutTaken s k) k = ckArrived := by
  have armed : Rising (cutArmed s k).mg := rising_updHalf w
  have told : WordKept (regAddr .ckpStat k 0) (putF (cutArmed s k) F.CKP_STAT_STATE k ckArrived) (cutTaken s k) := .of_mg (ckpEvent_mg ..)
  exact (WordKept.getF (f := F.CKP_STAT_STATE) told (rising_putF armed ..)).trans (getF_putF_same armed F.CKP_STAT_STATE (by decide))

/-! The copy and the manifest (R359, R362, R363). -/

theorem execCkpPageCopy_page {h : BitVec 1} {p c} {ok : Bool} (copies : ckState s h.toNat = ckCopying)
    (page : nextPage (half s h.toNat).ckp = some p) (put : copyPage s h.toNat p = (t, c)) : execCkpPageCopy h ok s =
      .next (if (!ok) = true ∨ c ≠ 0 then ckpEnd t h.toNat ckCopyFail else pageDone t h.toNat p (pageBytes s h.toNat p)) := by
  unfold execCkpPageCopy
  refine congrArg Host.Outcome.next ((if_neg (not_not.2 copies)).trans ?_)
  rw [page]
  simp only [put]

/-- The manifest is sealed. -/
def manifestSealed (s : State) (k : Nat) : State :=
  putF (putF (updCkp (disarm (markEngines (sealCuts s k) k 0) k) k fun c => { c with braked := [], engPaused := false })
    F.CKP_STAT_STATE k ckIdle) F.CKP_STAT_RESULT k 0

/-- The manifest's body, its signature, and the state in which it is written. -/
def manifestBody (s : State) (k : Nat) : List Byte :=
  manifestHeader s k (manifestRecords s k).length ++ (manifestRecords s k).flatten

theorem execCkpSeal_put {h : BitVec 1} (copies : ckState s h.toNat = ckCopying) (last : nextPage (half s h.toNat).ckp = none)
    (put : writeFab (signBlock (putF s F.CKP_STAT_STATE h.toNat ckSealing) h.toNat
        (manifestBody (putF s F.CKP_STAT_STATE h.toNat ckSealing) h.toNat)).2 h.toNat 24
      (destAddr (signBlock (putF s F.CKP_STAT_STATE h.toNat ckSealing) h.toNat
          (manifestBody (putF s F.CKP_STAT_STATE h.toNat ckSealing) h.toNat)).2 h.toNat
        (65536 * (ckpPages (half (signBlock (putF s F.CKP_STAT_STATE h.toNat ckSealing) h.toNat
          (manifestBody (putF s F.CKP_STAT_STATE h.toNat ckSealing) h.toNat)).2 h.toNat).ckp).length))
      (manifestBody (putF s F.CKP_STAT_STATE h.toNat ckSealing) h.toNat ++ (signBlock (putF s F.CKP_STAT_STATE h.toNat ckSealing) h.toNat
          (manifestBody (putF s F.CKP_STAT_STATE h.toNat ckSealing) h.toNat)).1) = (t, 0)) :
    execCkpSeal h s = .next (ckpEvent (manifestSealed t h.toNat) h.toNat evDone (reg (manifestSealed t h.toNat) .ckpTarget h.toNat 0)) := by
  unfold execCkpSeal
  refine congrArg Host.Outcome.next ((if_neg ?_).trans ?_)
  · rw [copies, last]
    simp
  · unfold manifestBody at put
    simp only [put]
    exact if_neg (by simp)

/-- Settles O44: each command by its equation, the cut by what it leaves of the unit. -/
theorem checkpointsTakeACut : Obligations.CheckpointsTakeACut := by
  unfold Obligations.CheckpointsTakeACut
  refine ⟨fun b h v s canon => ?commands, fun l s => ?brake, fun h s => ?cut⟩
  case commands =>
    intro k
    have w := regs_rising canon.mg
    refine ⟨fun pass range idle => ⟨fun bad => ?bad, fun good => ?good⟩, fun on runs => ?triggers, fun n busy => ckpTrigger_busy busy,
      fun n idle => ckpTrigger_idle w idle, fun pass => ⟨fun no => congrArg Host.Outcome.next ((guarded_none pass).trans (if_pos no)),
        fun yes => congrArg Host.Outcome.next ((guarded_none pass).trans (if_neg (not_not.2 yes)))⟩,
      fun pass => ⟨fun arrived => ⟨?abort, congrArg Host.Outcome.next (ckpCtlWrite_release pass arrived)⟩, fun brakes well => ?early⟩,
      fun brakes => ?timeout⟩
    case bad =>
      refine congrArg Host.Outcome.next (ckpCfgWrite_bad pass idle range (bit_setBits_top 1) ?_)
      rwa [bits_setBits_ne (by decide) (by decide) (by decide) (by decide)]
    case good =>
      obtain ⟨on, slot, seq⟩ := ckpEnabled_shows (k := k) (v := setBits v 63 63 1) w
      rw [bits_setBits_self (by decide) (by decide)] at on
      rw [bits_setBits_ne (by decide) (by decide) (by decide) (by decide)] at slot
      refine ⟨_, congrArg Host.Outcome.next (ckpCfgWrite_on pass idle range (bit_setBits_top 1) ?_), resp_done _, ?_⟩
      · rwa [bits_setBits_ne (by decide) (by decide) (by decide) (by decide)]
      · simp only [getF_done]
        exact ⟨on, slot, seq⟩
    case triggers =>
      intro p at'
      refine ⟨fun timer some' due => congrArg Host.Outcome.next (if_neg ?_), fun pass => congrArg Host.Outcome.next (ckpCtlWrite_now pass on runs)⟩
      rintro (bad | bad | bad | bad | bad)
      · exact absurd (bad.symm.trans on) (by decide)
      · exact bad timer
      · exact some' bad
      · exact ne_true_of_eq_false (congrArg not runs) bad
      · exact absurd due (Nat.not_le.2 bad)
    case abort =>
      refine congrArg Host.Outcome.next ((ckpCtlWrite_abort pass (.inr arrived)).trans ?_)
      rw [if_neg fun h => h.2 arrived]
    case early =>
      refine congrArg Host.Outcome.next ((ckpCtlWrite_abort pass (.inl brakes)).trans ?_)
      rw [if_neg fun h => ne_true_of_eq_false well h.1]
    case timeout =>
      intro due
      exact ⟨fun late => congrArg Host.Outcome.next (if_pos ⟨brakes, decide_eq_true late⟩),
        fun early => congrArg Host.Outcome.next (if_neg fun h => absurd (of_decide_eq_true h.2) (Nat.not_le.2 early))⟩
  case brake =>
    intro r k leads runs brakes empty t
    exact execBrake_drained leads runs brakes empty
  case cut =>
    intro k
    refine ⟨fun state well stand engine => ?arrived, fun p copies page => ⟨fun t put => ?page, fun t c ok put bad => ?failed⟩,
      fun t copies last => ?sealed⟩
    case arrived =>
      have run := execCkpArrived_due ⟨state, well, stand, engine⟩
      refine ⟨fun opened => run.trans (congrArg Host.Outcome.next (if_pos opened)),
        fun closed => ⟨_, run.trans (congrArg Host.Outcome.next (if_neg (ne_true_of_eq_false closed))), ?_, ?_, ?_,
          fun canon => ckState_cutTaken (regs_rising canon.mg)⟩⟩
      all_goals rw [ckp_cutTaken]
    case page => exact (execCkpPageCopy_page copies page put).trans (congrArg Host.Outcome.next (if_neg (by simp)))
    case failed => exact (execCkpPageCopy_page copies page put).trans (congrArg Host.Outcome.next (if_pos (bad.imp_left (congrArg not))))
    case sealed =>
      intro u body sig put x
      exact execCkpSeal_put copies last put

end Sys2Proof.Machine
end

section
/-! SUPPORT. A restore verifies, then commits (R364-R366), and the proof of its obligation. -/

namespace Sys2Proof.Machine

variable {s : State} {k : Nat} {b : Requester} {h : BitVec 1}

/-! The restore's state as CKP_RSTAT shows it. -/

theorem half_setRestore (st c i j : Nat) : half (setRestore s k st c i) j = half s j := rfl

theorem rising_setRestore (w : Rising s.mg) (st c i : Nat) : Rising (setRestore s k st c i).mg :=
  rising_putF (rising_putF (rising_putF w ..) ..) ..

theorem setRestore_shows (w : Rising s.mg) (st c i : Nat) :
    rsState (setRestore s k st c i) k = st % 2 ^ 3 ∧ getF (setRestore s k st c i) F.CKP_RSTAT_FIRST_BAD k = i % 2 ^ 32 := by
  have wst : Rising (putF s F.CKP_RSTAT_RSTATE k st).mg := rising_putF w ..
  have wc : Rising (putF (putF s F.CKP_RSTAT_RSTATE k st) F.CKP_RSTAT_RCODE k c).mg := rising_putF wst ..
  refine ⟨(getF_putF_beside wc F.CKP_RSTAT_FIRST_BAD F.CKP_RSTAT_RSTATE (by decide)).trans
    ((getF_putF_beside wst F.CKP_RSTAT_RCODE F.CKP_RSTAT_RSTATE (by decide)).trans
      (getF_putF_same w F.CKP_RSTAT_RSTATE (by decide))), getF_putF_same wc F.CKP_RSTAT_FIRST_BAD (by decide)⟩

/-! A write of CKP_RCTL (R364-R366). -/

/-- The restore stands at `st` with nothing of a manifest. -/
def restoreCleared (s : State) (k st : Nat) : State :=
  updCkp (setRestore s k st 0 0) k fun c => { c with verified := false, header := [], shards := [] }

theorem rsState_restoreCleared (w : Rising s.mg) (st : Nat) : rsState (restoreCleared s k st) k = st % 2 ^ 3 :=
  (WordKept.getF (f := F.CKP_RSTAT_RSTATE) (s := setRestore s k st 0 0) .updHalf (rising_setRestore w ..)).trans
    (setRestore_shows w ..).1

theorem verified_restoreCleared (st : Nat) : (half (restoreCleared s k st) k).ckp.verified = false := by
  rw [restoreCleared, updCkp, half_updHalf_self]

section
variable (pass : gate s b true (regAddr .ckpRctl h.toNat 0) = none)
include pass

theorem execRestoreVerify_idle (idle : rsState s h.toNat ≠ rsVerifying ∧ rsState s h.toNat ≠ rsCommitting) :
    execRestoreVerify b h s = .next (done (restoreCleared s h.toNat rsVerifying)) :=
  congrArg Host.Outcome.next ((guarded_none pass).trans (if_neg (not_or.2 idle)))

theorem execRestoreVerify_busy (busy : ¬ (rsState s h.toNat ≠ rsVerifying ∧ rsState s h.toNat ≠ rsCommitting)) :
    execRestoreVerify b h s = .next (denied s b) :=
  congrArg Host.Outcome.next ((guarded_none pass).trans (if_pos (by simpa only [not_and_or, not_not] using busy)))

theorem execRestoreCancel_passed : execRestoreCancel b h s = .next (done (restoreCleared s h.toNat rsIdle)) :=
  congrArg Host.Outcome.next (guarded_none pass)

theorem execRestoreCommit_early (not : rsState s h.toNat ≠ rsVerified)
    (idle : rsState s h.toNat ≠ rsVerifying ∧ rsState s h.toNat ≠ rsCommitting) :
    execRestoreCommit b h s = .next (done (setRestore s h.toNat rsRefused rstNotVerified 0)) :=
  congrArg Host.Outcome.next ((guarded_none pass).trans (congrArg done ((if_pos (.inr not)).trans (if_neg (not_or.2 idle)))))

/-- What a commit asks of a verified restore, in R366's order. -/
def commitCode (s : State) (k : Nat) : Option Nat :=
  let c := (half s k).ckp
  if (reg s .ckpRstep k 0).toNat ≠ headWord c.header 2 ∨ (reg s .ckpRjob k 0).toNat ≠ headWord c.header 1 then some rstAgreement
  else if !c.shards.all (layoutOk s k) then some rstLayout
  else if (reg s .devId 0 0).toNat ≠ headWord c.header 6 then some rstStepping
  else none

theorem execRestoreCommit_verified (verified : (half s h.toNat).ckp.verified = true) (state : rsState s h.toNat = rsVerified) :
    execRestoreCommit b h s = .next (done (match commitCode s h.toNat with
      | some code => setRestore s h.toNat rsRefused code 0
      | none => setRestore s h.toNat rsCommitting 0 0)) := by
  have free : ¬ (rsState s h.toNat = rsVerifying ∨ rsState s h.toNat = rsCommitting) := by
    rw [state]
    decide
  refine congrArg Host.Outcome.next ((guarded_none pass).trans (congrArg done ((if_neg ?_).trans ?_)))
  · rw [verified, state]
    simp
  · simp only [if_neg free, commitCode]
    split
    · rfl
    · split
      · rfl
      · split <;> rfl

end

section
variable (agree : (reg s .ckpRstep k 0).toNat = headWord (half s k).ckp.header 2 ∧
  (reg s .ckpRjob k 0).toNat = headWord (half s k).ckp.header 1)

theorem commitCode_apart (apart : ¬ ((reg s .ckpRstep k 0).toNat = headWord (half s k).ckp.header 2 ∧
    (reg s .ckpRjob k 0).toNat = headWord (half s k).ckp.header 1)) : commitCode s k = some rstAgreement :=
  if_pos (not_and_or.1 apart)

include agree

theorem commitCode_layout (bad : (half s k).ckp.shards.all (layoutOk s k) = false) : commitCode s k = some rstLayout :=
  (if_neg (not_or.2 ⟨not_not.2 agree.1, not_not.2 agree.2⟩)).trans (if_pos (congrArg not bad))

theorem commitCode_same (good : (half s k).ckp.shards.all (layoutOk s k) = true) : commitCode s k =
    if (reg s .devId 0 0).toNat ≠ headWord (half s k).ckp.header 6 then some rstStepping else none :=
  (if_neg (not_or.2 ⟨not_not.2 agree.1, not_not.2 agree.2⟩)).trans (if_neg (ne_true_of_eq_false (congrArg not good)))

end

/-! Verification (R364). -/

/-- The manifest is reported and kept. -/
def manifestNoted (s : State) (k : Nat) (head : List Byte) (shards : List Shard) (code : Shard → Nat) (good : Bool) : State :=
  updCkp (restoreReport s k (shards.map fun x => (x, code x))) k fun c =>
    { c with header := head, shards := shards.map fun x => { x with bytes := [] }, verified := good }

theorem rising_manifestNoted (canon : s.Canon) {head : List Byte} {shards : List Shard} {code : Shard → Nat} {good : Bool} :
    Rising (manifestNoted s k head shards code good).mg := rising_updHalf (regs_rising ((keeps_restoreReport .refl).2 canon).mg)

theorem verified_manifestNoted {head : List Byte} {shards : List Shard} {code : Shard → Nat} {good : Bool} :
    (half (manifestNoted s k head shards code good) k).ckp.verified = good := by
  rw [manifestNoted, updCkp, half_updHalf_self]

theorem execRestoreVerifyDone_whole {hd : List Byte} {shards : List Shard} {sig : List Byte}
    (due : rsState s h.toNat = rsVerifying) (whole : 256 ≤ hd.length) {head : List Byte} (is : fixLen 256 hd = head)
    {code : Shard → Nat} (codes : shardCode head (manifestSigned head shards sig) = code) :
    execRestoreVerifyDone h hd shards sig s = .next (
      let bad := shards.findIdx? fun x => code x != 0
      let t := manifestNoted s h.toNat head shards code (manifestSigned head shards sig && bad.isNone)
      if manifestSigned head shards sig && bad.isNone then setRestore t h.toNat rsVerified 0 0
      else setRestore t h.toNat rsRefused (((shards.map fun x => (x, code x))[bad.getD 0]?.map fun e => e.2).getD rstSignature)
        (bad.getD 0)) := by
  subst is codes
  refine congrArg Host.Outcome.next ((if_neg (not_not.2 due)).trans ((if_neg (Nat.not_lt.2 whole)).trans ?_))
  simp only [List.findIdx?_map]
  rfl

/-! The commit's end (R366). -/

/-- The recorded shards with what was fetched of them again. -/
theorem zipIdx_fetched {xs ys : List Shard} (same : xs.length = ys.length) :
    (xs.zipIdx.map fun e => match ys[e.2]? with
      | some y => { e.1 with bytes := y.bytes, fetchErr := y.fetchErr }
      | none => { e.1 with fetchErr := true }) =
    xs.zipWith (fun x y => { x with bytes := y.bytes, fetchErr := y.fetchErr }) ys := by
  refine List.ext_getElem (by simp [same]) fun i inL inR => ?_
  have inYs : i < ys.length := by simp only [List.length_zipWith] at inR; omega
  simp [List.getElem?_eq_getElem inYs]

section
variable {shards got : List Shard} (due : rsState s h.toNat = rsCommitting) (same : (half s h.toNat).ckp.shards.length = shards.length)
  (fetched : (half s h.toNat).ckp.shards.zipWith (fun x y => { x with bytes := y.bytes, fetchErr := y.fetchErr }) shards = got)
include due same fetched

theorem execRestoreCommitDone_fetched : execRestoreCommitDone h shards s = .next
    (match got.findIdx? fun x => x.fetchErr || !digestOk x with
    | some i => setRestore (got.foldl (fun s x => smear s (recWord x 3) (recWord x 4)) s) h.toNat rsRefused
        (if (got[i]?.map fun x => x.fetchErr).getD true then rstFetch else rstDigest) i
    | none => updCkp (setRestore ((got.filter fun x => recKind x == 1).foldl (fun s x => loadArea s h.toNat x)
        (got.foldl (fun s x => (writeRegion s h.toNat (x.bytes.length / 64 + 2) (recWord x 3) x.bytes).1) s)) h.toNat rsRestored 0 0)
          h.toNat fun c => { c with verified := false }) := by
  refine congrArg Host.Outcome.next ((if_neg (not_not.2 due)).trans ?_)
  have all := (zipIdx_fetched same).trans fetched
  subst all
  rfl

end

/-- Settles O45: each command by its equation. -/
theorem restoresVerifyThenCommit : Obligations.RestoresVerifyThenCommit := by
  intro b h s canon k idle c
  have w : Rising s.mg := regs_rising canon.mg
  refine ⟨fun pass => ⟨fun free => ⟨_, execRestoreVerify_idle pass free, resp_done _, rsState_restoreCleared w _⟩,
      execRestoreVerify_busy pass, execRestoreCommit_early pass, fun verified state => ?commit,
      ⟨_, execRestoreCancel_passed pass, resp_done _, rsState_restoreCleared w _, verified_restoreCleared _⟩⟩,
    fun hd shards sig due short => congrArg Host.Outcome.next ((if_neg (not_not.2 due)).trans (if_pos short)),
    fun hd shards sig due whole => ?verify, fun shards due same => ?done⟩
  case commit =>
    intro agree
    have run := execRestoreCommit_verified pass verified state
    refine ⟨fun apart => ?_, fun same bad => ?_, fun same good other => ?_, fun same good part => ?_⟩
    · rwa [commitCode_apart apart] at run
    · rwa [commitCode_layout same bad] at run
    · rwa [commitCode_same same good, if_pos other] at run
    · rwa [commitCode_same same good, if_neg (not_not.2 part)] at run
  case verify =>
    intro head code
    have run := execRestoreVerifyDone_whole (shards := shards) (sig := sig) due whole (head := head) rfl (code := code) rfl
    refine ⟨_, run, fun signed sound => ?_, fun i first => ?_⟩
    · have none' : shards.findIdx? (fun x => code x != 0) = none :=
        List.findIdx?_eq_none_iff.2 fun x mem => bne_eq_false_iff_eq.2 (sound x mem)
      simp only [signed, none', Option.isNone_none, Bool.and_self, if_true]
      exact ⟨(setRestore_shows (rising_manifestNoted canon) ..).1, verified_manifestNoted⟩
    · simp only [first, Option.isNone_some, Bool.and_false, Bool.false_eq_true, if_false, Option.getD_some]
      have shown := setRestore_shows (k := k) (rising_manifestNoted (k := k) (head := head) (shards := shards) (code := code)
        (good := false) canon) rsRefused (((shards.map fun x => (x, code x))[i]?.map fun e => e.2).getD rstSignature) i
      exact ⟨shown.1, verified_manifestNoted, shown.2⟩
  case done =>
    intro got
    have run := execRestoreCommitDone_fetched due same (got := got) rfl
    refine ⟨fun sound => ?_, fun i x first at' => ?_⟩
    · have none' : got.findIdx? (fun x => x.fetchErr || !digestOk x) = none :=
        List.findIdx?_eq_none_iff.2 fun x mem => by simpa using List.all_eq_true.1 sound x mem
      rwa [none'] at run
    · rw [first] at run
      simp only [at', Option.map_some, Option.getD_some] at run
      exact run

end Sys2Proof.Machine
end

section
/-! SUPPORT. Units are tested, retired and admitted (R413-R422), and the proof of their obligation. -/

namespace Sys2Proof.Machine

variable {s : State} {b : Requester} {h : BitVec 1} {ut : BitVec 8} {ui : BitVec 16}

/-! Targeted tests (R413, R421). -/

/-- The state of the unit before its test is given back. -/
def testOver (s : State) (ut ui : Nat) : State :=
  setUnit s ut ui { getUnit s ut ui with st := (getUnit s ut ui).back, pending := false, admission := false, causes := [] }

section
variable (mine : unitOf h.toNat ut.toNat ui.toNat = true) (test : hasTest ut.toNat = true)
include mine test

theorem execTargetedTestStart_due (on : unitOn s ut.toNat ui.toNat = true) (due : (getUnit s ut.toNat ui.toNat).pending = true)
    (rests : (getUnit s ut.toNat ui.toNat).st ≠ 2) : execTargetedTestStart h ut ui s = .next (if unitBusy s ut.toNat ui.toNat then s
      else setUnit s ut.toNat ui.toNat { getUnit s ut.toNat ui.toNat with back := (getUnit s ut.toNat ui.toNat).st, st := 2, pending := false }) := by
  unfold execTargetedTestStart
  simp only [mine, test, on, due, rests, Bool.not_true, Bool.false_eq_true, false_or]

theorem execTargetedTestComplete_under (under : (getUnit s ut.toNat ui.toNat).st = 2) (pass : Bool) :
    execTargetedTestComplete h ut ui pass s = .next (testEnd s ut.toNat ui.toNat pass) := by
  unfold execTargetedTestComplete
  simp only [mine, test, under, Bool.not_true, Bool.false_eq_true, not_true, false_or, ne_eq, if_false]

end

theorem testEnd_failed {t i : Nat} : testEnd s t i false = retireUnit (lastingRecords (testOver s t i) t i (getUnit s t i).causes) t i := by
  unfold testEnd
  simp only [Bool.not_false, true_or, if_true]
  rfl

section
variable {t i : Nat} (quiet : (getUnit s t i).pending = false)
include quiet

theorem testEnd_admits (admission : (getUnit s t i).admission = true) :
    testEnd s t i true = updUnit (testOver s t i) t i fun v => { v with st := 1, inc := nextInc v.inc } :=
  (if_neg (by simp [quiet])).trans (if_pos admission)

theorem testEnd_passed (not : (getUnit s t i).admission = false) (sound : (getUnit s t i).causes = []) : testEnd s t i true = testOver s t i := by
  refine (if_neg (by simp [quiet])).trans ((if_neg (ne_true_of_eq_false not)).trans ?_)
  rw [sound]
  rfl

end

/-! Background tests (R414, R415). -/

/-- A slice of the periodic test may run at row r. -/
structure SliceDue (s : State) (r : Nat) : Prop where
  asked : bit (mget z64 r (half s (rowHalf r)).cfg.rowtest).toNat 63 = true
  runs : halfRunning s (rowHalf r) = true
  on : domainOn s (domRow r) = true
  fit : (getUnit s utRow r).st ≠ 3
  stopped : gangState s (rowLeader s r) = gsStopped
  free : lent s r = false
  empty : bit (getF s F.ROW_CTXCTL_CVALID (rowLeader s r)) (curCtx s (rowLeader s r)) = false ∨ (seqCtl s (rowLeader s r)).away = true

theorem execPeriodicTestSlice_due {row : BitVec 6} (due : SliceDue s row.toNat) (bad : Option (BitVec 7)) : execPeriodicTestSlice row bad s = .next
    (match bad with
    | none => s
    | some k =>
      if 68 ≤ k.toNat ∨ !slotNamed s (rowSlot0 row.toNat + k.toNat) ∨ (getUnit s utSlot (rowSlot0 row.toNat + k.toNat)).st = 3 then s
      else detectUncorrected s utSlot (rowSlot0 row.toNat + k.toNat) 0x0007 0 0) := by
  obtain ⟨asked, runs, on, fit, stopped, free, empty⟩ := due
  refine congrArg Host.Outcome.next (if_neg ?_)
  rintro (no | no | no | no | no | no | no)
  · exact ne_true_of_eq_false (congrArg not asked) no
  · exact ne_true_of_eq_false (congrArg not runs) no
  · exact ne_true_of_eq_false (congrArg not on) no
  · exact fit no
  · exact no stopped
  · simp only [Bool.and_eq_true, Bool.not_eq_true'] at no
    exact empty.elim (fun e => ne_true_of_eq_false e no.1) fun e => ne_true_of_eq_false no.2 e
  · exact ne_true_of_eq_false free no

theorem execSpareSlotTestPass_due {p : BitVec 13} (there : unitExists utSlot p.toNat = true) (spare : (getUnit s utSlot p.toNat).st = 1)
    (on : unitOn s utSlot p.toNat = true) (mismatch : Bool) :
    execSpareSlotTestPass p mismatch s = .next (if !mismatch then s else detectUncorrected s utSlot p.toNat 0x0007 0 0) := by
  unfold execSpareSlotTestPass
  simp only [there, spare, on, Bool.not_true, Bool.false_eq_true, ne_eq, not_true, false_or]

/-! Commands to the selected unit (R419, R421, R422). -/

/-- The unit that DEV_USEL selects can be commanded. -/
def Commandable (s : State) (k : Nat) : Prop :=
  unitOf k (selected s k).1 (selected s k).2 = true ∧ hasTest (selected s k).1 = true ∧ unitOn s (selected s k).1 (selected s k).2 = true

section
variable {k : Nat} {ok : State → Nat → Nat → Bool} {f : State → Nat → Nat → State} (pass : gate s b true (regAddr .devUcmd 0 k) = none)
include pass

theorem unitCommand_refused (no : ¬ Commandable s k) : unitCommand s b k ok f = denied s b :=
  (guarded_none pass).trans (if_neg fun yes => by
    simp only [Bool.and_eq_true] at yes
    exact no ⟨yes.1.1.1, yes.1.1.2, yes.1.2⟩)

theorem unitCommand_fine (fine : Commandable s k) :
    unitCommand s b k ok f = if ok s (selected s k).1 (selected s k).2 then done (f s (selected s k).1 (selected s k).2) else denied s b := by
  obtain ⟨mine, test, on⟩ := fine
  refine (guarded_none pass).trans ?_
  simp only [mine, test, on, Bool.and_self, Bool.true_and]

end

/-- Settles O50: each command by its equation. -/
theorem unitsTestedAndCommanded : Obligations.UnitsTestedAndCommanded := by
  refine ⟨fun h ut ui s => ?tests, fun b h s => ?commands⟩
  case tests =>
    intro t i u
    refine ⟨fun mine test on due rests => ?start, fun mine test under => ?complete, fun row => ?slice, fun p there spare on => ?spare,
      fun n lanes => ?optic, fun kind mine on => ?stall⟩
    case start =>
      have run := execTargetedTestStart_due mine test on due rests
      exact ⟨fun busy => run.trans (congrArg Host.Outcome.next (if_pos busy)),
        fun free => run.trans (congrArg Host.Outcome.next (if_neg (ne_true_of_eq_false free)))⟩
    case complete =>
      have run := execTargetedTestComplete_under mine test under
      exact ⟨(run false).trans (congrArg Host.Outcome.next testEnd_failed),
        fun quiet admission => (run true).trans (congrArg Host.Outcome.next (testEnd_admits quiet admission)),
        fun quiet not sound => (run true).trans (congrArg Host.Outcome.next (testEnd_passed quiet not sound))⟩
    case slice =>
      intro r l asked runs on fit stopped free empty
      have run := execPeriodicTestSlice_due ⟨asked, runs, on, fit, stopped, free, empty⟩
      refine ⟨run none, fun k inRow named fit => (run (some k)).trans (congrArg Host.Outcome.next (if_neg ?_))⟩
      rintro (no | no | no)
      · exact absurd inRow (Nat.not_lt.2 no)
      · exact ne_true_of_eq_false (congrArg not named) no
      · exact fit no
    case spare => exact ⟨execSpareSlotTestPass_due there spare on false, execSpareSlotTestPass_due there spare on true⟩
    case optic =>
      intro e small asked on fit runs
      refine congrArg Host.Outcome.next (if_neg ?_)
      rintro (no | no | no | no | no)
      · exact absurd small (Nat.not_lt.2 no)
      · exact ne_true_of_eq_false (congrArg not asked) no
      · exact ne_true_of_eq_false (congrArg not on) no
      · exact fit no
      · exact ne_true_of_eq_false (congrArg not runs) no
    case stall =>
      refine congrArg Host.Outcome.next (if_neg ?_)
      rintro (no | no | no)
      · exact no (by simpa using kind)
      · exact ne_true_of_eq_false (congrArg not mine) no
      · exact ne_true_of_eq_false (congrArg not on) no
  case commands =>
    intro k t i fine
    refine ⟨fun pass => ⟨fun no passed => ⟨congrArg Host.Outcome.next (unitCommand_refused pass no),
        congrArg Host.Outcome.next (unitCommand_refused pass no), congrArg Host.Outcome.next (unitCommand_refused pass no)⟩,
      fun yes busy other => ?busy, fun yes free => ?retire, fun yes no passed => ?refused, fun yes ok passed => ?admitted,
      fun yes => congrArg Host.Outcome.next (unitCommand_fine pass yes)⟩, fun n => Nat.succ_ne_zero _⟩
    case busy =>
      refine congrArg Host.Outcome.next ((unitCommand_fine pass yes).trans (if_neg ?_))
      simpa [k, t, i, busy] using other
    case retire =>
      refine congrArg Host.Outcome.next ((unitCommand_fine pass yes).trans (if_pos ?_))
      simpa [k, t, i, or_comm] using free
    case refused => exact congrArg Host.Outcome.next ((unitCommand_fine pass yes).trans (if_neg (ne_true_of_eq_false no)))
    case admitted => exact congrArg Host.Outcome.next ((unitCommand_fine pass yes).trans (if_pos ok))

end Sys2Proof.Machine
end

section
/-! SUPPORT. Halves drain, reset and power off (R23, R24, R424), and the proof of their obligation. -/

namespace Sys2Proof.Machine

variable {s : State} {k : Nat} {b : Requester} {h : BitVec 1}

/-! A write of DEV_HALF (R424). -/

section
variable {ok : Bool} {f : State → State} (pass : gate s b true (regAddr .devHalf 0 k) = none)
include pass

theorem halfCommand_allowed (yes : ok = true) : halfCommand s b k ok f = done (f s) := (guarded_none pass).trans (if_pos yes)

theorem halfCommand_refused (no : ok = false) : halfCommand s b k ok f = denied s b :=
  (guarded_none pass).trans (if_neg (ne_true_of_eq_false no))

end

theorem mem_loadedService : [hsLoaded, hsService].contains (halfState s k) = true ↔ halfState s k = hsLoaded ∨ halfState s k = hsService := by simp

/-! The states that follow (R23, R24). -/

theorem halfState_setHalfState (w : Rising s.mg) (v : Nat) : halfState (setHalfState s k v) k = v % 2 ^ 3 := by
  have told : WordKept (regAddr .devHalf 0 k) (putF s F.DEV_HALF_STATE 0 v k) (setHalfState s k v) := .raiseEvent
  exact (halfState_of_kept told (rising_putF w ..)).1.trans (getF_putF_same w F.DEV_HALF_STATE (by decide))

theorem halfState_stopHalf (canon : s.Canon) : halfState (stopHalf s k) k = hsOff := by
  have erased : (eraseHalf (leaveRunning (loseAccesses s k) k) k).Canon :=
    (keeps_eraseHalf (keeps_leaveRunning (keeps_loseAccesses .refl))).2 canon
  exact (halfState_written (regs_rising erased.mg) hsOff).1

/-- Settles O51: each command by its equation, the states by what they leave in DEV_HALF. -/
theorem halvesStop : Obligations.HalvesStop := by
  intro b h s k
  refine ⟨fun pass => ⟨fun runs quiet => ?drain, fun no => ?undrained, fun on => congrArg Host.Outcome.next (halfCommand_allowed pass on),
      fun off => congrArg Host.Outcome.next (halfCommand_refused pass off),
      fun yes => congrArg Host.Outcome.next (halfCommand_allowed pass (mem_loadedService.2 yes)), fun loaded service => ?powered⟩,
    fun drains => ⟨fun idle clear canon => ⟨setHalfState s k hsService, ?complete, halfState_setHalfState (regs_rising canon.mg) _⟩, fun owed => ?owed⟩,
    halfState_stopHalf⟩
  case drain =>
    refine congrArg Host.Outcome.next (halfCommand_allowed (f := fun s => leaveRunning (setHalfState s k hsDraining) k) pass ?_)
    simpa [k, quiet] using runs
  case undrained =>
    refine congrArg Host.Outcome.next (halfCommand_refused pass ?_)
    exact Bool.and_eq_false_iff.2 (no.imp_right (congrArg not))
  case powered =>
    exact congrArg Host.Outcome.next (halfCommand_refused pass
      (eq_false_of_ne_true fun yes => (mem_loadedService.1 yes).elim loaded service))
  case complete =>
    refine congrArg Host.Outcome.next (if_neg ?_)
    rintro (no | no | no)
    · exact no drains
    · rw [show waitersAt s h.toNat = [] from idle] at no
      exact absurd no (by decide)
    · exact ne_true_of_eq_false clear no
  case owed => exact congrArg Host.Outcome.next (if_pos (.inr (.inl (by simpa using owed))))

end Sys2Proof.Machine
end

section
/-! SUPPORT. A Fueman stream commits whole or not at all (R396, R405-R408), and the proof of its obligation. -/

namespace Sys2Proof.Machine

variable {s : State} {k : Nat} {b : Requester} {h : BitVec 1}

/-! Words that a store drops read as they do after load. -/

theorem mget_absent {α : Type} {d : Nat → α} {a : Nat} {m : Map α} (absent : ∀ e ∈ m, e.1 ≠ a) : mget d a m = d a := by
  induction m with
  | nil => rfl
  | cons e r ih =>
    have rest := ih fun e mem => absent e (List.mem_cons_of_mem _ mem)
    have ne : a ≠ e.1 := (absent e List.mem_cons_self).symm
    simp only [mget, if_neg ne, rest, ite_self]

theorem mget_mdrop_gone {α : Type} {d : Nat → α} {a : Nat} {p : Nat → Bool} {m : Map α} (gone : p a = true) : mget d a (mdrop p m) = d a := by
  refine mget_absent fun e mem same => ?_
  have kept := (List.mem_filter.1 mem).2
  rw [same, gone] at kept
  exact absurd kept (by decide)

/-! Offsets in a block (R492). -/

theorem off_le_wordOff (r : Reg) (j : Nat) : (regSpec r).off ≤ wordOff r j := Nat.le_add_right ..

theorem regIndex_single {r : Reg} {o : Nat} (single : (regSpec r).count ≤ 1) (other : o ≠ (regSpec r).off) : regIndex r o = none := by
  unfold regIndex
  simp only [if_pos single, if_neg other, ite_self]

theorem regIndex_wordOff {r : Reg} {j : Nat} (several : 1 < (regSpec r).count) (step : 0 < (regSpec r).stride) (word : j < (regSpec r).count) :
    regIndex r (wordOff r j) = some j := by
  have beyond : wordOff r j - (regSpec r).off = (regSpec r).stride * j := Nat.add_sub_cancel_left ..
  have late : ¬ wordOff r j < (regSpec r).off := Nat.not_lt.2 (off_le_wordOff ..)
  unfold regIndex
  simp only [beyond, late, Nat.not_le.2 several, Nat.mul_mod_right, Nat.mul_div_cancel_left j step, word, and_self, if_true, if_false]

theorem regAt_of_block {a i o : Nat} {blk : Block} (block : blockOf a = some (blk, i, o)) :
    regAt a = (regsOf blk).findSome? fun r => (regIndex r o).map fun k => (r, i, k) := by
  unfold regAt
  rw [block]

theorem mgDefault_of_regAt {a i j : Nat} {r : Reg} (found : regAt a = some (r, i, j)) : mgDefault a = regDefault r i j := by
  unfold mgDefault
  rw [found]

/-- The words of the staging window are 0 after load (R396). -/
theorem mgDefault_fstWindow {j : Nat} (half : k < 2) (word : j < 2 ^ 21) : mgDefault (regAddr .fstWindow k j) = 0 := by
  have several : 1 < (regSpec .fstWindow).count ∧ 0 < (regSpec .fstWindow).stride := by decide
  have last : j < (regSpec .fstWindow).count := by
    simp only [regSpec]
    omega
  have block : blockOf (regAddr .fstWindow k j) = some (.fst, k, wordOff .fstWindow j) := by
    rw [regAddr_eq]
    exact blockOf_blockBase half (wordOff_lt_blockSize last)
  have early : ∀ r ∈ [Reg.fstCtl, .fstStat, .fstErr, .fstNonce], regIndex r (wordOff .fstWindow j) = none := by
    have small : ∀ r ∈ [Reg.fstCtl, .fstStat, .fstErr, .fstNonce], (regSpec r).count ≤ 1 ∧ (regSpec r).off < (regSpec .fstWindow).off := by decide
    exact fun r mem => regIndex_single (small r mem).1 (Nat.ne_of_gt (lt_of_lt_of_le (small r mem).2 (off_le_wordOff ..)))
  have found : regIndex .fstWindow (wordOff .fstWindow j) = some j := regIndex_wordOff several.1 several.2 last
  simp only [List.forall_mem_cons] at early
  obtain ⟨ctl, stat, err, nonce, -⟩ := early
  have at' : regAt (regAddr .fstWindow k j) = some (.fstWindow, k, j) := by
    rw [regAt_of_block block]
    simp only [regsOf, List.findSome?_cons, ctl, stat, err, nonce, found, Option.map_none, Option.map_some]
  exact mgDefault_of_regAt at'

/-! APPLY and DISCARD (R396, R405, R504). -/

theorem streamUnder_iff : [1, 2].contains (getF s F.FST_STAT_STATE k) = true ↔ getF s F.FST_STAT_STATE k = 1 ∨ getF s F.FST_STAT_STATE k = 2 := by
  simp

theorem calibrated_iff : ((applyScope s k).all fun j => getF s F.DEV_CAL_DONE 0 j != 0) = true ↔
    ¬ ((applyScope s k).any fun j => getF s F.DEV_CAL_DONE 0 j == 0) = true := by simp [bne]

/-- The stream's origin is noted. -/
def originNoted (s : State) (b : Requester) (k : Nat) : State := updHalf s k fun x => { x with fstBy := isNode b || nodeStaged s k }

/-- The words of the staging window. -/
def ofStaging (k a : Nat) : Bool := decide (regAddr .fstWindow k 0 ≤ a) && decide (a < regAddr .fstWindow k 0 + 2 ^ 24)

/-- The staging window without its words. -/
def windowCleared (s : State) (k : Nat) : State :=
  { updHalf s k fun x => { x with fstNode := [] } with mg := mdrop (ofStaging k) (updHalf s k fun x => { x with fstNode := [] }).mg }

theorem windowCleared_mg : (windowCleared s k).mg = mdrop (ofStaging k) s.mg := congrArg (mdrop _) (updHalf_mg ..)

section
variable (pass : gate s b true (regAddr .fstCtl h.toNat 0) = none)
include pass

theorem execFstApply_early (early : (getF s F.FST_STAT_STATE h.toNat = 1 ∨ getF s F.FST_STAT_STATE h.toNat = 2) ∨
    ((applyScope s h.toNat).all fun j => getF s F.DEV_CAL_DONE 0 j != 0) = false) : execFstApply b h s = .next (denied s b) := by
  refine congrArg Host.Outcome.next ((guarded_none pass).trans (if_pos (early.imp streamUnder_iff.2 fun no => ?_)))
  by_contra calibrated
  exact ne_true_of_eq_false no (calibrated_iff.2 calibrated)

theorem execFstApply_passed (free : ¬ (getF s F.FST_STAT_STATE h.toNat = 1 ∨ getF s F.FST_STAT_STATE h.toNat = 2))
    (cal : ((applyScope s h.toNat).all fun j => getF s F.DEV_CAL_DONE 0 j != 0) = true) : execFstApply b h s =
      .next (done (match validate (originNoted s b h.toNat) h.toNat with
        | .inl e => refuseStream (originNoted s b h.toNat) h.toNat e
        | .inr _ => holdStream (originNoted s b h.toNat) h.toNat (isNode b || nodeStaged s h.toNat))) :=
  congrArg Host.Outcome.next ((guarded_none pass).trans
    (if_neg fun no => no.elim (fun under => free (streamUnder_iff.1 under)) (calibrated_iff.1 cal)))

theorem execFstDiscard_under (under : getF s F.FST_STAT_STATE h.toNat = 1 ∨ getF s F.FST_STAT_STATE h.toNat = 2) :
    execFstDiscard b h s = .next (denied s b) :=
  congrArg Host.Outcome.next ((guarded_none pass).trans (if_pos (streamUnder_iff.2 under)))

theorem execFstDiscard_free (free : ¬ (getF s F.FST_STAT_STATE h.toNat = 1 ∨ getF s F.FST_STAT_STATE h.toNat = 2)) :
    execFstDiscard b h s = .next (done (setFstState (windowCleared s h.toNat) h.toNat fsIdle)) :=
  congrArg Host.Outcome.next ((guarded_none pass).trans (if_neg fun under => free (streamUnder_iff.1 under)))

end

theorem rising_windowCleared (w : Rising s.mg) : Rising (windowCleared s k).mg := by
  rw [windowCleared_mg]
  exact rising_mdrop w

theorem fstNode_discarded : (half (done (setFstState (windowCleared s k) k fsIdle)) k).fstNode = [] := by
  have cleared : half (done (setFstState (windowCleared s k) k fsIdle)) k = half (updHalf s k fun x => { x with fstNode := [] }) k := rfl
  rw [cleared, half_updHalf_self]

theorem state_discarded (w : Rising s.mg) : getF (done (setFstState (windowCleared s k) k fsIdle)) F.FST_STAT_STATE k = fsIdle :=
  (getF_done ..).trans (getF_putF_same (rising_windowCleared w) F.FST_STAT_STATE (by decide))

theorem window_discarded (w : Rising s.mg) {j : Nat} (half : k < 2) (word : j < 2 ^ 21) :
    reg (done (setFstState (windowCleared s k) k fsIdle)) .fstWindow k j = 0 := by
  have ne : regAddr .fstWindow k j ≠ regAddr .fstStat k 0 := by
    refine regAddr_ne_word ⟨rfl, ?_⟩
    simp only [wordOff, regSpec]
    omega
  have kept : WordKept (regAddr .fstWindow k j) (windowCleared s k) (setFstState (windowCleared s k) k fsIdle) := .putF (f := F.FST_STAT_STATE) ne
  have inside : ofStaging k (regAddr .fstWindow k j) = true := by
    have first : wordOff .fstWindow 0 = 0x1000000 := rfl
    have off : wordOff .fstWindow j = 0x1000000 + 8 * j := rfl
    simp only [ofStaging, regAddr_eq, first, off, Bool.and_eq_true, decide_eq_true_eq]
    omega
  refine (reg_done ..).trans ((kept.reg (rising_windowCleared w)).trans ?_)
  rw [reg, windowCleared_mg]
  exact (mget_mdrop_gone inside).trans (mgDefault_fstWindow half word)

/-! The commit (R406). -/

section
variable {l : List Sect} (held : (half s h.toNat).fstKind.isSome = true) (due : committing s h.toNat = true)
  (quiet : ∀ j ∈ committers s h.toNat, (getSec s j).quote = none) (parsed : fstParse s h.toNat = .inr l)
include held due quiet parsed

/-- The sections of a stream as the halves in `ks` take them. -/
def sectsOf (ks : List Nat) (l : List Sect) : List Sect := l.map fun x => { x with items := x.items.filter (itemIn ks) }

/-- The checks repeated at the commit. -/
def commitError (s : State) (k : Nat) (mine : List Sect) : Option SErr :=
  firstErr (pick (itemsOf mine) 3 2) (vChanmap s false) <|> vState s k mine

theorem execStreamCommit_due : execStreamCommit h s = .next
    (match commitError s h.toNat (sectsOf (committers s h.toNat) l) with
    | some e => refuseStream s h.toNat e
    | none => commitStream s h.toNat l (committers s h.toNat)) := by
  refine congrArg Host.Outcome.next ((if_neg ?_).trans ?_)
  · rintro (no | no | no)
    · exact absurd no (by simp [Option.isNone_iff_eq_none, Option.isSome_iff_ne_none.1 held])
    · exact ne_true_of_eq_false (congrArg not due) no
    · obtain ⟨j, mem, some'⟩ := List.any_eq_true.1 no
      rw [quiet j mem] at some'
      exact absurd some' (by decide)
  · rw [parsed]
    rfl

end

/-- Settles O52: each command by its equation. -/
theorem streamsCommitWhole : Obligations.StreamsCommitWhole := by
  intro b h s k under cal
  refine ⟨fun pass => ⟨execFstApply_early pass, fun free calibrated => ?apply, execFstDiscard_under pass,
    fun free => ⟨_, execFstDiscard_free pass free, resp_done _, fstNode_discarded, fun canon => ⟨state_discarded (regs_rising canon.mg),
      fun j word => window_discarded (regs_rising canon.mg) h.isLt word⟩⟩⟩, ?commit⟩
  case apply =>
    intro byNode s1
    have run := execFstApply_passed pass free calibrated
    refine ⟨fun e bad => run.trans (congrArg (fun t => Host.Outcome.next (done t)) ?_),
      fun l good => run.trans (congrArg (fun t => Host.Outcome.next (done t)) ?_)⟩
    · rw [show validate (originNoted s b h.toNat) h.toNat = .inl e from bad]
      rfl
    · rw [show validate (originNoted s b h.toNat) h.toNat = .inr l from good]
      rfl
  case commit =>
    intro ks held due quiet l parsed mine
    have run := execStreamCommit_due held due quiet parsed
    refine ⟨fun none' => run.trans (congrArg Host.Outcome.next ?_), fun e some' => run.trans (congrArg Host.Outcome.next ?_)⟩
    · rw [show commitError s h.toNat (sectsOf (committers s h.toNat) l) = none from none']
    · rw [show commitError s h.toNat (sectsOf (committers s h.toNat) l) = some e from some']

end Sys2Proof.Machine
end

section
/-! SUPPORT. The management bus target and the boundary scan port (R482-R484), and the proof of their obligation. -/

namespace Sys2Proof.Machine

variable {s : State} {h : BitVec 1}

/-! Entries of a store without those that read as after load. -/

theorem mget_of_mem {α : Type} {d : Nat → α} {a : Nat} {v : α} {m : Map α} (w : Rising m) (mem : (a, v) ∈ m) : mget d a m = v := by
  induction m with
  | nil => exact absurd mem List.not_mem_nil
  | cons e r ih =>
    obtain ⟨below, wr⟩ := rising_cons.1 w
    obtain same | mem := List.mem_cons.1 mem
    · subst same
      exact if_pos rfl
    · have lt : e.1 < a := below _ mem
      exact (if_neg (Nat.ne_of_gt lt)).trans ((if_neg (Nat.lt_asymm lt)).trans (ih wr mem))

theorem eq_of_mem {α : Type} [Zero α] {a : Nat} {u v : α} {m : Map α} (w : Rising m) (mem : (a, u) ∈ m) (mem' : (a, v) ∈ m) : u = v :=
  (mget_of_mem (d := fun _ => 0) w mem).symm.trans (mget_of_mem w mem')

theorem mget_nonzero {a : Nat} {v : W64} {m : Map W64} (w : Rising m) (mem : (a, v) ∈ m) : mget z64 a (m.filter fun e => e.2 != 0) = v := by
  by_cases zero : v = 0
  · subst zero
    refine mget_absent fun e kept same => ?_
    obtain ⟨mem', nonzero⟩ := List.mem_filter.1 kept
    have eq : e.2 = 0 := eq_of_mem w (a := a) (same ▸ mem') mem
    rw [eq] at nonzero
    exact absurd nonzero (by decide)
  · exact mget_of_mem (w.sublist (List.filter_sublist.map _)) (List.mem_filter.2 ⟨mem, by simpa using zero⟩)

/-! The management bus (R482, R483). -/

theorem rising_i3cSources : Rising (i3cSources s) := by
  simp only [Rising, i3cSources, List.map_cons, List.map_nil]
  decide

section
variable (off : s.pins.input = false)
include off

theorem absent_input : (!s.pins.input) = true := congrArg not off

end

section
variable (on : s.pins.input = true)
include on

theorem present_input : ¬ (!s.pins.input) = true := ne_true_of_eq_false (congrArg not on)

theorem execI3cIndexWrite_on (bs : List Byte) : execI3cIndexWrite bs s = .next (match bs with
    | [b] => done (updPins s fun p => { p with i3cIdx := b.toNat })
    | _ => accessError s) := congrArg Host.Outcome.next (if_neg (present_input on))

theorem execI3cPrivateRead_on : execI3cPrivateRead s = .next (answer (updPins s fun p => { p with i3cIdx := (p.i3cIdx + 8) % 256 })
    (.bytes (toBytes 8 (mget z64 s.pins.i3cIdx s.pins.i3cSnap).toNat))) := congrArg Host.Outcome.next (if_neg (present_input on))

section
variable (free : s.pins.i3cDyn = none)
include free

theorem addressFree : ¬ ((!s.pins.input) = true ∨ s.pins.i3cDyn.isSome = true) := by
  rw [free]
  exact not_or.2 ⟨present_input on, by decide⟩

theorem execI3cSetdasa_free (a : BitVec 7) : execI3cSetdasa a s = .next (done (updPins s fun p => { p with i3cDyn := some a })) :=
  congrArg Host.Outcome.next (if_neg (addressFree on free))

theorem execI3cEntdaa_free (a : BitVec 7) : execI3cEntdaa a s =
    .next (answer (updPins s fun p => { p with i3cDyn := some a }) (.bytes provisionalId)) :=
  congrArg Host.Outcome.next (if_neg (addressFree on free))

end

end

/-! The scan port (R484). -/

section
variable (works : tapWorks s = true)
include works

theorem execTapIdcode_works : execTapIdcode s = .next (tapCapture s 0x01 (toBytes 4 0x101007B3)) := congrArg Host.Outcome.next (if_pos works)

theorem execTapSamplePreload_works : execTapSamplePreload s = .next (tapBoundary s 0x02) := congrArg Host.Outcome.next (if_pos works)

theorem portWorks : ¬ (!tapWorks s) = true := ne_true_of_eq_false (congrArg not works)

/-- Both halves are in BOOT or LOADED. -/
def ballsDriven (s : State) : Bool := [0, 1].all fun h => [hsBoot, hsLoaded].contains (halfState s h)

theorem execTapExtest_works : execTapExtest s = .next (if ballsDriven s then tapBoundary s 0x00 else tapCapture s 0x00 [0]) :=
  congrArg Host.Outcome.next (if_neg (portWorks works))

theorem execTapDbgChallenge_may (on : halfState s h.toNat ≠ hsOff) (may : mayChallenge s h.toNat = true) : execTapDbgChallenge h s =
    .next (tapCapture (newChallenge s h.toNat) (if h.toNat = 0 then 0x20 else 0x22) (regBytes (newChallenge s h.toNat) .secDbgchal h.toNat 0 8)) := by
  refine congrArg Host.Outcome.next ((if_neg (portWorks works)).trans ?_)
  simp only [if_pos (show halfState s h.toNat ≠ hsOff ∧ mayChallenge s h.toNat = true from ⟨on, may⟩)]

theorem execTapBypass_other {op : BitVec 8} (other : [0x00, 0x01, 0x02, 0x20, 0x21, 0x22, 0x23].contains op.toNat = false) :
    execTapBypass op s = .next (tapCapture s op [0]) :=
  congrArg Host.Outcome.next (if_neg (not_or.2 ⟨portWorks works, ne_true_of_eq_false other⟩))

theorem execTapDbgResponse_works (r : List Byte) : execTapDbgResponse h r s = .next
    (let t := tapCapture s (if h.toNat = 0 then 0x21 else 0x23) r
    if halfState t h.toNat = hsOff then t
    else if (half (setWords t .secDbgresp h.toNat 0 (wordsOf r)) h.toNat).cfg.dbgUnlock then
      submitDebug (setWords t .secDbgresp h.toNat 0 (wordsOf r)) h.toNat
    else setWords t .secDbgresp h.toNat 0 (wordsOf r)) := congrArg Host.Outcome.next (if_neg (portWorks works))

end

theorem halfState_tapCapture (op : BitVec 8) (dr : List Byte) (k : Nat) : halfState (tapCapture s op dr) k = halfState s k := rfl

theorem half_tapCapture (op : BitVec 8) (dr : List Byte) (k : Nat) : half (tapCapture s op dr) k = half s k := rfl

theorem regBytes_tapCapture (op : BitVec 8) (dr : List Byte) (r : Reg) (i j n : Nat) :
    regBytes (tapCapture s op dr) r i j n = regBytes s r i j n := rfl

/-- Settles O56: each command by its equation. -/
theorem managementAndScanPorts : Obligations.ManagementAndScanPorts := by
  refine ⟨fun s => ⟨fun off bs a => ?absent, fun on => ⟨fun b => ⟨_, execI3cIndexWrite_on on [b], rfl, rfl⟩, fun bs several => ?long,
      ⟨_, execI3cPrivateRead_on on, rfl, rfl⟩,
      fun a free => ⟨⟨_, execI3cSetdasa_free on free a, rfl, rfl⟩, ⟨_, execI3cEntdaa_free on free a, rfl, rfl⟩⟩,
      fun a taken => ?taken, ⟨_, congrArg Host.Outcome.next (if_pos on), fun a v mem => mget_nonzero rising_i3cSources mem⟩⟩⟩,
    fun s => ⟨fun dead h r op => ?dead, fun works => ?works, ⟨_, rfl, rfl, rfl, Bool.and_false _⟩, ⟨_, rfl, rfl⟩⟩⟩
  case absent =>
    exact ⟨congrArg Host.Outcome.next (if_pos (absent_input off)), congrArg Host.Outcome.next (if_pos (absent_input off)),
      congrArg Host.Outcome.next (if_pos (.inl (absent_input off))), congrArg Host.Outcome.next (if_pos (.inl (absent_input off))),
      congrArg Host.Outcome.next (if_neg (ne_true_of_eq_false off))⟩
  case long =>
    refine (execI3cIndexWrite_on on bs).trans ?_
    match bs, several with
    | [], _ => rfl
    | _ :: _ :: _, _ => rfl
  case taken =>
    have some' : s.pins.i3cDyn.isSome = true := Option.isSome_iff_ne_none.2 taken
    exact ⟨congrArg Host.Outcome.next (if_pos (.inr some')), congrArg Host.Outcome.next (if_pos (.inr some'))⟩
  case dead =>
    have off : ¬ tapWorks s = true := ne_true_of_eq_false dead
    have off' : (!tapWorks s) = true := congrArg not dead
    exact ⟨congrArg Host.Outcome.next (if_pos off'), congrArg Host.Outcome.next (if_neg off), congrArg Host.Outcome.next (if_neg off),
      congrArg Host.Outcome.next (if_pos off'), congrArg Host.Outcome.next (if_pos off'), congrArg Host.Outcome.next (if_pos (.inl off'))⟩
  case works =>
    refine ⟨⟨_, execTapIdcode_works works, ?id, rfl, rfl⟩, ⟨_, execTapSamplePreload_works works, rfl, rfl, rfl⟩,
      ⟨_, execTapExtest_works works, ?ir, ?regs, fun runs => ?runs, fun boots loaded => ?boots⟩,
      fun h on may => ⟨_, execTapDbgChallenge_may works on may, challenge_newChallenge, rfl⟩, fun h r on unlock => ?response,
      fun op other => ⟨_, execTapBypass_other works other, rfl, rfl, rfl⟩⟩
    case id => exact congrArg Resp.bytes (by decide)
    case ir => split <;> rfl
    case regs => split <;> rfl
    case runs =>
      rw [if_neg (by simp [ballsDriven, runs, hsRunning, hsBoot, hsLoaded])]
      rfl
    case boots =>
      rw [if_pos (by simp [ballsDriven, boots, loaded])]
      rfl
    case response =>
      refine (execTapDbgResponse_works works r).trans (congrArg Host.Outcome.next ?_)
      simp only [halfState_tapCapture, half_setWords, half_tapCapture, if_neg on, if_pos unlock]

end Sys2Proof.Machine
end

section
/-! SUPPORT. Solver doorbells and descriptors (R214-R216, R219, R236-R240), and the proof of their obligation. -/

namespace Sys2Proof.Machine

variable {s t : State} {k : Nat} {b : Requester} {v : W64}

/-! The doorbell (R215, R216, R236). -/

/-- Indices that R215 accepts. -/
def solvLegal (s : State) (k tail head : Nat) : Bool :=
  doorbellLegal (getF s F.SOLV_SQ_SQ_LOG2 k) (getF s F.SOLV_CQ_CQ_LOG2 k) (getF s F.SOLV_DB_SQ_TAIL k) (getF s F.SOLV_STAT_SQ_HEAD k)
    (getF s F.SOLV_STAT_CQ_TAIL k) (getF s F.SOLV_DB_CQ_HEAD k) tail head

/-- Both indices set. -/
def indicesSet (s : State) (k tail head : Nat) : State := putF (putF s F.SOLV_DB_SQ_TAIL k tail) F.SOLV_DB_CQ_HEAD k head

/-- A wait for room in the completion ring ends. -/
def waitEnded (s : State) (k : Nat) : State :=
  if getF s F.SOLV_STAT_STATE k = 2 ∧ !cqFull s k ∧ (getSolv s k).isNone then putF s F.SOLV_STAT_STATE k 0 else s

/-- CANCEL reaches a running descriptor. -/
def cancelTold (s : State) (k : Nat) (v : W64) : State :=
  if bit v.toNat 63 ∧ (half s k).solv.any (fun r => r.done.isNone) then updHalf s k fun x => { x with cancel := true } else s

section
variable (pass : gate s b true (regAddr .solvDb k 0) = none)
include pass

theorem solvDbWrite_illegal (bad : solvLegal s k (bits v.toNat 15 0) (bits v.toNat 31 16) = false) : solvDbWrite s b k v = denied s b :=
  (guarded_none pass).trans (if_pos (congrArg not bad))

theorem solvDbWrite_legal (good : solvLegal s k (bits v.toNat 15 0) (bits v.toNat 31 16) = true) : solvDbWrite s b k v =
    done (cancelTold (waitEnded (indicesSet s k (bits v.toNat 15 0) (bits v.toNat 31 16)) k) k v) :=
  (guarded_none pass).trans (if_neg (ne_true_of_eq_false (congrArg not good)))

end

theorem indicesSet_shows (w : Rising s.mg) (tail head : Nat) :
    getF (indicesSet s k tail head) F.SOLV_DB_SQ_TAIL k = tail % 2 ^ 16 ∧ getF (indicesSet s k tail head) F.SOLV_DB_CQ_HEAD k = head % 2 ^ 16 := by
  have wt : Rising (putF s F.SOLV_DB_SQ_TAIL k tail).mg := rising_putF w ..
  exact ⟨(getF_putF_beside wt F.SOLV_DB_CQ_HEAD F.SOLV_DB_SQ_TAIL (by decide)).trans (getF_putF_same w F.SOLV_DB_SQ_TAIL (by decide)),
    getF_putF_same wt F.SOLV_DB_CQ_HEAD (by decide)⟩

theorem rising_indicesSet (w : Rising s.mg) (tail head : Nat) : Rising (indicesSet s k tail head).mg := rising_putF (rising_putF w ..) ..

/-- Fields of other registers stand. -/
theorem indicesSet_keeps {f : Fld} {tail head : Nat} (ne : regAddr f.reg k 0 ≠ regAddr .solvDb k 0) :
    FieldKept f k 0 s (indicesSet s k tail head) := .of_word (.trans (.putF (f := F.SOLV_DB_SQ_TAIL) ne) (.putF (f := F.SOLV_DB_CQ_HEAD) ne))

theorem cancelTold_keeps {f : Fld} : FieldKept f k 0 s (cancelTold s k v) := .ite (fun _ => .of_word .updHalf) fun _ => .refl

theorem waitEnded_keeps {f : Fld} (ne : regAddr f.reg k 0 ≠ regAddr .solvStat k 0) : FieldKept f k 0 s (waitEnded s k) :=
  .ite (fun _ => .of_word (.putF (f := F.SOLV_STAT_STATE) ne)) fun _ => .refl

theorem half_waitEnded (j : Nat) : half (waitEnded s k) j = half s j := by
  unfold waitEnded
  split <;> rfl

theorem half_indicesSet (tail head j : Nat) : half (indicesSet s k tail head) j = half s j := rfl

theorem cancel_cancelTold (asks : bit v.toNat 63 = true) :
    (half (cancelTold s k v) k).cancel = ((half s k).cancel || (half s k).solv.any fun r => r.done.isNone) := by
  unfold cancelTold
  cases runs : (half s k).solv.any fun r => r.done.isNone with
  | false => rw [if_neg (by simp), Bool.or_false]
  | true => rw [if_pos ⟨asks, rfl⟩, half_updHalf_self, Bool.or_true]

theorem doorbell_shows (w : Rising s.mg) {tail head : Nat} :
    let t := done (cancelTold (waitEnded (indicesSet s k tail head) k) k v)
    getF t F.SOLV_DB_SQ_TAIL k = tail % 2 ^ 16 ∧ getF t F.SOLV_DB_CQ_HEAD k = head % 2 ^ 16 := by
  intro t
  have ws := rising_indicesSet (k := k) w tail head
  have kept (f : Fld) (reg : f.reg = .solvDb) : getF t f k = getF (indicesSet s k tail head) f k := by
    have beside : regAddr f.reg k 0 ≠ regAddr .solvStat k 0 := by
      rw [reg]
      exact regAddr_ne_word (by decide)
    exact (getF_done ..).trans ((waitEnded_keeps beside).trans cancelTold_keeps ws).2
  obtain ⟨tails, heads⟩ := indicesSet_shows (k := k) w tail head
  exact ⟨(kept _ rfl).trans tails, (kept _ rfl).trans heads⟩

/-- A free engine that waited for room is IDLE once the ring has some. -/
theorem doorbell_idle (w : Rising s.mg) {tail head : Nat} (waits : getF s F.SOLV_STAT_STATE k = 2) (free : (half s k).solv = none)
    (room : ringCount (getF s F.SOLV_STAT_CQ_TAIL k) (head % 2 ^ 16) < 2 ^ getF s F.SOLV_CQ_CQ_LOG2 k) :
    getF (done (cancelTold (waitEnded (indicesSet s k tail head) k) k v)) F.SOLV_STAT_STATE k = 0 := by
  have ws := rising_indicesSet (k := k) w tail head
  have stat : regAddr .solvStat k 0 ≠ regAddr .solvDb k 0 := regAddr_ne_word (by decide)
  have ring : regAddr .solvCq k 0 ≠ regAddr .solvDb k 0 := regAddr_ne_word (by decide)
  have state : getF (indicesSet s k tail head) F.SOLV_STAT_STATE k = 2 := (indicesSet_keeps (f := F.SOLV_STAT_STATE) stat w).2.trans waits
  have some' : cqFull (indicesSet s k tail head) k = false := by
    have log := (indicesSet_keeps (tail := tail) (head := head) (f := F.SOLV_CQ_CQ_LOG2) ring w).2
    have at' := (indicesSet_keeps (tail := tail) (head := head) (f := F.SOLV_STAT_CQ_TAIL) stat w).2
    rw [cqFull, log, at', (indicesSet_shows w tail head).2]
    exact decide_eq_false (Nat.not_le.2 room)
  have ends : waitEnded (indicesSet s k tail head) k = putF (indicesSet s k tail head) F.SOLV_STAT_STATE k 0 := by
    refine if_pos ⟨state, congrArg not some', ?_⟩
    rw [getSolv, half_indicesSet, free]
    rfl
  rw [ends]
  exact (getF_done ..).trans ((cancelTold_keeps (rising_putF ws ..)).2.trans (getF_putF_same ws F.SOLV_STAT_STATE (by decide)))

/-- The word of a CANCEL: the indices as they stand. -/
theorem cancelWord {x y : Nat} (head : x < 65536) (tail : y < 65536) :
    bit (BitVec.ofNat 64 (2 ^ 63 + x * 65536 + y)).toNat 63 = true ∧ bits (BitVec.ofNat 64 (2 ^ 63 + x * 65536 + y)).toNat 15 0 = y ∧
      bits (BitVec.ofNat 64 (2 ^ 63 + x * 65536 + y)).toNat 31 16 = x := by
  rw [bit_eq_bits, BitVec.toNat_ofNat]
  simp only [bits, beq_iff_eq]
  omega

/-! Descriptors (R216, R219, R237-R240). -/

/-- The words of the descriptor at the head of the ring. -/
def headWords (s : State) (k : Nat) : List W64 :=
  hbmWords s (getF s F.SOLV_SQ_SQ_BASE k * 4096 + getF s F.SOLV_STAT_SQ_HEAD k % 2 ^ getF s F.SOLV_SQ_SQ_LOG2 k * 128) 16

/-- The descriptor has left the ring. -/
def headTaken (s : State) (k : Nat) : State :=
  updHalf (putF (putF s F.SOLV_STAT_SQ_HEAD k (getF s F.SOLV_STAT_SQ_HEAD k + 1)) F.SOLV_STAT_STATE k 1) k fun x => { x with cancel := false }

/-- The factorisation that the operation is about. -/
def factorOp (s : State) (ws : List W64) (op : Nat) : Nat :=
  if op = 3 ∨ op = 4 then (if fopOf (blockCopy s (solvDesc ws 1).work) = 2 then 2 else 1) else op

theorem solverStart_rests {op : Nat} (rests : (half s k).solv.isSome = true ∨
    ¬ ringCount (getF s F.SOLV_STAT_CQ_TAIL k) (getF s F.SOLV_DB_CQ_HEAD k) < 2 ^ getF s F.SOLV_CQ_CQ_LOG2 k ∨
    ¬ ringCount (getF s F.SOLV_DB_SQ_TAIL k) (getF s F.SOLV_STAT_SQ_HEAD k) ≠ 0 ∨ halfRunning s k = false) : solverStart s k op = s := by
  refine if_pos ?_
  obtain has | full | empty | off := rests
  · exact .inr (.inr (.inl has))
  · exact .inr (.inr (.inr (.inr (.inl (decide_eq_true (Nat.not_lt.1 full))))))
  · exact .inr (.inr (.inr (.inl (not_not.1 empty))))
  · exact .inl (congrArg not off)

/-- The engine takes a descriptor of this operation. -/
structure EngineTakes (s : State) (k op : Nat) : Prop where
  runs : halfRunning s k = true
  idle : getF s F.SOLV_STAT_STATE k = 0
  free : (half s k).solv = none
  room : ringCount (getF s F.SOLV_STAT_CQ_TAIL k) (getF s F.SOLV_DB_CQ_HEAD k) < 2 ^ getF s F.SOLV_CQ_CQ_LOG2 k
  posted : ringCount (getF s F.SOLV_DB_SQ_TAIL k) (getF s F.SOLV_STAT_SQ_HEAD k) ≠ 0
  well : (getUnit s utEngine k).st = 0
  names : fopOf (headWords s k) = op

section
variable {op : Nat} (takes : EngineTakes s k op) {ws : List W64} {u : State} {d : SolvDesc} {r : SolvRun} (words : headWords s k = ws)
  (left : headTaken s k = u) (desc : solvDesc ws (factorOp u ws op) = d) (run : newRun ws (factorOp u ws op) (reg u .tbHall k 0) = r)
include takes words left desc run

theorem solverStart_takes : solverStart s k op = match solvRefusal u k ws d with
    | some c => setSolv (if c.1 = svBadStructure ∧ d.op ≠ 3 then
        writeBlock u d (if d.op = 4 then runOfBlock u d (endRun r c.1 c.2.1 c.2.2) else endRun r c.1 c.2.1 c.2.2) 4 else u) k (endRun r c.1 c.2.1 c.2.2)
    | none => solvBegin u k d r := by
  obtain ⟨runs, idle, free, room, posted, well, names⟩ := takes
  subst names words left desc run
  refine if_neg ?_
  rintro (no | no | no | no | no | no | no)
  · exact ne_true_of_eq_false (congrArg not runs) no
  · exact no idle
  · rw [getSolv, free] at no
    exact absurd no (by decide)
  · exact posted no
  · exact absurd (of_decide_eq_true no) (Nat.not_le.2 room)
  · exact no well
  · exact no (.inl rfl)

theorem solverStart_begins (sound : solvRefusal u k ws d = none) : solverStart s k op = solvBegin u k d r := by
  rw [solverStart_takes takes words left desc run, sound]

theorem solverStart_refuses {c : Nat × Nat × Nat} (bad : solvRefusal u k ws d = some c) (other : c.1 ≠ svBadStructure) :
    solverStart s k op = setSolv u k (endRun r c.1 c.2.1 c.2.2) := by
  rw [solverStart_takes takes words left desc run, bad]
  simp only [if_neg fun both : c.1 = svBadStructure ∧ d.op ≠ 3 => other both.1]

theorem solverStart_badStructure {dt ad : Nat} (bad : solvRefusal u k ws d = some (svBadStructure, dt, ad)) :
    solverStart s k op = setSolv (if d.op = 3 then u else
      writeBlock u d (if d.op = 4 then runOfBlock u d (endRun r svBadStructure dt ad) else endRun r svBadStructure dt ad) 4) k
        (endRun r svBadStructure dt ad) := by
  rw [solverStart_takes takes words left desc run, bad]
  by_cases solve : d.op = 3
  · simp only [solve, ne_eq, not_true, and_false, if_false, if_true]
  · simp only [solve, ne_eq, not_false_iff, and_true, if_false, if_true]

end

theorem solvRefusal_badWord {ws : List W64} {d : SolvDesc} {n : Nat} (bad : solvCheck s k ws d = some n) :
    solvRefusal s k ws d = some (svBadDescriptor, n, 0) := by
  unfold solvRefusal
  rw [bad]

/-- Settles O57: the doorbell by its legal indices, the operations by the head of the ring. -/
theorem solverTakesDescriptors : Obligations.SolverTakesDescriptors := by
  refine ⟨fun b h v s canon pass => ?doorbell, fun h s => ?operations⟩
  case doorbell =>
    intro k legal tail head
    have w := regs_rising canon.mg
    have low : tail % 2 ^ 16 = tail := Nat.mod_eq_of_lt (bits_lt ..)
    have high : head % 2 ^ 16 = head := Nat.mod_eq_of_lt (bits_lt ..)
    refine ⟨fun bad => ?illegal, fun good => ⟨⟨_, congrArg Host.Outcome.next (solvDbWrite_legal pass good), resp_done _, ?tails, ?heads,
      fun waits free room => doorbell_idle w waits free (by rwa [high])⟩, rfl⟩, fun good => ?cancel⟩
    case illegal =>
      have run := solvDbWrite_illegal pass bad
      exact ⟨congrArg Host.Outcome.next run, congrArg Host.Outcome.next run⟩
    case tails => exact (doorbell_shows w).1.trans low
    case heads => exact (doorbell_shows w).2.trans high
    case cancel =>
      have small : getF s F.SOLV_DB_SQ_TAIL k < 2 ^ 16 := bits_lt ..
      have small' : getF s F.SOLV_DB_CQ_HEAD k < 2 ^ 16 := bits_lt ..
      obtain ⟨asks, tails, heads⟩ := cancelWord small' small
      have stands := solvDbWrite_legal (v := BitVec.ofNat 64 (2 ^ 63 + getF s F.SOLV_DB_CQ_HEAD k * 65536 + getF s F.SOLV_DB_SQ_TAIL k)) pass
        (by rw [tails, heads]; exact good)
      rw [tails, heads] at stands
      refine ⟨_, congrArg Host.Outcome.next stands, resp_done _, (doorbell_shows w).1.trans (Nat.mod_eq_of_lt small), ?_⟩
      rw [half_done, cancel_cancelTold asks, half_waitEnded, half_indicesSet]
  case operations =>
    intro k head ws room posted u start op mem fop d r
    have run : start op = .next (solverStart s k op) := by
      obtain rfl | rfl | rfl | rfl := mem <;> rfl
    have factor : factorOp u ws op = fop := by
      obtain rfl | rfl | rfl | rfl := mem <;> rfl
    refine ⟨fun rests => run.trans (congrArg Host.Outcome.next (solverStart_rests rests)), fun runs idle free has post well names => ?_⟩
    have takes : EngineTakes s k op := ⟨runs, idle, free, has, post, well, names⟩
    have desc : solvDesc ws (factorOp u ws op) = d := by rw [factor]
    have new : newRun ws (factorOp u ws op) (reg u .tbHall k 0) = r := by rw [factor]
    exact ⟨fun sound => run.trans (congrArg Host.Outcome.next (solverStart_begins takes rfl rfl desc new sound)),
      fun st dt ad bad other => run.trans (congrArg Host.Outcome.next (solverStart_refuses takes rfl rfl desc new bad other)),
      fun dt ad bad => run.trans (congrArg Host.Outcome.next (solverStart_badStructure takes rfl rfl desc new bad)),
      fun n bad => run.trans (congrArg Host.Outcome.next
        (solverStart_refuses takes rfl rfl desc new (solvRefusal_badWord bad) (by decide : svBadDescriptor ≠ svBadStructure)))⟩

end Sys2Proof.Machine
end

section
/-! SUPPORT. A solver run goes to its record (R216, R222, R230-R240), and the proof of its obligation. -/

namespace Sys2Proof.Machine

variable {s t : State} {a : Nat} {h : BitVec 1} {r : SolvRun}

/-! Panel steps (R222, R233, R356). -/

theorem runDesc_solvEdge (k : Nat) : runDesc (solvEdge s k r) = runDesc r := by
  unfold solvEdge
  simp only
  split <;> rfl

theorem panel_solvEdge (k : Nat) : (solvEdge s k r).panel = r.panel := by
  unfold solvEdge
  simp only
  split <;> rfl

theorem solvStop_edge (k late : Nat) : solvStop s k (solvEdge s k r) late = solvStop s k r late := by
  unfold solvStop solvLate
  rw [runDesc_solvEdge]

theorem solvStop_late {k late : Nat} (is : solvLate s k r = true) : solvStop s k r late = some late := if_pos is

theorem solvStop_cancelled {k late : Nat} (early : solvLate s k r = false) (cancel : (half s k).cancel = true) :
    solvStop s k r late = some svCancelled := (if_neg (ne_true_of_eq_false early)).trans (if_pos cancel)

theorem solvStop_none {k late : Nat} (early : solvLate s k r = false) (goes : (half s k).cancel = false) :
    solvStop s k r late = none := (if_neg (ne_true_of_eq_false early)).trans (if_neg (ne_true_of_eq_false goes))

section
variable (has : (half s h.toNat).solv = some r) (on : r.done = none) (free : engHeld s h.toNat = false)

/-- The panel step after its tests. -/
def panelGoes (s : State) (k : Nat) (r : SolvRun) : State :=
  if brakeWanted s k then joinBrake (setSolv (writeBlock s (runDesc r) (solvEdge s k r) 2) k (solvEdge s k r)) k
  else match (runDesc r).gangs.find? fun g => gangState s g == gsHalted with
    | some g => failFactor (smearStep s (runDesc r) (((runDesc r).cols r.panel).headD 0)) k (solvEdge s k r) svUpdateFault (getF s F.ROW_STATUS_HCODE g)
    | none =>
      let w := writeBlock s (runDesc r) (solvEdge s k r) 1
      match solvBadLine w (runDesc r) with
      | some a => failFactor w k (solvEdge s k r) svMemory 0 a
      | none => if !fillSound w (runDesc r) r.panel then failFactor w k (solvEdge s k r) svBadStructure else panelStep w k (solvEdge s k r)

/-- A correction after its tests. -/
def correctionGoes (s : State) (k : Nat) (r : SolvRun) : State :=
  match solvBadLine s (runDesc r) with
  | some a => endSolv s k r svMemory 0 a
  | none => match r.gm with
    | some g => gmInner s k (runDesc r) r g
    | none =>
      if r.tested then correct s k (runDesc r) r
      else
        match testRun s k (runDesc r) (if r.x ≠ [] then r else { r with
            b := readVec s (runDesc r) (runDesc r).b,
            x := if (runDesc r).x0 = 0 then eachCol (runDesc r) (triSolve s (runDesc r)) (readVec s (runDesc r) (runDesc r).b)
              else readVec s (runDesc r) (runDesc r).x0 }) with
        | (r, some c) => if c = svNonfinite then endSolv s k r c else stopRefine s k r c
        | (u, none) =>
          if brakeWanted s k then joinBrake (setSolv (writeVec s (runDesc r).x u.x) k u) k else correct s k (runDesc r) u

include has on free

theorem execSolverPanelStep_factors (factors : r.phase = 0) : execSolverPanelStep h s = .next
    (match solvStop s h.toNat r svDeadlineFactor with
    | some c => stopFactor s h.toNat (solvEdge s h.toNat r) c
    | none => panelGoes s h.toNat r) := by
  unfold execSolverPanelStep
  simp only [getSolv, has, on, factors, free, Option.isSome_none, Bool.false_eq_true, ne_eq, not_true, or_self, if_false, solvStop_edge,
    panel_solvEdge]
  rfl

/-! Corrections (R230-R232, R356). -/

theorem execSolverCorrection_refines (refines : r.phase = 1) : execSolverCorrection h s = .next (correctionGoes s h.toNat r) := by
  unfold execSolverCorrection
  simp only [getSolv, has]
  refine congrArg Host.Outcome.next ((if_neg ?_).trans rfl)
  rw [on, refines, free]
  decide

end

theorem panelGoes_joins {k : Nat} (wanted : brakeWanted s k = true) : panelGoes s k r =
    joinBrake (setSolv (writeBlock s (runDesc r) (solvEdge s k r) 2) k (solvEdge s k r)) k := if_pos wanted

section
variable {k : Nat} (alone : brakeWanted s k = false) (run : ∀ g ∈ (runDesc r).gangs, gangState s g ≠ gsHalted) {w : State}
  (noted : writeBlock s (runDesc r) (solvEdge s k r) 1 = w)
include alone run noted

theorem panelGoes_on : panelGoes s k r = match solvBadLine w (runDesc r) with
    | some a => failFactor w k (solvEdge s k r) svMemory 0 a
    | none => if !fillSound w (runDesc r) r.panel then failFactor w k (solvEdge s k r) svBadStructure else panelStep w k (solvEdge s k r) := by
  have none' : (runDesc r).gangs.find? (fun g => gangState s g == gsHalted) = none :=
    List.find?_eq_none.2 fun g mem => by simpa using run g mem
  subst noted
  unfold panelGoes
  rw [if_neg (ne_true_of_eq_false alone), none']

end

/-! The record (R216, R240). -/

/-- Words of the package and of the solver rings lie below the spaces of the halves (R492, R495). -/
theorem regAddr_lt_halves {q : Reg} {i j : Nat} (blk : (regSpec q).blk = .dev ∨ (regSpec q).blk = .solv)
    (inst : i < blockCount (regSpec q).blk) (word : j < (regSpec q).count) : regAddr q i j < halfBase 0 := by
  have inside := wordOff_lt_blockSize word
  rw [regAddr_eq]
  generalize wordOff q j = o at inside
  obtain blk | blk := blk
  all_goals
    rw [blk] at inst inside ⊢
    simp only [blockCount, blockSize, blockBase, halfBase] at inst inside ⊢
    omega

theorem ne_tracker {i : Nat} (low : a < halfBase 0) : a ≠ regAddr .ckpTrk i 0 := by
  have above : halfBase 0 ≤ regAddr .ckpTrk i 0 := by
    rw [regAddr_eq]
    simp only [regSpec, blockBase, halfBase]
    omega
  exact Nat.ne_of_lt (lt_of_lt_of_le low above)

theorem wordKept_stashFor (low : a < halfBase 0) (x : Nat) : WordKept a s (stashFor s x) := by
  refine .ite (fun _ => ?_) fun _ => .refl
  refine .trans (.trans (.bumpF (f := F.CKP_TRK_HOLDS) (ne_tracker low))
    (.ite (fun _ => .bumpF (f := F.CKP_TRK_HOLD_FULL) (ne_tracker low)) fun _ => .refl)) .updHalf

theorem hbmStore_mg (x : Nat) (bs : List Byte) : (hbmStore s x bs).mg = s.mg := by
  obtain ⟨y, z, same⟩ := hbmStore_bytes s x bs
  rw [same]
  rfl

theorem wordKept_engWrite (low : a < halfBase 0) (x : Nat) (bs : List Byte) : WordKept a s (engWrite s x bs) :=
  ((wordKept_stashFor low x).trans (wordKept_stashFor low _)).trans (.of_mg (hbmStore_mg ..))

/-- The record stands in its slot. -/
def recordWritten (s : State) (k : Nat) (ws : List W64) : State :=
  engWrite s (getF s F.SOLV_CQ_CQ_BASE k * 4096 + getF s F.SOLV_STAT_CQ_TAIL k % 2 ^ getF s F.SOLV_CQ_CQ_LOG2 k * 64) (wordBytes ws)

/-- The ring has moved on past it. -/
def recordPosted (s : State) (k : Nat) (ws : List W64) : State :=
  putF (putF (recordWritten s k ws) F.SOLV_STAT_CQ_TAIL k (getF s F.SOLV_STAT_CQ_TAIL k + 1)) F.SOLV_STAT_PANEL k 0

/-- The engine is free, and the record told. -/
def recordTold (s : State) (k : Nat) (ws : List W64) (status st : Nat) : State :=
  let t := updHalf (putF (recordPosted s k ws) F.SOLV_STAT_STATE k st) k fun x => { x with solv := none, cancel := false }
  if bit (half t k).cfg.writers 0 then raiseEvent t k evSolver status ws else tellNode t k evSolver status ws

/-- SOLV_STAT once the record is posted. -/
def stateAfter (s : State) (k : Nat) : Nat := if !halfRunning s k then 3 else if cqFull s k then 2 else 0

section
variable (has : (half s h.toNat).solv = some r) {st dt ad : Nat} (ended : r.done = some (st, dt, ad))
include has ended

theorem execSolverCompletion_full (runs : halfRunning s h.toNat = true) (full : cqFull s h.toNat = true) :
    execSolverCompletion h s = .next (putF s F.SOLV_STAT_STATE h.toNat 2) := by
  unfold execSolverCompletion
  simp only [getSolv, has, ended, full, runs, if_true]

theorem execSolverCompletion_room {ws : List W64} (words : solvRecord r st dt ad (reg s .tbHall h.toNat 0) = ws)
    (room : cqFull s h.toNat = false) : execSolverCompletion h s =
      .next (recordTold s h.toNat ws st (stateAfter (recordPosted s h.toNat ws) h.toNat)) := by
  subst words
  unfold execSolverCompletion
  simp only [getSolv, has, ended, room, Bool.false_eq_true, if_false]
  rfl

end

theorem mg_recordTold {k status st : Nat} {ws : List W64} :
    (recordTold s k ws status st).mg = (putF (recordPosted s k ws) F.SOLV_STAT_STATE k st).mg := by
  unfold recordTold
  extract_lets t
  have told : t.mg = _ := updHalf_mg ..
  split
  · exact (raiseEvent_mg ..).trans told
  · exact (updHalf_mg ..).trans told

theorem solv_recordTold {k status st : Nat} {ws : List W64} : (half (recordTold s k ws status st) k).solv = none := by
  unfold recordTold
  extract_lets t
  have free : (half t k).solv = none := congrArg Half.solv (half_updHalf_self ..)
  have kept : HalfKept Half.solv k t (if bit (half t k).cfg.writers 0 then raiseEvent t k evSolver status ws else tellNode t k evSolver status ws) :=
    .ite (.raiseEvent fun _ _ _ _ => rfl) (halfKept_tellNode fun _ _ => rfl)
  exact Eq.trans kept free

section
variable {k : Nat} {ws : List W64} (w : Rising s.mg) (inside : k < 2)
include w inside

theorem rising_recordWritten : Rising (recordWritten s k ws).mg :=
  (wordKept_engWrite (a := regAddr .solvCq k 0) (regAddr_lt_halves (by decide) inside (by decide)) _ _ w).1

theorem recordPosted_shows : getF (recordPosted s k ws) F.SOLV_STAT_CQ_TAIL k = (getF s F.SOLV_STAT_CQ_TAIL k + 1) % 2 ^ 16 ∧
    getF (recordPosted s k ws) F.SOLV_CQ_CQ_LOG2 k = getF s F.SOLV_CQ_CQ_LOG2 k ∧
    getF (recordPosted s k ws) F.SOLV_DB_CQ_HEAD k = getF s F.SOLV_DB_CQ_HEAD k ∧
    halfRunning (recordPosted s k ws) k = halfRunning s k := by
  have ww := rising_recordWritten (ws := ws) w inside
  have kept {q : Reg} {i j : Nat} (low : regAddr q i j < halfBase 0) (ne : regAddr q i j ≠ regAddr .solvStat k 0) :
      WordKept (regAddr q i j) s (recordPosted s k ws) :=
    ((wordKept_engWrite low _ _).trans (.putF (f := F.SOLV_STAT_CQ_TAIL) ne)).trans (.putF (f := F.SOLV_STAT_PANEL) ne)
  refine ⟨(getF_putF_beside (rising_putF ww ..) F.SOLV_STAT_PANEL F.SOLV_STAT_CQ_TAIL (by decide)).trans
    (getF_putF_same ww F.SOLV_STAT_CQ_TAIL (by decide)), ?_, ?_, ?_⟩
  · exact (kept (regAddr_lt_halves (by decide) inside (by decide)) (regAddr_ne_word (by decide))).getF (f := F.SOLV_CQ_CQ_LOG2) w
  · exact (kept (regAddr_lt_halves (by decide) inside (by decide)) (regAddr_ne_word (by decide))).getF (f := F.SOLV_DB_CQ_HEAD) w
  · have word : k < (regSpec .devHalf).count := inside
    obtain ⟨state, fatal⟩ := halfState_of_kept (kept (q := .devHalf) (regAddr_lt_halves (by decide) (by decide) word)
      (regAddr_ne_block (by decide) (by decide) word inside (by decide))) w
    rw [halfRunning, halfRunning, state, fatal]

theorem stateAfter_posted (runs : halfRunning s k = true) : stateAfter (recordPosted s k ws) k =
    if 2 ^ getF s F.SOLV_CQ_CQ_LOG2 k ≤ ringCount ((getF s F.SOLV_STAT_CQ_TAIL k + 1) % 2 ^ 16) (getF s F.SOLV_DB_CQ_HEAD k) then 2 else 0 := by
  obtain ⟨tail, log, head, running⟩ := recordPosted_shows (ws := ws) w inside
  rw [stateAfter, running, runs, cqFull, tail, log, head]
  simp only [Bool.not_true, Bool.false_eq_true, if_false, decide_eq_true_eq]

end

/-- Settles O58: each command by its equation, the record by what it leaves of the ring. -/
theorem solverRunsToItsRecord : Obligations.SolverRunsToItsRecord := by
  intro h s r k d has
  refine ⟨fun on free factors => ?panel, fun on free refines => ?correction, fun st dt ad ended runs canon => ?record⟩
  case panel =>
    have run := execSolverPanelStep_factors has on free factors
    refine ⟨fun late => ?_, fun early cancel => ?_, fun early goes wanted => ?_, fun early goes alone unhalted => ?_⟩
    · rwa [solvStop_late late] at run
    · rwa [solvStop_cancelled early cancel] at run
    · rw [solvStop_none early goes] at run
      exact run.trans (congrArg Host.Outcome.next (panelGoes_joins wanted))
    · intro w
      rw [solvStop_none early goes] at run
      have goesOn := run.trans (congrArg Host.Outcome.next (panelGoes_on alone unhalted (w := w) rfl))
      refine ⟨fun a bad => ?_, fun good sound => ?_⟩
      · rwa [show solvBadLine w (runDesc r) = some a from bad] at goesOn
      · rwa [show solvBadLine w (runDesc r) = none from good,
          show fillSound w (runDesc r) r.panel = true from sound] at goesOn
  case correction =>
    have run := execSolverCorrection_refines has on free refines
    unfold correctionGoes at run
    refine ⟨fun a bad => ?_, fun g good inner => ?_, fun good classical tested => ?_, fun good classical fresh has' => ?_⟩
    · rwa [show solvBadLine s (runDesc r) = some a from bad] at run
    · rwa [show solvBadLine s (runDesc r) = none from good, inner] at run
    · rwa [show solvBadLine s (runDesc r) = none from good, classical, tested] at run
    · rw [show solvBadLine s (runDesc r) = none from good, classical, fresh, if_pos has'] at run
      refine ⟨fun u small => ?_, fun u goes alone => ?_⟩
      · rw [show testRun s h.toNat (runDesc r) r = (u, some svOk) from small] at run
        exact run
      · rw [show testRun s h.toNat (runDesc r) r = (u, none) from goes, show brakeWanted s h.toNat = false from alone] at run
        exact run
  case record =>
    have w := regs_rising canon.mg
    intro tail log
    refine ⟨fun full => execSolverCompletion_full has ended runs (decide_eq_true full),
      fun room => ⟨_, execSolverCompletion_room has ended rfl (decide_eq_false (Nat.not_le.2 room)), solv_recordTold, ?tails, ?states⟩⟩
    all_goals
      have posted := recordPosted_shows (ws := solvRecord r st dt ad (reg s .tbHall h.toNat 0)) w h.isLt
      have wp : Rising (recordPosted s k (solvRecord r st dt ad (reg s .tbHall h.toNat 0))).mg :=
        rising_putF (rising_putF (rising_recordWritten w h.isLt) ..) ..
    case tails =>
      refine ((WordKept.of_mg mg_recordTold).getF (f := F.SOLV_STAT_CQ_TAIL) (rising_putF wp ..)).trans ?_
      exact (getF_putF_beside wp F.SOLV_STAT_STATE F.SOLV_STAT_CQ_TAIL (by decide)).trans posted.1
    case states =>
      refine ((WordKept.of_mg mg_recordTold).getF (f := F.SOLV_STAT_STATE) (rising_putF wp ..)).trans ?_
      refine (getF_putF_same wp F.SOLV_STAT_STATE (by decide)).trans ?_
      rw [stateAfter_posted w h.isLt runs]
      split <;> rfl

end Sys2Proof.Machine
end

section
/-! SUPPORT. Weir blocks cross the seam (R279, R281, R284-R288), and the proof of their obligation. -/

namespace Sys2Proof.Machine

variable {s : State} {b dir : BitVec 1} {x : WeirBlk}

/-! Encoding (R284, R285). -/

/-- The coded block and its form. -/
def weirCoded (s : State) (k d : Nat) (x : WeirBlk) : List Byte × Nat :=
  let ps := patterns (weirBytes x.fmt) (weirRead s x).2
  if x.mode = 3 then (rateBlock (weirFmt x.fmt) x.param ps, 4)
  else predEncode x.mode x.fmt x.param x.square (decide (weirQueued s k d < 8192)) ps

/-- The bytes before and after, counted. -/
def weirCounted (s : State) (k d n m : Nat) : State := bumpF (bumpF s F.WEIR_IN_BYTES k n d) F.WEIR_OUT_BYTES k m d

/-- The form of the block, counted. -/
def formCounted (s : State) (k d form : Nat) : State :=
  if form = 2 then bumpF s F.WEIR_FORMS_LOOSE k 1 d else if form = 0 then bumpF s F.WEIR_FORMS_RAW k 1 d else s

/-- The block stands coded. -/
def blockCoded (s : State) (k d : Nat) (x : WeirBlk) : State :=
  let c := weirCoded s k d x
  let t := formCounted (weirCounted s k d (weirRead s x).2.length c.1.length) k d c.2
  { t with weir := t.weir.set (t.weir.idxOf x) { x with coded := some c.1 } }

section
variable (first : s.weir.find? (fun x => x.bridge == b.toNat && x.dir == dir.toNat && weirBlank x) = some x) (serves : bridgeUp s b.toNat = true)
include first serves

theorem execWeirBlockEncode_found : execWeirBlockEncode b dir s = .next
    (if (weirRead s x).1 ≠ 0 then answerW { s with weir := s.weir.erase x } x.who (weirRead s x).1 false []
    else blockCoded s b.toNat dir.toNat x) := by
  unfold execWeirBlockEncode
  simp only [first, serves, Bool.not_true, Bool.false_eq_true, if_false]
  rfl

end

theorem weir_formCounted {k d form : Nat} : (formCounted s k d form).weir = s.weir ∧ (formCounted s k d form).hbm = s.hbm ∧
    (formCounted s k d form).cores = s.cores := by
  unfold formCounted
  split
  · exact ⟨rfl, rfl, rfl⟩
  · split <;> exact ⟨rfl, rfl, rfl⟩

theorem wordKept_formCounted {a k d form : Nat} (ne : a ≠ regAddr .weirForms k d) : WordKept a s (formCounted s k d form) :=
  .ite (fun _ => .bumpF (f := F.WEIR_FORMS_LOOSE) ne) fun _ => .ite (fun _ => .bumpF (f := F.WEIR_FORMS_RAW) ne) fun _ => .refl

theorem satAdd_lt (width v n : Nat) : satAdd width v n < 2 ^ width := by
  have some' := Nat.two_pow_pos width
  unfold satAdd
  omega

theorem getF_bumpF_same (w : Rising s.mg) (f : Fld) (fits : f.hi < 64 ∧ f.lo ≤ f.hi) {i n j : Nat} :
    getF (bumpF s f i n j) f i j = satAdd (f.hi - f.lo + 1) (getF s f i j) n :=
  (getF_putF_same w f fits).trans (Nat.mod_eq_of_lt (satAdd_lt ..))

theorem weirWords_apart (k d : Nat) : regAddr .weirIn k d ≠ regAddr .weirOut k d ∧ regAddr .weirIn k d ≠ regAddr .weirForms k d ∧
    regAddr .weirOut k d ≠ regAddr .weirForms k d := by
  refine ⟨regAddr_ne_word ⟨rfl, ?_⟩, regAddr_ne_word ⟨rfl, ?_⟩, regAddr_ne_word ⟨rfl, ?_⟩⟩
  all_goals
    simp only [wordOff, regSpec]
    omega

theorem weirCounts_coded (w : Rising s.mg) (k d : Nat) :
    getF (blockCoded s k d x) F.WEIR_IN_BYTES k d = satAdd 64 (getF s F.WEIR_IN_BYTES k d) (weirRead s x).2.length ∧
      getF (blockCoded s k d x) F.WEIR_OUT_BYTES k d = satAdd 64 (getF s F.WEIR_OUT_BYTES k d) (weirCoded s k d x).1.length := by
  obtain ⟨inOut, inForms, outForms⟩ := weirWords_apart k d
  have wi : Rising (bumpF s F.WEIR_IN_BYTES k (weirRead s x).2.length d).mg := rising_setReg w ..
  have wc : Rising (weirCounted s k d (weirRead s x).2.length (weirCoded s k d x).1.length).mg := rising_setReg wi ..
  have forms {a : Nat} (ne : a ≠ regAddr .weirForms k d) :
      WordKept a (weirCounted s k d (weirRead s x).2.length (weirCoded s k d x).1.length) (blockCoded s k d x) :=
    (wordKept_formCounted ne).trans (.of_mg rfl)
  have before : WordKept (regAddr .weirOut k d) s (bumpF s F.WEIR_IN_BYTES k (weirRead s x).2.length d) := .bumpF (f := F.WEIR_IN_BYTES) inOut.symm
  constructor
  · refine ((forms inForms).getF (f := F.WEIR_IN_BYTES) wc).trans ?_
    exact ((WordKept.bumpF (f := F.WEIR_OUT_BYTES) inOut).getF (f := F.WEIR_IN_BYTES) wi).trans (getF_bumpF_same w F.WEIR_IN_BYTES (by decide))
  · refine ((forms outForms).getF (f := F.WEIR_OUT_BYTES) wc).trans ((getF_bumpF_same wi F.WEIR_OUT_BYTES (by decide)).trans ?_)
    exact congrArg (satAdd 64 · _) (before.getF (f := F.WEIR_OUT_BYTES) w)

/-! Decoding (R281, R285, R288). -/

/-- The lines that a coded block's patterns make at its destination. -/
def decodedLines (x : WeirBlk) : List (Loc × List Byte) :=
  let coded := x.coded.getD []
  let ps := if x.mode = 3 then rateDecode (weirFmt x.fmt) x.param 256 (coded.take (32 * x.param))
    else predDecode x.mode x.fmt x.param x.square coded
  let n := pieceBytes x
  x.dst.zipIdx.flatMap fun p => cutLines (n + 1) p.1 (((ps.flatMap (toBytes (weirBytes x.fmt))).drop (n * p.2)).take n)

/-- The sidecar of a block, written where its lines all arrived. -/
def sideWritten (x : WeirBlk) (put : State × BitVec 8) : State :=
  match x.side with
  | some l => if put.2 = 0 then finishW (locWrite (moreWait put.1 x.who) (waiterHalf x.who) l ((x.coded.getD []).drop (32 * x.param)) x.who) x.who
    else put.1
  | none => put.1

theorem execWeirBlockDecode_found {put : State × BitVec 8}
    (first : s.weir.find? (fun x => x.bridge == b.toNat && x.dir == dir.toNat && !weirBlank x) = some x)
    (lines : putLines { s with weir := s.weir.erase x } (waiterHalf x.who) x.who (decodedLines x) = put) :
    execWeirBlockDecode b dir s = .next (answerW (sideWritten x put) x.who 0 false []) := by
  subst lines
  unfold execWeirBlockDecode
  simp only [first]
  rfl

/-- Settles O59: each command by its equation. -/
theorem weirBlocksCross : Obligations.WeirBlocksCross := by
  intro b dir s k d
  refine ⟨fun x first serves => ?encode, fun x first => ?decode, fun retired => congrArg Host.Outcome.next (if_pos retired),
    fun up => congrArg Host.Outcome.next (if_neg up)⟩
  case encode =>
    have run := execWeirBlockEncode_found first serves
    refine ⟨fun bad => run.trans (congrArg Host.Outcome.next (if_pos bad)),
      fun good => ⟨_, (weirCoded s k d x).1, run.trans (congrArg Host.Outcome.next (if_neg (not_not.2 good))), ?_⟩⟩
    obtain ⟨blocks, bytes, cores⟩ := weir_formCounted (s := weirCounted s k d (weirRead s x).2.length (weirCoded s k d x).1.length)
      (k := k) (d := d) (form := (weirCoded s k d x).2)
    refine ⟨?blocks, bytes, cores, fun rate => ?rate, fun canon => ?counts⟩
    case blocks => exact congrArg (fun l : List WeirBlk => l.set (l.idxOf x) { x with coded := some (weirCoded s k d x).1 }) blocks
    case rate =>
      unfold weirCoded
      rw [if_pos rate]
    case counts =>
      obtain ⟨read, coded⟩ := weirCounts_coded (x := x) (regs_rising canon.mg) k d
      exact ⟨read.trans (Nat.min_comm ..), coded.trans (Nat.min_comm ..)⟩
  case decode =>
    intro coded ps n ls put
    have run := execWeirBlockDecode_found first (put := put) rfl
    refine ⟨fun rests => run.trans (congrArg (fun t => Host.Outcome.next (answerW t x.who 0 false [])) ?_),
      fun l side whole => run.trans (congrArg (fun t => Host.Outcome.next (answerW t x.who 0 false [])) ?_)⟩
    · unfold sideWritten
      obtain none' | bad := rests
      · rw [none']
      · cases x.side with
        | none => rfl
        | some l => exact if_neg bad
    · unfold sideWritten
      rw [side]
      exact if_pos whole

end Sys2Proof.Machine
end
